-- ==== Sys2Proof/Word.lean ====
section
/-! DEFINITION. The word types of the Ivura and their plainest helpers (00 R2, R6; 02 R28). -/
namespace Sys2Proof

/-- One lane word of a vector register (07 R197). -/
abbrev Word := BitVec 32
/-- One team scalar, launch constant or pair (06 R157). -/
abbrev DWord := BitVec 64
/-- A hierarchical mask (02 R28): bit l is lane l. The crown word is derived from it. -/
abbrev Mask := BitVec 1024

/-- A table keyed by number, in strictly rising key order. -/
abbrev Tbl (α : Type) := List (Nat × α)

end Sys2Proof
end

