-- ==== Sys2Proof/Config.lean ====
section
/-! DEFINITION. What a part's fuses, its surroundings and the manual's silence leave free, as constants
without a body: nothing can prove a value of one. Log entry 3 (free values), 9 (fused figures). -/
namespace Sys2Proof.Config

/-- A free choice among n candidates at the k-th draw (03 R52's victim, 02 R52; log entry 3). -/
opaque freeChoice : Nat → Nat

/-- Device nanoseconds that pass at the n-th step (log entry 5). -/
opaque elapsed : Nat → Nat

/-- The fused weight of class c at OP8, in mq (03 R69, 11 R342; log entry 9). -/
opaque weight : Nat → Nat

/-- The fused leakage figure L(p, b) of core c, in mq per tick, before the bounds of 03 R524 (log entry 9). -/
opaque leakage : Nat → Nat → Nat → Nat

/-- The leakage model of the base domain of quadrant q in band b, in mq per tick (03 R74 gives no figure). -/
opaque baseLeakage : Nat → Nat → Nat

/-- How many thermal sensors a quadrant has (21 R513 gives no number). -/
opaque thermalSensors : Nat → Nat

/-- This package's identifier on the Rensar links (13 R378 gives no source for it). -/
opaque packageId : Nat

/-- The fused idle figure of the package in the hottest band b in force, in mW (21 R507). -/
opaque idlePower : Nat → Nat

/-- How many flits a message of a given number of data bytes takes on the NoC (01 R521 gives no message
sizes; log entry 9). -/
opaque flits : Nat → Nat

/-- Sectors of 64 bytes that 512 bytes compress into (04 R109 gives no algorithm; log entry 9). -/
opaque compressed : List (BitVec 8) → Nat

/-- Byte i of the 32-byte device identity digest (03 R83). -/
opaque deviceDigest : Nat → BitVec 8

/-- Byte i of the device's ML-DSA-65 signature over the bytes of a meter record's head, a measurement response or a checkpoint's
manifest (03 R83, 13 R384). -/
opaque deviceSignature : List (BitVec 8) → Nat → BitVec 8

/-- The AES-256-GCM tag of a Rensar message under a port's key, over its header's fields and its data (13 R378, R379). -/
opaque linkTag : Nat → Nat → List Nat → List (BitVec 8) → BitVec 64

/-- What one wake of a gated unit charges to the host's overhead account, in mq (13 R386 gives no figure; log entry 24). -/
opaque wakeCharge : Nat

/-- The grant of a package whose rack's demands sum to its floors though they are not each at theirs, in mW, from its floor and
its demand (03 R85 divides by zero there; log entry 11). -/
opaque openShare : Nat → Nat → Nat

/-- What the signing of one meter record charges to the host's overhead account, in mq (03 R71 gives no figure; log entry
43). -/
opaque signingCharge : Nat

/-- The bank of its channels that holds a machine block, in its slice (04 R125, R126 give no mapping; log entry 41). -/
opaque bankOf : Nat → Nat

/-- The row of its bank that holds a machine block, among the 8,192 that refresh commands take in turn (04 R125, R126 give no
mapping; log entry 41). -/
opaque rowOf : Nat → Nat

/-- What one refresh command charges to the host's overhead account, in mq (04 R126 gives no figure; log entry 43). -/
opaque refreshCharge : Nat

/-- The measurement register after extending it with a digest (13 R383 does not say how a register
is extended). -/
opaque measure : BitVec 256 → BitVec 256 → BitVec 256

/-- The result of special function f (its opcode) on an input whose value the interval
computation does not decide at its working precision (log entry 12). -/
opaque undecided : Nat → BitVec 64 → BitVec 64

end Sys2Proof.Config
end

