-- ==== Sys2Proof/Syntax.lean ====
section
/-! DEFINITION. The instructions and events of the Ivura: one constructor per row of
`spec/opcode_table.json`. Team instructions and stream instructions have words (07 R202, R204);
the events have none, and their arguments are what the agent that causes the event supplies. -/
namespace Sys2Proof

/-- An 8-bit operand field (00 R6): a vector register, a team scalar or a launch constant. -/
inductive Opnd where
  | v (n : Nat)   -- v0 to v191
  | s (n : Nat)   -- s0 to s47
  | k (n : Nat)   -- k0 to k15
deriving DecidableEq, Repr

/-- The part of an operand field that an operand of that space may hold (00 R6). -/
def Opnd.wf : Opnd → Bool
  | .v n => decide (n < 192)
  | .s n => decide (n < 48)
  | .k n => decide (n < 16)

/-- What a memory slice is asked to do (04 R106, R107). -/
inductive SliceOp where
  | read (len : Nat)
  | write (bytes : List (BitVec 8))
  | evictLine       -- the line leaves the LLC; R520 leaves the moment open
  | dropTranslation -- a combined translation entry leaves the cache; R520
deriving DecidableEq, Repr

/-- A request at a memory slice (04 R106): the world and IA it names, and what is asked. -/
structure SliceReq where
  world : Nat
  ia : Nat
  op : SliceOp
deriving DecidableEq, Repr

/-- A request in a function's mailbox that firmware serves (12 R360, 13 R376, 20 R480, 03 R81). -/
inductive MailReq where
  | armLaunch (part ctx counterVa recordVa ring target : Nat) -- 12 R360
  | readFires (part index : Nat)                               -- 12 R360
  | hostContext (fn ctx : Nat)                                 -- 13 R376
  | bindFunction (fn world hdmBase : Nat)                      -- 13 R375, R376
  | worldRoots (world s1 s2 baseCtx : Nat)                     -- 04 R93, 03 R74
  | framePool (world va frames : Nat)                          -- 12 R357
  | stage2Pool (world : Nat) (pages : List Nat)                -- 20 R476
  | backing (world ia : Nat)                                   -- 12 R369
  | formPartition (quads : List Nat) (world : Option Nat) (fn mw lo hi floorMw : Nat) -- 12 R364, 03 R81
  | resize (part : Nat) (quads : List Nat)                     -- 19 R449
  | quantum (part world q : Nat)                               -- 03 R80
  | hostPoint (quad p : Nat)                                   -- 03 R81
  | tinv (world k addr : Nat)                                  -- 20 R480
  | meter (world : Nat)                                        -- 03 R83, for the host's own request
  | retirePage (world gpa : Nat)                               -- 20 R476
  | migratePage (world gpa ma : Nat)                           -- 04 R127
  | stage2Entry (ma value : Nat)                               -- 20 R481: the hypervisor writes an entry
  | peerWindow (ia size pkg : Nat)                             -- 09 R271, see log entry 11
  | tagEntry (tag world ia : Nat) (valid : Bool)               -- 13 R381
  | rackCap (mw : Nat)                                         -- 03 R85, for the coordinator
  | hostWindow (base size tagBase : Nat)                       -- 04 R88, R110: a window of host memory
  | restoreKey (slot owner gen : Nat)                          -- 04 R123: a wrapped secret
  | ideKeys                                                    -- 20 R490: IDE keys set up again over SPDM
deriving DecidableEq, Repr

/-- A Rensar header flit (13 R378). -/
structure RensarHdr where
  type : Nat        -- 0 write, 1 read request, 2 response, 3 acknowledgement, 4 error, 5 and 6 Craras, 7 firmware, 8-15 reserved
  len : Nat         -- the coded count of data flits
  dst : Nat
  src : Nat
  world : Nat
  tag : Nat
  ia : Nat
  txid : Nat
  rest : Nat        -- bytes 0x10 to 0x2f, which are 0 in the manual's own messages (log entry 11)
  ctr : Nat         -- the message counter of the world on the port
  mac : BitVec 64
  good : Bool       -- 13 R379: the tag over header and data flits matches
deriving DecidableEq, Repr

/-- What the boot ROM finds when the device leaves reset (13 R383, 21 R505). -/
structure BootImage where
  version : Nat
  entry : Nat       -- where its code begins, and the context and world under which that lies (log entry 46)
  ctx : Nat
  world : Nat
  digest : BitVec 256
  signatureGood : Bool
  epochGood : Bool
deriving DecidableEq, Repr

/-- What a domain's sensor and regulator give for one tick (01 R17, 21 R501): the voltages in mV and currents in µA of the
sensor's 16 samples, and the regulator's own reading of the energy in mq. -/
structure DomainSample where
  volts : List Nat
  amps : List Nat
  phase : Nat
deriving DecidableEq, Repr

/-- MMIO registers with no event of their own (00 R4, 03 R65, 17 R417, 21 R500, R506, 22 R517). -/
inductive MmioReg where
  | refill (ctx : Nat)
  | brim (ctx : Nat)
  | control (ctx : Nat)        -- the word at 0x30: enable, world (write-once), read flags
  | account (ctx : Nat)        -- read
  | level (ctx : Nat)          -- read
  | last (ctx : Nat)           -- read
  | recordPolicyLo (world : Nat)
  | health (quad : Nat)        -- read
  | keySlot (slot : Nat)       -- read
  | credit (ctx : Nat)         -- 03 R65
  | range (ctx n word : Nat)   -- 04 R89
  | rangeStatus                -- read: the function's range-write-refused status (04 R91)
  | scopePolicy (world : Nat)  -- 05 R130
  | queueReset                 -- 19 R466; a write with go is an event of its own, too
  | capRequest                 -- 21 R506, likewise
  | injection                  -- 22 R517, likewise
  | linkStatus                 -- read: the CXL link as training left it (13 R375)
deriving DecidableEq, Repr

/-- The instruction set and the device's events: one constructor per row of the opcode table. -/
inductive Instr where
  | nop -- 0x00, R205
  | mode (imm : Nat) -- 0x01, R216
  | modet (d : Opnd) (imm : Nat) -- 0x02, R216
  | modeg (d : Opnd) (imm : Nat) -- 0x03, R216
  | bra (off : Nat) -- 0x04, R218
  | brz (m : Nat) (inv : Bool) (off : Nat) -- 0x05, R218
  | brnz (m : Nat) (inv : Bool) (off : Nat) -- 0x06, R218
  | brd (m : Nat) (inv : Bool) (off : Nat) -- 0x07, R220
  | joinset (off : Nat) -- 0x08, R219
  | join -- 0x09, R221
  | call (frame : Nat) (off : Nat) -- 0x0a, R223
  | calli (a : Opnd) (frame : Nat) -- 0x0b, R223
  | ret -- 0x0c, R224
  | jmpi (a : Opnd) -- 0x0d, R224
  | exit -- 0x0e, R225
  | demote -- 0x0f, R225
  | trap (imm : Nat) -- 0x10, R229
  | rft -- 0x11, R229
  | yield -- 0x12, R230
  | refill (d : Opnd) (a : Opnd) (b : Opnd) -- 0x13, R226
  | loop (d : Opnd) (imm : Nat) -- 0x14, R232
  | endl -- 0x15, R232
  | mand (d : Nat) (a : Nat) (b : Nat) -- 0x18, R235
  | mor (d : Nat) (a : Nat) (b : Nat) -- 0x19, R235
  | mxor (d : Nat) (a : Nat) (b : Nat) -- 0x1a, R235
  | mnot (d : Nat) (a : Nat) -- 0x1b, R235
  | mcnt (d : Opnd) (a : Nat) -- 0x1c, R235
  | mfirst (d : Opnd) (a : Nat) -- 0x1d, R235
  | mset (d : Nat) (a : Opnd) -- 0x1e, R235
  | mmov (d : Nat) (a : Nat) -- 0x1f, R235
  | add (d : Opnd) (a : Opnd) (b : Opnd) -- 0x20, R236
  | sub (d : Opnd) (a : Opnd) (b : Opnd) -- 0x21, R236
  | addi (d : Opnd) (a : Opnd) (imm : Nat) -- 0x22, R236
  | mul (d : Opnd) (a : Opnd) (b : Opnd) -- 0x23, R236
  | mulh (d : Opnd) (a : Opnd) (b : Opnd) -- 0x24, R236
  | mad (d : Opnd) (a : Opnd) (b : Opnd) -- 0x25, R236
  | div (d : Opnd) (a : Opnd) (b : Opnd) -- 0x26, R237
  | rem (d : Opnd) (a : Opnd) (b : Opnd) -- 0x27, R237
  | min (d : Opnd) (a : Opnd) (b : Opnd) -- 0x28, R236
  | max (d : Opnd) (a : Opnd) (b : Opnd) -- 0x29, R236
  | abs (d : Opnd) (a : Opnd) -- 0x2a, R236
  | neg (d : Opnd) (a : Opnd) -- 0x2b, R236
  | and (d : Opnd) (a : Opnd) (b : Opnd) -- 0x2c, R236
  | or (d : Opnd) (a : Opnd) (b : Opnd) -- 0x2d, R236
  | xor (d : Opnd) (a : Opnd) (b : Opnd) -- 0x2e, R236
  | not (d : Opnd) (a : Opnd) -- 0x2f, R236
  | andi (d : Opnd) (a : Opnd) (imm : Nat) -- 0x30, R236
  | ori (d : Opnd) (a : Opnd) (imm : Nat) -- 0x31, R236
  | xori (d : Opnd) (a : Opnd) (imm : Nat) -- 0x32, R236
  | shl (d : Opnd) (a : Opnd) (b : Opnd) -- 0x33, R238
  | shr (d : Opnd) (a : Opnd) (b : Opnd) -- 0x34, R238
  | sha (d : Opnd) (a : Opnd) (b : Opnd) -- 0x35, R238
  | shli (d : Opnd) (a : Opnd) (imm : Nat) -- 0x36, R238
  | shri (d : Opnd) (a : Opnd) (imm : Nat) -- 0x37, R238
  | shai (d : Opnd) (a : Opnd) (imm : Nat) -- 0x38, R238
  | rol (d : Opnd) (a : Opnd) (b : Opnd) -- 0x39, R238
  | clz (d : Opnd) (a : Opnd) -- 0x3a, R239
  | popc (d : Opnd) (a : Opnd) -- 0x3b, R239
  | brev (d : Opnd) (a : Opnd) -- 0x3c, R239
  | bfx (d : Opnd) (a : Opnd) (b : Opnd) -- 0x3d, R239
  | bfi (d : Opnd) (a : Opnd) (b : Opnd) -- 0x3e, R239
  | sel (d : Opnd) (a : Opnd) (b : Opnd) -- 0x3f, R241
  | ceq (d : Nat) (a : Opnd) (b : Opnd) -- 0x40, R240
  | cne (d : Nat) (a : Opnd) (b : Opnd) -- 0x41, R240
  | clt (d : Nat) (a : Opnd) (b : Opnd) -- 0x42, R240
  | cle (d : Nat) (a : Opnd) (b : Opnd) -- 0x43, R240
  | cgt (d : Nat) (a : Opnd) (b : Opnd) -- 0x44, R240
  | cge (d : Nat) (a : Opnd) (b : Opnd) -- 0x45, R240
  | lim (d : Opnd) (imm : Nat) -- 0x46, R242
  | limh (d : Opnd) (imm : Nat) -- 0x47, R242
  | limx (d : Opnd) (imm : Nat) -- 0x48, R242
  | mov (d : Opnd) (a : Opnd) -- 0x49, R242
  | wfld (d : Opnd) (h : Bool) (f : Nat) -- 0x4b, R243
  | lea (d : Opnd) (a : Opnd) (b : Opnd) -- 0x4c, R244
  | addc (d : Opnd) (a : Opnd) (b : Opnd) -- 0x4d, R236
  | cvti (d : Opnd) (a : Opnd) (p : Nat) (dst : Nat) (src : Nat) -- 0x4e, R245
  | fadd (d : Opnd) (a : Opnd) (b : Opnd) -- 0x50, R251
  | fsub (d : Opnd) (a : Opnd) (b : Opnd) -- 0x51, R251
  | fmul (d : Opnd) (a : Opnd) (b : Opnd) -- 0x52, R251
  | fma (d : Opnd) (a : Opnd) (b : Opnd) -- 0x53, R251
  | fms (d : Opnd) (a : Opnd) (b : Opnd) -- 0x54, R251
  | fnma (d : Opnd) (a : Opnd) (b : Opnd) -- 0x55, R251
  | fmin (d : Opnd) (a : Opnd) (b : Opnd) -- 0x56, R251
  | fmax (d : Opnd) (a : Opnd) (b : Opnd) -- 0x57, R251
  | fabs (d : Opnd) (a : Opnd) -- 0x58, R251
  | fneg (d : Opnd) (a : Opnd) -- 0x59, R251
  | fceq (d : Nat) (a : Opnd) (b : Opnd) -- 0x5a, R252
  | fclt (d : Nat) (a : Opnd) (b : Opnd) -- 0x5b, R252
  | fcle (d : Nat) (a : Opnd) (b : Opnd) -- 0x5c, R252
  | fcun (d : Nat) (a : Opnd) (b : Opnd) -- 0x5d, R252
  | fclass (d : Opnd) (a : Opnd) -- 0x5e, R253
  | frcp (d : Opnd) (a : Opnd) (la : Nat) -- 0x5f, R254
  | frsq (d : Opnd) (a : Opnd) (la : Nat) -- 0x60, R254
  | fsqrt (d : Opnd) (a : Opnd) (la : Nat) -- 0x61, R254
  | fdiv (d : Opnd) (a : Opnd) (b : Opnd) -- 0x62, R251
  | fexp2 (d : Opnd) (a : Opnd) (la : Nat) -- 0x63, R254
  | flog2 (d : Opnd) (a : Opnd) (la : Nat) -- 0x64, R254
  | fsin (d : Opnd) (a : Opnd) (la : Nat) -- 0x65, R254
  | fcos (d : Opnd) (a : Opnd) (la : Nat) -- 0x66, R254
  | ftanh (d : Opnd) (a : Opnd) (la : Nat) -- 0x67, R254
  | frnd (d : Opnd) (a : Opnd) (rc : Nat) -- 0x68, R256
  | ftoi (d : Opnd) (a : Opnd) (u : Bool) -- 0x69, R257
  | itof (d : Opnd) (a : Opnd) (u : Bool) -- 0x6a, R257
  | cvt (d : Opnd) (a : Opnd) (p : Nat) (fs : Nat) -- 0x6b, R259
  | cvtf (d : Opnd) (a : Opnd) (t : Nat) -- 0x6c, R258
  | pack (d : Opnd) (a : Opnd) (b : Opnd) -- 0x6d, R260
  | unpk (d : Opnd) (a : Opnd) (p : Nat) -- 0x6e, R260
  | fscl (d : Opnd) (a : Opnd) (b : Opnd) -- 0x6f, R251
  | cblk (d : Opnd) (a : Opnd) (fs : Nat) -- 0x70, R261
  | qnt (d : Opnd) (a : Opnd) (p : Nat) (fs : Nat) -- 0x71, R262
  | dqnt (d : Opnd) (a : Opnd) (p : Nat) (fs : Nat) -- 0x72, R262
  | cblu (d : Opnd) (a : Opnd) (h : Bool) (fs : Nat) -- 0x73, R263
  | fdot2 (d : Opnd) (a : Opnd) (b : Opnd) -- 0x74, R264
  | fdot4 (d : Opnd) (a : Opnd) (b : Opnd) -- 0x75, R264
  | shfl (d : Opnd) (a : Opnd) (b : Opnd) -- 0x80, R266
  | shflx (d : Opnd) (a : Opnd) (imm : Nat) -- 0x81, R266
  | shflu (d : Opnd) (a : Opnd) (imm : Nat) -- 0x82, R266
  | shfld (d : Opnd) (a : Opnd) (imm : Nat) -- 0x83, R266
  | bcst (d : Opnd) (a : Opnd) (b : Opnd) -- 0x84, R266
  | vany (d : Opnd) (a : Opnd) -- 0x85, R267
  | vall (d : Opnd) (a : Opnd) -- 0x86, R267
  | vbal (d : Opnd) (a : Opnd) -- 0x87, R267
  | red (d : Opnd) (a : Opnd) (op : Nat) -- 0x88, R268
  | scan (d : Opnd) (a : Opnd) (x : Bool) (op : Nat) -- 0x89, R268
  | matchLanes (d : Opnd) (a : Opnd) -- 0x8a, R267
  | rdln (d : Opnd) (a : Opnd) (b : Opnd) -- 0x8b, R266
  | wrln (d : Opnd) (a : Opnd) (b : Opnd) -- 0x8c, R266
  | ld (d : Opnd) (a : Opnd) (la : Nat) (sx : Bool) (sz : Nat) -- 0x90, R272
  | st (sz : Nat) (a : Opnd) (b : Opnd) -- 0x91, R273
  | lds (d : Opnd) (a : Opnd) (la : Nat) (sx : Bool) (sz : Nat) -- 0x92, R272
  | sts (sz : Nat) (a : Opnd) (b : Opnd) -- 0x93, R273
  | lda (d : Opnd) (a : Opnd) (la : Nat) (rmk : Bool) (sc : Nat) -- 0x94, R274
  | stl (z : Bool) (sc : Nat) (a : Opnd) (b : Opnd) -- 0x95, R274
  | ldnc (d : Opnd) (a : Opnd) (la : Nat) (sx : Bool) (sz : Nat) -- 0x96, R272
  | pref (lv : Nat) (a : Opnd) -- 0x97, R275
  | aadd (d : Opnd) (a : Opnd) (b : Opnd) -- 0x98, R276
  | amin (d : Opnd) (a : Opnd) (b : Opnd) -- 0x99, R276
  | amax (d : Opnd) (a : Opnd) (b : Opnd) -- 0x9a, R276
  | aand (d : Opnd) (a : Opnd) (b : Opnd) -- 0x9b, R276
  | aor (d : Opnd) (a : Opnd) (b : Opnd) -- 0x9c, R276
  | axor (d : Opnd) (a : Opnd) (b : Opnd) -- 0x9d, R276
  | axch (d : Opnd) (a : Opnd) (b : Opnd) -- 0x9e, R276
  | acas (d : Opnd) (a : Opnd) (b : Opnd) -- 0x9f, R276
  | afadd (d : Opnd) (a : Opnd) (b : Opnd) -- 0xa0, R276
  | fence (sc : Nat) (o : Nat) -- 0xa1, R278
  | stmap (r : Nat) (a : Opnd) (b : Opnd) -- 0xa2, R279
  | stunmap (r : Nat) -- 0xa3, R279
  | stflush (r : Nat) -- 0xa4, R279
  | ldk (d : Opnd) (a : Opnd) (la : Nat) (rmk : Bool) (sc : Nat) -- 0xa5, R277
  | stk (sc : Nat) (a : Opnd) (b : Opnd) -- 0xa6, R277
  | aaddk (d : Opnd) (a : Opnd) (b : Opnd) -- 0xa7, R277
  | ldcw (d : Opnd) (a : Opnd) (la : Nat) (sx : Bool) (sz : Nat) -- 0xa8, R277
  | bar -- 0xb0, R280
  | nbara (a : Opnd) (n : Nat) -- 0xb1, R281
  | nbarw (n : Nat) -- 0xb2, R281
  | nbaraw (a : Opnd) (n : Nat) -- 0xb3, R281
  | waitc (cmp : Nat) (sc : Nat) (a : Opnd) (b : Opnd) -- 0xb4, R282
  | waitb (sc : Nat) (a : Opnd) (b : Opnd) -- 0xb5, R282
  | signal (sc : Nat) (a : Opnd) (b : Opnd) -- 0xb6, R282
  | waita (sc : Nat) -- 0xb8, R282
  | copy (d : Opnd) (a : Opnd) (b : Opnd) -- 0xc0, R313
  | copy2d (d : Opnd) (a : Opnd) (b : Opnd) -- 0xc1, R313
  | gath (d : Opnd) (a : Opnd) (b : Opnd) -- 0xc2, R313
  | scat (d : Opnd) (a : Opnd) (b : Opnd) -- 0xc3, R313
  | fill (d : Opnd) (a : Opnd) (b : Opnd) -- 0xc4, R313
  | rcopy (d : Opnd) (a : Opnd) (b : Opnd) -- 0xc5, R313
  | depn (d : Opnd) (a : Opnd) (b : Opnd) -- 0xc6, R315
  | mstr (a : Opnd) -- 0xc7, R283
  | rput (d : Opnd) (a : Opnd) (b : Opnd) -- 0xc8, R313
  | rget (d : Opnd) (a : Opnd) (b : Opnd) -- 0xc9, R313
  | tspawn (d : Opnd) (a : Opnd) -- 0xd0, R325
  | tnext -- 0xd1, R326
  | tdone -- 0xd2, R327
  | launch (a : Opnd) -- 0xd3, R328
  | joinc (cmp : Nat) (sc : Nat) (a : Opnd) (b : Opnd) -- 0xd4, R329
  | trig (d : Opnd) (a : Opnd) -- 0xd5, R331
  | tdisarm (d : Opnd) (a : Opnd) -- 0xd6, R333
  | seqnew (d : Opnd) -- 0xd7, R334
  | seqend (a : Opnd) (b : Opnd) -- 0xd8, R335
  | erd (d : Opnd) (f : Nat) -- 0xe0, R337
  | ebkt (d : Opnd) (f : Nat) -- 0xe1, R338
  | eop (d : Opnd) (p : Nat) -- 0xe2, R339
  | eoprd (d : Opnd) -- 0xe3, R340
  | emark (d : Opnd) (f : Bool) -- 0xe4, R341
  | erdh (d : Opnd) (t : Nat) (p : Nat) (c : Nat) -- 0xe5, R342
  | sysrd (d : Opnd) (n : Nat) -- 0xf0, R343
  | syswr (d : Opnd) (n : Nat) -- 0xf1, R343
  | wlatch (d : Opnd) (u : Bool) -- 0xf2, R347
  | keygen (d : Opnd) (w : Nat) -- 0xf3, R348
  | keydel (d : Opnd) -- 0xf4, R348
  | tinv (d : Opnd) (k : Nat) -- 0xf5, R349
  | meter (d : Opnd) -- 0xf6, R350
  | save (d : Opnd) (m : Bool) -- 0xf7, R351
  | rest (d : Opnd) -- 0xf8, R351
  | halt (d : Opnd) (b : Bool) -- 0xf9, R352
  | clear (d : Opnd) (m : Nat) -- 0xfa, R352
  | waiti (d : Opnd) (m : Nat) -- 0xfb, R353
  -- the matrix stream (07 R204, 10 R296)
  | mnop -- 0x00, R205
  | mma (acc : Nat) (fs : Nat) (ra : Nat) (rb : Nat) -- 0x01, R300
  | mmas (acc : Nat) (fs : Nat) (ra : Nat) (rb : Nat) -- 0x02, R301
  | mmav (acc : Nat) (fs : Nat) (ra : Nat) (rb : Nat) -- 0x03, R303
  | mtrn (acc : Nat) (fs : Nat) (ra : Nat) -- 0x04, R304
  | mperm (acc : Nat) (fs : Nat) (ra : Nat) (rb : Nat) -- 0x05, R304
  | mred (acc : Nat) (fs : Nat) (ra : Nat) -- 0x06, R304
  | accz (acc : Nat) -- 0x07, R305
  | accld (acc : Nat) (ra : Nat) -- 0x08, R305
  | accst (acc : Nat) (fs : Nat) (rb : Nat) -- 0x09, R305
  | ringd (d : Opnd) (sp : Nat) (dir : Bool) (n : Nat) -- 0x0a, R292
  | rwait (n : Nat) -- 0x0b, R293
  | rfree (n : Nat) -- 0x0c, R293
  | mbara (c : Nat) (n : Nat) -- 0x0d, R299
  | mbarw (n : Nat) -- 0x0e, R299
  | convset (d : Opnd) (wo : Nat) -- 0x0f, R302
  | mloop (d : Nat) (imm : Nat) -- 0x10, R297
  | mendl -- 0x11, R297
  | mend -- 0x12, R298
  | mflag -- 0x13, R306
  -- the events, which have no word
  | tileGrant (cluster : Nat) -- R288
  | ringWaitWake (bid : Nat) -- R293
  | tickBoundary -- R73
  | tickUpdate (samples : List DomainSample) -- R76
  | spendLimitReached (core : Nat) (ctx : Nat) -- R77
  | drainOverrun (bid : Nat) -- R78
  | opSlewComplete (quad : Nat) -- R82
  | counterUpdate (world : Nat) (ia : Nat) (delta : Int) -- R53
  | watchNotify (tid : Nat) (arm : Nat) -- R282
  | waitPoll (tid : Nat) (arm : Nat) -- R282
  | pendingLaunchTake (part : Nat) -- R394
  | launchAccept (part : Nat) -- R355
  | specialiseEvaluate (launch : Nat) -- R371
  | specialiseTimeout (launch : Nat) -- R370
  | dispatchRound (part : Nat) -- R80
  | coreRelatch (bid : Nat) -- R364
  | blockRestore (bid : Nat) (core : Nat) -- R365
  | blockSave (bid : Nat) -- R365
  | blockFlush (bid : Nat) -- R151
  | joinPatienceExpired (tid : Nat) (arm : Nat) -- R60
  | launchComplete (launch : Nat) -- R356
  | resumableFault (bid : Nat) -- R100
  | faultCounterGrant (part : Nat) -- R100
  | faultResolution (fault : Nat) (ok : Bool) -- R100
  | stealRequest (thief : Nat) (victim : Nat) -- R52
  | stealAnswer (thief : Nat) -- R52
  | gangReserveRequest (launch : Nat) (part : Nat) -- R451
  | gangReserveTimeout (launch : Nat) -- R61
  | gangRollbackDone (launch : Nat) -- R61
  | gangStartTick (launch : Nat) -- R62
  | engineOpStart (cluster : Nat) (op : Nat) -- R316
  | engineOpComplete (cluster : Nat) (op : Nat) -- R312
  | engineOpFault (cluster : Nat) (op : Nat) -- R317
  | depnNodeStart (cluster : Nat) (op : Nat) -- R315
  | seqendComplete (slot : Nat) -- R120
  | keyInstallComplete (slot : Nat) -- R117
  | sliceAccess (req : SliceReq) -- R106
  | requestRetry (tid : Nat) (arm : Nat) -- R22
  | directoryRecall (ma : Nat) -- R104
  | releaseHint (core : Nat) (world : Nat) (line : Nat) -- R143
  | promotionRequest (core : Nat) (world : Nat) (line : Nat) -- R144
  | releaseEntryTimeout (core : Nat) -- R145
  | freeDeclaration (ma : Nat) -- R125
  | sliceBlockMove (src : Nat) (dst : Nat) -- R127
  | refresh (slice : Nat) (bank : Nat) -- R126
  | hotPageInterval -- R124
  | patrolRead (ma : Nat) -- R470
  | pageRetire (world : Nat) (gpa : Nat) -- R476
  | keySlotRecovery (slice : Nat) (slot : Nat) -- R491
  | contextEnd (ctx : Nat) -- R411
  | errorRecordTake (die : Nat) -- R413
  | cxlMemRead (fn : Nat) (off : Nat) (len : Nat) -- R376
  | cxlMemWrite (fn : Nat) (off : Nat) (bytes : List (BitVec 8)) -- R376
  | hostMailboxRequest (fn : Nat) (req : MailReq) -- R360
  | rensarWrite (port : Nat) (hdr : RensarHdr) (bytes : List (BitVec 8)) -- R381
  | rensarReadRequest (port : Nat) (hdr : RensarHdr) -- R380
  | rensarReadResponse (port : Nat) (hdr : RensarHdr) (bytes : List (BitVec 8)) -- R380
  | rensarWriteAck (port : Nat) (hdr : RensarHdr) -- R380
  | rensarErrorCompletion (port : Nat) (hdr : RensarHdr) (reason : Nat) -- R483
  | rensarTimeout (port : Nat) (txid : Nat) -- R484
  | firmwareMessage (die : Nat) (msg : Nat) -- R382
  | crarasDemandReport -- R85
  | crarasDemand (frm : Nat × RensarHdr) (floor : Nat) (demand : Nat) (power : Nat) -- R85, port and header
  | crarasGrant (frm : Nat × RensarHdr) (seq : Nat) (mw : Nat) -- R86, likewise
  | crarasGrantTimeout -- R86
  | lockInterfaceRequest (fn : Nat) (session : Nat) -- R495
  | startInterfaceRequest (fn : Nat) (session : Nat) -- R495
  | stopInterfaceRequest (fn : Nat) (session : Nat) -- R495
  | getDeviceInterfaceState (fn : Nat) (session : Nat) -- R495
  | spdmSessionEnd (session : Nat) -- R495
  | tdispConfigChange (fn : Nat) -- R495
  | nocCipherFailure (src : Nat) (dst : Nat) (ctxs : List Nat) -- R489
  | cipherFlowResume (src : Nat) (dst : Nat) -- R489
  | cxlIdeFailure -- R490
  | cxlLinkDown -- R514
  | rensarLaneFailure (port : Nat) (lanes : Nat) -- R515
  | deviceReset (img : BootImage) -- R383
  | hostResetRequest -- R505
  | checkpoint (ports : List Nat) -- R388
  | timingReplay (core : Nat) (cls : Nat) -- R496
  | droop (domain : Nat) -- R499
  | droopTimeout (domain : Nat) -- R499
  | thermalCeilingStep (quad : Nat) (temp : Nat) -- R385
  | thermalTrip (quad : Nat) (temp : Nat) -- R511
  | thermalTripClear (quad : Nat) (temp : Nat) -- R511
  | thermalSensorFail (quad : Nat) (sensor : Nat) -- R513
  | thermalEmergency -- R512
  | unitGate (quad : Nat) (unit : Nat) -- R386
  | wakeRequest (quad : Nat) (unit : Nat) -- R387
  | wakeComplete (quad : Nat) (unit : Nat) (good : Bool) -- R387
  | firmwareTimer (die : Nat) -- R353
  | queueResetQueue (fn : Nat) (part : Nat) (world : Nat) -- R467
  | queueResetWhole (fn : Nat) (world : Nat) -- R467
  | drainToken (fn : Nat) (unit : Nat) -- R467
  | capRequestPackage (watts : Nat) (override : Bool) -- R507
  | capRequestPartition (target : Nat) (watts : Nat) (override : Bool) -- R507
  | injectLlcSingle (block : Nat) (sector : Nat) (check : Bool) -- R517
  | injectLlcDouble (block : Nat) (sector : Nat) (check : Bool) -- R517
  | injectHbmDouble (block : Nat) (sector : Nat) (check : Bool) -- R517
  | creditWrite (place : Nat × Nat) (value : Int) -- R65: a function and a context of its window
  | rangeRegisterWrite (fn : Nat) (ctx : Nat) (rr : Nat) (word : Nat) (value : Nat) -- R91
  | scopePolicyWrite (world : Nat) (value : Nat) -- R130
  | registerWrite (place : Nat × MmioReg) (value : Nat) -- R4: a function and a register of its window
  | keyInstallTimeout (slot : Nat) -- R493
  | txidHoldExpired (port : Nat) (txid : Nat) -- R484
  | droopEnd (domain : Nat) -- R499
  | stackTemperatureLimit (stack : Nat) (temp : Nat) -- R511
  | rensarLinkUp (port : Nat) (worlds : List Nat) -- R379
  | cxlBackInvalidateResponse (ma : Nat) (bytes : List (Nat × BitVec 8)) -- R376
  | tileOperationComplete (cluster : Nat) -- R289
  | invalidationComplete (tag : Nat) -- R98
deriving DecidableEq, Repr

end Sys2Proof
end

