-- ==== Sys2Proof/WellFormed.lean ====
section
/-! DEFINITION. Well-formedness of instruction terms: each field within the width its encoding gives
it (07 R189, R190), and, for `wf`, none of the field values that 18 R427 makes an illegal encoding. -/
namespace Sys2Proof

/-- A Rensar header of a message type: its fields lie within their widths, and its type is the message's, or one of the
reserved types that only an error brings about (13 R378, R379). -/
def RensarHdr.wf (t : Nat) (h : RensarHdr) : Bool :=
  (h.type = t || (decide (8 ≤ h.type) && decide (h.type < 16))) && decide (h.len < 16) && decide (h.dst < 65536)
    && decide (h.src < 65536) && decide (h.world < 64) && decide (h.tag < 65536) && decide (h.ia < 2 ^ 52)
    && decide (h.txid < 4096)

/-- Every field of the instruction lies within its width (07 R189, R190; 10 R296). -/
def Instr.fits : Instr → Bool
  | .nop => true
  | .mode imm => decide (imm < 4096)
  | .modet d imm => d.wf && decide (imm < 4096)
  | .modeg d imm => d.wf && decide (imm < 32)
  | .bra off => decide (off < 16777216)
  | .brz m _ off => decide (m < 8) && decide (off < 1048576)
  | .brnz m _ off => decide (m < 8) && decide (off < 1048576)
  | .brd m _ off => decide (m < 8) && decide (off < 1048576)
  | .joinset off => decide (off < 16777216)
  | .join => true
  | .call frame off => decide (frame < 16) && decide (off < 1048576)
  | .calli a frame => a.wf && decide (frame < 16)
  | .ret => true
  | .jmpi a => a.wf
  | .exit => true
  | .demote => true
  | .trap imm => decide (imm < 65536)
  | .rft => true
  | .yield => true
  | .refill d a b => d.wf && a.wf && b.wf
  | .loop d imm => d.wf && decide (imm < 65536)
  | .endl => true
  | .mand d a b => decide (d < 8) && decide (a < 8) && decide (b < 8)
  | .mor d a b => decide (d < 8) && decide (a < 8) && decide (b < 8)
  | .mxor d a b => decide (d < 8) && decide (a < 8) && decide (b < 8)
  | .mnot d a => decide (d < 8) && decide (a < 8)
  | .mcnt d a => d.wf && decide (a < 8)
  | .mfirst d a => d.wf && decide (a < 8)
  | .mset d a => decide (d < 8) && a.wf
  | .mmov d a => decide (d < 8) && decide (a < 8)
  | .add d a b => d.wf && a.wf && b.wf
  | .sub d a b => d.wf && a.wf && b.wf
  | .addi d a imm => d.wf && a.wf && decide (imm < 256)
  | .mul d a b => d.wf && a.wf && b.wf
  | .mulh d a b => d.wf && a.wf && b.wf
  | .mad d a b => d.wf && a.wf && b.wf
  | .div d a b => d.wf && a.wf && b.wf
  | .rem d a b => d.wf && a.wf && b.wf
  | .min d a b => d.wf && a.wf && b.wf
  | .max d a b => d.wf && a.wf && b.wf
  | .abs d a => d.wf && a.wf
  | .neg d a => d.wf && a.wf
  | .and d a b => d.wf && a.wf && b.wf
  | .or d a b => d.wf && a.wf && b.wf
  | .xor d a b => d.wf && a.wf && b.wf
  | .not d a => d.wf && a.wf
  | .andi d a imm => d.wf && a.wf && decide (imm < 256)
  | .ori d a imm => d.wf && a.wf && decide (imm < 256)
  | .xori d a imm => d.wf && a.wf && decide (imm < 256)
  | .shl d a b => d.wf && a.wf && b.wf
  | .shr d a b => d.wf && a.wf && b.wf
  | .sha d a b => d.wf && a.wf && b.wf
  | .shli d a imm => d.wf && a.wf && decide (imm < 256)
  | .shri d a imm => d.wf && a.wf && decide (imm < 256)
  | .shai d a imm => d.wf && a.wf && decide (imm < 256)
  | .rol d a b => d.wf && a.wf && b.wf
  | .clz d a => d.wf && a.wf
  | .popc d a => d.wf && a.wf
  | .brev d a => d.wf && a.wf
  | .bfx d a b => d.wf && a.wf && b.wf
  | .bfi d a b => d.wf && a.wf && b.wf
  | .sel d a b => d.wf && a.wf && b.wf
  | .ceq d a b => decide (d < 8) && a.wf && b.wf
  | .cne d a b => decide (d < 8) && a.wf && b.wf
  | .clt d a b => decide (d < 8) && a.wf && b.wf
  | .cle d a b => decide (d < 8) && a.wf && b.wf
  | .cgt d a b => decide (d < 8) && a.wf && b.wf
  | .cge d a b => decide (d < 8) && a.wf && b.wf
  | .lim d imm => d.wf && decide (imm < 65536)
  | .limh d imm => d.wf && decide (imm < 65536)
  | .limx d imm => d.wf && decide (imm < 65536)
  | .mov d a => d.wf && a.wf
  | .wfld d _ f => d.wf && decide (f < 8)
  | .lea d a b => d.wf && a.wf && b.wf
  | .addc d a b => d.wf && a.wf && b.wf
  | .cvti d a p dst src => d.wf && a.wf && decide (p < 4) && decide (dst < 8) && decide (src < 8)
  | .fadd d a b => d.wf && a.wf && b.wf
  | .fsub d a b => d.wf && a.wf && b.wf
  | .fmul d a b => d.wf && a.wf && b.wf
  | .fma d a b => d.wf && a.wf && b.wf
  | .fms d a b => d.wf && a.wf && b.wf
  | .fnma d a b => d.wf && a.wf && b.wf
  | .fmin d a b => d.wf && a.wf && b.wf
  | .fmax d a b => d.wf && a.wf && b.wf
  | .fabs d a => d.wf && a.wf
  | .fneg d a => d.wf && a.wf
  | .fceq d a b => decide (d < 8) && a.wf && b.wf
  | .fclt d a b => decide (d < 8) && a.wf && b.wf
  | .fcle d a b => decide (d < 8) && a.wf && b.wf
  | .fcun d a b => decide (d < 8) && a.wf && b.wf
  | .fclass d a => d.wf && a.wf
  | .frcp d a la => d.wf && a.wf && decide (la < 16)
  | .frsq d a la => d.wf && a.wf && decide (la < 16)
  | .fsqrt d a la => d.wf && a.wf && decide (la < 16)
  | .fdiv d a b => d.wf && a.wf && b.wf
  | .fexp2 d a la => d.wf && a.wf && decide (la < 16)
  | .flog2 d a la => d.wf && a.wf && decide (la < 16)
  | .fsin d a la => d.wf && a.wf && decide (la < 16)
  | .fcos d a la => d.wf && a.wf && decide (la < 16)
  | .ftanh d a la => d.wf && a.wf && decide (la < 16)
  | .frnd d a rc => d.wf && a.wf && decide (rc < 8)
  | .ftoi d a _ => d.wf && a.wf
  | .itof d a _ => d.wf && a.wf
  | .cvt d a p fs => d.wf && a.wf && decide (p < 8) && decide (fs < 8)
  | .cvtf d a t => d.wf && a.wf && decide (t < 16)
  | .pack d a b => d.wf && a.wf && b.wf
  | .unpk d a p => d.wf && a.wf && decide (p < 8)
  | .fscl d a b => d.wf && a.wf && b.wf
  | .cblk d a fs => d.wf && a.wf && decide (fs < 8)
  | .qnt d a p fs => d.wf && a.wf && decide (p < 8) && decide (fs < 8)
  | .dqnt d a p fs => d.wf && a.wf && decide (p < 8) && decide (fs < 8)
  | .cblu d a _ fs => d.wf && a.wf && decide (fs < 8)
  | .fdot2 d a b => d.wf && a.wf && b.wf
  | .fdot4 d a b => d.wf && a.wf && b.wf
  | .shfl d a b => d.wf && a.wf && b.wf
  | .shflx d a imm => d.wf && a.wf && decide (imm < 256)
  | .shflu d a imm => d.wf && a.wf && decide (imm < 256)
  | .shfld d a imm => d.wf && a.wf && decide (imm < 256)
  | .bcst d a b => d.wf && a.wf && b.wf
  | .vany d a => d.wf && a.wf
  | .vall d a => d.wf && a.wf
  | .vbal d a => d.wf && a.wf
  | .red d a op => d.wf && a.wf && decide (op < 16)
  | .scan d a _ op => d.wf && a.wf && decide (op < 16)
  | .matchLanes d a => d.wf && a.wf
  | .rdln d a b => d.wf && a.wf && b.wf
  | .wrln d a b => d.wf && a.wf && b.wf
  | .ld d a la _ sz => d.wf && a.wf && decide (la < 16) && decide (sz < 4)
  | .st sz a b => decide (sz < 4) && a.wf && b.wf
  | .lds d a la _ sz => d.wf && a.wf && decide (la < 16) && decide (sz < 4)
  | .sts sz a b => decide (sz < 4) && a.wf && b.wf
  | .lda d a la _ sc => d.wf && a.wf && decide (la < 16) && decide (sc < 8)
  | .stl _ sc a b => decide (sc < 8) && a.wf && b.wf
  | .ldnc d a la _ sz => d.wf && a.wf && decide (la < 16) && decide (sz < 4)
  | .pref lv a => decide (lv < 4) && a.wf
  | .aadd d a b => d.wf && a.wf && b.wf
  | .amin d a b => d.wf && a.wf && b.wf
  | .amax d a b => d.wf && a.wf && b.wf
  | .aand d a b => d.wf && a.wf && b.wf
  | .aor d a b => d.wf && a.wf && b.wf
  | .axor d a b => d.wf && a.wf && b.wf
  | .axch d a b => d.wf && a.wf && b.wf
  | .acas d a b => d.wf && a.wf && b.wf
  | .afadd d a b => d.wf && a.wf && b.wf
  | .fence sc o => decide (sc < 8) && decide (o < 4)
  | .stmap r a b => decide (r < 8) && a.wf && b.wf
  | .stunmap r => decide (r < 8)
  | .stflush r => decide (r < 8)
  | .ldk d a la _ sc => d.wf && a.wf && decide (la < 16) && decide (sc < 8)
  | .stk sc a b => decide (sc < 8) && a.wf && b.wf
  | .aaddk d a b => d.wf && a.wf && b.wf
  | .ldcw d a la _ sz => d.wf && a.wf && decide (la < 16) && decide (sz < 4)
  | .bar => true
  | .nbara a n => a.wf && decide (n < 16)
  | .nbarw n => decide (n < 16)
  | .nbaraw a n => a.wf && decide (n < 16)
  | .waitc cmp sc a b => decide (cmp < 4) && decide (sc < 8) && a.wf && b.wf
  | .waitb sc a b => decide (sc < 8) && a.wf && b.wf
  | .signal sc a b => decide (sc < 8) && a.wf && b.wf
  | .waita sc => decide (sc < 8)
  | .copy d a b => d.wf && a.wf && b.wf
  | .copy2d d a b => d.wf && a.wf && b.wf
  | .gath d a b => d.wf && a.wf && b.wf
  | .scat d a b => d.wf && a.wf && b.wf
  | .fill d a b => d.wf && a.wf && b.wf
  | .rcopy d a b => d.wf && a.wf && b.wf
  | .depn d a b => d.wf && a.wf && b.wf
  | .mstr a => a.wf
  | .rput d a b => d.wf && a.wf && b.wf
  | .rget d a b => d.wf && a.wf && b.wf
  | .tspawn d a => d.wf && a.wf
  | .tnext => true
  | .tdone => true
  | .launch a => a.wf
  | .joinc cmp sc a b => decide (cmp < 4) && decide (sc < 8) && a.wf && b.wf
  | .trig d a => d.wf && a.wf
  | .tdisarm d a => d.wf && a.wf
  | .seqnew d => d.wf
  | .seqend a b => a.wf && b.wf
  | .erd d f => d.wf && decide (f < 8)
  | .ebkt d f => d.wf && decide (f < 4)
  | .eop d p => d.wf && decide (p < 16)
  | .eoprd d => d.wf
  | .emark d _ => d.wf
  | .erdh d t p c => d.wf && decide (t < 8) && decide (p < 16) && decide (c < 256)
  | .sysrd d n => d.wf && decide (n < 65536)
  | .syswr d n => d.wf && decide (n < 65536)
  | .wlatch d _ => d.wf
  | .keygen d w => d.wf && decide (w < 64)
  | .keydel d => d.wf
  | .tinv d k => d.wf && decide (k < 4)
  | .meter d => d.wf
  | .save d _ => d.wf
  | .rest d => d.wf
  | .halt d _ => d.wf
  | .clear d m => d.wf && decide (m < 16)
  | .waiti d m => d.wf && decide (m < 256)
  | .mnop => true
  | .mma acc fs ra rb => decide (acc < 32) && decide (fs < 8) && decide (ra < 16) && decide (rb < 16)
  | .mmas acc fs ra rb => decide (acc < 32) && decide (fs < 8) && decide (ra < 16) && decide (rb < 16)
  | .mmav acc fs ra rb => decide (acc < 32) && decide (fs < 8) && decide (ra < 16) && decide (rb < 16)
  | .mtrn acc fs ra => decide (acc < 32) && decide (fs < 8) && decide (ra < 16)
  | .mperm acc fs ra rb => decide (acc < 32) && decide (fs < 8) && decide (ra < 16) && decide (rb < 16)
  | .mred acc fs ra => decide (acc < 32) && decide (fs < 8) && decide (ra < 16)
  | .accz acc => decide (acc < 32)
  | .accld acc ra => decide (acc < 32) && decide (ra < 16)
  | .accst acc fs rb => decide (acc < 32) && decide (fs < 8) && decide (rb < 16)
  | .ringd d sp _ n => d.wf && decide (sp < 4) && decide (n < 16)
  | .rwait n => decide (n < 16)
  | .rfree n => decide (n < 16)
  | .mbara c n => decide (c < 16) && decide (n < 16)
  | .mbarw n => decide (n < 16)
  | .convset d wo => d.wf && decide (wo < 4096)
  | .mloop d imm => decide (d < 256) && decide (imm < 65536)
  | .mendl => true
  | .mend => true
  | .mflag => true
  | .tileGrant cluster => decide (cluster < 192)
  | .ringWaitWake _ => true
  | .tickBoundary => true
  | .tickUpdate _ => true
  | .spendLimitReached core ctx => decide (core < 768) && decide (ctx < 1024)
  | .drainOverrun _ => true
  | .opSlewComplete quad => decide (quad < 16)
  | .counterUpdate world _ _ => decide (world < 64)
  | .watchNotify _ arm => decide (arm < 2)
  | .waitPoll _ arm => decide (arm < 2)
  | .pendingLaunchTake part => decide (part < 16)
  | .launchAccept part => decide (part < 16)
  | .specialiseEvaluate _ => true
  | .specialiseTimeout _ => true
  | .dispatchRound part => decide (part < 16)
  | .coreRelatch _ => true
  | .blockRestore _ core => decide (core < 768)
  | .blockSave _ => true
  | .blockFlush _ => true
  | .joinPatienceExpired _ arm => decide (arm < 2)
  | .launchComplete _ => true
  | .resumableFault _ => true
  | .faultCounterGrant part => decide (part < 16)
  | .faultResolution _ _ => true
  | .stealRequest thief victim => decide (thief < 768) && decide (victim < 768)
  | .stealAnswer thief => decide (thief < 768)
  | .gangReserveRequest _ part => decide (part < 16)
  | .gangReserveTimeout _ => true
  | .gangRollbackDone _ => true
  | .gangStartTick _ => true
  | .engineOpStart cluster _ => decide (cluster < 192)
  | .engineOpComplete cluster _ => decide (cluster < 192)
  | .engineOpFault cluster _ => decide (cluster < 192)
  | .depnNodeStart cluster _ => decide (cluster < 192)
  | .seqendComplete slot => decide (slot < 4096)
  | .keyInstallComplete slot => decide (slot < 4096)
  | .sliceAccess _ => true
  | .requestRetry _ arm => decide (arm < 2)
  | .directoryRecall _ => true
  | .releaseHint core world _ => decide (core < 768) && decide (world < 64)
  | .promotionRequest core world _ => decide (core < 768) && decide (world < 64)
  | .releaseEntryTimeout core => decide (core < 768)
  | .freeDeclaration _ => true
  | .sliceBlockMove _ _ => true
  | .refresh slice _ => decide (slice < 64)
  | .hotPageInterval => true
  | .patrolRead _ => true
  | .pageRetire world _ => decide (world < 64)
  | .keySlotRecovery slice slot => decide (slice < 64) && decide (slot < 4096)
  | .contextEnd ctx => decide (ctx < 1024)
  | .errorRecordTake die => decide (die < 4)
  | .cxlMemRead fn _ _ => decide (fn < 64)
  | .cxlMemWrite fn _ _ => decide (fn < 64)
  | .hostMailboxRequest fn _ => decide (fn < 64)
  | .rensarWrite port h _ => decide (port < 16) && h.wf 0
  | .rensarReadRequest port h => decide (port < 16) && h.wf 1
  | .rensarReadResponse port h _ => decide (port < 16) && h.wf 2
  | .rensarWriteAck port h => decide (port < 16) && h.wf 3
  | .rensarErrorCompletion port h reason => decide (port < 16) && h.wf 4 && decide (reason < 256)
  | .rensarTimeout port txid => decide (port < 16) && decide (txid < 4096)
  | .firmwareMessage die _ => decide (die < 4)
  | .crarasDemandReport => true
  | .crarasDemand frm _ _ _ => decide (frm.1 < 16) && frm.2.wf 5
  | .crarasGrant frm _ _ => decide (frm.1 < 16) && frm.2.wf 6
  | .crarasGrantTimeout => true
  | .lockInterfaceRequest fn _ => decide (fn < 64)
  | .startInterfaceRequest fn _ => decide (fn < 64)
  | .stopInterfaceRequest fn _ => decide (fn < 64)
  | .getDeviceInterfaceState fn _ => decide (fn < 64)
  | .spdmSessionEnd _ => true
  | .tdispConfigChange fn => decide (fn < 64)
  | .nocCipherFailure _ _ _ => true
  | .cipherFlowResume _ _ => true
  | .cxlIdeFailure => true
  | .cxlLinkDown => true
  | .rensarLaneFailure port _ => decide (port < 16)
  | .deviceReset img => decide (img.ctx < 1024) && decide (img.world < 64)
  | .hostResetRequest => true
  | .checkpoint _ => true
  | .timingReplay core _ => decide (core < 768)
  | .droop domain => decide (domain < 32)
  | .droopTimeout domain => decide (domain < 32)
  | .thermalCeilingStep quad _ => decide (quad < 16)
  | .thermalTrip quad _ => decide (quad < 16)
  | .thermalTripClear quad _ => decide (quad < 16)
  | .thermalSensorFail quad _ => decide (quad < 16)
  | .thermalEmergency => true
  | .unitGate quad unit => decide (quad < 16) && decide (unit < 13)
  | .wakeRequest quad unit => decide (quad < 16) && decide (unit < 13)
  | .wakeComplete quad unit _ => decide (quad < 16) && decide (unit < 13)
  | .firmwareTimer die => decide (die < 4)
  | .queueResetQueue fn part world => decide (fn < 64) && decide (part < 16) && decide (world < 64)
  | .queueResetWhole fn world => decide (fn < 64) && decide (world < 64)
  | .drainToken fn _ => decide (fn < 64)
  | .capRequestPackage _ _ => true
  | .capRequestPartition _ _ _ => true
  | .injectLlcSingle _ sector _ => decide (sector < 8)
  | .injectLlcDouble _ sector _ => decide (sector < 8)
  | .injectHbmDouble _ sector _ => decide (sector < 8)
  | .creditWrite place _ => decide (place.1 < 64) && decide (place.2 < 1024)
  | .rangeRegisterWrite fn ctx rr word _ => decide (fn < 64) && decide (ctx < 1024) && decide (rr < 8) && decide (word < 3)
  | .scopePolicyWrite world _ => decide (world < 64)
  | .registerWrite place _ => decide (place.1 < 64)
  | .keyInstallTimeout slot => decide (slot < 4096)
  | .txidHoldExpired port txid => decide (port < 16) && decide (txid < 4096)
  | .droopEnd domain => decide (domain < 32)
  | .stackTemperatureLimit stack _ => decide (stack < 16)
  | .rensarLinkUp port _ => decide (port < 16)
  | .cxlBackInvalidateResponse _ _ => true
  | .tileOperationComplete cluster => decide (cluster < 192)
  | .invalidationComplete _ => true

/-- The scope and remote-mark values that 18 R427 allows: scope 7 is no scope, and a remote mark
needs scope 5 or 6. -/
def scopeOk (sc : Nat) (rmk : Bool) : Bool := decide (sc ≤ 6) && (!rmk || decide (5 ≤ sc))

/-- The sign bit of a load is legal only for 1 and 2 bytes (09 R272, 18 R427). -/
def signOk (sx : Bool) (sz : Nat) : Bool := !sx || decide (2 ≤ sz)

/-- No field holds a value that 18 R427 makes an illegal encoding. -/
def Instr.valuesOk : Instr → Bool
  | .nop => true
  | .mode _ => true
  | .modet _ _ => true
  | .modeg _ _ => true
  | .bra _ => true
  | .brz _ _ _ => true
  | .brnz _ _ _ => true
  | .brd _ _ _ => true
  | .joinset _ => true
  | .join => true
  | .call _ _ => true
  | .calli _ _ => true
  | .ret => true
  | .jmpi _ => true
  | .exit => true
  | .demote => true
  | .trap _ => true
  | .rft => true
  | .yield => true
  | .refill _ _ _ => true
  | .loop _ _ => true
  | .endl => true
  | .mand _ _ _ => true
  | .mor _ _ _ => true
  | .mxor _ _ _ => true
  | .mnot _ _ => true
  | .mcnt _ _ => true
  | .mfirst _ _ => true
  | .mset _ _ => true
  | .mmov _ _ => true
  | .add _ _ _ => true
  | .sub _ _ _ => true
  | .addi _ _ _ => true
  | .mul _ _ _ => true
  | .mulh _ _ _ => true
  | .mad _ _ _ => true
  | .div _ _ _ => true
  | .rem _ _ _ => true
  | .min _ _ _ => true
  | .max _ _ _ => true
  | .abs _ _ => true
  | .neg _ _ => true
  | .and _ _ _ => true
  | .or _ _ _ => true
  | .xor _ _ _ => true
  | .not _ _ => true
  | .andi _ _ _ => true
  | .ori _ _ _ => true
  | .xori _ _ _ => true
  | .shl _ _ _ => true
  | .shr _ _ _ => true
  | .sha _ _ _ => true
  | .shli _ _ _ => true
  | .shri _ _ _ => true
  | .shai _ _ _ => true
  | .rol _ _ _ => true
  | .clz _ _ => true
  | .popc _ _ => true
  | .brev _ _ => true
  | .bfx _ _ _ => true
  | .bfi _ _ _ => true
  | .sel _ _ _ => true
  | .ceq _ _ _ => true
  | .cne _ _ _ => true
  | .clt _ _ _ => true
  | .cle _ _ _ => true
  | .cgt _ _ _ => true
  | .cge _ _ _ => true
  | .lim _ _ => true
  | .limh _ _ => true
  | .limx _ _ => true
  | .mov _ _ => true
  | .wfld _ _ _ => true
  | .lea _ _ _ => true
  | .addc _ _ _ => true
  | .cvti _ _ _ _ _ => true
  | .fadd _ _ _ => true
  | .fsub _ _ _ => true
  | .fmul _ _ _ => true
  | .fma _ _ _ => true
  | .fms _ _ _ => true
  | .fnma _ _ _ => true
  | .fmin _ _ _ => true
  | .fmax _ _ _ => true
  | .fabs _ _ => true
  | .fneg _ _ => true
  | .fceq _ _ _ => true
  | .fclt _ _ _ => true
  | .fcle _ _ _ => true
  | .fcun _ _ _ => true
  | .fclass _ _ => true
  | .frcp _ _ _ => true
  | .frsq _ _ _ => true
  | .fsqrt _ _ _ => true
  | .fdiv _ _ _ => true
  | .fexp2 _ _ _ => true
  | .flog2 _ _ _ => true
  | .fsin _ _ _ => true
  | .fcos _ _ _ => true
  | .ftanh _ _ _ => true
  | .frnd _ _ _ => true
  | .ftoi _ _ _ => true
  | .itof _ _ _ => true
  | .cvt _ _ _ _ => true
  | .cvtf _ _ _ => true
  | .pack _ _ _ => true
  | .unpk _ _ _ => true
  | .fscl _ _ _ => true
  | .cblk _ _ _ => true
  | .qnt _ _ _ _ => true
  | .dqnt _ _ _ _ => true
  | .cblu _ _ _ _ => true
  | .fdot2 _ _ _ => true
  | .fdot4 _ _ _ => true
  | .shfl _ _ _ => true
  | .shflx _ _ _ => true
  | .shflu _ _ _ => true
  | .shfld _ _ _ => true
  | .bcst _ _ _ => true
  | .vany _ _ => true
  | .vall _ _ => true
  | .vbal _ _ => true
  | .red _ _ _ => true
  | .scan _ _ _ _ => true
  | .matchLanes _ _ => true
  | .rdln _ _ _ => true
  | .wrln _ _ _ => true
  | .ld _ _ _ sx sz => signOk sx sz
  | .st _ _ _ => true
  | .lds _ _ _ sx sz => signOk sx sz
  | .sts _ _ _ => true
  | .lda _ _ _ rmk sc => scopeOk sc rmk
  | .stl _ sc _ _ => scopeOk sc false
  | .ldnc _ _ _ sx sz => signOk sx sz
  | .pref lv _ => decide (lv < 3)
  | .aadd _ _ _ => true
  | .amin _ _ _ => true
  | .amax _ _ _ => true
  | .aand _ _ _ => true
  | .aor _ _ _ => true
  | .axor _ _ _ => true
  | .axch _ _ _ => true
  | .acas _ _ _ => true
  | .afadd _ _ _ => true
  | .fence sc o => scopeOk sc false && decide (o ≠ 0)
  | .stmap _ _ _ => true
  | .stunmap _ => true
  | .stflush _ => true
  | .ldk _ _ _ rmk sc => scopeOk sc rmk
  | .stk sc _ _ => scopeOk sc false
  | .aaddk _ _ _ => true
  | .ldcw _ _ _ sx sz => signOk sx sz
  | .bar => true
  | .nbara _ _ => true
  | .nbarw _ => true
  | .nbaraw _ _ => true
  | .waitc cmp sc _ _ => scopeOk sc false && decide (cmp < 3)
  | .waitb sc _ _ => scopeOk sc false
  | .signal sc _ _ => scopeOk sc false
  | .waita sc => scopeOk sc false
  | .copy _ _ _ => true
  | .copy2d _ _ _ => true
  | .gath _ _ _ => true
  | .scat _ _ _ => true
  | .fill _ _ _ => true
  | .rcopy _ _ _ => true
  | .depn _ _ _ => true
  | .mstr _ => true
  | .rput _ _ _ => true
  | .rget _ _ _ => true
  | .tspawn _ _ => true
  | .tnext => true
  | .tdone => true
  | .launch _ => true
  | .joinc cmp sc _ _ => scopeOk sc false && decide (cmp < 3)
  | .trig _ _ => true
  | .tdisarm _ _ => true
  | .seqnew _ => true
  | .seqend _ _ => true
  | .erd _ _ => true
  | .ebkt _ _ => true
  | .eop _ _ => true
  | .eoprd _ => true
  | .emark _ _ => true
  | .erdh _ _ _ _ => true
  | .sysrd _ _ => true
  | .syswr _ _ => true
  | .wlatch _ _ => true
  | .keygen _ _ => true
  | .keydel _ => true
  | .tinv _ _ => true
  | .meter _ => true
  | .save _ _ => true
  | .rest _ => true
  | .halt _ _ => true
  | .clear _ _ => true
  | .waiti _ _ => true
  | .mnop => true
  | .mma _ _ _ _ => true
  | .mmas _ _ _ _ => true
  | .mmav _ _ _ _ => true
  | .mtrn _ _ _ => true
  | .mperm _ _ _ _ => true
  | .mred _ _ _ => true
  | .accz _ => true
  | .accld _ _ => true
  | .accst _ _ _ => true
  | .ringd _ _ _ _ => true
  | .rwait _ => true
  | .rfree _ => true
  | .mbara _ _ => true
  | .mbarw _ => true
  | .convset _ _ => true
  | .mloop _ _ => true
  | .mendl => true
  | .mend => true
  | .mflag => true
  | .tileGrant _ => true
  | .ringWaitWake _ => true
  | .tickBoundary => true
  | .tickUpdate xs => xs.all fun x => x.volts.length = 16 && x.amps.length = 16
  | .spendLimitReached _ _ => true
  | .drainOverrun _ => true
  | .opSlewComplete _ => true
  | .counterUpdate _ _ _ => true
  | .watchNotify _ _ => true
  | .waitPoll _ _ => true
  | .pendingLaunchTake _ => true
  | .launchAccept _ => true
  | .specialiseEvaluate _ => true
  | .specialiseTimeout _ => true
  | .dispatchRound _ => true
  | .coreRelatch _ => true
  | .blockRestore _ _ => true
  | .blockSave _ => true
  | .blockFlush _ => true
  | .joinPatienceExpired _ _ => true
  | .launchComplete _ => true
  | .resumableFault _ => true
  | .faultCounterGrant _ => true
  | .faultResolution _ _ => true
  | .stealRequest _ _ => true
  | .stealAnswer _ => true
  | .gangReserveRequest _ _ => true
  | .gangReserveTimeout _ => true
  | .gangRollbackDone _ => true
  | .gangStartTick _ => true
  | .engineOpStart _ _ => true
  | .engineOpComplete _ _ => true
  | .engineOpFault _ _ => true
  | .depnNodeStart _ _ => true
  | .seqendComplete _ => true
  | .keyInstallComplete _ => true
  | .sliceAccess _ => true
  | .requestRetry _ _ => true
  | .directoryRecall _ => true
  | .releaseHint _ _ _ => true
  | .promotionRequest _ _ _ => true
  | .releaseEntryTimeout _ => true
  | .freeDeclaration _ => true
  | .sliceBlockMove _ _ => true
  | .refresh _ _ => true
  | .hotPageInterval => true
  | .patrolRead _ => true
  | .pageRetire _ _ => true
  | .keySlotRecovery _ _ => true
  | .contextEnd _ => true
  | .errorRecordTake _ => true
  | .cxlMemRead _ _ _ => true
  | .cxlMemWrite _ _ _ => true
  | .hostMailboxRequest _ _ => true
  | .rensarWrite _ _ _ => true
  | .rensarReadRequest _ _ => true
  | .rensarReadResponse _ _ _ => true
  | .rensarWriteAck _ _ => true
  | .rensarErrorCompletion _ _ _ => true
  | .rensarTimeout _ _ => true
  | .firmwareMessage _ _ => true
  | .crarasDemandReport => true
  | .crarasDemand _ _ _ _ => true
  | .crarasGrant _ _ _ => true
  | .crarasGrantTimeout => true
  | .lockInterfaceRequest _ _ => true
  | .startInterfaceRequest _ _ => true
  | .stopInterfaceRequest _ _ => true
  | .getDeviceInterfaceState _ _ => true
  | .spdmSessionEnd _ => true
  | .tdispConfigChange _ => true
  | .nocCipherFailure _ _ _ => true
  | .cipherFlowResume _ _ => true
  | .cxlIdeFailure => true
  | .cxlLinkDown => true
  | .rensarLaneFailure _ _ => true
  | .deviceReset _ => true
  | .hostResetRequest => true
  | .checkpoint _ => true
  | .timingReplay _ _ => true
  | .droop _ => true
  | .droopTimeout _ => true
  | .thermalCeilingStep _ _ => true
  | .thermalTrip _ _ => true
  | .thermalTripClear _ _ => true
  | .thermalSensorFail _ _ => true
  | .thermalEmergency => true
  | .unitGate _ _ => true
  | .wakeRequest _ _ => true
  | .wakeComplete _ _ _ => true
  | .firmwareTimer _ => true
  | .queueResetQueue _ _ _ => true
  | .queueResetWhole _ _ => true
  | .drainToken _ _ => true
  | .capRequestPackage _ _ => true
  | .capRequestPartition _ _ _ => true
  | .injectLlcSingle _ _ _ => true
  | .injectLlcDouble _ _ _ => true
  | .injectHbmDouble _ _ _ => true
  | .creditWrite _ _ => true
  | .rangeRegisterWrite _ _ _ _ _ => true
  | .scopePolicyWrite _ _ => true
  | .registerWrite _ _ => true
  | .keyInstallTimeout _ => true
  | .txidHoldExpired _ _ => true
  | .droopEnd _ => true
  | .stackTemperatureLimit _ _ => true
  | .rensarLinkUp _ _ => true
  | .cxlBackInvalidateResponse _ _ => true
  | .tileOperationComplete _ => true
  | .invalidationComplete _ => true

/-- A well-formed instruction: its fields fit, and none of them holds an illegal value. -/
def Instr.wf (i : Instr) : Bool := i.fits && i.valuesOk

end Sys2Proof
end

