-- ==== Sys2Proof/Decode.lean ====
section
/-! DEFINITION. Decoding and encoding instruction words (07 R184-R206, 18 R426): the control word of a
bundle, the team map, the stream map, and the encoder written from the same formats. Words are
numbers with bit 0 least significant (00 R2). -/
namespace Sys2Proof

/-- Why a word is no instruction (18 R426). -/
inductive DecodeError where
  | reservedOpcode   -- the map gives the opcode no instruction
  | reservedField    -- a field that the description leaves reserved is not zero
deriving DecidableEq, Repr

/-- The operand that an 8-bit field names (00 R6). -/
def Opnd.ofNat (n : Nat) : Opnd :=
  if n < 192 then .v n else if n < 240 then .s (n - 192) else .k (n - 240)

/-- The 8-bit field of an operand (00 R6). -/
def Opnd.toNat : Opnd → Nat
  | .v n => n
  | .s n => 192 + n
  | .k n => 240 + n

/-- One-bit field. -/
def bitOf (b : Bool) : Nat := if b then 1 else 0

/-- An instruction, when its reserved bits are zero (00 R3, 07 R190). -/
def whenZero (z : Bool) (i : Instr) : Except DecodeError Instr :=
  if z then .ok i else .error .reservedField

/-- The team map, opcodes 0x00 to 0x0f (07 R202). -/
def decodeTeam0 (lo w : Nat) : Except DecodeError Instr :=
  match lo with
  | 0 => whenZero (decide (w % 16777216 = 0)) .nop
  | 1 => whenZero (decide (w / 4096 % 4096 = 0)) (.mode (w % 4096))
  | 2 => whenZero (decide (w / 4096 % 16 = 0)) (.modet (Opnd.ofNat (w / 65536 % 256)) (w % 4096))
  | 3 => whenZero (decide (w / 32 % 2048 = 0)) (.modeg (Opnd.ofNat (w / 65536 % 256)) (w % 32))
  | 4 => .ok (.bra (w % 16777216))
  | 5 => .ok (.brz (w / 2097152 % 8) (decide (w / 1048576 % 2 = 1)) (w % 1048576))
  | 6 => .ok (.brnz (w / 2097152 % 8) (decide (w / 1048576 % 2 = 1)) (w % 1048576))
  | 7 => .ok (.brd (w / 2097152 % 8) (decide (w / 1048576 % 2 = 1)) (w % 1048576))
  | 8 => .ok (.joinset (w % 16777216))
  | 9 => whenZero (decide (w % 16777216 = 0)) .join
  | 10 => .ok (.call (w / 1048576 % 16) (w % 1048576))
  | 11 => whenZero (decide (w / 16 % 16 = 0) && decide (w / 65536 % 256 = 0)) (.calli (Opnd.ofNat (w / 256 % 256)) (w % 16))
  | 12 => whenZero (decide (w % 16777216 = 0)) .ret
  | 13 => whenZero (decide (w % 256 = 0) && decide (w / 65536 % 256 = 0)) (.jmpi (Opnd.ofNat (w / 256 % 256)))
  | 14 => whenZero (decide (w % 16777216 = 0)) .exit
  | _ => whenZero (decide (w % 16777216 = 0)) .demote

/-- The team map, opcodes 0x10 to 0x1f (07 R202). -/
def decodeTeam1 (lo w : Nat) : Except DecodeError Instr :=
  match lo with
  | 0 => whenZero (decide (w / 65536 % 256 = 0)) (.trap (w % 65536))
  | 1 => whenZero (decide (w % 16777216 = 0)) .rft
  | 2 => whenZero (decide (w % 16777216 = 0)) .yield
  | 3 => .ok (.refill (Opnd.ofNat (w / 65536 % 256)) (Opnd.ofNat (w / 256 % 256)) (Opnd.ofNat (w % 256)))
  | 4 => .ok (.loop (Opnd.ofNat (w / 65536 % 256)) (w % 65536))
  | 5 => whenZero (decide (w % 16777216 = 0)) .endl
  | 8 => whenZero (decide (w / 8 % 32 = 0) && decide (w / 2048 % 32 = 0) && decide (w / 524288 % 32 = 0)) (.mand (w / 65536 % 8) (w / 256 % 8) (w % 8))
  | 9 => whenZero (decide (w / 8 % 32 = 0) && decide (w / 2048 % 32 = 0) && decide (w / 524288 % 32 = 0)) (.mor (w / 65536 % 8) (w / 256 % 8) (w % 8))
  | 10 => whenZero (decide (w / 8 % 32 = 0) && decide (w / 2048 % 32 = 0) && decide (w / 524288 % 32 = 0)) (.mxor (w / 65536 % 8) (w / 256 % 8) (w % 8))
  | 11 => whenZero (decide (w % 256 = 0) && decide (w / 2048 % 32 = 0) && decide (w / 524288 % 32 = 0)) (.mnot (w / 65536 % 8) (w / 256 % 8))
  | 12 => whenZero (decide (w % 256 = 0) && decide (w / 2048 % 32 = 0)) (.mcnt (Opnd.ofNat (w / 65536 % 256)) (w / 256 % 8))
  | 13 => whenZero (decide (w % 256 = 0) && decide (w / 2048 % 32 = 0)) (.mfirst (Opnd.ofNat (w / 65536 % 256)) (w / 256 % 8))
  | 14 => whenZero (decide (w % 256 = 0) && decide (w / 524288 % 32 = 0)) (.mset (w / 65536 % 8) (Opnd.ofNat (w / 256 % 256)))
  | 15 => whenZero (decide (w % 256 = 0) && decide (w / 2048 % 32 = 0) && decide (w / 524288 % 32 = 0)) (.mmov (w / 65536 % 8) (w / 256 % 8))
  | _ => .error .reservedOpcode

/-- The team map, opcodes 0x20 to 0x2f (07 R202). -/
def decodeTeam2 (lo w : Nat) : Except DecodeError Instr :=
  match lo with
  | 0 => .ok (.add (Opnd.ofNat (w / 65536 % 256)) (Opnd.ofNat (w / 256 % 256)) (Opnd.ofNat (w % 256)))
  | 1 => .ok (.sub (Opnd.ofNat (w / 65536 % 256)) (Opnd.ofNat (w / 256 % 256)) (Opnd.ofNat (w % 256)))
  | 2 => .ok (.addi (Opnd.ofNat (w / 65536 % 256)) (Opnd.ofNat (w / 256 % 256)) (w % 256))
  | 3 => .ok (.mul (Opnd.ofNat (w / 65536 % 256)) (Opnd.ofNat (w / 256 % 256)) (Opnd.ofNat (w % 256)))
  | 4 => .ok (.mulh (Opnd.ofNat (w / 65536 % 256)) (Opnd.ofNat (w / 256 % 256)) (Opnd.ofNat (w % 256)))
  | 5 => .ok (.mad (Opnd.ofNat (w / 65536 % 256)) (Opnd.ofNat (w / 256 % 256)) (Opnd.ofNat (w % 256)))
  | 6 => .ok (.div (Opnd.ofNat (w / 65536 % 256)) (Opnd.ofNat (w / 256 % 256)) (Opnd.ofNat (w % 256)))
  | 7 => .ok (.rem (Opnd.ofNat (w / 65536 % 256)) (Opnd.ofNat (w / 256 % 256)) (Opnd.ofNat (w % 256)))
  | 8 => .ok (.min (Opnd.ofNat (w / 65536 % 256)) (Opnd.ofNat (w / 256 % 256)) (Opnd.ofNat (w % 256)))
  | 9 => .ok (.max (Opnd.ofNat (w / 65536 % 256)) (Opnd.ofNat (w / 256 % 256)) (Opnd.ofNat (w % 256)))
  | 10 => whenZero (decide (w % 256 = 0)) (.abs (Opnd.ofNat (w / 65536 % 256)) (Opnd.ofNat (w / 256 % 256)))
  | 11 => whenZero (decide (w % 256 = 0)) (.neg (Opnd.ofNat (w / 65536 % 256)) (Opnd.ofNat (w / 256 % 256)))
  | 12 => .ok (.and (Opnd.ofNat (w / 65536 % 256)) (Opnd.ofNat (w / 256 % 256)) (Opnd.ofNat (w % 256)))
  | 13 => .ok (.or (Opnd.ofNat (w / 65536 % 256)) (Opnd.ofNat (w / 256 % 256)) (Opnd.ofNat (w % 256)))
  | 14 => .ok (.xor (Opnd.ofNat (w / 65536 % 256)) (Opnd.ofNat (w / 256 % 256)) (Opnd.ofNat (w % 256)))
  | _ => whenZero (decide (w % 256 = 0)) (.not (Opnd.ofNat (w / 65536 % 256)) (Opnd.ofNat (w / 256 % 256)))

/-- The team map, opcodes 0x30 to 0x3f (07 R202). -/
def decodeTeam3 (lo w : Nat) : Except DecodeError Instr :=
  match lo with
  | 0 => .ok (.andi (Opnd.ofNat (w / 65536 % 256)) (Opnd.ofNat (w / 256 % 256)) (w % 256))
  | 1 => .ok (.ori (Opnd.ofNat (w / 65536 % 256)) (Opnd.ofNat (w / 256 % 256)) (w % 256))
  | 2 => .ok (.xori (Opnd.ofNat (w / 65536 % 256)) (Opnd.ofNat (w / 256 % 256)) (w % 256))
  | 3 => .ok (.shl (Opnd.ofNat (w / 65536 % 256)) (Opnd.ofNat (w / 256 % 256)) (Opnd.ofNat (w % 256)))
  | 4 => .ok (.shr (Opnd.ofNat (w / 65536 % 256)) (Opnd.ofNat (w / 256 % 256)) (Opnd.ofNat (w % 256)))
  | 5 => .ok (.sha (Opnd.ofNat (w / 65536 % 256)) (Opnd.ofNat (w / 256 % 256)) (Opnd.ofNat (w % 256)))
  | 6 => .ok (.shli (Opnd.ofNat (w / 65536 % 256)) (Opnd.ofNat (w / 256 % 256)) (w % 256))
  | 7 => .ok (.shri (Opnd.ofNat (w / 65536 % 256)) (Opnd.ofNat (w / 256 % 256)) (w % 256))
  | 8 => .ok (.shai (Opnd.ofNat (w / 65536 % 256)) (Opnd.ofNat (w / 256 % 256)) (w % 256))
  | 9 => .ok (.rol (Opnd.ofNat (w / 65536 % 256)) (Opnd.ofNat (w / 256 % 256)) (Opnd.ofNat (w % 256)))
  | 10 => whenZero (decide (w % 256 = 0)) (.clz (Opnd.ofNat (w / 65536 % 256)) (Opnd.ofNat (w / 256 % 256)))
  | 11 => whenZero (decide (w % 256 = 0)) (.popc (Opnd.ofNat (w / 65536 % 256)) (Opnd.ofNat (w / 256 % 256)))
  | 12 => whenZero (decide (w % 256 = 0)) (.brev (Opnd.ofNat (w / 65536 % 256)) (Opnd.ofNat (w / 256 % 256)))
  | 13 => .ok (.bfx (Opnd.ofNat (w / 65536 % 256)) (Opnd.ofNat (w / 256 % 256)) (Opnd.ofNat (w % 256)))
  | 14 => .ok (.bfi (Opnd.ofNat (w / 65536 % 256)) (Opnd.ofNat (w / 256 % 256)) (Opnd.ofNat (w % 256)))
  | _ => .ok (.sel (Opnd.ofNat (w / 65536 % 256)) (Opnd.ofNat (w / 256 % 256)) (Opnd.ofNat (w % 256)))

/-- The team map, opcodes 0x40 to 0x4f (07 R202). -/
def decodeTeam4 (lo w : Nat) : Except DecodeError Instr :=
  match lo with
  | 0 => whenZero (decide (w / 524288 % 32 = 0)) (.ceq (w / 65536 % 8) (Opnd.ofNat (w / 256 % 256)) (Opnd.ofNat (w % 256)))
  | 1 => whenZero (decide (w / 524288 % 32 = 0)) (.cne (w / 65536 % 8) (Opnd.ofNat (w / 256 % 256)) (Opnd.ofNat (w % 256)))
  | 2 => whenZero (decide (w / 524288 % 32 = 0)) (.clt (w / 65536 % 8) (Opnd.ofNat (w / 256 % 256)) (Opnd.ofNat (w % 256)))
  | 3 => whenZero (decide (w / 524288 % 32 = 0)) (.cle (w / 65536 % 8) (Opnd.ofNat (w / 256 % 256)) (Opnd.ofNat (w % 256)))
  | 4 => whenZero (decide (w / 524288 % 32 = 0)) (.cgt (w / 65536 % 8) (Opnd.ofNat (w / 256 % 256)) (Opnd.ofNat (w % 256)))
  | 5 => whenZero (decide (w / 524288 % 32 = 0)) (.cge (w / 65536 % 8) (Opnd.ofNat (w / 256 % 256)) (Opnd.ofNat (w % 256)))
  | 6 => .ok (.lim (Opnd.ofNat (w / 65536 % 256)) (w % 65536))
  | 7 => .ok (.limh (Opnd.ofNat (w / 65536 % 256)) (w % 65536))
  | 8 => .ok (.limx (Opnd.ofNat (w / 65536 % 256)) (w % 65536))
  | 9 => whenZero (decide (w % 256 = 0)) (.mov (Opnd.ofNat (w / 65536 % 256)) (Opnd.ofNat (w / 256 % 256)))
  | 11 => whenZero (decide (w / 16 % 4096 = 0)) (.wfld (Opnd.ofNat (w / 65536 % 256)) (decide (w / 8 % 2 = 1)) (w % 8))
  | 12 => .ok (.lea (Opnd.ofNat (w / 65536 % 256)) (Opnd.ofNat (w / 256 % 256)) (Opnd.ofNat (w % 256)))
  | 13 => .ok (.addc (Opnd.ofNat (w / 65536 % 256)) (Opnd.ofNat (w / 256 % 256)) (Opnd.ofNat (w % 256)))
  | 14 => .ok (.cvti (Opnd.ofNat (w / 65536 % 256)) (Opnd.ofNat (w / 256 % 256)) (w / 64 % 4) (w / 8 % 8) (w % 8))
  | _ => .error .reservedOpcode

/-- The team map, opcodes 0x50 to 0x5f (07 R202). -/
def decodeTeam5 (lo w : Nat) : Except DecodeError Instr :=
  match lo with
  | 0 => .ok (.fadd (Opnd.ofNat (w / 65536 % 256)) (Opnd.ofNat (w / 256 % 256)) (Opnd.ofNat (w % 256)))
  | 1 => .ok (.fsub (Opnd.ofNat (w / 65536 % 256)) (Opnd.ofNat (w / 256 % 256)) (Opnd.ofNat (w % 256)))
  | 2 => .ok (.fmul (Opnd.ofNat (w / 65536 % 256)) (Opnd.ofNat (w / 256 % 256)) (Opnd.ofNat (w % 256)))
  | 3 => .ok (.fma (Opnd.ofNat (w / 65536 % 256)) (Opnd.ofNat (w / 256 % 256)) (Opnd.ofNat (w % 256)))
  | 4 => .ok (.fms (Opnd.ofNat (w / 65536 % 256)) (Opnd.ofNat (w / 256 % 256)) (Opnd.ofNat (w % 256)))
  | 5 => .ok (.fnma (Opnd.ofNat (w / 65536 % 256)) (Opnd.ofNat (w / 256 % 256)) (Opnd.ofNat (w % 256)))
  | 6 => .ok (.fmin (Opnd.ofNat (w / 65536 % 256)) (Opnd.ofNat (w / 256 % 256)) (Opnd.ofNat (w % 256)))
  | 7 => .ok (.fmax (Opnd.ofNat (w / 65536 % 256)) (Opnd.ofNat (w / 256 % 256)) (Opnd.ofNat (w % 256)))
  | 8 => whenZero (decide (w % 256 = 0)) (.fabs (Opnd.ofNat (w / 65536 % 256)) (Opnd.ofNat (w / 256 % 256)))
  | 9 => whenZero (decide (w % 256 = 0)) (.fneg (Opnd.ofNat (w / 65536 % 256)) (Opnd.ofNat (w / 256 % 256)))
  | 10 => whenZero (decide (w / 524288 % 32 = 0)) (.fceq (w / 65536 % 8) (Opnd.ofNat (w / 256 % 256)) (Opnd.ofNat (w % 256)))
  | 11 => whenZero (decide (w / 524288 % 32 = 0)) (.fclt (w / 65536 % 8) (Opnd.ofNat (w / 256 % 256)) (Opnd.ofNat (w % 256)))
  | 12 => whenZero (decide (w / 524288 % 32 = 0)) (.fcle (w / 65536 % 8) (Opnd.ofNat (w / 256 % 256)) (Opnd.ofNat (w % 256)))
  | 13 => whenZero (decide (w / 524288 % 32 = 0)) (.fcun (w / 65536 % 8) (Opnd.ofNat (w / 256 % 256)) (Opnd.ofNat (w % 256)))
  | 14 => whenZero (decide (w % 256 = 0)) (.fclass (Opnd.ofNat (w / 65536 % 256)) (Opnd.ofNat (w / 256 % 256)))
  | _ => whenZero (decide (w % 16 = 0)) (.frcp (Opnd.ofNat (w / 65536 % 256)) (Opnd.ofNat (w / 256 % 256)) (w / 16 % 16))

/-- The team map, opcodes 0x60 to 0x6f (07 R202). -/
def decodeTeam6 (lo w : Nat) : Except DecodeError Instr :=
  match lo with
  | 0 => whenZero (decide (w % 16 = 0)) (.frsq (Opnd.ofNat (w / 65536 % 256)) (Opnd.ofNat (w / 256 % 256)) (w / 16 % 16))
  | 1 => whenZero (decide (w % 16 = 0)) (.fsqrt (Opnd.ofNat (w / 65536 % 256)) (Opnd.ofNat (w / 256 % 256)) (w / 16 % 16))
  | 2 => .ok (.fdiv (Opnd.ofNat (w / 65536 % 256)) (Opnd.ofNat (w / 256 % 256)) (Opnd.ofNat (w % 256)))
  | 3 => whenZero (decide (w % 16 = 0)) (.fexp2 (Opnd.ofNat (w / 65536 % 256)) (Opnd.ofNat (w / 256 % 256)) (w / 16 % 16))
  | 4 => whenZero (decide (w % 16 = 0)) (.flog2 (Opnd.ofNat (w / 65536 % 256)) (Opnd.ofNat (w / 256 % 256)) (w / 16 % 16))
  | 5 => whenZero (decide (w % 16 = 0)) (.fsin (Opnd.ofNat (w / 65536 % 256)) (Opnd.ofNat (w / 256 % 256)) (w / 16 % 16))
  | 6 => whenZero (decide (w % 16 = 0)) (.fcos (Opnd.ofNat (w / 65536 % 256)) (Opnd.ofNat (w / 256 % 256)) (w / 16 % 16))
  | 7 => whenZero (decide (w % 16 = 0)) (.ftanh (Opnd.ofNat (w / 65536 % 256)) (Opnd.ofNat (w / 256 % 256)) (w / 16 % 16))
  | 8 => whenZero (decide (w / 8 % 32 = 0)) (.frnd (Opnd.ofNat (w / 65536 % 256)) (Opnd.ofNat (w / 256 % 256)) (w % 8))
  | 9 => whenZero (decide (w / 2 % 128 = 0)) (.ftoi (Opnd.ofNat (w / 65536 % 256)) (Opnd.ofNat (w / 256 % 256)) (decide (w % 2 = 1)))
  | 10 => whenZero (decide (w / 2 % 128 = 0)) (.itof (Opnd.ofNat (w / 65536 % 256)) (Opnd.ofNat (w / 256 % 256)) (decide (w % 2 = 1)))
  | 11 => whenZero (decide (w / 64 % 4 = 0)) (.cvt (Opnd.ofNat (w / 65536 % 256)) (Opnd.ofNat (w / 256 % 256)) (w / 8 % 8) (w % 8))
  | 12 => whenZero (decide (w / 16 % 16 = 0)) (.cvtf (Opnd.ofNat (w / 65536 % 256)) (Opnd.ofNat (w / 256 % 256)) (w % 16))
  | 13 => .ok (.pack (Opnd.ofNat (w / 65536 % 256)) (Opnd.ofNat (w / 256 % 256)) (Opnd.ofNat (w % 256)))
  | 14 => whenZero (decide (w / 8 % 32 = 0)) (.unpk (Opnd.ofNat (w / 65536 % 256)) (Opnd.ofNat (w / 256 % 256)) (w % 8))
  | _ => .ok (.fscl (Opnd.ofNat (w / 65536 % 256)) (Opnd.ofNat (w / 256 % 256)) (Opnd.ofNat (w % 256)))

/-- The team map, opcodes 0x70 to 0x7f (07 R202). -/
def decodeTeam7 (lo w : Nat) : Except DecodeError Instr :=
  match lo with
  | 0 => whenZero (decide (w / 8 % 32 = 0)) (.cblk (Opnd.ofNat (w / 65536 % 256)) (Opnd.ofNat (w / 256 % 256)) (w % 8))
  | 1 => whenZero (decide (w / 64 % 4 = 0)) (.qnt (Opnd.ofNat (w / 65536 % 256)) (Opnd.ofNat (w / 256 % 256)) (w / 8 % 8) (w % 8))
  | 2 => whenZero (decide (w / 64 % 4 = 0)) (.dqnt (Opnd.ofNat (w / 65536 % 256)) (Opnd.ofNat (w / 256 % 256)) (w / 8 % 8) (w % 8))
  | 3 => whenZero (decide (w / 16 % 16 = 0)) (.cblu (Opnd.ofNat (w / 65536 % 256)) (Opnd.ofNat (w / 256 % 256)) (decide (w / 8 % 2 = 1)) (w % 8))
  | 4 => .ok (.fdot2 (Opnd.ofNat (w / 65536 % 256)) (Opnd.ofNat (w / 256 % 256)) (Opnd.ofNat (w % 256)))
  | 5 => .ok (.fdot4 (Opnd.ofNat (w / 65536 % 256)) (Opnd.ofNat (w / 256 % 256)) (Opnd.ofNat (w % 256)))
  | _ => .error .reservedOpcode

/-- The team map, opcodes 0x80 to 0x8f (07 R202). -/
def decodeTeam8 (lo w : Nat) : Except DecodeError Instr :=
  match lo with
  | 0 => .ok (.shfl (Opnd.ofNat (w / 65536 % 256)) (Opnd.ofNat (w / 256 % 256)) (Opnd.ofNat (w % 256)))
  | 1 => .ok (.shflx (Opnd.ofNat (w / 65536 % 256)) (Opnd.ofNat (w / 256 % 256)) (w % 256))
  | 2 => .ok (.shflu (Opnd.ofNat (w / 65536 % 256)) (Opnd.ofNat (w / 256 % 256)) (w % 256))
  | 3 => .ok (.shfld (Opnd.ofNat (w / 65536 % 256)) (Opnd.ofNat (w / 256 % 256)) (w % 256))
  | 4 => .ok (.bcst (Opnd.ofNat (w / 65536 % 256)) (Opnd.ofNat (w / 256 % 256)) (Opnd.ofNat (w % 256)))
  | 5 => whenZero (decide (w % 256 = 0)) (.vany (Opnd.ofNat (w / 65536 % 256)) (Opnd.ofNat (w / 256 % 256)))
  | 6 => whenZero (decide (w % 256 = 0)) (.vall (Opnd.ofNat (w / 65536 % 256)) (Opnd.ofNat (w / 256 % 256)))
  | 7 => whenZero (decide (w % 256 = 0)) (.vbal (Opnd.ofNat (w / 65536 % 256)) (Opnd.ofNat (w / 256 % 256)))
  | 8 => whenZero (decide (w / 16 % 16 = 0)) (.red (Opnd.ofNat (w / 65536 % 256)) (Opnd.ofNat (w / 256 % 256)) (w % 16))
  | 9 => whenZero (decide (w / 32 % 8 = 0)) (.scan (Opnd.ofNat (w / 65536 % 256)) (Opnd.ofNat (w / 256 % 256)) (decide (w / 16 % 2 = 1)) (w % 16))
  | 10 => whenZero (decide (w % 256 = 0)) (.matchLanes (Opnd.ofNat (w / 65536 % 256)) (Opnd.ofNat (w / 256 % 256)))
  | 11 => .ok (.rdln (Opnd.ofNat (w / 65536 % 256)) (Opnd.ofNat (w / 256 % 256)) (Opnd.ofNat (w % 256)))
  | 12 => .ok (.wrln (Opnd.ofNat (w / 65536 % 256)) (Opnd.ofNat (w / 256 % 256)) (Opnd.ofNat (w % 256)))
  | _ => .error .reservedOpcode

/-- The team map, opcodes 0x90 to 0x9f (07 R202). -/
def decodeTeam9 (lo w : Nat) : Except DecodeError Instr :=
  match lo with
  | 0 => whenZero (decide (w / 8 % 2 = 0)) (.ld (Opnd.ofNat (w / 65536 % 256)) (Opnd.ofNat (w / 256 % 256)) (w / 16 % 16) (decide (w / 4 % 2 = 1)) (w % 4))
  | 1 => whenZero (decide (w / 262144 % 64 = 0)) (.st (w / 65536 % 4) (Opnd.ofNat (w / 256 % 256)) (Opnd.ofNat (w % 256)))
  | 2 => whenZero (decide (w / 8 % 2 = 0)) (.lds (Opnd.ofNat (w / 65536 % 256)) (Opnd.ofNat (w / 256 % 256)) (w / 16 % 16) (decide (w / 4 % 2 = 1)) (w % 4))
  | 3 => whenZero (decide (w / 262144 % 64 = 0)) (.sts (w / 65536 % 4) (Opnd.ofNat (w / 256 % 256)) (Opnd.ofNat (w % 256)))
  | 4 => .ok (.lda (Opnd.ofNat (w / 65536 % 256)) (Opnd.ofNat (w / 256 % 256)) (w / 16 % 16) (decide (w / 8 % 2 = 1)) (w % 8))
  | 5 => whenZero (decide (w / 1048576 % 16 = 0)) (.stl (decide (w / 524288 % 2 = 1)) (w / 65536 % 8) (Opnd.ofNat (w / 256 % 256)) (Opnd.ofNat (w % 256)))
  | 6 => whenZero (decide (w / 8 % 2 = 0)) (.ldnc (Opnd.ofNat (w / 65536 % 256)) (Opnd.ofNat (w / 256 % 256)) (w / 16 % 16) (decide (w / 4 % 2 = 1)) (w % 4))
  | 7 => whenZero (decide (w % 256 = 0) && decide (w / 262144 % 64 = 0)) (.pref (w / 65536 % 4) (Opnd.ofNat (w / 256 % 256)))
  | 8 => .ok (.aadd (Opnd.ofNat (w / 65536 % 256)) (Opnd.ofNat (w / 256 % 256)) (Opnd.ofNat (w % 256)))
  | 9 => .ok (.amin (Opnd.ofNat (w / 65536 % 256)) (Opnd.ofNat (w / 256 % 256)) (Opnd.ofNat (w % 256)))
  | 10 => .ok (.amax (Opnd.ofNat (w / 65536 % 256)) (Opnd.ofNat (w / 256 % 256)) (Opnd.ofNat (w % 256)))
  | 11 => .ok (.aand (Opnd.ofNat (w / 65536 % 256)) (Opnd.ofNat (w / 256 % 256)) (Opnd.ofNat (w % 256)))
  | 12 => .ok (.aor (Opnd.ofNat (w / 65536 % 256)) (Opnd.ofNat (w / 256 % 256)) (Opnd.ofNat (w % 256)))
  | 13 => .ok (.axor (Opnd.ofNat (w / 65536 % 256)) (Opnd.ofNat (w / 256 % 256)) (Opnd.ofNat (w % 256)))
  | 14 => .ok (.axch (Opnd.ofNat (w / 65536 % 256)) (Opnd.ofNat (w / 256 % 256)) (Opnd.ofNat (w % 256)))
  | _ => .ok (.acas (Opnd.ofNat (w / 65536 % 256)) (Opnd.ofNat (w / 256 % 256)) (Opnd.ofNat (w % 256)))

/-- The team map, opcodes 0xa0 to 0xaf (07 R202). -/
def decodeTeamA (lo w : Nat) : Except DecodeError Instr :=
  match lo with
  | 0 => .ok (.afadd (Opnd.ofNat (w / 65536 % 256)) (Opnd.ofNat (w / 256 % 256)) (Opnd.ofNat (w % 256)))
  | 1 => whenZero (decide (w / 32 % 524288 = 0)) (.fence (w / 4 % 8) (w % 4))
  | 2 => whenZero (decide (w / 524288 % 32 = 0)) (.stmap (w / 65536 % 8) (Opnd.ofNat (w / 256 % 256)) (Opnd.ofNat (w % 256)))
  | 3 => whenZero (decide (w % 65536 = 0) && decide (w / 524288 % 32 = 0)) (.stunmap (w / 65536 % 8))
  | 4 => whenZero (decide (w % 65536 = 0) && decide (w / 524288 % 32 = 0)) (.stflush (w / 65536 % 8))
  | 5 => .ok (.ldk (Opnd.ofNat (w / 65536 % 256)) (Opnd.ofNat (w / 256 % 256)) (w / 16 % 16) (decide (w / 8 % 2 = 1)) (w % 8))
  | 6 => whenZero (decide (w / 524288 % 32 = 0)) (.stk (w / 65536 % 8) (Opnd.ofNat (w / 256 % 256)) (Opnd.ofNat (w % 256)))
  | 7 => .ok (.aaddk (Opnd.ofNat (w / 65536 % 256)) (Opnd.ofNat (w / 256 % 256)) (Opnd.ofNat (w % 256)))
  | 8 => whenZero (decide (w / 8 % 2 = 0)) (.ldcw (Opnd.ofNat (w / 65536 % 256)) (Opnd.ofNat (w / 256 % 256)) (w / 16 % 16) (decide (w / 4 % 2 = 1)) (w % 4))
  | _ => .error .reservedOpcode

/-- The team map, opcodes 0xb0 to 0xbf (07 R202). -/
def decodeTeamB (lo w : Nat) : Except DecodeError Instr :=
  match lo with
  | 0 => whenZero (decide (w % 16777216 = 0)) .bar
  | 1 => whenZero (decide (w / 16 % 16 = 0) && decide (w / 65536 % 256 = 0)) (.nbara (Opnd.ofNat (w / 256 % 256)) (w % 16))
  | 2 => whenZero (decide (w / 16 % 1048576 = 0)) (.nbarw (w % 16))
  | 3 => whenZero (decide (w / 16 % 16 = 0) && decide (w / 65536 % 256 = 0)) (.nbaraw (Opnd.ofNat (w / 256 % 256)) (w % 16))
  | 4 => whenZero (decide (w / 2097152 % 8 = 0)) (.waitc (w / 524288 % 4) (w / 65536 % 8) (Opnd.ofNat (w / 256 % 256)) (Opnd.ofNat (w % 256)))
  | 5 => whenZero (decide (w / 524288 % 32 = 0)) (.waitb (w / 65536 % 8) (Opnd.ofNat (w / 256 % 256)) (Opnd.ofNat (w % 256)))
  | 6 => whenZero (decide (w / 524288 % 32 = 0)) (.signal (w / 65536 % 8) (Opnd.ofNat (w / 256 % 256)) (Opnd.ofNat (w % 256)))
  | 8 => whenZero (decide (w % 65536 = 0) && decide (w / 524288 % 32 = 0)) (.waita (w / 65536 % 8))
  | _ => .error .reservedOpcode

/-- The team map, opcodes 0xc0 to 0xcf (07 R202). -/
def decodeTeamC (lo w : Nat) : Except DecodeError Instr :=
  match lo with
  | 0 => .ok (.copy (Opnd.ofNat (w / 65536 % 256)) (Opnd.ofNat (w / 256 % 256)) (Opnd.ofNat (w % 256)))
  | 1 => .ok (.copy2d (Opnd.ofNat (w / 65536 % 256)) (Opnd.ofNat (w / 256 % 256)) (Opnd.ofNat (w % 256)))
  | 2 => .ok (.gath (Opnd.ofNat (w / 65536 % 256)) (Opnd.ofNat (w / 256 % 256)) (Opnd.ofNat (w % 256)))
  | 3 => .ok (.scat (Opnd.ofNat (w / 65536 % 256)) (Opnd.ofNat (w / 256 % 256)) (Opnd.ofNat (w % 256)))
  | 4 => .ok (.fill (Opnd.ofNat (w / 65536 % 256)) (Opnd.ofNat (w / 256 % 256)) (Opnd.ofNat (w % 256)))
  | 5 => .ok (.rcopy (Opnd.ofNat (w / 65536 % 256)) (Opnd.ofNat (w / 256 % 256)) (Opnd.ofNat (w % 256)))
  | 6 => .ok (.depn (Opnd.ofNat (w / 65536 % 256)) (Opnd.ofNat (w / 256 % 256)) (Opnd.ofNat (w % 256)))
  | 7 => whenZero (decide (w % 256 = 0) && decide (w / 65536 % 256 = 0)) (.mstr (Opnd.ofNat (w / 256 % 256)))
  | 8 => .ok (.rput (Opnd.ofNat (w / 65536 % 256)) (Opnd.ofNat (w / 256 % 256)) (Opnd.ofNat (w % 256)))
  | 9 => .ok (.rget (Opnd.ofNat (w / 65536 % 256)) (Opnd.ofNat (w / 256 % 256)) (Opnd.ofNat (w % 256)))
  | _ => .error .reservedOpcode

/-- The team map, opcodes 0xd0 to 0xdf (07 R202). -/
def decodeTeamD (lo w : Nat) : Except DecodeError Instr :=
  match lo with
  | 0 => whenZero (decide (w % 256 = 0)) (.tspawn (Opnd.ofNat (w / 65536 % 256)) (Opnd.ofNat (w / 256 % 256)))
  | 1 => whenZero (decide (w % 16777216 = 0)) .tnext
  | 2 => whenZero (decide (w % 16777216 = 0)) .tdone
  | 3 => whenZero (decide (w % 256 = 0) && decide (w / 65536 % 256 = 0)) (.launch (Opnd.ofNat (w / 256 % 256)))
  | 4 => whenZero (decide (w / 2097152 % 8 = 0)) (.joinc (w / 524288 % 4) (w / 65536 % 8) (Opnd.ofNat (w / 256 % 256)) (Opnd.ofNat (w % 256)))
  | 5 => whenZero (decide (w % 256 = 0)) (.trig (Opnd.ofNat (w / 65536 % 256)) (Opnd.ofNat (w / 256 % 256)))
  | 6 => whenZero (decide (w % 256 = 0)) (.tdisarm (Opnd.ofNat (w / 65536 % 256)) (Opnd.ofNat (w / 256 % 256)))
  | 7 => whenZero (decide (w % 65536 = 0)) (.seqnew (Opnd.ofNat (w / 65536 % 256)))
  | 8 => whenZero (decide (w / 65536 % 256 = 0)) (.seqend (Opnd.ofNat (w / 256 % 256)) (Opnd.ofNat (w % 256)))
  | _ => .error .reservedOpcode

/-- The team map, opcodes 0xe0 to 0xef (07 R202). -/
def decodeTeamE (lo w : Nat) : Except DecodeError Instr :=
  match lo with
  | 0 => whenZero (decide (w / 8 % 8192 = 0)) (.erd (Opnd.ofNat (w / 65536 % 256)) (w % 8))
  | 1 => whenZero (decide (w / 4 % 16384 = 0)) (.ebkt (Opnd.ofNat (w / 65536 % 256)) (w % 4))
  | 2 => whenZero (decide (w / 16 % 4096 = 0)) (.eop (Opnd.ofNat (w / 65536 % 256)) (w % 16))
  | 3 => whenZero (decide (w % 65536 = 0)) (.eoprd (Opnd.ofNat (w / 65536 % 256)))
  | 4 => whenZero (decide (w / 2 % 32768 = 0)) (.emark (Opnd.ofNat (w / 65536 % 256)) (decide (w % 2 = 1)))
  | 5 => whenZero (decide (w / 32768 % 2 = 0)) (.erdh (Opnd.ofNat (w / 65536 % 256)) (w / 4096 % 8) (w / 256 % 16) (w % 256))
  | _ => .error .reservedOpcode

/-- The team map, opcodes 0xf0 to 0xff (07 R202). -/
def decodeTeamF (lo w : Nat) : Except DecodeError Instr :=
  match lo with
  | 0 => .ok (.sysrd (Opnd.ofNat (w / 65536 % 256)) (w % 65536))
  | 1 => .ok (.syswr (Opnd.ofNat (w / 65536 % 256)) (w % 65536))
  | 2 => whenZero (decide (w / 2 % 32768 = 0)) (.wlatch (Opnd.ofNat (w / 65536 % 256)) (decide (w % 2 = 1)))
  | 3 => whenZero (decide (w / 64 % 1024 = 0)) (.keygen (Opnd.ofNat (w / 65536 % 256)) (w % 64))
  | 4 => whenZero (decide (w % 65536 = 0)) (.keydel (Opnd.ofNat (w / 65536 % 256)))
  | 5 => whenZero (decide (w / 4 % 16384 = 0)) (.tinv (Opnd.ofNat (w / 65536 % 256)) (w % 4))
  | 6 => whenZero (decide (w % 65536 = 0)) (.meter (Opnd.ofNat (w / 65536 % 256)))
  | 7 => whenZero (decide (w / 2 % 32768 = 0)) (.save (Opnd.ofNat (w / 65536 % 256)) (decide (w % 2 = 1)))
  | 8 => whenZero (decide (w % 65536 = 0)) (.rest (Opnd.ofNat (w / 65536 % 256)))
  | 9 => whenZero (decide (w / 2 % 32768 = 0)) (.halt (Opnd.ofNat (w / 65536 % 256)) (decide (w % 2 = 1)))
  | 10 => whenZero (decide (w / 16 % 4096 = 0)) (.clear (Opnd.ofNat (w / 65536 % 256)) (w % 16))
  | 11 => whenZero (decide (w / 256 % 256 = 0)) (.waiti (Opnd.ofNat (w / 65536 % 256)) (w % 256))
  | _ => .error .reservedOpcode

/-- The team map (07 R202, R203): the instruction that a word is in a team bundle. -/
def decodeTeam (w : Nat) : Except DecodeError Instr :=
  match w / 268435456 with
  | 0 => decodeTeam0 (w / 16777216 % 16) w
  | 1 => decodeTeam1 (w / 16777216 % 16) w
  | 2 => decodeTeam2 (w / 16777216 % 16) w
  | 3 => decodeTeam3 (w / 16777216 % 16) w
  | 4 => decodeTeam4 (w / 16777216 % 16) w
  | 5 => decodeTeam5 (w / 16777216 % 16) w
  | 6 => decodeTeam6 (w / 16777216 % 16) w
  | 7 => decodeTeam7 (w / 16777216 % 16) w
  | 8 => decodeTeam8 (w / 16777216 % 16) w
  | 9 => decodeTeam9 (w / 16777216 % 16) w
  | 10 => decodeTeamA (w / 16777216 % 16) w
  | 11 => decodeTeamB (w / 16777216 % 16) w
  | 12 => decodeTeamC (w / 16777216 % 16) w
  | 13 => decodeTeamD (w / 16777216 % 16) w
  | 14 => decodeTeamE (w / 16777216 % 16) w
  | 15 => decodeTeamF (w / 16777216 % 16) w
  | _ => .error .reservedOpcode

/-- The stream map (07 R204): the instruction that a word is in a stream bundle. -/
def decodeStream (w : Nat) : Except DecodeError Instr :=
  match w / 16777216 with
  | 0 => whenZero (decide (w % 16777216 = 0)) .mnop
  | 1 => whenZero (decide (w / 16 % 16 = 0) && decide (w / 4096 % 16 = 0)) (.mma (w / 524288 % 32) (w / 65536 % 8) (w / 256 % 16) (w % 16))
  | 2 => whenZero (decide (w / 16 % 16 = 0) && decide (w / 4096 % 16 = 0)) (.mmas (w / 524288 % 32) (w / 65536 % 8) (w / 256 % 16) (w % 16))
  | 3 => whenZero (decide (w / 16 % 16 = 0) && decide (w / 4096 % 16 = 0)) (.mmav (w / 524288 % 32) (w / 65536 % 8) (w / 256 % 16) (w % 16))
  | 4 => whenZero (decide (w % 256 = 0) && decide (w / 4096 % 16 = 0)) (.mtrn (w / 524288 % 32) (w / 65536 % 8) (w / 256 % 16))
  | 5 => whenZero (decide (w / 16 % 16 = 0) && decide (w / 4096 % 16 = 0)) (.mperm (w / 524288 % 32) (w / 65536 % 8) (w / 256 % 16) (w % 16))
  | 6 => whenZero (decide (w % 256 = 0) && decide (w / 4096 % 16 = 0)) (.mred (w / 524288 % 32) (w / 65536 % 8) (w / 256 % 16))
  | 7 => whenZero (decide (w % 524288 = 0)) (.accz (w / 524288 % 32))
  | 8 => whenZero (decide (w % 256 = 0) && decide (w / 4096 % 128 = 0)) (.accld (w / 524288 % 32) (w / 256 % 16))
  | 9 => whenZero (decide (w / 16 % 4096 = 0)) (.accst (w / 524288 % 32) (w / 65536 % 8) (w % 16))
  | 10 => whenZero (decide (w / 128 % 512 = 0)) (.ringd (Opnd.ofNat (w / 65536 % 256)) (w / 32 % 4) (decide (w / 16 % 2 = 1)) (w % 16))
  | 11 => whenZero (decide (w % 256 = 0) && decide (w / 4096 % 4096 = 0)) (.rwait (w / 256 % 16))
  | 12 => whenZero (decide (w % 256 = 0) && decide (w / 4096 % 4096 = 0)) (.rfree (w / 256 % 16))
  | 13 => whenZero (decide (w / 256 % 65536 = 0)) (.mbara (w / 16 % 16) (w % 16))
  | 14 => whenZero (decide (w / 16 % 1048576 = 0)) (.mbarw (w % 16))
  | 15 => whenZero (decide (w / 4096 % 16 = 0)) (.convset (Opnd.ofNat (w / 65536 % 256)) (w % 4096))
  | 16 => .ok (.mloop (w / 65536 % 256) (w % 65536))
  | 17 => whenZero (decide (w % 16777216 = 0)) .mendl
  | 18 => whenZero (decide (w % 16777216 = 0)) .mend
  | 19 => whenZero (decide (w % 16777216 = 0)) .mflag
  | _ => .error .reservedOpcode

/-- The word of an instruction, from the formats of 07 R189 and the maps of R202 and R204; an event
has no word. -/
def encode : Instr → Option Nat
  | .nop => some (0)
  | .mode imm => some (16777216 + imm)
  | .modet d imm => some (33554432 + d.toNat * 65536 + imm)
  | .modeg d imm => some (50331648 + d.toNat * 65536 + imm)
  | .bra off => some (67108864 + off)
  | .brz m inv off => some (83886080 + m * 2097152 + bitOf inv * 1048576 + off)
  | .brnz m inv off => some (100663296 + m * 2097152 + bitOf inv * 1048576 + off)
  | .brd m inv off => some (117440512 + m * 2097152 + bitOf inv * 1048576 + off)
  | .joinset off => some (134217728 + off)
  | .join => some (150994944)
  | .call frame off => some (167772160 + frame * 1048576 + off)
  | .calli a frame => some (184549376 + a.toNat * 256 + frame)
  | .ret => some (201326592)
  | .jmpi a => some (218103808 + a.toNat * 256)
  | .exit => some (234881024)
  | .demote => some (251658240)
  | .trap imm => some (268435456 + imm)
  | .rft => some (285212672)
  | .yield => some (301989888)
  | .refill d a b => some (318767104 + d.toNat * 65536 + a.toNat * 256 + b.toNat)
  | .loop d imm => some (335544320 + d.toNat * 65536 + imm)
  | .endl => some (352321536)
  | .mand d a b => some (402653184 + d * 65536 + a * 256 + b)
  | .mor d a b => some (419430400 + d * 65536 + a * 256 + b)
  | .mxor d a b => some (436207616 + d * 65536 + a * 256 + b)
  | .mnot d a => some (452984832 + d * 65536 + a * 256)
  | .mcnt d a => some (469762048 + d.toNat * 65536 + a * 256)
  | .mfirst d a => some (486539264 + d.toNat * 65536 + a * 256)
  | .mset d a => some (503316480 + d * 65536 + a.toNat * 256)
  | .mmov d a => some (520093696 + d * 65536 + a * 256)
  | .add d a b => some (536870912 + d.toNat * 65536 + a.toNat * 256 + b.toNat)
  | .sub d a b => some (553648128 + d.toNat * 65536 + a.toNat * 256 + b.toNat)
  | .addi d a imm => some (570425344 + d.toNat * 65536 + a.toNat * 256 + imm)
  | .mul d a b => some (587202560 + d.toNat * 65536 + a.toNat * 256 + b.toNat)
  | .mulh d a b => some (603979776 + d.toNat * 65536 + a.toNat * 256 + b.toNat)
  | .mad d a b => some (620756992 + d.toNat * 65536 + a.toNat * 256 + b.toNat)
  | .div d a b => some (637534208 + d.toNat * 65536 + a.toNat * 256 + b.toNat)
  | .rem d a b => some (654311424 + d.toNat * 65536 + a.toNat * 256 + b.toNat)
  | .min d a b => some (671088640 + d.toNat * 65536 + a.toNat * 256 + b.toNat)
  | .max d a b => some (687865856 + d.toNat * 65536 + a.toNat * 256 + b.toNat)
  | .abs d a => some (704643072 + d.toNat * 65536 + a.toNat * 256)
  | .neg d a => some (721420288 + d.toNat * 65536 + a.toNat * 256)
  | .and d a b => some (738197504 + d.toNat * 65536 + a.toNat * 256 + b.toNat)
  | .or d a b => some (754974720 + d.toNat * 65536 + a.toNat * 256 + b.toNat)
  | .xor d a b => some (771751936 + d.toNat * 65536 + a.toNat * 256 + b.toNat)
  | .not d a => some (788529152 + d.toNat * 65536 + a.toNat * 256)
  | .andi d a imm => some (805306368 + d.toNat * 65536 + a.toNat * 256 + imm)
  | .ori d a imm => some (822083584 + d.toNat * 65536 + a.toNat * 256 + imm)
  | .xori d a imm => some (838860800 + d.toNat * 65536 + a.toNat * 256 + imm)
  | .shl d a b => some (855638016 + d.toNat * 65536 + a.toNat * 256 + b.toNat)
  | .shr d a b => some (872415232 + d.toNat * 65536 + a.toNat * 256 + b.toNat)
  | .sha d a b => some (889192448 + d.toNat * 65536 + a.toNat * 256 + b.toNat)
  | .shli d a imm => some (905969664 + d.toNat * 65536 + a.toNat * 256 + imm)
  | .shri d a imm => some (922746880 + d.toNat * 65536 + a.toNat * 256 + imm)
  | .shai d a imm => some (939524096 + d.toNat * 65536 + a.toNat * 256 + imm)
  | .rol d a b => some (956301312 + d.toNat * 65536 + a.toNat * 256 + b.toNat)
  | .clz d a => some (973078528 + d.toNat * 65536 + a.toNat * 256)
  | .popc d a => some (989855744 + d.toNat * 65536 + a.toNat * 256)
  | .brev d a => some (1006632960 + d.toNat * 65536 + a.toNat * 256)
  | .bfx d a b => some (1023410176 + d.toNat * 65536 + a.toNat * 256 + b.toNat)
  | .bfi d a b => some (1040187392 + d.toNat * 65536 + a.toNat * 256 + b.toNat)
  | .sel d a b => some (1056964608 + d.toNat * 65536 + a.toNat * 256 + b.toNat)
  | .ceq d a b => some (1073741824 + d * 65536 + a.toNat * 256 + b.toNat)
  | .cne d a b => some (1090519040 + d * 65536 + a.toNat * 256 + b.toNat)
  | .clt d a b => some (1107296256 + d * 65536 + a.toNat * 256 + b.toNat)
  | .cle d a b => some (1124073472 + d * 65536 + a.toNat * 256 + b.toNat)
  | .cgt d a b => some (1140850688 + d * 65536 + a.toNat * 256 + b.toNat)
  | .cge d a b => some (1157627904 + d * 65536 + a.toNat * 256 + b.toNat)
  | .lim d imm => some (1174405120 + d.toNat * 65536 + imm)
  | .limh d imm => some (1191182336 + d.toNat * 65536 + imm)
  | .limx d imm => some (1207959552 + d.toNat * 65536 + imm)
  | .mov d a => some (1224736768 + d.toNat * 65536 + a.toNat * 256)
  | .wfld d h f => some (1258291200 + d.toNat * 65536 + bitOf h * 8 + f)
  | .lea d a b => some (1275068416 + d.toNat * 65536 + a.toNat * 256 + b.toNat)
  | .addc d a b => some (1291845632 + d.toNat * 65536 + a.toNat * 256 + b.toNat)
  | .cvti d a p dst src => some (1308622848 + d.toNat * 65536 + a.toNat * 256 + p * 64 + dst * 8 + src)
  | .fadd d a b => some (1342177280 + d.toNat * 65536 + a.toNat * 256 + b.toNat)
  | .fsub d a b => some (1358954496 + d.toNat * 65536 + a.toNat * 256 + b.toNat)
  | .fmul d a b => some (1375731712 + d.toNat * 65536 + a.toNat * 256 + b.toNat)
  | .fma d a b => some (1392508928 + d.toNat * 65536 + a.toNat * 256 + b.toNat)
  | .fms d a b => some (1409286144 + d.toNat * 65536 + a.toNat * 256 + b.toNat)
  | .fnma d a b => some (1426063360 + d.toNat * 65536 + a.toNat * 256 + b.toNat)
  | .fmin d a b => some (1442840576 + d.toNat * 65536 + a.toNat * 256 + b.toNat)
  | .fmax d a b => some (1459617792 + d.toNat * 65536 + a.toNat * 256 + b.toNat)
  | .fabs d a => some (1476395008 + d.toNat * 65536 + a.toNat * 256)
  | .fneg d a => some (1493172224 + d.toNat * 65536 + a.toNat * 256)
  | .fceq d a b => some (1509949440 + d * 65536 + a.toNat * 256 + b.toNat)
  | .fclt d a b => some (1526726656 + d * 65536 + a.toNat * 256 + b.toNat)
  | .fcle d a b => some (1543503872 + d * 65536 + a.toNat * 256 + b.toNat)
  | .fcun d a b => some (1560281088 + d * 65536 + a.toNat * 256 + b.toNat)
  | .fclass d a => some (1577058304 + d.toNat * 65536 + a.toNat * 256)
  | .frcp d a la => some (1593835520 + d.toNat * 65536 + a.toNat * 256 + la * 16)
  | .frsq d a la => some (1610612736 + d.toNat * 65536 + a.toNat * 256 + la * 16)
  | .fsqrt d a la => some (1627389952 + d.toNat * 65536 + a.toNat * 256 + la * 16)
  | .fdiv d a b => some (1644167168 + d.toNat * 65536 + a.toNat * 256 + b.toNat)
  | .fexp2 d a la => some (1660944384 + d.toNat * 65536 + a.toNat * 256 + la * 16)
  | .flog2 d a la => some (1677721600 + d.toNat * 65536 + a.toNat * 256 + la * 16)
  | .fsin d a la => some (1694498816 + d.toNat * 65536 + a.toNat * 256 + la * 16)
  | .fcos d a la => some (1711276032 + d.toNat * 65536 + a.toNat * 256 + la * 16)
  | .ftanh d a la => some (1728053248 + d.toNat * 65536 + a.toNat * 256 + la * 16)
  | .frnd d a rc => some (1744830464 + d.toNat * 65536 + a.toNat * 256 + rc)
  | .ftoi d a u => some (1761607680 + d.toNat * 65536 + a.toNat * 256 + bitOf u)
  | .itof d a u => some (1778384896 + d.toNat * 65536 + a.toNat * 256 + bitOf u)
  | .cvt d a p fs => some (1795162112 + d.toNat * 65536 + a.toNat * 256 + p * 8 + fs)
  | .cvtf d a t => some (1811939328 + d.toNat * 65536 + a.toNat * 256 + t)
  | .pack d a b => some (1828716544 + d.toNat * 65536 + a.toNat * 256 + b.toNat)
  | .unpk d a p => some (1845493760 + d.toNat * 65536 + a.toNat * 256 + p)
  | .fscl d a b => some (1862270976 + d.toNat * 65536 + a.toNat * 256 + b.toNat)
  | .cblk d a fs => some (1879048192 + d.toNat * 65536 + a.toNat * 256 + fs)
  | .qnt d a p fs => some (1895825408 + d.toNat * 65536 + a.toNat * 256 + p * 8 + fs)
  | .dqnt d a p fs => some (1912602624 + d.toNat * 65536 + a.toNat * 256 + p * 8 + fs)
  | .cblu d a h fs => some (1929379840 + d.toNat * 65536 + a.toNat * 256 + bitOf h * 8 + fs)
  | .fdot2 d a b => some (1946157056 + d.toNat * 65536 + a.toNat * 256 + b.toNat)
  | .fdot4 d a b => some (1962934272 + d.toNat * 65536 + a.toNat * 256 + b.toNat)
  | .shfl d a b => some (2147483648 + d.toNat * 65536 + a.toNat * 256 + b.toNat)
  | .shflx d a imm => some (2164260864 + d.toNat * 65536 + a.toNat * 256 + imm)
  | .shflu d a imm => some (2181038080 + d.toNat * 65536 + a.toNat * 256 + imm)
  | .shfld d a imm => some (2197815296 + d.toNat * 65536 + a.toNat * 256 + imm)
  | .bcst d a b => some (2214592512 + d.toNat * 65536 + a.toNat * 256 + b.toNat)
  | .vany d a => some (2231369728 + d.toNat * 65536 + a.toNat * 256)
  | .vall d a => some (2248146944 + d.toNat * 65536 + a.toNat * 256)
  | .vbal d a => some (2264924160 + d.toNat * 65536 + a.toNat * 256)
  | .red d a op => some (2281701376 + d.toNat * 65536 + a.toNat * 256 + op)
  | .scan d a x op => some (2298478592 + d.toNat * 65536 + a.toNat * 256 + bitOf x * 16 + op)
  | .matchLanes d a => some (2315255808 + d.toNat * 65536 + a.toNat * 256)
  | .rdln d a b => some (2332033024 + d.toNat * 65536 + a.toNat * 256 + b.toNat)
  | .wrln d a b => some (2348810240 + d.toNat * 65536 + a.toNat * 256 + b.toNat)
  | .ld d a la sx sz => some (2415919104 + d.toNat * 65536 + a.toNat * 256 + la * 16 + bitOf sx * 4 + sz)
  | .st sz a b => some (2432696320 + sz * 65536 + a.toNat * 256 + b.toNat)
  | .lds d a la sx sz => some (2449473536 + d.toNat * 65536 + a.toNat * 256 + la * 16 + bitOf sx * 4 + sz)
  | .sts sz a b => some (2466250752 + sz * 65536 + a.toNat * 256 + b.toNat)
  | .lda d a la rmk sc => some (2483027968 + d.toNat * 65536 + a.toNat * 256 + la * 16 + bitOf rmk * 8 + sc)
  | .stl z sc a b => some (2499805184 + bitOf z * 524288 + sc * 65536 + a.toNat * 256 + b.toNat)
  | .ldnc d a la sx sz => some (2516582400 + d.toNat * 65536 + a.toNat * 256 + la * 16 + bitOf sx * 4 + sz)
  | .pref lv a => some (2533359616 + lv * 65536 + a.toNat * 256)
  | .aadd d a b => some (2550136832 + d.toNat * 65536 + a.toNat * 256 + b.toNat)
  | .amin d a b => some (2566914048 + d.toNat * 65536 + a.toNat * 256 + b.toNat)
  | .amax d a b => some (2583691264 + d.toNat * 65536 + a.toNat * 256 + b.toNat)
  | .aand d a b => some (2600468480 + d.toNat * 65536 + a.toNat * 256 + b.toNat)
  | .aor d a b => some (2617245696 + d.toNat * 65536 + a.toNat * 256 + b.toNat)
  | .axor d a b => some (2634022912 + d.toNat * 65536 + a.toNat * 256 + b.toNat)
  | .axch d a b => some (2650800128 + d.toNat * 65536 + a.toNat * 256 + b.toNat)
  | .acas d a b => some (2667577344 + d.toNat * 65536 + a.toNat * 256 + b.toNat)
  | .afadd d a b => some (2684354560 + d.toNat * 65536 + a.toNat * 256 + b.toNat)
  | .fence sc o => some (2701131776 + sc * 4 + o)
  | .stmap r a b => some (2717908992 + r * 65536 + a.toNat * 256 + b.toNat)
  | .stunmap r => some (2734686208 + r * 65536)
  | .stflush r => some (2751463424 + r * 65536)
  | .ldk d a la rmk sc => some (2768240640 + d.toNat * 65536 + a.toNat * 256 + la * 16 + bitOf rmk * 8 + sc)
  | .stk sc a b => some (2785017856 + sc * 65536 + a.toNat * 256 + b.toNat)
  | .aaddk d a b => some (2801795072 + d.toNat * 65536 + a.toNat * 256 + b.toNat)
  | .ldcw d a la sx sz => some (2818572288 + d.toNat * 65536 + a.toNat * 256 + la * 16 + bitOf sx * 4 + sz)
  | .bar => some (2952790016)
  | .nbara a n => some (2969567232 + a.toNat * 256 + n)
  | .nbarw n => some (2986344448 + n)
  | .nbaraw a n => some (3003121664 + a.toNat * 256 + n)
  | .waitc cmp sc a b => some (3019898880 + cmp * 524288 + sc * 65536 + a.toNat * 256 + b.toNat)
  | .waitb sc a b => some (3036676096 + sc * 65536 + a.toNat * 256 + b.toNat)
  | .signal sc a b => some (3053453312 + sc * 65536 + a.toNat * 256 + b.toNat)
  | .waita sc => some (3087007744 + sc * 65536)
  | .copy d a b => some (3221225472 + d.toNat * 65536 + a.toNat * 256 + b.toNat)
  | .copy2d d a b => some (3238002688 + d.toNat * 65536 + a.toNat * 256 + b.toNat)
  | .gath d a b => some (3254779904 + d.toNat * 65536 + a.toNat * 256 + b.toNat)
  | .scat d a b => some (3271557120 + d.toNat * 65536 + a.toNat * 256 + b.toNat)
  | .fill d a b => some (3288334336 + d.toNat * 65536 + a.toNat * 256 + b.toNat)
  | .rcopy d a b => some (3305111552 + d.toNat * 65536 + a.toNat * 256 + b.toNat)
  | .depn d a b => some (3321888768 + d.toNat * 65536 + a.toNat * 256 + b.toNat)
  | .mstr a => some (3338665984 + a.toNat * 256)
  | .rput d a b => some (3355443200 + d.toNat * 65536 + a.toNat * 256 + b.toNat)
  | .rget d a b => some (3372220416 + d.toNat * 65536 + a.toNat * 256 + b.toNat)
  | .tspawn d a => some (3489660928 + d.toNat * 65536 + a.toNat * 256)
  | .tnext => some (3506438144)
  | .tdone => some (3523215360)
  | .launch a => some (3539992576 + a.toNat * 256)
  | .joinc cmp sc a b => some (3556769792 + cmp * 524288 + sc * 65536 + a.toNat * 256 + b.toNat)
  | .trig d a => some (3573547008 + d.toNat * 65536 + a.toNat * 256)
  | .tdisarm d a => some (3590324224 + d.toNat * 65536 + a.toNat * 256)
  | .seqnew d => some (3607101440 + d.toNat * 65536)
  | .seqend a b => some (3623878656 + a.toNat * 256 + b.toNat)
  | .erd d f => some (3758096384 + d.toNat * 65536 + f)
  | .ebkt d f => some (3774873600 + d.toNat * 65536 + f)
  | .eop d p => some (3791650816 + d.toNat * 65536 + p)
  | .eoprd d => some (3808428032 + d.toNat * 65536)
  | .emark d f => some (3825205248 + d.toNat * 65536 + bitOf f)
  | .erdh d t p c => some (3841982464 + d.toNat * 65536 + t * 4096 + p * 256 + c)
  | .sysrd d n => some (4026531840 + d.toNat * 65536 + n)
  | .syswr d n => some (4043309056 + d.toNat * 65536 + n)
  | .wlatch d u => some (4060086272 + d.toNat * 65536 + bitOf u)
  | .keygen d w => some (4076863488 + d.toNat * 65536 + w)
  | .keydel d => some (4093640704 + d.toNat * 65536)
  | .tinv d k => some (4110417920 + d.toNat * 65536 + k)
  | .meter d => some (4127195136 + d.toNat * 65536)
  | .save d m => some (4143972352 + d.toNat * 65536 + bitOf m)
  | .rest d => some (4160749568 + d.toNat * 65536)
  | .halt d b => some (4177526784 + d.toNat * 65536 + bitOf b)
  | .clear d m => some (4194304000 + d.toNat * 65536 + m)
  | .waiti d m => some (4211081216 + d.toNat * 65536 + m)
  | .mnop => some (0)
  | .mma acc fs ra rb => some (16777216 + acc * 524288 + fs * 65536 + ra * 256 + rb)
  | .mmas acc fs ra rb => some (33554432 + acc * 524288 + fs * 65536 + ra * 256 + rb)
  | .mmav acc fs ra rb => some (50331648 + acc * 524288 + fs * 65536 + ra * 256 + rb)
  | .mtrn acc fs ra => some (67108864 + acc * 524288 + fs * 65536 + ra * 256)
  | .mperm acc fs ra rb => some (83886080 + acc * 524288 + fs * 65536 + ra * 256 + rb)
  | .mred acc fs ra => some (100663296 + acc * 524288 + fs * 65536 + ra * 256)
  | .accz acc => some (117440512 + acc * 524288)
  | .accld acc ra => some (134217728 + acc * 524288 + ra * 256)
  | .accst acc fs rb => some (150994944 + acc * 524288 + fs * 65536 + rb)
  | .ringd d sp dir n => some (167772160 + d.toNat * 65536 + sp * 32 + bitOf dir * 16 + n)
  | .rwait n => some (184549376 + n * 256)
  | .rfree n => some (201326592 + n * 256)
  | .mbara c n => some (218103808 + c * 16 + n)
  | .mbarw n => some (234881024 + n)
  | .convset d wo => some (251658240 + d.toNat * 65536 + wo)
  | .mloop d imm => some (268435456 + d * 65536 + imm)
  | .mendl => some (285212672)
  | .mend => some (301989888)
  | .mflag => some (318767104)
  | .tileGrant _ => none
  | .ringWaitWake _ => none
  | .tickBoundary => none
  | .tickUpdate _ => none
  | .spendLimitReached _ _ => none
  | .drainOverrun _ => none
  | .opSlewComplete _ => none
  | .counterUpdate _ _ _ => none
  | .watchNotify _ _ => none
  | .waitPoll _ _ => none
  | .pendingLaunchTake _ => none
  | .launchAccept _ => none
  | .specialiseEvaluate _ => none
  | .specialiseTimeout _ => none
  | .dispatchRound _ => none
  | .coreRelatch _ => none
  | .blockRestore _ _ => none
  | .blockSave _ => none
  | .blockFlush _ => none
  | .joinPatienceExpired _ _ => none
  | .launchComplete _ => none
  | .resumableFault _ => none
  | .faultCounterGrant _ => none
  | .faultResolution _ _ => none
  | .stealRequest _ _ => none
  | .stealAnswer _ => none
  | .gangReserveRequest _ _ => none
  | .gangReserveTimeout _ => none
  | .gangRollbackDone _ => none
  | .gangStartTick _ => none
  | .engineOpStart _ _ => none
  | .engineOpComplete _ _ => none
  | .engineOpFault _ _ => none
  | .depnNodeStart _ _ => none
  | .seqendComplete _ => none
  | .keyInstallComplete _ => none
  | .sliceAccess _ => none
  | .requestRetry _ _ => none
  | .directoryRecall _ => none
  | .releaseHint _ _ _ => none
  | .promotionRequest _ _ _ => none
  | .releaseEntryTimeout _ => none
  | .freeDeclaration _ => none
  | .sliceBlockMove _ _ => none
  | .refresh _ _ => none
  | .hotPageInterval => none
  | .patrolRead _ => none
  | .pageRetire _ _ => none
  | .keySlotRecovery _ _ => none
  | .contextEnd _ => none
  | .errorRecordTake _ => none
  | .cxlMemRead _ _ _ => none
  | .cxlMemWrite _ _ _ => none
  | .hostMailboxRequest _ _ => none
  | .rensarWrite _ _ _ => none
  | .rensarReadRequest _ _ => none
  | .rensarReadResponse _ _ _ => none
  | .rensarWriteAck _ _ => none
  | .rensarErrorCompletion _ _ _ => none
  | .rensarTimeout _ _ => none
  | .firmwareMessage _ _ => none
  | .crarasDemandReport => none
  | .crarasDemand _ _ _ _ => none
  | .crarasGrant _ _ _ => none
  | .crarasGrantTimeout => none
  | .lockInterfaceRequest _ _ => none
  | .startInterfaceRequest _ _ => none
  | .stopInterfaceRequest _ _ => none
  | .getDeviceInterfaceState _ _ => none
  | .spdmSessionEnd _ => none
  | .tdispConfigChange _ => none
  | .nocCipherFailure _ _ _ => none
  | .cipherFlowResume _ _ => none
  | .cxlIdeFailure => none
  | .cxlLinkDown => none
  | .rensarLaneFailure _ _ => none
  | .deviceReset _ => none
  | .hostResetRequest => none
  | .checkpoint _ => none
  | .timingReplay _ _ => none
  | .droop _ => none
  | .droopTimeout _ => none
  | .thermalCeilingStep _ _ => none
  | .thermalTrip _ _ => none
  | .thermalTripClear _ _ => none
  | .thermalSensorFail _ _ => none
  | .thermalEmergency => none
  | .unitGate _ _ => none
  | .wakeRequest _ _ => none
  | .wakeComplete _ _ _ => none
  | .firmwareTimer _ => none
  | .queueResetQueue _ _ _ => none
  | .queueResetWhole _ _ => none
  | .drainToken _ _ => none
  | .capRequestPackage _ _ => none
  | .capRequestPartition _ _ _ => none
  | .injectLlcSingle _ _ _ => none
  | .injectLlcDouble _ _ _ => none
  | .injectHbmDouble _ _ _ => none
  | .creditWrite _ _ => none
  | .rangeRegisterWrite _ _ _ _ _ => none
  | .scopePolicyWrite _ _ => none
  | .registerWrite _ _ => none
  | .keyInstallTimeout _ => none
  | .txidHoldExpired _ _ => none
  | .droopEnd _ => none
  | .stackTemperatureLimit _ _ => none
  | .rensarLinkUp _ _ => none
  | .cxlBackInvalidateResponse _ _ => none
  | .tileOperationComplete _ => none
  | .invalidationComplete _ => none

/-- Whether an instruction belongs to the stream map (07 R204). -/
def Instr.isStream : Instr → Bool
  | .nop => false
  | .mode _ => false
  | .modet _ _ => false
  | .modeg _ _ => false
  | .bra _ => false
  | .brz _ _ _ => false
  | .brnz _ _ _ => false
  | .brd _ _ _ => false
  | .joinset _ => false
  | .join => false
  | .call _ _ => false
  | .calli _ _ => false
  | .ret => false
  | .jmpi _ => false
  | .exit => false
  | .demote => false
  | .trap _ => false
  | .rft => false
  | .yield => false
  | .refill _ _ _ => false
  | .loop _ _ => false
  | .endl => false
  | .mand _ _ _ => false
  | .mor _ _ _ => false
  | .mxor _ _ _ => false
  | .mnot _ _ => false
  | .mcnt _ _ => false
  | .mfirst _ _ => false
  | .mset _ _ => false
  | .mmov _ _ => false
  | .add _ _ _ => false
  | .sub _ _ _ => false
  | .addi _ _ _ => false
  | .mul _ _ _ => false
  | .mulh _ _ _ => false
  | .mad _ _ _ => false
  | .div _ _ _ => false
  | .rem _ _ _ => false
  | .min _ _ _ => false
  | .max _ _ _ => false
  | .abs _ _ => false
  | .neg _ _ => false
  | .and _ _ _ => false
  | .or _ _ _ => false
  | .xor _ _ _ => false
  | .not _ _ => false
  | .andi _ _ _ => false
  | .ori _ _ _ => false
  | .xori _ _ _ => false
  | .shl _ _ _ => false
  | .shr _ _ _ => false
  | .sha _ _ _ => false
  | .shli _ _ _ => false
  | .shri _ _ _ => false
  | .shai _ _ _ => false
  | .rol _ _ _ => false
  | .clz _ _ => false
  | .popc _ _ => false
  | .brev _ _ => false
  | .bfx _ _ _ => false
  | .bfi _ _ _ => false
  | .sel _ _ _ => false
  | .ceq _ _ _ => false
  | .cne _ _ _ => false
  | .clt _ _ _ => false
  | .cle _ _ _ => false
  | .cgt _ _ _ => false
  | .cge _ _ _ => false
  | .lim _ _ => false
  | .limh _ _ => false
  | .limx _ _ => false
  | .mov _ _ => false
  | .wfld _ _ _ => false
  | .lea _ _ _ => false
  | .addc _ _ _ => false
  | .cvti _ _ _ _ _ => false
  | .fadd _ _ _ => false
  | .fsub _ _ _ => false
  | .fmul _ _ _ => false
  | .fma _ _ _ => false
  | .fms _ _ _ => false
  | .fnma _ _ _ => false
  | .fmin _ _ _ => false
  | .fmax _ _ _ => false
  | .fabs _ _ => false
  | .fneg _ _ => false
  | .fceq _ _ _ => false
  | .fclt _ _ _ => false
  | .fcle _ _ _ => false
  | .fcun _ _ _ => false
  | .fclass _ _ => false
  | .frcp _ _ _ => false
  | .frsq _ _ _ => false
  | .fsqrt _ _ _ => false
  | .fdiv _ _ _ => false
  | .fexp2 _ _ _ => false
  | .flog2 _ _ _ => false
  | .fsin _ _ _ => false
  | .fcos _ _ _ => false
  | .ftanh _ _ _ => false
  | .frnd _ _ _ => false
  | .ftoi _ _ _ => false
  | .itof _ _ _ => false
  | .cvt _ _ _ _ => false
  | .cvtf _ _ _ => false
  | .pack _ _ _ => false
  | .unpk _ _ _ => false
  | .fscl _ _ _ => false
  | .cblk _ _ _ => false
  | .qnt _ _ _ _ => false
  | .dqnt _ _ _ _ => false
  | .cblu _ _ _ _ => false
  | .fdot2 _ _ _ => false
  | .fdot4 _ _ _ => false
  | .shfl _ _ _ => false
  | .shflx _ _ _ => false
  | .shflu _ _ _ => false
  | .shfld _ _ _ => false
  | .bcst _ _ _ => false
  | .vany _ _ => false
  | .vall _ _ => false
  | .vbal _ _ => false
  | .red _ _ _ => false
  | .scan _ _ _ _ => false
  | .matchLanes _ _ => false
  | .rdln _ _ _ => false
  | .wrln _ _ _ => false
  | .ld _ _ _ _ _ => false
  | .st _ _ _ => false
  | .lds _ _ _ _ _ => false
  | .sts _ _ _ => false
  | .lda _ _ _ _ _ => false
  | .stl _ _ _ _ => false
  | .ldnc _ _ _ _ _ => false
  | .pref _ _ => false
  | .aadd _ _ _ => false
  | .amin _ _ _ => false
  | .amax _ _ _ => false
  | .aand _ _ _ => false
  | .aor _ _ _ => false
  | .axor _ _ _ => false
  | .axch _ _ _ => false
  | .acas _ _ _ => false
  | .afadd _ _ _ => false
  | .fence _ _ => false
  | .stmap _ _ _ => false
  | .stunmap _ => false
  | .stflush _ => false
  | .ldk _ _ _ _ _ => false
  | .stk _ _ _ => false
  | .aaddk _ _ _ => false
  | .ldcw _ _ _ _ _ => false
  | .bar => false
  | .nbara _ _ => false
  | .nbarw _ => false
  | .nbaraw _ _ => false
  | .waitc _ _ _ _ => false
  | .waitb _ _ _ => false
  | .signal _ _ _ => false
  | .waita _ => false
  | .copy _ _ _ => false
  | .copy2d _ _ _ => false
  | .gath _ _ _ => false
  | .scat _ _ _ => false
  | .fill _ _ _ => false
  | .rcopy _ _ _ => false
  | .depn _ _ _ => false
  | .mstr _ => false
  | .rput _ _ _ => false
  | .rget _ _ _ => false
  | .tspawn _ _ => false
  | .tnext => false
  | .tdone => false
  | .launch _ => false
  | .joinc _ _ _ _ => false
  | .trig _ _ => false
  | .tdisarm _ _ => false
  | .seqnew _ => false
  | .seqend _ _ => false
  | .erd _ _ => false
  | .ebkt _ _ => false
  | .eop _ _ => false
  | .eoprd _ => false
  | .emark _ _ => false
  | .erdh _ _ _ _ => false
  | .sysrd _ _ => false
  | .syswr _ _ => false
  | .wlatch _ _ => false
  | .keygen _ _ => false
  | .keydel _ => false
  | .tinv _ _ => false
  | .meter _ => false
  | .save _ _ => false
  | .rest _ => false
  | .halt _ _ => false
  | .clear _ _ => false
  | .waiti _ _ => false
  | .mnop => true
  | .mma _ _ _ _ => true
  | .mmas _ _ _ _ => true
  | .mmav _ _ _ _ => true
  | .mtrn _ _ _ => true
  | .mperm _ _ _ _ => true
  | .mred _ _ _ => true
  | .accz _ => true
  | .accld _ _ => true
  | .accst _ _ _ => true
  | .ringd _ _ _ _ => true
  | .rwait _ => true
  | .rfree _ => true
  | .mbara _ _ => true
  | .mbarw _ => true
  | .convset _ _ => true
  | .mloop _ _ => true
  | .mendl => true
  | .mend => true
  | .mflag => true
  | .tileGrant _ => false
  | .ringWaitWake _ => false
  | .tickBoundary => false
  | .tickUpdate _ => false
  | .spendLimitReached _ _ => false
  | .drainOverrun _ => false
  | .opSlewComplete _ => false
  | .counterUpdate _ _ _ => false
  | .watchNotify _ _ => false
  | .waitPoll _ _ => false
  | .pendingLaunchTake _ => false
  | .launchAccept _ => false
  | .specialiseEvaluate _ => false
  | .specialiseTimeout _ => false
  | .dispatchRound _ => false
  | .coreRelatch _ => false
  | .blockRestore _ _ => false
  | .blockSave _ => false
  | .blockFlush _ => false
  | .joinPatienceExpired _ _ => false
  | .launchComplete _ => false
  | .resumableFault _ => false
  | .faultCounterGrant _ => false
  | .faultResolution _ _ => false
  | .stealRequest _ _ => false
  | .stealAnswer _ => false
  | .gangReserveRequest _ _ => false
  | .gangReserveTimeout _ => false
  | .gangRollbackDone _ => false
  | .gangStartTick _ => false
  | .engineOpStart _ _ => false
  | .engineOpComplete _ _ => false
  | .engineOpFault _ _ => false
  | .depnNodeStart _ _ => false
  | .seqendComplete _ => false
  | .keyInstallComplete _ => false
  | .sliceAccess _ => false
  | .requestRetry _ _ => false
  | .directoryRecall _ => false
  | .releaseHint _ _ _ => false
  | .promotionRequest _ _ _ => false
  | .releaseEntryTimeout _ => false
  | .freeDeclaration _ => false
  | .sliceBlockMove _ _ => false
  | .refresh _ _ => false
  | .hotPageInterval => false
  | .patrolRead _ => false
  | .pageRetire _ _ => false
  | .keySlotRecovery _ _ => false
  | .contextEnd _ => false
  | .errorRecordTake _ => false
  | .cxlMemRead _ _ _ => false
  | .cxlMemWrite _ _ _ => false
  | .hostMailboxRequest _ _ => false
  | .rensarWrite _ _ _ => false
  | .rensarReadRequest _ _ => false
  | .rensarReadResponse _ _ _ => false
  | .rensarWriteAck _ _ => false
  | .rensarErrorCompletion _ _ _ => false
  | .rensarTimeout _ _ => false
  | .firmwareMessage _ _ => false
  | .crarasDemandReport => false
  | .crarasDemand _ _ _ _ => false
  | .crarasGrant _ _ _ => false
  | .crarasGrantTimeout => false
  | .lockInterfaceRequest _ _ => false
  | .startInterfaceRequest _ _ => false
  | .stopInterfaceRequest _ _ => false
  | .getDeviceInterfaceState _ _ => false
  | .spdmSessionEnd _ => false
  | .tdispConfigChange _ => false
  | .nocCipherFailure _ _ _ => false
  | .cipherFlowResume _ _ => false
  | .cxlIdeFailure => false
  | .cxlLinkDown => false
  | .rensarLaneFailure _ _ => false
  | .deviceReset _ => false
  | .hostResetRequest => false
  | .checkpoint _ => false
  | .timingReplay _ _ => false
  | .droop _ => false
  | .droopTimeout _ => false
  | .thermalCeilingStep _ _ => false
  | .thermalTrip _ _ => false
  | .thermalTripClear _ _ => false
  | .thermalSensorFail _ _ => false
  | .thermalEmergency => false
  | .unitGate _ _ => false
  | .wakeRequest _ _ => false
  | .wakeComplete _ _ _ => false
  | .firmwareTimer _ => false
  | .queueResetQueue _ _ _ => false
  | .queueResetWhole _ _ => false
  | .drainToken _ _ => false
  | .capRequestPackage _ _ => false
  | .capRequestPartition _ _ _ => false
  | .injectLlcSingle _ _ _ => false
  | .injectLlcDouble _ _ _ => false
  | .injectHbmDouble _ _ _ => false
  | .creditWrite _ _ => false
  | .rangeRegisterWrite _ _ _ _ _ => false
  | .scopePolicyWrite _ _ => false
  | .registerWrite _ _ => false
  | .keyInstallTimeout _ => false
  | .txidHoldExpired _ _ => false
  | .droopEnd _ => false
  | .stackTemperatureLimit _ _ => false
  | .rensarLinkUp _ _ => false
  | .cxlBackInvalidateResponse _ _ => false
  | .tileOperationComplete _ => false
  | .invalidationComplete _ => false

/-- The opcode byte of an instruction (07 R202, R204); 256 for an event. -/
def Instr.opcode : Instr → Nat
  | .nop => 0
  | .mode _ => 1
  | .modet _ _ => 2
  | .modeg _ _ => 3
  | .bra _ => 4
  | .brz _ _ _ => 5
  | .brnz _ _ _ => 6
  | .brd _ _ _ => 7
  | .joinset _ => 8
  | .join => 9
  | .call _ _ => 10
  | .calli _ _ => 11
  | .ret => 12
  | .jmpi _ => 13
  | .exit => 14
  | .demote => 15
  | .trap _ => 16
  | .rft => 17
  | .yield => 18
  | .refill _ _ _ => 19
  | .loop _ _ => 20
  | .endl => 21
  | .mand _ _ _ => 24
  | .mor _ _ _ => 25
  | .mxor _ _ _ => 26
  | .mnot _ _ => 27
  | .mcnt _ _ => 28
  | .mfirst _ _ => 29
  | .mset _ _ => 30
  | .mmov _ _ => 31
  | .add _ _ _ => 32
  | .sub _ _ _ => 33
  | .addi _ _ _ => 34
  | .mul _ _ _ => 35
  | .mulh _ _ _ => 36
  | .mad _ _ _ => 37
  | .div _ _ _ => 38
  | .rem _ _ _ => 39
  | .min _ _ _ => 40
  | .max _ _ _ => 41
  | .abs _ _ => 42
  | .neg _ _ => 43
  | .and _ _ _ => 44
  | .or _ _ _ => 45
  | .xor _ _ _ => 46
  | .not _ _ => 47
  | .andi _ _ _ => 48
  | .ori _ _ _ => 49
  | .xori _ _ _ => 50
  | .shl _ _ _ => 51
  | .shr _ _ _ => 52
  | .sha _ _ _ => 53
  | .shli _ _ _ => 54
  | .shri _ _ _ => 55
  | .shai _ _ _ => 56
  | .rol _ _ _ => 57
  | .clz _ _ => 58
  | .popc _ _ => 59
  | .brev _ _ => 60
  | .bfx _ _ _ => 61
  | .bfi _ _ _ => 62
  | .sel _ _ _ => 63
  | .ceq _ _ _ => 64
  | .cne _ _ _ => 65
  | .clt _ _ _ => 66
  | .cle _ _ _ => 67
  | .cgt _ _ _ => 68
  | .cge _ _ _ => 69
  | .lim _ _ => 70
  | .limh _ _ => 71
  | .limx _ _ => 72
  | .mov _ _ => 73
  | .wfld _ _ _ => 75
  | .lea _ _ _ => 76
  | .addc _ _ _ => 77
  | .cvti _ _ _ _ _ => 78
  | .fadd _ _ _ => 80
  | .fsub _ _ _ => 81
  | .fmul _ _ _ => 82
  | .fma _ _ _ => 83
  | .fms _ _ _ => 84
  | .fnma _ _ _ => 85
  | .fmin _ _ _ => 86
  | .fmax _ _ _ => 87
  | .fabs _ _ => 88
  | .fneg _ _ => 89
  | .fceq _ _ _ => 90
  | .fclt _ _ _ => 91
  | .fcle _ _ _ => 92
  | .fcun _ _ _ => 93
  | .fclass _ _ => 94
  | .frcp _ _ _ => 95
  | .frsq _ _ _ => 96
  | .fsqrt _ _ _ => 97
  | .fdiv _ _ _ => 98
  | .fexp2 _ _ _ => 99
  | .flog2 _ _ _ => 100
  | .fsin _ _ _ => 101
  | .fcos _ _ _ => 102
  | .ftanh _ _ _ => 103
  | .frnd _ _ _ => 104
  | .ftoi _ _ _ => 105
  | .itof _ _ _ => 106
  | .cvt _ _ _ _ => 107
  | .cvtf _ _ _ => 108
  | .pack _ _ _ => 109
  | .unpk _ _ _ => 110
  | .fscl _ _ _ => 111
  | .cblk _ _ _ => 112
  | .qnt _ _ _ _ => 113
  | .dqnt _ _ _ _ => 114
  | .cblu _ _ _ _ => 115
  | .fdot2 _ _ _ => 116
  | .fdot4 _ _ _ => 117
  | .shfl _ _ _ => 128
  | .shflx _ _ _ => 129
  | .shflu _ _ _ => 130
  | .shfld _ _ _ => 131
  | .bcst _ _ _ => 132
  | .vany _ _ => 133
  | .vall _ _ => 134
  | .vbal _ _ => 135
  | .red _ _ _ => 136
  | .scan _ _ _ _ => 137
  | .matchLanes _ _ => 138
  | .rdln _ _ _ => 139
  | .wrln _ _ _ => 140
  | .ld _ _ _ _ _ => 144
  | .st _ _ _ => 145
  | .lds _ _ _ _ _ => 146
  | .sts _ _ _ => 147
  | .lda _ _ _ _ _ => 148
  | .stl _ _ _ _ => 149
  | .ldnc _ _ _ _ _ => 150
  | .pref _ _ => 151
  | .aadd _ _ _ => 152
  | .amin _ _ _ => 153
  | .amax _ _ _ => 154
  | .aand _ _ _ => 155
  | .aor _ _ _ => 156
  | .axor _ _ _ => 157
  | .axch _ _ _ => 158
  | .acas _ _ _ => 159
  | .afadd _ _ _ => 160
  | .fence _ _ => 161
  | .stmap _ _ _ => 162
  | .stunmap _ => 163
  | .stflush _ => 164
  | .ldk _ _ _ _ _ => 165
  | .stk _ _ _ => 166
  | .aaddk _ _ _ => 167
  | .ldcw _ _ _ _ _ => 168
  | .bar => 176
  | .nbara _ _ => 177
  | .nbarw _ => 178
  | .nbaraw _ _ => 179
  | .waitc _ _ _ _ => 180
  | .waitb _ _ _ => 181
  | .signal _ _ _ => 182
  | .waita _ => 184
  | .copy _ _ _ => 192
  | .copy2d _ _ _ => 193
  | .gath _ _ _ => 194
  | .scat _ _ _ => 195
  | .fill _ _ _ => 196
  | .rcopy _ _ _ => 197
  | .depn _ _ _ => 198
  | .mstr _ => 199
  | .rput _ _ _ => 200
  | .rget _ _ _ => 201
  | .tspawn _ _ => 208
  | .tnext => 209
  | .tdone => 210
  | .launch _ => 211
  | .joinc _ _ _ _ => 212
  | .trig _ _ => 213
  | .tdisarm _ _ => 214
  | .seqnew _ => 215
  | .seqend _ _ => 216
  | .erd _ _ => 224
  | .ebkt _ _ => 225
  | .eop _ _ => 226
  | .eoprd _ => 227
  | .emark _ _ => 228
  | .erdh _ _ _ _ => 229
  | .sysrd _ _ => 240
  | .syswr _ _ => 241
  | .wlatch _ _ => 242
  | .keygen _ _ => 243
  | .keydel _ => 244
  | .tinv _ _ => 245
  | .meter _ => 246
  | .save _ _ => 247
  | .rest _ => 248
  | .halt _ _ => 249
  | .clear _ _ => 250
  | .waiti _ _ => 251
  | .mnop => 0
  | .mma _ _ _ _ => 1
  | .mmas _ _ _ _ => 2
  | .mmav _ _ _ _ => 3
  | .mtrn _ _ _ => 4
  | .mperm _ _ _ _ => 5
  | .mred _ _ _ => 6
  | .accz _ => 7
  | .accld _ _ => 8
  | .accst _ _ _ => 9
  | .ringd _ _ _ _ => 10
  | .rwait _ => 11
  | .rfree _ => 12
  | .mbara _ _ => 13
  | .mbarw _ => 14
  | .convset _ _ => 15
  | .mloop _ _ => 16
  | .mendl => 17
  | .mend => 18
  | .mflag => 19
  | .tileGrant _ => 256
  | .ringWaitWake _ => 256
  | .tickBoundary => 256
  | .tickUpdate _ => 256
  | .spendLimitReached _ _ => 256
  | .drainOverrun _ => 256
  | .opSlewComplete _ => 256
  | .counterUpdate _ _ _ => 256
  | .watchNotify _ _ => 256
  | .waitPoll _ _ => 256
  | .pendingLaunchTake _ => 256
  | .launchAccept _ => 256
  | .specialiseEvaluate _ => 256
  | .specialiseTimeout _ => 256
  | .dispatchRound _ => 256
  | .coreRelatch _ => 256
  | .blockRestore _ _ => 256
  | .blockSave _ => 256
  | .blockFlush _ => 256
  | .joinPatienceExpired _ _ => 256
  | .launchComplete _ => 256
  | .resumableFault _ => 256
  | .faultCounterGrant _ => 256
  | .faultResolution _ _ => 256
  | .stealRequest _ _ => 256
  | .stealAnswer _ => 256
  | .gangReserveRequest _ _ => 256
  | .gangReserveTimeout _ => 256
  | .gangRollbackDone _ => 256
  | .gangStartTick _ => 256
  | .engineOpStart _ _ => 256
  | .engineOpComplete _ _ => 256
  | .engineOpFault _ _ => 256
  | .depnNodeStart _ _ => 256
  | .seqendComplete _ => 256
  | .keyInstallComplete _ => 256
  | .sliceAccess _ => 256
  | .requestRetry _ _ => 256
  | .directoryRecall _ => 256
  | .releaseHint _ _ _ => 256
  | .promotionRequest _ _ _ => 256
  | .releaseEntryTimeout _ => 256
  | .freeDeclaration _ => 256
  | .sliceBlockMove _ _ => 256
  | .refresh _ _ => 256
  | .hotPageInterval => 256
  | .patrolRead _ => 256
  | .pageRetire _ _ => 256
  | .keySlotRecovery _ _ => 256
  | .contextEnd _ => 256
  | .errorRecordTake _ => 256
  | .cxlMemRead _ _ _ => 256
  | .cxlMemWrite _ _ _ => 256
  | .hostMailboxRequest _ _ => 256
  | .rensarWrite _ _ _ => 256
  | .rensarReadRequest _ _ => 256
  | .rensarReadResponse _ _ _ => 256
  | .rensarWriteAck _ _ => 256
  | .rensarErrorCompletion _ _ _ => 256
  | .rensarTimeout _ _ => 256
  | .firmwareMessage _ _ => 256
  | .crarasDemandReport => 256
  | .crarasDemand _ _ _ _ => 256
  | .crarasGrant _ _ _ => 256
  | .crarasGrantTimeout => 256
  | .lockInterfaceRequest _ _ => 256
  | .startInterfaceRequest _ _ => 256
  | .stopInterfaceRequest _ _ => 256
  | .getDeviceInterfaceState _ _ => 256
  | .spdmSessionEnd _ => 256
  | .tdispConfigChange _ => 256
  | .nocCipherFailure _ _ _ => 256
  | .cipherFlowResume _ _ => 256
  | .cxlIdeFailure => 256
  | .cxlLinkDown => 256
  | .rensarLaneFailure _ _ => 256
  | .deviceReset _ => 256
  | .hostResetRequest => 256
  | .checkpoint _ => 256
  | .timingReplay _ _ => 256
  | .droop _ => 256
  | .droopTimeout _ => 256
  | .thermalCeilingStep _ _ => 256
  | .thermalTrip _ _ => 256
  | .thermalTripClear _ _ => 256
  | .thermalSensorFail _ _ => 256
  | .thermalEmergency => 256
  | .unitGate _ _ => 256
  | .wakeRequest _ _ => 256
  | .wakeComplete _ _ _ => 256
  | .firmwareTimer _ => 256
  | .queueResetQueue _ _ _ => 256
  | .queueResetWhole _ _ => 256
  | .drainToken _ _ => 256
  | .capRequestPackage _ _ => 256
  | .capRequestPartition _ _ _ => 256
  | .injectLlcSingle _ _ _ => 256
  | .injectLlcDouble _ _ _ => 256
  | .injectHbmDouble _ _ _ => 256
  | .creditWrite _ _ => 256
  | .rangeRegisterWrite _ _ _ _ _ => 256
  | .scopePolicyWrite _ _ => 256
  | .registerWrite _ _ => 256
  | .keyInstallTimeout _ => 256
  | .txidHoldExpired _ _ => 256
  | .droopEnd _ => 256
  | .stackTemperatureLimit _ _ => 256
  | .rensarLinkUp _ _ => 256
  | .cxlBackInvalidateResponse _ _ => 256
  | .tileOperationComplete _ => 256
  | .invalidationComplete _ => 256

/-- The little-endian bytes of a number (00 R2). -/
def bytesOfNat : Nat → Nat → List (BitVec 8)
  | 0, _ => []
  | k + 1, n => BitVec.ofNat 8 (n % 256) :: bytesOfNat k (n / 256)

/-- The number that little-endian bytes hold (00 R2). -/
def natOfBytes : List (BitVec 8) → Nat
  | [] => 0
  | b :: bs => b.toNat + 256 * natOfBytes bs

/-- The binding time of a slot (07 R187): lane-varying, team-uniform, launch-static, or illegal. -/
inductive Bt where
  | d | t | s | illegal
deriving DecidableEq, Repr

/-- The binding time that a two-bit code names (07 R187). -/
def Bt.ofCode : Nat → Bt
  | 0 => .d
  | 1 => .t
  | 2 => .s
  | _ => .illegal

/-- The class of a bundle (07 R187). -/
inductive BundleClass where
  | team | stream | residual | illegal
deriving DecidableEq, Repr

/-- The control word of a bundle, decoded (07 R187). -/
structure Control where
  word : Nat
deriving DecidableEq, Repr

/-- The binding time of slot k, 1 to 7 (07 R187: bits (2k-1):(2k-2)). -/
def Control.bt (c : Control) (k : Nat) : Bt := Bt.ofCode (c.word / 2 ^ (2 * k - 2) % 4)

/-- The bundle's class (07 R187). -/
def Control.cls (c : Control) : BundleClass :=
  match c.word / 16384 % 4 with
  | 0 => .team
  | 1 => .stream
  | 2 => .residual
  | _ => .illegal

/-- The back-map index (07 R187). -/
def Control.backmap (c : Control) : Nat := c.word / 65536 % 65536

/-- Which binding times a team opcode allows (07 R193): D, T, S. -/
def allowedTimes (op : Nat) : Bool × Bool × Bool :=
  if op = 0 || (0x18 ≤ op && op ≤ 0x4e) || (0x50 ≤ op && op ≤ 0x6f) || op = 0x71 || op = 0x72
      || op = 0x74 || op = 0x75 then (true, true, true)
  else if (1 ≤ op && op ≤ 6) || op = 8 || op = 0x14 || op = 0x15 || op = 0xa8 then (false, true, true)
  else if op = 7 || op = 9 || op = 0xe || op = 0xf || op = 0x13 || op = 0x70 || op = 0x73
      || (0x80 ≤ op && op ≤ 0x8c) then (true, false, false)
  else if 0x90 ≤ op && op ≤ 0xa0 then (true, true, false)
  else (false, true, false)

/-- Whether the binding time is one that the opcode allows (07 R193). -/
def btAllowed (op : Nat) : Bt → Bool
  | .d => (allowedTimes op).1
  | .t => (allowedTimes op).2.1
  | .s => (allowedTimes op).2.2
  | .illegal => false

/-- Which binding times a stream slot allows: MLOOP T and S, every other opcode T (07 R193). -/
def streamBtAllowed (op : Nat) : Bt → Bool
  | .t => true
  | .s => decide (op = 0x10)
  | _ => false

/-- The word at the head of a byte sequence as hardware stores it (07 R184). -/
def wordOfBytes (bs : List (BitVec 8)) : Nat := natOfBytes (bs.take 4)

/-- The instruction that the decoder reads from a word given as its bytes: as a team instruction where
the team map has one, otherwise as a stream instruction. A word of both maps is decided by its
bundle's class alone (18 R428); here no bundle is given, and log entry 8 takes the team map first. -/
def decodeBytes (bs : List (BitVec 8)) : Option Instr :=
  match decodeTeam (wordOfBytes bs) with
  | .ok i => some i
  | .error _ =>
    match decodeStream (wordOfBytes bs) with
    | .ok i => some i
    | .error _ => none

/-- The instruction read from a word numbered as the opcode table numbers it. -/
def decodeTableWord (nbits w : Nat) : Option Instr :=
  decodeBytes (bytesOfNat 4 (w % 2 ^ (min nbits 32)))

end Sys2Proof
end

