-- ==== Sys2Proof/Machine/State.lean ====
section
/-! DEFINITION. The state of the device as plain data, and the state right after reset. Sparse tables
hold only what differs from its reset value. Citations are to the files of spec/. -/
namespace Sys2Proof.Machine
open Sys2Proof

/-! ### Tables -/

/-- The entry of a table at key k. -/
def find? {α : Type} : Tbl α → Nat → Option α
  | [], _ => none
  | (j, a) :: t, k => if k = j then some a else if k < j then none else find? t k

/-- The table with the entry at key k replaced or added; keys stay strictly rising. -/
def put {α : Type} : Tbl α → Nat → α → Tbl α
  | [], k, a => [(k, a)]
  | (j, b) :: t, k, a =>
    if k = j then (j, a) :: t else if k < j then (k, a) :: (j, b) :: t else (j, b) :: put t k a

/-- The table without key k. -/
def del {α : Type} : Tbl α → Nat → Tbl α
  | [], _ => []
  | (j, b) :: t, k => if k = j then t else if k < j then (j, b) :: t else (j, b) :: del t k

/-- Read of a sparse store of words: an unlisted key reads 0. -/
def rd {n : Nat} (t : Tbl (BitVec n)) (k : Nat) : BitVec n := (find? t k).getD 0#n

/-- Write of a sparse store of words: a 0 is not listed, so equal stores are equal lists. -/
def wr {n : Nat} (t : Tbl (BitVec n)) (k : Nat) (v : BitVec n) : Tbl (BitVec n) :=
  if v = 0#n then del t k else put t k v

/-- Keys are strictly rising. -/
def sorted {α : Type} : Tbl α → Bool
  | [] => true
  | [_] => true
  | (i, _) :: (j, b) :: t => decide (i < j) && sorted ((j, b) :: t)

/-- The canonical form of a sparse store: keys strictly rising and no 0 listed. -/
def storeWf {n : Nat} (t : Tbl (BitVec n)) : Bool := sorted t && t.all (fun e => e.2 != 0#n)

/-! ### Machine memory -/

/-- Machine memory (04 R88): the bytes of HBM and of the host windows, by machine address. What an
unlisted address reads as is 0 (log entry 2). -/
abbrev Memory := List Host.Cell

/-- The canonical form of memory: addresses strictly rising, no entry equal to what an unlisted
address reads as. -/
abbrev Memory.wf (m : Memory) : Prop := storeWf (n := 8) m = true

/-- What an unlisted address reads as (log entry 2: 04 R125 makes a free block read zero). -/
def unlistedByte : BitVec 8 := 0#8

/-- The side-band of one 512-byte machine block (04 R108-R112, 20 R471): its state, the key slot and
generation that it is sealed under (none: sealed under no table slot), poison form, and sectors with
an injected uncorrectable error. -/
structure BlockMeta where
  st : Nat              -- 04 R108: 0, 1-7, 14 free, 15
  sealed : Option (Nat × Nat)
  poison : Bool
  bad : Nat             -- bits 7:0: sectors with two bad symbols (22 R517); bit 8: the tag entry's check code fails (20 R472)
deriving DecidableEq, Repr

/-- A block never written: free (log entry 2). -/
def BlockMeta.fresh : BlockMeta := ⟨14, none, false, 0⟩

/-! ### Traps -/

/-- Trap causes (17 R401). -/
inductive Cause where
  | software | illegalEncoding | illegalOperand | illegalType | illegalMode | lookahead
  | misalignedBranch | missingReconvergence | stackMismatch | stackOverflow | windowOverflow
  | illegalState | illegalMember | scopeDenial | privilege | alignment | range | permission
  | translationEncoding | keyFault | integrity | pageFault | remoteAccess | stashRange | stashMap
  | formatSlot | constantWindow | engineParameter | taskRecord | triggerParameter | streamState
  | streamFault | barrierMisuse | asyncError | dataError
deriving DecidableEq, Repr

/-- A trap as an instruction raises it (17 R399-R405). `faulted` and `completed` are the lane sets;
`whole` marks a whole-instruction trap, whose faulted set is the governing mask when none is given. -/
structure Trap where
  cause : Cause
  cls : Nat
  imm : Nat
  detail : Nat              -- s46
  laneWord : Nat            -- s47
  whole : Bool
  faulted : Option Mask
  completed : Mask
  fetch : Bool              -- a fetch fault: PC and resume point are the target's slot 1 (R402)
  async : Bool
  more : Bool
  prior : Nat               -- for a dump: the node before the failed one, and the IA of the failed access (17 R418)
  ia : Nat
deriving DecidableEq, Repr

/-! ### Lanes, arms and teams -/

/-- The three lane states (02 R29). -/
inductive LaneState where
  | live | helper | exited
deriving DecidableEq, Repr

/-- One lane's own state (02 R29, 06 R166, R172). -/
structure Lane where
  st : LaneState
  draw : BitVec 32
  xflags : BitVec 5
deriving DecidableEq, Repr

/-- A lane as it starts (02 R29, 06 R166, R172). -/
def Lane.start : Lane := ⟨.live, 0, 0⟩

/-- The kinds of reconvergence-stack entry (02 R44). -/
inductive EntryKind where
  | split | loop | trap | call
deriving DecidableEq, Repr

/-- A reconvergence-stack entry (02 R44). `age` orders the team's hardware entries (02 R45). -/
structure StackEntry where
  kind : EntryKind
  dual : Bool
  slot : Nat
  mode : BitVec 16
  count : BitVec 32
  rejoin : Nat
  pending : Nat
  mask : Mask
  age : Nat
deriving DecidableEq, Repr

/-- A reconvergence stack: its hardware entries, newest first, and how many older entries lie in the
spill area (02 R45, 12 R359). -/
structure Stack where
  hw : List StackEntry
  spilled : Nat
deriving DecidableEq, Repr

def Stack.empty : Stack := ⟨[], 0⟩

/-- An open lookahead window (07 R201): how many instructions it still covers and the logical
registers of the destination. -/
structure Window where
  left : Nat
  regs : List Nat
deriving DecidableEq, Repr

/-- What an arm that is not ready waits for (02 R34). -/
inductive Wait where
  | none
  | join                     -- at the dual entry's JOIN (02 R43)
  | retry                    -- the instruction performs again at the arm's next turn
  | watch (world ia cmp : Nat) (target : DWord) -- a wait with a watch entry (09 R282): compare of 02 R54, or 3 for bit `target` of a byte
  | poll (world ia cmp : Nat) (target : DWord) -- a wait without one (09 R282)
  /-- JOINC's wait (11 R329): as `watch` when `watched`, else as `poll`, with the time at which its patience ends. -/
  | joinc (world ia cmp : Nat) (target : DWord) (watched : Bool) (until_ : Nat)
  | keyInstall (slot : Nat)  -- SEQNEW, KEYGEN (11 R334, R348)
  | peer (txids : List Nat)  -- loads and atomics at a peer (20 R484)
  | barrier                  -- a barrier (09 R280, R281)
  | fault                    -- a resumable fault (04 R100)
  | refused                  -- a negative acknowledgement (01 R22)
  | room                     -- a queue, number or request place that is taken, or a unit without power (02 R59, 01 R10, 13 R380)
  | sources (m : Nat)        -- WAITI, until an interrupt source in m is pending (11 R353)
  | firmware                 -- a firmware instruction that completes later (11 R346)
deriving DecidableEq, Repr

/-- What is left of an instruction that stopped part way and performs again (04 R100, 20 R484): the
lanes still to perform, the lanes done, the lanes whose answer was a failure, with its class, and the
resumable fault it stands on. -/
structure Redo where
  todo : Mask
  done : Mask
  failed : Mask
  cls : Nat
  detail : Nat
  fault : Option Nat
  stands : Mask              -- the lanes that faulted and stand on that fault
  va : Nat                   -- the VA of the lowest of them
deriving DecidableEq, Repr

/-- One arm (02 R40, 07 R195, 08 R216, R219). -/
structure Arm where
  pc : Nat
  slot : Nat
  exec : Mask
  mode : BitVec 16
  jt : Option Nat
  stack : Stack
  windows : List Window
  wait : Wait
  /-- Barrier marks (09 R280, R281): at n the open generation of numbered barrier n that the arm has arrived
  at, at 16 that of the block barrier, at 32 + n the wait count that its NBARW n has passed, at 48 + n
  the count c that its arrival named. -/
  arrived : Tbl (BitVec 32)
  joined : Bool              -- the arm's wait has seen what it waits for (09 R282), or counts as completed (11 R329)
  redo : Option Redo
  came : Nat                 -- PC of the instruction that transferred here (17 R405)
  held : Option Trap         -- a trap that waits for the other arm's handler (17 R406)
  fence : Option Nat         -- the widest scope of a release FENCE that has been performed (05 R137, R143)
  calls : Nat                -- CALL entries among the spilled ones of its own stack (07 R199)
  bundle : Option (Nat × List (BitVec 8)) -- the bundle being executed, fetched whole (07 R186), by its address
  owed : Tbl DWord           -- values that the arm's s registers are to hold and have not been given (12 R372, R373)
  given : Tbl DWord          -- owed values that a handler has found in its registers, and may have replaced (12 R373)
deriving DecidableEq, Repr

/-- The unit that met an error, its number and the progress of what it was doing (17 R414). -/
structure Source where
  unit : Nat                 -- 0 none, 1 core, 2 matrix engine, 3 copy engine, 4 slice, 5 Rensar port, 6 CXL, 7 meter, 8 front end
  number : Nat
  progress : Nat
deriving DecidableEq, Repr

def Source.none : Source := ⟨0, 0, 0⟩
def Source.core : Source := ⟨1, 0, 0⟩

/-- The asynchronous-error status (17 R408, 11 R345). -/
structure AErr where
  pending : Bool
  more : Bool
  scope5 : Bool
  scope6 : Bool
  cls : Nat
  detail : Nat
  kind : Nat                 -- access kind for s47 (17 R405)
  src : Source               -- for the record of a team that retires with it (17 R410)
  prior : Nat                -- for its dump: the node before the failed one, and the IA of the failed access (17 R418)
  ia : Nat
deriving DecidableEq, Repr

def AErr.none : AErr := ⟨false, false, false, false, 0, 0, 0, Source.none, 0, 0⟩

/-- A launch record waiting in a queue, with who posted it. -/
structure Posted where
  words : List DWord
  recIa : Nat
  ctx : Nat                  -- context of the poster
  world : Nat
  tid : Option Nat           -- the team whose LAUNCH it was
  unreadable : Bool          -- the partition could not read the record (19 R457)
deriving DecidableEq, Repr

/-- A team (02 R28, R40; 07 R197; 11 R341; 12 R367). -/
structure Team where
  bid : Nat
  idx : Nat
  lanes : Nat
  weight : Nat
  base : Nat                 -- lowest barrel slot owned (02 R33)
  frame : Nat                -- F (07 R197)
  w : Nat
  lo : Nat
  lane : List Lane
  v : Tbl Word               -- key: physical register * 1024 + lane
  vPoison : List Nat         -- poisoned register words, same key (20 R471)
  sreg : Tbl DWord
  mreg : Tbl Mask            -- m1 to m7
  stack : Stack
  pushes : Nat
  split : Bool
  last : Nat                 -- the arm that took the last turn (02 R41)
  a0 : Option Arm            -- the unsplit arm, or the arm of the fall-through set
  a1 : Option Arm            -- the arm of the taken set
  task : Option (List DWord) -- the held task record (02 R49)
  mark : BitVec 48
  nbWait : Tbl (BitVec 32)
  aerr : AErr
  mabs : Bool
  sfault : Bool
  sfaultPc : Nat
  sfaultCause : Nat
  pendingLaunch : List Posted
  posted : List (Nat × Nat)  -- posted accesses not yet answered: transaction number and arm, 2 for both
  firmware : Bool
  retired : Bool
deriving DecidableEq, Repr

/-! ### Blocks and matrix streams -/

/-- A mapped stash region (04 R102). -/
structure Region where
  va : Nat
  off : Nat
  size : Nat
deriving DecidableEq, Repr

/-- A valid 256-byte chunk of a mapped region (04 R103): the machine chunk it holds, whether it is
dirty, its owner context (20 R473), and the accesses that a slice has confirmed under its translation (04 R96). -/
structure Chunk where
  ia : Nat
  ma : Nat
  slot : Nat
  gen : Nat
  dirty : Bool
  owner : Nat
  rdOk : Bool
  wrOk : Bool
deriving DecidableEq, Repr

/-- A numbered barrier (09 R281). -/
structure NBar where
  completed : BitVec 32
  expected : Nat
  arrivals : Nat
  arrived : Nat              -- bit t: team t has arrived at the open generation
  stream : Bool
deriving DecidableEq, Repr

def NBar.start : NBar := ⟨0, 0, 0, 0, false⟩

/-- A ring descriptor of a stream (10 R292). -/
structure Ring where
  dir : Bool                 -- true: out ring
  sp : Nat
  base : Nat
  size : Nat                 -- bytes
  slots : Nat
  hdr : Nat                  -- bytes
  cursor : BitVec 32
  held : Bool
deriving DecidableEq, Repr

/-- The convolution state of a stream (10 R302). -/
structure Conv where
  word : DWord
  wo : Nat
  row0 : Nat
  kpos : Nat
deriving DecidableEq, Repr

/-- A level of a stream's loop stack (10 R297). -/
structure MLoop where
  count : Nat
  head : Nat
  exit : Nat
deriving DecidableEq, Repr

/-- What a stream waits for: nothing, ring n, MBARW's barrier, the end of the generation that MBARA has
arrived at, a resolution, the engine's grant, or its tile operation under way. -/
inductive SWait where
  | none | ring (n : Nat) | barrier | arrive | fault | engine | drain
deriving DecidableEq, Repr

/-- A block's matrix stream (10 R286). -/
structure Stream where
  bound : Bool
  pc : Nat
  slot : Nat
  loops : List MLoop
  rings : Tbl Ring
  conv : Option Conv
  flags : BitVec 5
  waits : Tbl (BitVec 32)
  recVa : Nat
  binder : Nat               -- the team that issued MSTR
  fault : Nat                -- stream cause of the last stream trap, 0 for none
  ops : Nat                  -- tile operations performed
  inFlight : Bool            -- a granted tile operation still occupies the engine
  wait : SWait
  books : Tbl (List (BitVec 16)) -- codebooks held since first use: 2*fs for A, 2*fs+1 for B (06 R177)
  bundle : Option (Nat × List (BitVec 8)) -- the bundle being executed, fetched whole, by its address (07 R186)
deriving DecidableEq, Repr

def Stream.idle : Stream :=
  ⟨false, 0, 1, [], [], Option.none, 0, [], 0, 0, 0, 0, false, SWait.none, [], Option.none⟩

/-- Block states (12 R362). -/
inductive BlockState where
  | pending | resident | saved | parked | held | retired
deriving DecidableEq, Repr

/-- How an empty bucket pre-empts a block (03 R78). -/
inductive Preempt where
  | none | drain (limit : Nat) | flush | save
deriving DecidableEq, Repr

/-- A block (02 R31, 12 R362, R366). -/
structure Block where
  launch : Nat
  linear : Nat
  ctx : Nat
  world : Nat
  part : Nat
  core : Nat
  frameIx : Option Nat
  frameVa : Nat              -- where its frame lies, once it has one (12 R357)
  away : Option Nat          -- where a SAVE has put its frame instead (11 R351)
  st : BlockState
  nteams : Nat
  retired : Nat              -- bit t: team t has retired
  residual : Bool
  spent : Nat                -- the spent charge (03 R78)
  seen : Nat                 -- of it, charged before the last boundary
  judged : Nat               -- of that, corrected so far (03 R75)
  measured : Nat             -- the corrected charge of that part (03 R80)
  stashSize : Nat
  stash : Tbl (BitVec 8)
  stashPoison : List Nat     -- poisoned word offsets / 4
  regions : Tbl Region
  chunks : Tbl Chunk         -- key: stash offset / 256
  bgen : BitVec 32
  barrived : Nat
  nbar : Tbl NBar
  stream : Stream
  entry : Nat                -- its reservation-table entry (10 R284)
  tiles : Nat                -- granted tiles
  tile : Tbl Word            -- key: tile * 4096 + 64 i + j
  tilePoison : List Nat
  preempt : Preempt
  trigger : Option Nat       -- the one-shot trigger entry of a parked block
  faults : List Nat          -- outstanding resumable faults of the block
  streamOwed : Nat           -- the stream cause of a failure that came while the block was away; 0 for none (10 R307)
deriving DecidableEq, Repr

/-! ### Cores -/

/-- A line of a core's L1 data cache (04 R101): 64 bytes, with one dirty bit per byte (log entry
10), the accesses that a slice has confirmed (R96), and the owner context (20 R473). -/
structure L1Line where
  world : Nat
  ia : Nat                   -- IA / 64
  ma : Nat                   -- machine address of the line's first byte
  slot : Nat
  gen : Nat
  rdOk : Bool
  wrOk : Bool
  bytes : Tbl (BitVec 8)
  dirty : BitVec 64
  owner : Nat
deriving DecidableEq, Repr

/-- A release-table entry (05 R143). -/
structure RelEntry where
  world : Nat
  line : Nat
  ctx : Nat
  slot : Nat
deriving DecidableEq, Repr

/-- A release hint on its way from a core to a line's home slice, with the context that released (05 R143). -/
structure Hint where
  core : Nat
  world : Nat
  line : Nat
  ctx : Nat
deriving DecidableEq, Repr

/-- A charge set (03 R72) with the grant of the tick (R77). A context that has reached its grant stays
stopped until a larger one comes. -/
structure ChargeSet where
  dynamic : Nat
  committed : Nat
  grant : Nat
  granted : Bool
  stopped : Bool
deriving DecidableEq, Repr

def ChargeSet.zero : ChargeSet := ⟨0, 0, 0, false, false⟩

/-- What a block has been charged in one base domain (03 R78, R80), with the fields of the same names of `Block`. -/
structure BaseSpend where
  spent : Nat
  seen : Nat
  judged : Nat
  measured : Nat
deriving DecidableEq, Repr

def BaseSpend.zero : BaseSpend := ⟨0, 0, 0, 0⟩

/-- A core (01 R10, 02 R33, 03 R72, 05 R143). -/
structure Core where
  latch : Option Nat
  gated : Bool
  closed : Bool              -- the distributor places nothing here: it is being relatched or removed (11 R347, 19 R448)
  cycle : Nat
  charges : Tbl ChargeSet
  tasks : List (List DWord)      -- oldest first
  l1 : Tbl L1Line                -- key: (IA / 64) * 64 + world
  code : Tbl L1Line              -- the L1 instruction cache, with the same keys (01 R10)
  release : List RelEntry        -- oldest first
  stealing : Option (List (List DWord))  -- an answer on its way to this core
  errors : Nat                   -- uncorrectable errors since reset (20 R478)
  corrected : List Nat           -- times of the corrected errors of the last second (20 R470)
  idle : Nat                     -- when a block last left the core (12 R364)
  leaving : Bool                 -- being removed; the firmware goes on until no block is left (19 R448)
  paid : Option Nat              -- the latch when this tick began (03 R74, 11 R347)
  due : Option Nat               -- the latch when the tick being drained began
  lastPass : Option (Nat × Nat)  -- the team and class of the last pass (21 R496)
  row : Nat                      -- replays in a row of that pass (21 R498)
  gone : List (List Posted)      -- pending launches of teams that have left the core (02 R59)
  coming : Option (Option Nat)   -- the latch that it is about to take (11 R347)
  stuck : Bool                   -- zeroing its stores will meet an uncorrectable error (19 R456)
deriving DecidableEq, Repr

def Core.fresh : Core :=
  ⟨none, false, false, 0, [], [], [], [], [], none, 0, [], 0, false, none, none, none, 0, [], none, false⟩

/-! ### Slices and keys -/

/-- An LLC line (04 R106): 512 bytes of one machine block under one key slot. -/
structure LlcLine where
  world : Nat
  ia : Nat                   -- IA / 512
  gen : Nat
  valid : BitVec 8
  dirty : BitVec 8
  bytes : Tbl (BitVec 8)
  owner : Nat                -- 0x3ff for none (20 R473)
  poison : Bool
  single : Nat               -- sectors with one bad symbol (22 R517)
  double : Nat               -- sectors with two
deriving DecidableEq, Repr

/-- A combined translation-cache entry (04 R97). -/
structure TlbEntry where
  ia : Nat                   -- first 64 KiB unit of the stage-1 page
  gpa : Nat                  -- the GPA's 64 KiB unit
  ma : Nat                   -- the MA's 64 KiB unit
  s1units : Nat              -- 64 KiB units of the stage-1 page
  s2units : Nat
  rd : Bool
  wr : Bool
  ex : Bool
  slot : Nat
  gen : Nat
  erased : Bool
deriving DecidableEq, Repr

/-- Key-slot states (04 R115). -/
inductive SlotState where
  | empty | world | sequence | retired
deriving DecidableEq, Repr

/-- A key-table slot (04 R115, R116). -/
structure KeySlot where
  st : SlotState
  owner : Nat
  gen : Nat
  installing : Bool          -- a new secret not yet acknowledged by every replica (04 R117)
  badReplicas : List Nat     -- slices whose replica reads uncorrectable (20 R491)
deriving DecidableEq, Repr

def KeySlot.fresh : KeySlot := ⟨.empty, 0, 0, false, []⟩

/-- A hot-page list entry: machine page and estimate (04 R124). -/
structure HotPage where
  page : Nat
  est : Nat
deriving DecidableEq, Repr

/-- A slice's own machinery outside the caches (04 R124-R126, 20 R470, R477, R511). -/
structure Slice where
  sketch : Tbl (BitVec 16)   -- key: row * 2048 + index
  hot : List HotPage
  hotCopy : List HotPage
  refreshed : Tbl (BitVec 32) -- refresh commands by bank
  refreshedAt : Tbl Nat      -- when the last one was due (04 R126)
  refreshRow : Tbl Nat       -- the row that each bank's next one takes
  temp : Nat                 -- the stack's temperature, degrees C (04 R126)
  tags : Tbl Bool            -- the metadata cache: lines of tag entries, true for dirty (04 R110)
  full : Bool                -- the request queue is full (01 R22)
  corrected : Tbl Nat        -- corrected errors by machine page
  ways : Tbl Nat             -- quarantined ways of a set (20 R477)
  lineErrs : Tbl (List Nat)  -- times of the corrected errors of a line of the LLC (20 R470)
  refuse : Bool              -- refuses every access (21 R511)
  halfRate : Bool            -- burst rate halved (13 R385)
deriving DecidableEq, Repr

def Slice.fresh : Slice := ⟨[], [], [], [], [], [], 25, [], false, [], [], [], false, false⟩

/-! ### Contexts, worlds, functions -/

/-- A range register (04 R89). -/
structure RangeReg where
  w0 : DWord
  w1 : DWord
  w2 : DWord
deriving DecidableEq, Repr

/-- A context (03 R65, 04 R89, 11 R330). -/
structure Context where
  account : BitVec 96
  level : Int
  refill : Nat
  brim : Nat
  credit : Int
  credited : Bool
  enable : Bool
  empty : Bool
  clamp : Bool
  world : Option Nat         -- write-once
  last : Nat
  /-- What the host has written since the last tick update, which takes effect there (03 R66, R79). -/
  newRefill : Option Nat
  newBrim : Option Nat
  newEnable : Option Bool
  newWorld : Option Nat
  barred : Bool              -- ended: it takes no work until its enable bit is 0 (17 R411)
  newClamp : Bool            -- a charge was lost since the last tick update, which sets the clamp flag (21 R503)
  jpat : Nat
  rr : Tbl RangeReg
deriving DecidableEq, Repr

def Context.fresh : Context :=
  ⟨0, 0, 0, 0, 0, false, false, false, false, none, 0, none, none, none, none, false, false, 2000, []⟩

/-- A world (05 R130, 17 R417, 04 R93, 03 R74, R83). -/
structure World where
  maxscope : Nat
  remote : Bool
  policy : DWord             -- record policy register (17 R417)
  s1root : Nat
  s2root : Nat
  baseCtx : Option Nat
  pool : Option (Nat × Nat)  -- frame pool: VA and frames
  s2pool : List Nat          -- spare machine pages (20 R476)
  backing : Option Nat       -- IA of the specialiser's backing region
  dumps : Nat
  meterSeq : Nat
  meterEnd : Nat
  unmetered : Bool           -- 21 R504
  changes : Nat
  scaled : Bool              -- floors scaled since the last record
  clamped : Bool
  total : Nat
  rawCompute : Nat
  rawMemory : Nat
  rawFabric : Nat
  rawLeakage : Nat
  points : Tbl Nat
  charged : List Nat         -- contexts with charge since the last record
deriving DecidableEq, Repr

def World.fresh : World :=
  ⟨4, false, 0, 0, 0, none, none, [], none, 0, 0, 0, false, 0, false, false, 0, 0, 0, 0, 0, [], []⟩

/-- TDISP interface states (13 R377). -/
inductive Tdisp where
  | unlocked | locked | run | error
deriving DecidableEq, Repr

/-- A function (13 R375-R377, 19 R466). -/
structure Fn where
  world : Option Nat
  hdmBase : Nat
  hostCtx : Option Nat
  tdisp : Tdisp
  session : Option Nat
  refused : Bool             -- range-write-refused status (04 R91)
  resetStatus : Nat          -- 19 R466: 0 idle, 1 running, 2 complete, 3 refused
  resetWhole : Bool
  resetPart : Nat
  resetWorld : Nat
  resetGo : Bool
  resetCount : BitVec 32
  awaiting : List Nat        -- units whose drain token has not come (19 R467)
  going : Option Tdisp       -- the state that the interface enters when its reset is complete (13 R377)
  answers : List DWord       -- mailbox answers, oldest first
deriving DecidableEq, Repr

def Fn.fresh : Fn := ⟨none, 0, none, .unlocked, none, false, 0, false, 0, 0, false, 0, [], none, []⟩

/-! ### Partitions and launches -/

/-- A trigger entry (02 R54). -/
structure Trigger where
  counter : Nat
  cmp : Nat
  action : Nat
  standing : Bool
  target : DWord
  operand : Nat
  ring : Nat
  value : DWord
  step : DWord
  ctx : Nat
  world : Nat
  fires : Nat
  owed : Bool                -- firings cut off at 64 wait for the counter's next update (11 R332)
  parked : Option (Nat × Nat × Nat) -- the block, team number and arm whose JOINC it ends (02 R60)
deriving DecidableEq, Repr

/-- A held trigger action (19 R459). -/
inductive Held where
  | launch (p : Posted)
  | enqueue (rec : List DWord) (world : Nat)
  | again (e : Trigger) (links : Nat) -- an action whose request a slice refused (01 R22), and the links of its chain to go
deriving DecidableEq, Repr

/-- A tenant queue (03 R80, 12 R361). -/
structure Tenant where
  deficit : Int
  quantum : Nat
  requeued : List Nat        -- re-queued blocks, in order
deriving DecidableEq, Repr

/-- A tenant's quantum before the host sets one is 2^20 mq (DESIGN CHOICE, log entry 1: 03 R80 gives no reset value). -/
def Tenant.fresh : Tenant := ⟨0, 1048576, []⟩

/-- An on-die index entry of the specialiser (12 R369): a directory entry of a world's backing region.
The residual code, the back-map and the owed lists lie in that region. `used` orders uses; the blocks that use
the code are counted where they stand. -/
structure SpecEntry where
  key : BitVec 128
  world : Nat
  code : Nat
  bundles : Nat
  map : Nat                  -- back-map offset / 8
  stream : Option Nat        -- offset of the residual stream entry
  st : Nat                   -- 1 ready, 2 evaluating, 3 declined, 4 to be freed once no block uses it
  until_ : Nat
  used : Nat
  indexed : Bool             -- held on die; else in the directory alone
  evaluator : Option Nat     -- the launch whose evaluation this is (12 R374)
deriving DecidableEq, Repr

/-- A core that a partition keeps for a gang's part, with the blocks for which it has room (02 R61, 12 R362). -/
structure Reserve where
  core : Nat
  launch : Nat
  blocks : Nat
deriving DecidableEq, Repr

/-- A partition (03 R81, 02 R54, R59). -/
structure Partition where
  quads : List Nat
  world : Option Nat         -- none: the shared partition
  fn : Nat
  mw : Nat
  lo : Nat
  hi : Nat
  floorMw : Nat              -- the hypervisor's floor
  floorNow : Nat             -- the floor in force
  triggers : Tbl Trigger
  queue : List Posted
  held : List Held
  tenants : Tbl Tenant
  faultFree : Nat
  faultWait : List Nat       -- faults waiting for a counter, oldest first
  spec : List SpecEntry
  gang : Option Nat          -- the launch whose reservation it serves
  tasks : List (List DWord)  -- task records held by the queue engine (19 R454)
  nextCore : Nat             -- the core at which the queue looks next for a pending launch (02 R59)
  reserved : List Reserve    -- cores reserved for parts of gangs (02 R61)
  resizing : Option (List Nat) -- the quadrants that a resize under way will leave it (19 R449)
  capStatus : Nat
  asked : Nat                -- the allowance's power as the host last set it, mW
  newMw : Option Nat         -- accepted, and in force from the next boundary (21 R506)
  energies : List Nat        -- measured energy of the last 64 ticks in mq, newest first (03 R81)
  dynamics : List Nat        -- corrected compute-domain dynamic energy, likewise (03 R82)
  bases : List Nat           -- measured base-domain energy, likewise (03 R82)
deriving DecidableEq, Repr

/-- Gang states (02 R61). -/
inductive GangState where
  | notGang | queued | reserving | committed | rollback | running | done
deriving DecidableEq, Repr

/-- A launch (12 R354-R362). -/
structure Launch where
  words : List DWord
  recIa : Nat                -- IA of the record (12 R366)
  ctx : Nat
  world : Nat
  part : Nat
  next : Tbl Nat             -- per gang part (0 without a gang): how many of its blocks have been placed once
  open_ : Nat                -- blocks not yet retired
  ended : Bool
  eh : Nat                   -- E_h (03 R78)
  frames : List Nat          -- frame indices in use
  gang : GangState
  granted : List Nat
  rollbacks : Nat
  gangTime : Nat             -- when RESERVING began, or the start tick
  spec : Option (BitVec 128) -- the residual code it runs
  waiting : Bool             -- waits for an evaluation
deriving DecidableEq, Repr

/-! ### Engines, faults and errors -/

/-- Engine operations (10 R309-R315). -/
inductive OpKind where
  | copy | copy2d | gath | scat | fill | rcopy | rput | rget
deriving DecidableEq, Repr

/-- Where an engine operation stands. -/
inductive OpPhase where
  | queued                     -- in the command queue
  | armed                      -- a dependence node waiting for its counter
  | active
  | holding (fault : Nat)      -- a resumable fault (10 R317)
  | faulting (cls : Nat)       -- met a fault that ends it
  | peer                       -- waiting for a peer's answers
  | ended (st cls : Nat)       -- performed; its record is still to be written
deriving DecidableEq, Repr

/-- An engine operation or dependence node (10 R309-R318). -/
structure EngineOp where
  cluster : Nat
  bid : Nat
  tid : Nat
  ctx : Nat
  world : Nat
  kind : OpKind
  run : List Nat
  recVa : Nat
  incr : Int
  esize : Nat
  tag : Bool
  done : Nat
  phase : OpPhase
  node : Bool
  waitVa : Nat
  succs : List (Nat × Nat)     -- successor counter VA and decrement
  peer : Bool
  prior : Nat                  -- VA of the node whose update brought its wait counter to 0 (17 R418)
  pend : List (Nat × Nat)      -- outstanding transaction number and the unit offset it carries
  core : Nat                   -- the issuing core
  sent : Nat                   -- bytes that a peer command has sent or asked for; 1 for a node once started
  failedAt : Option (Nat × Nat) -- lowest offset that a peer failed, with the class (20 R485)
  early : List (Nat × List (BitVec 8)) -- answers to RGET that wait for lower ones (20 R485)
  nodeVa : Nat                 -- VA of a node's record; 0 for a command
  failedVa : Nat               -- VA of the access that failed; 0 for none (17 R418)
deriving DecidableEq, Repr

/-- A resumable translation fault on its way (04 R100). -/
structure FaultRec where
  stage : Nat
  world : Nat
  addr : Nat
  bid : Nat
  op : Option Nat              -- an engine operation's fault
  stream : Nat                 -- the stream cause that a failure raises; 0 for no stream's fault
  state : Nat                  -- 0 met, 1 waiting for a counter, 2 posted
deriving DecidableEq, Repr

/-- The detail of a tenant dump beside its record (17 R418): s44 to s47, the faulted and completed sets,
the object, the node before it, and the IA of the failed access. -/
structure DumpInfo where
  s44 : Nat
  s45 : Nat
  s46 : Nat
  s47 : Nat
  faulted : Mask
  completed : Mask
  object : Nat
  prior : Nat
  ia : Nat
deriving DecidableEq, Repr

def DumpInfo.none : DumpInfo := ⟨0, 0, 0, 0, 0, 0, 0, 0, 0⟩

/-- An error record (17 R414). -/
structure ErrRec where
  type : Nat
  cls : Nat
  cause : Nat
  world : Nat
  ctx : Nat
  part : Nat
  core : Nat
  unit : Nat
  number : Nat
  time : Nat
  ma : Nat
  offset : Option Nat
  progress : Nat
  lost : Nat
  sequence : Nat
  epoch : Nat
  info : DumpInfo
deriving DecidableEq, Repr

/-- A context end under way (17 R411). -/
structure Ending where
  type : Nat
  cls : Nat
  cause : Nat
  core : Nat
  offset : Nat
  info : DumpInfo
  src : Source
deriving DecidableEq, Repr

/-- A firmware message (13 R382): a program's own, a page to be moved, or one of another package (20 R482). -/
inductive FwMsg where
  | note (n : Nat)
  | migrate (world gpa ma : Nat)
  | record (r : ErrRec)
deriving DecidableEq, Repr

/-- A firmware core's queues (17 R413, 11 R353). -/
structure Firmware where
  queue : List ErrRec
  lost : Nat
  messages : List FwMsg        -- oldest first
  timer : Bool                 -- the firmware timer is pending (11 R353)
  requests : List Nat          -- requests still in their queues, oldest first, by their source (11 R353 bits 2, 4 and 5)
deriving DecidableEq, Repr

def Firmware.fresh : Firmware := ⟨[], 0, [], false, []⟩

/-- What a completed key or sequence operation must deliver (11 R334, R335, R348). -/
inductive KeyJob where
  | install (slot tid arm dreg : Nat)         -- SEQNEW, KEYGEN: where the handle goes
  | seqend (slot gen recVa tid ctx world core : Nat) (payer : Option Nat) -- the handle, the record, and who is charged
deriving DecidableEq, Repr

/-- A METER under way (11 R350): its arm, its world, the tick in which it was issued, and the record once the interval
has ended. -/
structure MeterJob where
  tid : Nat
  arm : Nat
  world : Nat
  tick : Nat
  bytes : Option (List (BitVec 8))
deriving DecidableEq, Repr

/-- An invalidation under way (04 R98, 11 R349). -/
structure Inval where
  world : Nat
  k : Nat
  addr : Nat
  tid : Nat
  arm : Nat
deriving DecidableEq, Repr

/-- A write after its instruction that a slice refused and that is made again (01 R22; 02 R58, 10 R523):
the progress word at va + 8 and the counter at va, or one bit of the byte at va. -/
structure Late where
  tid : Nat
  ctx : Nat
  world : Nat
  core : Nat
  port : Option Nat          -- an arrival at a Rensar port, whose `va` is an IA of the world (13 R381)
  va : Nat
  word : Option Nat
  bit : Option Nat
  incr : Int
  release : Option Nat       -- the block whose writes it is a device-scope release of, until they have gone out (05 R136)
deriving DecidableEq, Repr

/-! ### Platform -/

/-- A quadrant's clock, voltage and temperature (03 R67, R82; 21 R497-R513). -/
structure Quad where
  op : Nat
  target : Nat                 -- the point that R81 and R82 give
  pendingOp : Option Nat
  slewing : Bool
  slewFrom : Nat
  ceiling : Nat
  forced : Bool                -- forced to OP0 until reset (21 R499, R513)
  offset : Tbl Int             -- voltage offset per point, mV
  quiet : Nat                  -- ticks since the last replay
  replays : Nat                -- this tick
  passes : Nat                 -- this tick
  replayCount : BitVec 32
  halved : Bool                -- clock halved and offset +20 mV until the next boundary (21 R498)
  drooping : Bool
  droopingVb : Bool
  since : Nat                  -- when the droop of VC began, and of VB
  sinceVb : Nat
  droops : Nat
  thermal : Nat                -- 21 R500: 0 normal, 1 throttled, 2 tripped, 3 sensors failed
  temp : Nat                   -- hottest working sensor, degrees C
  sensors : List Nat           -- failed thermal sensors
  risen : Nat                  -- when the ceiling last changed (13 R385)
  startOp : Nat                -- the point when this tick began (14 R389)
  dueOp : Nat                  -- the point when the tick being drained began
  factor : Nat                 -- the last correction factor of the compute domain (03 R75)
  baseFactor : Nat             -- and of the base domain
  hostOp : Nat                 -- the host's operating point, for the quadrant in no dedicated partition (03 R81, 19 R449)
deriving DecidableEq, Repr

/-- A quadrant after reset; the point is OP8 (log entry 1). -/
def Quad.fresh : Quad :=
  ⟨8, 8, none, false, 8, 15, false, [], 0, 0, 0, 0, false, false, false, 0, 0, 0, 0, 25, [], 0, 8, 8, 65536, 65536, 8⟩

/-- A domain's current sensor (21 R501): whether it has failed, how many of its last samples hold one
value, and that value; the estimate of the last tick, and whether it has changed since; ticks in a row
whose energy differs from the regulator's reading, and in which the correction has clamped. -/
structure Sensor where
  failed : Bool
  run : Nat
  last : Nat × Nat
  est : Nat
  moved : Bool
  apart : Nat
  clamps : Nat
deriving DecidableEq, Repr

def Sensor.fresh : Sensor := ⟨false, 0, (0, 0), 0, false, 0, 0⟩

/-- States of a gateable unit (13 R386, R387; 21 R509). -/
inductive GateState where
  | on | hold | gated | queued | waking | failed
deriving DecidableEq, Repr

/-- An outstanding request to a peer (13 R380). -/
inductive PeerJob where
  | load (tid arm lane dreg size ia : Nat) (sx : Bool)
  | posted (tid va kind ctx world core : Nat)
  | engine (op off len : Nat)
deriving DecidableEq, Repr

/-- The counter of one flow of one world (04 R114, 13 R379): the sender's last, and the last that the receiver accepted. -/
structure Flow where
  sent : Nat
  accepted : Nat
deriving DecidableEq, Repr

/-- Whose an outstanding request to a peer is: the context that is charged (none: the device's own), the world, the block,
the core whose charge set it commits, and whether it writes (03 R72; 05 R151; 17 R411; 19 R467). -/
structure Asker where
  ctx : Option Nat
  world : Nat
  bid : Nat
  core : Nat
  write : Bool
deriving DecidableEq, Repr

/-- A Rensar port (13 R378-R381, 21 R515). -/
structure Port where
  lanes : Nat
  up : Bool
  jobs : Tbl PeerJob           -- by transaction number
  askers : Tbl Asker           -- by the same
  sentAt : Tbl Nat             -- when each of them was sent, and a held number's hold began (20 R484)
  heldTx : List Nat
  dropped : Nat
  linkKeys : List Nat          -- worlds with a link key
  flows : Tbl Flow             -- message counters by world, 64 under the fabric key (13 R378, R379)
deriving DecidableEq, Repr

def Port.fresh : Port := ⟨8, true, [], [], [], [], 0, [], []⟩

/-- A tag-table entry (13 R381). -/
structure TagEntry where
  ia : Nat
  world : Nat
deriving DecidableEq, Repr

/-- What the host has been sent: read data, answers and forwarded records. -/
inductive HostMsg where
  | data (fn off : Nat) (bytes : List (BitVec 8)) (poison : Bool)
  | record (fn : Nat) (r : ErrRec)
  | tdisp (fn session status : Nat) (st : Tdisp)   -- status 0 done, 1 INVALID_INTERFACE_STATE, 2 INVALID_REQUEST
  | meter (bytes : List (BitVec 8))
  | rensar (port : Nat) (hdr : RensarHdr) (bytes : List (BitVec 8)) -- a message to a peer: its header and its data
  | fault (id : Nat) (fn : Option Nat) (stage world addr : Nat) -- to a guest's queue, or the hypervisor's (04 R100)
  | word (fn : Nat) (value : DWord)         -- the answer to an MMIO read
  /-- A slot's wrapped secret, with its owner and generation (04 R123). -/
  | wrapped (slot owner gen : Nat)
  /-- A port's share of a checkpoint's image (13 R388): `count` writes of 16 data flits, the first with this header and each
  later one with the next address, transaction number and counter; and HBM as stored. -/
  | image (port : Nat) (hdr : RensarHdr) (count : Nat) (data : Memory) (side : Tbl BlockMeta)
  | manifest (ports : List Nat) (signature : List (BitVec 8))
  | measurement (nonce : Nat) (value : BitVec 256) (signature : List (BitVec 8)) -- an SPDM measurement response (13 R384)
deriving DecidableEq, Repr

/-- Whose slot the device is issuing, and the slot's binding time (log entry 4). -/
inductive Focus where
  | idle
  | team (tid arm : Nat) (bt : Bt)
  | stream (bid : Nat) (bt : Bt)
deriving DecidableEq, Repr

/-- A soft error in a core's own stores (20 R469, R473), which only the surroundings cause. -/
inductive Upset where
  | reg (tid phys lane : Nat)
  | stash (bid word : Nat)
  | tile (bid element : Nat)
  | l1 (core key : Nat)
  | corrected (core : Nat)
  | charges (domain ctx : Nat)    -- a charge found uncorrectable when it is drained (21 R503)
  | energyBlock (ctx : Nat)       -- both copies of a context energy block (21 R504)
  | hbm (ma : Nat)                -- a corrected error in a sector of HBM (20 R470)
  | table (ia world : Nat)        -- a translation-cache entry (20 R473)
  | tag (ma : Nat)                -- a block's tag entry in memory
  | tagLine (ma : Nat)            -- the metadata cache's line that holds a block's tag entry
  | keyReplica (slice slot : Nat) -- a slot of a slice's replica of the key table
  | llcTag (ma : Nat)             -- the tags of the LLC lines of a block
  | directory (ma : Nat)          -- the directory's entry of a chunk
  | relOwner (world line : Nat)   -- a release-owner entry
  | code (core key : Nat)         -- a line of an L1 instruction cache
  | missed (ma : Nat)             -- an error of HBM or of a tag entry that its code misses
  | stores (core : Nat)           -- an error that zeroing a core's stores will meet (19 R456)
deriving DecidableEq, Repr

/-- What a TDISP request asks for (20 R495). -/
inductive TdispKind where
  | lock | start | stop | state
deriving DecidableEq, Repr

/-- A TDISP request that firmware core 0 has not taken yet (20 R494). -/
structure TdispReq where
  stamp : Nat                -- device time of its arrival
  session : Nat
  fn : Nat
  kind : TdispKind
deriving DecidableEq, Repr

/-- A choice that the environment or an arbiter makes (log entry 4). -/
inductive Choice where
  | event (i : Instr)
  | turn (core : Nat)                          -- the core's next barrel cycle (02 R33)
  | hostStore (ma : Nat) (bytes : List (BitVec 8)) (poison : Bool) -- a host agent writes its own memory (04 R88)
  | streamTurn (bid : Nat)                     -- the sequencer's next instruction of the block's entry
  | evictL1 (core key : Nat)                   -- an L1 line leaves its cache (04 R520)
  | evictChunk (bid chunk : Nat)               -- a stash chunk is recalled
  | upset (u : Upset)                          -- a soft error (20 R469)
  | mmioRead (fn : Nat) (reg : MmioReg)        -- the host reads a register through a function's window
  | queueFull (slice : Nat) (full : Bool)      -- a slice's request queue fills up, or has room again (01 R22)
  | served (die source : Nat)                  -- the firmware takes a request off its queue (11 R353)
  | requeued (bid : Nat)                       -- the firmware re-queues a block that it holds (12 R362)
  | tdispArrives (fn session : Nat) (kind : TdispKind) -- a TDISP request arrives at the CXL port (20 R494)
  | tdispTaken                                 -- firmware core 0 takes the next TDISP request
  | peerRecord (port : Nat) (hdr : RensarHdr) (r : ErrRec) -- a peer's firmware message with its record (20 R482)
  | measure (nonce : Nat)                      -- an SPDM measurement request (13 R384)
  | trained (width speed : Nat)                -- the CXL link trains: lanes and GT/s (13 R375)
deriving DecidableEq, Repr

/-- A matrix engine (10 R288, R289). -/
structure Engine where
  granted : Option Nat         -- the block whose tile operation is granted
  busy : Option Nat            -- the block whose tile operation occupies the engine
  waits : Tbl Nat              -- when each block that waits for a grant became ready
  row : Nat                    -- replays in a row of its tile operation (21 R498)
  removed : Bool               -- removed under 21 R498
deriving DecidableEq, Repr

def Engine.fresh : Engine := ⟨none, none, [], 0, false⟩

/-- A window of host memory that the firmware has set: machine addresses, and the base of its tag entries
(04 R88, R110). -/
structure HostWindow where
  base : Nat
  size : Nat
  tagBase : Nat
deriving DecidableEq, Repr

/-! ### The device -/

/-- The whole device: every piece of state the manual gives it, and the model's own bookkeeping
(`focus`, `agenda`, `draws` and the identity counters; log entries 3 and 4). -/
structure State where
  power : Bool
  time : Nat
  tick : Nat
  tickTime : Nat
  epoch : Nat
  bootStatus : Nat             -- 0 not booted, 1 booted, 2 recovery (13 R383)
  rollback : Nat
  measurement : BitVec 256
  mem : Memory
  blocksMeta : Tbl BlockMeta   -- by machine address / 512
  retiredPages : List Nat      -- the retirement list (20 R476)
  retiring : List Nat          -- machine blocks whose pages the firmware is to retire (20 R473)
  llc : Tbl LlcLine            -- by `llcKey`: machine block and key slot
  dir : Tbl Nat                -- owner core of a stash chunk, by machine address / 256 (04 R104)
  hostOwned : Tbl (Nat × Nat)  -- lines that the host owns: world and IA / 64, by machine line (MA / 64)
  snoops : List Nat            -- back-invalidate snoops outstanding
  relOwner : Tbl Nat           -- release owner core, key: (IA / 64) * 64 + world
  hints : List Hint            -- release hints on their way, oldest first
  tlb : Tbl TlbEntry           -- key: ((IA / 65536) * 64 + world) * 64 + slice
  slices : Tbl Slice
  keys : Tbl KeySlot
  keyJobs : Tbl KeyJob         -- by order of issue
  invals : Tbl Inval
  cores : Tbl Core
  blocks : Tbl Block
  teams : Tbl Team             -- key: block * 8 + team number
  launches : Tbl Launch
  contexts : Tbl Context
  baseCharges : Tbl Nat        -- key: (quadrant * 1024 + context) * 2 + class group
  blockBase : Tbl BaseSpend    -- the blocks' shares of the base domains' charges, key: block * 16 + quadrant
  working : Option (Nat × Nat) -- the block and the context for which the device is at work in this step (03 R71, R78)
  baseHost : Tbl Nat           -- charges of the overhead account, by domain
  tickCopies : Tbl Nat         -- copies of the last boundary, key: (domain * 1024 + context) * 2 + class group
  hostCopies : Tbl Nat         -- the overhead account's copies, by domain
  tickDue : Bool               -- the last boundary's copies are still to be drained (03 R73)
  sensors : Tbl Sensor         -- by domain: VCq is q, VBq is 16 + q
  worlds : Tbl World
  fns : Tbl Fn
  partitions : Tbl Partition   -- by lowest quadrant
  quads : Tbl Quad
  engines : Tbl Engine
  copyTurn : Tbl (Nat × Nat)   -- by cluster: the core whose command its copy engine took last, and its last operation (10 R316)
  ops : Tbl EngineOp
  faults : Tbl FaultRec
  endings : Tbl Ending         -- contexts being ended
  overhead : BitVec 96         -- signed (03 R71)
  drawn : Nat                  -- the whole package's measured energy of the last tick, in mq (03 R85)
  fw : Tbl Firmware            -- by die
  recSeq : Nat
  hostBox : List HostMsg       -- newest last
  ports : Tbl Port
  tags : Tbl TagEntry
  peerWindows : List (Nat × Nat × Nat) -- IA base, size, package (log entry 11)
  cxlUp : Bool
  cxlWidth : Nat               -- the CXL link as training left it: lanes and GT/s (13 R375)
  cxlSpeed : Nat
  ideUp : Bool
  stopped : List (Nat × Nat)   -- NoC port pairs whose flows are stopped; a port is 16 y + x of its router
  flows : Tbl Flow             -- message counters by flow and world (04 R114), by `flowKey`
  windows : List HostWindow    -- the windows of host memory (04 R88, R110)
  tdispQueue : List TdispReq   -- TDISP requests that firmware core 0 is yet to take (20 R494)
  packageCap : Nat             -- mW
  newCap : Option Nat          -- accepted, and in force from the next boundary (21 R506)
  capStatus : Nat
  capRequest : DWord           -- the cap request register's other fields, as last written (21 R506)
  rackGrant : Nat              -- mW
  grantCopy : Nat              -- the grant as the last boundary found it (03 R83)
  grantSeqs : Tbl Nat          -- by coordinator, the number of the newest grant that has come from it (03 R86)
  rackCap : Nat                -- at reset 0 (DESIGN CHOICE, log entry 1: 03 R85 gives no reset value)
  demands : Tbl (Nat × Nat × Nat) -- last report of each package: time, floors and demand (03 R85)
  grantTime : Nat              -- when the last grant came (03 R86)
  sentSeq : Nat                -- number of the last grant sent, as the coordinator
  injectStatus : Nat
  injection : DWord            -- the error-injection register's other fields, as last written (22 R517)
  gates : Tbl GateState        -- key: quadrant * 13 + unit
  gateQueue : Tbl (List Nat)   -- per quadrant, the units that wait for their wake or are served, in order
  gateTimes : Tbl Nat          -- when each unit's break-even hold began or its wake was asked for, key as gates (13 R386, R387)
  checkpointing : Bool         -- dispatch stands still for a checkpoint (13 R388)
  meterJobs : List MeterJob    -- METERs under way, oldest first
  meterAsked : List (Nat × Nat) -- meter records that the host has asked for: world and tick (03 R83)
  resetAsked : Option Nat      -- the tick in which the host asked for a reset (21 R505)
  late : List Late
  closing : List Nat           -- blocks whose retirement waits for their writes (17 R420)
  again : List Choice          -- requests from outside that a slice has refused, to be made again (01 R22)
  turnedAway : Bool            -- the request just made was refused
  focus : Focus
  agenda : List Choice
  draws : Nat
  nextId : Nat
  rotor : Nat                  -- where the default rotation of cores stands
deriving DecidableEq, Repr

/-- Why the model stops with a fault. -/
inductive Fault where
  /-- A team instruction performed while no arm is in focus. Raised by every team meaning; the step
  sets the focus first, so no step raises it. Safe: the machine stops. -/
  | noArm
  /-- A stream instruction performed while no bound stream is in focus. Raised by every stream
  meaning; the step sets the focus first. Safe: the machine stops. -/
  | noStream
deriving DecidableEq, Repr

/-- Why the model gives an instruction no meaning. -/
inductive Refusal where
  /-- The instruction has no meaning yet. Raised by Dispatch alone. Safe: the machine stops. -/
  | notModelled (mnemonic : String)
deriving DecidableEq, Repr

/-- The device right after reset: nothing resident, every register at its reset value. -/
def State.reset : State where
  power := true
  time := 0
  tick := 0
  tickTime := 0
  epoch := 1
  bootStatus := 0
  rollback := 0
  measurement := 0
  mem := []
  blocksMeta := []
  retiredPages := []
  retiring := []
  llc := []
  dir := []
  hostOwned := []
  snoops := []
  relOwner := []
  hints := []
  tlb := []
  slices := []
  keys := []
  keyJobs := []
  invals := []
  cores := []
  blocks := []
  teams := []
  launches := []
  contexts := []
  baseCharges := []
  blockBase := []
  working := none
  baseHost := []
  tickCopies := []
  hostCopies := []
  tickDue := false
  sensors := []
  worlds := []
  fns := []
  partitions := []
  quads := []
  engines := []
  copyTurn := []
  ops := []
  faults := []
  endings := []
  overhead := 0
  drawn := 0
  fw := []
  recSeq := 1
  hostBox := []
  ports := []
  tags := []
  peerWindows := []
  cxlUp := true
  cxlWidth := 8
  cxlSpeed := 64
  ideUp := true
  stopped := []
  flows := []
  windows := []
  tdispQueue := []
  packageCap := 3200000
  newCap := none
  capStatus := 0
  capRequest := 0
  rackGrant := 3200000
  grantCopy := 3200000
  grantSeqs := []
  rackCap := 0
  demands := []
  grantTime := 0
  sentSeq := 0
  injectStatus := 0
  injection := 0
  gates := []
  gateQueue := []
  gateTimes := []
  checkpointing := false
  meterJobs := []
  meterAsked := []
  resetAsked := none
  late := []
  closing := []
  again := []
  turnedAway := false
  focus := .idle
  agenda := []
  draws := 0
  nextId := 1
  rotor := 0

end Sys2Proof.Machine
end

