-- ==== Sys2Proof/Machine/Act.lean ====
section
/-! DEFINITION. Trap causes, what stops an instruction part way, the form of every meaning (`Act`), and
the accessors of the state's tables. -/
namespace Sys2Proof.Machine
open Sys2Proof

/-! ### Causes -/

/-- The 8-bit cause code (17 R401). -/
def causeCode : Cause → Nat
  | .software => 0x01 | .illegalEncoding => 0x02 | .illegalOperand => 0x03 | .illegalType => 0x04
  | .illegalMode => 0x05 | .lookahead => 0x06 | .misalignedBranch => 0x07
  | .missingReconvergence => 0x08 | .stackMismatch => 0x09 | .stackOverflow => 0x0a
  | .windowOverflow => 0x0b | .illegalState => 0x0c | .illegalMember => 0x0d
  | .scopeDenial => 0x0e | .privilege => 0x0f | .alignment => 0x10 | .range => 0x11
  | .permission => 0x12 | .translationEncoding => 0x13 | .keyFault => 0x14 | .integrity => 0x15
  | .pageFault => 0x16 | .remoteAccess => 0x17 | .stashRange => 0x18 | .stashMap => 0x19
  | .formatSlot => 0x1a | .constantWindow => 0x1b | .engineParameter => 0x1c
  | .taskRecord => 0x1d | .triggerParameter => 0x1e | .streamState => 0x1f
  | .streamFault => 0x20 | .barrierMisuse => 0x21 | .asyncError => 0x22 | .dataError => 0x23

/-- The error class that a cause carries (17 R398, R401); causes 0x17 and 0x22 carry the class of
their error, given by the raiser. -/
def causeClass : Cause → Nat
  | .range | .permission | .scopeDenial | .privilege => 2
  | .translationEncoding => 3
  | .keyFault => 4
  | .integrity => 5
  | .pageFault => 1
  | .dataError => 6
  | .remoteAccess => 7
  | .streamFault => 11
  | .engineParameter | .taskRecord | .triggerParameter => 10
  | _ => 9

/-- A trap by a check on the whole instruction (17 R400). -/
def wholeTrap (c : Cause) : Trap :=
  ⟨c, causeClass c, 0, 0, 0, true, none, 0, false, false, false, 0, 0⟩

/-- What stops an instruction before its end. -/
inductive Stop where
  | trap (t : Trap)
  | fault (c : Cause) (cls : Nat)      -- one access's fault; the access loop gives it its lane
  | absent (stage world addr : Nat)    -- a resumable translation fault (04 R99)
  | spill (stage world addr va kind : Nat) -- one of an access to the spill area, with its VA and kind (18 R435)
  | wait (w : Wait)                    -- the instruction performs again later (02 R34)
deriving DecidableEq, Repr

/-- The form of every operation: it changes the state, and answers or stops. What it changed before
it stopped stays changed. -/
abbrev Act (α : Type) := ExceptT Stop (StateM State) α

/-- Raise a whole-instruction trap. -/
def raise {α : Type} (c : Cause) : Act α := throw (.trap (wholeTrap c))

/-- Raise an access fault with its class (17 R398). -/
def accessFault {α : Type} (c : Cause) : Act α := throw (.fault c (causeClass c))

/-- Require a condition, or raise a whole-instruction trap. -/
def require (b : Bool) (c : Cause) : Act Unit := if b then pure () else raise c

/-- Run an operation for its effect on the state. -/
def runAct {α : Type} (m : Act α) (s : State) : State := (m.run.run s).2

/-- Run an operation; answer none when it stops. What it changed stays changed. -/
def attempt {α : Type} (m : Act α) : Act (Except Stop α) :=
  fun s => match m.run.run s with
    | (r, s') => (.ok r, s')

/-- What stays of work that has no effect: the charges that its messages and accesses caused, the counters of its messages,
the choices made, and the questions put to the host (01 R22, 03 R70). -/
def keepingTraffic (was now : State) : State :=
  { was with
    baseCharges := now.baseCharges
    baseHost := now.baseHost
    blockBase := now.blockBase
    flows := now.flows
    draws := now.draws
    snoops := now.snoops }

/-- An operation that a slice refuses part way has no effect but its traffic, and is performed again whole (01 R22). -/
def undone {α : Type} (m : Act α) : Act α :=
  fun s => match m.run.run s with
    | (.error (.wait w), t) => (.error (.wait w), keepingTraffic s t)
    | (r, t) => (r, t)

/-- An instruction that a slice refuses part way has no effect but its traffic, and is performed again whole (01 R22). -/
def steady {α : Type} (m : Act α) : Act α :=
  fun s => match m.run.run s with
    | (.error (.wait .refused), t) => (.error (.wait .refused), keepingTraffic s t)
    | (r, t) => (r, t)

/-- A request from outside: one that a slice refuses has no effect but its traffic, and is to be made again (01 R22). -/
def tried (m : Act Unit) : Act Unit :=
  fun s => match (undone m).run.run s with
    | (.error (.wait _), t) => (.ok (), { t with turnedAway := true })
    | r => r

/-- An operation that a fault leaves without any effect but its traffic (01 R22, 03 R70; 13 R376). -/
def allOrError {α : Type} (m : Act α) : Act (Except Stop α) :=
  fun s => match m.run.run s with
    | (.error e, t) => (.ok (.error e), keepingTraffic s t)
    | (.ok a, t) => (.ok (.ok a), t)

/-- Whether an operation completes. -/
def succeeds {α : Type} (m : Act α) : Act Bool := do
  match ← attempt m with
  | .ok _ => pure true
  | .error _ => pure false

/-- A free choice among n candidates (log entry 3). -/
def drawChoice (n : Nat) : Act Nat := do
  let s ← get
  set { s with draws := s.draws + 1 }
  pure (Config.freeChoice s.draws % n)

/-- A new identity for a block, an operation or a fault (log entry 4). -/
def freshId : Act Nat := do
  let s ← get
  set { s with nextId := s.nextId + 1 }
  pure s.nextId

/-! ### Accessors of the tables -/

def coreOf (s : State) (c : Nat) : Core := (find? s.cores c).getD Core.fresh
def sliceState (s : State) (i : Nat) : Slice := (find? s.slices i).getD Slice.fresh
def contextOf (s : State) (x : Nat) : Context := (find? s.contexts x).getD Context.fresh
def worldOf (s : State) (w : Nat) : World := (find? s.worlds w).getD World.fresh
def fnOf (s : State) (f : Nat) : Fn := (find? s.fns f).getD Fn.fresh
def quadOf (s : State) (q : Nat) : Quad := (find? s.quads q).getD Quad.fresh
def engineOf (s : State) (c : Nat) : Engine := (find? s.engines c).getD Engine.fresh
def keyOf (s : State) (k : Nat) : KeySlot := (find? s.keys k).getD KeySlot.fresh
def portOf (s : State) (p : Nat) : Port := (find? s.ports p).getD Port.fresh
def firmwareOf (s : State) (d : Nat) : Firmware := (find? s.fw d).getD Firmware.fresh
def blockMetaOf (s : State) (ma : Nat) : BlockMeta := (find? s.blocksMeta (ma / 512)).getD BlockMeta.fresh
def gateOf (s : State) (q u : Nat) : GateState := (find? s.gates (q * 13 + u)).getD .on

def setCore (c : Nat) (x : Core) : Act Unit := modify fun s => { s with cores := put s.cores c x }
def setSlice (i : Nat) (x : Slice) : Act Unit := modify fun s => { s with slices := put s.slices i x }
def setContext (i : Nat) (x : Context) : Act Unit := modify fun s => { s with contexts := put s.contexts i x }
def setWorld (i : Nat) (x : World) : Act Unit := modify fun s => { s with worlds := put s.worlds i x }
def setFn (i : Nat) (x : Fn) : Act Unit := modify fun s => { s with fns := put s.fns i x }
def setQuad (i : Nat) (x : Quad) : Act Unit := modify fun s => { s with quads := put s.quads i x }
def setEngine (i : Nat) (x : Engine) : Act Unit := modify fun s => { s with engines := put s.engines i x }
def setKey (i : Nat) (x : KeySlot) : Act Unit := modify fun s => { s with keys := put s.keys i x }
def setPort (i : Nat) (x : Port) : Act Unit := modify fun s => { s with ports := put s.ports i x }
def setFirmware (i : Nat) (x : Firmware) : Act Unit := modify fun s => { s with fw := put s.fw i x }
def setTeam (i : Nat) (x : Team) : Act Unit := modify fun s => { s with teams := put s.teams i x }
def setBlock (i : Nat) (x : Block) : Act Unit := modify fun s => { s with blocks := put s.blocks i x }
def setLaunch (i : Nat) (x : Launch) : Act Unit := modify fun s => { s with launches := put s.launches i x }
def setPartition (i : Nat) (x : Partition) : Act Unit := modify fun s => { s with partitions := put s.partitions i x }
def setOp (i : Nat) (x : EngineOp) : Act Unit := modify fun s => { s with ops := put s.ops i x }
def setMeta (ma : Nat) (x : BlockMeta) : Act Unit :=
  modify fun s => { s with blocksMeta := put s.blocksMeta (ma / 512) x }
def setGate (q u : Nat) (g : GateState) : Act Unit :=
  modify fun s => { s with gates := put s.gates (q * 13 + u) g }

/-- Change one core. -/
def modCore (c : Nat) (f : Core → Core) : Act Unit := do setCore c (f (coreOf (← get) c))
def modSlice (i : Nat) (f : Slice → Slice) : Act Unit := do setSlice i (f (sliceState (← get) i))
def modContext (i : Nat) (f : Context → Context) : Act Unit := do setContext i (f (contextOf (← get) i))
def modWorld (i : Nat) (f : World → World) : Act Unit := do setWorld i (f (worldOf (← get) i))
def modFn (i : Nat) (f : Fn → Fn) : Act Unit := do setFn i (f (fnOf (← get) i))
def modQuad (i : Nat) (f : Quad → Quad) : Act Unit := do setQuad i (f (quadOf (← get) i))
def modPort (i : Nat) (f : Port → Port) : Act Unit := do setPort i (f (portOf (← get) i))
def modFirmware (i : Nat) (f : Firmware → Firmware) : Act Unit := do
  setFirmware i (f (firmwareOf (← get) i))

/-- Change a team, block, launch, partition or operation, when it exists. -/
def modTeam (i : Nat) (f : Team → Team) : Act Unit := do
  match find? (← get).teams i with
  | some x => setTeam i (f x)
  | none => pure ()
def modBlock (i : Nat) (f : Block → Block) : Act Unit := do
  match find? (← get).blocks i with
  | some x => setBlock i (f x)
  | none => pure ()
def modLaunch (i : Nat) (f : Launch → Launch) : Act Unit := do
  match find? (← get).launches i with
  | some x => setLaunch i (f x)
  | none => pure ()
def modPartition (i : Nat) (f : Partition → Partition) : Act Unit := do
  match find? (← get).partitions i with
  | some x => setPartition i (f x)
  | none => pure ()
def modOp (i : Nat) (f : EngineOp → EngineOp) : Act Unit := do
  match find? (← get).ops i with
  | some x => setOp i (f x)
  | none => pure ()

/-! ### Numbers and bits -/

/-- Bits hi:lo of a number (00 R2). -/
def bitsOf (x lo n : Nat) : Nat := x / 2 ^ lo % 2 ^ n

/-- Bit i of a number. -/
def bitSet (x i : Nat) : Bool := x / 2 ^ i % 2 = 1

/-- n bits read as a signed number. -/
def signed (n x : Nat) : Int :=
  if x % 2 ^ n < 2 ^ (n - 1) then (x % 2 ^ n : Nat) else ((x % 2 ^ n : Nat) : Int) - (2 ^ n : Nat)

/-- A signed number modulo 2^n. -/
def wrapTo (n : Nat) (x : Int) : Nat := (x % (2 ^ n : Nat)).toNat

/-- The least multiple of k that is at least x. -/
def roundUp (x k : Nat) : Nat := (x + k - 1) / k * k

/-- The bytes of a number, least significant first (00 R2). -/
def bytesLE : Nat → Nat → List (BitVec 8)
  | 0, _ => []
  | n + 1, x => BitVec.ofNat 8 x :: bytesLE n (x / 256)

/-- The number that bytes give, least significant first (00 R2). -/
def numLE : List (BitVec 8) → Nat
  | [] => 0
  | b :: t => b.toNat + 256 * numLE t

/-- The lanes of a mask in increasing order, among the first n. -/
def lanesOf (n : Nat) (m : Mask) : List Nat := (List.range n).filter fun l => m.getLsbD l

/-- The mask that holds the listed lanes. -/
def maskOf : List Nat → Mask
  | [] => 0
  | l :: t => maskOf t ||| BitVec.twoPow 1024 l

/-- The mask of the lowest n lanes. -/
def fullMask (n : Nat) : Mask := BitVec.ofNat 1024 (2 ^ n - 1)

/-- The crown word of a mask (02 R28): bit i is 1 exactly when mask word i is not zero. -/
def crown (m : Mask) : BitVec 32 :=
  BitVec.ofNat 32 ((List.range 32).foldl (fun a i =>
    if m.extractLsb' (32 * i) 32 = 0 then a else a + 2 ^ i) 0)

/-- The number of non-zero words of a mask: its passes (02 R30). -/
def passesOf (m : Mask) : Nat :=
  ((List.range 32).filter fun i => m.extractLsb' (32 * i) 32 != 0).length

/-! ### Lists of numbers used as sets -/

/-- Add to a set kept without repeats, oldest first. -/
def insertNew (l : List Nat) (x : Nat) : List Nat := if l.contains x then l else l ++ [x]

/-- Keep the list without x. -/
def dropAll (l : List Nat) (x : Nat) : List Nat := l.filter (· != x)

/-- Do an action for every entry of a list. -/
def each {α : Type} : List α → (α → Act Unit) → Act Unit
  | [], _ => pure ()
  | a :: t, f => do f a; each t f

/-- Collect the answers of an action over a list. -/
def collect {α β : Type} : List α → (α → Act β) → Act (List β)
  | [], _ => pure []
  | a :: t, f => do
    let b ← f a
    let bs ← collect t f
    pure (b :: bs)

end Sys2Proof.Machine
end

