-- ==== Sys2Proof/Machine/Energy.lean ====
section
/-! DEFINITION. Places on the NoC, weights and charges (01 R8, R521; 03 R67-R72, R524; 11 R341, R342),
and the queue of error records (17 R413-R416). -/
namespace Sys2Proof.Machine
open Sys2Proof

/-! ### Places (01 R8) -/

def quadOfCore (c : Nat) : Nat := c / 48
def clusterOfCore (c : Nat) : Nat := c / 4
def dieOfCore (c : Nat) : Nat := c / 192
def quadOfSlice (i : Nat) : Nat := i / 4
def quadOfCluster (c : Nat) : Nat := c / 12

/-- The reserved firmware core of each die (01 R11). -/
def isFirmwareCore (c : Nat) : Bool := c % 192 = 0

/-- The home slice of an address (04 R92). -/
def sliceOf (ia : Nat) : Nat := ia / 512 % 64

/-- The HBM channel of a machine address (04 R92). -/
def channelOf (ma : Nat) : Nat := 8 * sliceOf ma + Nat.xor (ma / 32768 % 8) (ma / 262144 % 8)

/-- The address of an HBM block's tag entry (04 R110). -/
def tagAddr (ma : Nat) : Nat :=
  0xbd00000000 + (ma / 32768 / 64) * 0x8000 + sliceOf ma * 0x200 + (ma / 32768 % 64) * 8

/-- A router's package coordinate, from its quadrant and its place in it (01 R521). -/
def routerAt (q lx ly : Nat) : Nat × Nat :=
  (8 * (q / 4 % 2) + 4 * (q % 4 % 2) + lx, 8 * (q / 4 / 2) + 4 * (q % 4 / 2) + ly)

/-- Router of a cluster, of a slice, of a Rensar port and of the CXL port (01 R521). -/
def routerOfCluster (c : Nat) : Nat × Nat := routerAt (c / 12) (c % 12 % 4) (c % 12 / 4)
def routerOfSlice (i : Nat) : Nat × Nat := routerAt (i / 4) (i % 4) 3
def routerOfPort (q : Nat) : Nat × Nat := routerAt q 0 3
def routerOfCxl : Nat × Nat := routerAt 0 1 3

/-- The quadrant of a router's coordinate (01 R521). -/
def quadAt (x y : Nat) : Nat := (x / 8 + y / 8 * 2) * 4 + (x % 8 / 4 + y % 8 / 4 * 2)

/-- One step of a coordinate towards its goal. -/
def stepTo (a b : Nat) : Nat := if a < b then a + 1 else if b < a then a - 1 else a

/-- The links of a path, first along X and then along Y (01 R19, R521): the sending quadrant, and
whether the link crosses between dies. -/
def linksOf : Nat → Nat × Nat → Nat × Nat → List (Nat × Bool)
  | 0, _, _ => []
  | n + 1, (x, y), (u, v) =>
    if x ≠ u then
      (quadAt x y, decide (x / 8 ≠ stepTo x u / 8)) :: linksOf n (stepTo x u, y) (u, v)
    else if y ≠ v then
      (quadAt x y, decide (y / 8 ≠ stepTo y v / 8)) :: linksOf n (x, stepTo y v) (u, v)
    else []

/-- The links of a path on the 16 by 16 grid. -/
def pathOf (a b : Nat × Nat) : List (Nat × Bool) := linksOf 32 a b

/-! ### Weights -/

/-- σ of each operating point (03 R67). -/
def sigmaOf : Nat → Nat
  | 0 => 33437 | 1 => 36864 | 2 => 40458 | 3 => 44220 | 4 => 48149 | 5 => 52245 | 6 => 56508
  | 7 => 60938 | 8 => 65536 | 9 => 70301 | 10 => 75233 | 11 => 80332 | 12 => 85598 | 13 => 92138
  | 14 => 97772 | _ => 103574

/-- Clock of each operating point in units of 10 MHz (03 R67). -/
def clockOf : Nat → Nat
  | 0 => 70 | 1 => 78 | 2 => 86 | 3 => 94 | 4 => 102 | 5 => 109 | 6 => 116 | 7 => 123 | 8 => 130
  | 9 => 135 | 10 => 140 | 11 => 145 | 12 => 150 | 13 => 155 | 14 => 160 | _ => 165

/-- The nominal weight of class c at OP8, in mq (03 R69, by the class numbers of 11 R342). A part's own calibrated
figure is `Config.weight`, which ERDH reads; the manual binds it to no distance from this one. -/
def nominalWeight : Nat → Nat
  | 0 => 770 | 1 => 1430 | 2 => 1210 | 3 => 1050 | 4 => 2900 | 5 => 5700 | 6 => 1100 | 7 => 160 | 8 => 620 | 9 => 980
  | 10 => 16713 | 11 => 27860 | 12 => 71000 | 13 => 18380 | 14 => 30650 | 15 => 78100 | 16 => 1900 | 17 => 9400
  | 18 => 600 | 19 => 2100 | 20 => 2 | 21 => 240 | 22 => 675 | 23 => 1126 | 24 => 380 | 25 => 220 | 26 => 900 | 27 => 58
  | 28 => 240 | 29 => 2800 | 30 => 1900 | _ => 0

/-- A compute-domain weight at operating point p (03 R68). -/
def scaledWeight (w p : Nat) : Nat := (w * sigmaOf p + 32768) / 65536

/-- Nominal L(p, 4) of each operating point, in mq per core per tick (03 R524). -/
def nominalAt4 : Nat → Nat
  | 0 => 539000 | 1 => 688000 | 2 => 868000 | 3 => 1084000 | 4 => 1342000 | 5 => 1646000 | 6 => 2002000
  | 7 => 2418000 | 8 => 2900000 | 9 => 3456000 | 10 => 4095000 | 11 => 4824000 | 12 => 5654000
  | 13 => 6797000 | 14 => 7884000 | _ => 9105000

/-- Band factor f_b (03 R524). -/
def bandFactor : Nat → Nat
  | 0 => 410 | 1 => 512 | 2 => 635 | 3 => 809 | 4 => 1024 | 5 => 1290 | 6 => 1628 | _ => 2048

/-- Nominal L(p, b), rounded to the nearest mq (03 R524). -/
def nominalLeakage (p b : Nat) : Nat := (2 * nominalAt4 p * bandFactor b + 1024) / 2048

/-- A fused figure held within a quarter of the nominal one (03 R524). -/
def boundedLeakage (core p b : Nat) : Nat :=
  Nat.max ((3 * nominalLeakage p b + 3) / 4) (Nat.min (5 * nominalLeakage p b / 4) (Config.leakage core p b))

/-- L(p, b) of a core: its fused figures, within their bound, and never falling as the point or the band rises
(03 R74, R524). -/
def leakageFigure (core p b : Nat) : Nat :=
  (List.range (p + 1)).foldl (fun a i =>
    (List.range (b + 1)).foldl (fun a j => Nat.max a (boundedLeakage core i j)) a) 0

/-- The charge of one event of class c (11 R342) at point p: classes 22 to 30 are base-domain and
keep their OP8 weight (03 R16, R68). -/
def weightAt (c p : Nat) : Nat :=
  if c < 22 then scaledWeight (Config.weight c) p else Config.weight c

/-- Classes of 11 R342 by name. -/
def clsInteger : Nat := 0
def clsF32 : Nat := 1
def clsF16 : Nat := 2
def clsConvert : Nat := 3
def clsSpecial : Nat := 4
def clsF64 : Nat := 5
def clsCross : Nat := 6
def clsFront : Nat := 7
def clsStash : Nat := 8
def clsL1 : Nat := 9
def clsCopyByte : Nat := 20
def clsSpecialiser : Nat := 21
def clsLlc : Nat := 22
def clsHbm : Nat := 23
def clsCipher : Nat := 24
def clsAtomic : Nat := 25
def clsKey : Nat := 26
def clsHop : Nat := 27
def clsCross2 : Nat := 28
def clsRensar : Nat := 29
def clsCxl : Nat := 30

/-! ### Charges -/

/-- The charge set of a context on a core (03 R72). -/
def chargeSetOf (c : Core) (ctx : Nat) : ChargeSet := (find? c.charges ctx).getD ChargeSet.zero

/-- A core has a charge set for a context, or room for one of 16 (03 R72). -/
def hasChargeSet (c : Core) (ctx : Nat) : Bool := (find? c.charges ctx).isSome || decide (c.charges.length < 16)

/-- Add mq to a core's charge set for a context (03 R72); the committed charge moves with the dynamic
one, because an instruction performs whole in one turn (log entry 5). Sets hold 48 bits. -/
def addCharge (core ctx mq : Nat) : Act Unit :=
  modCore core fun c =>
    let x := chargeSetOf c ctx
    let y : ChargeSet := { x with dynamic := (x.dynamic + mq) % 2 ^ 48, committed := (x.committed + mq) % 2 ^ 48 }
    { c with charges := put c.charges ctx y }

/-- Charge work of no context to the host's overhead account, in a domain (03 R71): VCq is q, VBq 16 + q. -/
def chargeHost (domain mq : Nat) : Act Unit :=
  modify fun s => { s with baseHost := put s.baseHost domain ((find? s.baseHost domain).getD 0 + mq) }

/-- The group of a base-domain class for the meter record: 0 memory and network, 1 fabric (03 R83). -/
def baseGroup (cls : Nat) : Nat := if cls < 29 then 0 else 1

/-- The context that a team's work is charged to: its task's while it holds one (11 R326). -/
def workContext (t : Team) (b : Block) : Nat :=
  match t.task with
  | some w => bitsOf (w.getD 5 0).toNat 0 10
  | none => b.ctx

/-- Do work for a block and a context, and go back to what was done before. -/
def workingFor {α : Type} (w : Option (Nat × Nat)) (m : Act α) : Act α :=
  fun s => match m.run.run { s with working := w } with
    | (r, t) => (r, { t with working := s.working })

/-- A block's share of a base domain's charges. -/
def baseSpendOf (s : State) (bid quad : Nat) : BaseSpend := (find? s.blockBase (bid * 16 + quad)).getD BaseSpend.zero

/-- A block's shares of the base domains' charges, each with its quadrant. -/
def sharesOf (s : State) (bid : Nat) : List (Nat × BaseSpend) :=
  (s.blockBase.filter fun e => e.1 / 16 = bid).map fun e => (e.1 % 16, e.2)

/-- A block's spent charge over every domain (03 R78). -/
def spentOf (s : State) (bid : Nat) (b : Block) : Nat := b.spent + ((sharesOf s bid).map (·.2.spent)).sum

/-- A block has no share of its own any more. -/
def dropShares (bid : Nat) (s : State) : State := { s with blockBase := s.blockBase.filter fun e => e.1 / 16 != bid }

/-- The block for which a context's charge is made: the one that the device is working for. -/
def chargedBlock (s : State) (ctx : Nat) : Option Nat :=
  match s.working with
  | some (bid, x) => if x = ctx && ((find? s.blocks bid).any fun b => b.st != .retired) then some bid else none
  | none => none

/-- A charge of a base domain counts in the spent charge of the block that caused it (03 R78). -/
def spendBase (s : State) (quad ctx mq : Nat) : State :=
  match chargedBlock s ctx with
  | some bid =>
    let x := baseSpendOf s bid quad
    { s with blockBase := put s.blockBase (bid * 16 + quad) { x with spent := x.spent + mq } }
  | none => s

/-- Charge n events of a base-domain class in a quadrant (03 R71, R72). -/
def chargeBase (quad : Nat) (ctx : Option Nat) (cls n : Nat) : Act Unit := do
  let mq := n * Config.weight cls
  match ctx with
  | none => chargeHost (16 + quad) mq
  | some x =>
    let k := (quad * 1024 + x) * 2 + baseGroup cls
    modify fun s =>
      spendBase { s with baseCharges := put s.baseCharges k (((find? s.baseCharges k).getD 0 + mq) % 2 ^ 48) } quad x mq

/-- Charge one message of n data bytes over a path of the NoC, each link in the quadrant that sends
(01 R16, R521). -/
def chargePath (ctx : Option Nat) (src dst : Nat × Nat) (bytes : Nat) : Act Unit :=
  each (pathOf src dst) fun l => chargeBase l.1 ctx (if l.2 then clsCross2 else clsHop) (Config.flits bytes)

/-- The virtual channels of the two networks (01 R19). -/
inductive Channel where
  | request | recall | manage | data | ack | managed
deriving DecidableEq, Repr

/-- Network and channel of a flow number (04 R114): the network in bit 20 (0 for requests), the channel in bits
22:21; here bit 0 and bits 2:1. -/
def channelBits : Channel → Nat
  | .request => 0 | .recall => 2 | .manage => 4 | .data => 1 | .ack => 3 | .managed => 5

/-- The number of the NoC port at a router (20 R489; log entry 40). -/
def portOn (r : Nat × Nat) : Nat := 16 * r.2 + r.1

/-- Where a flow's counter stands: source and destination port, channel, and world, 64 for the fabric key
(04 R114). -/
def flowKey (src dst : Nat) (ch : Channel) (world : Nat) : Nat :=
  ((src + 1024 * dst) * 8 + channelBits ch) * 65 + world

def flowOf (s : State) (k : Nat) : Flow := (find? s.flows k).getD ⟨0, 0⟩

/-- The receiver's check of a counter (04 R114): exactly one more than the last it accepted. -/
def accepts (f : Flow) (count : Nat) : Bool := count = f.accepted + 1

/-- One message over the NoC (01 R19, R521; 04 R114): its flits are charged over its path, the flow's counter of its
world rises by 1 at the sender, and the receiver accepts it. Work of no world goes under the fabric key. -/
def sendMessage (ctx : Option Nat) (world : Nat) (src dst : Nat × Nat) (ch : Channel) (bytes : Nat) : Act Unit := do
  chargePath ctx src dst bytes
  let k := flowKey (portOn src) (portOn dst) ch (Nat.min world 64)
  modify fun s =>
    let f := flowOf s k
    { s with flows := put s.flows k ⟨f.sent + 1, if accepts f (f.sent + 1) then f.sent + 1 else f.accepted⟩ }

/-- A command on the management channel and its answer (01 R19). -/
def command (ctx : Option Nat) (world : Nat) (src dst : Nat × Nat) (bytes : Nat) : Act Unit := do
  sendMessage ctx world src dst .manage bytes
  sendMessage ctx world dst src .managed 0

/-- A quadrant's meter unit and its partition's front end stand at the quadrant's first router (DESIGN CHOICE, log entry
40: 01 R521 gives neither a place). -/
def routerOfMeter (q : Nat) : Nat × Nat := routerAt q 0 0
def routerOfFront (q : Nat) : Nat × Nat := routerAt q 0 0

/-- The core that a block is on, as a place on the NoC. -/
def coreRouter (core : Nat) : Nat × Nat := routerOfCluster (clusterOfCore core)

/-- The place of a die's firmware core (01 R11). -/
def firmwareRouter (die : Nat) : Nat × Nat := coreRouter (192 * die)

/-- The point at which a quadrant's compute-domain events are charged: during a slew, the one with the
higher σ (03 R82). -/
def chargePoint (s : State) (quad : Nat) : Nat :=
  let q := quadOf s quad
  if q.slewing then Nat.max q.op q.slewFrom else q.op

/-- Classes whose events are passes: neither front-context instructions nor copied bytes nor evaluated
slots (03 R69, 21 R497). -/
def isPass (cls : Nat) : Bool := decide (cls < 20) && cls != clsFront

/-- Count n passes of a team: the domain's passes of the tick, and the core's last pass (21 R496, R497). -/
def countPasses (core tid cls n : Nat) : Act Unit :=
  if isPass cls then do
    modQuad (quadOfCore core) fun q => { q with passes := q.passes + n }
    modCore core fun c => { c with lastPass := some (tid, cls), row := 0 }
  else pure ()

/-- Charge n compute-domain events of a class to a team: the core's charge set, the team's mark
counter and the block's spent charge (03 R68, R72, R78; 11 R341). Firmware work is overhead (R71). `who` is the context
of an instruction as it began, when it is not the team's of now (11 R326). -/
def chargeEventsAs (who : Option Nat) (tid cls n : Nat) : Act Unit := do
  let s ← get
  match (find? s.teams tid).filter fun t => !t.retired with
  | none => pure ()
  | some t =>
    match find? s.blocks t.bid with
    | none => pure ()
    | some b =>
      let mq := n * weightAt cls (chargePoint s (quadOfCore b.core))
      if t.firmware then chargeHost (quadOfCore b.core) mq
      else
        addCharge b.core (who.getD (workContext t b)) mq
        setBlock t.bid { b with spent := b.spent + mq }
      setTeam tid { t with mark := t.mark + BitVec.ofNat 48 mq }

/-- Charge n events of a class to a team. -/
def chargeEvents (tid cls n : Nat) : Act Unit := chargeEventsAs none tid cls n

/-- Charge n events of a class to a team, and count its passes. -/
def chargeTeamAs (who : Option Nat) (tid cls n : Nat) : Act Unit := do
  chargeEventsAs who tid cls n
  let s ← get
  match find? s.teams tid with
  | none => pure ()
  | some t =>
    match find? s.blocks t.bid with
    | none => pure ()
    | some b => countPasses b.core tid cls n

/-- Charge n events of a class to a team, and count its passes. -/
def chargeTeam (tid cls n : Nat) : Act Unit := chargeTeamAs none tid cls n

/-! ### Waits for room -/

/-- An arm that waits for a place looks again. -/
def armLooksAgain (x : Arm) : Arm := if x.wait = .room then { x with wait := .retry } else x

/-- A place has come free, or a unit has its power: the arms that wait for one look again (02 R59, 01 R10, 13 R380,
R386). -/
def wakeRoom : Act Unit :=
  modify fun s => { s with teams := s.teams.map fun e =>
    (e.1, { e.2 with a0 := e.2.a0.map armLooksAgain, a1 := e.2.a1.map armLooksAgain }) }

/-! ### Gated units (13 R386, R387) -/

/-- Whether a gateable unit of a quadrant has its power (13 R386). -/
def unitOn (s : State) (q u : Nat) : Bool :=
  match gateOf s q u with
  | .on => true
  | .hold => true
  | _ => false

/-- When a unit's hold began, or its wake was asked for. -/
def gateTime (s : State) (q u : Nat) : Nat := (find? s.gateTimes (q * 13 + u)).getD 0

/-- The arbiter serves the first two units of a quadrant's queue (13 R387). -/
def serveWakes (q : Nat) : Act Unit := do
  let queue := (find? (← get).gateQueue q).getD []
  each (queue.take 2) fun v => setGate q v .waking
  each (queue.drop 2) fun v => setGate q v .queued

/-- A unit joins its quadrant's queue: behind every earlier request, and among those of the same moment in unit order,
clusters first (13 R387). -/
def queueWake (q u : Nat) : Act Unit := do
  let s ← get
  let queue := (find? s.gateQueue q).getD []
  let before := fun v => decide (gateTime s q v < s.time) || decide (v < u)
  set { s with
    gateTimes := put s.gateTimes (q * 13 + u) s.time
    gateQueue := put s.gateQueue q (queue.filter before ++ u :: queue.filter fun v => !before v) }
  serveWakes q

/-- Ask for a unit's power: in its break-even hold it resumes; gated, it joins its quadrant's queue. A
tripped quadrant wakes nothing (13 R386, R387; 21 R509). -/
def wakeUnit (q u : Nat) : Act Unit := do
  let s ← get
  if (quadOf s q).thermal = 2 then pure ()
  else match gateOf s q u with
  | .hold => setGate q u .on
  | .gated => queueWake q u
  | _ => pure ()

/-! ### Error records -/

/-- A record with every field zero or none, to be filled in (17 R414). -/
def ErrRec.blank : ErrRec := ⟨0, 0, 0, 0, 0x3ff, 0, 0x3ff, 0, 0, 0, 0, none, 0, 0, 0, 0, DumpInfo.none⟩

/-- The partition that holds a quadrant, by its lowest quadrant (03 R81). -/
def partitionOfQuad (s : State) (q : Nat) : Option Nat :=
  (s.partitions.find? fun e => e.2.quads.contains q).map (·.1)

/-- The partition that serves a world: its own, or the lowest shared one (12 R355, R364). -/
def partitionOfWorld (s : State) (world : Nat) : Nat :=
  match s.partitions.find? fun e => e.2.world = some world with
  | some e => e.1
  | none => ((s.partitions.find? fun e => e.2.world.isNone).map (·.1)).getD 0

/-- A record's partition: its core's, its front end's, or its world's (17 R414). -/
def recordPart (s : State) (r : ErrRec) : Nat :=
  if r.core < 768 then (partitionOfQuad s (quadOfCore r.core)).getD (quadOfCore r.core)
  else if r.unit = 8 then r.number else partitionOfWorld s r.world

/-- The die where an error arose, whose firmware core takes its record (17 R411, R413). -/
def dieOfSource (src : Source) (core : Nat) : Nat :=
  if src.unit = 2 || src.unit = 3 then src.number / 48
  else if src.unit = 4 then src.number / 16
  else if src.unit = 5 || src.unit = 8 then src.number / 4
  else if src.unit = 7 then src.number % 16 / 4
  else if core < 768 then dieOfCore core else 0

/-- Send a record to a firmware core: accepted with the count of records dropped before it, the next
device-wide number, the time and the epoch, or dropped when the queue holds 256 (17 R413, R414). -/
def emitRecord (die : Nat) (r : ErrRec) : Act Unit := do
  let s ← get
  let f := firmwareOf s die
  if f.queue.length < 256 then
    let r := { r with time := s.time, epoch := s.epoch, sequence := s.recSeq, lost := Nat.min f.lost 0xffff
                      part := recordPart s r, unit := if r.unit = 0 && decide (r.core < 768) then 1 else r.unit }
    setFirmware die { f with queue := f.queue ++ [r], lost := 0 }
    modify fun s => { s with recSeq := s.recSeq + 1 }
  else setFirmware die { f with lost := f.lost + 1 }

/-- Start the end of a context for one error (17 R411): the firmware acts in CONTEXT_END. The first
error is the one recorded. -/
def endContext (ctx : Nat) (e : Ending) : Act Unit := do
  let s ← get
  match find? s.endings ctx with
  | some _ => pure ()
  | none => set { s with endings := put s.endings ctx e }

end Sys2Proof.Machine
end

