-- ==== Sys2Proof/Machine/Memory.lean ====
section
/-! DEFINITION. Memory as the slices serve it: machine memory, the two-stage walk, the translation
cache, the last-level cache, the directory of stash chunks, write-backs and promotion
(04 R87-R113, 05 R143-R145, 20 R469-R481, R522). -/
namespace Sys2Proof.Machine
open Sys2Proof

/-- Who makes an access: where its message starts, its core, its block, the context charged (none:
the host's overhead account) and its world. -/
structure Req where
  src : Nat × Nat
  core : Option Nat
  bid : Option Nat
  ctx : Option Nat
  world : Nat
deriving DecidableEq, Repr

/-- Kinds of access; the codes of 17 R405 are 1 read, 2 write, 3 read-modify-write. -/
inductive AccKind where
  | fetch | read | write | rmw
deriving DecidableEq, Repr

def kindCode : AccKind → Nat
  | .fetch => 0 | .read => 1 | .write => 2 | .rmw => 3

/-- What a leaf must allow for a kind of access (04 R94): a read-modify-write reads and writes (log entry 27). -/
def permits (r w x : Bool) : AccKind → Bool
  | .fetch => x
  | .read => r
  | .write => w
  | .rmw => r && w

/-- What a range register must allow (04 R89): loads rd; stores and atomics wr; fetch ex. -/
def rangePermits (r w x : Bool) : AccKind → Bool
  | .fetch => x
  | .read => r
  | .write => w
  | .rmw => w

/-! ### Machine memory -/

/-- n bytes of machine memory from an address. -/
def readMem (m : Memory) (ma : Nat) : Nat → List (BitVec 8)
  | 0 => []
  | n + 1 => rd m ma :: readMem m (ma + 1) n

/-- Machine memory with bytes stored from an address up; the canonical form is kept. -/
def writeMem (m : Memory) (ma : Nat) : List (BitVec 8) → Memory
  | [] => m
  | b :: t => writeMem (wr m ma b) (ma + 1) t

/-- Store bytes in machine memory. -/
def putMem (ma : Nat) (bs : List (BitVec 8)) : Act Unit :=
  modify fun s => { s with mem := writeMem s.mem ma bs }

/-- Whether a machine address lies in host memory (04 R88). -/
def isHostMa (ma : Nat) : Bool := decide (0x200000000000 ≤ ma) && decide (ma < 0x400000000000)

/-- The window of host memory that holds a machine address (04 R88). -/
def windowOf (s : State) (ma : Nat) : Option HostWindow :=
  s.windows.find? fun w => isHostMa ma && decide (w.base ≤ ma) && decide (ma < w.base + w.size)

/-- The page of a machine address is one that a leaf may name: HBM, or a window of host memory that the firmware has
set (04 R88), and not retired (20 R476). -/
def nameable (s : State) (ma : Nat) : Bool :=
  (decide (ma < 0xbd00000000) || (windowOf s ma).isSome) && !s.retiredPages.contains (ma / 65536)

/-- The key slot number under which stage-2 tables stand: the hypervisor's key, which belongs to no table slot
(04 R93). -/
def hyperSlot : Nat := 4096

/-! ### The metadata cache (04 R110) -/

/-- The line of tag entries that holds a block's: eight entries of one slice's stripes in HBM; for host memory, four
entries of 16 bytes from the window's tag base. -/
def tagLineOf (s : State) (ma : Nat) : Nat :=
  match windowOf s ma with
  | some w => 2 ^ 40 + (w.tagBase + (ma - w.base) / 32) / 64
  | none => tagAddr ma / 64

/-- Bursts of 64 bytes at a machine address: HBM's in its stack's domain, or CXL flits in VB0 (01 R16, 03 R69). -/
def chargeBursts (ctx : Option Nat) (ma n : Nat) : Act Unit :=
  if isHostMa ma then chargeBase 0 ctx clsCxl n else chargeBase (quadOfSlice (sliceOf ma)) ctx clsHbm n

/-- One of n candidates leaves a cache whose set is full (04 R520: the policy is not architected; log entry 41). -/
def victimOf {α : Type} (l : List α) : Act (Option α) := do
  if l.isEmpty then pure none
  else do
    let k ← drawChoice l.length
    pure l[k]?

/-- Room for a line of tag entries in its set of 16 ways: 2,048 sets of 64-byte lines, by line number (log entry 41).
A dirty line that leaves is written out. -/
def roomForTags (ctx : Option Nat) (ma line : Nat) : Act Unit := do
  let i := sliceOf ma
  let set := (sliceState (← get) i).tags.filter fun e => e.1 % 2048 = line % 2048
  if set.length < 16 then pure ()
  else do
    match ← victimOf set with
    | some e => do
      if e.2 then (if 2 ^ 40 ≤ e.1 then chargeBase 0 ctx clsCxl 1 else chargeBase (quadOfSlice i) ctx clsHbm 1) else pure ()
      modSlice i fun x => { x with tags := del x.tags e.1 }
    | none => pure ()

/-- A slice reads a block's tag entry, or changes it, in its metadata cache; a line that is not there is fetched
(04 R110). -/
def touchTags (ctx : Option Nat) (ma : Nat) (dirty : Bool) : Act Unit := do
  let s ← get
  let i := sliceOf ma
  let line := tagLineOf s ma
  match find? (sliceState s i).tags line with
  | some d => if dirty && !d then modSlice i fun x => { x with tags := put x.tags line true } else pure ()
  | none => do
    roomForTags ctx ma line
    chargeBursts ctx ma 1
    modSlice i fun x => { x with tags := put x.tags line dirty }

/-- Put a block in poison form (20 R471, R472), under a key slot and generation. -/
def poisonBlock (ma slot gen : Nat) : Act Unit := do
  touchTags none ma true
  setMeta ma ⟨15, some (slot, gen), true, 0⟩

/-- The firmware is to retire the machine page of a block (20 R473, R476). Only HBM pages are retired. -/
def askRetire (ma : Nat) : Act Unit :=
  modify fun s =>
    if ma < 0xbd00000000 && !(s.retiring.any fun x => x / 65536 = ma / 65536) then { s with retiring := s.retiring ++ [ma] }
    else s

/-! ### Table entries (04 R94, R95) -/

/-- What a table entry says at a level of a stage. -/
inductive Entry where
  | absent
  | bad                                   -- translation encoding
  | table (next : Nat)
  | leaf (base units : Nat) (r w x mig : Bool) (key : Nat)
deriving DecidableEq, Repr

/-- Read an entry under 04 R94 and R95. `stage2` makes bit 7 the mig bit and reserves the key. -/
def decodeEntry (stage2 : Bool) (level e : Nat) : Entry :=
  if bitSet e 0 = false then .absent
  else if level < 3 && bitSet e 1 then
    if bitsOf e 2 6 = 0 && bitsOf e 8 7 = 0 && bitsOf e 52 12 = 0 then .table (bitsOf e 15 37 * 32768)
    else .bad
  else
    let size := bitsOf e 2 2
    let units := if size = 0 then 1 else if size = 1 then 32 else 16384
    let base := bitsOf e 16 36 * 65536
    if bitSet e 1 then .bad
    else if !((level = 3 && (size = 0 || size = 1)) || (level = 2 && size = 2)) then .bad
    else if bitsOf e 8 8 ≠ 0 then .bad
    else if stage2 && (bitsOf e 52 12 ≠ 0 || bitsOf e 46 6 ≠ 0) then .bad
    else if !stage2 && bitSet e 7 then .bad
    else if base % (units * 65536) ≠ 0 then .bad
    else .leaf base units (bitSet e 4) (bitSet e 5) (bitSet e 6) (stage2 && bitSet e 7) (bitsOf e 52 12)

/-- The index of a level into its table (04 R93). -/
def levelIndex (level addr : Nat) : Nat :=
  if level = 1 then bitsOf addr 40 12 else if level = 2 then bitsOf addr 28 12 else bitsOf addr 16 12

/-- A walk's answer for one stage. -/
inductive WalkEnd where
  | absent | bad
  | leaf (base units : Nat) (r w x mig : Bool) (key : Nat)
deriving DecidableEq, Repr

/-- The leaf or table that an entry gives, or where the walk ends. -/
def entryEnd : Entry → Except WalkEnd Nat
  | .absent => .error .absent
  | .bad => .error .bad
  | .table n => .ok n
  | .leaf b u r w x m k => .error (.leaf b u r w x m k)

/-- Three levels of one stage, reading each entry once with `readEntry` (04 R93, 20 R479). -/
def walkStage (stage2 : Bool) (readEntry : Nat → Act Nat) (addr : Nat) (level : Nat) (table : Nat) :
    Nat → Act WalkEnd
  | 0 => pure .bad
  | n + 1 => do
    let e ← readEntry (table + 8 * levelIndex level addr)
    match entryEnd (decodeEntry stage2 level e) with
    | .error r => pure r
    | .ok t => walkStage stage2 readEntry addr (level + 1) t n

/-! ### Block contents -/

/-- Mark the record of a data error found in HBM: poison form, and retirement (20 R472, R473). -/
def blockLost (ma slot gen : Nat) : Act Unit := do
  poisonBlock ma slot gen
  askRetire ma

/-- Integrity of a key slot against the generation a translation names (04 R113): the slot holds a key
that every replica has acknowledged (R117), of that generation. -/
def keyCurrent (s : State) (slot gen : Nat) : Bool :=
  let k := keyOf s slot
  slot = hyperSlot || ((k.st = .world || k.st = .sequence) && !k.installing && k.gen == gen)

/-- A record of a unit of the slice (17 R414). -/
def sliceRecord (slice : Nat) (r : ErrRec) : Act Unit :=
  emitRecord (slice / 16) { r with unit := 4, number := slice }

/-- Sectors of a block's location that hold its content (04 R108, R109). -/
def storedSectors (st : Nat) : Nat := if st = 15 then 8 else if st ≤ 7 then st else 0

/-- Whether reading a block meets two bad symbols. Its tag is taken over its whole ciphertext (04 R112), so a
read takes every sector that the block stores (log entry 16). -/
def meetsBad (b : BlockMeta) : Bool := b.bad % 2 ^ storedSectors b.st != 0

/-- Whether the check code of a block's tag entry fails (20 R469, R472 step 2). -/
def tagBad (b : BlockMeta) : Bool := bitSet b.bad 8

/-- A block's 512 bytes as stored in HBM, under a key slot and generation, in the order of checks of
20 R472 from step 2 on. Step 1 is the caller's. -/
def readBlock (ctx : Option Nat) (ma slot gen : Nat) : Act (List (BitVec 8)) := do
  let s ← get
  let b := blockMetaOf s ma
  touchTags ctx ma false
  if tagBad b then do
    blockLost ma slot gen
    accessFault .dataError
  else if b.st = 14 then pure (List.replicate 512 0#8)
  else if 8 ≤ b.st && b.st ≤ 13 then accessFault .translationEncoding
  else if b.sealed ≠ some (slot, gen) then do
    let world := if slot < 64 then slot else (keyOf s slot).owner
    sliceRecord (sliceOf ma) { ErrRec.blank with type := 13, cls := 5, world := world, ma := ma / 65536 * 65536 }
    accessFault .integrity
  else if b.poison then accessFault .dataError
  else if meetsBad b then do
    blockLost ma slot gen
    accessFault .dataError
  else if b.st = 0 then pure (List.replicate 512 0#8)
  else do
    chargeBursts ctx ma (storedSectors b.st)
    chargeBase (quadOfSlice (sliceOf ma)) ctx clsCipher 1
    pure (readMem s.mem (ma / 512 * 512) 512)

/-! ### The last-level cache -/

/-- A line's key: its machine block and the key slot, with a place for the hypervisor's key. -/
def llcKey (ma slot : Nat) : Nat := ma / 512 * 8192 + slot

/-- The machine block and the key slot of a line's key. -/
def lineBlock (k : Nat) : Nat := k / 8192
def lineSlot (k : Nat) : Nat := k % 8192

/-- An empty line for a block. -/
def LlcLine.fresh (world ia gen : Nat) : LlcLine := ⟨world, ia, gen, 0, 0, [], 0x3ff, false, 0, 0⟩

def setLine (k : Nat) (l : LlcLine) : Act Unit := modify fun s => { s with llc := put s.llc k l }
def dropLine (k : Nat) : Act Unit := modify fun s => { s with llc := del s.llc k }

/-- n bytes of a line from an offset. -/
def lineBytes (t : Tbl (BitVec 8)) (off : Nat) : Nat → List (BitVec 8)
  | 0 => []
  | n + 1 => rd t off :: lineBytes t (off + 1) n

/-- A line's bytes with some replaced. -/
def putBytes (t : Tbl (BitVec 8)) (off : Nat) : List (BitVec 8) → Tbl (BitVec 8)
  | [] => t
  | b :: bs => putBytes (wr t off b) (off + 1) bs

/-- Quarantine one way of a line's set, within the limits (20 R477). -/
def quarantine (ma : Nat) : Act Unit := do
  let s ← get
  let i := sliceOf ma
  let sl := sliceState s i
  let set := ma / 32768 % 4096
  let n := (find? sl.ways set).getD 0
  let total := sl.ways.foldl (fun a e => a + e.2) 0
  if n < 8 && total < 64 then setSlice i { sl with ways := put sl.ways set (n + 1) }
  else sliceRecord i { ErrRec.blank with type := 14, cls := 21 }

/-- Count a corrected error in an LLC line: the fourth within one second quarantines its way
(20 R470). -/
def lineCorrected (k ma : Nat) : Act Unit := do
  let s ← get
  let i := sliceOf ma
  let sl := sliceState s i
  let recent := (((find? sl.lineErrs k).getD []).filter fun t => s.time < t + 1000000000) ++ [s.time]
  if 4 ≤ recent.length then
    setSlice i { sl with lineErrs := del sl.lineErrs k }
    quarantine ma
  else setSlice i { sl with lineErrs := put sl.lineErrs k recent }

/-- Count a corrected error of HBM: the sixteenth in one page retires it; a full table gives up the
page with the fewest errors (20 R470). -/
def pageCorrected (ma : Nat) : Act Unit := do
  let s ← get
  let i := sliceOf ma
  let sl := sliceState s i
  let p := ma / 65536
  let n := (find? sl.corrected p).getD 0 + 1
  let least := sl.corrected.foldl (fun a e => match a with
    | none => some e
    | some x => if e.2 < x.2 then some e else some x) none
  let table := if (find? sl.corrected p).isNone && 256 ≤ sl.corrected.length then
      match least with
      | some e => del sl.corrected e.1
      | none => sl.corrected
    else sl.corrected
  setSlice i { sl with corrected := put table p n }
  if n = 16 then askRetire ma

/-- The end of a line's owner context for lost data (20 R473): a record of type 6, class 6. -/
def endOwner (src : Source) (core owner : Nat) : Act Unit :=
  if owner = 0x3ff then pure () else endContext owner ⟨6, 6, 0, core, 0, DumpInfo.none, src⟩

/-- Look for injected errors of a line, as an access, a patrol read, an eviction or a write-back does
(20 R469-R474). A clean line with an uncorrectable error is dropped, to be fetched again. -/
def checkLine (k ma : Nat) : Act Unit := do
  match find? (← get).llc k with
  | none => pure ()
  | some l =>
    if l.double ≠ 0 then
      if l.dirty = 0 then
        dropLine k
        quarantine ma
      else
        setLine k { l with poison := true, single := 0, double := 0 }
        endOwner ⟨4, sliceOf ma, 0⟩ 0x3ff l.owner
        askRetire ma
        quarantine ma
    else if l.single ≠ 0 then
      setLine k { l with single := 0 }
      lineCorrected k ma
    else pure ()

/-- A line's bytes with the invalid sectors taken from the stored block (04 R106, R109). -/
def mergeSectors (valid : BitVec 8) (bytes : Tbl (BitVec 8)) (stored : List (BitVec 8)) : Tbl (BitVec 8) :=
  (List.range 8).foldl (fun t i =>
    if valid.getLsbD i then t else putBytes t (64 * i) ((stored.drop (64 * i)).take 64)) bytes

/-- Sectors that a compressed block takes; 8 or more stands for uncompressed (04 R109 gives no
algorithm: log entry 9). -/
def storedState (bs : List (BitVec 8)) : Nat :=
  if bs.all (· == 0#8) then 0
  else if 1 ≤ Config.compressed bs && Config.compressed bs ≤ 7 then Config.compressed bs
  else 15

/-- Write a line back to its block and leave it clean (04 R109, R111, R112). A poisoned line, or one
whose other sectors cannot be read, becomes a block in poison form (20 R471). -/
def writeBackLine (k ma slot : Nat) : Act Unit := do
  checkLine k ma
  match find? (← get).llc k with
  | none => pure ()
  | some l =>
    if l.dirty = 0 && !l.poison then pure ()
    else if l.poison then
      poisonBlock ma slot l.gen
      setLine k { l with dirty := 0 }
    else
      match ← attempt (if l.valid = 0xff then pure [] else readBlock none ma slot l.gen) with
      | .error _ =>
        poisonBlock ma slot l.gen
        setLine k { l with dirty := 0, poison := true }
      | .ok stored =>
        let bs := lineBytes (mergeSectors l.valid l.bytes stored) 0 512
        let owner := if l.owner = 0x3ff then none else some l.owner
        chargeBase (quadOfSlice (sliceOf ma)) owner clsCipher 1
        chargeBursts owner ma (storedSectors (storedState bs))
        touchTags owner ma true
        putMem (ma / 512 * 512) bs
        setMeta ma ⟨storedState bs, some (slot, l.gen), false, 0⟩
        setLine k { l with dirty := 0 }

/-- A line leaves the LLC (04 R520). -/
def evictLine (k : Nat) : Act Unit := do
  writeBackLine k (lineBlock k * 512) (lineSlot k)
  dropLine k

/-- The lines of the LLC in the set of a machine block: 4,096 sets in each slice (04 R106), by block number (log entry 41). -/
def linesOfSet (s : State) (ma : Nat) : List Nat :=
  (s.llc.filter fun e => lineBlock e.1 % 262144 = ma / 512 % 262144).map (·.1)

/-- Ways of a set that may hold lines: 24 less those in quarantine (04 R106, 20 R477). -/
def waysOf (s : State) (ma : Nat) : Nat := 24 - (find? (sliceState s (sliceOf ma)).ways (ma / 32768 % 4096)).getD 0

/-- Room for a line of key k in its set: one that is there leaves when every way holds another (04 R106, R520). -/
def roomForLine (ma k : Nat) : Act Unit := do
  let s ← get
  let others := (linesOfSet s ma).filter (· != k)
  if others.length < waysOf s ma then pure ()
  else
    match ← victimOf others with
    | some v => evictLine v
    | none => pure ()

/-- The block's line with every sector valid, filled from HBM where one was not (04 R106). -/
def lineWith (ctx : Option Nat) (world ia ma slot gen : Nat) : Act LlcLine := do
  let k := llcKey ma slot
  checkLine k ma
  let l := (find? (← get).llc k).getD (LlcLine.fresh world (ia / 512) gen)
  if l.valid = 0xff then pure l
  else do
    let bs ← readBlock ctx ma slot gen
    let l' := { l with valid := 0xff, bytes := mergeSectors l.valid l.bytes bs }
    roomForLine ma k
    setLine k l'
    pure l'

/-! ### The hot-page sketch (04 R124) -/

def sketchFactor : Nat → Nat
  | 0 => 0x6a3d9f25 | 1 => 0x4c1be7d3 | 2 => 0x5f29a6c1 | _ => 0x73e41b8f

def sketchIndex (row page : Nat) : Nat := row * 2048 + page * sketchFactor row % 2 ^ 32 / 2 ^ 21

/-- Count one LLC access of a page, and keep the list of 64 pages with the largest estimates. -/
def sketchTouch (ma : Nat) : Act Unit :=
  modSlice (sliceOf ma) fun sl =>
    let p := ma / 65536
    let bump := fun (t : Tbl (BitVec 16)) (row : Nat) =>
      let c := rd t (sketchIndex row p)
      wr t (sketchIndex row p) (if c = 0xffff#16 then c else c + 1)
    let t := [0, 1, 2, 3].foldl bump sl.sketch
    let est := [0, 1, 2, 3].foldl (fun a row => Nat.min a (rd t (sketchIndex row p)).toNat) 0xffff
    let others := sl.hot.filter fun h => h.page != p
    let hot :=
      if others.length < sl.hot.length then sl.hot.map fun h => if h.page = p then ⟨p, est⟩ else h
      else if sl.hot.length < 64 then sl.hot ++ [⟨p, est⟩]
      else
        let least := sl.hot.foldl (fun a h => Nat.min a h.est) 0xffff
        if est ≤ least then sl.hot
        else
          match sl.hot.reverse.find? fun h => h.est = least with
          | some h => sl.hot.filter (fun x => x.page != h.page) ++ [⟨p, est⟩]
          | none => sl.hot
    { sl with sketch := t, hot := hot }

/-! ### Access through a translation -/

/-- One LLC access of 64 bytes: its charge, and the sketch when it is made for a context (03 R69, 04 R124). -/
def chargeLlc (ctx : Option Nat) (ma : Nat) : Act Unit := do
  chargeBase (quadOfSlice (sliceOf ma)) ctx clsLlc 1
  if ctx.isSome then sketchTouch ma else pure ()

/-- Read n bytes inside one sector, at a machine address, from the LLC line (04 R106). -/
def llcRead (ctx : Option Nat) (world ia ma slot gen n : Nat) : Act (List (BitVec 8)) := do
  let l ← lineWith ctx world ia ma slot gen
  if l.poison then accessFault .dataError
  else pure (lineBytes l.bytes (ma % 512) n)

/-- The slice records that a free block is no longer free, as zero under the key (04 R125). -/
def claimFree (ctx : Option Nat) (ma slot gen : Nat) : Act Unit := do
  if (blockMetaOf (← get) ma).st = 14 then do
    touchTags ctx ma true
    setMeta ma ⟨0, some (slot, gen), false, 0⟩
  else pure ()

/-- Whether a value satisfies a compare code against a target, unsigned (02 R54). -/
def cmpHolds (cmp v target : Nat) : Bool :=
  if cmp = 0 then v = target else if cmp = 1 then decide (target ≤ v) else if cmp = 2 then decide (v ≤ target) else false

/-- Whether the value under watch satisfies a wait: a compare of the 8-byte word, or a bit of the byte. -/
def watchHolds (cmp v target : Nat) : Bool := if cmp = 3 then bitSet v target else cmpHolds cmp v target

/-- What a watching arm makes of a write (09 R282): an arm whose wait the location now satisfies will
complete it at its next turn. `at_` reads n bytes of the written line at an IA. -/
def watchArm (world blk : Nat) (at_ : Nat → Nat → Nat) (x : Arm) : Arm :=
  match x.wait with
  | .watch w ia cmp target =>
    if w = world && ia / 512 = blk && watchHolds cmp (at_ ia (if cmp = 3 then 1 else 8)) target.toNat then
      { x with wait := .retry, joined := true }
    else x
  | .joinc w ia cmp target true _ =>
    if w = world && ia / 512 = blk && watchHolds cmp (at_ ia 8) target.toNat then
      { x with wait := .retry, joined := true }
    else x
  | _ => x

def watchTeam (world blk : Nat) (at_ : Nat → Nat → Nat) (t : Team) : Team :=
  { t with a0 := t.a0.map (watchArm world blk at_), a1 := t.a1.map (watchArm world blk at_) }

/-- The slice notifies the watching cores of a write to a line (09 R282). -/
def notifyWatch (world ia : Nat) (bytes : Tbl (BitVec 8)) : Act Unit :=
  modify fun s => { s with teams := s.teams.map fun e =>
    (e.1, watchTeam world (ia / 512) (fun a n => numLE (lineBytes bytes (a % 512) n)) e.2) }

/-- Change bytes inside one sector of the LLC line, which becomes dirty and the owner's (04 R106, R107; 20 R471,
R473). `ctx` is charged. -/
def llcChange (ctx : Option Nat) (owner world ia ma slot gen : Nat) (f : Tbl (BitVec 8) → Tbl (BitVec 8)) : Act Unit := do
  let l ← lineWith ctx world ia ma slot gen
  if l.poison then accessFault .dataError
  else do
    claimFree ctx ma slot gen
    notifyWatch world ia (f l.bytes)
    setLine (llcKey ma slot)
      { l with bytes := f l.bytes, dirty := l.dirty ||| BitVec.twoPow 8 (ma / 64 % 8), owner := owner }

/-- Write bytes inside one sector into the LLC line. -/
def llcWrite (ctx : Option Nat) (world ia ma slot gen : Nat) (bs : List (BitVec 8)) : Act Unit :=
  llcChange ctx (ctx.getD 0x3ff) world ia ma slot gen fun t => putBytes t (ma % 512) bs

/-- Write a whole 512-byte block, which clears its poison (20 R471). -/
def llcWriteBlock (ctx : Option Nat) (world ia ma slot gen : Nat) (bs : List (BitVec 8)) : Act Unit := do
  claimFree ctx ma slot gen
  notifyWatch world ia (putBytes [] 0 bs)
  touchTags ctx ma true
  setMeta ma { blockMetaOf (← get) ma with sealed := some (slot, gen), poison := false, bad := 0 }
  roomForLine ma (llcKey ma slot)
  setLine (llcKey ma slot) ⟨world, ia / 512, gen, 0xff, 0xff, putBytes [] 0 bs, ctx.getD 0x3ff, false, 0, 0⟩

/-! ### Write-backs of lines and chunks, recalls and promotion -/

/-- Whether a machine address lies in host memory that a link which is down cannot reach (21 R514). -/
def hostLost (s : State) (ma : Nat) : Bool := decide (0x200000000000 ≤ ma) && !s.cxlUp

/-- Whether the flows between two ports are stopped (20 R489). -/
def flowStopped (s : State) (a b : Nat × Nat) : Bool := s.stopped.contains (portOn a, portOn b)

/-- Whether a slice takes no request now: its queue is full (01 R22), or its stack is too hot (21 R511). -/
def sliceBusy (s : State) (i : Nat) : Bool := (sliceState s i).refuse || (sliceState s i).full

/-- Ask the host to give up a line that it owns (13 R376); true when it owns it, and its answer is to be awaited. -/
def snoopHost (ma : Nat) : Act Bool := do
  let s ← get
  if (find? s.hostOwned (ma / 64)).isSome then do
    set { s with snoops := insertNew s.snoops (ma / 64) }
    pure true
  else pure false

/-- A write-back of bytes of one sector from a core, under the pair that filled them (20 R480, R522): discarded
without record when the key has ended, with a record when the block is poisoned. A slice that is busy, or that awaits the
host's answer for the line, refuses it, and the line stays as it was (01 R22, 13 R376). `pay` is the context charged. -/
def backWrite (pay : Option Nat) (core owner world ia ma slot gen n : Nat) (f : Tbl (BitVec 8) → Tbl (BitVec 8)) : Act Unit := do
  if !keyCurrent (← get) slot gen || hostLost (← get) ma then pure ()
  else do
    let home := routerOfSlice (sliceOf ma)
    if flowStopped (← get) (coreRouter core) home then throw (.wait .refused)
    sendMessage pay world (coreRouter core) home .request n
    if sliceBusy (← get) (sliceOf ma) || (← snoopHost ma) then do
      sendMessage pay world home (coreRouter core) .ack 0
      throw (.wait .refused)
    else do
      chargeLlc pay ma
      match ← attempt (llcChange pay owner world ia ma slot gen f) with
      | .ok _ => pure ()
      | .error (.fault .dataError _) =>
        sliceRecord (sliceOf ma) { ErrRec.blank with type := 6, cls := 6, ctx := owner, world := world }
      | .error _ => pure ()
      sendMessage pay world home (coreRouter core) .ack 0

/-- The context that a write-back names: its owner. -/
def payer (owner : Nat) : Option Nat := if owner = 0x3ff then none else some owner

/-- Change a chunk that a block holds. -/
def modChunk (bid idx : Nat) (f : Chunk → Chunk) : Act Unit :=
  modBlock bid fun b => match find? b.chunks idx with
    | some c => { b with chunks := put b.chunks idx (f c) }
    | none => b

/-- Write a chunk's 256 bytes back, and leave it clean (04 R103). A recall is charged to its requester (03 R71). While a
slice refuses a piece the chunk stays dirty. -/
def backChunkFor (pay : Option (Option Nat)) (bid idx : Nat) : Act Unit := do
  match find? (← get).blocks bid with
  | none => pure ()
  | some b =>
    match find? b.chunks idx with
    | none => pure ()
    | some c =>
      if c.dirty then do
        each (List.range 4) fun i =>
          backWrite (pay.getD (payer c.owner)) b.core c.owner b.world (c.ia + 64 * i) (c.ma + 64 * i) c.slot c.gen 64
            fun t => putBytes t ((c.ma + 64 * i) % 512) (lineBytes b.stash (256 * idx + 64 * i) 64)
        modChunk bid idx fun c => { c with dirty := false }
      else pure ()

def backChunk (bid idx : Nat) : Act Unit := backChunkFor none bid idx

/-- A chunk is written back when dirty, leaves its owner, and the directory forgets it (04 R103, R104). -/
def dropChunk (pay : Option (Option Nat)) (bid idx : Nat) : Act Unit := do
  backChunkFor pay bid idx
  match find? (← get).blocks bid with
  | none => pure ()
  | some b =>
    match find? b.chunks idx with
    | none => pure ()
    | some c =>
      modBlock bid fun b => { b with chunks := del b.chunks idx }
      modify fun s => { s with dir := del s.dir (c.ma / 256) }

def recallChunk (bid idx : Nat) : Act Unit := dropChunk none bid idx

/-- The block and chunk that hold a machine address, on the core that the directory names (04 R104). -/
def chunkOwner (s : State) (ma : Nat) : Option (Nat × Nat) :=
  match find? s.dir (ma / 256) with
  | none => none
  | some core =>
    (s.blocks.filter fun e => e.2.core = core).findSome? fun e =>
      (e.2.chunks.find? fun c => c.2.ma / 256 = ma / 256).map fun c => (e.1, c.1)

def l1Key (ia world : Nat) : Nat := ia / 64 * 64 + world

/-- The dirty bytes of an L1 line with their offsets. -/
def dirtyBytes (l : L1Line) : List (Nat × BitVec 8) :=
  ((List.range 64).filter fun i => l.dirty.getLsbD i).map fun i => (i, rd l.bytes i)

/-- A core's L1 line, when it is dirty. -/
def dirtyLine (s : State) (core key : Nat) : Option L1Line := (find? (coreOf s core).l1 key).filter fun l => l.dirty != 0

/-- Write a dirty L1 line's dirty bytes back in one access, and leave it clean (04 R101, log entry 10). A chunk of a
stash that holds the same bytes is recalled by the slice first (R104), for the line's owner, which the write-back names (03
R71). While a slice refuses it the line stays dirty. -/
def backLineWith (takeBack : Option Nat → Nat → Act Unit) (core key : Nat) : Act Unit := do
  match dirtyLine (← get) core key with
  | none => pure ()
  | some l => do
    takeBack (payer l.owner) l.ma
    match dirtyLine (← get) core key with
    | none => pure ()
    | some l => do
      backWrite (payer l.owner) core l.owner l.world (l.ia * 64) l.ma l.slot l.gen (dirtyBytes l).length
        fun t => (dirtyBytes l).foldl (fun t e => wr t (l.ma % 512 + e.1) e.2) t
      modCore core fun c => { c with l1 := put c.l1 key { l with dirty := 0 } }

/-- Blocks resident on a core. -/
def blocksOn (s : State) (core : Nat) : List Nat :=
  (s.blocks.filter fun e => e.2.core = core && e.2.st = .resident).map (·.1)

/-- Write back every dirty mapped chunk of a block. -/
def backBlockChunks (bid : Nat) : Act Unit := do
  match find? (← get).blocks bid with
  | none => pure ()
  | some b => each b.chunks fun e => backChunk bid e.1

/-- Whether a release-table entry names a line that is dirty in the core's L1 or in a chunk of its blocks. -/
def namesDirty (s : State) (core : Nat) (e : RelEntry) : Bool :=
  (match find? (coreOf s core).l1 (e.line * 64 + e.world) with
    | some l => l.dirty != 0
    | none => false)
    || s.blocks.any fun b => b.2.core = core && b.2.world = e.world
      && b.2.chunks.any fun c => c.2.dirty && e.line / 4 = c.2.ia / 256

/-- Do something with some of a core's release-table entries taken out; what stops it puts them back. -/
def withoutEntries (core : Nat) (gone : RelEntry → Bool) (m : Act Unit) : Act Unit := do
  let was := (coreOf (← get) core).release
  modCore core fun c => { c with release := c.release.filter fun e => !gone e }
  match ← attempt m with
  | .ok _ => pure ()
  | .error e => do
    modCore core fun c => { c with release := was.filter fun x => gone x || c.release.contains x }
    throw e

/-- Promotion of the release-table entries that a test selects (05 R144, R145): every dirty line and chunk of the core
is written back, and the entries are removed; so are the entries that name a line written back with them. While a slice
refuses a write-back they stay. -/
def promoteWith (takeBack : Option Nat → Nat → Act Unit) (core : Nat) (p : RelEntry → Bool) : Act Unit := do
  let s ← get
  let c := coreOf s core
  if c.release.any p then
    withoutEntries core (fun e => p e || namesDirty s core e) do
      each c.l1 fun e => backLineWith takeBack core e.1
      each (blocksOn (← get) core) backBlockChunks
  else pure ()

/-- A slice recalls the chunk that holds a machine address (04 R104): the entries of its owner that name a line of it
are promoted first (05 R145). The recall and its answer are messages when they cross the NoC: not when the chunk's own
core makes way. The fuel bounds a chain of promotions, which each core starts at most once. -/
def recallDeep (pay : Option Nat) (by_ : Option Nat) : Nat → Nat → Act Unit
  | 0, _ => pure ()
  | n + 1, ma => do
    let s ← get
    match chunkOwner s ma with
    | none => pure ()
    | some (bid, i) =>
      match find? s.blocks bid with
      | none => pure ()
      | some b =>
        promoteWith (fun p => recallDeep p none n) b.core fun e => e.world = b.world && e.line / 4 =
          (((find? b.chunks i).map (·.ia)).getD 0) / 256
        let home := routerOfSlice (sliceOf ma)
        if (chunkOwner (← get) ma).isNone then pure ()
        else if by_ = some b.core then dropChunk (some pay) bid i
        else do
          sendMessage pay b.world home (coreRouter b.core) .recall 0
          dropChunk (some pay) bid i
          sendMessage pay b.world (coreRouter b.core) home .ack 0

/-- Cores of the device: no chain of promotions is longer. -/
def chainFuel : Nat := 768

/-- Write a dirty L1 line back. -/
def backLineBytes (core key : Nat) : Act Unit := backLineWith (fun p => recallDeep p none chainFuel) core key

/-- Write back every dirty L1 line and every dirty chunk of a core. -/
def backCore (core : Nat) : Act Unit := do
  each ((coreOf (← get) core).l1) fun e => backLineBytes core e.1
  each (blocksOn (← get) core) backBlockChunks

def promoteWhere (core : Nat) (p : RelEntry → Bool) : Act Unit := promoteWith (fun q => recallDeep q none chainFuel) core p

/-- Promotion of one release-table entry (05 R144). -/
def promote (core world line : Nat) : Act Unit :=
  promoteWhere core fun e => e.world = world && e.line = line

/-- Write back every dirty L1 line of a core; entries that name one are promoted (05 R145). -/
def backAllLines (core : Nat) : Act Unit := do
  let c := coreOf (← get) core
  promoteWhere core fun e =>
    match find? c.l1 (e.line * 64 + e.world) with
    | some l => l.dirty != 0
    | none => false
  each ((coreOf (← get) core).l1) fun e => backLineBytes core e.1

/-- Promote the entries that name a line of a chunk, before the chunk leaves its owner (05 R145). -/
def promoteChunk (bid idx : Nat) : Act Unit := do
  match find? (← get).blocks bid with
  | none => pure ()
  | some b =>
    match find? b.chunks idx with
    | none => pure ()
    | some c => promoteWhere b.core fun e => e.world = b.world && e.line / 4 = c.ia / 256

/-- An access of a requester to a machine address recalls the chunk that holds it (04 R104). The chunk of the
requester's own core makes way too, so that one copy stands (05 R153). -/
def recallFor (r : Req) (ma : Nat) : Act Unit := recallDeep r.ctx r.core chainFuel ma

/-! ### Release owners (05 R143-R145) -/

/-- The release owner of a line is forgotten (05 R144). -/
def clearOwner (world line : Nat) : Act Unit :=
  modify fun s => { s with relOwner := del s.relOwner (line * 64 + world) }

/-- The release owner of a line promotes, and is forgotten (05 R144). `but` is a core that need not; `ctx` is the context
whose request asks for it (03 R71). -/
def promoteOwner (ctx : Option Nat) (world ia : Nat) (but : Option Nat) : Act Unit := do
  match find? (← get).relOwner (ia / 64 * 64 + world) with
  | none => pure ()
  | some owner =>
    if some owner = but then pure ()
    else do
      let home := routerOfSlice (sliceOf ia)
      sendMessage ctx world home (coreRouter owner) .recall 0
      promote owner world (ia / 64)
      sendMessage ctx world (coreRouter owner) home .ack 0
      clearOwner world (ia / 64)

/-- The owners that a set of the release-owner table holds: 1,024 entries, 8 ways, so 128 sets by line number (log
entry 27). -/
def ownersOfSet (s : State) (line : Nat) : List (Nat × Nat) :=
  s.relOwner.filter fun e => e.1 / 64 % 128 = line % 128 && sliceOf (64 * (e.1 / 64)) = sliceOf (64 * line)

/-- Room for a core as a line's release owner: the owner that it replaces promotes first, and so does one that leaves a full
set (05 R145); which of the set leaves is free (04 R520; log entry 41). -/
def roomForOwner (ctx : Option Nat) (core world line : Nat) : Act Unit := do
  promoteOwner ctx world (64 * line) (some core)
  let key := line * 64 + world
  let others := (ownersOfSet (← get) line).filter fun e => e.1 != key
  if others.length < 8 || others.length < (ownersOfSet (← get) line).length then pure ()
  else do
    match ← victimOf others with
    | some e => promoteOwner ctx (e.1 % 64) (64 * (e.1 / 64)) none
    | none => pure ()

/-- The slice records a core as a line's release owner (05 R143). -/
def setOwner (ctx : Option Nat) (core world line : Nat) : Act Unit := do
  roomForOwner ctx core world line
  modify fun s => { s with relOwner := put s.relOwner (line * 64 + world) core }

/-- The flow that a hint travels in: from its core's cluster port to its line's slice (01 R21). -/
def hintFlow (h : Hint) : Nat × Nat := (clusterOfCore h.core, sliceOf (64 * h.line))

/-- The first hint of each flow: one flow delivers in order (01 R21). -/
def nextHint (s : State) (core world line : Nat) : Option Hint :=
  (s.hints.find? fun h => hintFlow h = (clusterOfCore core, sliceOf (64 * line))).filter fun h =>
    h.core = core && h.world = world && h.line = line

/-- A hint reaches its slice, which takes it unless it is busy: a hint that it refuses is sent again (05 R143, 01 R22). -/
def deliverHint (h : Hint) : Act Unit := do
  let home := routerOfSlice (sliceOf (64 * h.line))
  if flowStopped (← get) (coreRouter h.core) home then throw (.wait .refused)
  else if sliceBusy (← get) (sliceOf (64 * h.line)) then do
    sendMessage (some h.ctx) h.world home (coreRouter h.core) .ack 0
    sendMessage (some h.ctx) h.world (coreRouter h.core) home .manage 0
    throw (.wait .refused)
  else do
    setOwner (some h.ctx) h.core h.world h.line
    modify fun s => { s with hints := s.hints.erase h }

/-- The hint of a core for a line reaches its slice, when it is the next of its flow (05 R143, 01 R21). -/
def takeHint (core world line : Nat) : Act Unit := do
  match nextHint (← get) core world line with
  | some h => deliverHint h
  | none => pure ()

/-- A dirty line leaves an L1 cache: a release-table entry that names it is promoted first
(05 R145). -/
def backLine (core key : Nat) : Act Unit := do
  match (find? (coreOf (← get) core).l1 key).filter fun l => l.dirty != 0 with
  | some _ => do
    promote core (key % 64) (key / 64)
    backLineBytes core key
  | none => pure ()

/-- An L1 line is written back and invalidated. -/
def dropL1 (core key : Nat) : Act Unit := do
  backLine core key
  modCore core fun c => { c with l1 := del c.l1 key }

/-- Room for a release-table entry of a line: a free one is made by promoting the oldest (05 R143, R145). -/
def roomForRelease (core world ia : Nat) : Act Unit := do
  let c := coreOf (← get) core
  if 32 ≤ (c.release.filter fun e => !(e.world = world && e.line = ia / 64)).length then
    match c.release with
    | e :: _ => promote core e.world e.line
    | [] => pure ()
  else pure ()

/-- Record a release at scope 0 or 1, and send a hint to the home slice (05 R143, R145). -/
def recordRelease (core world ctx slot ia : Nat) : Act Unit := do
  let line := ia / 64
  roomForRelease core world ia
  modCore core fun c =>
    { c with release := c.release.filter (fun e => !(e.world = world && e.line = line)) ++ [⟨world, line, ctx, slot⟩] }
  sendMessage (some ctx) world (coreRouter core) (routerOfSlice (sliceOf ia)) .manage 0
  modify fun s => { s with hints := s.hints ++ [⟨core, world, line, ctx⟩] }

/-- A release at cluster scope or wider (04 R101, R103): every dirty L1 line of the core and every
dirty mapped chunk of the block is written back. -/
def releaseWide (core bid : Nat) : Act Unit := do
  backAllLines core
  match find? (← get).blocks bid with
  | some b => each (b.chunks.filter (·.2.dirty)) fun e => promoteChunk bid e.1
  | none => pure ()
  backBlockChunks bid

/-- An acquire at cluster scope or wider (04 R101): every L1 line of the core is invalidated, dirty
bytes being written back first. -/
def acquireWide (core : Nat) : Act Unit := do
  backAllLines core
  modCore core fun c => { c with l1 := [] }

/-! ### Translation at the home slice -/

/-- Read 8 bytes at a machine address for a stage-2 walk: the tables lie in MA, sealed under the hypervisor's key
(04 R93). A table entry that cannot be read retires its page (20 R473). -/
def readStage2Entry (ctx : Option Nat) (ma : Nat) : Act Nat := do
  chargeLlc ctx ma
  match ← attempt (llcRead ctx 64 0 ma hyperSlot 0 8) with
  | .ok bs => pure (numLE bs)
  | .error (.fault .dataError c) =>
    askRetire ma
    throw (.fault .dataError c)
  | .error x => throw x

/-- Stage 2 of a world for a guest-physical address (04 R93). -/
def walkStage2 (ctx : Option Nat) (world gpa : Nat) : Act WalkEnd := do
  walkStage true (readStage2Entry ctx) gpa 1 (worldOf (← get) world).s2root 3

/-- The machine address that a stage-2 leaf gives, or the fault (04 R88, R94, R127). -/
def stage2Address (s : State) (world gpa : Nat) : WalkEnd → Except Stop Nat
  | .absent => .error (.absent 2 world gpa)
  | .bad => .error (.fault .translationEncoding 3)
  | .leaf base units _ _ _ mig _ =>
    let ma := base + gpa % (units * 65536)
    if nameable s ma = false then .error (.fault .translationEncoding 3)
    else if mig then .error (.wait .refused)
    else .ok ma

/-- Read one stage-1 table entry: its GPA goes through stage 2, and the table is sealed under the
world's key (04 R93, 20 R479, R486). -/
def readStage1Entry (r : Req) (gpa : Nat) : Act Nat := do
  let e ← walkStage2 r.ctx r.world gpa
  let s ← get
  match stage2Address s r.world gpa e with
  | .error x => throw x
  | .ok ma =>
    chargeLlc r.ctx ma
    let gen := (keyOf s r.world).gen
    if !keyCurrent s r.world gen then accessFault .integrity
    else do
      recallFor { r with core := none } ma
      match ← attempt (llcRead r.ctx r.world 0 ma r.world gen 8) with
      | .ok bs => pure (numLE bs)
      | .error (.fault .dataError c) =>
        askRetire ma
        throw (.fault .dataError c)
      | .error x => throw x

def tlbKey (ia world slice : Nat) : Nat := (ia / 65536 * 64 + world) * 64 + slice

/-- Room for a combined entry in its set of 8 ways: 512 sets in each slice, by 64 KiB unit (04 R97, R520; log
entry 41). -/
def roomForPair (key : Nat) : Act Unit := do
  let set := (← get).tlb.filter fun e => e.1 != key && e.1 % 64 = key % 64 && e.1 / 4096 % 512 = key / 4096 % 512
  if set.length < 8 then pure ()
  else do
    match ← victimOf set with
    | some e => modify fun s => { s with tlb := del s.tlb e.1 }
    | none => pure ()

/-- The key slot that a stage-1 leaf's key field selects for a world, or a key fault (04 R96). -/
def keyField (s : State) (world key : Nat) : Option Nat :=
  if key = 0 then some world
  else if key < 64 then none
  else if (keyOf s key).owner = world then some key
  else none

/-- A fresh walk of both stages (04 R93-R97). The faults of one access are ordered by 18 R425 step 12:
permission, translation encoding, key, page. -/
def walk (r : Req) (ia : Nat) (k : AccKind) : Act TlbEntry := do
  let w := worldOf (← get) r.world
  let e1 ← walkStage false (readStage1Entry r) ia 1 w.s1root 3
  let s ← get
  match e1 with
  | .absent => throw (.absent 1 r.world ia)
  | .bad => accessFault .translationEncoding
  | .leaf base1 units1 r1 w1 x1 _ key =>
    if !permits r1 w1 x1 k then accessFault .permission
    else
      let gpa := base1 + ia % (units1 * 65536)
      let e2 ← walkStage2 r.ctx r.world gpa
      match e2 with
      | .bad => accessFault .translationEncoding
      | .absent =>
        if (keyField s r.world key).isNone then accessFault .keyFault
        else throw (.absent 2 r.world gpa)
      | .leaf base2 units2 r2 w2 x2 mig _ =>
        let ma := base2 + gpa % (units2 * 65536)
        if !permits r2 w2 x2 k then accessFault .permission
        else if nameable s ma = false then accessFault .translationEncoding
        else
          match keyField s r.world key with
          | none => accessFault .keyFault
          | some slot =>
            if mig then throw (.wait .refused)
            else
              let e : TlbEntry :=
                ⟨ia / 65536 / units1 * units1, gpa / 65536, ma / 65536, units1, units2, r1 && r2, w1 && w2, x1 && x2,
                  slot, (keyOf s slot).gen, false⟩
              roomForPair (tlbKey ia r.world (sliceOf ia))
              modify fun s => { s with tlb := put s.tlb (tlbKey ia r.world (sliceOf ia)) e }
              pure e

/-- Whether a request comes from the CXL port or a Rensar port, whose failures have records of their own
(13 R376, 20 R482). -/
def fromOutside (r : Req) : Bool := r.core.isNone && r.bid.isNone && decide (r.src.2 % 4 = 3)

/-- A translation-encoding fault also writes an error record to firmware (04 R99, 17 R415 type 5). -/
def withEncodingRecord {α : Type} (r : Req) (ia : Nat) (m : Act α) : Act α := do
  match ← attempt m with
  | .ok a => pure a
  | .error (.fault .translationEncoding c) =>
    if fromOutside r then throw (.fault .translationEncoding c)
    sliceRecord (sliceOf ia)
      { ErrRec.blank with type := 5, cls := 3, ctx := r.ctx.getD 0x3ff, world := r.world, core := r.core.getD 0x3ff
                          info := { DumpInfo.none with ia := ia } }
    throw (.fault .translationEncoding c)
  | .error x => throw x

/-- A request to the home slice of an IA and the slice's answer, over the two networks (01 R19): `n` data bytes go with
the request and `back` come with the answer, an acknowledgement when there are none. A slice that refuses answers with
a negative acknowledgement, and the request has no effect there (R22, 21 R511); a stopped flow takes none (20 R489). -/
def atHome {α : Type} (r : Req) (ia n back : Nat) (m : Act α) : Act α := do
  let home := routerOfSlice (sliceOf ia)
  if flowStopped (← get) r.src home then throw (.wait .refused)
  else do
    sendMessage r.ctx r.world r.src home .request n
    if sliceBusy (← get) (sliceOf ia) then do
      sendMessage r.ctx r.world home r.src .ack 0
      throw (.wait .refused)
    else
      match ← attempt m with
      | .ok a => do
        sendMessage r.ctx r.world home r.src (if back = 0 then .ack else .data) back
        pure a
      | .error e => do
        sendMessage r.ctx r.world home r.src .ack 0
        throw e

/-- The combined translation of an access at its home slice: the cached pair or a fresh walk, its permission, and
step 1 of 20 R472 (04 R98, R113). A key replica being recovered answers with a negative acknowledgement (20 R491). -/
def translate (r : Req) (ia : Nat) (k : AccKind) : Act TlbEntry := do
  let s ← get
  let i := sliceOf ia
  let e ← match find? s.tlb (tlbKey ia r.world i) with
    | some e => if permits e.rd e.wr e.ex k then pure e else accessFault .permission
    | none => withEncodingRecord r ia (walk r ia k)
  let s ← get
  if (keyOf s e.slot).badReplicas.contains i then throw (.wait .refused)
  else if e.erased || !keyCurrent s e.slot e.gen then accessFault .integrity
  else pure e

/-- The machine address of an IA under a translation. -/
def maOf (e : TlbEntry) (ia : Nat) : Nat := e.ma * 65536 + ia % 65536

/-- An access to host memory over a link that is down takes a data error (21 R514). -/
def reachHost (ma : Nat) : Act Unit := do
  if hostLost (← get) ma then accessFault .dataError else pure ()

/-- What the home slice does for a read of n bytes inside one sector (04 R104, R106): the pair it used, and the
bytes. -/
def serveRead (r : Req) (ia n : Nat) (k : AccKind) : Act (TlbEntry × List (BitVec 8)) := do
  let e ← translate r ia k
  reachHost (maOf e ia)
  recallFor r (maOf e ia)
  chargeLlc r.ctx (maOf e ia)
  let bs ← withEncodingRecord r ia (llcRead r.ctx r.world ia (maOf e ia) e.slot e.gen n)
  pure (e, bs)

/-- Read n bytes inside one sector at the home slice. -/
def sliceRead (r : Req) (ia n : Nat) (k : AccKind) : Act (List (BitVec 8)) := do
  let x ← atHome r ia 0 n (serveRead r ia n k)
  pure x.2

/-- Whether a request is the host's own, through the CXL port. -/
def fromHost (r : Req) : Bool := fromOutside r && decide (r.src = routerOfCxl)

/-- A line that the host owns is snooped before a device agent writes it; the writer waits for the
answer (13 R376). -/
def snoopFirst (r : Req) (ma : Nat) : Act Unit := do
  if fromHost r then pure ()
  else if ← snoopHost ma then throw (.wait .refused) else pure ()

/-- Write bytes inside one sector at the home slice. -/
def sliceWrite (r : Req) (ia : Nat) (bs : List (BitVec 8)) (k : AccKind) : Act Unit :=
  atHome r ia bs.length 0 do
    let e ← translate r ia k
    reachHost (maOf e ia)
    snoopFirst r (maOf e ia)
    recallFor r (maOf e ia)
    chargeLlc r.ctx (maOf e ia)
    withEncodingRecord r ia (llcWrite r.ctx r.world ia (maOf e ia) e.slot e.gen bs)

/-- One read-modify-write of the slice's atomic unit (04 R107): the bytes before it. -/
def sliceRmw (r : Req) (ia n : Nat) (k : AccKind) (f : Nat → Nat) : Act Nat :=
  atHome r ia n n do
    let e ← translate r ia k
    reachHost (maOf e ia)
    snoopFirst r (maOf e ia)
    recallFor r (maOf e ia)
    chargeLlc r.ctx (maOf e ia)
    chargeBase (quadOfSlice (sliceOf ia)) r.ctx clsAtomic 1
    withEncodingRecord r ia do
      let old ← llcRead r.ctx r.world ia (maOf e ia) e.slot e.gen n
      llcWrite r.ctx r.world ia (maOf e ia) e.slot e.gen (bytesLE n (f (numLE old)))
      pure (numLE old)

/-- Whether the access of a kind would be allowed: translated and checked, nothing moved. -/
def probe (r : Req) (ia : Nat) (k : AccKind) : Act TlbEntry := atHome r ia 0 0 (translate r ia k)

/-- Cut a range of IAs at sector boundaries: address and length of each piece. -/
def sectorsOf : Nat → Nat → Nat → List (Nat × Nat)
  | 0, _, _ => []
  | f + 1, ia, n =>
    if n = 0 then []
    else if n ≤ 64 - ia % 64 then [(ia, n)]
    else (ia, 64 - ia % 64) :: sectorsOf f (ia + (64 - ia % 64)) (n - (64 - ia % 64))

/-- Read any range of one world's IAs at the home slices. -/
def readRange (r : Req) (ia n : Nat) (k : AccKind) : Act (List (BitVec 8)) := do
  let parts ← collect (sectorsOf (n / 64 + 2) ia n) fun p => sliceRead r p.1 p.2 k
  pure parts.flatten

/-- Write any range of one world's IAs at the home slices, in increasing order. -/
def writePieces (r : Req) (ia : Nat) : List (Nat × Nat) → List (BitVec 8) → Act Unit
  | [], _ => pure ()
  | p :: t, bs => do
    sliceWrite r p.1 (bs.take p.2) .write
    writePieces r ia t (bs.drop p.2)

def writeRange (r : Req) (ia : Nat) (bs : List (BitVec 8)) : Act Unit :=
  writePieces r ia (sectorsOf (bs.length / 64 + 2) ia bs.length) bs

/-- Write one whole 512-byte block at its home slice, which clears its poison (20 R471). -/
def sliceWriteBlock (r : Req) (ia : Nat) (bs : List (BitVec 8)) : Act Unit :=
  atHome r ia 512 0 do
    let e ← translate r ia .write
    reachHost (maOf e ia)
    each (List.range 8) fun i => snoopFirst r (maOf e ia + 64 * i)
    recallFor r (maOf e ia)
    recallFor r (maOf e ia + 256)
    each (List.range 8) fun i => chargeLlc r.ctx (maOf e ia + 64 * i)
    llcWriteBlock r.ctx r.world ia (maOf e ia) e.slot e.gen bs

/-- Poison the block of an IA in the LLC, as a store of a poisoned word does (20 R471). -/
def poisonIa (r : Req) (ia : Nat) : Act Unit :=
  atHome r ia 4 0 do
    let e ← translate r ia .write
    snoopFirst r (maOf e ia)
    let k := llcKey (maOf e ia) e.slot
    roomForLine (maOf e ia) k
    let l := (find? (← get).llc k).getD (LlcLine.fresh r.world (ia / 512) e.gen)
    setLine k { l with poison := true }

end Sys2Proof.Machine
end

