-- ==== Sys2Proof/Machine/Access.lean ====
section
/-! DEFINITION. Accesses as a team makes them: range registers (04 R89, R90), the L1 data cache (R101),
the stash and its mapped chunks (R102-R104), and accesses to a peer package (09 R271). -/
namespace Sys2Proof.Machine
open Sys2Proof

/-! ### Range registers -/

def rrOf (c : Context) (i : Nat) : RangeReg := (find? c.rr i).getD ⟨0, 0, 0⟩
def rrValid (r : RangeReg) : Bool := bitSet r.w0.toNat 0
def rrCache (r : RangeReg) : Nat := bitsOf r.w0.toNat 4 2
def rrBase (r : RangeReg) : Nat := bitsOf r.w0.toNat 16 40 * 65536
def rrSize (r : RangeReg) : Nat := bitsOf r.w1.toNat 0 40 * 65536
def rrIa (r : RangeReg) : Nat := bitsOf r.w2.toNat 0 36 * 65536
def rrPermits (r : RangeReg) (k : AccKind) : Bool :=
  rangePermits (bitSet r.w0.toNat 1) (bitSet r.w0.toNat 2) (bitSet r.w0.toNat 3) k

/-- The lowest-numbered valid range register that holds a VA (04 R90). -/
def rangeFor (c : Context) (va : Nat) : Option RangeReg :=
  ([0, 1, 2, 3, 4, 5, 6, 7].map (rrOf c)).find? fun r =>
    rrValid r && decide (rrBase r ≤ va) && decide (va < rrBase r + rrSize r)

/-- The IA and cacheability of an access to a VA, or none for a range fault (04 R90). -/
def rangeTranslate (c : Context) (va : Nat) (k : AccKind) : Option (Nat × Nat) :=
  match rangeFor c va with
  | none => none
  | some r =>
    let ia := rrIa r + (va - rrBase r)
    if rrPermits r k && rrCache r ≠ 3 && decide (ia < 2 ^ 52) && decide (va < 2 ^ 56) then some (ia, rrCache r) else none

/-- Where the range registers map a VA, whatever accesses they permit (04 R90). -/
def rangePlace (c : Context) (va : Nat) : Option Nat :=
  match rangeFor c va with
  | none => none
  | some r =>
    let ia := rrIa r + (va - rrBase r)
    if rrCache r ≠ 3 && decide (ia < 2 ^ 52) && decide (va < 2 ^ 56) then some ia else none

/-- The IA of a VA of a context, or the range fault (04 R90). VA bits 63:56 must be zero (09 R269). -/
def iaFor (ctx va : Nat) (k : AccKind) : Act (Nat × Nat) := do
  match rangeTranslate (contextOf (← get) ctx) va k with
  | some x => pure x
  | none => accessFault .range

/-! ### Peers (09 R271; log entry 11) -/

/-- The peer package that an IA is forwarded to, if any. -/
def peerOf (s : State) (ia : Nat) : Option Nat :=
  (s.peerWindows.find? fun w => decide (w.1 ≤ ia) && decide (ia < w.1 + w.2.1)).map (·.2.2)

/-- The port that serves a package (log entry 11). -/
def portFor (pkg : Nat) : Nat := pkg % 16

/-- The first transaction number of a port that is neither in use nor held (13 R380, 20 R484). -/
def freeTx (p : Port) : Option Nat :=
  (List.range 4096).find? fun i => (find? p.jobs i).isNone && !p.heldTx.contains i

/-- The core whose outstanding request a port's job is; an engine's belongs to none. -/
def jobCore (s : State) : PeerJob → Option Nat
  | .load tid _ _ _ _ _ _ => ((find? s.teams tid).bind fun t => find? s.blocks t.bid).map (·.core)
  | .posted _ _ _ _ _ core => some core
  | .engine _ _ _ => none

/-- The outstanding requests of a core, each with its port (01 R10). Requests to slices end in the step in which they
are made (log entry 5), so they are those to peers. -/
def outstandingOf (s : State) (core : Nat) : List PeerJob :=
  s.ports.flatMap fun p => (p.2.jobs.filter fun j => jobCore s j.2 = some core).map (·.2)

/-- The counter of the next message that a port sends under a world's link key, or under the fabric key, 64 (13 R378, R379;
04 R114). -/
def nextCtr (port world : Nat) : Act Nat := do
  let f := (find? (portOf (← get) port).flows world).getD ⟨0, 0⟩
  modPort port fun p => { p with flows := put p.flows world { f with sent := f.sent + 1 } }
  pure (f.sent + 1)

/-- Data flits that carry n bytes from an address on (13 R378). -/
def flitsAt (ia n : Nat) : Nat := if n = 0 then 0 else (ia % 64 + n + 63) / 64

/-- A message leaves by a port under a key of it, 64 for the fabric key: its counter rises, and its tag covers its header and
its data (13 R378, R379). -/
def sendRensar (port key : Nat) (h : RensarHdr) (bytes : List (BitVec 8)) : Act Unit := do
  let ctr ← nextCtr port key
  let mac := Config.linkTag port key [h.type, h.len, h.dst, h.src, h.world, h.tag, h.ia, h.txid, h.rest, ctr] bytes
  modify fun s => { s with hostBox := s.hostBox ++ [.rensar port { h with ctr := ctr, mac := mac, good := true } bytes] }

/-- The header of a request to a package for n bytes at an IA. The manual's header names flits alone: which bytes of them an
access is, and whether it is an atomic, stands in the reserved bytes (DESIGN CHOICE, log entry 11). -/
def requestHdr (pkg type tag world ia tx n : Nat) (atomic : Bool) : RensarHdr :=
  ⟨type, flitsAt ia n % 16, pkg, Config.packageId, world, tag, ia / 64 * 64, tx, ia % 64 + 64 * n + if atomic then 65536 else 0,
    0, 0, true⟩

/-- Whose request a job is, as its sender says. -/
def askerOf (s : State) (r : Req) (write : Bool) (job : PeerJob) : Asker :=
  match job with
  | .load tid _ _ _ _ _ _ =>
    match find? s.teams tid, find? s.blocks (tid / 8) with
    | some t, some b => ⟨r.ctx.map fun _ => workContext t b, r.world, tid / 8, b.core, write⟩
    | _, _ => ⟨r.ctx, r.world, tid / 8, 0, write⟩
  | .posted tid _ _ ctx _ core => ⟨r.ctx.map fun _ => ctx, r.world, tid / 8, core, write⟩
  | .engine op _ _ =>
    match find? s.ops op with
    | some o => ⟨r.ctx, r.world, o.bid, o.core, write⟩
    | none => ⟨r.ctx, r.world, 0, 0, write⟩

/-- The outstanding requests to peers, with whose they are. -/
def askersOf (s : State) : List Asker := s.ports.flatMap fun p => p.2.askers.map (·.2)

/-- Send a request to a peer and keep what its answer is for: port * 4096 + transaction number. When
every number or every request place of the core is in use the unit waits (13 R380, 01 R10), as it does for a port
without power (R386). Type 16 and 17 are an atomic that returns and one that does not (log entry 11). -/
def sendPeer (r : Req) (pkg type tag ia len : Nat) (bytes : List (BitVec 8)) (job : PeerJob) : Act Nat := do
  let n := portFor pkg
  wakeUnit n 12
  let s ← get
  let p := portOf s n
  if !unitOn s n 12 then throw (.wait .room)
  else if (match jobCore s job with
      | some c => decide (256 ≤ (outstandingOf s c).length)
      | none => false) then throw (.wait .room)
  else match freeTx p with
  | none => throw (.wait .room)
  | some tx => do
    setPort n { p with
      jobs := put p.jobs tx job, sentAt := put p.sentAt tx s.time, askers := put p.askers tx (askerOf s r (type != 1) job) }
    sendMessage r.ctx r.world r.src (routerOfPort n) .request bytes.length
    chargeBase n r.ctx clsRensar (1 + flitsAt ia bytes.length)
    let type' := if type = 16 then 1 else if type = 17 then 0 else type
    sendRensar n r.world (requestHdr pkg type' tag r.world ia tx len (decide (16 ≤ type))) bytes
    pure (n * 4096 + tx)

/-! ### The requester of a block -/

/-- The requester for accesses of a block's teams from its core. -/
def reqOf (b : Block) (bid : Nat) (fw : Bool) : Req :=
  ⟨routerOfCluster (clusterOfCore b.core), some b.core, some bid, if fw then none else some b.ctx, b.world⟩

/-! ### The L1 data cache (04 R101) -/

/-- Room for a line in its set of 8 ways: 256 sets of 64-byte lines, by line number (04 R101, R520; log entry 41). -/
def roomForL1 (core key : Nat) : Act Unit := do
  let set := (coreOf (← get) core).l1.filter fun e => e.1 != key && e.1 / 64 % 256 = key / 64 % 256
  if set.length < 8 then pure ()
  else do
    match ← victimOf set with
    | some e => dropL1 core e.1
    | none => pure ()

/-- What the home slice does for a fill: a line that is to be written is first taken from the host (13 R376). -/
def serveFill (r : Req) (ia n : Nat) (k : AccKind) : Act (TlbEntry × List (BitVec 8)) := do
  if k = .write then do
    let e ← translate r ia k
    snoopFirst r (maOf e ia)
  else pure ()
  serveRead r ia n k

/-- The home slice confirms that an access of a kind is allowed to what a core already holds (04 R96, R99); a line that is to
be written is taken from the host (13 R376). -/
def confirm (r : Req) (ia ma : Nat) (k : AccKind) : Act Unit :=
  atHome r ia 0 0 do
    let _ ← translate r ia k
    if k = .write then snoopFirst r ma else pure ()

/-- Whether the host owns a line (13 R376). -/
def hostOwns (s : State) (ma : Nat) : Bool := (find? s.hostOwned (ma / 64)).isSome

/-- An L1 line for an IA with a permission confirmed, filled from the home slice. -/
def l1Fill (r : Req) (core ia : Nat) (k : AccKind) : Act L1Line := do
  let base := ia / 64 * 64
  roomForL1 core (l1Key ia r.world)
  let (e, bs) ← atHome r base 0 64 (serveFill r base 64 k)
  let l : L1Line :=
    ⟨r.world, ia / 64, maOf e base, e.slot, e.gen, k = .read, k = .write, putBytes [] 0 bs, 0, 0x3ff⟩
  modCore core fun c => { c with l1 := put c.l1 (l1Key ia r.world) l }
  pure l

/-- Read n bytes at an IA by way of the core's L1, under a cacheability; `alloc` is false for LDNC. A hit on a line that was
filled for stores asks its home slice for the leaves' rd once (04 R96, R99). -/
def l1Read (r : Req) (core ia cache n : Nat) (alloc : Bool) : Act (List (BitVec 8)) := do
  if cache = 2 then
    dropL1 core (l1Key ia r.world)
    sliceRead r ia n .read
  else
    match find? (coreOf (← get) core).l1 (l1Key ia r.world) with
    | some l => do
      if l.rdOk then pure ()
      else do
        confirm r ia l.ma .read
        modCore core fun c => { c with l1 := put c.l1 (l1Key ia r.world) { l with rdOk := true } }
      pure (lineBytes l.bytes (ia % 64) n)
    | none =>
      if cache = 1 || !alloc then sliceRead r ia n .read
      else do
        let l ← l1Fill r core ia .read
        pure (lineBytes l.bytes (ia % 64) n)

/-- The mask of n bytes from an offset of a line. -/
def byteMask (off n : Nat) : BitVec 64 := BitVec.ofNat 64 ((2 ^ n - 1) * 2 ^ off)

/-- Write bytes at an IA by way of the core's L1: a hit needs write permission in the line
(04 R101, 09 R271), and a line that the host has taken since is asked for again (13 R376). -/
def l1Write (r : Req) (core ia cache owner : Nat) (bs : List (BitVec 8)) : Act Unit := do
  let key := l1Key ia r.world
  if cache = 2 then
    dropL1 core key
    sliceWrite r ia bs .write
  else
    let hit := find? (coreOf (← get) core).l1 key
    if cache = 1 && hit.isNone then sliceWrite r ia bs .write
    else do
      let l ← match hit with
        | some l =>
          if l.wrOk && !hostOwns (← get) l.ma then pure l
          else do
            confirm r ia l.ma .write
            pure { l with wrOk := true }
        | none => l1Fill r core ia .write
      let l := { l with bytes := putBytes l.bytes (ia % 64) bs
                        dirty := l.dirty ||| byteMask (ia % 64) bs.length
                        owner := owner }
      modCore core fun c => { c with l1 := put c.l1 key l }

/-! ### Stash chunks (04 R102-R104) -/

/-- The mapped region of a block that holds a VA. -/
def regionFor (b : Block) (va : Nat) : Option Region :=
  (b.regions.find? fun e => decide (e.2.va ≤ va) && decide (va < e.2.va + e.2.size)).map (·.2)

/-- The mapped region that holds a stash offset. -/
def regionAt (b : Block) (off : Nat) : Option Region :=
  (b.regions.find? fun e => decide (e.2.off ≤ off) && decide (off < e.2.off + e.2.size)).map (·.2)

/-- The directory's set of a chunk: 2,048 sets of 16 ways in each slice, by chunk number (04 R104; log entry 41). -/
def dirSet (ma : Nat) : Nat × Nat := (sliceOf ma, (ma / 32768 * 2 + ma / 256 % 2) % 2048)

/-- Room for a chunk in its directory set: one that is there is recalled when the set overflows (04 R104). -/
def roomForChunk (pay : Option Nat) (ma : Nat) : Act Unit := do
  let set := (← get).dir.filter fun e => e.1 != ma / 256 && dirSet (256 * e.1) = dirSet ma
  if set.length < 16 then pure ()
  else do
    match ← victimOf set with
    | some e => recallDeep pay none chainFuel (256 * e.1)
    | none => pure ()

/-- The core's L1 lines of a chunk leave it, so that the chunk is its one copy of those bytes (05 R132, R153). -/
def dropLinesOf (core world ia : Nat) : Act Unit :=
  each (List.range 4) fun i => dropL1 core (l1Key (ia / 256 * 256 + 64 * i) world)

/-- The chunk at a stash offset of a mapped region, filled when it was invalid (04 R103). The fill takes the chunk from
any other owner, and the directory records the core (R104). Each kind of access needs the leaves' permission (R96, R99),
which the chunk keeps once a slice has confirmed it. -/
def chunkFill (r : Req) (bid off va : Nat) (k : AccKind) : Act Chunk := do
  let s ← get
  match find? s.blocks bid with
  | none => accessFault .stashRange
  | some b =>
    match find? b.chunks (off / 256) with
    | some c =>
      let (ia, _) ← iaFor b.ctx va k
      let ma := c.ma + off % 256
      let s ← get
      if (if k = .write then c.wrOk && !hostOwns s ma else c.rdOk) then pure c
      else do
        confirm r ia ma k
        let c := { c with rdOk := c.rdOk || k = .read, wrOk := c.wrOk || k = .write }
        modBlock bid fun b => { b with chunks := put b.chunks (off / 256) c }
        pure c
    | none => do
      let (ia, _) ← iaFor b.ctx (va / 256 * 256) k
      dropLinesOf b.core r.world ia
      let parts ← collect (List.range 4) fun i => atHome r (ia + 64 * i) 0 64 (
        if i = off % 256 / 64 then serveFill r (ia + 64 * i) 64 k else serveRead r (ia + 64 * i) 64 k)
      match parts with
      | [] => accessFault .stashRange
      | (e, _) :: _ => do
        let c : Chunk := ⟨ia, maOf e ia, e.slot, e.gen, false, 0x3ff, k = .read, k = .write⟩
        roomForChunk r.ctx c.ma
        modBlock bid fun b =>
          { b with chunks := put b.chunks (off / 256) c
                   stash := putBytes b.stash (off / 256 * 256) (parts.flatMap (·.2)) }
        modify fun s => { s with dir := put s.dir (c.ma / 256) b.core }
        pure c

/-- Cut a stash range at the boundaries of its 256-byte chunks. -/
def chunkPieces : Nat → Nat → Nat → List (Nat × Nat)
  | 0, _, _ => []
  | f + 1, off, n =>
    if n = 0 then []
    else if n ≤ 256 - off % 256 then [(off, n)]
    else (off, 256 - off % 256) :: chunkPieces f (off + (256 - off % 256)) (n - (256 - off % 256))

/-- Whether a stash word at an offset is poisoned (20 R471). -/
def stashBad (b : Block) (off n : Nat) : Bool :=
  b.stashPoison.any fun w => decide (off / 4 ≤ w) && decide (w ≤ (off + n - 1) / 4)

/-- Fill, confirm and answer the chunks of a stash range that is mapped, in their order (04 R103): a range may cross a
chunk's edge, and a region's. -/
def chunksFor (r : Req) (bid : Nat) (b : Block) (k : AccKind) (ps : List (Nat × Nat)) : Act Unit :=
  each ps fun p => match regionAt b p.1 with
    | some g => do
      let _ ← chunkFill r bid p.1 (g.va + (p.1 - g.off)) k
    | none => pure ()

/-- Bytes of a block's stash at an offset, through its chunks where they are mapped. A poisoned
word gives a data error (20 R473). -/
def stashRead (r : Req) (bid off n : Nat) : Act (List (BitVec 8)) := do
  match find? (← get).blocks bid with
  | none => accessFault .stashRange
  | some b =>
    chunksFor r bid b .read (chunkPieces (n / 256 + 2) off n)
    match find? (← get).blocks bid with
    | none => accessFault .stashRange
    | some b => if stashBad b off n then accessFault .dataError else pure (lineBytes b.stash off n)

/-- Write bytes of a block's stash; its chunks become dirty and the context their owner (04 R103,
20 R473). A write of a whole word clears its poison (20 R471). -/
def stashWrite (r : Req) (bid off owner : Nat) (bs : List (BitVec 8)) : Act Unit := do
  match find? (← get).blocks bid with
  | none => accessFault .stashRange
  | some b =>
    let ps := chunkPieces (bs.length / 256 + 2) off bs.length
    chunksFor r bid b .write ps
    each ps fun p => if (regionAt b p.1).isSome then
        modChunk bid (p.1 / 256) fun c => { c with dirty := true, owner := owner }
      else pure ()
    modBlock bid fun b =>
      { b with stash := putBytes b.stash off bs
               stashPoison := b.stashPoison.filter fun w =>
                 !(decide (off ≤ 4 * w) && decide (4 * w + 4 ≤ off + bs.length)) }

/-! ### Global accesses of a block's teams -/

/-- Read n bytes (at most 8, naturally aligned) at a VA: by the mapped chunk, or by the L1 under the
cacheability of the range register (09 R270). Peers are the caller's. -/
def readVa (r : Req) (b : Block) (bid va n : Nat) (alloc : Bool) : Act (List (BitVec 8)) := do
  match regionFor b va with
  | some g => stashRead r bid (g.off + (va - g.va)) n
  | none =>
    let (ia, cache) ← iaFor b.ctx va .read
    l1Read r b.core ia cache n alloc

/-- Write bytes (at most 8, naturally aligned) at a VA (09 R270). -/
def writeVa (r : Req) (b : Block) (bid va : Nat) (bs : List (BitVec 8)) : Act Unit := do
  let owner := r.ctx.getD 0x3ff
  match regionFor b va with
  | some g => stashWrite r bid (g.off + (va - g.va)) owner bs
  | none =>
    let (ia, cache) ← iaFor b.ctx va .write
    l1Write r b.core ia cache owner bs

/-- Before an atomic, or an access that goes to the home slice past the L1, the core writes back and
invalidates its own chunk or line of the address (09 R270, 05 R132). -/
def flushOwn (r : Req) (b : Block) (bid va ia : Nat) : Act Unit := do
  match regionFor b va with
  | some g =>
    promoteChunk bid ((g.off + (va - g.va)) / 256)
    recallChunk bid ((g.off + (va - g.va)) / 256)
  | none => pure ()
  dropL1 b.core (l1Key ia r.world)

/-- The core on which a block is resident gives up its L1 line of an address, before a write at the home slice that the
block's waits at block scope are to find there (05 R129, R136, R138). -/
def dropForBlock (bid world ia : Nat) : Act Unit := do
  match (find? (← get).blocks bid).filter fun b => b.st = .resident with
  | some b => dropL1 b.core (l1Key ia world)
  | none => pure ()

/-- Read n bytes at a VA of a context at the home slices, each piece translated on its own
(04 R90). -/
def readRecord (r : Req) (ctx va n : Nat) : Act (List (BitVec 8)) := do
  let parts ← collect (sectorsOf (n / 64 + 2) va n) fun p => do
    let (ia, _) ← iaFor ctx p.1 .read
    sliceRead r ia p.2 .read
  pure parts.flatten

/-- Write pieces of a record at a VA at the home slices. -/
def writeRecordPieces (r : Req) (ctx : Nat) : List (Nat × Nat) → List (BitVec 8) → Act Unit
  | [], _ => pure ()
  | p :: t, bs => do
    let (ia, _) ← iaFor ctx p.1 .write
    sliceWrite r ia (bs.take p.2) .write
    writeRecordPieces r ctx t (bs.drop p.2)

/-- Write a record at a VA at the home slices. -/
def writeRecord (r : Req) (ctx va : Nat) (bs : List (BitVec 8)) : Act Unit :=
  writeRecordPieces r ctx (sectorsOf (bs.length / 64 + 2) va bs.length) bs

end Sys2Proof.Machine
end

