-- ==== Sys2Proof/Machine/Ops.lean ====
section
/-! DEFINITION. Operations on a team's registers, window, stacks and arms (02 R28-R46, 07 R192-R201,
08 R215-R224), and taking a trap and returning from one (17 R399-R407, 08 R229). -/
namespace Sys2Proof.Machine
open Sys2Proof

/-! ### Launch records (12 R354) -/

/-- The i-th 8-byte word of a launch record. -/
def launchWord (l : Launch) (i : Nat) : Nat := (l.words.getD i 0).toNat
def launchEntry (l : Launch) : Nat := launchWord l 0
def launchStream (l : Launch) : Nat := launchWord l 1
def launchHandler (l : Launch) : Nat := launchWord l 2
def fieldWidth (l : Launch) (i : Nat) : Nat := bitsOf (launchWord l 4) (6 * i) 6
def fieldExtent (l : Launch) (i : Nat) : Nat := Nat.max (bitsOf (launchWord l (5 + i)) 0 49) 1
def launchLanes (l : Launch) : Nat := 32 * (bitsOf (launchWord l 11) 0 5 + 1)
def launchTeams (l : Launch) : Nat := bitsOf (launchWord l 11) 5 3 + 1
def launchWeight (l : Launch) : Nat := 2 ^ bitsOf (launchWord l 11) 8 2
def launchFrame (l : Launch) : Nat := 8 * (bitsOf (launchWord l 11) 10 9 + 1)
def launchTiles (l : Launch) : Nat := bitsOf (launchWord l 11) 19 6
def launchStash (l : Launch) : Nat := 4096 * bitsOf (launchWord l 11) 32 8
def launchPriority (l : Launch) : Nat := bitsOf (launchWord l 11) 40 4
def launchIdempotent (l : Launch) : Bool := bitSet (launchWord l 11) 44
def launchSpecialise (l : Launch) : Bool := bitSet (launchWord l 11) 45
def launchContext (l : Launch) : Nat := bitsOf (launchWord l 11) 47 10
def launchStatic (l : Launch) : Nat := bitsOf (launchWord l 12) 0 16
def launchGang (l : Launch) : Nat := bitsOf (launchWord l 12) 16 16
def launchSeed (l : Launch) : Nat := launchWord l 13
def launchHint (l : Launch) : Nat := launchWord l 14
def launchBitmap (l : Launch) : Nat := launchWord l 15
def launchCounter (l : Launch) : Nat := launchWord l 16
def launchSpill (l : Launch) : Nat := launchWord l 17
def launchSpillSize (l : Launch) : Nat := bitsOf (launchWord l 18) 0 32
def launchFrames (l : Launch) : Nat := launchWord l 19
def launchNframes (l : Launch) : Nat := bitsOf (launchWord l 20) 0 16
def launchWindowAddr (l : Launch) : Nat := launchWord l 22
def launchWindowSize (l : Launch) : Nat := bitsOf (launchWord l 23) 0 17
def launchConst (l : Launch) (i : Nat) : DWord := l.words.getD (24 + i) 0
/-- The two words of format slot i (06 R175). -/
def launchFormat (l : Launch) (i : Nat) : Nat × Nat := (launchWord l (40 + 2 * i), launchWord l (41 + 2 * i))

/-- A launch with nothing in its record. -/
def Launch.blank : Launch :=
  ⟨[], 0, 0, 0, 0, [], 0, false, 0, [], .notGang, [], 0, 0, none, false⟩

def launchOf (s : State) (i : Nat) : Launch := (find? s.launches i).getD Launch.blank

/-! ### Lanes and masks -/

/-- The lanes of a team in a given state (02 R29). -/
def lanesIn (t : Team) (p : LaneState → Bool) : Mask :=
  maskOf ((List.range t.lanes).filter fun l => match t.lane[l]? with
    | some x => p x.st
    | none => false)

/-- The team's lanes that have not exited, and those that are live (02 R29). -/
def presentLanes (t : Team) : Mask := lanesIn t fun x => x != .exited
def liveLanes (t : Team) : Mask := lanesIn t fun x => x == .live
def helperLanes (t : Team) : Mask := lanesIn t fun x => x == .helper

/-- Mask register n of a team; m0 reads as every lane (00 R6, 08 R233). -/
def maskReg (t : Team) (n : Nat) : Mask :=
  if n = 0 then fullMask t.lanes else (find? t.mreg n).getD 0

/-- Fields of a mode register (07 R195). -/
def modeGuard (m : BitVec 16) : Nat := bitsOf m.toNat 0 3
def modeEtype (m : BitVec 16) : Nat := bitsOf m.toNat 3 4
def modeRnd (m : BitVec 16) : Nat := bitsOf m.toNat 7 3
def modeSat (m : BitVec 16) : Bool := bitSet m.toNat 10
def modeFsub (m : BitVec 16) : Bool := bitSet m.toNat 11

/-- The mode in which a team starts (07 R195). -/
def modeStart : BitVec 16 := 0x0050#16

/-! ### Arms -/

/-- Arm a of a team: 0 the unsplit or fall-through arm, 1 the taken arm (12 R367). -/
def armOf (t : Team) (a : Nat) : Option Arm := if a = 0 then t.a0 else t.a1

/-- Replace arm a of a team. -/
def withArm (t : Team) (a : Nat) (x : Option Arm) : Team :=
  if a = 0 then { t with a0 := x } else { t with a1 := x }

/-- Change arm a of a team, when it is there. -/
def modArm (tid a : Nat) (f : Arm → Arm) : Act Unit :=
  modTeam tid fun t => match armOf t a with
    | some x => withArm t a (some (f x))
    | none => t

/-- The governing mask of an arm (02 R30). -/
def governing (t : Team) (x : Arm) : Mask := x.exec &&& maskReg t (modeGuard x.mode)

/-- What an instruction being performed works on: its place and binding time, the team, arm, block and
launch as they stood when it began, and its governing mask. -/
structure Cx where
  tid : Nat
  arm : Nat
  bt : Bt
  t : Team
  a : Arm
  b : Block
  l : Launch
  gm : Mask

/-- The requester of the instruction's accesses. -/
def Cx.req (c : Cx) : Req :=
  { reqOf c.b c.t.bid c.t.firmware with ctx := if c.t.firmware then none else some (workContext c.t c.b) }

/-! ### Registers -/

/-- The place of v_i of a lane in the register file (07 R197). -/
def vKey (t : Team) (i lane : Nat) : Nat := (t.w + i) % Nat.max t.frame 1 * 1024 + lane

/-- v_i of a lane. -/
def readV (t : Team) (i lane : Nat) : Word := rd t.v (vKey t i lane)

/-- s_i, 64 bits (07 R192). -/
def readS (t : Team) (i : Nat) : DWord := rd t.sreg i

/-- One lane's 32-bit operand in a D slot (07 R192): s and k give their low 32 bits to every lane. -/
def opWord (c : Cx) (lane : Nat) : Opnd → Word
  | .v i => readV c.t i lane
  | .s i => (readS c.t i).setWidth 32
  | .k i => (launchConst c.l i).setWidth 32

/-- One lane's 64-bit operand in a D slot: an even v pair, low word first (06 R157). -/
def opPair (c : Cx) (lane : Nat) : Opnd → DWord
  | .v i => (readV c.t (i + 1) lane) ++ (readV c.t i lane)
  | .s i => readS c.t i
  | .k i => launchConst c.l i

/-- The operand of a T or S slot (07 R192). -/
def opScalar (c : Cx) : Opnd → DWord
  | .v _ => 0
  | .s i => readS c.t i
  | .k i => launchConst c.l i

/-- Write one v word of a team: the write clears the word's poison (20 R471). -/
def putV (t : Team) (i lane : Nat) (x : Word) : Team :=
  { t with v := wr t.v (vKey t i lane) x, vPoison := dropAll t.vPoison (vKey t i lane) }

/-- Write v_i in each listed lane. -/
def putVs (t : Team) (i : Nat) : List (Nat × Word) → Team
  | [] => t
  | (l, x) :: r => putVs (putV t i l x) i r

/-- Write the pair v_i, v_i+1 in each listed lane. -/
def putPairs (t : Team) (i : Nat) : List (Nat × DWord) → Team
  | [] => t
  | (l, x) :: r => putPairs (putV (putV t i l (x.setWidth 32)) (i + 1) l (x.extractLsb' 32 32)) i r

/-- Write s_i. -/
def putS (t : Team) (i : Nat) (x : DWord) : Team := { t with sreg := wr t.sreg i x }

/-- Write an s destination. -/
def writeS (c : Cx) (d : Opnd) (x : DWord) : Act Unit :=
  match d with
  | .s i => modTeam c.tid fun t => putS t i x
  | _ => pure ()

/-- Write a v word destination in the listed lanes. -/
def writeVs (c : Cx) (d : Opnd) (xs : List (Nat × Word)) : Act Unit :=
  match d with
  | .v i => modTeam c.tid fun t => putVs t i xs
  | _ => pure ()

/-- Write a v pair destination in the listed lanes. -/
def writePairs (c : Cx) (d : Opnd) (xs : List (Nat × DWord)) : Act Unit :=
  match d with
  | .v i => modTeam c.tid fun t => putPairs t i xs
  | _ => pure ()

/-- A write to a mask register changes only the bits under `scope` (08 R234). -/
def putMask (t : Team) (n : Nat) (scope x : Mask) : Team :=
  if n = 0 then t
  else { t with mreg := wr t.mreg n ((maskReg t n &&& ~~~scope) ||| (x &&& scope)) }

def writeMask (c : Cx) (n : Nat) (scope x : Mask) : Act Unit :=
  modTeam c.tid fun t => putMask t n scope x

/-! ### Spill areas (12 R359) -/

/-- The first VA of the team's spill area, its size, and whether there is one. -/
def spillBase (c : Cx) : Nat :=
  launchSpill c.l + (c.b.frameIx.getD 0 * c.b.nteams + c.t.idx) * launchSpillSize c.l

/-- Where the spilled entries of stack k lie: 0 the team's, 1 and 2 the arms'. -/
def stackPart (c : Cx) (k : Nat) : Nat :=
  spillBase c + launchSpillSize c.l - (122880 - 40960 * k)

/-- The lowest lane of an instruction's trap sets, when they are the governing mask, or the execution mask outside a D slot
(17 R399). -/
def lowLane (c : Cx) : Nat := (lanesOf c.t.lanes (if c.bt = .d then c.gm else c.a.exec)).headD 0

/-- The whole-instruction trap of an access to the spill area (18 R435, 17 R405). -/
def spillTrap (c : Cx) (x : Cause) (cls va kind : Nat) : Trap :=
  { wholeTrap x with cls := cls, detail := va, laneWord := lowLane c + 1024 * kind }

/-- A store or load of the spill area whose fault is a whole-instruction trap with its VA (18 R435). -/
def spillAccess {α : Type} (c : Cx) (va : Nat) (k : AccKind) (m : Act α) : Act α := do
  match ← attempt m with
  | .ok a => pure a
  | .error (.fault x cls) => throw (.trap (spillTrap c x cls va (kindCode k)))
  | .error (.absent st w a) => throw (.spill st w a va (kindCode k))
  | .error x => throw x

def spillStore (c : Cx) (va : Nat) (bs : List (BitVec 8)) : Act Unit :=
  spillAccess c va .write (writeVa c.req c.b c.t.bid va bs)

def spillLoad (c : Cx) (va n : Nat) : Act (List (BitVec 8)) :=
  spillAccess c va .read (readVa c.req c.b c.t.bid va n true)

/-! ### The register window (07 R197-R199) -/

/-- The physical word of register r of group j in a lane. -/
def groupKey (t : Team) (j r l : Nat) : Nat := (8 * j + r) % Nat.max t.frame 1 * 1024 + l

/-- Where the word lies in the spill area. -/
def groupVa (c : Cx) (t : Team) (j r l : Nat) : Nat := spillBase c + 32 * t.lanes * j + 4 * (t.lanes * r + l)

/-- Poison the LLC line of a VA, past the core's own copies (20 R471). -/
def poisonVa (c : Cx) (va : Nat) : Act Unit := do
  let (ia, _) ← iaFor c.b.ctx va .write
  flushOwn c.req c.b c.t.bid va ia
  poisonIa c.req ia

/-- The passes of a spill or refill of one register group: one for each word of lanes of each of its 8 registers,
charged as the stores or loads that they are, at the stash's or the L1's weight (03 R70, 07 R198). -/
def chargeGroup (c : Cx) (t : Team) (j : Nat) : Act Unit :=
  chargeTeam c.tid (if (regionFor c.b (groupVa c t j 0 0)).isSome then clsStash else clsL1) (8 * ((t.lanes + 31) / 32))

/-- Spill register group j: 8 registers of every lane (07 R198). A spill area of 0, or a group that
would reach the team-stack part, is the window overflow (R199, 12 R359). Poison goes with its word. -/
def spillGroup (c : Cx) (t : Team) (j : Nat) : Act Unit := do
  require (launchSpill c.l ≠ 0) .windowOverflow
  require (decide (32 * t.lanes * (j + 1) ≤ launchSpillSize c.l - 122880)) .windowOverflow
  chargeGroup c t j
  each (List.range 8) fun r => each (List.range t.lanes) fun l =>
    spillStore c (groupVa c t j r l) (bytesLE 4 (rd t.v (groupKey t j r l)).toNat)
  if t.vPoison.isEmpty then pure ()
  else each (List.range 8) fun r => each (List.range t.lanes) fun l =>
    if t.vPoison.contains (groupKey t j r l) then spillAccess c (groupVa c t j r l) .write (poisonVa c (groupVa c t j r l))
    else pure ()

/-- Refill register group j from the spill area (07 R198); a poisoned word comes back poisoned
(20 R471). -/
def refillGroup (c : Cx) (t : Team) (j : Nat) : Act Unit := do
  require (launchSpill c.l ≠ 0) .windowOverflow
  chargeGroup c t j
  each (List.range 8) fun r => each (List.range t.lanes) fun l => do
    let k := groupKey t j r l
    match ← attempt (spillLoad c (groupVa c t j r l) 4) with
    | .ok bs => modTeam c.tid fun t =>
        { t with v := wr t.v k (BitVec.ofNat 32 (numLE bs)), vPoison := dropAll t.vPoison k }
    | .error (.trap x) =>
      if x.cause = .dataError then modTeam c.tid fun t => { t with vPoison := insertNew t.vPoison k }
      else throw (.trap x)
    | .error e => throw e

/-- Make logical register x resident (07 R198). -/
def makeResident (c : Cx) (x : Nat) : Nat → Act Unit
  | 0 => pure ()
  | n + 1 => do
    match find? (← get).teams c.tid with
    | none => pure ()
    | some t =>
      if x < t.lo + t.frame then pure ()
      else
        spillGroup c t (t.lo / 8)
        modTeam c.tid fun t => { t with lo := t.lo + 8 }
        makeResident c x n

/-- Restore residency down to the window base, as RET does (07 R198). -/
def restoreResident (c : Cx) : Nat → Act Unit
  | 0 => pure ()
  | n + 1 => do
    match find? (← get).teams c.tid with
    | none => pure ()
    | some t =>
      if t.lo ≤ t.w then pure ()
      else
        modTeam c.tid fun t => { t with lo := t.lo - 8 }
        refillGroup c t ((t.lo - 8) / 8)
        restoreResident c n

/-! ### Reconvergence stacks (02 R44, R45) -/

/-- Stack k of a team: 0 the team's, 1 the fall-through arm's, 2 the taken arm's. -/
def stackOf (t : Team) (k : Nat) : Stack :=
  if k = 0 then t.stack
  else match armOf t (k - 1) with
    | some x => x.stack
    | none => Stack.empty

def withStack (t : Team) (k : Nat) (st : Stack) : Team :=
  if k = 0 then { t with stack := st }
  else match armOf t (k - 1) with
    | some x => withArm t (k - 1) (some { x with stack := st })
    | none => t

/-- The stack that an arm uses: its own while the team is split, else the team's. -/
def stackIx (t : Team) (a : Nat) : Nat := if t.split then a + 1 else 0

def stackDepth (st : Stack) : Nat := st.hw.length + st.spilled

/-- Hardware entries of the team, over its three stacks. -/
def hwHeld (t : Team) : Nat := t.stack.hw.length + (stackOf t 1).hw.length + (stackOf t 2).hw.length

def kindBits : EntryKind → Nat
  | .split => 0 | .loop => 1 | .trap => 2 | .call => 3

/-- A stack entry as it is spilled: 160 bytes (02 R44). -/
def entryBytes (e : StackEntry) : List (BitVec 8) :=
  bytesLE 2 (kindBits e.kind + (if e.dual then 4 else 0) + 8 * e.slot) ++ bytesLE 2 e.mode.toNat ++
  bytesLE 4 e.count.toNat ++ bytesLE 8 e.rejoin ++ bytesLE 8 e.pending ++ bytesLE 128 e.mask.toNat ++
  bytesLE 4 (crown e.mask).toNat ++ bytesLE 4 0

def kindOfBits : Nat → EntryKind
  | 0 => .split | 1 => .loop | 2 => .trap | _ => .call

/-- A stack entry read back, or none when 18 R436 refuses it. -/
def entryOfBytes (bs : List (BitVec 8)) : Option StackEntry :=
  let h := numLE (bs.take 2)
  let rejoin := numLE ((bs.drop 8).take 8)
  let pending := numLE ((bs.drop 16).take 8)
  let kind := kindOfBits (h % 4)
  let slot := h / 8 % 8
  if h / 64 ≠ 0 || numLE ((bs.drop 156).take 4) ≠ 0 || rejoin / 2 ^ 56 ≠ 0 || pending / 2 ^ 56 ≠ 0 then none
  else if rejoin % 32 ≠ 0 then none
  else if decide (kind ≠ EntryKind.call) && pending % 32 ≠ 0 then none
  else if decide (kind = EntryKind.call) && (pending % 8 ≠ 0 || decide (4088 < pending)) then none
  else if (decide (kind = EntryKind.trap) || decide (kind = EntryKind.call)) && slot = 0 then none
  else some ⟨kind, bitSet h 2, slot, BitVec.ofNat 16 (numLE ((bs.drop 2).take 2)),
    BitVec.ofNat 32 (numLE ((bs.drop 4).take 4)), rejoin, pending,
    BitVec.ofNat 1024 (numLE ((bs.drop 24).take 128)), 0⟩

/-- The arm whose own stack stack k is counts one more or one less spilled CALL entry (07 R199). -/
def countCall (t : Team) (k : Nat) (e : StackEntry) (f : Nat → Nat) : Team :=
  if k = 0 || decide (e.kind ≠ EntryKind.call) then t
  else match armOf t (k - 1) with
    | some x => withArm t (k - 1) (some { x with calls := f x.calls })
    | none => t

/-- The stack that holds the team's oldest hardware entry: always the lowest of its stack (02 R45). An entry refilled
from the spill area has age 0, below every pushed one; of two such entries the lower stack's counts as the older
(DESIGN CHOICE, log entry 42: the manual orders only pushes). -/
def oldestStack (t : Team) : Option Nat :=
  let cands := [0, 1, 2].filterMap fun k => ((stackOf t k).hw.getLast?).map fun e => (k, e.age)
  match cands with
  | [] => none
  | x :: r => some (r.foldl (fun a e => if e.2 < a.2 then e else a) x).1

/-- Pieces of at most 8 bytes from an address. -/
def piecesOf (va : Nat) : Nat → List (BitVec 8) → List (Nat × List (BitVec 8))
  | 0, _ => []
  | n + 1, bs => if bs.isEmpty then [] else (va, bs.take 8) :: piecesOf (va + 8) n (bs.drop 8)

/-- Write the team's oldest hardware entry to its stack part (02 R45). -/
def spillEntry (c : Cx) : Act Unit := do
  match find? (← get).teams c.tid with
  | none => pure ()
  | some t =>
    match oldestStack t with
    | none => pure ()
    | some k =>
      let st := stackOf t k
      match st.hw.getLast? with
      | none => pure ()
      | some e =>
        require (launchSpill c.l ≠ 0) .windowOverflow
        each (piecesOf (stackPart c k + 160 * st.spilled) 20 (entryBytes e)) fun p => spillStore c p.1 p.2
        modTeam c.tid fun t => countCall (withStack t k ⟨st.hw.dropLast, st.spilled + 1⟩) k e (· + 1)

/-- Make room for one more hardware entry (02 R45). -/
def roomForEntry (c : Cx) : Act Unit := do
  match find? (← get).teams c.tid with
  | none => pure ()
  | some t => if 16 ≤ hwHeld t then spillEntry c else pure ()

/-- Push an entry onto stack k: at most 256 entries (02 R45, 18 R434). -/
def pushOn (c : Cx) (k : Nat) (e : StackEntry) : Act Unit := do
  match find? (← get).teams c.tid with
  | none => pure ()
  | some t =>
    require (decide (stackDepth (stackOf t k) < 256)) .stackOverflow
    roomForEntry c
    modTeam c.tid fun t =>
      let st := stackOf t k
      { withStack t k ⟨{ e with age := t.pushes + 1 } :: st.hw, st.spilled⟩ with pushes := t.pushes + 1 }

/-- Push onto the arm's stack. -/
def push (c : Cx) (e : StackEntry) : Act Unit := do
  match find? (← get).teams c.tid with
  | none => pure ()
  | some t => pushOn c (stackIx t c.arm) e

/-- The top entry of stack k, refilled first when it is spilled (02 R45). A refused entry raises a
stack mismatch, and nothing is popped (18 R436). -/
def topOf (c : Cx) (k : Nat) : Act (Option StackEntry) := do
  match find? (← get).teams c.tid with
  | none => pure none
  | some t =>
    let st := stackOf t k
    match st.hw with
    | e :: _ => pure (some e)
    | [] =>
      if st.spilled = 0 then pure none
      else do
        let va := stackPart c k + 160 * (st.spilled - 1)
        let parts ← collect (List.range 20) fun i => spillLoad c (va + 8 * i) 8
        match entryOfBytes parts.flatten with
        | none => raise .stackMismatch
        | some e =>
          roomForEntry c
          modTeam c.tid fun t => countCall (withStack t k ⟨[e], (stackOf t k).spilled - 1⟩) k e (· - 1)
          pure (some e)

/-- Drop the top hardware entry of stack k. -/
def dropTop (c : Cx) (k : Nat) : Act Unit :=
  modTeam c.tid fun t => withStack t k ⟨(stackOf t k).hw.tail, (stackOf t k).spilled⟩

/-- The top entry of the arm's stack. -/
def top (c : Cx) : Act (Option StackEntry) := do
  match find? (← get).teams c.tid with
  | none => pure none
  | some t => topOf c (stackIx t c.arm)

/-- Pop the arm's top entry, which has been read. -/
def pop (c : Cx) : Act Unit := do
  match find? (← get).teams c.tid with
  | none => pure ()
  | some t => dropTop c (stackIx t c.arm)

/-- The top entry of the arm's stack, of a given kind, or a stack mismatch (08 R224, R229, R232). -/
def topKind (c : Cx) (k : EntryKind) : Act StackEntry := do
  match ← top c with
  | some e => if e.kind = k then pure e else raise .stackMismatch
  | none => raise .stackMismatch

/-! ### Where an arm goes next -/

/-- PC of slot k of the bundle at b (07 R184). -/
def pcOf (b slot : Nat) : Nat := b + 4 * slot

/-- The place after slot k of a bundle (07 R185). -/
def nextPlace (b slot : Nat) : Nat × Nat := if slot < 7 then (b, slot + 1) else (b + 32, 1)

/-- What follows the performance of an instruction. -/
inductive Next where
  | on                          -- the next slot
  | to (target : Nat)           -- slot 1 of a bundle
  | back (bundle slot : Nat)    -- a resume point
  | gone                        -- the arm is at no place any more, or its place is already set
deriving DecidableEq, Repr

/-- Move an arm to a place. -/
def placeArm (tid a : Nat) (bundle slot came : Nat) : Act Unit :=
  modArm tid a fun x => { x with pc := bundle, slot := slot, came := came }

/-- Move the arm past its instruction. -/
def advance (c : Cx) : Next → Act Unit
  | .on =>
    let p := nextPlace c.a.pc c.a.slot
    placeArm c.tid c.arm p.1 p.2 (pcOf c.a.pc c.a.slot)
  | .to t => placeArm c.tid c.arm t 1 (pcOf c.a.pc c.a.slot)
  | .back b k => placeArm c.tid c.arm b k (pcOf c.a.pc c.a.slot)
  | .gone => pure ()

/-! ### Lookahead windows (07 R201) -/

/-- Count one executed instruction against the open windows. -/
def windowsAfter (ws : List Window) : List Window :=
  (ws.map fun w => { w with left := w.left - 1 }).filter fun w => decide (0 < w.left)

/-- Whether an instruction touches the destination of an open window. -/
def windowHit (ws : List Window) (regs : List Nat) : Bool :=
  ws.any fun w => w.regs.any fun r => regs.contains r

/-! ### Taking a trap (17 R406) -/

/-- Registers of a trap frame (17 R403-R405). -/
def causeWord (t : Trap) : DWord :=
  BitVec.ofNat 64 (causeCode t.cause + 256 * t.cls + 65536 * t.imm
    + (if t.async then 2 ^ 58 else 0) + (if t.more then 2 ^ 59 else 0))

/-- The residual-code part of a cause word: counts, their number and the residual bit, from w1 of the
back-map entry (17 R404). -/
def residualBits (w1 : Nat) : DWord :=
  BitVec.ofNat 64 (bitsOf w1 24 24 * 2 ^ 32 + bitsOf w1 48 2 * 2 ^ 56 + 2 ^ 60)

/-- Whether a stack holds a TRAP entry. Spilled entries lie below; a TRAP entry among them is found by
reading them. -/
def hwHolds (st : Stack) (k : EntryKind) : Bool := st.hw.any fun e => e.kind = k

/-- Whether spilled entry n of stack k is of a kind, read from the spill area. -/
def spilledKind (c : Cx) (k n : Nat) : Act (Option StackEntry) := do
  match ← attempt (collect (List.range 20) fun i => spillLoad c (stackPart c k + 160 * n + 8 * i) 8) with
  | .ok parts => pure (entryOfBytes parts.flatten)
  | .error _ => pure none

/-- Whether any spilled entry of stack k, among the lowest n, is of a kind. -/
def spilledHolds (c : Cx) (k : Nat) (kind : EntryKind) : Nat → Act Bool
  | 0 => pure false
  | n + 1 => do
    match ← spilledKind c k n with
    | some e => if e.kind = kind then pure true else spilledHolds c k kind n
    | none => spilledHolds c k kind n

/-- Whether stack k holds an entry of a kind. -/
def stackHolds (c : Cx) (k : Nat) (kind : EntryKind) : Act Bool := do
  match find? (← get).teams c.tid with
  | none => pure false
  | some t =>
    if hwHolds (stackOf t k) kind then pure true
    else spilledHolds c k kind (stackOf t k).spilled

/-- Whether an arm runs inside a handler: its stack holds a TRAP entry. Under an arm of a split team lies the team's own
stack, on which a team that splits inside its handler has its entry (02 R45, 17 R407). -/
def inHandler (c : Cx) (a : Nat) : Act Bool := do
  match find? (← get).teams c.tid with
  | none => pure false
  | some t =>
    if ← stackHolds c (stackIx t a) .trap then pure true
    else if t.split then stackHolds c 0 .trap
    else pure false

/-- A new resumable fault of an arm (04 R100), still to be taken up by the firmware. -/
def noteFault (bid : Nat) (op : Option Nat) (stream : Nat) (stage world addr : Nat) : Act Nat := do
  let id ← freshId
  modify fun s => { s with faults := put s.faults id ⟨stage, world, addr, bid, op, stream, 0⟩ }
  modBlock bid fun b => { b with faults := b.faults ++ [id] }
  pure id

/-- The causes of accesses to data, whose s46 is a VA (17 R405). -/
def isAccessCause : Cause → Bool
  | .alignment => true
  | .range => true
  | .permission => true
  | .translationEncoding => true
  | .keyFault => true
  | .integrity => true
  | .pageFault => true
  | .dataError => true
  | _ => false

/-- The IA of a trap's failed access, 0 for none (17 R418): its s46 when it was a peer's, else where the context's range
registers put its VA. -/
def failedIa (x : Context) (t : Trap) : Nat :=
  if t.ia ≠ 0 then t.ia
  else if t.cause = .remoteAccess then t.detail
  else if isAccessCause t.cause && !t.fetch then ((rangeTranslate x t.detail .read).map (·.1)).getD 0
  else 0

/-- The object of a trap's dump (17 R418): the completion record of the engine operation that an asynchronous error names. -/
def objectOf (t : Trap) : Nat := if t.cause = .asyncError && t.laneWord = 0 then t.detail else 0

/-- The end of the context for an unhandled trap (17 R406, R411, R437): type 1, class 16, the original
cause. -/
def unhandled (c : Cx) (t : Trap) (pc : Nat) (extra : DWord) : Act Unit := do
  let gm := if c.bt = .d then c.gm else c.a.exec
  let ia := failedIa (contextOf (← get) c.b.ctx) t
  endContext c.b.ctx ⟨1, 16, causeCode t.cause, c.b.core, (pc + 2 ^ 32 - launchEntry c.l % 2 ^ 32) % 2 ^ 32,
    ⟨pc, (causeWord t ||| extra).toNat, t.detail, t.laneWord, t.faulted.getD gm, t.completed, objectOf t, t.prior, ia⟩, Source.core⟩

/-- Every entry of a world, in any partition. -/
def specEntries (s : State) (world : Nat) : List SpecEntry :=
  s.partitions.flatMap fun e => e.2.spec.filter fun x => x.world = world

/-- The specialiser's entry of the residual code that a block runs (12 R369): the launch's, in whichever of its partitions
the block stands. -/
def residualCode (s : State) (b : Block) (l : Launch) : Option (Nat × SpecEntry) :=
  if !b.residual then none
  else match l.spec, (worldOf s b.world).backing with
    | some key, some base => ((specEntries s b.world).find? fun e => e.key = key && (e.st = 1 || e.st = 4)).map fun e => (base, e)
    | _, _ => none

/-- Blocks that use an entry's residual code: resident, saved and parked ones (12 R369). -/
def refsOf (s : State) (e : SpecEntry) : Nat :=
  (s.blocks.filter fun b => b.2.residual && b.2.world = e.world && b.2.st != .pending && b.2.st != .retired
    && (launchOf s b.2.launch).spec = some e.key).length

/-- The 32-bit word of a directory entry that holds its state and its refs (12 R369). -/
def refsWord (s : State) (e : SpecEntry) : Nat := (if e.st = 4 then 0 else e.st) + refsOf s e % 2 ^ 30 * 4

/-- Where the directory holds a key. -/
def dirAt (base : Nat) (key : BitVec 128) : Nat := base + 64 * (key.toNat % 4096)

/-- The entries of a world in every partition, changed. -/
def modEntries (world : Nat) (f : SpecEntry → Option SpecEntry) : Act Unit :=
  modify fun s => { s with partitions := s.partitions.map fun (e : Nat × Partition) =>
    (e.1, { e.2 with spec := e.2.spec.filterMap fun x => if x.world = world then f x else some x }) }

/-- The region of residual code of a world holds an address (07 R188, 12 R369). -/
def inResidual (s : State) (world ia : Nat) : Bool :=
  match (worldOf s world).backing with
  | some b => decide (b + 262144 ≤ ia) && decide (ia < b + 33554432)
  | none => false

/-- The requester for the backing region: accesses by IA under the world, past any range register. -/
def regionRead (r : Req) (ia n : Nat) : Act (List (BitVec 8)) := readRange r ia n .read

/-- The back-map entry of the residual bundle at an address, four words (12 R372), and the region's
base; none outside residual code. The table holds as many entries as the code has bundles (DEDUCED: the entry of the
directory gives no other length, log entry 17), and an index past it is an illegal encoding (18 R426). -/
def backEntry (r : Req) (b : Block) (l : Launch) (bundle : Nat) : Act (Option (Nat × List Nat)) := do
  let s ← get
  match (residualCode s b l).filter fun _ => inResidual s b.world bundle with
  | none => pure none
  | some (base, e) => do
    let w ← regionRead r bundle 4
    let i := numLE w / 65536
    require (decide (i < e.bundles)) .illegalEncoding
    let bs ← regionRead r (base + 8 * e.map + 32 * i) 32
    pure (some (base, (List.range 4).map fun j => numLE ((bs.drop (8 * j)).take 8)))

/-- The back-map entry of a bundle of a team's code. -/
def backMap (c : Cx) (bundle : Nat) : Act (Option (Nat × List Nat)) := backEntry c.req c.b c.l bundle

/-- The original PC of a slot of a residual bundle (12 R372). -/
def originalPc (ws : List Nat) (slot : Nat) : Nat :=
  bitsOf (ws.getD 0 0) 0 56 + 4 * bitsOf (ws.getD 1 0) (3 * slot - 3) 3

/-- The owed list of a back-map entry: registers with their values (12 R372). -/
def owedList (r : Req) (base : Nat) (ws : List Nat) : Act (Tbl DWord) := do
  let off := bitsOf (ws.getD 2 0) 0 32
  collect (List.range (bitsOf (ws.getD 2 0) 32 16)) fun i => do
    let bs ← regionRead r (base + off + 16 * i) 16
    pure (numLE (bs.take 1) - 192, BitVec.ofNat 64 (numLE (bs.drop 8)))

/-- An arm comes to a residual bundle: what the bundle owes takes the place of what was owed before, but for a value that
a handler has replaced since it was folded (12 R372, R373). -/
def takeOwed (xs : Tbl DWord) (x : Arm) : Arm :=
  { x with
    owed := (xs.filter fun e => find? x.given e.1 != some e.2).foldl (fun t e => put t e.1 e.2)
      (x.owed.filter fun e => (find? xs e.1).isNone)
    given := x.given.filter fun e => match find? xs e.1 with
      | some v => v = e.2
      | none => true }

/-- Owed registers that satisfy a test are written and are owed no more; the values are kept, to tell which of them a
handler replaces (12 R372, R373). -/
def payOwed (arm : Nat) (p : Nat → Bool) (t : Team) : Team :=
  match armOf t arm with
  | none => t
  | some x =>
    if x.owed.isEmpty then t
    else
      let paid := x.owed.filter fun e => p e.1
      withArm (paid.foldl (fun t e => putS t e.1 e.2) t) arm
        (some { x with owed := x.owed.filter fun e => !p e.1, given := paid.foldl (fun t e => put t e.1 e.2) x.given })

/-- Before a handler runs every owed register is written (12 R373). -/
def giveOwed (arm : Nat) (t : Team) : Team := payOwed arm (fun _ => true) t

/-- A data or integrity error on residual code or its back-map (19 R465): an idempotent launch's block is to
be flushed and restarted unspecialised, and the entry freed; else the context ends. -/
def residualLost (bid : Nat) (b : Block) (l : Launch) (cls : Nat) : Act Unit := do
  if launchIdempotent l then
    modBlock bid fun b => { b with preempt := .flush }
    modEntries b.world fun e => some (if l.spec = some e.key then { e with st := 4 } else e)
  else endContext b.ctx ⟨2, cls, 0, b.core, 0, DumpInfo.none, Source.core⟩

/-- A data or an integrity error. -/
def isLost (x : Cause) : Bool := x = .dataError || x = .integrity

/-- An earlier try of the arm has met a resolution of failure. -/
def redoFailed (x : Arm) : Bool := match x.redo with
  | some r => r.failed != 0
  | none => false

/-- A trap as it is kept for later: with its faulted set, which the agent in focus tells (17 R400). -/
def keptTrap (c : Cx) (t : Trap) : Trap :=
  { t with faulted := some (t.faulted.getD (if c.bt = .d then c.gm else c.a.exec)) }

/-- A trap that could not be delivered yet waits with its arm for a resumable fault. -/
def holdTrap (c : Cx) (kept : Trap) (st w a va kind : Nat) : Act Unit := do
  let id ← noteFault c.t.bid none 0 st w a
  modArm c.tid c.arm fun x =>
    { x with held := some kept, wait := .fault, redo := some ⟨c.a.exec, 0, 0, kind, 0, some id, c.a.exec, va⟩ }

/-- What the delivery of a trap depends on: the back-map entry of the arm's bundle (12 R372), whether the arm runs inside a
handler, and whether the other arm of a split team does. -/
structure TrapPlace where
  back : Option (Nat × List Nat)
  within : Bool
  other : Bool

def trapPlace (c : Cx) : Act TrapPlace := do
  let m ← backMap c c.a.pc
  let within ← inHandler c c.arm
  let split := match find? (← get).teams c.tid with
    | some x => x.split
    | none => false
  let other ← if split then inHandler c (1 - c.arm) else pure false
  pure ⟨m, within, other⟩

/-- Deliver a trap of an arm (17 R406): unhandled without a handler or inside
one; held while the other arm of a split team runs a handler; else a TRAP entry is pushed, the trap registers are written
and the arm continues at slot 1 of the handler. A push that is refused makes the trap unhandled (18 R437). -/
def deliverAt (c : Cx) (t : Trap) (at_ : TrapPlace) : Act Unit := do
  let slot := if t.fetch then 1 else c.a.slot
  let place := if t.fetch then (c.a.pc, 1) else nextPlace c.a.pc c.a.slot
  modArm c.tid c.arm fun x => { x with windows := [], redo := none, wait := .none, joined := false }
  let pc := match at_.back with
    | some (_, ws) => originalPc ws slot
    | none => pcOf c.a.pc slot
  let extra := match at_.back with
    | some (_, ws) => residualBits (ws.getD 1 0)
    | none => 0
  modTeam c.tid (giveOwed c.arm)
  if launchHandler c.l = 0 || at_.within then unhandled c t pc extra
  else do
    let kept := keptTrap c t
    if at_.other then modArm c.tid c.arm fun x => { x with held := some kept }
    else do
      let exec := ((find? (← get).teams c.tid).bind fun x => (armOf x c.arm).map (·.exec)).getD c.a.exec
      match ← attempt (steady (push c ⟨.trap, false, place.2, c.a.mode, 0, place.1, launchHandler c.l, exec, 0⟩)) with
      | .error (.spill st w a va k) =>
        if c.a.held.isSome && redoFailed c.a then unhandled c t pc extra
        else holdTrap c kept st w a va (8 + k)
      | .error (.wait w) => modArm c.tid c.arm fun x => { x with held := some kept, wait := w }
      | .error _ => unhandled c t pc extra
      | .ok _ => do
        chargeTeam c.tid clsFront 1
        modTeam c.tid fun x =>
          let x := putS (putS (putS (putS x 44 (BitVec.ofNat 64 pc)) 45 (causeWord t ||| extra)) 46 (BitVec.ofNat 64 t.detail)) 47 (BitVec.ofNat 64 t.laneWord)
          { x with mreg := wr (wr x.mreg 6 (kept.faulted.getD 0)) 7 t.completed }
        modArm c.tid c.arm fun x => { x with held := none }
        placeArm c.tid c.arm (launchHandler c.l) 1 pc

/-- Deliver a trap of an arm, past what has to be read for it: an error on the back-map is that of the residual code (19
R465); a refused slice, or a fault that can be resumed, keeps the trap for later; and stacks that cannot be read leave it
unhandled, as a push that is refused does (18 R437). -/
def deliverTrap (c : Cx) (t : Trap) : Act Unit := do
  let lost : TrapPlace := ⟨none, true, false⟩
  let again := !(c.a.held.isSome && redoFailed c.a)
  match ← attempt (steady (trapPlace c)) with
  | .ok p => deliverAt c t p
  | .error (.fault x cls) => if isLost x then residualLost c.t.bid c.b c.l cls else deliverAt c t lost
  | .error (.wait w) => modArm c.tid c.arm fun x => { x with held := some (keptTrap c t), wait := w }
  | .error (.absent st w a) =>
    if again then holdTrap c (keptTrap c t) st w a 0 0 else deliverAt c t lost
  | .error (.spill st w a va k) =>
    if again then holdTrap c (keptTrap c t) st w a va (8 + k) else deliverAt c t lost
  | .error _ => deliverAt c t lost

/-- Return from a trap (08 R229): the mode, the entry's mask less the lanes that have exited since, and
the entry's bundle and slot. -/
def returnFromTrap (c : Cx) : Act Next := do
  let e ← topKind c .trap
  pop c
  modTeam c.tid fun t => match armOf t c.arm with
    | some x => withArm t c.arm (some { x with
        mode := e.mode
        exec := e.mask &&& presentLanes t
        given := x.given.filter fun v => readS t v.1 != v.2 })
    | none => t
  pure (.back e.rejoin e.slot)

/-! ### Faults of accesses, lane by lane (17 R399, R400, R405) -/

/-- What a lane-by-lane performance came to: lanes done, faulted lanes with cause, class and the
access's VA, lanes left waiting on a resumable fault, and a wait. -/
structure LaneRun where
  done : List Nat
  faults : List (Nat × Cause × Nat × Nat)
  absent : List (Nat × Nat × Nat × Nat × Nat)  -- lane, VA, stage, world, address
  left : List Nat
  wait : Option Wait
deriving DecidableEq, Repr

def LaneRun.start : LaneRun := ⟨[], [], [], [], none⟩

/-- Perform an access for each lane in increasing order (05 R133): faulted lanes are noted and the
others go on; a wait leaves the rest of the lanes for later. -/
def overLanes (vaOf : Nat → Nat) (f : Nat → Act Unit) : List Nat → LaneRun → Act LaneRun
  | [], r => pure r
  | l :: t, r => do
    match ← attempt (f l) with
    | .ok _ => overLanes vaOf f t { r with done := r.done ++ [l] }
    | .error (.fault c cls) => overLanes vaOf f t { r with faults := r.faults ++ [(l, c, cls, vaOf l)] }
    | .error (.absent st w a) => overLanes vaOf f t { r with absent := r.absent ++ [(l, vaOf l, st, w, a)] }
    | .error (.wait w) => pure { r with left := l :: t, wait := some w }
    | .error x => throw x

/-- The lowest lane of a mask, above every lane when it is empty. -/
def lowestLane (m : Mask) : Nat := (lanesOf 1024 m).headD 1024

/-- What an instruction that performs again still knows of lanes that failed before (04 R100, 20 R483): the trap of the lowest
of them, a page fault after a resolution of failure, or a remote access whose class stands above the access kind in
`cls`. -/
def failedTrap (r : Redo) (done : Mask) : Trap :=
  let lane := lowestLane r.failed
  if 16 ≤ r.cls then
    ⟨.remoteAccess, r.cls / 16, 0, r.detail, lane + 1024 * (r.cls % 16), false, some r.failed, done, false, false, false, 0, 0⟩
  else ⟨.pageFault, 1, 0, r.detail, lane + 1024 * r.cls, false, some r.failed, done, false, false, false, 0, 0⟩

/-- Two per-lane traps of one instruction are one, with the cause of the lowest faulted lane (17 R405). -/
def bothTraps (a b : Trap) : Trap :=
  let low := if a.laneWord % 1024 ≤ b.laneWord % 1024 then a else b
  let faulted := a.faulted.getD 0 ||| b.faulted.getD 0
  { low with faulted := some faulted, completed := (a.completed ||| b.completed) &&& ~~~faulted }

/-- The trap of the lanes that fault with nothing to wait for. -/
def faultTrap (k : AccKind) (fs : List (Nat × Cause × Nat × Nat)) (done : Mask) : Option Trap :=
  match fs with
  | [] => none
  | (l, cause, cls, va) :: _ =>
    some ⟨cause, cls, 0, va, l + 1024 * kindCode k, false, some (maskOf (fs.map (·.1))), done, false, false, false, 0, 0⟩

/-- The end of a lane-by-lane performance: a wait keeps the lanes that are left; a resumable fault
keeps the faulted lanes and makes the arm wait; other faults are one per-lane trap with the lowest
faulted lane's cause, with the lanes that an earlier try has failed (17 R400, R405). -/
def settleLanes (c : Cx) (k : AccKind) (r : LaneRun) : Act Unit := do
  let before := c.a.redo.getD ⟨0, 0, 0, kindCode k, 0, none, 0, 0⟩
  let done := maskOf r.done ||| before.done
  let kept : Redo := { before with done := done, cls := if before.failed = 0 then kindCode k else before.cls }
  match r.absent, r.wait with
  | (_, va, st, w, a) :: _, _ => do
    let id ← noteFault c.t.bid none 0 st w a
    let todo := maskOf (r.absent.map (·.1)) ||| maskOf (r.faults.map (·.1)) ||| maskOf r.left
    let stands := maskOf ((r.absent.filter fun x => x.2.2.1 = st && x.2.2.2.2 / 65536 = a / 65536).map (·.1))
    modArm c.tid c.arm fun x =>
      { x with redo := some { kept with todo := todo ||| before.failed, fault := some id, stands := stands, va := va } }
    throw (.wait .fault)
  | [], some w =>
    let todo := maskOf r.left ||| maskOf (r.faults.map (·.1))
    modArm c.tid c.arm fun x =>
      { x with redo := some { kept with todo := todo ||| before.failed, fault := none, stands := 0, va := 0 } }
    throw (.wait w)
  | [], none =>
    match faultTrap k r.faults done with
    | none => pure ()
    | some t => throw (.trap (if before.failed = 0 then t else bothTraps t (failedTrap before done)))

end Sys2Proof.Machine
end

