-- ==== Sys2Proof/Machine/Operands.lean ====
section
/-! DEFINITION. Operand forms, the checks made before an instruction performs, in the order of
18 R425, and the one way in which every team instruction is performed. -/
namespace Sys2Proof.Machine
open Sys2Proof

/-! ### Operand forms (07 R191, R192) -/

/-- How an instruction uses an operand field. -/
inductive Role where
  | src          -- read: v word, or s or k
  | dst          -- written: v in a D slot, s in a T or S slot
  | both         -- read and written
  | uniform      -- written, an s register in every slot (07 R192: a team-uniform result)
  | scalar       -- read, s or k in every slot
  | scalarBoth   -- read and written, an s register in every slot
deriving DecidableEq, Repr

/-- An operand field in use; `pair` makes a v register an even-odd pair in a D slot (06 R157). -/
structure Use where
  o : Opnd
  role : Role
  pair : Bool
deriving DecidableEq, Repr

/-- Whether the role writes its operand, and whether it reads it. -/
def Role.writes : Role → Bool
  | .src => false
  | .scalar => false
  | _ => true
def Role.reads : Role → Bool
  | .dst => false
  | .uniform => false
  | _ => true

/-- Whether an operand is legal in its role in a D slot of a team with window frame F (07 R191,
R192). -/
def useOkD (F : Nat) (u : Use) : Bool :=
  match u.o with
  | .v i =>
    (match u.role with
      | .uniform => false
      | .scalar => false
      | .scalarBoth => false
      | _ => true) && decide (i < F) && (!u.pair || i % 2 = 0)
  | .s i =>
    decide (i < 48) && (match u.role with
      | .dst => false
      | .both => false
      | _ => true)
  | .k i => decide (i < 16) && !u.role.writes

/-- Whether an operand is legal in its role in a T or S slot. -/
def useOkT (u : Use) : Bool :=
  match u.o with
  | .v _ => false
  | .s i => decide (i < 48)
  | .k i => decide (i < 16) && !u.role.writes

/-- Whether a field names a v register. -/
def opndIsV : Opnd → Bool
  | .v _ => true
  | _ => false

/-- The v registers that a use touches in a D slot. -/
def useRegs (u : Use) : List Nat :=
  match u.o with
  | .v i => if u.pair then [i, i + 1] else [i]
  | _ => []

/-- A run of n s registers from an operand (11 R321): wholly within s0 to s47; a run that is only read
may not start at a k register either. -/
def runOk (o : Opnd) (n : Nat) : Bool :=
  match o with
  | .s i => decide (i + n ≤ 48)
  | _ => false

/-- Value j of a run. -/
def runAt (c : Cx) (o : Opnd) (j : Nat) : DWord :=
  match o with
  | .s i => readS c.t (i + j)
  | _ => 0

/-! ### What an instruction declares -/

/-- How an instruction is charged (08 R214, 09 R250): so many passes of a class over the governing or
the execution mask, with further passes; or by its own operations. In a T or S slot it is one front
instruction in every case. -/
inductive Charge where
  | passes (cls : Nat)
  | execPasses (cls extra : Nat)
  | none
deriving DecidableEq, Repr

/-- What an instruction declares for the checks of 18 R425. -/
structure Sig where
  op : Nat                    -- opcode, for the binding times of 07 R193
  values : Bool               -- no field value that 18 R427 makes an illegal encoding
  uses : List Use
  operandOk : Bool            -- its own operand limits (step 5)
  firmware : Bool             -- a firmware instruction (11 R322)
  mode : Option Cause         -- step 6: 0x04 or 0x05
  scope : Option (Nat × Bool) -- the scope it names and its remote mark (05 R130)
  la : Option (Nat × Opnd × Bool) -- an FL instruction's lookahead, destination and whether it is a pair
  charge : Charge
  faulted : Option Mask       -- the lanes of its trap sets, when they are not the governing mask (17 R400)
  early : Act Unit            -- its checks of step 9 that come before residency (18 R425)

/-- A declaration with nothing special in it. -/
def plain (op : Nat) (uses : List Use) (charge : Charge) : Sig :=
  ⟨op, true, uses, true, false, none, none, none, charge, none, pure ()⟩

/-- Step 3 of 18 R425: binding time, field values, a v operand in a T or S slot. -/
def encodingOk (c : Cx) (g : Sig) : Bool :=
  btAllowed g.op c.bt && g.values && (c.bt = .d || !(g.uses.any fun u => opndIsV u.o))

/-- Step 5 of 18 R425. -/
def operandsOk (c : Cx) (g : Sig) : Bool :=
  (if c.bt = .d then g.uses.all (useOkD c.t.frame) else g.uses.all useOkT) && g.operandOk

/-- Step 7 of 18 R425: the scope within maxscope and the remote mark permitted (05 R130). -/
def scopeAllowed (s : State) (c : Cx) (g : Sig) : Bool :=
  match g.scope with
  | none => true
  | some (sc, m) =>
    decide (sc ≤ (worldOf s c.b.world).maxscope) && (!m || (worldOf s c.b.world).remote)

/-- The logical registers that an instruction touches in a D slot (07 R201). -/
def touched (c : Cx) (g : Sig) : List Nat :=
  if c.bt = .d then (g.uses.flatMap useRegs).map (c.t.w + ·) else []

/-- Steps 3 to 8 of 18 R425: the first check that fails, as its cause. -/
def precheck (s : State) (c : Cx) (g : Sig) : Option Cause :=
  if !encodingOk c g then some .illegalEncoding
  else if g.firmware && !c.t.firmware then some .privilege
  else if !operandsOk c g then some .illegalOperand
  else match g.mode with
    | some e => some e
    | none =>
      if !scopeAllowed s c g then some .scopeDenial
      else if windowHit c.a.windows (touched c g) then some .lookahead
      else none

/-! ### Performing -/

/-- Make every v register that the instruction names resident (07 R198). -/
def residency (c : Cx) (g : Sig) : Act Unit :=
  if c.bt = .d then each (touched c g) fun x => makeResident c x 512 else pure ()

/-- The context of an instruction, or none when there is no such arm. -/
def cxOf (s : State) (tid arm : Nat) (bt : Bt) : Option Cx :=
  match find? s.teams tid with
  | none => none
  | some t =>
    match armOf t arm, find? s.blocks t.bid with
    | some a, some b => some ⟨tid, arm, bt, t, a, b, launchOf s b.launch, governing t a⟩
    | _, _ => none

/-- Lanes of the governing mask that read a poisoned register word (20 R473). -/
def poisonedLanes (c : Cx) (g : Sig) : Mask :=
  if c.bt = .d && !c.t.vPoison.isEmpty then
    maskOf ((lanesOf c.t.lanes c.gm).filter fun l =>
      g.uses.any fun u => u.role.reads && (useRegs u).any fun i => c.t.vPoison.contains (vKey c.t i l))
  else 0

/-- Charge n events of a class to the context that the team works for as the instruction begins (11 R326). -/
def chargeOf (c : Cx) (cls n : Nat) : Act Unit := chargeTeamAs (some (workContext c.t c.b)) c.tid cls n

/-- Charge an instruction that has performed (08 R214, 09 R250): the empty pass of 02 R30 when no lane
is governed. -/
def chargeFor (c : Cx) (g : Sig) : Act Unit :=
  if c.bt = .d then
    match g.charge with
    | .none => pure ()
    | .passes cls =>
      let n := passesOf (governing c.t c.a)
      if n = 0 then chargeOf c clsFront 1 else chargeOf c cls n
    | .execPasses cls extra =>
      if passesOf (governing c.t c.a) = 0 then chargeOf c clsFront 1
      else chargeOf c cls (passesOf c.a.exec + (if 1 < passesOf c.a.exec then extra else 0))
  else chargeOf c clsFront 1

/-- Opcodes that close a lookahead window early (07 R201). -/
def closesWindow (op : Nat) : Bool :=
  (decide (0x04 ≤ op) && decide (op ≤ 0x15)) || (decide (0xb0 ≤ op) && decide (op ≤ 0xb8))

/-- The open windows after an instruction has performed (07 R201). -/
def nextWindows (c : Cx) (g : Sig) (taken : Bool) : List Window :=
  if taken || closesWindow g.op then []
  else
    let ws := windowsAfter c.a.windows
    match g.la with
    | some (n, o, pair) =>
      if c.bt = .d && decide (0 < n) then ws ++ [⟨n, (useRegs ⟨o, .dst, pair⟩).map (c.t.w + ·)⟩] else ws
    | none => ws

/-- Whether an instruction moved its arm by a branch. -/
def Next.taken : Next → Bool
  | .on => false
  | _ => true

/-- An instruction that performed: it is charged, the arm's windows move on, and the arm moves on. -/
def finish (c : Cx) (g : Sig) (n : Next) : Act Unit := do
  chargeFor c g
  modArm c.tid c.arm fun x => { x with windows := nextWindows c g n.taken, redo := none, wait := .none, joined := false }
  advance c n

/-- The team's registers and stacks as they were before a whole-instruction trap (18 R435). -/
def undoTeam (c : Cx) : Act Unit :=
  modTeam c.tid fun t => { c.t with mark := t.mark }

/-- A whole-instruction trap with the lanes of the instruction's trap sets (17 R400, 08 R226). -/
def withLanes (g : Sig) (t : Trap) : Trap :=
  if t.whole && t.faulted.isNone then { t with faulted := g.faulted } else t

/-- A trap of the instruction (17 R400): a whole-instruction trap leaves the team as it was; a per-lane
trap comes after its completed lanes, which are charged, and TRAP's own execution is charged (08 R214). -/
def trapped (c : Cx) (g : Sig) (t : Trap) : Act Unit := do
  let c := { c with gm := governing c.t c.a &&& ~~~((c.a.redo.map (·.done)).getD 0) }
  if t.whole then undoTeam c else pure ()
  if !t.whole || decide (t.cause = .software) then chargeFor c g else pure ()
  if t.cause = .streamFault then modTeam c.tid fun x => { x with sfault := false } else pure ()
  deliverTrap c (withLanes g t)

/-- The instruction performs again later: the arm waits where it is (02 R34). -/
def holdArm (c : Cx) (w : Wait) : Act Unit := modArm c.tid c.arm fun x => { x with wait := w }

/-- A data error trap for lanes that read poisoned registers (20 R473). -/
def poisonTrap (p done : Mask) (lane : Nat) : Trap :=
  ⟨.dataError, 6, 0, 0, lane + 1024, false, some p, done, false, false, false, 0, 0⟩

/-- The trap of the lanes that could not perform for what was known before: those that read a poisoned register word, and
those that an earlier try has failed (17 R399, 18 R425 step 12). -/
def priorTrap (c : Cx) (p done : Mask) : Option Trap :=
  let poison := if p = 0 then none else some (poisonTrap p done (lowestLane p))
  match c.a.redo.filter fun r => r.failed != 0 with
  | none => poison
  | some r => match poison with
    | none => some (failedTrap r done)
    | some t => some (bothTraps t (failedTrap r done))

/-- A resumable fault keeps the instruction for later, to be performed from its start (18 R435). -/
def holdFault (c : Cx) (st w a va kind : Nat) : Act Unit := do
  let id ← noteFault c.t.bid none 0 st w a
  undoTeam c
  modArm c.tid c.arm fun x => { x with redo := some ⟨c.a.exec, 0, 0, kind, 0, some id, c.a.exec, va⟩, wait := .fault }

/-- What comes of an attempt to perform: `p` holds the lanes that read poison. -/
def settle (c : Cx) (g : Sig) (p : Mask) : Except Stop Next → Act Unit
  | .ok n =>
    match priorTrap c p (c.gm ||| ((c.a.redo.map (·.done)).getD 0)) with
    | none => finish c g n
    | some t => do
      chargeFor c g
      deliverTrap c t
  | .error (.trap t) =>
    match (priorTrap c p 0).filter fun _ => !t.whole && !t.async with
    | none => trapped c g t
    | some x => trapped c g (bothTraps t x)
  | .error (.wait w) => holdArm c w
  | .error (.absent st w a) => holdFault c st w a 0 0
  | .error (.spill st w a va k) => holdFault c st w a va (8 + k)
  | .error (.fault cause cls) =>
    trapped c g ⟨cause, cls, 0, 0, 0, false, some c.gm, 0, false, false, false, 0, 0⟩

/-- The lanes that a re-performed instruction still has to perform (04 R100). -/
def redoLanes (c : Cx) : Mask :=
  match c.a.redo with
  | some r => if c.bt = .d then c.gm &&& r.todo &&& ~~~r.failed else c.gm
  | none => c.gm

/-- A spill or refill of the instruction whose resolution was a failure: the trap of the whole instruction (18 R435). A
codebook's, which stands as kind 7, is a format-slot trap (18 R430). -/
def lostSpill (c : Cx) : Option Trap :=
  match c.a.redo with
  | some r => if r.failed ≠ 0 && decide (8 ≤ r.cls) && decide (r.cls < 16) then
      some (if r.cls = 15 then wholeTrap .formatSlot else spillTrap c .pageFault 1 r.detail (r.cls - 8)) else none
  | none => none

/-- A T-slot access that a peer has already answered (20 R484). -/
def answered (c : Cx) : Bool :=
  match c.a.redo with
  | some r => r.todo = 0 && r.failed = 0
  | none => false

/-- Perform the lanes that are left of an instruction: those that read poison, and those that failed before, do not. Nothing
is left to do for a T slot whose only access has failed, nor for a D slot without lanes. -/
def performLanes (c : Cx) (g : Sig) (body : Cx → Act Next) : Act Unit := do
  let done := (c.a.redo.map (·.done)).getD 0
  let left := redoLanes c
  let p := poisonedLanes { c with gm := left } g
  let c := { c with gm := left &&& ~~~p }
  match (priorTrap c p done).filter fun _ => g.faulted.isNone && (c.bt != .d || c.gm = 0) with
  | some t => do
    chargeFor c g
    deliverTrap c t
  | none => settle c g p (← attempt (steady (body c)))

/-- Perform an instruction of an arm: the checks, residency, and its own effect (18 R425). -/
def perform (c : Cx) (g : Sig) (body : Cx → Act Next) : Act Unit := do
  match (precheck (← get) c g).map wholeTrap with
  | some t => deliverTrap c (withLanes g t)
  | none =>
    match lostSpill c with
    | some t => deliverTrap c (withLanes g t)
    | none =>
      match ← attempt (steady (do g.early; residency c g)) with
      | .error e => settle c g 0 (.error e)
      | .ok _ =>
        match cxOf (← get) c.tid c.arm c.bt with
        | none => pure ()
        | some c' => performLanes c' g body

/-- The meaning of a team instruction: it needs an arm in focus. -/
def teamStep (g : Cx → Sig) (body : Cx → Act Next) (s : State) : Host.Outcome State Fault Refusal :=
  match s.focus with
  | .team tid arm bt =>
    match cxOf s tid arm bt with
    | some c => .next (runAct (perform c (g c) body) s)
    | none => .fault .noArm
  | _ => .fault .noArm

/-- The meaning of an event: it changes the state, or not at all when its condition does not hold. -/
def eventStep (m : Act Unit) (s : State) : Host.Outcome State Fault Refusal := .next (runAct m s)

/-- An instruction whose effect writes registers or masks only, by a pure change of its team. -/
def pureBody (f : Cx → Team → Team) (c : Cx) : Act Next := do
  modTeam c.tid (f c)
  pure .on

/-! ### Writes after a release FENCE (05 R137, R143) -/

/-- The key slot of a line, as the cached translation gives it. -/
def lineKeySlot (s : State) (world ia : Nat) : Nat :=
  match find? s.tlb (tlbKey ia world (sliceOf ia)) with
  | some e => e.slot
  | none => world

/-- Record a release of a line at scope 0 or 1 (05 R143). -/
def noteRelease (c : Cx) (ia : Nat) : Act Unit := do
  recordRelease c.b.core c.b.world c.b.ctx (lineKeySlot (← get) c.b.world ia) ia

/-- Room for what a release at scope 0 or 1 of a line leaves in the core's and the slice's tables. Whatever has to be
promoted for it is promoted first, so that the write which it goes with is performed once (01 R22). -/
def readyRelease (c : Cx) (ia : Nat) : Act Unit := do
  roomForRelease c.b.core c.b.world ia
  roomForOwner (some c.b.ctx) c.b.core c.b.world (ia / 64)

/-- A release at scope 0 or 1 whose write the home slice performs itself: the slice takes the owner with the write, so
the line is not seen there ahead of the data that the release ordered (05 R145). -/
def noteReleaseHere (c : Cx) (ia : Nat) : Act Unit := do
  noteRelease c ia
  setOwner (some c.b.ctx) c.b.core c.b.world (ia / 64)

/-- The wider of two scopes of release FENCEs (05 R132, R137): what follows a reconvergence is ordered after both. -/
def widerFence : Option Nat → Option Nat → Option Nat
  | some x, some y => some (Nat.max x y)
  | some x, none => some x
  | none, y => y

/-- Whether a plain write of the arm acts as a release at scope 0 or 1 (05 R137). -/
def fencedNarrow (c : Cx) : Bool := match c.a.fence with
  | some sc => decide (sc < 2)
  | none => false

/-- A write to a stash offset by such an arm: a mapped one records its line, an unmapped one nothing (05 R143). -/
def noteStash (c : Cx) (off : Nat) : Act Unit :=
  if !fencedNarrow c then pure ()
  else match regionAt c.b off with
    | none => pure ()
    | some g => do
      let (ia, _) ← iaFor c.b.ctx (g.va + (off - g.off)) .write
      noteRelease c ia

/-- After a release FENCE at cluster scope or wider each later write of the arm acts as a release there: what the arm
wrote before it goes to the slices with it (05 R137, 04 R101). -/
def releaseFenced (c : Cx) : Act Unit := match c.a.fence with
  | some sc => if 2 ≤ sc then releaseWide c.b.core c.t.bid else pure ()
  | none => pure ()

/-- A T-class effect beyond the front context is suppressed in an arm with no live lane (02 R48). -/
def suppressed (c : Cx) : Bool := c.a.exec &&& liveLanes c.t = 0

/-- One access of a T slot: a fault is a trap of the whole arm, with its VA and kind (17 R399, R405). -/
def scalarAccess {α : Type} (c : Cx) (va : Nat) (k : AccKind) (m : Act α) : Act α := do
  match ← attempt m with
  | .ok a => pure a
  | .error (.fault x cls) =>
    throw (.trap ⟨x, cls, 0, va, (lanesOf c.t.lanes c.a.exec).headD 0 + 1024 * kindCode k, false, some c.a.exec, 0,
      false, false, false, 0, 0⟩)
  | .error (.absent st w a) => do
    let id ← noteFault c.t.bid none 0 st w a
    modArm c.tid c.arm fun x => { x with redo := some ⟨c.a.exec, 0, 0, kindCode k, va, some id, c.a.exec, va⟩ }
    throw (.wait .fault)
  | .error (.wait (.peer x)) => do
    modArm c.tid c.arm fun y => { y with redo := some ⟨c.a.exec, 0, 0, kindCode k, va, none, 0, 0⟩ }
    throw (.wait (.peer x))
  | .error x => throw x

/-- An alignment trap of a T slot (09 R269). -/
def alignTrap (c : Cx) (va : Nat) (k : AccKind) : Trap :=
  ⟨.alignment, 9, 0, va, (lanesOf c.t.lanes c.a.exec).headD 0 + 1024 * kindCode k, true, some c.a.exec, 0,
    false, false, false, 0, 0⟩

end Sys2Proof.Machine
end

