-- ==== Sys2Proof/Machine/Control.lean ====
section
/-! DEFINITION. The mode register, branches and divergence, calls, loops, software traps, and lane
refill (08 R212-R232). EXIT is in Life, with the retirement of arms, teams and blocks. -/
namespace Sys2Proof.Machine
open Sys2Proof

/-- A T-class instruction with no operand and no charge but the front's. -/
def bare (op : Nat) (_ : Cx) : Sig := plain op [] .none

/-! ### NOP and the mode register (07 R205, 08 R216) -/

/-- NOP changes nothing and is charged nothing; at fetch it is skipped (07 R205). -/
def nopBody (c : Cx) : Act Unit := do
  modArm c.tid c.arm fun x => { x with windows := windowsAfter c.a.windows }
  advance c .on

/-- NOP (07 R205): the binding time is checked; nothing else happens but its count in a window. -/
def execNop (s : State) : Host.Outcome State Fault Refusal :=
  match s.focus with
  | .team tid arm bt =>
    match cxOf s tid arm bt with
    | some c =>
      .next (runAct (if btAllowed 0 bt then nopBody c else deliverTrap c (wholeTrap .illegalEncoding)) s)
    | none => .fault .noArm
  | _ => .fault .noArm

/-- Set the arm's mode register. -/
def setMode (c : Cx) (m : Nat) : Act Unit :=
  modArm c.tid c.arm fun x => { x with mode := BitVec.ofNat 16 (m % 4096) }

/-- MODE (08 R216). -/
def execMode (imm : Nat) (s : State) : Host.Outcome State Fault Refusal :=
  teamStep (bare 0x01) (fun c => do setMode c imm; pure .on) s

/-- MODET (08 R216): the bits of the field mask from s_d, the others kept. -/
def execModet (d : Opnd) (imm : Nat) (s : State) : Host.Outcome State Fault Refusal :=
  teamStep (fun _ => plain 0x02 [⟨d, .scalar, false⟩] .none)
    (fun c => do
      setMode c ((c.a.mode.toNat &&& (65535 - imm % 65536)) ||| ((opScalar c d).toNat &&& imm))
      pure .on) s

/-- The OR of xflags over the arm's lanes that have not exited (08 R216). -/
def orFlags (c : Cx) : Nat :=
  ((lanesOf c.t.lanes (c.a.exec &&& presentLanes c.t)).foldl (fun a l =>
    a ||| (match c.t.lane[l]? with
      | some x => x.xflags
      | none => 0#5)) 0#5).toNat

/-- Change the lanes of a mask. -/
def modLanes (t : Team) (m : Mask) (f : Lane → Lane) : Team :=
  { t with lane := t.lane.zipIdx.map fun (x, l) => if m.getLsbD l then f x else x }

/-- MODEG (08 R216): the mode and the arm's flags, then the named flags cleared. -/
def execModeg (d : Opnd) (imm : Nat) (s : State) : Host.Outcome State Fault Refusal :=
  teamStep (fun _ => plain 0x03 [⟨d, .dst, false⟩] .none)
    (fun c => do
      modTeam c.tid fun t =>
        putScalar d (c.a.mode.toNat + orFlags c * 65536)
          (modLanes t c.a.exec fun x => { x with xflags := x.xflags &&& ~~~(BitVec.ofNat 5 imm) })
      pure .on) s
where
  putScalar (d : Opnd) (x : Nat) (t : Team) : Team := match d with
    | .s i => putS t i (BitVec.ofNat 64 x)
    | _ => t

/-! ### Branches (08 R217-R221) -/

/-- The target of a branch: its bundle plus 32 times a signed count of n bits (07 R189). -/
def branchTarget (c : Cx) (n off : Nat) : Nat := wrapTo 56 ((c.a.pc : Int) + 32 * signed n off)

/-- The lanes that a branch's mask field selects in the arm, the guard ignored (08 R218, R220). -/
def branchLanes (c : Cx) (m : Nat) (inv : Bool) : Mask :=
  (if inv then ~~~(maskReg c.t m) else maskReg c.t m) &&& c.a.exec

/-- BRA (08 R218). -/
def execBra (off : Nat) (s : State) : Host.Outcome State Fault Refusal :=
  teamStep (bare 0x04) (fun c => pure (.to (branchTarget c 24 off))) s

/-- BRZ (08 R218). -/
def execBrz (m : Nat) (inv : Bool) (off : Nat) (s : State) : Host.Outcome State Fault Refusal :=
  teamStep (bare 0x05)
    (fun c => pure (if branchLanes c m inv = 0 then .to (branchTarget c 20 off) else .on)) s

/-- BRNZ (08 R218). -/
def execBrnz (m : Nat) (inv : Bool) (off : Nat) (s : State) : Host.Outcome State Fault Refusal :=
  teamStep (bare 0x06)
    (fun c => pure (if branchLanes c m inv = 0 then .on else .to (branchTarget c 20 off))) s

/-- The split of an unsplit team (02 R40, R196): the dual SPLIT entry on the team's stack, and two arms
that copy the mode and the join target. The taken arm has the first turn after it, because the BRD's own turn counts as
the fall-through arm's (DESIGN CHOICE, log entry 42: 02 R41 orders the arms from then on, 19 R441 after a restore). -/
def splitTeam (c : Cx) (taken fall : Mask) (target rejoin : Nat) : Act Unit := do
  push c ⟨.split, true, 0, c.a.mode, 0, rejoin, 0, c.a.exec, 0⟩
  let p := nextPlace c.a.pc c.a.slot
  let here := pcOf c.a.pc c.a.slot
  let arm := fun (pc slot : Nat) (m : Mask) =>
    Arm.mk pc slot m c.a.mode c.a.jt Stack.empty [] .none [] false none here none c.a.fence 0 c.a.bundle c.a.owed c.a.given
  modTeam c.tid fun t =>
    { t with split := true, a0 := some (arm p.1 p.2 fall), a1 := some (arm target 1 taken) }

/-- BRD (08 R220): a branch of the whole arm, a split of the team, or a nested split. -/
def brdBody (m : Nat) (inv : Bool) (off : Nat) (c : Cx) : Act Next := do
  let taken := branchLanes c m inv
  let fall := c.a.exec &&& ~~~taken
  let target := branchTarget c 20 off
  if taken = 0 then pure .on
  else if fall = 0 then pure (.to target)
  else
    match c.a.jt with
    | none => raise .missingReconvergence
    | some rejoin =>
      if !c.t.split then do
        splitTeam c taken fall target rejoin
        pure .gone
      else do
        push c ⟨.split, false, 0, c.a.mode, 0, rejoin, target, taken, 0⟩
        modArm c.tid c.arm fun x => { x with exec := fall }
        pure .on

/-- BRD (08 R220): as many passes as the execution mask has non-zero words. -/
def execBrd (m : Nat) (inv : Bool) (off : Nat) (s : State) : Host.Outcome State Fault Refusal :=
  teamStep (fun _ => plain 0x07 [] (.execPasses clsInteger 0)) (brdBody m inv off) s

/-- JOINSET (08 R219). -/
def execJoinset (off : Nat) (s : State) : Host.Outcome State Fault Refusal :=
  teamStep (bare 0x08)
    (fun c => do
      modArm c.tid c.arm fun x => { x with jt := some (branchTarget c 24 off) }
      pure .on) s

/-- Whether a JOIN of this arm is the one that its dual SPLIT entry names (08 R221). -/
def atDual (t : Team) (x : Arm) : Bool :=
  t.split && stackDepth x.stack = 0 && (match t.stack.hw with
    | e :: _ => e.kind = .split && e.dual && e.rejoin = x.pc
    | [] => false)

/-- The dual SPLIT entry is brought back from the spill area when it was spilled (02 R45). -/
def dualTop (c : Cx) : Act Unit := do
  if c.t.split then
    let _ ← topOf c 0
    pure ()

/-- The two arms become one team again (02 R43, 07 R196, 08 R221): the lanes of both that have not
exited, the mode and join target of the fall-through arm, or of the other when that arm has ended. -/
def rejoinTeam (tid : Nat) : Act Unit :=
  modTeam tid fun t =>
    let lanes := fun (x : Option Arm) => match x with
      | some a => a.exec
      | none => 0
    let fences := fun (x : Option Arm) => match x with
      | some a => a.fence
      | none => none
    match (match t.a0 with
      | some a => some a
      | none => t.a1) with
    | none => t
    | some a =>
      let p := nextPlace a.pc a.slot
      let joined : Arm :=
        { a with pc := p.1, slot := p.2, exec := (lanes t.a0 ||| lanes t.a1) &&& presentLanes t
                 stack := Stack.empty, windows := [], wait := .none, arrived := [], came := pcOf a.pc a.slot
                 fence := widerFence (fences t.a0) (fences t.a1), calls := 0, bundle := none }
      { t with split := false, stack := ⟨t.stack.hw.tail, t.stack.spilled⟩, a0 := some joined, a1 := none, last := 0
               posted := t.posted.map fun p => (p.1, 2) }

/-- Whether every arm of a split team that still has lanes waits at the JOIN. -/
def allJoined (t : Team) : Bool :=
  (match t.a0 with
    | some x => x.wait = .join
    | none => true) &&
  (match t.a1 with
    | some x => x.wait = .join
    | none => true)

/-- The declaration of JOIN, a branch on masks (08 R214). -/
def joinSig : Sig := plain 0x09 [] (.execPasses clsInteger 0)

/-- JOIN (02 R43, 08 R221): it waits at the dual entry's rejoin; the last arm to arrive rejoins the
team. Anywhere else it changes nothing. -/
def joinBody (c : Cx) : Act Next := do
  dualTop c
  match find? (← get).teams c.tid with
  | none => pure .gone
  | some t =>
    match armOf t c.arm with
    | none => pure .gone
    | some x =>
      if !atDual t x then pure .on
      else do
        modArm c.tid c.arm fun x => { x with wait := .join, windows := [] }
        chargeFor c joinSig
        match find? (← get).teams c.tid with
        | none => throw (.wait .join)
        | some t =>
          if allJoined t then do
            rejoinTeam c.tid
            throw (.wait .none)
          else throw (.wait .join)

/-- JOIN (08 R221): as many passes as the execution mask has non-zero words; one that waits is charged
as it begins to wait. -/
def execJoin (s : State) : Host.Outcome State Fault Refusal :=
  teamStep (fun _ => joinSig) joinBody s

/-! ### Calls (08 R222-R224) -/

/-- A call: the CALL entry with the resume place, mode, window base and mask, then the new base
(08 R223). The window overflow comes before anything is pushed (07 R199). -/
def callBody (target frame : Nat) (c : Cx) : Act Next := do
  require (decide (c.t.w + 8 * frame ≤ 4088)) .windowOverflow
  let p := nextPlace c.a.pc c.a.slot
  push c ⟨.call, false, p.2, c.a.mode, 0, p.1, c.t.w, c.a.exec, 0⟩
  modTeam c.tid fun t => { t with w := c.t.w + 8 * frame }
  pure (.to target)

/-- CALL (08 R223). -/
def execCall (frame off : Nat) (s : State) : Host.Outcome State Fault Refusal :=
  teamStep (bare 0x0a) (fun c => callBody (branchTarget c 20 off) frame c) s

/-- A register target must be bundle-aligned (08 R215). -/
def alignedTarget (c : Cx) (a : Opnd) : Act Nat := do
  require ((opScalar c a).toNat % 32 = 0) .misalignedBranch
  pure (opScalar c a).toNat

/-- CALLI (08 R223). -/
def execCalli (a : Opnd) (frame : Nat) (s : State) : Host.Outcome State Fault Refusal :=
  teamStep (fun _ => plain 0x0b [⟨a, .scalar, false⟩] .none)
    (fun c => do
      let t ← alignedTarget c a
      callBody t frame c) s

/-- RET (08 R224): mode and base from the entry, residency, the pop, and the entry's place. -/
def retBody (c : Cx) : Act Next := do
  let e ← topKind c .call
  modArm c.tid c.arm fun x => { x with mode := e.mode }
  modTeam c.tid fun t => { t with w := e.pending }
  restoreResident c 512
  pop c
  pure (.back e.rejoin e.slot)

/-- RET (08 R224). -/
def execRet (s : State) : Host.Outcome State Fault Refusal := teamStep (bare 0x0c) retBody s

/-- JMPI (08 R224). -/
def execJmpi (a : Opnd) (s : State) : Host.Outcome State Fault Refusal :=
  teamStep (fun _ => plain 0x0d [⟨a, .scalar, false⟩] .none)
    (fun c => do
      let t ← alignedTarget c a
      pure (.to t)) s

/-! ### Traps, yielding, demotion (08 R225, R228-R230) -/

/-- TRAP (08 R229): a software trap with its code. -/
def execTrap (imm : Nat) (s : State) : Host.Outcome State Fault Refusal :=
  teamStep (bare 0x10) (fun _ => throw (.trap { wholeTrap .software with imm := imm })) s

/-- RFT (08 R229). -/
def execRft (s : State) : Host.Outcome State Fault Refusal := teamStep (bare 0x11) returnFromTrap s

/-- YIELD (08 R230): every result is written when an instruction ends in this model (log entry 5), so
nothing is left to wait for. -/
def execYield (s : State) : Host.Outcome State Fault Refusal :=
  teamStep (bare 0x12) (fun _ => pure .on) s

/-! ### REFILL (02 R47, 08 R226, R227) -/

/-- The lanes that REFILL may fill: exited lanes of its guard. -/
def refillLanes (c : Cx) : Mask :=
  maskReg c.t (modeGuard c.a.mode) &&& lanesIn c.t fun x => x == .exited

/-- A trap of REFILL: s46 holds the stash offset, s47 the lowest faulted lane and the access kind (08 R226, 17 R405). -/
def refillTrap (whole : Bool) (cause : Cause) (cls off : Nat) (k : AccKind) (faulted done : Mask) (lane : Nat) : Trap :=
  ⟨cause, cls, 0, off, lane + 1024 * kindCode k, whole, some faulted, done, false, false, false, 0, 0⟩

/-- An access of REFILL for the lanes of a mask: a fault is their trap, and a resumable fault stands for them
(04 R100, 17 R400, R405). -/
def refillAccess {α : Type} (c : Cx) (lanes : Mask) (off : Nat) (k : AccKind) (m : Act α) : Act α := do
  let lane := (lanesOf c.t.lanes lanes).headD 0
  match ← attempt m with
  | .ok x => pure x
  | .error (.fault x cls) => throw (.trap (refillTrap false x cls off k lanes 0 lane))
  | .error (.absent st w a) => do
    let id ← noteFault c.t.bid none 0 st w a
    modArm c.tid c.arm fun x => { x with redo := some ⟨lanes, 0, 0, kindCode k, off, some id, lanes, off⟩ }
    throw (.wait .fault)
  | .error x => throw x

/-- Lanes whose item's resolution was a failure (04 R100). -/
def refillFailed (c : Cx) : Mask := match c.a.redo with
  | some r => r.failed
  | none => 0

/-- Take items for the lanes in increasing order, until none is left: the new head, the lanes filled
with their items, and what stopped it. An array whose base is not 4-byte aligned is read where it lies (DESIGN CHOICE, log
entry 42: 08 R226 says that it is aligned, and names no trap). -/
def takeItems (c : Cx) (tail base cap : Nat) : List Nat → Nat → Act (Nat × List (Nat × Word) × Option (Nat × Nat × Cause × Nat))
  | [], head => pure (head, [], none)
  | l :: t, head =>
    if head = tail || cap = 0 then pure (head, [], none)
    else
      let off := base + 4 * (head % cap)
      if c.b.stashSize < off + 4 then pure (head, [], some (l, off, .stashRange, 9))
      else if (refillFailed c).getLsbD l then pure (head, [], some (l, off, .pageFault, 1))
      else do
        match ← attempt (stashRead c.req c.t.bid off 4) with
        | .error (.fault x cls) => pure (head, [], some (l, off, x, cls))
        | .error e => refillAccess c (maskOf [l]) off .read (throw e)
        | .ok bs => do
          let (h, r, e) ← takeItems c tail base cap t ((head + 1) % 2 ^ 32)
          pure (h, (l, BitVec.ofNat 32 (numLE bs)) :: r, e)

/-- The descriptor of a REFILL, whose access failed for every lane when the redo says so (04 R100). -/
def refillDescriptor (c : Cx) (lanes : Mask) (off : Nat) : Act (List (BitVec 8)) := do
  match c.a.redo with
  | some r =>
    if r.failed ≠ 0 && r.detail = off then
      throw (.trap (refillTrap false .pageFault 1 off (if r.cls = 2 then .write else .read) lanes 0
        ((lanesOf c.t.lanes lanes).headD 0)))
    else pure ()
  | none => pure ()
  refillAccess c lanes off .read (stashRead c.req c.t.bid off 16)

/-- REFILL needs an unsplit team with no SPLIT entry, spilled ones too (08 R226; 18 R425 step 9). -/
def refillCheck (c : Cx) : Act Unit := do
  let nested ← stackHolds c 0 .split
  require (!c.t.split && !nested) .illegalState

/-- REFILL (08 R226): the descriptor is read, each exited lane of the guard takes an item while there
is one, head advances, and s_b is the count. Its passes are counted over the words of the exited lanes of the guard,
filled or not, and one more for the descriptor (DESIGN CHOICE, log entry 42: 08 R214 counts passes, and these lanes lie
outside the governing mask). -/
def refillBody (d a b : Opnd) (c : Cx) : Act Next := do
  let all := refillLanes c
  let lanes := lanesOf c.t.lanes all
  let off := (opScalar c a).toNat
  if off % 16 ≠ 0 || decide (c.b.stashSize < off + 16) then
    throw (.trap (refillTrap true .stashRange 9 off .read all 0 (lanes.headD 0)))
  else do
    let ds ← refillDescriptor c all off
    let head := numLE (ds.take 4)
    let (head', got, stop) ← takeItems c (numLE ((ds.drop 4).take 4)) (numLE ((ds.drop 8).take 4)) (numLE (ds.drop 12)) lanes head
    if got.isEmpty then pure ()
    else do
      refillAccess c all off .write (stashWrite c.req c.t.bid off c.b.ctx (bytesLE 4 head'))
      noteStash c off
      releaseFenced c
    let filled := maskOf (got.map (·.1))
    writeVs c d got
    modTeam c.tid fun t => modLanes t filled fun x => { x with st := .live }
    modArm c.tid c.arm fun x => { x with exec := x.exec ||| filled }
    writeS c b (BitVec.ofNat 64 got.length)
    chargeOf c clsStash (passesOf all + 1)
    match stop with
    | none => pure .on
    | some (l, o, x, cls) => throw (.trap (refillTrap false x cls o .read (maskOf [l]) filled l))

/-- REFILL (08 R226): its trap sets are taken over the exited lanes of its guard (17 R400). -/
def execRefill (d a b : Opnd) (s : State) : Host.Outcome State Fault Refusal :=
  teamStep (fun c => { plain 0x13 [⟨d, .dst, false⟩, ⟨a, .scalar, false⟩, ⟨b, .uniform, false⟩] .none with
      faulted := some (refillLanes c)
      early := refillCheck c })
    (refillBody d a b) s

/-! ### Counted loops (08 R231, R232) -/

/-- LOOP (08 R232). -/
def loopBody (d : Opnd) (imm : Nat) (c : Cx) : Act Next := do
  let n := (opScalar c d).toNat
  let exit := wrapTo 56 (c.a.pc + 32 * imm : Nat)
  if n = 0 then pure (.to exit)
  else do
    push c ⟨.loop, false, 0, 0, BitVec.ofNat 32 n, exit, wrapTo 56 (c.a.pc + 32 : Nat), c.a.exec, 0⟩
    pure .on

/-- LOOP (08 R231): an offset of 0, or a count with bits 63:32 set, is an illegal operand. -/
def execLoop (d : Opnd) (imm : Nat) (s : State) : Host.Outcome State Fault Refusal :=
  teamStep (fun c => { plain 0x14 [⟨d, .scalar, false⟩] .none with
      operandOk := imm != 0 && decide ((opScalar c d).toNat < 2 ^ 32) }) (loopBody d imm) s

/-- ENDL (08 R232). -/
def endlBody (c : Cx) : Act Next := do
  let e ← topKind c .loop
  if 1 < e.count.toNat then do
    modTeam c.tid fun t =>
      let k := stackIx t c.arm
      let st := stackOf t k
      withStack t k ⟨{ e with count := e.count - 1 } :: st.hw.tail, st.spilled⟩
    pure (.to e.pending)
  else do
    pop c
    pure (.to e.rejoin)

/-- ENDL (08 R232). -/
def execEndl (s : State) : Host.Outcome State Fault Refusal := teamStep (bare 0x15) endlBody s

end Sys2Proof.Machine
end

