-- ==== Sys2Proof/Machine/Integer.lean ====
section
/-! DEFINITION. Integer, logical, bit-field, compare, immediate, move and address instructions
(08 R213, R236-R245) and the mask instructions (08 R233-R235). -/
namespace Sys2Proof.Machine
open Sys2Proof

/-! ### Elements (06 R155, R156; 08 R213) -/

/-- Width of an integer element under an element type; codes 8 to 15 act as i32. -/
def intWidth (e : Nat) : Nat :=
  if e < 2 then 8 else if e < 4 then 16 else if e < 6 then 32 else if e < 8 then 64 else 32

/-- Whether the element type is signed; codes 8 to 15 act as i32. -/
def intSigned (e : Nat) : Bool := decide (8 ≤ e) || e % 2 = 0

/-- Whether integer instructions use pairs under an element type. -/
def intPair (e : Nat) : Bool := intWidth e = 64

/-- Whether a whole-value instruction moves a pair: types i64, n64 and f64 (06 R157). -/
def wholePair (e : Nat) : Bool := e = 6 || e = 7 || e = 11

/-- Element j of width w. -/
def elemOf (w x j : Nat) : Nat := x / 2 ^ (w * j) % 2 ^ w

/-- Elements put side by side, element 0 lowest. -/
def packElems (w : Nat) : List Nat → Nat
  | [] => 0
  | x :: t => x % 2 ^ w + 2 ^ w * packElems w t

/-- A lane's whole operand: a word, or a pair. -/
def laneVal (c : Cx) (pair : Bool) (lane : Nat) (o : Opnd) : Nat :=
  if pair then (opPair c lane o).toNat else (opWord c lane o).toNat

/-- Element j of an operand: an s or k register gives its low w bits to each element (08 R213). -/
def srcElem (c : Cx) (w lane : Nat) (o : Opnd) (j : Nat) : Nat :=
  match o with
  | .v _ => elemOf w (laneVal c (w = 64) lane o) j
  | _ => (opScalar c o).toNat % 2 ^ w

/-- Elements per operand. -/
def elemCount (w : Nat) : Nat := if w = 64 then 1 else 32 / w

/-- An integer operation on one element: width, signedness, the destination's element, x and y. -/
abbrev IntFn := Nat → Bool → Nat → Nat → Nat → Nat

/-- The second operand: a register or an immediate's value at a width. -/
inductive IntArg where
  | reg (o : Opnd)
  | imm (n : Nat)                 -- zero-extended
  | simm (n : Nat)                -- sign-extended from 8 bits
deriving DecidableEq, Repr

def argElem (c : Cx) (w lane : Nat) (j : Nat) : IntArg → Nat
  | .reg o => srcElem c w lane o j
  | .imm n => n
  | .simm n => wrapTo w (signed 8 n)

/-- The second operand of a T or S slot. -/
def argScalar (c : Cx) : IntArg → Nat
  | .reg o => (opScalar c o).toNat
  | .imm n => n
  | .simm n => wrapTo 64 (signed 8 n)

/-- A lane's result of an integer operation (08 R213). -/
def intLane (f : IntFn) (d a : Opnd) (y : IntArg) (c : Cx) (lane : Nat) : Nat :=
  let e := modeEtype c.a.mode
  let w := intWidth e
  packElems w ((List.range (elemCount w)).map fun j =>
    f w (intSigned e) (srcElem c w lane d j) (srcElem c w lane a j) (argElem c w lane j y))

/-- Write a value in each governed lane, as words or pairs. -/
def putLanes (pair : Bool) (d : Opnd) (m : Mask) (val : Nat → Nat) (t : Team) : Team :=
  match d with
  | .v i =>
    if pair then putPairs t i ((lanesOf t.lanes m).map fun l => (l, BitVec.ofNat 64 (val l)))
    else putVs t i ((lanesOf t.lanes m).map fun l => (l, BitVec.ofNat 32 (val l)))
  | _ => t

/-- Write the s destination of a T or S slot. -/
def putScalar (d : Opnd) (x : Nat) (t : Team) : Team :=
  match d with
  | .s i => putS t i (BitVec.ofNat 64 x)
  | _ => t

/-- The result of an integer operation put in its destination. -/
def intPut (f : IntFn) (d a : Opnd) (y : IntArg) (c : Cx) (t : Team) : Team :=
  let e := modeEtype c.a.mode
  if c.bt = .d then putLanes (intPair e) d c.gm (intLane f d a y c) t
  else putScalar d (f 64 (intSigned e) (opScalar c d).toNat (opScalar c a).toNat (argScalar c y) % 2 ^ 64) t

/-- The declaration of an integer operation. -/
def intSig (op : Nat) (role : Role) (d a : Opnd) (y : IntArg) (c : Cx) : Sig :=
  let p := intPair (modeEtype c.a.mode)
  plain op ([⟨d, role, p⟩, ⟨a, .src, p⟩] ++ (match y with
    | .reg o => [⟨o, .src, p⟩]
    | _ => [])) (.passes clsInteger)

/-! ### The operations (08 R236-R239) -/

def addFn : IntFn := fun _ _ _ x y => x + y
def subFn : IntFn := fun w _ _ x y => x + (2 ^ w - y % 2 ^ w)
def mulFn : IntFn := fun _ _ _ x y => x * y
def mulhFn : IntFn := fun w sg _ x y =>
  if sg then wrapTo w (signed w x * signed w y / (2 ^ w : Nat)) else x * y / 2 ^ w
def madFn : IntFn := fun _ _ d x y => d + x * y
/-- Quotient towards zero; all ones by 0 (08 R237). -/
def divFn : IntFn := fun w sg _ x y =>
  if y % 2 ^ w = 0 then 2 ^ w - 1
  else if sg then wrapTo w ((signed w x).tdiv (signed w y)) else x / y
/-- Remainder with the sign of x; x by 0 (08 R237). -/
def remFn : IntFn := fun w sg _ x y =>
  if y % 2 ^ w = 0 then x
  else if sg then wrapTo w ((signed w x).tmod (signed w y)) else x % y
/-- Order of two elements (08 R240). -/
def intLt (w : Nat) (sg : Bool) (x y : Nat) : Bool :=
  if sg then decide (signed w x < signed w y) else decide (x % 2 ^ w < y % 2 ^ w)
def minFn : IntFn := fun w sg _ x y => if intLt w sg y x then y else x
def maxFn : IntFn := fun w sg _ x y => if intLt w sg x y then y else x
def absFn : IntFn := fun w sg _ x _ => if sg && decide (signed w x < 0) then wrapTo w (-signed w x) else x
def negFn : IntFn := fun w _ _ x _ => 2 ^ w - x % 2 ^ w
def andFn : IntFn := fun _ _ _ x y => x &&& y
def orFn : IntFn := fun _ _ _ x y => x ||| y
def xorFn : IntFn := fun _ _ _ x y => x ^^^ y
def notFn : IntFn := fun w _ _ x _ => 2 ^ w - 1 - x % 2 ^ w
/-- Carry out of the unsigned sum (08 R236). -/
def addcFn : IntFn := fun w _ _ x y => (x % 2 ^ w + y % 2 ^ w) / 2 ^ w
def shlFn : IntFn := fun w _ _ x c => if c < w then x * 2 ^ c else 0
def shrFn : IntFn := fun w _ _ x c => if c < w then x % 2 ^ w / 2 ^ c else 0
def shaFn : IntFn := fun w _ _ x c => wrapTo w (signed w x / (2 ^ Nat.min c (w - 1) : Nat))
def rolFn : IntFn := fun w _ _ x c => x % 2 ^ w * 2 ^ (c % w) + x % 2 ^ w / 2 ^ (w - c % w)
/-- Leading zeros counted from bit n - 1 of x. -/
def leadingZeros (x : Nat) : Nat → Nat
  | 0 => 0
  | n + 1 => if bitSet x n then 0 else 1 + leadingZeros x n
def clzFn : IntFn := fun w _ _ x _ => leadingZeros x w
/-- One bits among the low n. -/
def onesOf (x : Nat) : Nat → Nat
  | 0 => 0
  | n + 1 => (if bitSet x n then 1 else 0) + onesOf x n
def popcFn : IntFn := fun w _ _ x _ => onesOf x w
/-- Bits 0 to n - 1 of x in reverse, under width w. -/
def reversed (w x : Nat) : Nat → Nat
  | 0 => 0
  | n + 1 => (if bitSet x n then 2 ^ (w - 1 - n) else 0) + reversed w x n
def brevFn : IntFn := fun w _ _ x _ => reversed w x w
/-- Position and clipped length of a bit field (08 R239). -/
def fieldPos (y : Nat) : Nat := y % 256
def fieldLen (w y : Nat) : Nat := Nat.min (y / 256 % 256) (w - y % 256)
def bfxFn : IntFn := fun w sg _ x y =>
  let len := fieldLen w y
  let v := x / 2 ^ fieldPos y % 2 ^ len
  if sg && decide (0 < len) then wrapTo w (signed len v) else v
def bfiFn : IntFn := fun w _ d x y =>
  let len := fieldLen w y
  let pos := fieldPos y
  d % 2 ^ w - d % 2 ^ w / 2 ^ pos % 2 ^ len * 2 ^ pos + x % 2 ^ len * 2 ^ pos

/-- BFX and BFI take the field from the whole of b's lane word, the same for every element
(08 R239). -/
def fieldPut (f : IntFn) (d a b : Opnd) (c : Cx) (t : Team) : Team :=
  let e := modeEtype c.a.mode
  let w := intWidth e
  if c.bt = .d then
    putLanes (intPair e) d c.gm (fun lane =>
      packElems w ((List.range (elemCount w)).map fun j =>
        f w (intSigned e) (srcElem c w lane d j) (srcElem c w lane a j) (opWord c lane b).toNat)) t
  else putScalar d (f 64 (intSigned e) (opScalar c d).toNat (opScalar c a).toNat (opScalar c b).toNat % 2 ^ 64) t

/-- ADD (08 R236). -/
def execAdd (d a b : Opnd) (s : State) : Host.Outcome State Fault Refusal :=
  teamStep (intSig 0x20 .dst d a (.reg b)) (pureBody (intPut addFn d a (.reg b))) s

/-- SUB (08 R236). -/
def execSub (d a b : Opnd) (s : State) : Host.Outcome State Fault Refusal :=
  teamStep (intSig 0x21 .dst d a (.reg b)) (pureBody (intPut subFn d a (.reg b))) s

/-- MUL (08 R236). -/
def execMul (d a b : Opnd) (s : State) : Host.Outcome State Fault Refusal :=
  teamStep (intSig 0x23 .dst d a (.reg b)) (pureBody (intPut mulFn d a (.reg b))) s

/-- MULH (08 R236). -/
def execMulh (d a b : Opnd) (s : State) : Host.Outcome State Fault Refusal :=
  teamStep (intSig 0x24 .dst d a (.reg b)) (pureBody (intPut mulhFn d a (.reg b))) s

/-- MAD (08 R236). -/
def execMad (d a b : Opnd) (s : State) : Host.Outcome State Fault Refusal :=
  teamStep (intSig 0x25 .both d a (.reg b)) (pureBody (intPut madFn d a (.reg b))) s

/-- DIV (08 R237). -/
def execDiv (d a b : Opnd) (s : State) : Host.Outcome State Fault Refusal :=
  teamStep (intSig 0x26 .dst d a (.reg b)) (pureBody (intPut divFn d a (.reg b))) s

/-- REM (08 R237). -/
def execRem (d a b : Opnd) (s : State) : Host.Outcome State Fault Refusal :=
  teamStep (intSig 0x27 .dst d a (.reg b)) (pureBody (intPut remFn d a (.reg b))) s

/-- MIN (08 R236). -/
def execMin (d a b : Opnd) (s : State) : Host.Outcome State Fault Refusal :=
  teamStep (intSig 0x28 .dst d a (.reg b)) (pureBody (intPut minFn d a (.reg b))) s

/-- MAX (08 R236). -/
def execMax (d a b : Opnd) (s : State) : Host.Outcome State Fault Refusal :=
  teamStep (intSig 0x29 .dst d a (.reg b)) (pureBody (intPut maxFn d a (.reg b))) s

/-- AND (08 R236). -/
def execAnd (d a b : Opnd) (s : State) : Host.Outcome State Fault Refusal :=
  teamStep (intSig 0x2c .dst d a (.reg b)) (pureBody (intPut andFn d a (.reg b))) s

/-- OR (08 R236). -/
def execOr (d a b : Opnd) (s : State) : Host.Outcome State Fault Refusal :=
  teamStep (intSig 0x2d .dst d a (.reg b)) (pureBody (intPut orFn d a (.reg b))) s

/-- XOR (08 R236). -/
def execXor (d a b : Opnd) (s : State) : Host.Outcome State Fault Refusal :=
  teamStep (intSig 0x2e .dst d a (.reg b)) (pureBody (intPut xorFn d a (.reg b))) s

/-- SHL (08 R238). -/
def execShl (d a b : Opnd) (s : State) : Host.Outcome State Fault Refusal :=
  teamStep (intSig 0x33 .dst d a (.reg b)) (pureBody (intPut shlFn d a (.reg b))) s

/-- SHR (08 R238). -/
def execShr (d a b : Opnd) (s : State) : Host.Outcome State Fault Refusal :=
  teamStep (intSig 0x34 .dst d a (.reg b)) (pureBody (intPut shrFn d a (.reg b))) s

/-- SHA (08 R238). -/
def execSha (d a b : Opnd) (s : State) : Host.Outcome State Fault Refusal :=
  teamStep (intSig 0x35 .dst d a (.reg b)) (pureBody (intPut shaFn d a (.reg b))) s

/-- ROL (08 R238). -/
def execRol (d a b : Opnd) (s : State) : Host.Outcome State Fault Refusal :=
  teamStep (intSig 0x39 .dst d a (.reg b)) (pureBody (intPut rolFn d a (.reg b))) s

/-- ADDC (08 R236). -/
def execAddc (d a b : Opnd) (s : State) : Host.Outcome State Fault Refusal :=
  teamStep (intSig 0x4d .dst d a (.reg b)) (pureBody (intPut addcFn d a (.reg b))) s

/-- ADDI (08 R236). -/
def execAddi (d a : Opnd) (imm : Nat) (s : State) : Host.Outcome State Fault Refusal :=
  teamStep (intSig 0x22 .dst d a (.simm imm)) (pureBody (intPut addFn d a (.simm imm))) s

/-- ANDI (08 R236). -/
def execAndi (d a : Opnd) (imm : Nat) (s : State) : Host.Outcome State Fault Refusal :=
  teamStep (intSig 0x30 .dst d a (.simm imm)) (pureBody (intPut andFn d a (.simm imm))) s

/-- ORI (08 R236). -/
def execOri (d a : Opnd) (imm : Nat) (s : State) : Host.Outcome State Fault Refusal :=
  teamStep (intSig 0x31 .dst d a (.imm imm)) (pureBody (intPut orFn d a (.imm imm))) s

/-- XORI (08 R236). -/
def execXori (d a : Opnd) (imm : Nat) (s : State) : Host.Outcome State Fault Refusal :=
  teamStep (intSig 0x32 .dst d a (.imm imm)) (pureBody (intPut xorFn d a (.imm imm))) s

/-- SHLI (08 R238). -/
def execShli (d a : Opnd) (imm : Nat) (s : State) : Host.Outcome State Fault Refusal :=
  teamStep (intSig 0x36 .dst d a (.imm imm)) (pureBody (intPut shlFn d a (.imm imm))) s

/-- SHRI (08 R238). -/
def execShri (d a : Opnd) (imm : Nat) (s : State) : Host.Outcome State Fault Refusal :=
  teamStep (intSig 0x37 .dst d a (.imm imm)) (pureBody (intPut shrFn d a (.imm imm))) s

/-- SHAI (08 R238). -/
def execShai (d a : Opnd) (imm : Nat) (s : State) : Host.Outcome State Fault Refusal :=
  teamStep (intSig 0x38 .dst d a (.imm imm)) (pureBody (intPut shaFn d a (.imm imm))) s

/-- ABS (08 R236). -/
def execAbs (d a : Opnd) (s : State) : Host.Outcome State Fault Refusal :=
  teamStep (intSig 0x2a .dst d a (.imm 0)) (pureBody (intPut absFn d a (.imm 0))) s

/-- NEG (08 R236). -/
def execNeg (d a : Opnd) (s : State) : Host.Outcome State Fault Refusal :=
  teamStep (intSig 0x2b .dst d a (.imm 0)) (pureBody (intPut negFn d a (.imm 0))) s

/-- NOT (08 R236). -/
def execNot (d a : Opnd) (s : State) : Host.Outcome State Fault Refusal :=
  teamStep (intSig 0x2f .dst d a (.imm 0)) (pureBody (intPut notFn d a (.imm 0))) s

/-- CLZ (08 R239). -/
def execClz (d a : Opnd) (s : State) : Host.Outcome State Fault Refusal :=
  teamStep (intSig 0x3a .dst d a (.imm 0)) (pureBody (intPut clzFn d a (.imm 0))) s

/-- POPC (08 R239). -/
def execPopc (d a : Opnd) (s : State) : Host.Outcome State Fault Refusal :=
  teamStep (intSig 0x3b .dst d a (.imm 0)) (pureBody (intPut popcFn d a (.imm 0))) s

/-- BREV (08 R239). -/
def execBrev (d a : Opnd) (s : State) : Host.Outcome State Fault Refusal :=
  teamStep (intSig 0x3c .dst d a (.imm 0)) (pureBody (intPut brevFn d a (.imm 0))) s

/-- BFX (08 R239). -/
def execBfx (d a b : Opnd) (s : State) : Host.Outcome State Fault Refusal :=
  teamStep (intSig 0x3d .dst d a (.reg b)) (pureBody (fieldPut bfxFn d a b)) s

/-- BFI (08 R239). -/
def execBfi (d a b : Opnd) (s : State) : Host.Outcome State Fault Refusal :=
  teamStep (intSig 0x3e .both d a (.reg b)) (pureBody (fieldPut bfiFn d a b)) s

/-! ### Compares (08 R240) -/

/-- A comparison of elements: width, signedness, x, y. -/
abbrev CmpFn := Nat → Bool → Nat → Nat → Bool

def eqFn : CmpFn := fun w _ x y => x % 2 ^ w == y % 2 ^ w
def neFn : CmpFn := fun w _ x y => x % 2 ^ w != y % 2 ^ w
def ltFn : CmpFn := fun w sg x y => intLt w sg x y
def leFn : CmpFn := fun w sg x y => !intLt w sg y x
def gtFn : CmpFn := fun w sg x y => intLt w sg y x
def geFn : CmpFn := fun w sg x y => !intLt w sg x y

/-- The lanes of a mask for which a test holds. -/
def lanesWhere (n : Nat) (m : Mask) (p : Nat → Bool) : Mask := maskOf ((lanesOf n m).filter p)

/-- Write one result in every bit of the arm's execution mask, as a T or S slot does (08 R234). -/
def putFlag (c : Cx) (d : Nat) (b : Bool) (t : Team) : Team :=
  putMask t d c.a.exec (if b then c.a.exec else 0)

/-- A compare writes a mask register: the lanes where it holds for every element (08 R240). -/
def cmpPut (f : CmpFn) (d : Nat) (a b : Opnd) (c : Cx) (t : Team) : Team :=
  let e := modeEtype c.a.mode
  let w := intWidth e
  if c.bt = .d then
    putMask t d c.gm (lanesWhere t.lanes c.gm fun lane =>
      (List.range (elemCount w)).all fun j => f w (intSigned e) (srcElem c w lane a j) (srcElem c w lane b j))
  else putFlag c d (f 64 (intSigned e) (opScalar c a).toNat (opScalar c b).toNat) t

/-- The declaration of an instruction that writes a mask register: m0 is no destination (08 R233). -/
def maskSig (op d : Nat) (uses : List Use) : Sig :=
  { plain op uses (.passes clsInteger) with operandOk := d != 0 }

def cmpSig (op d : Nat) (a b : Opnd) (c : Cx) : Sig :=
  let p := intPair (modeEtype c.a.mode)
  maskSig op d [⟨a, .src, p⟩, ⟨b, .src, p⟩]

/-- CEQ (08 R240). -/
def execCeq (d : Nat) (a b : Opnd) (s : State) : Host.Outcome State Fault Refusal :=
  teamStep (cmpSig 0x40 d a b) (pureBody (cmpPut eqFn d a b)) s

/-- CNE (08 R240). -/
def execCne (d : Nat) (a b : Opnd) (s : State) : Host.Outcome State Fault Refusal :=
  teamStep (cmpSig 0x41 d a b) (pureBody (cmpPut neFn d a b)) s

/-- CLT (08 R240). -/
def execClt (d : Nat) (a b : Opnd) (s : State) : Host.Outcome State Fault Refusal :=
  teamStep (cmpSig 0x42 d a b) (pureBody (cmpPut ltFn d a b)) s

/-- CLE (08 R240). -/
def execCle (d : Nat) (a b : Opnd) (s : State) : Host.Outcome State Fault Refusal :=
  teamStep (cmpSig 0x43 d a b) (pureBody (cmpPut leFn d a b)) s

/-- CGT (08 R240). -/
def execCgt (d : Nat) (a b : Opnd) (s : State) : Host.Outcome State Fault Refusal :=
  teamStep (cmpSig 0x44 d a b) (pureBody (cmpPut gtFn d a b)) s

/-- CGE (08 R240). -/
def execCge (d : Nat) (a b : Opnd) (s : State) : Host.Outcome State Fault Refusal :=
  teamStep (cmpSig 0x45 d a b) (pureBody (cmpPut geFn d a b)) s

/-! ### Selection, immediates and moves (08 R241, R242) -/

/-- SEL writes every lane of the execution mask (08 R241). -/
def selPut (d a b : Opnd) (c : Cx) (t : Team) : Team :=
  let g := maskReg c.t (modeGuard c.a.mode)
  let p := wholePair (modeEtype c.a.mode)
  if c.bt = .d then
    putLanes p d c.a.exec (fun lane => laneVal c p lane (if g.getLsbD lane then a else b)) t
  else putScalar d (opScalar c (if g &&& c.a.exec ≠ 0 then a else b)).toNat t

def selSig (d a b : Opnd) (c : Cx) : Sig :=
  let p := wholePair (modeEtype c.a.mode)
  plain 0x3f [⟨d, .dst, p⟩, ⟨a, .src, p⟩, ⟨b, .src, p⟩] (.execPasses clsInteger 0)

/-- SEL (08 R241). -/
def execSel (d a b : Opnd) (s : State) : Host.Outcome State Fault Refusal :=
  teamStep (selSig d a b) (pureBody (selPut d a b)) s

/-- An immediate instruction on a whole lane word or s register: its function of the width and the old
value (08 R242). -/
def immPut (f : Nat → Nat → Nat) (d : Opnd) (c : Cx) (t : Team) : Team :=
  if c.bt = .d then putLanes false d c.gm (fun lane => f 32 (opWord c lane d).toNat) t
  else putScalar d (f 64 (opScalar c d).toNat % 2 ^ 64) t

/-- LIM (08 R242). -/
def execLim (d : Opnd) (imm : Nat) (s : State) : Host.Outcome State Fault Refusal :=
  teamStep (fun _ => plain 0x46 [⟨d, .dst, false⟩] (.passes clsInteger)) (pureBody (immPut (fun w _ => wrapTo w (signed 16 imm)) d)) s

/-- LIMH: bits 31:16, every other bit unchanged (08 R242). -/
def execLimh (d : Opnd) (imm : Nat) (s : State) : Host.Outcome State Fault Refusal :=
  teamStep (fun _ => plain 0x47 [⟨d, .both, false⟩] (.passes clsInteger)) (pureBody (immPut (fun _ x => x / 2 ^ 32 * 2 ^ 32 + imm % 65536 * 65536 + x % 65536) d)) s

/-- LIMX (08 R242). -/
def execLimx (d : Opnd) (imm : Nat) (s : State) : Host.Outcome State Fault Refusal :=
  teamStep (fun _ => plain 0x48 [⟨d, .both, false⟩] (.passes clsInteger)) (pureBody (immPut (fun w x => (x * 65536 + imm % 65536) % 2 ^ w) d)) s

/-- MOV moves a word, a pair under the 64-bit types, or a whole s or k register (08 R242). -/
def movPut (d a : Opnd) (c : Cx) (t : Team) : Team :=
  let p := wholePair (modeEtype c.a.mode)
  if c.bt = .d then putLanes p d c.gm (fun lane => laneVal c p lane a) t
  else putScalar d (opScalar c a).toNat t

def movSig (op : Nat) (d a : Opnd) (c : Cx) : Sig :=
  let p := wholePair (modeEtype c.a.mode)
  plain op [⟨d, .dst, p⟩, ⟨a, .src, p⟩] (.passes clsInteger)

/-- MOV (08 R242). -/
def execMov (d a : Opnd) (s : State) : Host.Outcome State Fault Refusal :=
  teamStep (movSig 0x49 d a) (pureBody (movPut d a)) s

/-! ### Work identifiers (02 R26, R27; 08 R243) -/

/-- The sum of the widths of fields 2 to i - 1. -/
def widthsBelow (l : Launch) (i : Nat) : Nat :=
  ((List.range i).filter (2 ≤ ·)).foldl (fun a j => a + fieldWidth l j) 0

/-- Field f of the work identifier of a lane, or the block's linear index (08 R243). -/
def workField (c : Cx) (f lane : Nat) : Nat :=
  if f = 0 then lane
  else if f = 1 then c.t.idx
  else if f = 6 then c.b.linear
  else c.b.linear / 2 ^ widthsBelow c.l f % 2 ^ fieldWidth c.l f

def wfldPut (d : Opnd) (h : Bool) (f : Nat) (c : Cx) (t : Team) : Team :=
  if c.bt = .d then putLanes false d c.gm (fun lane => if h then workField c f lane / 2 ^ 32 else workField c f lane) t
  else putScalar d (workField c f 0) t

/-- f of 7, and in a T or S slot f of 0 or h of 1, are illegal operands (18 R427). -/
def wfldSig (d : Opnd) (h : Bool) (f : Nat) (c : Cx) : Sig :=
  { plain 0x4b [⟨d, .dst, false⟩] (.passes clsInteger) with
    operandOk := decide (f < 7) && (c.bt = .d || (f != 0 && !h)) }

/-- WFLD (08 R243). -/
def execWfld (d : Opnd) (h : Bool) (f : Nat) (s : State) : Host.Outcome State Fault Refusal :=
  teamStep (wfldSig d h f) (pureBody (wfldPut d h f)) s

/-! ### Addresses (08 R244) -/

/-- Size in bytes of an element type; 4-bit types are scaled apart. -/
def etypeBytes : Nat → Nat
  | 0 => 1 | 1 => 1 | 2 => 2 | 3 => 2 | 4 => 4 | 5 => 4 | 6 => 8 | 7 => 8 | 8 => 2 | 9 => 2 | 10 => 4
  | 11 => 8 | _ => 1

/-- The byte offset of element b (08 R244). -/
def leaOffset (e : Nat) (b : Int) : Int := if 14 ≤ e then b / 2 else b * (etypeBytes e : Nat)

def leaPut (d a b : Opnd) (c : Cx) (t : Team) : Team :=
  let e := modeEtype c.a.mode
  if c.bt = .d then
    putLanes true d c.gm (fun lane =>
      wrapTo 64 ((opPair c lane a).toNat + leaOffset e (signed 32 (opWord c lane b).toNat))) t
  else putScalar d (wrapTo 64 ((opScalar c a).toNat + leaOffset e (signed 64 (opScalar c b).toNat))) t

/-- LEA (08 R244). -/
def execLea (d a b : Opnd) (s : State) : Host.Outcome State Fault Refusal :=
  teamStep (fun _ => plain 0x4c [⟨d, .dst, true⟩, ⟨a, .src, true⟩, ⟨b, .src, false⟩] (.passes clsInteger)) (pureBody (leaPut d a b)) s

/-! ### Integer conversion (06 R159, 08 R245) -/

/-- One element converted between integer types: extension, or narrowing under mode.sat. -/
def convInt (sat : Bool) (src dst x : Nat) : Nat :=
  let v : Int := if intSigned src then signed (intWidth src) x else (x % 2 ^ intWidth src : Nat)
  let w := intWidth dst
  if sat && decide (w ≤ intWidth src) then
    let lo : Int := if intSigned dst then -(2 ^ (w - 1) : Nat) else 0
    let hi : Int := if intSigned dst then (2 ^ (w - 1) : Nat) - 1 else (2 ^ w : Nat) - 1
    wrapTo w (if v < lo then lo else if hi < v then hi else v)
  else wrapTo w v

/-- Parts that a conversion allows (08 R245). -/
def cvtiParts (dst src : Nat) : Nat :=
  if intWidth src < intWidth dst then elemCount (intWidth src) / elemCount (intWidth dst)
  else elemCount (intWidth dst) / elemCount (intWidth src)

/-- A lane's destination after CVTI. -/
def cvtiLane (c : Cx) (d a : Opnd) (p dst src lane : Nat) : Nat :=
  let ws := intWidth src
  let wd := intWidth dst
  let sat := modeSat c.a.mode
  if ws < wd then
    packElems wd ((List.range (elemCount wd)).map fun j =>
      convInt sat src dst (srcElem c ws lane a (p * elemCount wd + j)))
  else
    packElems wd ((List.range (elemCount wd)).map fun j =>
      if p * elemCount ws ≤ j && j < p * elemCount ws + elemCount ws then
        convInt sat src dst (srcElem c ws lane a (j - p * elemCount ws))
      else srcElem c wd lane d j)

def cvtiPut (d a : Opnd) (p dst src : Nat) (c : Cx) (t : Team) : Team :=
  if c.bt = .d then putLanes (intWidth dst = 64) d c.gm (cvtiLane c d a p dst src) t
  else putScalar d (convInt (modeSat c.a.mode) src dst (opScalar c a).toNat) t

def cvtiSig (d a : Opnd) (p dst src : Nat) (c : Cx) : Sig :=
  { plain 0x4e [⟨d, .both, intWidth dst = 64⟩, ⟨a, .src, intWidth src = 64⟩] (.passes clsInteger) with
    operandOk := decide (p < cvtiParts dst src) && (c.bt = .d || p = 0) }

/-- CVTI (08 R245). -/
def execCvti (d a : Opnd) (p dst src : Nat) (s : State) : Host.Outcome State Fault Refusal :=
  teamStep (cvtiSig d a p dst src) (pureBody (cvtiPut d a p dst src)) s

/-! ### Mask instructions (08 R235) -/

/-- The lanes that a mask instruction reads and writes: the governing mask, or the execution mask in a
T or S slot. -/
def maskScope (c : Cx) : Mask := if c.bt = .d then c.gm else c.a.exec

def logicPut (f : Mask → Mask → Mask) (d a b : Nat) (c : Cx) (t : Team) : Team :=
  putMask t d (maskScope c) (f (maskReg c.t a) (maskReg c.t b))

/-- MAND (08 R235). -/
def execMand (d a b : Nat) (s : State) : Host.Outcome State Fault Refusal :=
  teamStep (fun _ => maskSig 0x18 d []) (pureBody (logicPut (fun x y => x &&& y) d a b)) s

/-- MOR (08 R235). -/
def execMor (d a b : Nat) (s : State) : Host.Outcome State Fault Refusal :=
  teamStep (fun _ => maskSig 0x19 d []) (pureBody (logicPut (fun x y => x ||| y) d a b)) s

/-- MXOR (08 R235). -/
def execMxor (d a b : Nat) (s : State) : Host.Outcome State Fault Refusal :=
  teamStep (fun _ => maskSig 0x1a d []) (pureBody (logicPut (fun x y => x ^^^ y) d a b)) s

/-- MNOT (08 R235). -/
def execMnot (d a : Nat) (s : State) : Host.Outcome State Fault Refusal :=
  teamStep (fun _ => maskSig 0x1b d []) (pureBody (logicPut (fun x _ => ~~~x) d a a)) s

/-- MMOV (08 R235). -/
def execMmov (d a : Nat) (s : State) : Host.Outcome State Fault Refusal :=
  teamStep (fun _ => maskSig 0x1f d []) (pureBody (logicPut (fun x _ => x) d a a)) s

/-- The lowest lane of a mask, or all ones (08 R235). -/
def firstLane (n : Nat) (m : Mask) : Nat :=
  match lanesOf n m with
  | l :: _ => l
  | [] => 2 ^ 64 - 1

/-- MCNT (08 R235). -/
def execMcnt (d : Opnd) (a : Nat) (s : State) : Host.Outcome State Fault Refusal :=
  teamStep (fun _ => plain 0x1c [⟨d, .uniform, false⟩] (.passes clsInteger)) (pureBody fun c t => putScalar d (lanesOf c.t.lanes (maskReg c.t a &&& maskScope c)).length t) s

/-- MFIRST (08 R235). -/
def execMfirst (d : Opnd) (a : Nat) (s : State) : Host.Outcome State Fault Refusal :=
  teamStep (fun _ => plain 0x1d [⟨d, .uniform, false⟩] (.passes clsInteger)) (pureBody fun c t => putScalar d (firstLane c.t.lanes (maskReg c.t a &&& maskScope c)) t) s

/-- MSET: 1 where the lane's operand, or the s register, is not zero (08 R235). -/
def msetPut (d : Nat) (a : Opnd) (c : Cx) (t : Team) : Team :=
  if c.bt = .d then
    putMask t d c.gm (lanesWhere t.lanes c.gm fun lane => laneVal c (wholePair (modeEtype c.a.mode)) lane a != 0)
  else putFlag c d (opScalar c a != 0) t

/-- MSET (08 R235). -/
def execMset (d : Nat) (a : Opnd) (s : State) : Host.Outcome State Fault Refusal :=
  teamStep (fun c => maskSig 0x1e d [⟨a, .src, wholePair (modeEtype c.a.mode)⟩]) (pureBody (msetPut d a)) s

end Sys2Proof.Machine
end

