-- ==== Sys2Proof/Machine/Flags.lean ====
section
/-! DEFINITION. Floating-point values, the one rounding that every result takes, exact arithmetic on
them, the sticky flags that each raises, and the stochastic generator (06 R160-R173, R181; 09 R252,
R253, R256, R257). -/
namespace Sys2Proof.Machine
open Sys2Proof

/-! ### Layouts (06 R160, R161) -/

/-- Mantissa bits, exponent bits and bias of a floating-point type code. -/
def fmtMan : Nat → Nat
  | 8 => 10 | 9 => 7 | 10 => 23 | 11 => 52 | 12 => 3 | 13 => 2 | _ => 1
def fmtExp : Nat → Nat
  | 8 => 5 | 9 => 8 | 10 => 8 | 11 => 11 | 12 => 4 | 13 => 5 | _ => 2
def fmtBias : Nat → Nat
  | 8 => 15 | 9 => 127 | 10 => 127 | 11 => 1023 | 12 => 7 | 13 => 15 | _ => 1
def fmtWidth (f : Nat) : Nat := 1 + fmtExp f + fmtMan f
/-- Types that take part in flushing (06 R170). -/
def fmtFlushes (f : Nat) : Bool := decide (8 ≤ f) && decide (f ≤ 11)
/-- Types with infinities. -/
def fmtHasInf (f : Nat) : Bool := fmtFlushes f || f = 13
/-- Exponent of the least normal. -/
def fmtEmin (f : Nat) : Int := 1 - (fmtBias f : Int)

/-- Bit patterns, without sign, of infinity, the largest finite value and the default NaN
(06 R160, R171). -/
def infBits (f : Nat) : Nat := (2 ^ fmtExp f - 1) * 2 ^ fmtMan f
def maxBits (f : Nat) : Nat :=
  if fmtHasInf f then infBits f - 1 else if f = 12 then 0x7e else 7
def nanBits (f : Nat) : Nat :=
  if fmtFlushes f then infBits f + 2 ^ (fmtMan f - 1)
  else if f = 13 then 0x7e else if f = 12 then 0x7f else 0
def signBit (f : Nat) (neg : Bool) : Nat := if neg then 2 ^ (fmtWidth f - 1) else 0

/-- The sticky flags as one number (06 R172). -/
def flagNv : Nat := 1
def flagDz : Nat := 2
def flagOf : Nat := 4
def flagUf : Nat := 8
def flagNx : Nat := 16

/-- A floating-point value: a NaN (signalling or not), an infinity, or ±m × 2^e. -/
inductive FVal where
  | nan (sig : Bool)
  | inf (neg : Bool)
  | num (neg : Bool) (m : Nat) (e : Int)
deriving DecidableEq, Repr

/-- The value of a bit pattern (06 R160, R161). -/
def decodeF (f x : Nat) : FVal :=
  let p := fmtMan f
  let man := x % 2 ^ p
  let ex := x / 2 ^ p % 2 ^ fmtExp f
  let neg := bitSet x (fmtWidth f - 1)
  let top := decide (ex = 2 ^ fmtExp f - 1)
  if top && fmtHasInf f && man = 0 then .inf neg
  else if top && fmtHasInf f then .nan (fmtFlushes f && !bitSet man (p - 1))
  else if top && f = 12 && man = 7 then .nan false
  else if ex = 0 then .num neg man (fmtEmin f - p)
  else .num neg (2 ^ p + man) (fmtEmin f - p + (ex - 1 : Nat))

/-- Whether a bit pattern is subnormal. -/
def isSubnormal (f x : Nat) : Bool := x / 2 ^ fmtMan f % 2 ^ fmtExp f = 0 && x % 2 ^ fmtMan f != 0

/-- The value that an instruction reads: under mode.fsub a subnormal reads as zero (06 R170). -/
def readF (f : Nat) (fsub : Bool) (x : Nat) : FVal :=
  if fsub && fmtFlushes f && isSubnormal f x then .num (bitSet x (fmtWidth f - 1)) 0 0 else decodeF f x

/-! ### Rounding (06 R164-R170) -/

/-- How an instruction rounds: the mode, saturation, flushing, and the element's draw under SRD. With
no draw SRD rounds as RNE (06 R167). -/
structure Rounding where
  mode : Nat
  sat : Bool
  fsub : Bool
  draw : Option Nat
deriving DecidableEq, Repr

/-- A result: its bits and the flags it raises. -/
structure FRes where
  bits : Nat
  flags : Nat
deriving DecidableEq, Repr

/-- A magnitude m × 2^e (a sticky m stands for one a little larger) cut at the quantum 2^q: the
multiple of 2^q below it, and the fraction left in units of 2^-17, its lowest bit standing for every
bit below. -/
def cutAt (m : Nat) (e : Int) (sticky : Bool) (q : Int) : Nat × Nat :=
  if q ≤ e then (m * 2 ^ (e - q).toNat, if sticky then 1 else 0)
  else
    let sh := (q - e).toNat
    let rem := m % 2 ^ sh
    let x := rem * 2 ^ 17 / 2 ^ sh
    let low := sticky || decide (rem * 2 ^ 17 % 2 ^ sh ≠ 0)
    (m / 2 ^ sh, if low && x % 2 = 0 then x + 1 else x)

/-- Whether the magnitude rounds away from zero (06 R165, R166): k the multiple below, fr the fraction
of `cutAt`; one half is 2^16. -/
def roundsUp (r : Rounding) (neg : Bool) (k fr : Nat) : Bool :=
  match r.mode with
  | 1 => false
  | 2 => !neg && fr != 0
  | 3 => neg && fr != 0
  | 4 => decide (65536 ≤ fr)
  | 5 => match r.draw with
    | some d => decide (65536 ≤ fr / 2 + d)
    | none => decide (65536 < fr) || (fr = 65536 && k % 2 = 1)
  | _ => decide (65536 < fr) || (fr = 65536 && k % 2 = 1)

/-- The overflowing result (06 R168). -/
def overflowed (f : Nat) (r : Rounding) (neg : Bool) : FRes :=
  let top := maxBits f
  let b :=
    if r.sat || f = 14 then top
    else if f = 12 then nanBits 12
    else match r.mode with
      | 1 => top
      | 2 => if neg then top else infBits f
      | 3 => if neg then infBits f else top
      | _ => infBits f
  ⟨b + signBit f neg, flagOf + flagNx⟩

/-- Round ±m × 2^e, a little more when sticky, to a type (06 R164-R170). A sticky m has at least 20
bits below the destination's precision. -/
def roundNum (f : Nat) (r : Rounding) (neg : Bool) (m : Nat) (e : Int) (sticky : Bool) : FRes :=
  if m = 0 then ⟨signBit f neg, 0⟩
  else
    let p : Int := fmtMan f
    let top : Int := e + Nat.log2 m
    let emin := fmtEmin f
    let qU := top - p
    let q := if top < emin then emin - p else qU
    let cut := cutAt m e sticky q
    let k := if roundsUp r neg cut.1 cut.2 then cut.1 + 1 else cut.1
    let cutU := cutAt m e sticky qU
    let kU := if roundsUp r neg cutU.1 cutU.2 then cutU.1 + 1 else cutU.1
    -- with unbounded exponent the result is kU * 2^qU; below the least normal it is tiny
    let tiny := decide (top < emin) && !(decide (top = emin - 1) && kU = 2 ^ (fmtMan f + 1))
    let inexact := cut.2 != 0
    let bits := k + ((q - (emin - p)).toNat) * 2 ^ fmtMan f
    if tiny && r.fsub && fmtFlushes f then ⟨signBit f neg, flagUf + flagNx⟩
    else if maxBits f < bits then overflowed f r neg
    else ⟨bits + signBit f neg,
      (if inexact then flagNx else 0) + (if tiny && inexact then flagUf else 0)⟩

/-- A NaN result: the default NaN; under e2m1 zero and invalid (06 R171). -/
def nanResult (f : Nat) (sig : Bool) : FRes :=
  ⟨nanBits f, if sig || f = 14 then flagNv else 0⟩

/-- An infinite result; where the type has none, the largest finite value and invalid (06 R168). -/
def infResult (f : Nat) (neg : Bool) : FRes :=
  if fmtHasInf f then ⟨infBits f + signBit f neg, 0⟩ else ⟨maxBits f + signBit f neg, flagNv⟩

/-- Round a value to a type. -/
def roundF (f : Nat) (r : Rounding) (v : FVal) (sticky : Bool) : FRes :=
  match v with
  | .nan sig => nanResult f sig
  | .inf neg => infResult f neg
  | .num neg m e => roundNum f r neg m e sticky

/-- Add flags to a result. -/
def FRes.withFlags (x : FRes) (fl : Nat) : FRes := ⟨x.bits, x.flags ||| fl⟩

/-! ### Exact arithmetic (06 R171, R181) -/

/-- A value with the flags that making it has raised. -/
structure FArg where
  v : FVal
  flags : Nat
  sticky : Bool
deriving DecidableEq, Repr

def FArg.exact (v : FVal) : FArg := ⟨v, 0, false⟩
/-- An invalid operation. -/
def FArg.invalid : FArg := ⟨.nan false, flagNv, false⟩

def FVal.isSig : FVal → Bool
  | .nan s => s
  | _ => false
def FVal.isNan : FVal → Bool
  | .nan _ => true
  | _ => false
def FVal.neg : FVal → FVal
  | .nan s => .nan s
  | .inf n => .inf (!n)
  | .num n m e => .num (!n) m e

/-- A NaN that comes from NaN inputs (06 R171). -/
def nanOf (xs : List FVal) : FArg := ⟨.nan false, if xs.any FVal.isSig then flagNv else 0, false⟩

/-- A number as a signed multiple of 2^q, for q no greater than its exponent. -/
def atQuantum (neg : Bool) (m : Nat) (e q : Int) : Int :=
  let k : Nat := m * 2 ^ (e - q).toNat
  if neg then -(k : Int) else k

/-- A signed multiple of 2^q as a number; zero takes the sign given. -/
def ofQuantum (zeroNeg : Bool) (k q : Int) : FVal :=
  if k = 0 then .num zeroNeg 0 0 else .num (decide (k < 0)) k.natAbs q

/-- x + y exactly. `rdn` makes the zero of x − x negative (06 R171). -/
def addF (rdn : Bool) (x y : FVal) : FArg :=
  match x, y with
  | .inf a, .inf b => if a = b then .exact (.inf a) else .invalid
  | .inf a, .num _ _ _ => .exact (.inf a)
  | .num _ _ _, .inf b => .exact (.inf b)
  | .num a m e, .num b n g =>
    if m = 0 && n = 0 then .exact (.num (if a = b then a else rdn) 0 0)
    else if m = 0 then .exact (.num b n g)
    else if n = 0 then .exact (.num a m e)
    else
      let q := if e ≤ g then e else g
      .exact (ofQuantum rdn (atQuantum a m e q + atQuantum b n g q) q)
  | x, y => nanOf [x, y]

/-- x × y exactly. -/
def mulF (x y : FVal) : FArg :=
  match x, y with
  | .inf a, .inf b => .exact (.inf (a != b))
  | .inf a, .num b n _ => if n = 0 then .invalid else .exact (.inf (a != b))
  | .num a m _, .inf b => if m = 0 then .invalid else .exact (.inf (a != b))
  | .num a m e, .num b n g => .exact (.num (a != b) (m * n) (e + g))
  | x, y => nanOf [x, y]

/-- p + z where p is a product with its flags: one rounding, no flag hidden (06 R164, R171). -/
def fmaF (rdn : Bool) (p : FArg) (z : FVal) : FArg :=
  let s := addF rdn p.v z
  ⟨s.v, s.flags ||| p.flags, false⟩

/-- x ÷ y, to 100 bits and more and a sticky bit (06 R171). -/
def divF (x y : FVal) : FArg :=
  match x, y with
  | .inf _, .inf _ => .invalid
  | .inf a, .num b _ _ => .exact (.inf (a != b))
  | .num a _ _, .inf b => .exact (.num (a != b) 0 0)
  | .num a m e, .num b n g =>
    if n = 0 then
      if m = 0 then .invalid else ⟨.inf (a != b), flagDz, false⟩
    else
      let k := m * 2 ^ 160
      ⟨.num (a != b) (k / n) (e - g - 160), 0, decide (k % n ≠ 0)⟩
  | x, y => nanOf [x, y]

/-- The integer square root, one bit at a time from bit n - 1 down. -/
def isqrtFrom (x : Nat) : Nat → Nat → Nat
  | 0, acc => acc
  | n + 1, acc => isqrtFrom x n (if (acc + 2 ^ n) * (acc + 2 ^ n) ≤ x then acc + 2 ^ n else acc)
def isqrt (x : Nat) : Nat := isqrtFrom x (Nat.log2 x / 2 + 1) 0

/-- m × 2^e with an even exponent. -/
def evenExp (m : Nat) (e : Int) : Nat × Int := if e % 2 = 0 then (m, e) else (2 * m, e - 1)

/-- √x (06 R171, 09 R255). -/
def sqrtF (x : FVal) : FArg :=
  match x with
  | .nan _ => nanOf [x]
  | .inf neg => if neg then .invalid else .exact (.inf false)
  | .num neg m e =>
    if m = 0 then .exact (.num neg 0 0)
    else if neg then .invalid
    else
      let (m, e) := evenExp m e
      let k := isqrt (m * 2 ^ 240)
      ⟨.num false k (e / 2 - 120), 0, decide (k * k ≠ m * 2 ^ 240)⟩

/-- 1 ÷ √x (09 R254, R255). -/
def rsqrtF (x : FVal) : FArg :=
  match x with
  | .nan _ => nanOf [x]
  | .inf neg => if neg then .invalid else .exact (.num false 0 0)
  | .num neg m e =>
    if m = 0 then ⟨.inf neg, flagDz, false⟩
    else if neg then .invalid
    else
      let (m, e) := evenExp m e
      let k := isqrt (2 ^ 320 / m)
      ⟨.num false k (-(e / 2) - 160), 0, decide (k * k * m ≠ 2 ^ 320)⟩

/-- The exact sum of one group (06 R181): its special values, and +0 for a sum of zero. A quiet NaN hides no invalid
operation among the other terms (R171). -/
def groupSum (xs : List FArg) : FArg :=
  let fl := xs.foldl (fun a x => a ||| x.flags) 0
  let pos := xs.any fun x => x.v = .inf false
  let neg := xs.any fun x => x.v = .inf true
  if xs.any (fun x => x.v.isNan) then
    ⟨.nan false, fl ||| (if xs.any (fun x => x.v.isSig) || (pos && neg) then flagNv else 0), false⟩
  else
    if pos && neg then ⟨.nan false, fl ||| flagNv, false⟩
    else if pos then ⟨.inf false, fl, false⟩
    else if neg then ⟨.inf true, fl, false⟩
    else
      let nums := xs.filterMap fun x => match x.v with
        | .num n m e => if m = 0 then none else some (n, m, e)
        | _ => none
      let q := nums.foldl (fun (a : Int) t => if t.2.2 < a then t.2.2 else a) (nums.headD (false, 0, 0)).2.2
      ⟨ofQuantum false (nums.foldl (fun (a : Int) t => a + atQuantum t.1 t.2.1 t.2.2 q) 0) q, fl, false⟩

/-- Multiply by 2^n exactly. -/
def scaleF (v : FVal) (n : Int) : FVal :=
  match v with
  | .num neg m e => .num neg m (e + n)
  | v => v

/-- Round an argument, keeping its flags. -/
def finishF (f : Nat) (r : Rounding) (a : FArg) : FRes := (roundF f r a.v a.sticky).withFlags a.flags

/-! ### Comparison (09 R252) -/

/-- The order of two values that are not NaN: x < y, with −0 equal to +0. -/
def ltF (x y : FVal) : Bool :=
  match x, y with
  | .inf a, .inf b => a && !b
  | .inf a, .num _ _ _ => a
  | .num _ _ _, .inf b => !b
  | .num a m e, .num b n g =>
    let q := if e ≤ g then e else g
    decide (atQuantum a m e q < atQuantum b n g q)
  | _, _ => false

def eitherNan (x y : FVal) : Bool := x.isNan || y.isNan
def eqF (x y : FVal) : Bool := !eitherNan x y && !ltF x y && !ltF y x
def leF (x y : FVal) : Bool := !eitherNan x y && !ltF y x

/-- Sign of a value that is not NaN. -/
def FVal.negative : FVal → Bool
  | .nan _ => false
  | .inf n => n
  | .num n _ _ => n

/-- x is below y in the order of FMIN and FMAX, in which −0 is below +0 (09 R251). -/
def belowF (x y : FVal) : Bool := ltF x y || (eqF x y && x.negative && !y.negative)

/-! ### Integers (06 R169, 09 R256, R257) -/

/-- ±m × 2^e rounded to an integer: its magnitude, and whether anything was lost. -/
def roundInt (r : Rounding) (neg : Bool) (m : Nat) (e : Int) : Nat × Bool :=
  let cut := cutAt m e false 0
  (if roundsUp r neg cut.1 cut.2 then cut.1 + 1 else cut.1, cut.2 != 0)

/-- Clamp an integer to a width and signedness. -/
def clampInt (w : Nat) (sg : Bool) (x : Int) : Int :=
  let lo : Int := if sg then -(2 ^ (w - 1) : Nat) else 0
  let hi : Int := if sg then (2 ^ (w - 1) : Nat) - 1 else (2 ^ w : Nat) - 1
  if x < lo then lo else if hi < x then hi else x

/-- A conversion to an integer of width w (06 R169). -/
def toIntF (w : Nat) (sg : Bool) (r : Rounding) (v : FVal) : FRes :=
  match v with
  | .nan _ => ⟨0, flagNv⟩
  | .inf neg => ⟨wrapTo w (clampInt w sg (if neg then -(2 ^ 70 : Nat) else (2 ^ 70 : Nat))), flagNv⟩
  | .num neg m e =>
    let k := roundInt r neg m e
    let x : Int := if neg then -(k.1 : Int) else k.1
    let c := clampInt w sg x
    ⟨wrapTo w c, if c ≠ x then flagNv else if k.2 then flagNx else 0⟩

/-- A conversion from an integer (06 R169). -/
def ofIntF (f : Nat) (r : Rounding) (x : Int) : FRes :=
  roundNum f r (decide (x < 0)) x.natAbs 0 false

/-- An integral value of the same type; the only flag is invalid, for a signalling NaN (09 R256). -/
def integralF (f : Nat) (r : Rounding) (v : FVal) : FRes :=
  match v with
  | .num neg m e =>
    if m = 0 then ⟨signBit f neg, 0⟩
    else ⟨(roundNum f ⟨0, false, false, none⟩ neg (roundInt r neg m e).1 0 false).bits, 0⟩
  | v => roundF f r v false

/-- The class mask of a bit pattern (09 R253). -/
def classMask (f x : Nat) : Nat :=
  let neg := bitSet x (fmtWidth f - 1)
  match decodeF f x with
  | .nan sig => if sig then 256 else 512
  | .inf n => if n then 1 else 128
  | .num _ m _ =>
    if m = 0 then (if neg then 8 else 16)
    else if isSubnormal f x then (if neg then 4 else 32)
    else if neg then 2 else 64

/-! ### The stochastic generator (06 R166) -/

/-- The n-th 16-bit draw of a lane with a work identifier, under a launch's seed. -/
def srdDraw (seed id n : Nat) : Nat :=
  let M := 2 ^ 64
  let z := Nat.xor seed (id * 0x9e3779b97f4a7c15 % M)
  let z := (z + n * 0xd1b54a32d192ed03) % M
  let z := Nat.xor z (z / 2 ^ 30) * 0xbf58476d1ce4e5b9 % M
  let z := Nat.xor z (z / 2 ^ 27) * 0x94d049bb133111eb % M
  let z := Nat.xor z (z / 2 ^ 31)
  z / 2 ^ 48

/-- The work identifier of a lane (02 R26, R27). -/
def workId (l : Launch) (t : Team) (b : Block) (lane : Nat) : Nat :=
  lane + t.idx * 2 ^ fieldWidth l 0 + b.linear * 2 ^ (fieldWidth l 0 + fieldWidth l 1)

/-- The j-th draw that an instruction takes in a lane: only a D slot under SRD draws (06 R166,
R167). -/
def drawAt (c : Cx) (rnd lane j : Nat) : Option Nat :=
  if c.bt = .d && rnd = 5 then
    let n := match c.t.lane[lane]? with
      | some x => x.draw.toNat
      | none => 0
    some (srdDraw (launchSeed c.l) (workId c.l c.t c.b lane) ((n + j) % 2 ^ 32))
  else none

/-- The rounding of the mode register for the j-th element of a lane. -/
def modeRounding (c : Cx) (lane j : Nat) : Rounding :=
  ⟨modeRnd c.a.mode, modeSat c.a.mode, modeFsub c.a.mode, drawAt c (modeRnd c.a.mode) lane j⟩

/-- Rounding codes 6 and 7 are an illegal mode for an instruction that rounds (06 R165). -/
def roundingOk (c : Cx) : Option Cause :=
  if 5 < modeRnd c.a.mode then some .illegalMode else none

/-! ### Flags into lanes (06 R172, R173) -/

/-- Change a lane of a team. -/
def setLane (t : Team) (l : Nat) (f : Lane → Lane) : Team :=
  { t with lane := t.lane.modify l f }

/-- Raise flags in a lane, and count its draws. -/
def raiseIn (fl draws : Nat) (x : Lane) : Lane :=
  { x with xflags := x.xflags ||| BitVec.ofNat 5 fl, draw := x.draw + BitVec.ofNat 32 draws }

/-- Raise flags in every lane of the arm that has not exited (06 R173). -/
def raiseAll (c : Cx) (fl : Nat) (t : Team) : Team :=
  let m := c.a.exec &&& presentLanes c.t
  { t with lane := t.lane.zipIdx.map fun (x, l) => if m.getLsbD l then raiseIn fl 0 x else x }

/-- What an instruction gives in one lane: its value, its flags and the draws it took. -/
structure LaneRes where
  lane : Nat
  value : Nat
  flags : Nat
  draws : Nat
deriving DecidableEq, Repr

/-- Raise the flags and count the draws of each lane. -/
def raiseLanes : List LaneRes → Team → Team
  | [], t => t
  | x :: r, t => raiseLanes r (setLane t x.lane (raiseIn x.flags x.draws))

/-- Draws counted for n elements under a rounding code (06 R166). -/
def drawsFor (c : Cx) (rnd n : Nat) : Nat := if c.bt = .d && rnd = 5 then n else 0

end Sys2Proof.Machine
end

