-- ==== Sys2Proof/Machine/Special.lean ====
section
/-! DEFINITION. The special functions (09 R254, R255): the exact value enclosed between two numbers, and
rounded once when both ends round alike. The enclosures are computed in fixed point with 320 fraction
bits (log entry 12). -/
namespace Sys2Proof.Machine
open Sys2Proof

/-- Fraction bits of the fixed-point numbers. -/
def fxBits : Nat := 320
def fxOne : Nat := 2 ^ fxBits
def fxMul (a b : Nat) : Nat := a * b / fxOne

/-- The sum of y^n / n! from term number n on, n terms in all. -/
def expTerms (y : Nat) : Nat → Nat → Nat → Nat
  | 0, _, _ => 0
  | fuel + 1, n, term => term + expTerms y fuel (n + 1) (fxMul term y / (n + 1))

/-- e^y for y in [0, 1). -/
def expFx (y : Nat) : Nat := expTerms y 100 0 fxOne

/-- The alternating sum y − y³/3! + … in two parts, the terms added and the terms taken away. -/
def sinTerms (y2 : Nat) : Nat → Nat → Nat → Nat × Nat
  | 0, _, _ => (0, 0)
  | fuel + 1, n, term =>
    let r := sinTerms y2 fuel (n + 2) (fxMul term y2 / ((n + 1) * (n + 2)))
    (term + r.2, r.1)

/-- sin y for y in [0, 1.6]. -/
def sinFx (y : Nat) : Nat :=
  let r := sinTerms (fxMul y y) 70 1 y
  r.1 - r.2

/-- The sum of z^n / n over odd n. -/
def atanhTerms (z2 : Nat) : Nat → Nat → Nat → Nat
  | 0, _, _ => 0
  | fuel + 1, n, p => p / n + atanhTerms z2 fuel (n + 2) (fxMul p z2)

/-- ln t for t in [1, 2): twice the inverse hyperbolic tangent of (t − 1) ÷ (t + 1). -/
def lnFx (t : Nat) : Nat :=
  let z := (t - fxOne) * fxOne / (t + fxOne)
  2 * atanhTerms (fxMul z z) 120 1 z

def ln2Fx : Nat := 2 * atanhTerms (fxOne / 9) 120 1 (fxOne / 3)

/-- The arc tangent of 1 ÷ n, as terms added and terms taken away. -/
def atanTerms (n2 : Nat) : Nat → Nat → Nat → Nat × Nat
  | 0, _, _ => (0, 0)
  | fuel + 1, k, p =>
    let r := atanTerms n2 fuel (k + 2) (p / n2)
    (p / k + r.2, r.1)
def atanInv (n : Nat) : Nat :=
  let r := atanTerms (n * n) 90 1 (fxOne / n)
  r.1 - r.2

/-- π: 16 arctan 1/5 − 4 arctan 1/239. -/
def piFx : Nat := 16 * atanInv 5 - 4 * atanInv 239

/-- What is known of a function's value: exactly, or between two numbers of one exponent. -/
inductive Enclosed where
  | exact (a : FArg)
  | within (neg : Bool) (lo hi : Nat) (e : Int)
deriving DecidableEq, Repr

/-- A fixed-point value with its error bound, scaled by 2^n. -/
def nearFx (neg : Bool) (v slack : Nat) (n : Int) : Enclosed := .within neg (v - slack) (v + slack) (n - fxBits)

/-- The order of magnitude of m × 2^e, for m not 0. -/
def topOfNum (m : Nat) (e : Int) : Int := e + Nat.log2 m

/-- m × 2^e in fixed point, exactly for every number of the types f16, bf16 and f32. -/
def toFx (m : Nat) (e : Int) : Nat := m * 2 ^ (e + fxBits).toNat

/-- 2^x. -/
def exp2F (neg : Bool) (m : Nat) (e : Int) : Enclosed :=
  if 12 ≤ topOfNum m e then .within false 1 2 (if neg then -8192 else 8192)
  else
    let x := toFx m e
    let n : Int := x / fxOne
    let f := x % fxOne
    if f = 0 then .exact (.exact (.num false 1 (if neg then -n else n)))
    else if neg then nearFx false (expFx (fxMul (fxOne - f) ln2Fx)) 65536 (-n - 1)
    else nearFx false (expFx (fxMul f ln2Fx)) 65536 n

/-- log₂ x for x above 0. -/
def log2F (m : Nat) (e : Int) : Enclosed :=
  let k := topOfNum m e
  let t := m * 2 ^ (fxBits - Nat.log2 m)
  if t = fxOne then .exact (.exact (.num (decide (k < 0)) k.natAbs 0))
  else
    let v : Int := k * (fxOne : Nat) + (lnFx t * fxOne / ln2Fx : Nat)
    nearFx (decide (v < 0)) v.natAbs 65536 0

/-- x modulo 2 in fixed point, exactly (09 R254: the argument is reduced exactly). -/
def modTwo (m : Nat) (e : Int) : Nat := toFx m e % (2 * fxOne)

/-- sin(π r) for r in (0, 1/2). -/
def sinPi (neg : Bool) (r : Nat) : Enclosed := nearFx neg (sinFx (fxMul piFx r)) 65536 0

/-- ±1, and +0. -/
def exactOne (neg : Bool) : Enclosed := .exact (.exact (.num neg 1 0))
def exactZero : Enclosed := .exact (.exact (.num false 0 0))

/-- sin(π x) for x not 0. -/
def sinF (neg : Bool) (m : Nat) (e : Int) : Enclosed :=
  let r := modTwo m e
  let flip := decide (fxOne ≤ r)
  let r := r % fxOne
  let half := fxOne / 2
  if r = 0 then exactZero
  else if r = half then exactOne (neg != flip)
  else sinPi (neg != flip) (if half < r then fxOne - r else r)

/-- cos(π x). -/
def cosF (m : Nat) (e : Int) : Enclosed :=
  let r := modTwo m e
  let r := if fxOne < r then 2 * fxOne - r else r
  let half := fxOne / 2
  if r = 0 then exactOne false
  else if r = fxOne then exactOne true
  else if r = half then exactZero
  else if r < half then sinPi false (half - r)
  else sinPi true (r - half)

/-- Square n times. -/
def squareFx : Nat → Nat → Nat
  | 0, x => x
  | n + 1, x => squareFx n (fxMul x x)

/-- tanh x for x not 0. A magnitude below 2^-16 has x − x³ < tanh x < x; one of 16 or more has
1 − 2^-40 < tanh x < 1. -/
def tanhF (neg : Bool) (m : Nat) (e : Int) : Enclosed :=
  if topOfNum m e < -16 then
    let k := (-e).toNat
    .within neg (m * 2 ^ (2 * k) - m * m * m) (m * 2 ^ (2 * k)) (3 * e)
  else if 4 ≤ topOfNum m e then .within neg (2 ^ 40 - 1) (2 ^ 40) (-40)
  else
    let x := squareFx 6 (expFx (2 * toFx m e / 64))
    nearFx neg ((x - fxOne) * fxOne / (x + fxOne)) (2 ^ 60) 0

/-- The special functions by opcode, on their special inputs and on the others (09 R255). -/
def specialF (op : Nat) (x : FVal) : Enclosed :=
  match x with
  | .nan _ => .exact (nanOf [x])
  | .inf neg =>
    match op with
    | 0x63 => if neg then exactZero else .exact (.exact (.inf false))
    | 0x64 => .exact (if neg then .invalid else .exact (.inf false))
    | 0x67 => exactOne neg
    | _ => .exact .invalid
  | .num neg m e =>
    match op with
    | 0x63 => if m = 0 then exactOne false else exp2F neg m e
    | 0x64 =>
      if m = 0 then .exact ⟨.inf true, flagDz, false⟩
      else if neg then .exact .invalid
      else log2F m e
    | 0x65 => if m = 0 then .exact (.exact (.num neg 0 0)) else sinF neg m e
    | 0x66 => if m = 0 then exactOne false else cosF m e
    | _ => if m = 0 then .exact (.exact (.num neg 0 0)) else tanhF neg m e

/-- Round what is known of a value. When the two ends round apart the result is a free value (log
entry 12). -/
def roundEnclosed (op f : Nat) (r : Rounding) (x : Nat) : Enclosed → FRes
  | .exact a => finishF f r a
  | .within neg lo hi e =>
    if roundNum f r neg lo e true = roundNum f r neg hi e true then roundNum f r neg hi e true
    else ⟨(Config.undecided op (BitVec.ofNat 64 x)).toNat % 2 ^ fmtWidth f, flagNx⟩

/-- A special function of an element (09 R254): FRCP, FRSQ and FSQRT from exact arithmetic, the others
from an enclosure. `r` is the rounding for FSQRT, and RNE with the mode's sat and fsub for the rest. -/
def specialRes (op f : Nat) (r : Rounding) (x : Nat) : FRes :=
  let v := readF f r.fsub x
  match op with
  | 0x5f => finishF f r (divF (.num false 1 0) v)
  | 0x60 => finishF f r (rsqrtF v)
  | 0x61 => finishF f r (sqrtF v)
  | _ => roundEnclosed op f r x (specialF op v)

end Sys2Proof.Machine
end

