-- ==== Sys2Proof/Machine/Float.lean ====
section
/-! DEFINITION. Floating-point arithmetic, compares, special functions, conversions, block scales,
quantisation, codebooks and short dot products (09 R247-R264; 06 R175-R179). -/
namespace Sys2Proof.Machine
open Sys2Proof

/-! ### Elements (09 R248) -/

/-- The elements of width w of an operand: in a D slot those of the lane word, or the one of a pair; in
a T or S slot the low bits of the register. -/
def elementsOf (c : Cx) (w lane : Nat) (o : Opnd) : List Nat :=
  if c.bt = .d then
    if w = 64 then [(opPair c lane o).toNat]
    else (List.range (32 / w)).map fun j => elemOf w (opWord c lane o).toNat j
  else [(opScalar c o).toNat % 2 ^ w]

/-- Elements that an instruction acts on in one lane, or in a T or S slot. -/
def elementsIn (c : Cx) (w : Nat) : Nat := if c.bt = .d then (if w = 64 then 1 else 32 / w) else 1

/-- The lanes of the instruction; a T or S slot counts as one. -/
def workLanes (c : Cx) : List Nat := if c.bt = .d then lanesOf c.t.lanes c.gm else [0]

/-- Act element by element: `fn lane j xs` gives the result of element j from its sources. -/
def mapLanes (c : Cx) (win wout draws : Nat) (srcs : List Opnd) (fn : Nat → Nat → List Nat → FRes) : List LaneRes :=
  (workLanes c).map fun l =>
    let els := srcs.map (elementsOf c win l)
    let rs := (List.range (elementsIn c win)).map fun j => fn l j (els.map fun e => e.getD j 0)
    ⟨l, packElems wout (rs.map (·.bits)), rs.foldl (fun a r => a ||| r.flags) 0, draws⟩

/-- Write each lane's value, raise its flags and count its draws (06 R166, R172); in a T or S slot the
flags go to every lane of the arm (R173). -/
def putRes (pair : Bool) (d : Opnd) (rs : List LaneRes) (c : Cx) (t : Team) : Team :=
  if c.bt = .d then
    raiseLanes rs (match d with
      | .v i =>
        if pair then putPairs t i (rs.map fun r => (r.lane, BitVec.ofNat 64 r.value))
        else putVs t i (rs.map fun r => (r.lane, BitVec.ofNat 32 r.value))
      | _ => t)
  else
    match rs with
    | r :: _ => raiseAll c r.flags (putScalar d r.value t)
    | [] => t

/-- The types of 09 R248. -/
def floatType (c : Cx) : Nat := modeEtype c.a.mode
def isFloat (f : Nat) : Bool := decide (8 ≤ f) && decide (f ≤ 11)

/-- Step 6 of 18 R425: the type, then the rounding code of an instruction that rounds. -/
def floatMode (c : Cx) (ok rounds : Bool) : Option Cause :=
  if !ok then some .illegalType else if rounds then roundingOk c else none

/-- Classes of 09 R250. -/
def arithClass (c : Cx) : Nat :=
  if floatType c = 11 then clsF64 else if floatType c = 10 then clsF32 else clsF16
def specialClass (c : Cx) : Nat := if floatType c = 11 then clsF64 else clsSpecial
def convertClass (c : Cx) : Nat := if floatType c = 11 then clsF64 else clsConvert

/-! ### Arithmetic (09 R251) -/

/-- An arithmetic operation on one element: type, rounding, x, y, z. -/
abbrev FloatFn := Nat → Rounding → Nat → Nat → Nat → FRes

/-- −0 from x − x only under RDN (06 R171). -/
def zeroNeg (r : Rounding) : Bool := r.mode = 3

def faddFn : FloatFn := fun f r x y _ => finishF f r (addF (zeroNeg r) (readF f r.fsub x) (readF f r.fsub y))
def fsubFn : FloatFn := fun f r x y _ =>
  finishF f r (addF (zeroNeg r) (readF f r.fsub x) (readF f r.fsub y).neg)
def fmulFn : FloatFn := fun f r x y _ => finishF f r (mulF (readF f r.fsub x) (readF f r.fsub y))
def fmaFn : FloatFn := fun f r x y z =>
  finishF f r (fmaF (zeroNeg r) (mulF (readF f r.fsub x) (readF f r.fsub y)) (readF f r.fsub z))
def fmsFn : FloatFn := fun f r x y z =>
  finishF f r (fmaF (zeroNeg r) (mulF (readF f r.fsub x) (readF f r.fsub y)) (readF f r.fsub z).neg)
def fnmaFn : FloatFn := fun f r x y z =>
  finishF f r (fmaF (zeroNeg r) (mulF (readF f r.fsub x).neg (readF f r.fsub y)) (readF f r.fsub z))
def fdivFn : FloatFn := fun f r x y _ => finishF f r (divF (readF f r.fsub x) (readF f r.fsub y))

/-- A power of two beyond ±4096 takes any number past the ends of every type, so the count is cut
there. -/
def fsclFn : FloatFn := fun f r x y _ =>
  let n := signed (fmtWidth f) y
  let n := if n < -4096 then -4096 else if 4096 < n then 4096 else n
  match readF f r.fsub x with
  | .nan s => finishF f r (nanOf [.nan s])
  | v => finishF f r (.exact (scaleF v n))

/-- A bit pattern with a subnormal read as zero under mode.fsub (06 R170). -/
def flushBits (f : Nat) (fsub : Bool) (x : Nat) : Nat :=
  if fsub && fmtFlushes f && isSubnormal f x then signBit f (bitSet x (fmtWidth f - 1)) else x

/-- FMIN and FMAX: the other input beside one NaN, the default NaN for two (09 R251). -/
def pickFn (below : FVal → FVal → Bool) : FloatFn := fun f r x y _ =>
  let vx := readF f r.fsub x
  let vy := readF f r.fsub y
  let fl := if vx.isSig || vy.isSig then flagNv else 0
  if vx.isNan && vy.isNan then ⟨nanBits f, fl⟩
  else if vx.isNan then ⟨flushBits f r.fsub y, fl⟩
  else if vy.isNan then ⟨flushBits f r.fsub x, fl⟩
  else ⟨flushBits f r.fsub (if below vy vx then y else x), fl⟩
def fminFn : FloatFn := pickFn belowF
def fmaxFn : FloatFn := pickFn fun x y => belowF y x

/-- The declaration of an arithmetic instruction; `acc` makes d a source too. -/
def arithSig (op : Nat) (acc rounds : Bool) (d a b : Opnd) (c : Cx) : Sig :=
  let p := decide (floatType c = 11)
  { plain op [⟨d, if acc then .both else .dst, p⟩, ⟨a, .src, p⟩, ⟨b, .src, p⟩] (.passes (arithClass c)) with
    mode := floatMode c (isFloat (floatType c)) rounds }

/-- The results of an arithmetic instruction, element by element. -/
def arithPut (acc rounds : Bool) (fn : FloatFn) (d a b : Opnd) (c : Cx) (t : Team) : Team :=
  let f := floatType c
  let w := fmtWidth f
  let n := if rounds then drawsFor c (modeRnd c.a.mode) (elementsIn c w) else 0
  putRes (f = 11) d
    (mapLanes c w w n (if acc then [a, b, d] else [a, b]) fun l j xs =>
      fn f (modeRounding c l j) (xs.getD 0 0) (xs.getD 1 0) (xs.getD 2 0)) c t

/-- An arithmetic instruction over its elements. -/
def arithBody (acc rounds : Bool) (fn : FloatFn) (d a b : Opnd) : Cx → Act Next := pureBody (arithPut acc rounds fn d a b)

/-- The declaration of FDIV, whose class is that of the special functions. -/
def fdivSig (d a b : Opnd) (c : Cx) : Sig := { arithSig 0x62 false true d a b c with charge := .passes (specialClass c) }

/-- A change of an element's bits alone: no rounding, no flag. -/
def bitsPut (fn : Nat → Nat → Nat) (d a : Opnd) (c : Cx) (t : Team) : Team :=
  let f := floatType c
  putRes (f = 11) d (mapLanes c (fmtWidth f) (fmtWidth f) 0 [a] fun _ _ xs => ⟨fn f (xs.getD 0 0), 0⟩) c t
def fabsFn (f x : Nat) : Nat := x % 2 ^ (fmtWidth f - 1)
def fnegFn (f x : Nat) : Nat := Nat.xor x (2 ^ (fmtWidth f - 1))
def bitsSig (op : Nat) (d a : Opnd) (c : Cx) : Sig :=
  let p := decide (floatType c = 11)
  { plain op [⟨d, .dst, p⟩, ⟨a, .src, p⟩] (.passes clsInteger) with
    mode := floatMode c (isFloat (floatType c)) false }

/-! ### Compares (09 R252) -/

/-- A compare of two elements: whether it holds, and the flags. -/
abbrev FloatCmp := FVal → FVal → Bool × Nat
def sigNv (x y : FVal) : Nat := if x.isSig || y.isSig then flagNv else 0
def nanNv (x y : FVal) : Nat := if eitherNan x y then flagNv else 0
def fceqFn : FloatCmp := fun x y => (eqF x y, sigNv x y)
def fcltFn : FloatCmp := fun x y => (!eitherNan x y && ltF x y, nanNv x y)
def fcleFn : FloatCmp := fun x y => (leF x y, nanNv x y)
def fcunFn : FloatCmp := fun x y => (eitherNan x y, sigNv x y)

/-- A compare in one lane: it holds for every element; the flags of all. -/
def fcmpLane (fn : FloatCmp) (a b : Opnd) (c : Cx) (lane : Nat) : LaneRes :=
  let f := floatType c
  let fsub := modeFsub c.a.mode
  let rs := ((elementsOf c (fmtWidth f) lane a).zip (elementsOf c (fmtWidth f) lane b)).map fun (x, y) =>
    fn (readF f fsub x) (readF f fsub y)
  ⟨lane, if rs.all (·.1) then 1 else 0, rs.foldl (fun a r => a ||| r.2) 0, 0⟩

def fcmpPut (fn : FloatCmp) (d : Nat) (a b : Opnd) (c : Cx) (t : Team) : Team :=
  let rs := (workLanes c).map (fcmpLane fn a b c)
  if c.bt = .d then
    raiseLanes rs (putMask t d c.gm (maskOf ((rs.filter fun r => r.value = 1).map (·.lane))))
  else
    match rs with
    | r :: _ => raiseAll c r.flags (putFlag c d (r.value = 1) t)
    | [] => t

def fcmpSig (op d : Nat) (a b : Opnd) (c : Cx) : Sig :=
  let p := decide (floatType c = 11)
  { maskSig op d [⟨a, .src, p⟩, ⟨b, .src, p⟩] with mode := floatMode c (isFloat (floatType c)) false }

/-! ### Special functions (09 R254) -/

/-- FEXP2 to FTANH have no f64; FSQRT alone rounds under mode.rnd. The destination is owed for the
lookahead window (07 R200, R201). -/
def specialSig (op : Nat) (f64 : Bool) (d a : Opnd) (la : Nat) (c : Cx) : Sig :=
  let p := decide (floatType c = 11)
  { plain op [⟨d, .dst, p⟩, ⟨a, .src, p⟩] (.passes (specialClass c)) with
    mode := floatMode c (isFloat (floatType c) && (f64 || !p)) (op = 0x61)
    la := some (la, d, p) }

/-- The rounding of a special function: RNE but for FSQRT. -/
def specialRounding (op : Nat) (c : Cx) (lane j : Nat) : Rounding :=
  if op = 0x61 then modeRounding c lane j else ⟨0, modeSat c.a.mode, modeFsub c.a.mode, none⟩

def specialPut (op : Nat) (d a : Opnd) (c : Cx) (t : Team) : Team :=
  let f := floatType c
  let w := fmtWidth f
  let n := if op = 0x61 then drawsFor c (modeRnd c.a.mode) (elementsIn c w) else 0
  putRes (f = 11) d (mapLanes c w w n [a] fun l j xs => specialRes op f (specialRounding op c l j) (xs.getD 0 0)) c t

/-- FADD (09 R251). -/
def execFadd (d a b : Opnd) (s : State) : Host.Outcome State Fault Refusal :=
  teamStep (arithSig 0x50 false true d a b) (arithBody false true faddFn d a b) s

/-- FSUB (09 R251). -/
def execFsub (d a b : Opnd) (s : State) : Host.Outcome State Fault Refusal :=
  teamStep (arithSig 0x51 false true d a b) (arithBody false true fsubFn d a b) s

/-- FMUL (09 R251). -/
def execFmul (d a b : Opnd) (s : State) : Host.Outcome State Fault Refusal :=
  teamStep (arithSig 0x52 false true d a b) (arithBody false true fmulFn d a b) s

/-- FMA (09 R251). -/
def execFma (d a b : Opnd) (s : State) : Host.Outcome State Fault Refusal :=
  teamStep (arithSig 0x53 true true d a b) (arithBody true true fmaFn d a b) s

/-- FMS (09 R251). -/
def execFms (d a b : Opnd) (s : State) : Host.Outcome State Fault Refusal :=
  teamStep (arithSig 0x54 true true d a b) (arithBody true true fmsFn d a b) s

/-- FNMA (09 R251). -/
def execFnma (d a b : Opnd) (s : State) : Host.Outcome State Fault Refusal :=
  teamStep (arithSig 0x55 true true d a b) (arithBody true true fnmaFn d a b) s

/-- FMIN (09 R251): it does not round. -/
def execFmin (d a b : Opnd) (s : State) : Host.Outcome State Fault Refusal :=
  teamStep (arithSig 0x56 false false d a b) (arithBody false false fminFn d a b) s

/-- FMAX (09 R251): it does not round. -/
def execFmax (d a b : Opnd) (s : State) : Host.Outcome State Fault Refusal :=
  teamStep (arithSig 0x57 false false d a b) (arithBody false false fmaxFn d a b) s

/-- FDIV (09 R251). -/
def execFdiv (d a b : Opnd) (s : State) : Host.Outcome State Fault Refusal :=
  teamStep (fdivSig d a b) (arithBody false true fdivFn d a b) s

/-- FSCL (09 R251). -/
def execFscl (d a b : Opnd) (s : State) : Host.Outcome State Fault Refusal :=
  teamStep (arithSig 0x6f false true d a b) (arithBody false true fsclFn d a b) s

/-- FABS (09 R251): the sign bit alone. -/
def execFabs (d a : Opnd) (s : State) : Host.Outcome State Fault Refusal :=
  teamStep (bitsSig 0x58 d a) (pureBody (bitsPut fabsFn d a)) s

/-- FNEG (09 R251): the sign bit alone. -/
def execFneg (d a : Opnd) (s : State) : Host.Outcome State Fault Refusal :=
  teamStep (bitsSig 0x59 d a) (pureBody (bitsPut fnegFn d a)) s

/-- FCLASS (09 R253). -/
def execFclass (d a : Opnd) (s : State) : Host.Outcome State Fault Refusal :=
  teamStep (bitsSig 0x5e d a) (pureBody (bitsPut classMask d a)) s

/-- FCEQ (09 R252). -/
def execFceq (d : Nat) (a b : Opnd) (s : State) : Host.Outcome State Fault Refusal :=
  teamStep (fcmpSig 0x5a d a b) (pureBody (fcmpPut fceqFn d a b)) s

/-- FCLT (09 R252). -/
def execFclt (d : Nat) (a b : Opnd) (s : State) : Host.Outcome State Fault Refusal :=
  teamStep (fcmpSig 0x5b d a b) (pureBody (fcmpPut fcltFn d a b)) s

/-- FCLE (09 R252). -/
def execFcle (d : Nat) (a b : Opnd) (s : State) : Host.Outcome State Fault Refusal :=
  teamStep (fcmpSig 0x5c d a b) (pureBody (fcmpPut fcleFn d a b)) s

/-- FCUN (09 R252). -/
def execFcun (d : Nat) (a b : Opnd) (s : State) : Host.Outcome State Fault Refusal :=
  teamStep (fcmpSig 0x5d d a b) (pureBody (fcmpPut fcunFn d a b)) s

/-- FRCP (09 R254, R255). -/
def execFrcp (d a : Opnd) (la : Nat) (s : State) : Host.Outcome State Fault Refusal :=
  teamStep (specialSig 0x5f true d a la) (pureBody (specialPut 0x5f d a)) s

/-- FRSQ (09 R254, R255). -/
def execFrsq (d a : Opnd) (la : Nat) (s : State) : Host.Outcome State Fault Refusal :=
  teamStep (specialSig 0x60 true d a la) (pureBody (specialPut 0x60 d a)) s

/-- FSQRT (09 R254, R255). -/
def execFsqrt (d a : Opnd) (la : Nat) (s : State) : Host.Outcome State Fault Refusal :=
  teamStep (specialSig 0x61 true d a la) (pureBody (specialPut 0x61 d a)) s

/-- FEXP2 (09 R254, R255). -/
def execFexp2 (d a : Opnd) (la : Nat) (s : State) : Host.Outcome State Fault Refusal :=
  teamStep (specialSig 0x63 false d a la) (pureBody (specialPut 0x63 d a)) s

/-- FLOG2 (09 R254, R255). -/
def execFlog2 (d a : Opnd) (la : Nat) (s : State) : Host.Outcome State Fault Refusal :=
  teamStep (specialSig 0x64 false d a la) (pureBody (specialPut 0x64 d a)) s

/-- FSIN (09 R254, R255). -/
def execFsin (d a : Opnd) (la : Nat) (s : State) : Host.Outcome State Fault Refusal :=
  teamStep (specialSig 0x65 false d a la) (pureBody (specialPut 0x65 d a)) s

/-- FCOS (09 R254, R255). -/
def execFcos (d a : Opnd) (la : Nat) (s : State) : Host.Outcome State Fault Refusal :=
  teamStep (specialSig 0x66 false d a la) (pureBody (specialPut 0x66 d a)) s

/-- FTANH (09 R254, R255). -/
def execFtanh (d a : Opnd) (la : Nat) (s : State) : Host.Outcome State Fault Refusal :=
  teamStep (specialSig 0x67 false d a la) (pureBody (specialPut 0x67 d a)) s

/-! ### Rounding to integers and conversions (09 R256-R260) -/

/-- The rounding code of FRND: its own, or mode.rnd for 7. -/
def frndCode (c : Cx) (m : Nat) : Nat := if m = 7 then modeRnd c.a.mode else m

/-- FRND (09 R256): each element takes one draw under SRD. -/
def frndPut (d a : Opnd) (m : Nat) (c : Cx) (t : Team) : Team :=
  let f := floatType c
  let w := fmtWidth f
  let k := frndCode c m
  putRes (f = 11) d (mapLanes c w w (drawsFor c k (elementsIn c w)) [a] fun l j xs =>
    integralF f ⟨k, false, false, drawAt c k l j⟩ (readF f (modeFsub c.a.mode) (xs.getD 0 0))) c t

/-- A code of 6 is an illegal operand (09 R256). -/
def frndSig (d a : Opnd) (rc : Nat) (c : Cx) : Sig :=
  let p := decide (floatType c = 11)
  { plain 0x68 [⟨d, .dst, p⟩, ⟨a, .src, p⟩] (.passes (convertClass c)) with
    operandOk := rc != 6
    mode := floatMode c (isFloat (floatType c)) (rc = 7) }

/-- FRND (09 R256). -/
def execFrnd (d a : Opnd) (rc : Nat) (s : State) : Host.Outcome State Fault Refusal :=
  teamStep (frndSig d a rc) (pureBody (frndPut d a rc)) s

def convSig (op : Nat) (d a : Opnd) (c : Cx) : Sig :=
  let p := decide (floatType c = 11)
  { plain op [⟨d, .dst, p⟩, ⟨a, .src, p⟩] (.passes (convertClass c)) with
    mode := floatMode c (isFloat (floatType c)) true }

def ftoiPut (d a : Opnd) (u : Bool) (c : Cx) (t : Team) : Team :=
  let f := floatType c
  let w := fmtWidth f
  putRes (f = 11) d (mapLanes c w w (drawsFor c (modeRnd c.a.mode) (elementsIn c w)) [a] fun l j xs =>
    toIntF w (!u) (modeRounding c l j) (readF f (modeFsub c.a.mode) (xs.getD 0 0))) c t

/-- FTOI (09 R257). -/
def execFtoi (d a : Opnd) (u : Bool) (s : State) : Host.Outcome State Fault Refusal :=
  teamStep (convSig 0x69 d a) (pureBody (ftoiPut d a u)) s

def itofPut (d a : Opnd) (u : Bool) (c : Cx) (t : Team) : Team :=
  let f := floatType c
  let w := fmtWidth f
  putRes (f = 11) d (mapLanes c w w (drawsFor c (modeRnd c.a.mode) (elementsIn c w)) [a] fun l j xs =>
    ofIntF f (modeRounding c l j) (if u then (xs.getD 0 0 : Nat) else signed w (xs.getD 0 0))) c t

/-- ITOF (09 R257). -/
def execItof (d a : Opnd) (u : Bool) (s : State) : Host.Outcome State Fault Refusal :=
  teamStep (convSig 0x6a d a) (pureBody (itofPut d a u)) s

/-- CVTF (09 R258): f32 to f64 exactly, with no draw; f64 to f32 rounded. -/
def cvtfPut (d a : Opnd) (t' : Nat) (c : Cx) (t : Team) : Team :=
  let f := floatType c
  let n := if f = 11 then drawsFor c (modeRnd c.a.mode) 1 else 0
  putRes (t' = 11) d (mapLanes c (fmtWidth f) (fmtWidth t') n [a] fun l j xs =>
    roundF t' (if f = 11 then modeRounding c l j else ⟨0, modeSat c.a.mode, modeFsub c.a.mode, none⟩)
      (readF f (modeFsub c.a.mode) (xs.getD 0 0)) false) c t

/-- Any pair of types but f32 and f64 is an illegal operand (09 R258). -/
def cvtfSig (d a : Opnd) (t : Nat) (c : Cx) : Sig :=
  let f := floatType c
  { plain 0x6c [⟨d, .dst, t = 11⟩, ⟨a, .src, f = 11⟩] (.passes clsF64) with
    operandOk := (f = 10 && t = 11) || (f = 11 && t = 10)
    mode := if f = 11 then roundingOk c else none }

/-- CVTF (09 R258). -/
def execCvtf (d a : Opnd) (t : Nat) (s : State) : Host.Outcome State Fault Refusal :=
  teamStep (cvtfSig d a t) (pureBody (cvtfPut d a t)) s

/-- PACK (09 R260). -/
def packPut (d a b : Opnd) (c : Cx) (t : Team) : Team :=
  let val := fun (x y : Nat) => x % 65536 + y % 65536 * 65536
  if c.bt = .d then
    putLanes false d c.gm (fun l => val (opWord c l a).toNat (opWord c l b).toNat) t
  else putScalar d (val (opScalar c a).toNat (opScalar c b).toNat) t

/-- PACK is legal under every element type (09 R260). -/
def packSig (d a b : Opnd) (_ : Cx) : Sig :=
  plain 0x6d [⟨d, .dst, false⟩, ⟨a, .src, false⟩, ⟨b, .src, false⟩] (.passes clsConvert)

/-- PACK (09 R260). -/
def execPack (d a b : Opnd) (s : State) : Host.Outcome State Fault Refusal :=
  teamStep (packSig d a b) (pureBody (packPut d a b)) s

/-- The element width of UNPK, 0 for a type it does not honour (09 R260). -/
def unpkWidth : Nat → Nat
  | 0 => 8 | 1 => 8 | 2 => 16 | 3 => 16 | 8 => 16 | 9 => 16 | 12 => 8 | 13 => 8 | 14 => 4 | 15 => 4
  | _ => 0

def unpkPut (d a : Opnd) (p : Nat) (c : Cx) (t : Team) : Team :=
  let w := unpkWidth (modeEtype c.a.mode)
  if c.bt = .d then putLanes false d c.gm (fun l => elemOf w (opWord c l a).toNat p) t
  else putScalar d (elemOf w ((opScalar c a).toNat % 2 ^ 32) p) t

/-- The part lies in the word, and the type is one that UNPK honours (09 R260). -/
def unpkSig (d a : Opnd) (p : Nat) (c : Cx) : Sig :=
  let w := unpkWidth (modeEtype c.a.mode)
  { plain 0x6e [⟨d, .dst, false⟩, ⟨a, .src, false⟩] (.passes clsConvert) with
    operandOk := w = 0 || decide (p < 32 / Nat.max w 1)
    mode := if w = 0 then some .illegalType else none }

/-- UNPK (09 R260). -/
def execUnpk (d a : Opnd) (p : Nat) (s : State) : Host.Outcome State Fault Refusal :=
  teamStep (unpkSig d a p) (pureBody (unpkPut d a p)) s

/-! ### Format slots (06 R175, R177, R179) -/

/-- A format slot as one number. -/
def slotBits (l : Launch) (i : Nat) : Nat := (launchFormat l i).1 + (launchFormat l i).2 * 2 ^ 64
def slotA (x : Nat) : Nat := bitsOf x 0 4
def slotB (x : Nat) : Nat := bitsOf x 4 4
def slotOut (x : Nat) : Nat := bitsOf x 8 4
def slotScaleA (x : Nat) : Bool := bitSet x 12
def slotScaleB (x : Nat) : Bool := bitSet x 13
def slotSat (x : Nat) : Bool := bitSet x 14
def slotBookA (x : Nat) : Nat := bitsOf x 16 51 * 32
def slotBookB (x : Nat) : Nat := bitsOf x 67 51 * 32
/-- The reserved bits are zero. -/
def slotClean (x : Nat) : Bool := !bitSet x 15 && bitsOf x 118 10 = 0

/-- A codebook entry that R163 allows: ±0, or a magnitude between 2^-60 and 2^61, both exclusive. -/
def entryOk (x : Nat) : Bool :=
  match decodeF 9 x with
  | .num _ m e =>
    m = 0 || (decide (e + Nat.log2 m < 61) &&
      (decide (-60 < e + Nat.log2 m) || (decide (e + Nat.log2 m = -60) && m != 2 ^ Nat.log2 m)))
  | _ => false

/-- The 16 entries of a codebook's 32 bytes. -/
def bookEntries (bs : List (BitVec 8)) : List Nat := (List.range 16).map fun i => numLE ((bs.drop (2 * i)).take 2)

/-- Read a codebook for a team's instruction; one that cannot be read, or breaks R163, is a format-slot
trap (06 R179, 18 R430), so is one whose resumable fault (04 R100) ends in a failure. -/
def readBook (c : Cx) (va : Nat) : Act (List Nat) := do
  match ← attempt (readRecord c.req c.b.ctx va 32) with
  | .error (.fault _ _) => raise .formatSlot
  | .error (.absent st w a) => throw (.spill st w a va 7)
  | .error e => throw e
  | .ok bs => do
    require ((bookEntries bs).all entryOk) .formatSlot
    pure (bookEntries bs)

/-! ### CVT (09 R259) -/

/-- The types that CVT takes. -/
def cvtType (f : Nat) : Bool := f = 8 || f = 9 || f = 10 || f = 12 || f = 13 || f = 14

/-- The number of parts (08 R245). -/
def cvtParts (ws wd : Nat) : Nat := if ws < wd then 32 / ws / (32 / wd) else 32 / wd / (32 / ws)

/-- Every value of the first type is one of the second, so that a conversion rounds nothing (06 R161, R163): a type to
itself, e2m1 to any, e4m3 and e5m2 to the wider ones, f16 and bf16 to f32. -/
def widens (fa fo : Nat) : Bool :=
  fa = fo || fo = 10 || fa = 14 || ((fa = 12 || fa = 13) && (fo = 8 || fo = 9))

/-- One lane of CVT: widening takes part p of the source, narrowing fills part p of d. -/
def cvtLane (x p : Nat) (d a : Opnd) (c : Cx) (lane : Nat) : LaneRes :=
  let fa := slotA x
  let fo := slotOut x
  let ws := fmtWidth fa
  let wd := fmtWidth fo
  let src := elementsOf c ws lane a
  let conv := fun (j v : Nat) =>
    roundF fo ⟨modeRnd c.a.mode, slotSat x, modeFsub c.a.mode, drawAt c (modeRnd c.a.mode) lane j⟩
      (readF fa (modeFsub c.a.mode) v) false
  let n := if c.bt = .d then (if ws < wd then 32 / wd else 32 / ws) else 1
  let rs := (List.range n).map fun j => conv j (src.getD (if ws < wd && c.bt = .d then p * n + j else j) 0)
  let value :=
    if c.bt = .d then
      if ws < wd then packElems wd (rs.map (·.bits))
      else packElems wd ((List.range (32 / wd)).map fun k =>
        if p * n ≤ k ∧ k < p * n + n then (rs.getD (k - p * n) ⟨0, 0⟩).bits
        else elemOf wd (opWord c lane d).toNat k)
    else (rs.getD 0 ⟨0, 0⟩).bits
  ⟨lane, value, rs.foldl (fun a r => a ||| r.flags) 0, if widens fa fo then 0 else drawsFor c (modeRnd c.a.mode) n⟩

def cvtBody (d a : Opnd) (p fs : Nat) (c : Cx) : Act Next := do
  let x := slotBits c.l fs
  require (slotClean x && cvtType (slotA x) && cvtType (slotOut x) && !slotScaleA x && !slotScaleB x) .formatSlot
  require (if c.bt = .d then decide (p < cvtParts (fmtWidth (slotA x)) (fmtWidth (slotOut x))) else p = 0) .illegalOperand
  modTeam c.tid fun t => putRes false d ((workLanes c).map (cvtLane x p d a c)) c t
  pure .on

/-- CVT reads d when it narrows (09 R259). A conversion that is always exact does not look at mode.rnd (06 R165). -/
def cvtSig (d a : Opnd) (fs : Nat) (c : Cx) : Sig :=
  let x := slotBits c.l fs
  let role := if fmtWidth (slotOut x) < fmtWidth (slotA x) then Role.both else Role.dst
  { plain 0x6b [⟨d, role, false⟩, ⟨a, .src, false⟩] (.passes clsConvert) with
    mode := if widens (slotA x) (slotOut x) then none else roundingOk c }

/-- CVT (09 R259): the part is checked after the slot (18 R425 step 10). -/
def execCvt (d a : Opnd) (p fs : Nat) (s : State) : Host.Outcome State Fault Refusal :=
  teamStep (cvtSig d a fs) (cvtBody d a p fs) s

/-! ### CBLK (09 R261) -/

/-- The order of magnitude of a value that is not 0. -/
def topOf? : FVal → Option Int
  | .num _ m e => if m = 0 then none else some (e + Nat.log2 m)
  | _ => none

def maxInt (xs : List Int) : Option Int :=
  match xs with
  | [] => none
  | x :: r => some (r.foldl (fun a y => if a < y then y else a) x)

/-- The greatest exponent of a format, from its codebook for cb4; none for a format CBLK refuses. -/
def emaxOf (f : Nat) (book : List Nat) : Int :=
  if f = 14 then 2 else if f = 12 then 8 else if f = 13 then 15
  else (maxInt (book.filterMap fun x => topOf? (decodeF 9 x))).getD 0

/-- The scale byte of the values of one word's lanes. -/
def blockScale (emax : Int) (vs : List FVal) : Nat :=
  if vs.any (fun v => match v with
    | .num _ _ _ => false
    | _ => true) then 255
  else
    match maxInt (vs.filterMap topOf?) with
    | none => 127
    | some t =>
      let e := t - emax + 127
      if e < 0 then 0 else if 254 < e then 254 else e.toNat

def cblkWord (emax : Int) (a : Opnd) (c : Cx) (i : Nat) : List LaneRes :=
  let lanes := (lanesOf c.t.lanes c.gm).filter fun l => l / 32 = i
  let vs := lanes.map fun l => readF 10 (modeFsub c.a.mode) (opWord c l a).toNat
  let fl := if vs.any FVal.isSig then flagNv else 0
  lanes.map fun l => ⟨l, blockScale emax vs, fl, 0⟩

def cblkBody (d a : Opnd) (fs : Nat) (c : Cx) : Act Next := do
  let x := slotBits c.l fs
  let f := slotOut x
  require (slotClean x && decide (12 ≤ f)) .formatSlot
  let book ← if f = 15 then readBook c (slotBookA x) else pure []
  modTeam c.tid fun t => putRes false d ((List.range 32).flatMap (cblkWord (emaxOf f book) a c)) c t
  pure .on

def cblkSig (d a : Opnd) (_ : Cx) : Sig := plain 0x70 [⟨d, .dst, false⟩, ⟨a, .src, false⟩] (.passes clsConvert)

/-- CBLK (09 R261). -/
def execCblk (d a : Opnd) (fs : Nat) (s : State) : Host.Outcome State Fault Refusal :=
  teamStep (cblkSig d a) (cblkBody d a fs) s

/-! ### QNT and DQNT (09 R262) -/

/-- The register after an operand. -/
def nextOpnd : Opnd → Opnd
  | .v i => .v (i + 1)
  | .s i => .s (i + 1)
  | .k i => .k (i + 1)
def opndEven : Opnd → Bool
  | .v i => i % 2 = 0
  | .s i => i % 2 = 0
  | .k i => i % 2 = 0

/-- The 32-bit word of an operand in either kind of slot. -/
def wordOf (c : Cx) (lane : Nat) (o : Opnd) : Nat :=
  if c.bt = .d then (opWord c lane o).toNat else (opScalar c o).toNat % 2 ^ 32

/-- The scale byte; 127, which scales by 1, when none is read. -/
def scaleByte (x : Nat) (a : Opnd) (c : Cx) (lane : Nat) : Nat :=
  if slotScaleA x then wordOf c lane (nextOpnd a) % 256 else 127

/-- The distance of two numbers in units of a common power of two. -/
def distance (x y : FVal) (q : Int) : Nat :=
  match x, y with
  | .num a m e, .num b n g => (atQuantum a m e q - atQuantum b n g q).natAbs
  | _, _ => 0

def expOf : FVal → Int
  | .num _ _ e => e
  | _ => 0

/-- The index of the first entry that no other entry is better than. -/
def bestIndex (better : FVal → FVal → Bool) (vs : List FVal) : Nat :=
  (vs.zipIdx.foldl (fun a v => match a with
    | none => some v
    | some b => if better v.1 b.1 then some v else some b) none).elim 0 (·.2)

/-- The index of the codebook entry nearest a value, the lower winning a tie (09 R262). -/
def nearestEntry (book : List Nat) (q : FVal) : FRes :=
  let vs := book.map (decodeF 9)
  match q with
  | .nan _ => ⟨0, flagNv⟩
  | .inf neg => ⟨bestIndex (fun x y => if neg then ltF x y else ltF y x) vs, flagNv⟩
  | q =>
    let u := vs.foldl (fun (a : Int) v => if expOf v < a then expOf v else a) (expOf q)
    ⟨bestIndex (fun x y => decide (distance q x u < distance q y u)) vs, 0⟩

/-- Element width of a storage format. -/
def storeWidth (f : Nat) : Nat := if f = 15 then 4 else fmtWidth f

/-- The slot's rounding for one conversion of a lane. -/
def slotRounding (x : Nat) (c : Cx) (lane : Nat) : Rounding :=
  ⟨modeRnd c.a.mode, slotSat x, modeFsub c.a.mode, drawAt c (modeRnd c.a.mode) lane 0⟩

/-- One lane of QNT. -/
def qntLane (x p : Nat) (book : List Nat) (d a : Opnd) (c : Cx) (lane : Nat) : LaneRes :=
  let f := slotOut x
  let w := storeWidth f
  let e := scaleByte x a c lane
  let v := readF 10 (modeFsub c.a.mode) (wordOf c lane a)
  let q := scaleF v (127 - (e : Int))
  let r : FRes :=
    if e = 255 then ⟨if f = 15 then 0 else nanBits f, flagNv⟩
    else if f = 15 then nearestEntry book q
    else roundF f (slotRounding x c lane) q false
  let old := wordOf c lane d
  ⟨lane, packElems w ((List.range (32 / w)).map fun j => if j = p then r.bits else elemOf w old j), r.flags,
    if f = 15 then 0 else drawsFor c (modeRnd c.a.mode) 1⟩

/-- One lane of DQNT. -/
def dqntLane (x p : Nat) (book : List Nat) (a : Opnd) (c : Cx) (lane : Nat) : LaneRes :=
  let f := slotA x
  let el := elemOf (storeWidth f) (wordOf c lane a) p
  let e := scaleByte x a c lane
  let v := if f = 15 then decodeF 9 (book.getD el 0) else decodeF f el
  let r : FRes :=
    if e = 255 then ⟨nanBits 10, flagNv⟩
    else roundF 10 (slotRounding x c lane) (scaleF v ((e : Int) - 127)) false
  ⟨lane, r.bits, r.flags, if slotScaleA x then drawsFor c (modeRnd c.a.mode) 1 else 0⟩

/-- The slot, its codebook and then the element number (18 R425 step 10). -/
def quantBook (f p : Nat) (x : Nat) (c : Cx) : Act (List Nat) := do
  require (slotClean x && decide (12 ≤ f)) .formatSlot
  let book ← if f = 15 then readBook c (slotBookA x) else pure []
  require (decide (p < 32 / storeWidth f)) .illegalOperand
  pure book

def qntBody (d a : Opnd) (p fs : Nat) (c : Cx) : Act Next := do
  let x := slotBits c.l fs
  let book ← quantBook (slotOut x) p x c
  modTeam c.tid fun t => putRes false d ((workLanes c).map (qntLane x p book d a c)) c t
  pure .on

def dqntBody (d a : Opnd) (p fs : Nat) (c : Cx) : Act Next := do
  let x := slotBits c.l fs
  let book ← quantBook (slotA x) p x c
  modTeam c.tid fun t => putRes false d ((workLanes c).map (dqntLane x p book a c)) c t
  pure .on

/-- QNT and DQNT: with a scale on A, a is even and the register after it is read too. -/
def quantSig (op : Nat) (role : Role) (d a : Opnd) (fs : Nat) (rounds : Bool) (c : Cx) : Sig :=
  let on := slotScaleA (slotBits c.l fs)
  { plain op [⟨d, role, false⟩, ⟨a, .src, on⟩] (.passes clsConvert) with
    operandOk := !on || opndEven a
    mode := if rounds then roundingOk c else none }

/-- A codebook index is chosen, not rounded (09 R262). -/
def qntSig (d a : Opnd) (fs : Nat) (c : Cx) : Sig := quantSig 0x71 .both d a fs (slotOut (slotBits c.l fs) != 15) c

/-- QNT (09 R262). -/
def execQnt (d a : Opnd) (p fs : Nat) (s : State) : Host.Outcome State Fault Refusal :=
  teamStep (qntSig d a fs) (qntBody d a p fs) s

/-- Without a scale, every element is a value of f32, and DQNT does not look at mode.rnd (06 R165). -/
def dqntSig (d a : Opnd) (fs : Nat) (c : Cx) : Sig := quantSig 0x72 .dst d a fs (slotScaleA (slotBits c.l fs)) c

/-- DQNT (09 R262). -/
def execDqnt (d a : Opnd) (p fs : Nat) (s : State) : Host.Outcome State Fault Refusal :=
  teamStep (dqntSig d a fs) (dqntBody d a p fs) s

/-! ### CBLU (09 R263) -/

/-- The four entries of a lane as one pair: entries 0 and 1 in the even register. -/
def cbluLane (book : List Nat) (h : Bool) (a : Opnd) (c : Cx) (lane : Nat) : LaneRes :=
  let k := if h then 4 else 0
  ⟨lane, packElems 16 ((List.range 4).map fun j => book.getD (elemOf 4 (opWord c lane a).toNat (k + j)) 0), 0, 0⟩

def cbluBody (d a : Opnd) (h : Bool) (fs : Nat) (c : Cx) : Act Next := do
  let x := slotBits c.l fs
  require (slotClean x && slotA x = 15) .formatSlot
  let book ← readBook c (slotBookA x)
  modTeam c.tid fun t => putRes true d ((workLanes c).map (cbluLane book h a c)) c t
  pure .on

def cbluSig (d a : Opnd) (_ : Cx) : Sig := plain 0x73 [⟨d, .dst, true⟩, ⟨a, .src, false⟩] (.passes clsConvert)

/-- CBLU (09 R263). -/
def execCblu (d a : Opnd) (h : Bool) (fs : Nat) (s : State) : Host.Outcome State Fault Refusal :=
  teamStep (cbluSig d a) (cbluBody d a h fs) s

/-! ### Short dot products (09 R264) -/

/-- A lane of a floating-point dot product: z and the exact products, one rounding to f32. Where the sum overflows, the
result is that of mode.rnd and mode.sat under 06 R168 (DEDUCED, log entry 28: 09 R264 takes special values from R181,
whose row of an overflow gives the infinity of RNE, and the rounding from mode.rnd). -/
def fdotLane (f : Nat) (d a b : Opnd) (c : Cx) (lane : Nat) : LaneRes :=
  let w := fmtWidth f
  let fsub := modeFsub c.a.mode
  let prods := (List.range (32 / w)).map fun j =>
    mulF (readF f fsub (elemOf w (wordOf c lane a) j)) (readF f fsub (elemOf w (wordOf c lane b) j))
  let r := finishF 10 (modeRounding c lane 0) (groupSum (.exact (readF 10 fsub (wordOf c lane d)) :: prods))
  ⟨lane, r.bits, r.flags, drawsFor c (modeRnd c.a.mode) 1⟩

/-- A lane of an integer dot product. -/
def idotLane (sg : Bool) (d a b : Opnd) (c : Cx) (lane : Nat) : LaneRes :=
  let el := fun (o : Opnd) (j : Nat) =>
    let x := elemOf 8 (wordOf c lane o) j
    if sg then signed 8 x else (x : Int)
  let sum := (List.range 4).foldl (fun (acc : Int) j => acc + el a j * el b j) (wordOf c lane d : Int)
  ⟨lane, wrapTo 32 sum, 0, 0⟩

def fdotPut (lane : Cx → Nat → LaneRes) (d : Opnd) (c : Cx) (t : Team) : Team :=
  putRes false d ((workLanes c).map (lane c)) c t

def fdotSig (op : Nat) (ok rounds : Bool) (cls : Nat) (d a b : Opnd) (c : Cx) : Sig :=
  { plain op [⟨d, .both, false⟩, ⟨a, .src, false⟩, ⟨b, .src, false⟩] (.passes cls) with
    mode := floatMode c ok rounds }

def fdot2Sig (d a b : Opnd) (c : Cx) : Sig := fdotSig 0x74 (floatType c = 8 || floatType c = 9) true clsF16 d a b c
def fdot4Sig (d a b : Opnd) (c : Cx) : Sig :=
  let f := floatType c
  fdotSig 0x75 (f = 12 || f = 13 || f = 0 || f = 1) (decide (12 ≤ f)) (if f < 2 then clsInteger else clsF16) d a b c

/-- FDOT2's result. -/
def fdot2Put (d a b : Opnd) (c : Cx) : Team → Team := fdotPut (fdotLane (floatType c) d a b) d c

/-- FDOT4's result: an integer sum under an integer type. -/
def fdot4Put (d a b : Opnd) (c : Cx) : Team → Team :=
  if floatType c < 2 then fdotPut (idotLane (floatType c = 0) d a b) d c
  else fdotPut (fdotLane (floatType c) d a b) d c

/-- FDOT2 (09 R264). -/
def execFdot2 (d a b : Opnd) (s : State) : Host.Outcome State Fault Refusal :=
  teamStep (fdot2Sig d a b) (pureBody (fdot2Put d a b)) s

/-- FDOT4 (09 R264). -/
def execFdot4 (d a b : Opnd) (s : State) : Host.Outcome State Fault Refusal :=
  teamStep (fdot4Sig d a b) (pureBody (fdot4Put d a b)) s

end Sys2Proof.Machine
end

