-- ==== Sys2Proof/Machine/LoadStore.lean ====
section
/-! DEFINITION. Loads, stores, acquire and release accesses, prefetch, atomics, constant loads, fences
and stash mapping (09 R269-R279; 05 R133, R137, R143-R145). -/
namespace Sys2Proof.Machine
open Sys2Proof

/-! ### Addresses (09 R269) -/

/-- The VA of a lane's access, or of a T slot's. -/
def addrOf (c : Cx) (a : Opnd) (lane : Nat) : Nat :=
  if c.bt = .d then (opPair c lane a).toNat else (opScalar c a).toNat

/-- The stash offset of a lane's access, or of a T slot's: 32 bits (09 R272). -/
def offsetOf (c : Cx) (a : Opnd) (lane : Nat) : Nat := wordOf c lane a

/-- Size in bytes of a size code (09 R272). -/
def sizeBytes : Nat → Nat
  | 0 => 4 | 1 => 8 | 2 => 1 | _ => 2

/-- Lanes whose stores and atomics are performed: helpers' are suppressed (02 R29). -/
def storeLanes (c : Cx) : List Nat := lanesOf c.t.lanes (c.gm &&& liveLanes c.t)

/-- The alignment trap of a D slot holds the misaligned lanes alone (09 R269, 17 R400). -/
def laneAlignTrap (c : Cx) (a : Opnd) (k : AccKind) (bad : List Nat) : Trap :=
  ⟨.alignment, 9, 0, addrOf c a (bad.headD 0), bad.headD 0 + 1024 * kindCode k, true, some (maskOf bad), 0,
    false, false, false, 0, 0⟩

/-- Every lane's VA is aligned to n bytes, before any lane performs. -/
def alignLanes (c : Cx) (a : Opnd) (k : AccKind) (n : Nat) (lanes : List Nat) : Act Unit :=
  match lanes.filter fun l => addrOf c a l % n != 0 with
  | [] => pure ()
  | bad => throw (.trap (laneAlignTrap c a k bad))

def alignScalar (c : Cx) (va : Nat) (k : AccKind) (n : Nat) : Act Unit :=
  if va % n = 0 then pure () else throw (.trap (alignTrap c va k))

/-! ### Loaded values (09 R272) -/

/-- Bytes extended to W bits. -/
def extendTo (W : Nat) (sx : Bool) (bs : List (BitVec 8)) : Nat :=
  if sx then wrapTo W (signed (8 * bs.length) (numLE bs)) else numLE bs

/-- Write what a lane, or a T slot, loaded. -/
def putLoaded (c : Cx) (d : Opnd) (sx : Bool) (lane : Nat) (bs : List (BitVec 8)) : Act Unit :=
  if c.bt = .d then
    if bs.length = 8 then writePairs c d [(lane, BitVec.ofNat 64 (numLE bs))]
    else writeVs c d [(lane, BitVec.ofNat 32 (extendTo 32 sx bs))]
  else writeS c d (BitVec.ofNat 64 (extendTo 64 sx bs))

/-- The number under which a peer's answer finds its destination: v_i as i, s_i as 256 + i. -/
def destCode : Opnd → Nat
  | .v i => i
  | .s i => 256 + i
  | .k i => 512 + i

/-! ### Peers (09 R271, 20 R483) -/

/-- Ask a peer for data, and wait for its answer. -/
def askPeer {α : Type} (c : Cx) (pkg type ia lane : Nat) (d : Opnd) (n : Nat) (sx : Bool) (bs : List (BitVec 8)) : Act α := do
  let tx ← sendPeer c.req pkg type 0 ia n bs (.load c.tid c.arm lane (destCode d) n ia sx)
  throw (.wait (.peer [tx]))

/-- Send a posted access to a peer: the arm goes on (09 R271). -/
def postPeer (c : Cx) (pkg type ia va : Nat) (k : AccKind) (bs : List (BitVec 8)) : Act Unit := do
  let tx ← sendPeer c.req pkg type 0 ia bs.length bs (.posted c.tid va (kindCode k) c.b.ctx c.b.world c.b.core)
  modTeam c.tid fun t => { t with posted := t.posted ++ [(tx, if t.split then c.arm else 2)] }

/-- An error enters a team's status (17 R408), with the node before an engine operation's and the IA of the access that
failed, for the dump of its trap (17 R418). -/
def enterAsync (tid cls detail kind : Nat) (peer : Bool) (src : Source) (prior ia : Nat) : Act Unit :=
  modTeam tid fun t =>
    let e := t.aerr
    let e1 : AErr := if e.pending then { e with more := true } else ⟨true, false, false, false, cls, detail, kind, src, prior, ia⟩
    { t with aerr := { e1 with scope5 := e1.scope5 || !peer, scope6 := e1.scope6 || peer } }

/-- An access of a store to host memory is posted (09 R271): a data error there, of a poisoned block or of a link that is
down (21 R514), enters the team's status and the arm goes on. -/
def posting (c : Cx) (ia va : Nat) (k : AccKind) (m : Act Unit) : Act Unit := do
  match ← attempt m with
  | .ok _ => pure ()
  | .error (.fault .dataError cls) => do
    let s ← get
    match (find? s.tlb (tlbKey ia c.b.world (sliceOf ia))).map fun e => maOf e ia with
    | some ma =>
      if isHostMa ma then
        enterAsync c.tid cls va (kindCode k) true (if hostLost s ma then ⟨6, 0, 0⟩ else ⟨4, sliceOf ia, 0⟩) 0 ia
      else throw (.fault .dataError cls)
    | none => throw (.fault .dataError cls)
  | .error e => throw e

/-- An atomic to a peer whose old value comes back, and a posted one, as `sendPeer` takes them: the manual gives no header
type of their own (log entry 11). -/
def peerAtomic : Nat := 16
def postedAtomic : Nat := 17

/-! ### Global accesses (09 R270, R271) -/

/-- Where a global access goes: a stash offset of a mapped region, a peer, or the memory of this device
with its IA and cacheability. -/
inductive Place where
  | stash (off : Nat)
  | peer (pkg ia : Nat)
  | here (ia cache : Nat)
deriving DecidableEq, Repr

/-- Where an access to a VA goes. -/
def placeOf (c : Cx) (va : Nat) (k : AccKind) : Act Place := do
  match regionFor c.b va with
  | some g => pure (.stash (g.off + (va - g.va)))
  | none => do
    let (ia, cache) ← iaFor c.b.ctx va k
    match peerOf (← get) ia with
    | some pkg => pure (.peer pkg ia)
    | none => pure (.here ia cache)

/-- The IA of a VA, by its range register. -/
def plainIa (c : Cx) (va : Nat) (k : AccKind) : Act Nat := do
  let (ia, _) ← iaFor c.b.ctx va k
  pure ia

/-- A load of a lane (09 R270). -/
def globalLoad (c : Cx) (d : Opnd) (n : Nat) (sx alloc : Bool) (lane va : Nat) : Act (List (BitVec 8)) := do
  match ← placeOf c va .read with
  | .stash off => stashRead c.req c.t.bid off n
  | .peer pkg ia => askPeer c pkg 1 ia lane d n sx []
  | .here ia cache => l1Read c.req c.b.core ia cache n alloc

/-- A store of a lane; `rel` is the scope of a release store. A release at scope 0 or 1, or a plain store after a release
FENCE there, records its line; one that goes past the L1 reaches the slice with its hint (05 R143, R145). -/
def globalStore (c : Cx) (rel : Option Nat) (va : Nat) (bs : List (BitVec 8)) : Act Unit := do
  let record := match rel with
    | some sc => decide (sc < 2)
    | none => fencedNarrow c
  match ← placeOf c va .write with
  | .stash off => do
    let ia ← plainIa c va .write
    posting c ia va .write (stashWrite c.req c.t.bid off c.b.ctx bs)
    if record then noteRelease c ia else pure ()
  | .peer pkg ia => postPeer c pkg 0 ia va .write bs
  | .here ia cache => posting c ia va .write do
    l1Write c.req c.b.core ia cache (c.req.ctx.getD 0x3ff) bs
    if !record then pure ()
    else if (find? (coreOf (← get) c.b.core).l1 (l1Key ia c.b.world)).isSome then noteRelease c ia
    else noteReleaseHere c ia

/-- An acquire at cluster scope or wider, and a release (04 R101, R103). -/
def acquireAt (c : Cx) (sc : Nat) : Act Unit := if 2 ≤ sc then acquireWide c.b.core else pure ()
def releaseAt (c : Cx) (sc : Nat) : Act Unit := if 2 ≤ sc then releaseWide c.b.core c.t.bid else pure ()

/-- A read at the home slice past the L1 and the mapped stash, after a remote acquire's promotion. -/
def homeRead (c : Cx) (d : Opnd) (n : Nat) (remote : Bool) (lane va : Nat) : Act (List (BitVec 8)) := do
  let ia ← plainIa c va .read
  match peerOf (← get) ia with
  | some pkg => askPeer c pkg 1 ia lane d n false []
  | none => do
    flushOwn c.req c.b c.t.bid va ia
    if remote then promoteOwner c.req.ctx c.b.world ia (some c.b.core) else pure ()
    sliceRead c.req ia n .read

/-! ### Loads (09 R272, R274) -/

/-- Perform a load in every lane, or once in a T slot. `place` gives the address, `align` the alignment
asked of it, `acc` the access. -/
def loadBody (align : Nat) (place : Cx → Nat → Nat) (acc : Cx → Nat → Nat → Act (List (BitVec 8))) (d a : Opnd)
    (sx : Bool) (c : Cx) : Act Next := do
  if c.bt = .d then do
    let lanes := lanesOf c.t.lanes c.gm
    if align = 1 then pure () else alignLanes c a .read align lanes
    let r ← overLanes (place c) (fun l => do putLoaded c d sx l (← acc c l (place c l))) lanes .start
    settleLanes c .read r
    pure .on
  else if answered c then pure .on
  else do
    alignScalar c (place c 0) .read align
    let lane := (lanesOf c.t.lanes c.a.exec).headD 0
    let bs ← scalarAccess c (place c 0) .read (acc c lane (place c 0))
    putLoaded c d sx 0 bs
    pure .on

/-- The declaration of a load: no sign with 4 or 8 bytes (18 R427). -/
def loadSig (op cls : Nat) (pairA : Bool) (d a : Opnd) (la : Nat) (sx : Bool) (sz : Nat) : Sig :=
  let p := decide (sizeBytes sz = 8)
  { plain op [⟨d, .dst, p⟩, ⟨a, .src, pairA⟩] (.passes cls) with
    values := !(sx && decide (sz < 2))
    la := some (la, d, p) }

/-- LD (09 R272). -/
def execLd (d a : Opnd) (la : Nat) (sx : Bool) (sz : Nat) (s : State) : Host.Outcome State Fault Refusal :=
  teamStep (fun _ => loadSig 0x90 clsL1 true d a la sx sz)
    (loadBody (sizeBytes sz) (fun c l => addrOf c a l) (fun c l va => globalLoad c d (sizeBytes sz) sx true l va) d a sx) s

/-- LDNC (09 R272): a line in the L1 is read there, and none is allocated. -/
def execLdnc (d a : Opnd) (la : Nat) (sx : Bool) (sz : Nat) (s : State) : Host.Outcome State Fault Refusal :=
  teamStep (fun _ => loadSig 0x96 clsL1 true d a la sx sz)
    (loadBody (sizeBytes sz) (fun c l => addrOf c a l) (fun c l va => globalLoad c d (sizeBytes sz) sx false l va) d a sx) s

/-- A stash access within the allocation (09 R272). -/
def stashLoad (c : Cx) (n off : Nat) : Act (List (BitVec 8)) :=
  if c.b.stashSize < off + n then accessFault .stashRange else stashRead c.req c.t.bid off n

/-- LDS (09 R272). -/
def execLds (d a : Opnd) (la : Nat) (sx : Bool) (sz : Nat) (s : State) : Host.Outcome State Fault Refusal :=
  teamStep (fun _ => loadSig 0x92 clsStash false d a la sx sz)
    (loadBody 1 (fun c l => offsetOf c a l) (fun c _ off => stashLoad c (sizeBytes sz) off) d a sx) s

/-- Scopes and the remote mark as the words give them (18 R427): 0 to 6, and the mark from 5 up. -/
def scopeOk (sc : Nat) (rmk : Bool) : Bool := decide (sc < 7) && (!rmk || decide (5 ≤ sc))

/-- Bytes of an access under the pair types (09 R274, R276). -/
def wideBytes (c : Cx) : Nat := if wholePair (modeEtype c.a.mode) then 8 else 4

/-- An acquire load: the L1 is invalidated first at cluster scope and wider; a remote acquire reads at
the home slice (05 R144). -/
def ldaBody (d a : Opnd) (rmk : Bool) (sc : Nat) (c : Cx) : Act Next := do
  acquireAt c sc
  loadBody (wideBytes c) (fun c l => addrOf c a l)
    (fun c l va =>
      if rmk then homeRead c d (wideBytes c) true l va else globalLoad c d (wideBytes c) false true l va) d a false c

/-- LDA (09 R274). -/
def execLda (d a : Opnd) (la : Nat) (rmk : Bool) (sc : Nat) (s : State) : Host.Outcome State Fault Refusal :=
  teamStep (fun c =>
    let p := decide (wideBytes c = 8)
    { plain 0x94 [⟨d, .dst, p⟩, ⟨a, .src, true⟩] (.passes clsL1) with
      values := scopeOk sc rmk
      scope := some (sc, rmk)
      la := some (la, d, p) }) (ldaBody d a rmk sc) s

/-! ### Stores (09 R273, R274) -/

/-- The low n bytes of a lane's data, or of a T slot's. -/
def storeData (c : Cx) (b : Opnd) (n lane : Nat) : List (BitVec 8) :=
  if c.bt = .d then bytesLE n (if n = 8 then (opPair c lane b).toNat else (opWord c lane b).toNat)
  else bytesLE n (opScalar c b).toNat

/-- Perform a store in every live lane in increasing order (05 R133), or once in a T slot, where it is
suppressed in an arm with no live lane (02 R48). `rel` is what a release asks (04 R101, 05 R137): before the lanes, whose
writes may go past the device, and once they have performed, for their own lines. -/
def storeBody (align n : Nat) (place : Cx → Nat → Nat) (acc : Cx → Nat → List (BitVec 8) → Act Unit) (rel : Cx → Act Unit)
    (a b : Opnd) (c : Cx) : Act Next := do
  if c.bt = .d then do
    let lanes := storeLanes c
    if align = 1 then pure () else alignLanes c a .write align lanes
    rel c
    let r ← overLanes (place c) (fun l => acc c (place c l) (storeData c b n l)) lanes .start
    rel c
    settleLanes c .write r
    pure .on
  else if suppressed c then pure .on
  else do
    alignScalar c (place c 0) .write align
    rel c
    scalarAccess c (place c 0) .write (acc c (place c 0) (storeData c b n 0))
    rel c
    pure .on

def storeSig (op cls : Nat) (pairA : Bool) (sz : Nat) (a b : Opnd) : Sig :=
  plain op [⟨a, .src, pairA⟩, ⟨b, .src, sizeBytes sz = 8⟩] (.passes cls)

/-- ST (09 R273). -/
def execSt (sz : Nat) (a b : Opnd) (s : State) : Host.Outcome State Fault Refusal :=
  teamStep (fun _ => storeSig 0x91 clsL1 true sz a b)
    (storeBody (sizeBytes sz) (sizeBytes sz) (fun c l => addrOf c a l) (fun c va bs => globalStore c none va bs)
      releaseFenced a b) s

/-- A store to the block's stash within the allocation (09 R273). -/
def stashStore (c : Cx) (off : Nat) (bs : List (BitVec 8)) : Act Unit :=
  if c.b.stashSize < off + bs.length then accessFault .stashRange
  else do
    stashWrite c.req c.t.bid off c.b.ctx bs
    noteStash c off

/-- STS (09 R273). -/
def execSts (sz : Nat) (a b : Opnd) (s : State) : Host.Outcome State Fault Refusal :=
  teamStep (fun _ => storeSig 0x93 clsStash false sz a b)
    (storeBody 1 (sizeBytes sz) (fun c l => offsetOf c a l) (fun c off bs => stashStore c off bs)
      releaseFenced a b) s

/-- A release store: at cluster scope and wider, every dirty line of the core is written back, its own
included (04 R101). -/
def stlBody (z : Bool) (sc : Nat) (a b : Opnd) (c : Cx) : Act Next :=
  let n := if z then 8 else 4
  storeBody n n (fun c l => addrOf c a l) (fun c va bs => globalStore c (some sc) va bs)
    (fun c => do
      releaseAt c sc
      releaseFenced c) a b c

/-- STL (09 R274). -/
def execStl (z : Bool) (sc : Nat) (a b : Opnd) (s : State) : Host.Outcome State Fault Refusal :=
  teamStep (fun _ =>
    { plain 0x95 [⟨a, .src, true⟩, ⟨b, .src, z⟩] (.passes clsL1) with
      values := scopeOk sc false
      scope := some (sc, false) }) (stlBody z sc a b) s

/-! ### Prefetch (09 R275) -/

/-- Ask for the line at a VA (09 R275): the chunk of a mapped region, the L1's line, or the LLC's. -/
def prefetch (lv va : Nat) (c : Cx) : Act Unit := do
  match ← placeOf c va .read with
  | .stash off => if lv = 1 then pure () else do
    let _ ← chunkFill c.req c.t.bid off va .read
  | .peer _ _ => pure ()
  | .here ia cache =>
    let base := ia / 64 * 64
    if lv = 1 then do
      let _ ← atHome c.req base 0 0 (serveRead c.req base 64 .read)
    else if lv = 0 && cache = 0 && (find? (coreOf (← get) c.b.core).l1 (l1Key ia c.b.world)).isNone then do
      let _ ← l1Fill c.req c.b.core ia .read
    else pure ()

/-- PREF's lanes, whose VAs are those of its operand as it stands; a lane whose access stops is dropped. -/
def prefLanes (lv : Nat) (a : Opnd) (c : Cx) : Act Unit :=
  each (if c.bt = .d then lanesOf c.t.lanes c.gm else [0]) fun l => do
    let _ ← attempt (prefetch lv (addrOf c a l) c)

/-- PREF raises nothing beyond step 3 of 18 R425 (R431): what would stop another instruction drops it. -/
def performPref (g : Sig) (lv : Nat) (a : Opnd) (c : Cx) : Act Unit := do
  if !encodingOk c g then deliverTrap c (wholeTrap .illegalEncoding)
  else do
    if operandsOk c g && poisonedLanes c g = 0 then
      match ← attempt (residency c g) with
      | .error _ => undoTeam c
      | .ok _ =>
        match cxOf (← get) c.tid c.arm c.bt with
        | some c => prefLanes lv a c
        | none => pure ()
    else pure ()
    finish c g .on

def prefSig (lv : Nat) (a : Opnd) : Sig := { plain 0x97 [⟨a, .src, true⟩] (.passes clsL1) with values := lv != 3 }

/-- PREF (09 R275). -/
def execPref (lv : Nat) (a : Opnd) (s : State) : Host.Outcome State Fault Refusal :=
  match s.focus with
  | .team tid arm bt =>
    match cxOf s tid arm bt with
    | some c => .next (runAct (performPref (prefSig lv a) lv a c) s)
    | none => .fault .noArm
  | _ => .fault .noArm

/-! ### Atomics (09 R276) -/

/-- An atomic's new value: width, element type, old value, b, d. -/
abbrev AtomicFn := Nat → Nat → Nat → Nat → Nat → Nat

def aaddFn : AtomicFn := fun w _ old b _ => (old + b) % 2 ^ w
def aminFn : AtomicFn := fun w e old b _ => minFn w (intSigned e) 0 old b
def amaxFn : AtomicFn := fun w e old b _ => maxFn w (intSigned e) 0 old b
def aandFn : AtomicFn := fun _ _ old b _ => old &&& b
def aorFn : AtomicFn := fun _ _ old b _ => old ||| b
def axorFn : AtomicFn := fun _ _ old b _ => old ^^^ b
def axchFn : AtomicFn := fun _ _ _ b _ => b
def acasFn : AtomicFn := fun _ _ old b d => if old = d then b else old
/-- RNE, subnormals honoured, no flag; under f16 and bf16 each half apart. -/
def afaddFn : AtomicFn := fun w e old b _ =>
  let add := fun (x y : Nat) => (faddFn e ⟨0, false, false, none⟩ x y 0).bits
  let k := fmtWidth e
  packElems k ((List.range (w / k)).map fun j => add (elemOf k old j) (elemOf k b j))

/-- A lane's value of an operand at the atomic's width. -/
def atomicVal (c : Cx) (o : Opnd) (lane : Nat) : Nat :=
  let n := wideBytes c
  if c.bt = .d then (if n = 8 then (opPair c lane o).toNat else (opWord c lane o).toNat)
  else (opScalar c o).toNat % 2 ^ (8 * n)

/-- One read-modify-write of a lane at the home slice: the core's own chunk or line goes there first
(09 R270, 04 R107). -/
def atomicLane (fn : AtomicFn) (d a b : Opnd) (c : Cx) (lane : Nat) : Act (List (BitVec 8)) := do
  let n := wideBytes c
  let va := addrOf c a lane
  let ia ← plainIa c va .rmw
  match peerOf (← get) ia with
  | some pkg => askPeer c pkg peerAtomic ia lane d n false (bytesLE n (atomicVal c b lane))
  | none => do
    if fencedNarrow c then readyRelease c ia else pure ()
    flushOwn c.req c.b c.t.bid va ia
    let old ← sliceRmw c.req ia n .rmw fun x => fn (8 * n) (modeEtype c.a.mode) x (atomicVal c b lane) (atomicVal c d lane)
    if fencedNarrow c then noteReleaseHere c ia else pure ()
    pure (bytesLE n old)

/-- An atomic in every live lane in increasing order, or once in a T slot. -/
def atomicBody (fn : AtomicFn) (d a b : Opnd) (c : Cx) : Act Next := do
  if c.bt = .d then do
    let lanes := storeLanes c
    alignLanes c a .rmw (wideBytes c) lanes
    releaseFenced c
    let r ← overLanes (addrOf c a) (fun l => do putLoaded c d false l (← atomicLane fn d a b c l)) lanes .start
    settleLanes c .rmw r
    pure .on
  else if suppressed c || answered c then pure .on
  else do
    alignScalar c (addrOf c a 0) .rmw (wideBytes c)
    releaseFenced c
    let bs ← scalarAccess c (addrOf c a 0) .rmw (atomicLane fn d a b c 0)
    putLoaded c d false 0 bs
    pure .on

/-- The declaration of an atomic; `ok` is its column of element types. -/
def atomicSig (op : Nat) (role : Role) (ok : Nat → Bool) (d a b : Opnd) (c : Cx) : Sig :=
  let p := decide (wideBytes c = 8)
  { plain op [⟨d, role, p⟩, ⟨a, .src, true⟩, ⟨b, .src, p⟩] (.passes clsL1) with
    mode := if ok (modeEtype c.a.mode) then none else some .illegalType }

def intAtomic (e : Nat) : Bool := decide (4 ≤ e) && decide (e ≤ 7)
def anyType (_ : Nat) : Bool := true

/-- AADD (09 R276). -/
def execAadd (d a b : Opnd) (s : State) : Host.Outcome State Fault Refusal :=
  teamStep (atomicSig 0x98 .dst intAtomic d a b) (atomicBody aaddFn d a b) s

/-- AMIN (09 R276). -/
def execAmin (d a b : Opnd) (s : State) : Host.Outcome State Fault Refusal :=
  teamStep (atomicSig 0x99 .dst intAtomic d a b) (atomicBody aminFn d a b) s

/-- AMAX (09 R276). -/
def execAmax (d a b : Opnd) (s : State) : Host.Outcome State Fault Refusal :=
  teamStep (atomicSig 0x9a .dst intAtomic d a b) (atomicBody amaxFn d a b) s

/-- AAND (09 R276). -/
def execAand (d a b : Opnd) (s : State) : Host.Outcome State Fault Refusal :=
  teamStep (atomicSig 0x9b .dst anyType d a b) (atomicBody aandFn d a b) s

/-- AOR (09 R276). -/
def execAor (d a b : Opnd) (s : State) : Host.Outcome State Fault Refusal :=
  teamStep (atomicSig 0x9c .dst anyType d a b) (atomicBody aorFn d a b) s

/-- AXOR (09 R276). -/
def execAxor (d a b : Opnd) (s : State) : Host.Outcome State Fault Refusal :=
  teamStep (atomicSig 0x9d .dst anyType d a b) (atomicBody axorFn d a b) s

/-- AXCH (09 R276). -/
def execAxch (d a b : Opnd) (s : State) : Host.Outcome State Fault Refusal :=
  teamStep (atomicSig 0x9e .dst anyType d a b) (atomicBody axchFn d a b) s

/-- ACAS (09 R276). -/
def execAcas (d a b : Opnd) (s : State) : Host.Outcome State Fault Refusal :=
  teamStep (atomicSig 0x9f .both anyType d a b) (atomicBody acasFn d a b) s

/-- AFADD (09 R276). -/
def execAfadd (d a b : Opnd) (s : State) : Host.Outcome State Fault Refusal :=
  teamStep (atomicSig 0xa0 .dst isFloat d a b) (atomicBody afaddFn d a b) s

/-! ### Uniform and constant access (09 R277) -/

/-- LDK: an acquire at the home slice. -/
def ldkBody (d a : Opnd) (rmk : Bool) (sc : Nat) (c : Cx) : Act Next := do
  if answered c then pure .on
  else do
    let va := (opScalar c a).toNat
    alignScalar c va .read 8
    acquireAt c sc
    let bs ← scalarAccess c va .read (homeRead c d 8 rmk ((lanesOf c.t.lanes c.a.exec).headD 0) va)
    putLoaded c d false 0 bs
    pure .on

/-- LDK (09 R277). -/
def execLdk (d a : Opnd) (la : Nat) (rmk : Bool) (sc : Nat) (s : State) : Host.Outcome State Fault Refusal :=
  teamStep (fun _ =>
    { plain 0xa5 [⟨d, .dst, false⟩, ⟨a, .scalar, false⟩] .none with
      values := scopeOk sc rmk
      scope := some (sc, rmk)
      la := some (la, d, false) }) (ldkBody d a rmk sc) s

/-- A write of 8 bytes at the home slice, charged as an LLC access and an atomic-unit operation. -/
def homeWrite (c : Cx) (va x : Nat) : Act Nat := do
  let ia ← plainIa c va .write
  match peerOf (← get) ia with
  | some pkg => do
    postPeer c pkg 0 ia va .write (bytesLE 8 x)
    pure ia
  | none => do
    flushOwn c.req c.b c.t.bid va ia
    posting c ia va .write do
      let _ ← sliceRmw c.req ia 8 .write fun _ => x
    pure ia

/-- STK: a release write; no trigger entry is evaluated. -/
def stkBody (sc : Nat) (a b : Opnd) (c : Cx) : Act Next := do
  if suppressed c then pure .on
  else do
    let va := (opScalar c a).toNat
    alignScalar c va .write 8
    releaseAt c sc
    releaseFenced c
    let ia ← scalarAccess c va .write (homeWrite c va (opScalar c b).toNat)
    if sc < 2 && (peerOf (← get) ia).isNone then noteReleaseHere c ia else pure ()
    pure .on

/-- STK (09 R277). -/
def execStk (sc : Nat) (a b : Opnd) (s : State) : Host.Outcome State Fault Refusal :=
  teamStep (fun _ =>
    { plain 0xa6 [⟨a, .scalar, false⟩, ⟨b, .scalar, false⟩] .none with
      values := scopeOk sc false
      scope := some (sc, false) }) (stkBody sc a b) s

/-- LDCW: bytes of the launch's constant window, read through the context's range registers (05
R154). -/
def ldcwBody (d a : Opnd) (sx : Bool) (sz : Nat) (c : Cx) : Act Next := do
  let n := sizeBytes sz
  let off := (opScalar c a).toNat
  require (decide (off + n ≤ launchWindowSize c.l) && off % n = 0) .constantWindow
  let bs ← scalarAccess c (launchWindowAddr c.l + off) .read
    (readVa c.req c.b c.t.bid (launchWindowAddr c.l + off) n true)
  putLoaded c d sx 0 bs
  pure .on

/-- LDCW (09 R277). -/
def execLdcw (d a : Opnd) (la : Nat) (sx : Bool) (sz : Nat) (s : State) : Host.Outcome State Fault Refusal :=
  teamStep (fun _ =>
    { plain 0xa8 [⟨d, .dst, false⟩, ⟨a, .scalar, false⟩] .none with
      values := !(sx && decide (sz < 2))
      la := some (la, d, false) }) (ldcwBody d a sx sz) s

/-! ### Delivery of asynchronous errors (17 R408-R410) -/

/-- The trap of a delivery point. -/
def asyncTrap (c : Cx) (e : AErr) : Trap :=
  ⟨.asyncError, e.cls, 0, e.detail, 1024 * e.kind, false, some 0, c.a.exec, false, true, e.more, e.prior, e.ia⟩

/-- A delivery point samples the team's status once its own effect is performed; inside a handler of
its arm it samples nothing (17 R409, R410). -/
def deliverAsync (c : Cx) (sc : Nat) : Act Unit := do
  if ← inHandler c c.arm then pure ()
  else
    match find? (← get).teams c.tid with
    | none => pure ()
    | some t =>
      let e := t.aerr
      if e.pending && ((e.scope5 && decide (5 ≤ sc)) || (e.scope6 && decide (6 ≤ sc))) then do
        modTeam c.tid fun t => { t with aerr := AErr.none }
        throw (.trap (asyncTrap c e))
      else pure ()

/-! ### Fences (09 R278) -/

/-- The arm's posted accesses that no answer has reached yet (09 R271). -/
def owedPosts (c : Cx) : List Nat :=
  (c.t.posted.filter fun p => !c.t.split || p.2 = c.arm || p.2 = 2).map (·.1)

/-- Wait until every earlier posted access of the arm is acknowledged (09 R282). -/
def waitPosts (c : Cx) : Act Unit := if (owedPosts c).isEmpty then pure () else throw (.wait (.peer (owedPosts c)))

/-- FENCE: the L1 and stash act as 04 R101 and R103 state; a release makes the arm's later writes act as releases at its
scope (05 R137): at scope 0 or 1 each records its line (R143). -/
def fenceBody (sc o : Nat) (c : Cx) : Act Next := do
  if bitSet o 1 then do
    if sc = 6 then waitPosts c else pure ()
    releaseAt c sc
    modArm c.tid c.arm fun x => { x with fence := widerFence x.fence (some sc) }
  else pure ()
  if bitSet o 0 then acquireAt c sc else pure ()
  deliverAsync c sc
  pure .on

/-- FENCE (09 R278). -/
def execFence (sc o : Nat) (s : State) : Host.Outcome State Fault Refusal :=
  teamStep (fun _ =>
    { plain 0xa1 [] .none with
      values := o != 0 && scopeOk sc false
      scope := some (sc, false) }) (fenceBody sc o) s

/-! ### Stash mapping (09 R279) -/

/-- Whether two ranges share a byte. -/
def overlaps (a n b m : Nat) : Bool := decide (a < b + m) && decide (b < a + n)

/-- A stash-range trap of a T-slot command (17 R400, R405). -/
def stashRangeTrap (c : Cx) (off : Nat) : Trap :=
  ⟨.stashRange, 9, 0, off, (lanesOf c.t.lanes c.a.exec).headD 0 + 1024, true, none, 0, false, false, false, 0, 0⟩

/-- The range of a region lies in one range register that has rd (04 R102). -/
def mapRangeOk (s : State) (ctx va size : Nat) : Bool :=
  match rangeFor (contextOf s ctx) va with
  | none => false
  | some r => decide (va + size ≤ rrBase r + rrSize r) && rrPermits r .read && (rangeTranslate (contextOf s ctx) va .read).isSome

/-- STMAP: the checks of step 10, then the range (18 R425). -/
def stmapBody (r : Nat) (a b : Opnd) (c : Cx) : Act Next := do
  let va := (opScalar c a).toNat
  let off := bitsOf (opScalar c b).toNat 0 32
  let size := bitsOf (opScalar c b).toNat 32 32
  if suppressed c then pure .on
  else if find? c.b.regions r = some ⟨va, off, size⟩ then pure .on
  else do
    let others := (c.b.regions.filter fun e => e.1 != r)
    require (!((find? c.b.regions r).isSome ||
      others.any fun e => overlaps off size e.2.off e.2.size || overlaps va size e.2.va e.2.size)) .stashMap
    if off % 4096 ≠ 0 || size % 4096 ≠ 0 || va % 4096 ≠ 0 || size = 0 || decide (c.b.stashSize < off + size) then
      throw (.trap (stashRangeTrap c off))
    else if !mapRangeOk (← get) c.b.ctx va size then
      scalarAccess c va .read (accessFault .range)
    else do
      modBlock c.t.bid fun x => { x with regions := put x.regions r ⟨va, off, size⟩ }
      pure .on

/-- STMAP (09 R279). -/
def execStmap (r : Nat) (a b : Opnd) (s : State) : Host.Outcome State Fault Refusal :=
  teamStep (fun _ => plain 0xa2 [⟨a, .scalar, false⟩, ⟨b, .scalar, false⟩] .none) (stmapBody r a b) s

/-- The chunks of a region. -/
def chunksOf (b : Block) (g : Region) : List Nat :=
  (b.chunks.filter fun e => decide (g.off ≤ 256 * e.1) && decide (256 * e.1 < g.off + g.size)).map (·.1)

/-- STUNMAP: dirty chunks are written back, then the region is unmapped. -/
def stunmapBody (r : Nat) (c : Cx) : Act Next := do
  match find? c.b.regions r with
  | none => raise .stashMap
  | some g => do
    each (chunksOf c.b g) fun i => do
      promoteChunk c.t.bid i
      recallChunk c.t.bid i
    modBlock c.t.bid fun b => { b with regions := del b.regions r }
    pure .on

/-- STUNMAP (09 R279). -/
def execStunmap (r : Nat) (s : State) : Host.Outcome State Fault Refusal :=
  teamStep (fun _ => plain 0xa3 [] .none) (stunmapBody r) s

/-- STFLUSH: dirty chunks are written back and stay mapped and clean. -/
def stflushBody (r : Nat) (c : Cx) : Act Next := do
  match find? c.b.regions r with
  | none => raise .stashMap
  | some g => do
    each (chunksOf c.b g) fun i => do
      promoteChunk c.t.bid i
      backChunk c.t.bid i
    pure .on

/-- STFLUSH (09 R279). -/
def execStflush (r : Nat) (s : State) : Host.Outcome State Fault Refusal :=
  teamStep (fun _ => plain 0xa4 [] .none) (stflushBody r) s

end Sys2Proof.Machine
end

