-- ==== Sys2Proof/Machine/Counter.lean ====
section
/-! DEFINITION. Completion counters, trigger entries and their actions, and task queues
(02 R49-R57, 11 R325, R331, R332; 19 R454, R457, R459). -/
namespace Sys2Proof.Machine
open Sys2Proof

/-! ### Agents of a partition -/

/-- The requester of a partition's front end for a context (its router is log entry 9). -/
def frontReq (part : Nat) (ctx : Option Nat) (world : Nat) : Req := ⟨routerAt part 0 0, none, none, ctx, world⟩

/-- Free an entry of the specialiser: in every index, and in the directory when its place can be written (12 R370). -/
def freeEntryOf (part ctx base : Nat) (e : SpecEntry) : Act Unit := do
  modEntries e.world fun x => if x.key = e.key then none else some x
  let _ ← attempt (writeRange (frontReq part (some ctx) e.world) (dirAt base e.key) (List.replicate 64 0#8))
  pure ()

/-- The refs field of a launch's entry follows the blocks that use its code (12 R369), an access of their context (12 R374);
an entry that waited for the last of them is freed (19 R465). -/
def refsChanged (b : Block) : Act Unit := do
  let s ← get
  match (worldOf s b.world).backing, (launchOf s b.launch).spec with
  | some base, some key =>
    match (specEntries s b.world).find? fun e => e.key = key with
    | none => pure ()
    | some e =>
      if e.st = 4 && refsOf s e = 0 then freeEntryOf b.part b.ctx base e
      else do
        let _ ← attempt (writeRange (frontReq b.part (some b.ctx) b.world) (dirAt base key + 24) (bytesLE 4 (refsWord s e)))
        pure ()
  | _, _ => pure ()

/-- A block has begun to use residual code. -/
def noteRefs (bid : Nat) : Act Unit := do
  match (find? (← get).blocks bid).filter (·.residual) with
  | some b => refsChanged b
  | none => pure ()

/-- A block as it was uses no residual code any more. -/
def refsLeft (b : Option Block) : Act Unit :=
  match b.filter (·.residual) with
  | some b => refsChanged b
  | none => pure ()

/-- The eight-byte words of a record. -/
def wordsOf (n : Nat) (bs : List (BitVec 8)) : List DWord :=
  (List.range n).map fun i => BitVec.ofNat 64 (numLE ((bs.drop (8 * i)).take 8))

/-- A record of a partition's front end (17 R414). -/
def frontRecord (part : Nat) (r : ErrRec) : Act Unit :=
  emitRecord (part / 4) { r with unit := 8, number := part, part := part }

/-- The record of a trigger limit (17 R415 type 9). -/
def limitRecord (part ctx world : Nat) : Act Unit :=
  frontRecord part { ErrRec.blank with type := 9, cls := 18, ctx := ctx, world := world }

/-! ### Task records (02 R49, R50) -/

def taskWord (w : List DWord) (i : Nat) : Nat := (w.getD i 0).toNat
def taskEntry (w : List DWord) : Nat := taskWord w 0
def taskLevel (w : List DWord) : Nat := bitsOf (taskWord w 2) 48 16
def taskSuccessor (w : List DWord) : Nat := taskWord w 3
def taskDecrement (w : List DWord) : Nat := bitsOf (taskWord w 4) 0 32
def taskRelease (w : List DWord) : Bool := bitSet (taskWord w 4) 32
def taskPinned (w : List DWord) : Bool := bitSet (taskWord w 4) 33
def taskContext (w : List DWord) : Nat := bitsOf (w.getD 5 0).toNat 0 10
def taskQueue (w : List DWord) : Nat := bitsOf (taskWord w 5) 16 4
def taskPriority (w : List DWord) : Nat := bitsOf (taskWord w 5) 20 4
def taskLanes (w : List DWord) : Nat := 32 * (bitsOf (taskWord w 5) 32 5 + 1)
def taskWeight (w : List DWord) : Nat := 2 ^ bitsOf (taskWord w 5) 37 2

/-- Whether a record may be queued for a world (11 R325): reserved fields and flags zero, the queue
field named, an aligned entry, and a context of the world. -/
def taskOk (s : State) (world : Nat) (w : List DWord) : Bool :=
  bitsOf (taskWord w 4) 34 30 = 0 && bitsOf (taskWord w 5) 10 6 = 0
    && bitsOf (taskWord w 5) 24 8 = 0 && bitsOf (taskWord w 5) 39 25 = 0 && decide (taskQueue w ≤ 2)
    && taskEntry w % 32 = 0 && (contextOf s (taskContext w)).world = some world

/-- The program cores of a partition (01 R11). -/
def coresOf (p : Partition) : List Nat :=
  ((List.range 16).filter fun q => p.quads.contains q).flatMap fun q =>
    ((List.range 48).map (48 * q + ·)).filter fun c => !isFirmwareCore c

/-- The partition's cores latched to a world. -/
def latchedCores (s : State) (p : Partition) (world : Nat) : List Nat :=
  (coresOf p).filter fun c => (coreOf s c).latch = some world && !(coreOf s c).gated && !(coreOf s c).leaving

/-- The core of a list whose task queue is shortest; a tie goes to the lower (11 R325). -/
def leastFull (s : State) (cs : List Nat) : Option Nat :=
  cs.foldl (fun a c => match a with
    | none => some c
    | some x => if (coreOf s c).tasks.length < (coreOf s x).tasks.length then some c else some x) none

/-- Append a record to a core's task queue, oldest first; a team that waits at TNEXT looks again. -/
def addTask (core : Nat) (w : List DWord) : Act Unit := do
  modCore core fun c => { c with tasks := c.tasks ++ [w] }
  wakeRoom

/-- Where a record goes: a core, nowhere because the queues are full, or held by the queue engine
(11 R325, 19 R454). -/
inductive TaskFate where
  | core (c : Nat)
  | full
  | held
deriving DecidableEq, Repr

/-- The fate of a record by its queue field; `spawner` is the core of a TSPAWN. An action has no
spawning core: the queue engine chooses for it. -/
def taskFate (p : Partition) (world : Nat) (spawner : Option Nat) (w : List DWord) : Act TaskFate := do
  let s ← get
  let room := fun c => decide ((coreOf s c).tasks.length < 256)
  let all := latchedCores s p world
  match spawner, taskQueue w with
  | some c, 0 => pure (if room c then .core c else .full)
  | some c, 1 =>
    match leastFull s (all.filter fun x => clusterOfCore x = clusterOfCore c) with
    | some x => pure (if room x then .core x else .full)
    | none => pure .held
  | _, _ =>
    if all.isEmpty then pure .held
    else
      let open_ := all.filter room
      if open_.isEmpty then pure .full
      else do
        let k ← drawChoice open_.length
        pure (.core (open_.getD k 0))

/-! ### Held actions and the launch queue (02 R59, 19 R459) -/

/-- Hold an action, or drop it with a record when the list is full (19 R459). -/
def holdAction (part ctx world : Nat) (h : Held) : Act Unit := do
  match find? (← get).partitions part with
  | none => pure ()
  | some p =>
    if p.held.length < 256 then setPartition part { p with held := p.held ++ [h] } else limitRecord part ctx world

/-- The queue that an action enters: 0 the launch queue, 1 + w the task queues of world w; none for an action that enters
none. -/
def heldQueue : Held → Option Nat
  | .launch _ => some 0
  | .enqueue _ world => some (world + 1)
  | .again e _ => if e.action = 0 then some 0 else if e.action = 1 then some (e.world + 1) else none

/-- Whether an action of a queue is among some held ones: those behind it wait, in firing order (19 R459). -/
def waitsFor (h : Held) (hs : List Held) : Bool := (heldQueue h).isSome && hs.any fun x => heldQueue x = heldQueue h

/-- An action enters its queue when it has room there (02 R59, 19 R454, R459). -/
def tryEnter (part : Nat) (h : Held) : Act Bool := do
  match find? (← get).partitions part with
  | none => pure true
  | some p =>
    match h with
    | .launch x =>
      if p.queue.length < 64 then do
        setPartition part { p with queue := p.queue ++ [x] }
        pure true
      else pure false
    | .enqueue w world =>
      match ← taskFate p world none w with
      | .core c => do
        addTask c w
        pure true
      | .held => do
        setPartition part { p with tasks := p.tasks ++ [w] }
        pure true
      | .full => pure false
    | .again _ _ => pure true

/-- An action enters its queue, or is held behind those of that queue that are (19 R459). -/
def enterOrHold (part ctx world : Nat) (h : Held) : Act Unit := do
  match find? (← get).partitions part with
  | none => pure ()
  | some p =>
    if waitsFor h p.held then holdAction part ctx world h
    else if ← tryEnter part h then pure () else holdAction part ctx world h

/-! ### Trigger actions (02 R56) -/

/-- The offset of a firing's record in the entry's ring. -/
def ringIndex (e : Trigger) : Nat := if e.ring = 0 then 0 else e.fires % e.ring

/-- A block joins the re-queued group of its tenant queue (12 R361, R362). -/
def requeueHead (bid : Nat) : Act Unit := do
  match find? (← get).blocks bid with
  | none => pure ()
  | some b =>
    setBlock bid { b with st := if b.st = .parked || b.st = .held then .saved else b.st }
    modPartition b.part fun p =>
      let t := (find? p.tenants b.world).getD Tenant.fresh
      { p with tenants := put p.tenants b.world { t with requeued := dropAll t.requeued bid ++ [bid] } }

/-- The firmware re-queues a block that it holds, or one that waits in no queue (12 R362). -/
def requeueIdle (bid : Nat) : Act Unit := do
  let s ← get
  match find? s.blocks bid with
  | none => pure ()
  | some b =>
    let queued := s.partitions.any fun p => p.2.tenants.any fun t => t.2.requeued.contains bid
    let starts := match find? s.launches b.launch with
      | some l => (l.gang = .notGang || l.gang = .running) && !l.ended
      | none => false
    if b.st = .held || ((b.st = .saved || b.st = .pending) && !queued && starts) then requeueHead bid else pure ()

/-- The one-shot trigger of a parked JOINC fires: the wait counts as completed, and the block is re-queued
(02 R60, 11 R329). A block that has left PARKED otherwise is not touched. -/
def firePark (bid idx arm : Nat) : Act Unit := do
  match find? (← get).blocks bid with
  | none => pure ()
  | some b =>
    setBlock bid { b with trigger := none }
    if b.st = .parked then do
      modArm (bid * 8 + idx) arm fun x => { x with joined := true }
      requeueHead bid
    else pure ()

/-- An update of a counter that is to be evaluated: the word before and after (02 R53, R55). -/
structure Update where
  world : Nat
  ia : Nat
  old : Nat
  new : Nat
deriving DecidableEq, Repr

/-- A CHAIN action with n links of its chain to go: the update that it makes, or with none to go a record (02 R57). -/
def chainUpdate (n part : Nat) (e : Trigger) : Act (List Update) := do
  if n = 0 then do
    limitRecord part e.ctx e.world
    pure []
  else do
    let f := fun x => (x + e.value.toNat) % 2 ^ 64
    let old ← sliceRmw (frontReq part (some e.ctx) e.world) e.operand 8 .rmw f
    pure [⟨e.world, e.operand, old, f old⟩]

/-- A firing reaches the partition's front end from the counter's slice, on the management channel (01 R19). -/
def announceFiring (part : Nat) (e : Trigger) : Act Unit :=
  sendMessage (some e.ctx) e.world (routerOfSlice (sliceOf e.counter)) (routerOfFront part) .manage 0

/-- One action: what enters a queue, and the updates that it makes. A firing acquires the updates up to its own at device
scope, so the counter line's release owner promotes first (02 R56, R57; 05 R147). -/
def prepareAction (n part : Nat) (e : Trigger) : Act (Option Held × List Update) := do
  let r := frontReq part (some e.ctx) e.world
  promoteOwner (some e.ctx) e.world e.counter none
  if e.action = 0 then
    let ia := e.operand + 512 * ringIndex e
    match ← attempt (readRange r ia 512 .read) with
    | .ok bs => pure (some (.launch ⟨wordsOf 64 bs, ia, e.ctx, e.world, none, false⟩), [])
    | .error (.wait w) => throw (.wait w)
    | .error _ => pure (some (.launch ⟨[], ia, e.ctx, e.world, none, true⟩), [])
  else if e.action = 1 then
    let w := wordsOf 8 (← readRange r (e.operand + 64 * ringIndex e) 64 .read)
    pure (if taskOk (← get) e.world w then some (.enqueue w e.world) else none, [])
  else if e.action = 2 then do
    sliceWrite r e.operand (bytesLE 8 e.value.toNat) .write
    pure (none, [])
  else do
    let us ← chainUpdate n part e
    pure (none, us)

/-- Perform the action of a firing, with n links of its chain to go. An action that a slice refuses is held and made again
with the links it has; one whose access faults does nothing (log entry 13). -/
def triggerAction (n part : Nat) (e : Trigger) : Act (List Update) := do
  match e.parked with
  | some (bid, idx, arm) => do
    firePark bid idx arm
    pure []
  | none => do
    announceFiring part e
    match ← attempt (prepareAction n part e) with
    | .error (.wait _) => do
      holdAction part e.ctx e.world (.again e n)
      pure []
    | .error _ => pure []
    | .ok (h, us) => do
      match h with
      | some h => enterOrHold part e.ctx e.world h
      | none => pure ()
      pure us

/-! ### Evaluation (02 R55, 11 R332) -/

/-- Fire an entry while its comparison holds: a one-shot entry once, a standing one at most 64 times in
one update; then a record, and the rest waits for the next update. The record is written only when a further firing is due
(DESIGN CHOICE, log entry 13: 11 R332 does not say whether exactly 64 due firings leave one). -/
def fireEntry (n part idx new : Nat) : Nat → Act (List Update)
  | 0 => do
    match (find? (← get).partitions part).bind fun p => (find? p.triggers idx).map fun e => (p, e) with
    | none => pure []
    | some (p, e) => do
      if cmpHolds e.cmp new e.target.toNat then do
        setPartition part { p with triggers := put p.triggers idx { e with owed := true } }
        limitRecord part e.ctx e.world
      else pure ()
      pure []
  | k + 1 => do
    match (find? (← get).partitions part).bind fun p => (find? p.triggers idx).map fun e => (p, e) with
    | none => pure []
    | some (p, e) =>
      if cmpHolds e.cmp new e.target.toNat then do
        let after : Trigger := { e with target := e.target + e.step, fires := (e.fires + 1) % 65536, owed := false }
        setPartition part
          { p with triggers := if e.standing then put p.triggers idx after else del p.triggers idx }
        let us ← triggerAction n part e
        let vs ← if e.standing then fireEntry n part idx new k else pure []
        pure (us ++ vs)
      else pure []

/-- Evaluate the entries armed on an update's counter: each fires when the new value satisfies it and the old did
not, or when firings of an earlier update are owed. The answer is the updates of its CHAIN actions, in firing order. -/
def evaluateOne (n : Nat) (u : Update) : Act (List Update) := do
  let due := (← get).partitions.flatMap fun p => (p.2.triggers.filter fun e =>
    e.2.counter = u.ia && e.2.world = u.world && (e.2.owed || !cmpHolds e.2.cmp u.old e.2.target.toNat)).map fun e => (p.1, e.1)
  let us ← collect due fun x => fireEntry n x.1 x.2 u.new 64
  pure us.flatten

/-- Updates are evaluated whole and in their order: those that the actions of one make follow it (02 R55, R57). n bounds
the links of a chain. -/
def settleUpdates : Nat → List Update → Act Unit
  | 0, _ => pure ()
  | n + 1, us => do
    let vs ← collect us (evaluateOne n)
    settleUpdates n vs.flatten

/-- Evaluate an update that starts a chain: it runs to a depth of 16 (02 R57). -/
def evaluate (world ia old new : Nat) : Act Unit := settleUpdates 17 [⟨world, ia, old, new⟩]

/-- A counter update: one read-modify-write at the home slice, then its triggers (02 R53, R55, R57). The answer is the value
before. `owned` is what the slice notes with the update: the owner of a release at scope 0 or 1. -/
def counterUpdate (owned : Act Unit) (r : Req) (ia : Nat) (f : Nat → Nat) : Act Nat := do
  let old ← sliceRmw r ia 8 .rmw f
  owned
  evaluate r.world ia old (f old)
  pure old

/-- A counter update by a signed value. -/
def counterAdd (r : Req) (ia : Nat) (delta : Int) : Act Nat :=
  counterUpdate (pure ()) r ia fun x => wrapTo 64 ((x : Int) + delta)

/-- A counter update by an instruction, which may be a release at scope 0 or 1 of its own (`narrow`) or by an earlier
FENCE (05 R137, R143). -/
def counterSignal (c : Cx) (narrow : Bool) (ia : Nat) (delta : Int) : Act Nat := do
  let rel := narrow || fencedNarrow c
  if rel then readyRelease c ia else pure ()
  counterUpdate (if rel then noteReleaseHere c ia else pure ()) c.req ia fun x => wrapTo 64 ((x : Int) + delta)

/-- A held action is performed again: it enters its queue, or stays held for its turn there. False while a slice refuses
it. The action at its place in the list of held ones is that of index i. -/
def performHeld (part i : Nat) (h : Held) : Act Bool := do
  let leave := modPartition part fun p => { p with held := p.held.eraseIdx i }
  match h with
  | .again e n => do
    match ← attempt (prepareAction n part e) with
    | .error (.wait _) => pure false
    | .error _ => do
      leave
      pure true
    | .ok (h', us) => do
      match h' with
      | some x =>
        if ← tryEnter part x then leave
        else modPartition part fun p => { p with held := p.held.set i x }
      | none => leave
      settleUpdates n us
      pure true
  | h => do
    if ← tryEnter part h then do
      leave
      pure true
    else pure false

/-! ### Arming (11 R331, R332) -/

/-- The lowest free index of a trigger table. -/
def freeTrigger (p : Partition) : Option Nat := (List.range 256).find? fun i => (find? p.triggers i).isNone

/-- Arm an entry: the lowest free index, and one place in the counter's order, where it is compared
(11 R332). None when the table is full. A slice that refuses the comparison leaves the arming to be made again; an entry
whose counter cannot be read otherwise stands armed, and is compared at the counter's next update (DESIGN CHOICE, log entry
13: 11 R332 does not say what becomes of it). -/
def armTrigger (part : Nat) (e : Trigger) : Act (Option Nat) := do
  match find? (← get).partitions part with
  | none => pure none
  | some p =>
    match freeTrigger p with
    | none => pure none
    | some i => do
      let now ← attempt (sliceRead (frontReq part (some e.ctx) e.world) e.counter 8 .read)
      match now with
      | .error (.wait w) => throw (.wait w)
      | _ => pure ()
      modPartition part fun p => { p with triggers := put p.triggers i e }
      match now with
      | .ok bs => do
        let us ← fireEntry 16 part i (numLE bs) 64
        settleUpdates 16 us
      | .error _ => pure ()
      pure (some i)

/-! ### AADDK (09 R277) -/

/-- AADDK: a counter update under 02 R53; s_d takes the value before. A counter at a peer is asked
there (09 R271). -/
def aaddkBody (d a b : Opnd) (c : Cx) : Act Next := do
  if suppressed c || answered c then pure .on
  else do
    let va := (opScalar c a).toNat
    alignScalar c va .rmw 8
    releaseFenced c
    let old ← scalarAccess c va .rmw do
      let ia ← plainIa c va .rmw
      match peerOf (← get) ia with
      | some pkg => askPeer c pkg peerAtomic ia 0 d 8 false (bytesLE 8 (opScalar c b).toNat)
      | none => do
        flushOwn c.req c.b c.t.bid va ia
        let old ← counterSignal c false ia (opScalar c b).toInt
        pure (bytesLE 8 old)
    putLoaded c d false 0 old
    pure .on

/-- AADDK (09 R277). -/
def execAaddk (d a b : Opnd) (s : State) : Host.Outcome State Fault Refusal :=
  teamStep (fun _ => plain 0xa7 [⟨d, .dst, false⟩, ⟨a, .scalar, false⟩, ⟨b, .scalar, false⟩] .none)
    (aaddkBody d a b) s

end Sys2Proof.Machine
end

