-- ==== Sys2Proof/Machine/Fetch.lean ====
section
/-! DEFINITION. Whose turn it is on a core (02 R33, R34, R41), the fetch of a bundle (07 R184-R188,
R205, R206; 08 R215), and reconvergence before slot 1 (08 R221, 02 R42). -/
namespace Sys2Proof.Machine
open Sys2Proof

/-! ### Readiness -/

/-- The arms of a core's teams that work for a context and stand on a request that a slice has refused. -/
def refusedArms (s : State) (core ctx : Nat) : List Arm :=
  s.teams.flatMap fun e => match find? s.blocks e.2.bid with
    | some b =>
      if b.core = core && b.st = .resident && workContext e.2 b = ctx then
        (e.2.a0.toList ++ e.2.a1.toList).filter fun x => x.wait = .refused
      else []
    | none => []

/-- The prices of a context's outstanding requests on a core (03 R72): a Rensar flit for each that waits for a peer, an LLC
access for each that a slice has refused (DESIGN CHOICE, log entry 43: the manual says that they are priced at their weights,
not which events a request counts as). -/
def requestPrices (s : State) (core ctx : Nat) : List Nat :=
  ((askersOf s).filter fun a => a.core = core && a.ctx = some ctx).map (fun _ => Config.weight clsRensar)
    ++ (refusedArms s core ctx).map fun _ => Config.weight clsLlc

/-- The committed charge of a set (03 R72): what has been charged since the boundary, and the outstanding requests. -/
def committedOf (s : State) (core ctx : Nat) (x : ChargeSet) : Nat := x.committed + (requestPrices s core ctx).sum

/-- Whether a context's charges on a core have reached its grant (03 R77). A set with no grant of this tick, which a
block placed since the tick update has, sets no limit before the next one (DESIGN CHOICE, log entry 43: the manual
gives grants at updates alone). -/
def limitReached (s : State) (core ctx : Nat) : Bool :=
  match find? (coreOf s core).charges ctx with
  | some x => x.granted && (x.stopped || decide (x.grant ≤ committedOf s core ctx x))
  | none => false

/-- The pending interrupt sources of a firmware core (11 R353). Requests from outside stay in their queues until the
firmware takes them off (log entry 21). -/
def pendingSources (s : State) (die : Nat) : Nat :=
  let f := firmwareOf s die
  let faults := s.faults.any fun e => e.2.state = 0 && (match find? s.blocks e.2.bid with
    | some b => dieOfCore b.core = die
    | none => false)
  let asked := fun (i : Nat) => f.requests.contains i || (i = 3 && die = 0 && !s.tdispQueue.isEmpty)
  (if faults then 1 else 0) + (if f.queue.isEmpty then 0 else 2) + (if f.timer then 64 else 0)
    + (if f.messages.isEmpty then 0 else 128)
    + (((List.range 4).filter fun i => asked (i + 2)).map fun i => 2 ^ (i + 2)).sum

/-- Waits that are over at the arm's next turn. -/
def waitOver (s : State) (die : Nat) : Wait → Bool
  | .none => true
  | .retry => true
  | .sources m => pendingSources s die &&& m != 0
  | _ => false

/-- The die that a team runs on. -/
def teamDie (s : State) (t : Team) : Nat := match find? s.blocks t.bid with
  | some b => dieOfCore b.core
  | none => 0

/-- While one arm of a split team has a CALL entry, the other is not ready (07 R199). -/
def otherCalls (t : Team) (a : Nat) : Bool :=
  t.split && (hwHolds (stackOf t (2 - a)) .call || (match armOf t (1 - a) with
    | some x => decide (0 < x.calls)
    | none => false))

/-- Whether an arm may issue (02 R34, 07 R199). -/
def armReady (s : State) (t : Team) (a : Nat) : Bool :=
  match armOf t a with
  | some x => waitOver s (teamDie s t) x.wait && !otherCalls t a && x.exec != 0
  | none => false

/-- Whether a block goes on: nothing pre-empts it, or it drains (03 R78). -/
def goesOn : Preempt → Bool
  | .none => true
  | .drain _ => true
  | _ => false

/-- Whether a block's work for a context may spend: below its limit, and not for an empty context unless the block drains
(03 R77, R78). -/
def maySpend (s : State) (b : Block) (ctx : Nat) : Bool :=
  !limitReached s b.core ctx && goesOn b.preempt && (!(contextOf s ctx).empty || b.preempt != .none)

/-- Whether a team may issue at all: its block is resident, it has lanes, its context is not being
ended, it is not stopped by its spend limit or a save, and its cluster has its power (02 R34; 03 R77,
R78; 17 R411; 21 R509). -/
def teamReady (s : State) (t : Team) : Bool :=
  match find? s.blocks t.bid with
  | none => false
  | some b =>
    !t.retired && b.st = .resident && (find? s.endings b.ctx).isNone
      && maySpend s b (workContext t b) && unitOn s (quadOfCore b.core) (clusterOfCore b.core % 12)

/-- The arm that takes the team's turn (02 R41). -/
def turnArm (s : State) (t : Team) : Option Nat :=
  if !t.split then if armReady s t 0 then some 0 else none
  else if armReady s t (1 - t.last) then some (1 - t.last)
  else if armReady s t t.last then some t.last
  else none

/-- Whether a team owns a barrel slot (02 R33). -/
def ownsSlot (t : Team) (slot : Nat) : Bool := slot % (8 / Nat.max t.weight 1) = t.base

/-- The resident team of a core that owns a barrel slot. -/
def slotOwner (s : State) (core slot : Nat) : Option Nat :=
  (s.teams.find? fun e => !e.2.retired && ownsSlot e.2 slot && (match find? s.blocks e.2.bid with
    | some b => b.core = core && b.st = .resident
    | none => false)).map (·.1)

/-! ### Reconvergence (02 R42, R43; 08 R221) -/

/-- The pop of a nested SPLIT entry (02 R42): to the pending set, leaving an entry for the set that
ran first; or, the second time, to the union of the two. Lanes that have exited do not come back. -/
def popNested (c : Cx) (e : StackEntry) : Act Unit := do
  pop c
  match find? (← get).teams c.tid with
  | none => pure ()
  | some t =>
    match armOf t c.arm with
    | none => pure ()
    | some x =>
      if e.pending ≠ 0 then do
        push c ⟨.split, false, 0, x.mode, 0, e.rejoin, 0, x.exec, 0⟩
        modArm c.tid c.arm fun x => { x with exec := e.mask &&& presentLanes t, pc := e.pending, slot := 1 }
      else modArm c.tid c.arm fun x => { x with exec := (x.exec ||| e.mask) &&& presentLanes t }

/-- At slot 1 of a bundle that a nested SPLIT entry rejoins, the entry is popped first (08 R221). -/
def reach (tid arm : Nat) : Nat → Act Unit
  | 0 => pure ()
  | n + 1 => do
    match cxOf (← get) tid arm .t with
    | none => pure ()
    | some c =>
      if c.a.slot ≠ 1 || !c.t.split then pure ()
      else
        match ← top c with
        | some e =>
          if e.kind = .split && !e.dual && e.rejoin = c.a.pc then do
            popNested c e
            reach tid arm n
          else pure ()
        | none => pure ()

/-! ### Fetch -/

/-- Where a bundle lies, and how it is read: at a VA, or in residual code at its place in the backing region
(07 R184, 12 R369, R371). -/
def bundlePlace (ctx : Nat) (residual : Bool) (pc : Nat) : Act (Nat × AccKind) := do
  if residual then pure (pc, .read)
  else do
    let (ia, _) ← iaFor ctx pc .fetch
    pure (ia, .fetch)

/-- Read the 32 bytes of a bundle at the home slice, as a sequencer does. -/
def fetchBundle (r : Req) (ctx : Nat) (residual : Bool) (pc : Nat) : Act (List (BitVec 8)) := do
  let (ia, k) ← bundlePlace ctx residual pc
  sliceRead r ia 32 k

/-- Room in the L1 instruction cache of 64 KiB: 1,024 lines, any of which may leave (01 R10, 04 R520; log entry 41). -/
def roomForCode (core key : Nat) : Act Unit := do
  let lines := (coreOf (← get) core).code.filter fun e => e.1 != key
  if lines.length < 1024 then pure ()
  else do
    match ← victimOf lines with
    | some e => modCore core fun c => { c with code := del c.code e.1 }
    | none => pure ()

/-- Read the 32 bytes of a bundle by way of the core's L1 instruction cache (01 R10). -/
def codeBundle (r : Req) (core ctx : Nat) (residual : Bool) (pc : Nat) : Act (List (BitVec 8)) := do
  let (ia, k) ← bundlePlace ctx residual pc
  let key := l1Key ia r.world
  match find? (coreOf (← get) core).code key with
  | some l => pure (lineBytes l.bytes (ia % 64) 32)
  | none => do
    let base := ia / 64 * 64
    let (e, bs) ← atHome r base 0 64 (serveRead r base 64 k)
    roomForCode core key
    modCore core fun c =>
      { c with code := put c.code key ⟨r.world, ia / 64, maOf e base, e.slot, e.gen, true, false, putBytes [] 0 bs, 0, 0x3ff⟩ }
    pure ((bs.drop (ia % 64)).take 32)

/-- The bundle at an arm's place. It is fetched whole as the arm comes to it, and all its slots are those of that
fetch (07 R186). -/
def armBundle (c : Cx) (residual : Bool) : Act (List (BitVec 8)) := do
  match c.a.bundle.filter fun x => x.1 = c.a.pc && c.a.slot != 1 with
  | some x => pure x.2
  | none => do
    let bs ← codeBundle c.req c.b.core c.b.ctx residual c.a.pc
    modArm c.tid c.arm fun x => { x with bundle := some (c.a.pc, bs) }
    pure bs

/-- The bundle-level checks of 07 R188 and R206 for a bundle that a team (`map` 0) or a sequencer
(`map` 1) fetches; `mapBit` is the map of a residual bundle's back-map entry. -/
def bundleOk (ctl : Control) (map : Nat) (residual : Bool) (mapBit : Option Nat) : Bool :=
  match ctl.cls with
  | .team => map = 0 && ctl.backmap = 0
  | .stream => map = 1 && ctl.backmap = 0
  | .residual => residual && mapBit = some map
  | .illegal => false

/-- The binding time of a slot may not be S in residual code (07 R188). -/
def classBtOk (ctl : Control) (b : Bt) : Bool :=
  match ctl.cls with
  | .residual => !(b = .s)
  | _ => true

/-- A fetch fault: the fault's cause with the PC of the target's slot 1, and the PC of the transferring
instruction (17 R402, R405). -/
def fetchTrap (came : Nat) (c : Cause) (cls : Nat) : Trap :=
  ⟨c, cls, 0, came, 4096, true, none, 0, true, false, false, 0, 0⟩

/-- What the fetch of a slot gives. -/
inductive Fetched where
  | nothing
  | skip                       -- a NOP (07 R205)
  | instr (i : Instr) (bt : Bt)
deriving DecidableEq, Repr

/-- The s registers that the fields of a slot's word name, with those of a run (07 R190, 11 R321); some may be none of its
operands. -/
def namedS (w : Nat) : List Nat :=
  let op := w / 16777216
  let n := if 0xc0 ≤ op then 10 else 1
  (if op = 0xd1 then [1, 2, 3, 4] else [])
    ++ ([w / 65536 % 256, w / 256 % 256, w % 256].filter fun c => decide (192 ≤ c) && decide (c < 240)).flatMap fun c =>
      (List.range' (c - 192) n).filter (· < 48)

/-- The s registers that a slot writes: its destination, REFILL's count and TNEXT's four. -/
def keptWrites (i : Instr) (w : Nat) : List Nat :=
  let op := w / 16777216
  let d := w / 65536 % 256
  match i with
  | .refill _ _ b => match b with
    | .s r => [r]
    | _ => []
  | .tnext => [1, 2, 3, 4]
  | _ =>
    if [0x02, 0x04, 0x05, 0x06, 0x07, 0x08, 0x0a, 0x10, 0x14].contains op || (0xc0 ≤ op && op ≤ 0xc9) then []
    else if 192 ≤ d && d < 240 then [d - 192] else []

/-- The map of a residual bundle's back-map entry, with what the arm owes from then on (12 R372). What it owed before and
the bundle does not owe is written, for nothing tells it later; and the arms of a split team, which share the registers, owe
nothing (DEDUCED, log entry 17: either may read them next). -/
def mapOfBundle (c : Cx) : Act (Option Nat) := do
  match ← backMap c c.a.pc with
  | some (base, ws) => do
    let xs ← owedList c.req base ws
    modTeam c.tid (payOwed c.arm fun r => (find? xs r).isNone)
    modArm c.tid c.arm (takeOwed xs)
    if c.t.split then modTeam c.tid (giveOwed c.arm) else pure ()
    pure (some (bitsOf (ws.getD 0 0) 56 1))
  | none => pure none

/-- Opcodes whose destination field is written and not read. -/
def writesOnly (op : Nat) : Bool :=
  !([0x02, 0x04, 0x05, 0x06, 0x07, 0x08, 0x0a, 0x10, 0x14, 0x25, 0x3e, 0x47, 0x48, 0x4e, 0x53, 0x54, 0x55, 0x70, 0x71, 0x72, 0x73, 0x74, 0x75,
    0x9f].contains op) && decide (op < 0xc0)

/-- The s registers that a kept slot may read (12 R372): those that its word names, but for a destination that it does not
read, and the scale byte's register after the source of QNT and DQNT (09 R262). -/
def slotReads (w : Nat) : List Nat :=
  let op := w / 16777216
  let a := w / 256 % 256
  (namedS (if writesOnly op then w / 16777216 * 16777216 + w % 65536 else w))
    ++ (if (op = 0x71 || op = 0x72) && decide (192 ≤ a) && decide (a < 239) then [a - 191] else [])

/-- A kept slot comes up in residual code: the owed registers that it reads are written before it does (12 R372), and
all before one that splits or joins arms, which share them. One that it writes is owed no longer: it holds the original's
value until then, for a handler's sake if the slot traps (R373), and is no handler's any more. -/
def payNamed (c : Cx) (i : Instr) (w : Nat) : Act Unit := do
  let op := w / 16777216
  modTeam c.tid (payOwed c.arm fun r =>
    op = 0x07 || op = 0x09 || (slotReads w).contains r || (keptWrites i w).contains r)
  modArm c.tid c.arm fun x => { x with given := x.given.filter fun e => !(keptWrites i w).contains e.1 }

/-- Original code runs with every owed register written (19 R464). -/
def leaveResidual (c : Cx) : Act Unit :=
  if c.a.owed.isEmpty then pure () else modTeam c.tid (payOwed c.arm fun _ => true)

/-- What tells the rest of a fetch from the rest of an instruction in an arm's redo. -/
def fetchMark : Nat := 2 ^ 64

/-- A fetch that has succeeded leaves nothing to redo. -/
def fetchDone (x : Arm) : Arm :=
  match x.redo with
  | some r => if r.detail = fetchMark then { x with redo := none } else x
  | none => x

/-- A slot of a fetched bundle, checked (18 R425 steps 2 and 3, R426): `mb` is the map of a residual bundle's back-map
entry. -/
def checkSlot (c : Cx) (inRes : Bool) (bs : List (BitVec 8)) (mb : Option Nat) : Act Fetched := do
  let ctl : Control := ⟨numLE (bs.take 4)⟩
  let bt := ctl.bt c.a.slot
  let w := numLE ((bs.drop (4 * c.a.slot)).take 4)
  if c.a.slot = 1 && !bundleOk ctl 0 inRes mb then do
    deliverTrap c (wholeTrap .illegalEncoding)
    pure .nothing
  else if bt = .illegal || !classBtOk ctl bt then do
    deliverTrap { c with bt := bt } (wholeTrap .illegalEncoding)
    pure .nothing
  else
    match decodeTeam w with
    | .error _ => do
      deliverTrap { c with bt := bt } (wholeTrap .illegalEncoding)
      pure .nothing
    | .ok .nop => do
      modArm c.tid c.arm fetchDone
      pure .skip
    | .ok i => do
      if inRes then payNamed c i w else leaveResidual c
      modArm c.tid c.arm fetchDone
      pure (.instr i bt)

/-- A resumable fault of a fetch: the arm waits for it, unless its resolution was a failure before. -/
def fetchAbsent (c : Cx) (st w a : Nat) : Act Unit :=
  if redoFailed c.a then deliverTrap c (fetchTrap c.a.came .pageFault 1)
  else do
    let id ← noteFault c.t.bid none 0 st w a
    modArm c.tid c.arm fun x =>
      { x with redo := some ⟨c.a.exec, 0, 0, 0, fetchMark, some id, c.a.exec, fetchMark⟩, wait := .fault }

/-- Fetch and check the slot at an arm's place (18 R425 steps 1 to 3, R422). -/
def fetchSlot (c : Cx) : Act Fetched := do
  let inRes := c.b.residual && inResidual (← get) c.b.world c.a.pc
  match ← attempt (do
    let bs ← armBundle c inRes
    let mb ← if inRes && c.a.slot = 1 then mapOfBundle c else pure (some 0)
    pure (bs, mb)) with
  | .ok (bs, mb) => checkSlot c inRes bs mb
  | .error e => do
    match e with
    | .fault x cls =>
      if inRes && isLost x then residualLost c.t.bid c.b c.l cls
      else deliverTrap c (fetchTrap c.a.came x cls)
    | .absent st w a => fetchAbsent c st w a
    | .wait w => modArm c.tid c.arm fun x => { x with wait := w }
    | .trap t => deliverTrap c t
    | .spill .. => pure ()
    pure .nothing

/-- A NOP is skipped at fetch: no turn, no charge, one instruction of each window (07 R201, R205). -/
def skipNop (c : Cx) : Act Unit := do
  modArm c.tid c.arm fun x => { x with windows := windowsAfter c.a.windows }
  let p := nextPlace c.a.pc c.a.slot
  placeArm c.tid c.arm p.1 p.2 (pcOf c.a.pc c.a.slot)

/-- What tells a redo of reconvergence from one of an instruction (18 R429): the class of its trap stands above it, and below
that of a codebook. -/
def reachMark : Nat := 12

/-- Reconvergence before an instruction is fetched. A refill of the stack that meets a resumable fault makes the arm wait,
and one whose resolution was a failure traps, as an instruction's own does (18 R429, R435). The answer is whether the arm
goes on to its fetch. -/
def reachOn (tid arm : Nat) : Act Bool := do
  match cxOf (← get) tid arm .t with
  | none => pure true
  | some c =>
    match c.a.redo.filter fun r => r.failed != 0 && decide (reachMark ≤ r.cls) && decide (r.cls < 15) with
    | some r => do
      deliverTrap c (spillTrap c .pageFault 1 r.detail (r.cls - reachMark))
      pure false
    | none =>
      match ← attempt (steady (reach tid arm 300)) with
      | .ok _ => do
        modArm tid arm fun x => match x.redo with
          | some r => if decide (reachMark ≤ r.cls) && decide (r.cls < 15) then { x with redo := none } else x
          | none => x
        pure true
      | .error (.spill st w a va k) => do
        let id ← noteFault c.t.bid none 0 st w a
        modArm tid arm fun x =>
          { x with wait := .fault, redo := some ⟨c.a.exec, 0, 0, reachMark + k, 0, some id, c.a.exec, va⟩ }
        pure false
      | .error (.wait w) => do
        modArm tid arm fun x => { x with wait := w }
        pure false
      | .error (.trap t) => do
        deliverTrap c t
        pure false
      | .error _ => pure false

/-- Take an arm to its next instruction: a held trap first, then reconvergence, then fetch, past any
NOPs. The instruction is left in focus. A run of NOPs that is longer than one step's fuel stops with nothing to wait
for, and goes on in the arm's next step. -/
def fetchArm (tid arm : Nat) : Nat → Act (Option Instr)
  | 0 => throw (.wait .none)
  | n + 1 => do
    let on ← reachOn tid arm
    match (cxOf (← get) tid arm .t).filter fun _ => on with
    | none => pure none
    | some c =>
      match c.a.held with
      | some t =>
        deliverTrap c t
        pure none
      | none =>
        match ← fetchSlot c with
        | .nothing => pure none
        | .skip =>
          skipNop c
          fetchArm tid arm n
        | .instr i bt =>
          modify fun s => { s with focus := .team tid arm bt }
          pure (some i)

/-- A team's turn is work for its block and for the context that it works for; a firmware team's is the host's overhead (03
R71, R78). -/
def workForTeam (t : Team) (s : State) : State :=
  { s with working := if t.firmware then none else (find? s.blocks t.bid).map fun b => (t.bid, workContext t b) }

/-- Whether a charge set has gone past its grant over what was charged before (03 R77). -/
def pastGrant (was : Tbl ChargeSet) (e : Nat × ChargeSet) : Bool :=
  e.2.granted && decide (e.2.grant < e.2.dynamic) && decide (((find? was e.1).getD ChargeSet.zero).dynamic < e.2.dynamic)

/-- The cores and contexts whose charges have gone past their grant between two states. -/
def overGrants (before after : State) : List (Nat × Nat) :=
  after.cores.flatMap fun e => (e.2.charges.filter (pastGrant (coreOf before e.1).charges)).map fun x => (e.1, x.1)

/-- A core never charges a context more than its grant (03 R77): what would take it past is not issued, and the core stops
the context until a larger limit comes (DEDUCED, log entry 43). -/
def keepGrants (before after : State) : State :=
  match overGrants before after with
  | [] => after
  | past => past.foldl (fun s e =>
      let c := coreOf s e.1
      let c := { c with charges := put c.charges e.2 { chargeSetOf c e.2 with stopped := true } }
      { s with cores := put s.cores e.1 c }) before

/-- One barrel cycle of a core (02 R33): the owner of its slot issues, when it is ready. The answer is
the instruction that it issues. NOPs take no turn (07 R205): a step that ends among them gives the cycle back. -/
def coreTurn (core : Nat) : Act (Option Instr) := do
  let s ← get
  let c := coreOf s core
  setCore core { c with cycle := c.cycle + 1 }
  if c.gated then pure none
  else
    match slotOwner s core (c.cycle % 8) with
    | none => pure none
    | some tid =>
      match find? s.teams tid with
      | none => pure none
      | some t =>
        if !teamReady s t then pure none
        else
          match turnArm s t with
          | none => pure none
          | some a =>
            modTeam tid fun t => { t with last := a }
            modify (workForTeam t)
            match ← attempt (fetchArm tid a 64) with
            | .ok r => pure r
            | .error (.trap x) =>
              match cxOf (← get) tid a .t with
              | some c => deliverTrap c { x with fetch := true }
              | none => pure ()
              pure none
            | .error (.wait .none) => do
              setCore core { coreOf (← get) core with cycle := c.cycle }
              modTeam tid fun x => { x with last := t.last }
              pure none
            | .error (.wait w) =>
              modArm tid a fun x => { x with wait := w }
              pure none
            | .error _ => pure none

/-- Turn the focus away from every agent. -/
def unfocus (s : State) : State := { s with focus := .idle, working := none }

/-- Device time passes (log entry 5). -/
def tickTime (s : State) : State :=
  { s with time := s.time + Config.elapsed s.draws, draws := s.draws + 1 }

end Sys2Proof.Machine
end

