-- ==== Sys2Proof/Machine/Sync.lean ====
section
/-! DEFINITION. Barriers, counter waits and signals (09 R280-R282, 05 R149, 10 R308, 11 R329, 17 R409,
19 R446). -/
namespace Sys2Proof.Machine
open Sys2Proof

/-! ### A pending stream fault (10 R308) -/

/-- The precise trap of a stream fault: s46 the stream's PC, s47 its cause (17 R405). -/
def streamTrap (t : Team) : Trap :=
  { wholeTrap .streamFault with detail := t.sfaultPc, laneWord := t.sfaultCause * 2 ^ 24 }

/-- Take a pending stream fault before a barrier or wait performs; it is taken once. A whole-instruction
trap undoes its instruction, so the bit is cleared with the delivery. -/
def takeStreamFault (c : Cx) : Act Unit := do
  match find? (← get).teams c.tid with
  | none => pure ()
  | some t => if t.sfault then throw (.trap (streamTrap t)) else pure ()

/-! ### Barriers -/

/-- Arms that wait at a barrier look again (09 R280, R281). -/
def wakeArm (x : Arm) : Arm := if x.wait = .barrier then { x with wait := .retry } else x

/-- Every arm and the stream of a block look at their barriers again. -/
def wakeBarriers (bid : Nat) : Act Unit := do
  modify fun s => { s with teams := s.teams.map fun e =>
    if e.2.bid = bid then (e.1, { e.2 with a0 := e.2.a0.map wakeArm, a1 := e.2.a1.map wakeArm }) else e }
  modBlock bid fun b =>
    let st := b.stream
    { b with stream := { st with wait := if st.wait = .barrier || st.wait = .arrive then .none else st.wait } }

/-- The teams of a block that have not retired, as bits. -/
def liveTeams (b : Block) : Nat :=
  (List.range b.nteams).foldl (fun a t => if bitSet b.retired t then a else a + 2 ^ t) 0

/-- Complete the open generation of the block barrier when every team that has not retired has arrived
(09 R280). -/
def completeBarrier (bid : Nat) : Act Unit := do
  match find? (← get).blocks bid with
  | none => pure ()
  | some b =>
    if b.barrived ≠ 0 && b.barrived &&& liveTeams b = liveTeams b then do
      setBlock bid { b with bgen := b.bgen + 1, barrived := 0 }
      wakeBarriers bid
    else pure ()

/-- Whether every arm of a team that has live lanes carries a mark (05 R149): one without any does not arrive (18 R440; log
entry 29). -/
def allMarked (t : Team) (k : Nat) (v : BitVec 32) : Bool :=
  let ok := fun (x : Option Arm) => match x with
    | some a => a.exec &&& liveLanes t = 0 || find? a.arrived k = some v
    | none => true
  ok t.a0 && ok t.a1

/-- A team that has retired or arrived counts once (09 R280). -/
def arriveTeam (tid : Nat) : Act Unit := do
  match find? (← get).teams tid with
  | none => pure ()
  | some t =>
    match find? (← get).blocks t.bid with
    | none => pure ()
    | some b =>
      if !bitSet b.barrived t.idx && allMarked t 16 b.bgen then do
        setBlock t.bid { b with barrived := b.barrived ||| 2 ^ t.idx }
        completeBarrier t.bid
      else pure ()

/-- The generation at which an arm that waits began its wait. -/
def waitGen (c : Cx) : Option (BitVec 32) := c.a.redo.map fun r => BitVec.ofNat 32 r.detail

/-- Wait at a barrier, begun at a generation. -/
def holdBarrier {α : Type} (c : Cx) (g : BitVec 32) : Act α := do
  modArm c.tid c.arm fun x => { x with redo := some ⟨c.a.exec, 0, 0, 0, g.toNat, none, 0, 0⟩ }
  throw (.wait .barrier)

/-- Note an arm's arrival or passing. -/
def markArm (c : Cx) (k : Nat) (v : BitVec 32) : Act Unit :=
  modArm c.tid c.arm fun x => { x with arrived := put x.arrived k v }

/-- BAR: the arm arrives, and goes on once the generation has completed. -/
def barBody (c : Cx) : Act Next := do
  takeStreamFault c
  let g := (waitGen c).getD c.b.bgen
  if c.b.bgen ≠ g then pure .on
  else do
    markArm c 16 g
    arriveTeam c.tid
    match find? (← get).blocks c.t.bid with
    | none => pure .on
    | some b => if b.bgen ≠ g then pure .on else holdBarrier c g

/-- A barrier instruction of an arm with no live lane is suppressed, and raises no trap of its own (18 R440; log entry
29). -/
def ifLive (body : Cx → Act Next) (c : Cx) : Act Next := if suppressed c then pure .on else body c

/-- BAR (09 R280). -/
def execBar (s : State) : Host.Outcome State Fault Refusal := teamStep (fun _ => plain 0xb0 [] .none) (ifLive barBody) s

def nbarOf (b : Block) (n : Nat) : NBar := (find? b.nbar n).getD NBar.start

/-- Whether a barrier's completed count has passed a count, as a signed difference (09 R281). -/
def countPassed (completed count : BitVec 32) : Bool := decide (0 < (completed - count).toInt)

/-- One arrival of a party, a team or (none) the stream, at a numbered barrier with count k: false when
the count differs from the open generation's (09 R281). -/
def arriveNumbered (bid n k : Nat) (party : Option Nat) : Act Bool := do
  match find? (← get).blocks bid with
  | none => pure true
  | some b =>
    let x := nbarOf b n
    let x := if x.arrivals = 0 then { x with expected := k } else x
    if x.expected ≠ k then pure false
    else
      let y : NBar := if x.arrivals + 1 = x.expected then ⟨x.completed + 1, x.expected, 0, 0, false⟩ else
        match party with
        | some t => { x with arrivals := x.arrivals + 1, arrived := x.arrived ||| 2 ^ t }
        | none => { x with arrivals := x.arrivals + 1, stream := true }
      setBlock bid { b with nbar := put b.nbar n y }
      if y.completed ≠ x.completed then wakeBarriers bid else pure ()
      pure true

/-- Whether a team has arrived at the open generation of a numbered barrier. -/
def teamArrived (b : Block) (n idx : Nat) : Bool := bitSet (nbarOf b n).arrived idx

/-- A team counts at a numbered barrier when all its arms have arrived (05 R149). -/
def countNumbered (tid n k : Nat) : Act Bool := do
  match find? (← get).teams tid with
  | none => pure true
  | some t =>
    match find? (← get).blocks t.bid with
    | none => pure true
    | some b =>
      if !teamArrived b n t.idx && allMarked t n (nbarOf b n).completed then arriveNumbered t.bid n k (some t.idx)
      else pure true

/-- A wait on a count of numbered barrier n counts for the team when every arm with lanes has passed it: the wait count
rises past it, and the arms that wait look again (09 R281). -/
def countWait (tid n : Nat) (v : BitVec 32) : Act Unit := do
  match find? (← get).teams tid with
  | none => pure ()
  | some t =>
    if allMarked t (32 + n) v && decide (0 < (v + 1 - rd t.nbWait n).toInt) then do
      setTeam tid { t with nbWait := wr t.nbWait n (v + 1) }
      wakeBarriers t.bid
    else pure ()

/-- After an arm has ended, the others may complete its team's arrivals and waits (02 R46, 05 R149, 09 R281). -/
def recountTeam (tid : Nat) : Act Unit := do
  match find? (← get).teams tid with
  | none => pure ()
  | some t =>
    let marks := (match t.a0 with
      | some a => a.arrived
      | none => []) ++ (match t.a1 with
      | some a => a.arrived
      | none => [])
    if marks.any fun m => m.1 = 16 then arriveTeam tid else pure ()
    each (marks.filter fun m => decide (m.1 < 16)) fun m => do
      let _ ← countNumbered tid m.1 (rd marks (48 + m.1)).toNat
      pure ()
    each (marks.filter fun m => decide (32 ≤ m.1) && decide (m.1 < 48)) fun m => countWait tid (m.1 - 32) m.2

/-- DEMOTE (08 R225): live lanes of the governing mask become helpers. An arm that it leaves without a live lane is no
longer waited for at the team's barriers (18 R440). -/
def demoteBody (c : Cx) : Act Next := do
  modTeam c.tid fun t => modLanes t c.gm fun x => { x with st := if x.st = .live then .helper else x.st }
  recountTeam c.tid
  pure .on

/-- DEMOTE (08 R225). -/
def execDemote (s : State) : Host.Outcome State Fault Refusal :=
  teamStep (fun _ => plain 0x0f [] (.passes clsInteger)) demoteBody s

/-- The arrival part of NBARA and NBARAW. The count is checked against the open generation's at once, as
the pseudocode has it. -/
def nbarArrive (n k : Nat) (c : Cx) : Act Unit := do
  if teamArrived c.b n c.t.idx then holdBarrier c 0
  else do
    let x := nbarOf c.b n
    require (x.arrivals = 0 || x.expected = k) .barrierMisuse
    takeStreamFault c
    markArm c n x.completed
    markArm c (48 + n) (BitVec.ofNat 32 k)
    let ok ← countNumbered c.tid n k
    require ok .barrierMisuse

/-- NBARA (09 R281). -/
def nbaraBody (a : Opnd) (n : Nat) (c : Cx) : Act Next := do
  if teamArrived c.b n c.t.idx then takeStreamFault c else pure ()
  nbarArrive n (opScalar c a).toNat c
  pure .on

/-- The declaration of NBARA and NBARAW: a count from 1 to 9. -/
def nbarSig (op : Nat) (a : Opnd) (c : Cx) : Sig :=
  { plain op [⟨a, .scalar, false⟩] .none with
    operandOk := decide (1 ≤ (opScalar c a).toNat) && decide ((opScalar c a).toNat ≤ 9) }

/-- NBARA (09 R281). -/
def execNbara (a : Opnd) (n : Nat) (s : State) : Host.Outcome State Fault Refusal :=
  teamStep (nbarSig 0xb1 a) (ifLive (nbaraBody a n)) s

/-- A wait's count of a team for a numbered barrier. -/
def waitCount (t : Team) (n : Nat) : BitVec 32 := rd t.nbWait n

/-- NBARW: an arm passes once per wait count, and the count rises when every arm with lanes has passed. -/
def nbarwBody (n : Nat) (c : Cx) : Act Next := do
  takeStreamFault c
  let k := waitCount c.t n
  if find? c.a.arrived (32 + n) ≠ some k && countPassed (nbarOf c.b n).completed k then do
    markArm c (32 + n) k
    countWait c.tid n k
    pure .on
  else throw (.wait .barrier)

/-- NBARW (09 R281). -/
def execNbarw (n : Nat) (s : State) : Host.Outcome State Fault Refusal :=
  teamStep (fun _ => plain 0xb2 [] .none) (ifLive (nbarwBody n)) s

/-- The end of an arm's wait on generation g: the team's wait count becomes g + 1 once every arm with lanes has passed
(09 R281). -/
def nbarawEnd (n : Nat) (g : BitVec 32) (c : Cx) : Act Next := do
  markArm c (32 + n) g
  countWait c.tid n g
  pure .on

/-- Keep what an NBARAW that waits has found: its g, and 2^32 more once the arm has arrived. -/
def nbarawHold {α : Type} (c : Cx) (k : Nat) : Act α := do
  modArm c.tid c.arm fun x => { x with redo := some ⟨c.a.exec, 0, 0, 0, k, none, 0, 0⟩ }
  throw (.wait .barrier)

/-- NBARAW's arrival, and its wait on generation g. -/
def nbarawArrive (n k : Nat) (g : BitVec 32) (c : Cx) : Act Next := do
  nbarArrive n k c
  let done := match find? (← get).blocks c.t.bid with
    | some b => countPassed (nbarOf b n).completed g
    | none => true
  if done then nbarawEnd n g c else nbarawHold c (g.toNat + 2 ^ 32)

/-- NBARAW: g is the completed count at its start; it waits out a generation that its team has arrived
at already, arrives, and waits until the count is above g. -/
def nbarawBody (a : Opnd) (n : Nat) (c : Cx) : Act Next := do
  if c.a.redo.isSome || teamArrived c.b n c.t.idx then takeStreamFault c else pure ()
  let x := match c.a.redo with
    | some r => r.detail
    | none => (nbarOf c.b n).completed.toNat
  let g := BitVec.ofNat 32 x
  if bitSet x 32 then
    if countPassed (nbarOf c.b n).completed g then nbarawEnd n g c else throw (.wait .barrier)
  else if teamArrived c.b n c.t.idx then nbarawHold c g.toNat
  else nbarawArrive n (opScalar c a).toNat g c

/-- NBARAW (09 R281). -/
def execNbaraw (a : Opnd) (n : Nat) (s : State) : Host.Outcome State Fault Refusal :=
  teamStep (nbarSig 0xb3 a) (ifLive (nbarawBody a n)) s

/-! ### Counter waits (09 R282) -/

/-- Watch entries in use on a core (09 R282). -/
def watchesOn (s : State) (core : Nat) : Nat :=
  let one := fun (x : Option Arm) => match x with
    | some a => (match a.wait with
      | .watch _ _ _ _ => 1
      | .joinc _ _ _ _ true _ => 1
      | _ => 0)
    | none => 0
  s.teams.foldl (fun n e => match find? s.blocks e.2.bid with
    | some b => if b.core = core && b.st = .resident then n + one e.2.a0 + one e.2.a1 else n
    | none => n) 0

/-- Observe a location at its home slice: a peer's answer stands in what is left of the wait. -/
def observe (c : Cx) (va n : Nat) : Act Nat := do
  match c.a.redo with
  | some r =>
    if r.todo = 0 then do
      modArm c.tid c.arm fun x => { x with redo := none }
      pure r.detail
    else ask
  | none => ask
where
  ask : Act Nat := do
    let bs ← scalarAccess c va .read (homeRead c (.k 0) n false ((lanesOf c.t.lanes c.a.exec).headD 0) va)
    pure (numLE bs)

/-- Whether the location now satisfies the wait, or a notification has already said so: then the core's own copy of it, which
the notifying write has passed by, makes way (05 R136, R138). -/
def satisfied (c : Cx) (va n cmp target : Nat) : Act Bool := do
  if c.a.joined then do
    scalarAccess c va .read do
      let ia ← plainIa c va .read
      if (peerOf (← get) ia).isNone then flushOwn c.req c.b c.t.bid va ia else pure ()
    pure true
  else do
    let v ← observe c va n
    pure (watchHolds cmp v target)

/-- The flags of the block's stream merge when its completion object is observed (06 R174). -/
def mergeFlags (c : Cx) (va : Nat) : Act Unit :=
  let r := c.b.stream.recVa
  if r ≠ 0 && decide (r ≤ va) && decide (va < r + 16) then
    modTeam c.tid fun t => modLanes t (presentLanes t) fun x => { x with xflags := x.xflags ||| c.b.stream.flags }
  else pure ()

/-- The end of a wait that the location does not satisfy: a watch entry when one is free and the home
is here, else a poll. `patience` is the time at which JOINC's ends. -/
def startWait {α : Type} (c : Cx) (va cmp target : Nat) (patience : Option Nat) : Act α := do
  let ia ← plainIa c va .read
  let s ← get
  let watched := decide (watchesOn s c.b.core < 64) && (peerOf s ia).isNone
  match patience with
  | some until_ => throw (.wait (.joinc c.b.world ia cmp (BitVec.ofNat 64 target) watched until_))
  | none =>
    if watched then throw (.wait (.watch c.b.world ia cmp (BitVec.ofNat 64 target)))
    else throw (.wait (.poll c.b.world ia cmp (BitVec.ofNat 64 target)))

/-- WAITC and WAITB: `place` gives the location, its size, the compare and the target. -/
def waitBody (sc : Nat) (a : Opnd) (place : Cx → Nat × Nat × Nat × Nat) (c : Cx) : Act Next := do
  takeStreamFault c
  alignScalar c (opScalar c a).toNat .read 8
  let (va, n, cmp, target) := place c
  if ← satisfied c va n cmp target then do
    acquireAt c sc
    mergeFlags c va
    deliverAsync c sc
    pure .on
  else startWait c va cmp target none

/-- The declaration of a wait: its scope is checked as 09 R274 says. -/
def waitSig (op sc : Nat) (ok : Bool) (a b : Opnd) : Sig :=
  { plain op [⟨a, .scalar, false⟩, ⟨b, .scalar, false⟩] .none with
    values := scopeOk sc false && ok
    scope := some (sc, false) }

/-- WAITC (09 R282). -/
def execWaitc (cmp sc : Nat) (a b : Opnd) (s : State) : Host.Outcome State Fault Refusal :=
  teamStep (fun _ => waitSig 0xb4 sc (decide (cmp < 3)) a b)
    (waitBody sc a fun c => ((opScalar c a).toNat, 8, cmp, (opScalar c b).toNat)) s

/-- WAITB (09 R282): bit (i mod 8) of byte a + (i div 8). -/
def execWaitb (sc : Nat) (a b : Opnd) (s : State) : Host.Outcome State Fault Refusal :=
  teamStep (fun _ => waitSig 0xb5 sc true a b)
    (waitBody sc a fun c =>
      ((opScalar c a).toNat + (opScalar c b).toNat / 8, 1, 3, (opScalar c b).toNat % 8)) s

/-- SIGNAL: a release at its scope, then a counter update; at scope 0 or 1 the counter's line is recorded
(14 R392). At a peer it is posted (09 R271), and records nothing (DESIGN CHOICE, log entry 27: 05 R143 needs the line's home
slice and key slot, which this package does not have). -/
def signalBody (sc : Nat) (a b : Opnd) (c : Cx) : Act Next := do
  if suppressed c then pure .on
  else do
    let va := (opScalar c a).toNat
    alignScalar c va .rmw 8
    scalarAccess c va .rmw do
      let ia ← plainIa c va .rmw
      match peerOf (← get) ia with
      | some pkg => do
        releaseAt c sc
        releaseFenced c
        postPeer c pkg postedAtomic ia va .rmw (bytesLE 8 (opScalar c b).toNat)
      | none => do
        releaseAt c sc
        releaseFenced c
        flushOwn c.req c.b c.t.bid va ia
        posting c ia va .rmw do
          let _ ← counterSignal c (decide (sc < 2)) ia (opScalar c b).toInt
    pure .on

/-- SIGNAL (09 R282). -/
def execSignal (sc : Nat) (a b : Opnd) (s : State) : Host.Outcome State Fault Refusal :=
  teamStep (fun _ => waitSig 0xb6 sc true a b) (signalBody sc a b) s

/-- WAITA (09 R282). -/
def execWaita (sc : Nat) (s : State) : Host.Outcome State Fault Refusal :=
  teamStep (fun _ => { plain 0xb8 [] .none with
      values := scopeOk sc false
      scope := some (sc, false) })
    (fun c => do
      waitPosts c
      deliverAsync c sc
      pure .on) s

end Sys2Proof.Machine
end

