-- ==== Sys2Proof/Machine/Life.lean ====
section
/-! DEFINITION. The ends of arms, teams, streams and blocks, and EXIT (02 R46, R58; 08 R225; 10 R287,
R298, R308, R523; 11 R327; 12 R357, R362; 17 R408, R410; 19 R460). -/
namespace Sys2Proof.Machine
open Sys2Proof

/-! ### Errors of work that has moved on (17 R408, R410; 10 R523) -/

/-- The partition that a core lies in, by its lowest quadrant. -/
def partOfCore (s : State) (core : Nat) : Nat := (partitionOfQuad s (quadOfCore core)).getD (quadOfCore core)

/-- The detail of a team's error for a dump: the registers that its trap would have written (17 R404, R405, R418). -/
def asyncInfo (e : AErr) : DumpInfo :=
  let t : Trap := ⟨.asyncError, e.cls, 0, e.detail, 1024 * e.kind, false, some 0, 0, false, true, e.more, e.prior, e.ia⟩
  ⟨0, (causeWord t).toNat, e.detail, 1024 * e.kind, 0, 0, objectOf t, e.prior, e.ia⟩

/-- The record of type 3 of an error that no team takes any more (17 R410). -/
def asyncRecord (ctx world core : Nat) (e : AErr) : Act Unit :=
  emitRecord (dieOfSource e.src core)
    { ErrRec.blank with type := 3, cls := e.cls, ctx := ctx, world := world, core := core, unit := e.src.unit
                        number := e.src.number, progress := e.src.progress, info := asyncInfo e }

/-- An error for a team's asynchronous status; when the team has retired, a record of type 3 for its
context (17 R408, R410). -/
def asyncError (tid ctx world core cls detail kind : Nat) (peer : Bool) (src : Source) (prior ia : Nat) : Act Unit := do
  match (find? (← get).teams tid).filter fun t => !t.retired with
  | some _ => enterAsync tid cls detail kind peer src prior ia
  | none => asyncRecord ctx world core ⟨true, false, !peer, peer, cls, detail, kind, src, prior, ia⟩

/-- Where a context's range registers put a VA; 0 for nowhere. -/
def placedIa (s : State) (ctx va : Nat) : Nat := (rangePlace (contextOf s ctx) va).getD 0

/-- The class of the fault that stopped an access: an absent entry counts as page (17 R398). -/
def stopClass : Stop → Nat
  | .fault _ cls => cls
  | .absent _ _ _ => 1
  | .spill .. => 1
  | .trap t => t.cls
  | .wait _ => 0

/-- The requester of a late write: the block's core, or the port that it came in by. -/
def lateReq (x : Late) : Req :=
  match x.port with
  | some p => ⟨routerOfPort p, none, none, none, x.world⟩
  | none => ⟨routerOfCluster (clusterOfCore x.core), some x.core, none, some x.ctx, x.world⟩

/-- A late write that faults on its record or counter: its team learns of it (10 R523). -/
def lateFault (x : Late) (e : Stop) : Act Unit := do
  asyncError x.tid x.ctx x.world x.core (stopClass e) x.va 0 false Source.core 0 (placedIa (← get) x.ctx x.va)

/-- The core of the block that a record belongs to gives up its line of it first, for the waits of the block that are to
find it there (05 R136). -/
def dropForLate (x : Late) : Act Unit := do
  if x.port.isSome then pure ()
  else do
    let (ia, _) ← iaFor x.ctx x.va .rmw
    dropForBlock (x.tid / 8) x.world ia

/-- Try a late write whose release has been made, once: what is left of it, when a slice refuses. A fault is reported and
the rest goes on: for a bitmap bit the context ends (19 R460), for a record the team learns of it (10 R523). The counter
update of a tagged write that faults after the write was performed and acknowledged is dropped (DESIGN CHOICE, log entry 11:
13 R381 names no record and no completion for it). -/
def tryWrites (x : Late) : Act (Option Late) := do
  let r := lateReq x
  match x.bit with
  | some k =>
    match ← attempt (do
      let (ia, _) ← iaFor x.ctx x.va .rmw
      let _ ← sliceRmw r ia 1 .rmw fun b => b ||| 2 ^ k) with
    | .ok _ => pure none
    | .error (.wait _) => pure (some x)
    | .error e => do
      endContext x.ctx ⟨2, stopClass e, 0, x.core, 0, DumpInfo.none, Source.core⟩
      pure none
  | none => do
    let wordDone ← match x.word with
      | none => pure true
      | some w =>
        match ← attempt (do
          dropForLate x
          writeRecord r x.ctx (x.va + 8) (bytesLE 8 w)) with
        | .ok _ => pure true
        | .error (.wait _) => pure false
        | .error e => do
          lateFault x e
          pure true
    if !wordDone then pure (some x)
    else if x.incr = 0 then pure none
    else
      match ← attempt (do
        let (ia, _) ← if x.port.isSome then pure (x.va, 0) else iaFor x.ctx x.va .rmw
        dropForLate x
        let _ ← counterAdd r ia x.incr) with
      | .ok _ => pure none
      | .error (.wait _) => pure (some { x with word := none })
      | .error e =>
        if x.port.isSome then pure ()
        else lateFault x e
        pure none

/-- Try a late write once: the release that it is goes out before it (05 R136). -/
def tryLate (x : Late) : Act (Option Late) := do
  match x.release with
  | none => tryWrites x
  | some bid =>
    match ← attempt (releaseWide x.core bid) with
    | .error (.wait _) => pure (some x)
    | _ => tryWrites { x with release := none }

/-- Make a late write, now or when the slice takes it. -/
def makeLate (x : Late) : Act Unit := do
  match ← tryLate x with
  | none => pure ()
  | some y => modify fun s => { s with late := s.late ++ [y] }

/-- Make the refused late writes again, oldest first. -/
def retryLate : Act Unit := do
  let xs := (← get).late
  modify fun s => { s with late := [] }
  each xs fun x => workingFor (if x.port.isSome then none else some (x.tid / 8, x.ctx)) (makeLate x)

/-- The progress word of a completion record (10 R312). -/
def progressWord (done st cls : Nat) : Nat := done % 2 ^ 48 + st * 2 ^ 48 + cls * 2 ^ 56

/-- The done field of a stream's record (10 R312). -/
def streamDone (x : Stream) : Nat := x.ops % 2 ^ 32 + x.flags.toNat * 2 ^ 32

/-- The end of a stream's record: the progress word, then +1 as a device-scope release (10 R298, R308; 05 R136). -/
def streamRecord (bid : Nat) (b : Block) (st cls : Nat) : Act Unit :=
  if b.stream.recVa = 0 then pure ()
  else
    makeLate ⟨b.stream.binder, b.ctx, b.world, b.core, none, b.stream.recVa, some (progressWord (streamDone b.stream) st cls), none, 1,
      some bid⟩

/-! ### Stream traps (10 R308) -/

/-- Arms that wait at a barrier or a counter leave their wait for the stream fault. -/
def leaveWait (x : Arm) : Arm :=
  match x.wait with
  | .barrier => { x with wait := .retry }
  | .watch _ _ _ _ => { x with wait := .retry }
  | .poll _ _ _ _ => { x with wait := .retry }
  | .joinc _ _ _ _ _ _ => { x with wait := .retry }
  | _ => x

/-- A stream's entry gives up its engine. -/
def freeEngine (bid : Nat) : Act Unit :=
  modify fun s => { s with engines := s.engines.map fun e =>
    (e.1, { e.2 with
      granted := if e.2.granted = some bid then none else e.2.granted
      busy := if e.2.busy = some bid then none else e.2.busy
      waits := del e.2.waits bid }) }

/-- A stream trap is delivered: the stream stops, its record says fault, every team's stream-fault bit is
set, the counter is updated and a record goes to firmware (10 R308). The cause of a block that is away is delivered once
it is back. -/
def streamFault (bid cause : Nat) : Act Unit := do
  match find? (← get).blocks bid with
  | none => pure ()
  | some b =>
    if b.st ≠ .resident then setBlock bid { b with streamOwed := cause }
    else
    let st := b.stream
    setBlock bid { b with stream := { st with bound := false, fault := cause, wait := .none, inFlight := false } }
    freeEngine bid
    modify fun s => { s with teams := s.teams.map fun e =>
      if e.2.bid = bid then
        (e.1, { e.2 with sfault := true, sfaultPc := pcOf st.pc st.slot, sfaultCause := cause
                         a0 := e.2.a0.map leaveWait, a1 := e.2.a1.map leaveWait })
      else e }
    streamRecord bid b 2 11
    emitRecord (dieOfCore b.core)
      { ErrRec.blank with
        type := 4, cls := 11, ctx := b.ctx, world := b.world, core := b.core, unit := 2
        number := clusterOfCore b.core, progress := b.stream.ops
        info := { DumpInfo.none with object := b.stream.recVa } }

/-! ### Blocks (02 R46, R58; 12 R362) -/

/-- The moving average of a launch's corrected energy per block, with weight 1/8 (03 R78; log entry 14). -/
def nextEh (eh measured : Nat) : Nat := ((eh : Int) + ((measured : Int) - eh) / 8).toNat

/-- The deficit of a tenant after a block of estimate eh retired (03 R80). -/
def settleDeficit (t : Tenant) (eh measured : Nat) : Int :=
  min (max (t.deficit + eh - measured) (-4 * t.quantum)) (4 * t.quantum)

/-- A charge as a factor corrects it (03 R75). -/
def correctedBy (factor mq : Nat) : Nat := (mq * factor + 32768) / 65536

/-- A share's corrected charge (03 R80). -/
def measuredShare (s : State) (e : Nat × BaseSpend) : Nat :=
  e.2.measured + correctedBy (quadOf s e.1).baseFactor (e.2.spent - e.2.judged)

/-- A block's corrected charge over every domain (03 R80): what its ticks have come to, and what no update has reached yet
under each domain's last factor (log entry 14). -/
def measuredCharge (s : State) (bid : Nat) (b : Block) : Nat :=
  b.measured + correctedBy (quadOf s (quadOfCore b.core)).factor (b.spent - b.judged)
    + ((sharesOf s bid).map (measuredShare s)).sum

/-- A block's charge is corrected as far as it has come, and stands in one sum. -/
def judgeBlock (s : State) (bid : Nat) (b : Block) : Block :=
  { b with measured := measuredCharge s bid b, spent := spentOf s bid b, judged := spentOf s bid b, seen := spentOf s bid b }

/-- Launches that a core's teams have posted, in order, for each team that leaves it (02 R59). -/
def pendingOf (s : State) (bid : Nat) : List (List Posted) :=
  (s.teams.filter fun e => e.2.bid = bid && !e.2.pendingLaunch.isEmpty).map (·.2.pendingLaunch)

/-- A block leaves its core: its teams, slots, stash, tiles and engine entry are freed. Launches that its teams have
posted stay with the core until the partition takes them (02 R59). -/
def leaveCore (bid : Nat) : Act Unit := do
  match find? (← get).blocks bid with
  | none => pure ()
  | some b =>
    each b.chunks fun e => do
      promoteChunk bid e.1
      recallChunk bid e.1
    freeEngine bid
    let s ← get
    modCore b.core fun c => { c with idle := s.time, gone := c.gone ++ pendingOf s bid }
    modify fun s => { s with teams := s.teams.filter fun e => e.2.bid != bid }
    modBlock bid fun x =>
      { judgeBlock s bid x with stash := [], stashPoison := [], tile := [], tilePoison := [], stream := Stream.idle }
    modify (dropShares bid)

/-- Free a block's frame index (12 R357). -/
def freeFrame (bid : Nat) : Act Unit := do
  match find? (← get).blocks bid with
  | none => pure ()
  | some b =>
    match b.frameIx with
    | none => pure ()
    | some i =>
      modLaunch b.launch fun l => { l with frames := dropAll l.frames i }
      setBlock bid { b with frameIx := none, frameVa := 0, away := none }

/-- A block retires: its writes go out, its bitmap bit is set as a device-scope release, its frame index
is freed, and the estimates move (02 R58; 03 R78, R80; 12 R362). An ended context sets no bit (17 R412). -/
def retireBlock (bid : Nat) : Act Unit := do
  match find? (← get).blocks bid with
  | none => pure ()
  | some b =>
    let l := launchOf (← get) b.launch
    releaseWide b.core bid
    if (find? (← get).endings b.ctx).isNone then
      makeLate ⟨bid * 8, b.ctx, b.world, b.core, none, launchBitmap l + b.linear / 8, none, some (b.linear % 8), 0, none⟩
    leaveCore bid
    let measured := (((find? (← get).blocks bid).map (·.measured)).getD 0)
    freeFrame bid
    modBlock bid fun x => { x with st := .retired }
    refsLeft (some b)
    modPartition b.part fun p =>
      let t := (find? p.tenants b.world).getD Tenant.fresh
      { p with tenants := put p.tenants b.world { t with deficit := settleDeficit t l.eh measured } }
    modLaunch b.launch fun x =>
      { x with open_ := x.open_ - 1, eh := nextEh x.eh measured }

/-- Every team of a block has retired. -/
def allRetired (b : Block) : Bool := liveTeams b = 0

/-- Whether a team of a block still waits for a peer to acknowledge a posted write. -/
def postsOwedBy (s : State) (bid : Nat) : Bool := s.teams.any fun e => e.2.bid = bid && !e.2.posted.isEmpty

/-- A block with nothing left to run retires once every write of it has been performed: its posted writes acknowledged, and
its lines and chunks taken by their slices (17 R420). Until then it closes. -/
def closeBlock (bid : Nat) : Act Unit := do
  match (find? (← get).blocks bid).filter fun b => b.st = .resident && allRetired b && !b.stream.bound with
  | none => modify fun s => { s with closing := dropAll s.closing bid }
  | some b => do
    let owed := postsOwedBy (← get) bid
    match ← attempt (undone (if owed then throw (.wait .refused) else releaseWide b.core bid)) with
    | .error (.wait _) => modify fun s => { s with closing := insertNew s.closing bid }
    | _ => do
      modify fun s => { s with closing := dropAll s.closing bid }
      retireBlock bid

/-- The blocks that close try again. -/
def retryClosing : Act Unit := do each (← get).closing closeBlock

/-- The condition of RWAIT on a ring and its header, filled and freed (10 R293). -/
def ringReady (r : Ring) (h : BitVec 32 × BitVec 32) : Bool :=
  if r.dir then decide ((r.cursor - h.2).toInt < (r.slots : Nat)) else decide (1 ≤ (h.1 - r.cursor).toInt)

/-- The two words of a ring's header: filled and freed. -/
def headerWords (bs : List (BitVec 8)) : BitVec 32 × BitVec 32 :=
  (BitVec.ofNat 32 (numLE (bs.take 4)), BitVec.ofNat 32 (numLE (bs.drop 4)))

/-- Whether a stream that waits is not ready where it stands (10 R287): its ring's header does not satisfy the RWAIT, or
its barrier has not completed. A header that a slice refuses to give decides nothing yet. -/
def streamStuck (bid : Nat) (b : Block) : Act Bool := do
  match b.stream.wait with
  | .barrier => pure true
  | .ring n =>
    match find? b.stream.rings n with
    | none => pure false
    | some r =>
      match ← attempt (stashRead (reqOf b bid false) bid r.hdr 8) with
      | .error _ => pure false
      | .ok bs => pure (!ringReady r (headerWords bs))
  | _ => pure false

/-- A block with no team left retires, unless its stream is bound; a stream that is not ready at RWAIT or MBARW
then ends with an orphan trap (10 R287). -/
def settleBlock (bid : Nat) : Act Unit := do
  match find? (← get).blocks bid with
  | none => pure ()
  | some b =>
    if b.st = .resident && allRetired b then
      if !b.stream.bound then closeBlock bid
      else if ← streamStuck bid b then do
        streamFault bid 12
        closeBlock bid
      else pure ()
    else pure ()

/-! ### Teams -/

/-- A team retires: a task it holds is abandoned (11 R327), a pending asynchronous error becomes a record
(17 R410), and the block's barrier and the block may end. -/
def retireTeam (tid : Nat) : Act Unit := do
  let s ← get
  match find? s.teams tid with
  | none => pure ()
  | some t =>
    match find? s.blocks t.bid with
    | none => pure ()
    | some b =>
      setTeam tid { t with retired := true, a0 := none, a1 := none, split := false, task := none, aerr := AErr.none }
      match t.task with
      | none => pure ()
      | some w =>
        emitRecord (dieOfCore b.core)
          { ErrRec.blank with type := 8, cls := 17, ctx := taskContext w, world := b.world, core := b.core }
      if t.aerr.pending then asyncRecord b.ctx b.world b.core t.aerr else pure ()
      modBlock t.bid fun x => { x with retired := x.retired ||| 2 ^ t.idx }
      completeBarrier t.bid
      settleBlock t.bid

/-! ### Arms (02 R46) -/

/-- Discard an arm's entries down to its newest nested SPLIT entry: that entry, and the window base of the
oldest CALL entry discarded. -/
def unwind (c : Cx) (k : Nat) : Nat → Option Nat → Act (Option StackEntry × Option Nat)
  | 0, base => pure (none, base)
  | n + 1, base => do
    match ← topOf c k with
    | none => pure (none, base)
    | some e =>
      if e.kind = .split && !e.dual then pure (some e, base)
      else do
        dropTop c k
        unwind c k n (if e.kind = .call then some e.pending else base)

/-- The window base goes back to the one before the discarded calls (02 R46). -/
def restoreBase (c : Cx) : Option Nat → Act Unit
  | none => pure ()
  | some w => do
    modTeam c.tid fun t => { t with w := w }
    restoreResident c 512

/-- An arm of a split team has ended: the other waits at the JOIN, or runs on, or the team retires
(02 R43, R46). -/
def endArm (c : Cx) : Act Unit := do
  modTeam c.tid fun t => withArm t c.arm none
  match find? (← get).teams c.tid with
  | none => pure ()
  | some t =>
    match armOf t (1 - c.arm) with
    | none => retireTeam c.tid
    | some _ =>
      if allJoined t then do
        dualTop c
        rejoinTeam c.tid
      else recountTeam c.tid

/-- The arm has no lane left (02 R46): with a nested SPLIT entry it acts as if it had reached the rejoin;
else it ends. -/
def armEmpty (c : Cx) : Nat → Act Unit
  | 0 => pure ()
  | n + 1 => do
    if !c.t.split then retireTeam c.tid
    else
      let (e, base) ← unwind c (c.arm + 1) 300 none
      restoreBase c base
      match e with
      | none => endArm c
      | some e => do
        modArm c.tid c.arm fun x => { x with pc := e.rejoin, slot := 1, came := pcOf c.a.pc c.a.slot }
        popNested c e
        match find? (← get).teams c.tid with
        | none => pure ()
        | some t =>
          match armOf t c.arm with
          | none => pure ()
          | some x => if x.exec = 0 then armEmpty c n else pure ()

/-- EXIT (08 R225): the lanes of the governing mask leave; then 02 R46. -/
def exitBody (c : Cx) : Act Next := do
  modTeam c.tid fun t => modLanes t c.gm fun x => { x with st := .exited }
  modArm c.tid c.arm fun x => { x with exec := x.exec &&& ~~~c.gm }
  if c.a.exec &&& ~~~c.gm ≠ 0 then pure .on
  else do
    armEmpty c 260
    pure .gone

/-- EXIT (08 R225). It is charged as an integer pass before the arm ends. -/
def execExit (s : State) : Host.Outcome State Fault Refusal :=
  teamStep (fun _ => plain 0x0e [] .none)
    (fun c => do
      chargeFor c (plain 0x0e [] (.passes clsInteger))
      exitBody c) s

end Sys2Proof.Machine
end

