-- ==== Sys2Proof/Machine/Engines.lean ====
section
/-! DEFINITION. The copy engines: commands, dependence nodes, their units and their ends
(10 R309-R320, R523; 20 R475, R483, R485). -/
namespace Sys2Proof.Machine
open Sys2Proof

/-! ### Engine addresses (10 R310) -/

/-- An engine address: a VA, or an offset in the block's stash. -/
inductive EngAddr where
  | va (a : Nat)
  | stash (off : Nat)
deriving DecidableEq, Repr

def engAddr (x : Nat) : EngAddr := if 2 ^ 63 ≤ x then .stash (x - 2 ^ 63) else .va x

/-- A stash address has bits 62:19 zero. -/
def engAddrOk (x : Nat) : Bool := decide (x < 2 ^ 63) || bitsOf x 19 44 = 0

/-- A contiguous range of n bytes stays inside the allocation when it is a stash range. -/
def stashRangeOk (size x n : Nat) : Bool :=
  match engAddr x with
  | .va _ => true
  | .stash off => n = 0 || decide (off + n ≤ size)

/-- Row r of a two-dimensional side, modulo 2^64. -/
def rowAt (base pitch r : Nat) : Nat := (base + r * pitch) % 2 ^ 64

/-- Whether the rows that a COPY2D reads and writes share a byte (10 R313). -/
def rowsOverlap (dst src rowlen rows dp sp : Nat) : Bool :=
  (List.range rows).any fun i => (List.range rows).any fun j => overlaps (rowAt dst dp i) rowlen (rowAt src sp j) rowlen

/-! ### Frames, for redirected stash addresses (12 R357, 10 R318) -/

/-- Bytes of a team's part of a frame. -/
def teamBytes (l : Launch) : Nat := 8192 + 8 * launchLanes l + 4 * launchLanes l * launchFrame l

/-- Where the frame of a block that is away lies: its own place, or the one that SAVE named. -/
def frameNow (b : Block) : Nat := b.away.getD b.frameVa

/-- VA of the unmapped stash image in a block's frame. -/
def imageVa (s : State) (b : Block) : Nat := frameNow b + 4096 + b.nteams * teamBytes (launchOf s b.launch)

/-- Where a stash address of an operation lies now: its block's stash, or a VA while the block is away. That of a block which
has retired lies nowhere, and ends its operation with a stash-range fault, class 9 (DESIGN CHOICE, log entry 32: 10 R318
covers only blocks that are resident, SAVED, PARKED or HELD). -/
inductive StashHome where
  | stash
  | va (a : Nat)
  | none
deriving DecidableEq, Repr

def stashHome (s : State) (bid off : Nat) : StashHome :=
  match find? s.blocks bid with
  | none => .none
  | some b =>
    match b.st with
    | .resident => .stash
    | .saved | .parked | .held =>
      match regionAt b off with
      | some g => .va (g.va + (off - g.off))
      | none => .va (imageVa s b + off)
    | _ => .none

/-! ### Units -/

/-- The requester of an operation: the engine of its cluster, which is no chunk's owner (04 R104). -/
def opReq (o : EngineOp) : Req :=
  ⟨routerOfCluster o.cluster, none, none, if isFirmwareCore o.core then none else some o.ctx, o.world⟩

/-- An access to a stash address outside the allocation ends the operation with class 9 (10 R310). -/
def stashSizeOf (s : State) (bid : Nat) : Nat :=
  match find? s.blocks bid with
  | some b => b.stashSize
  | none => 0

/-- Read a piece of a stash range, which lies in one chunk. -/
def engReadPiece (o : EngineOp) (off n : Nat) : Act (List (BitVec 8)) := do
  match stashHome (← get) o.bid off with
  | .stash => stashRead { opReq o with bid := some o.bid } o.bid off n
  | .va a => readRecord (opReq o) o.ctx a n
  | .none => accessFault .stashRange

/-- Read n bytes at an engine address. -/
def engRead (o : EngineOp) (x n : Nat) : Act (List (BitVec 8)) := do
  match engAddr x with
  | .va a => readRecord (opReq o) o.ctx a n
  | .stash off =>
    let s ← get
    if stashSizeOf s o.bid < off + n then accessFault .stashRange
    else do
      let parts ← collect (chunkPieces (n / 256 + 2) off n) fun p => engReadPiece o p.1 p.2
      pure parts.flatten

/-- Write bytes at a VA: a whole 512-byte block clears its poison (20 R471). The L1 of the block's core gives up its lines
of the bytes first, so that the block's own waits at block scope find the operation's writes (05 R129, R146). -/
def engWriteVa (o : EngineOp) (a : Nat) (bs : List (BitVec 8)) : Act Unit := do
  let (ia, _) ← iaFor o.ctx a .write
  each (sectorsOf (bs.length / 64 + 2) ia bs.length) fun p => dropForBlock o.bid o.world p.1
  if bs.length = 512 && a % 512 = 0 then sliceWriteBlock (opReq o) ia bs else writeRecord (opReq o) o.ctx a bs

/-- Charge the bytes that an engine writes or sends to the issuing context (10 R320); a firmware core's work is overhead
(03 R71). -/
def chargeBytes (o : EngineOp) (n : Nat) : Act Unit := do
  let mq := n * weightAt clsCopyByte (chargePoint (← get) (quadOfCluster o.cluster))
  if isFirmwareCore o.core then chargeHost (quadOfCluster o.cluster) mq else addCharge o.core o.ctx mq

/-- Write a piece of a stash range, which lies in one chunk. -/
def engWritePiece (o : EngineOp) (off : Nat) (bs : List (BitVec 8)) : Act Unit := do
  match stashHome (← get) o.bid off with
  | .stash => stashWrite { opReq o with bid := some o.bid } o.bid off o.ctx bs
  | .va a => engWriteVa o a bs
  | .none => accessFault .stashRange

/-- Do pieces of a write in order, each whole or not at all: the bytes written, and what stopped the rest. -/
def engWritePieces (f : Nat → List (BitVec 8) → Act Unit) : List (Nat × Nat) → List (BitVec 8) → Nat → Act (Nat × Option Stop)
  | [], _, n => pure (n, none)
  | p :: t, bs, n => do
    match ← allOrError (f p.1 (bs.take p.2)) with
    | .error e => pure (n, some e)
    | .ok _ => engWritePieces f t (bs.drop p.2) (n + p.2)

/-- Write bytes at an engine address: how many of them are written, and what stopped the rest (10 R314). -/
def engWriteUpTo (o : EngineOp) (x : Nat) (bs : List (BitVec 8)) : Act (Nat × Option Stop) := do
  let r ← match engAddr x with
    | .va a => engWritePieces (engWriteVa o) [(a, bs.length)] bs 0
    | .stash off =>
      if stashSizeOf (← get) o.bid < off + bs.length then pure (0, some (.fault .stashRange 9))
      else engWritePieces (engWritePiece o) (chunkPieces (bs.length / 256 + 2) off bs.length) bs 0
  chargeBytes o r.1
  pure r

/-- Write bytes at an engine address, all of them. -/
def engWrite (o : EngineOp) (x : Nat) (bs : List (BitVec 8)) : Act Unit := do
  match ← engWriteUpTo o x bs with
  | (_, none) => pure ()
  | (_, some e) => throw e

/-- What stopped an operation, and the engine address of the access that met it. -/
structure EngStop where
  stop : Stop
  place : Nat

/-- An access at an engine address, or what stopped it there. -/
def engTry {α : Type} (x : Nat) (m : Act α) : Act (Except EngStop α) := do
  match ← attempt m with
  | .ok a => pure (.ok a)
  | .error e => pure (.error ⟨e, x⟩)

/-- Read a source in pieces of at most 512 bytes, cut at its 512-byte boundaries and, in a stash, at its
words: the bytes before the first fault, and the fault (20 R475). -/
def readUpTo (o : EngineOp) : Nat → Nat → Nat → Act (List (BitVec 8) × Option Stop)
  | 0, _, _ => pure ([], none)
  | f + 1, x, n =>
    if n = 0 then pure ([], none)
    else do
      let k := match engAddr x with
        | .va _ => Nat.min n (512 - x % 512)
        | .stash _ => Nat.min n (4 - x % 4)
      match ← attempt (engRead o x k) with
      | .error e => pure ([], some e)
      | .ok bs => do
        let (r, e) ← readUpTo o f (x + k) (n - k)
        pure (bs ++ r, e)

/-- The unit at an offset: destination, source (none: the fill pattern) and length; none at the end
(10 R313, R316). -/
def unitAt (o : EngineOp) (u : Nat) : Option (Nat × Option Nat × Nat) :=
  let p := fun i => o.run.getD i 0
  let cut := fun (dst left : Nat) => Nat.min left (512 - dst % 512)
  match o.kind with
  | .copy => if u < p 2 then some (p 0 + u, some (p 1 + u), cut (p 0 + u) (p 2 - u)) else none
  | .fill => if u < p 2 then some (p 0 + u, none, cut (p 0 + u) (p 2 - u)) else none
  | .copy2d =>
    if u < p 2 * p 3 then
      let d := (rowAt (p 0) (p 4) (u / p 2) + u % p 2) % 2 ^ 64
      some (d, some ((rowAt (p 1) (p 5) (u / p 2) + u % p 2) % 2 ^ 64), cut d (p 2 - u % p 2))
    else none
  | _ => none

/-- The bytes that FILL writes at an address (10 R313). -/
def fillBytes (pattern x : Nat) : Nat → List (BitVec 8)
  | 0 => []
  | n + 1 => BitVec.ofNat 8 (pattern / 256 ^ (x % 8)) :: fillBytes pattern (x + 1) n

/-- Perform one unit: how many bytes of it were performed, and what stopped it. -/
def doUnit (o : EngineOp) (dst : Nat) (src : Option Nat) (n : Nat) : Act (Nat × Option EngStop) := do
  let (bs, stop) ← match src with
    | none => pure (fillBytes (o.run.getD 1 0) dst n, none)
    | some x => do
      let (bs, e) ← readUpTo o (n + 1) x n
      pure (bs, e.map fun e => EngStop.mk e (x + bs.length))
  let (k, e) ← engWriteUpTo o dst bs
  pure (k, match e with
    | some e => some ⟨e, dst + k⟩
    | none => stop)

/-- Perform one element of GATH or SCAT: what stopped it. -/
def doElement (o : EngineOp) (i : Nat) : Act (Option EngStop) := do
  let p := fun j => o.run.getD j 0
  let es := o.esize
  match ← engTry (p 2 + 4 * i) (engRead o (p 2 + 4 * i) 4) with
  | .error e => pure (some e)
  | .ok ix => do
    let k := numLE ix
    let source := if o.kind = .gath then p 1 + es * k else p 1 + es * i
    let target := if o.kind = .gath then p 0 + es * i else p 0 + es * k
    match ← engTry source (engRead o source es) with
    | .error e => pure (some e)
    | .ok bs =>
      match ← engTry target (engWrite o target bs) with
      | .error e => pure (some e)
      | .ok _ => pure none

/-- The number of the units of an operation, as done counts them. -/
def opTotal (o : EngineOp) : Nat :=
  match o.kind with
  | .copy | .fill => o.run.getD 2 0
  | .copy2d => o.run.getD 2 0 * o.run.getD 3 0
  | .gath | .scat => o.run.getD 3 0
  | .rcopy => o.run.getD 2 0
  | .rget => o.run.getD 2 0
  | .rput => 64

/-! ### Peer commands (10 R313, 13 R380, 20 R485) -/

/-- The peer word of a command: package and tag. -/
def peerWord (o : EngineOp) : Nat :=
  match o.kind with
  | .rput => o.run.getD 1 0
  | _ => o.run.getD 3 0

/-- The tag that a write carries. -/
def opTag (o : EngineOp) : Nat := if o.tag then bitsOf (peerWord o) 16 16 else 0

/-- Perform the next unit or element of an operation: how far done comes, whether nothing is left, and what stopped
it. -/
def nextUnit (o : EngineOp) : Act (Nat × Bool × Option EngStop) := do
  match o.kind with
  | .gath | .scat =>
    if opTotal o ≤ o.done then pure (o.done, true, none)
    else
      match ← doElement o o.done with
      | none => pure (o.done + 1, false, none)
      | some e => pure (o.done, false, some e)
  | _ =>
    match unitAt o o.done with
    | none => pure (o.done, true, none)
    | some (dst, src, n) => do
      let (k, stop) ← doUnit o dst src n
      pure (o.done + k, false, stop)

/-- A command whose bytes go to a peer or come from one. -/
def isPeerKind (k : OpKind) : Bool := k = .rcopy || k = .rput || k = .rget

/-- The IA at the peer of byte `off` of a command. -/
def peerIa (o : EngineOp) (off : Nat) : Nat :=
  match o.kind with
  | .rget => o.run.getD 1 0 + off
  | .rput => o.run.getD 0 0
  | _ => o.run.getD 0 0 + off

/-- n bytes of a command that have been sent or asked for in a transaction. -/
def sentUnit (o : EngineOp) (tx n : Nat) : EngineOp :=
  { o with sent := o.sent + n, pend := o.pend ++ [(tx, o.sent)], peer := true }

/-- Send or ask for the unit of a peer command at `sent`; its bytes are charged once they are on their way. Of a source that
faults inside the unit, the bytes before the fault go out, and the fault stands behind them (10 R316, 20 R475). -/
def sendUnit (id : Nat) (o : EngineOp) : Act (EngineOp × Option EngStop) := do
  let p := fun i => o.run.getD i 0
  let pkg := bitsOf (peerWord o) 0 16
  let n := if o.kind = .rput then 64 else Nat.min (p 2 - o.sent) (512 - (p 0 + o.sent) % 512)
  let job := PeerJob.engine id o.sent
  match o.kind with
  | .rget => do
    let tx ← sendPeer (opReq o) pkg 1 0 (peerIa o o.sent) n [] (job n)
    pure (sentUnit o tx n, none)
  | .rput => do
    let tx ← sendPeer (opReq o) pkg 0 (opTag o) (p 0) 64 ((List.range 8).flatMap fun i => bytesLE 8 (p (2 + i))) (.engine id 0 64)
    chargeBytes o 64
    pure (sentUnit o tx 64, none)
  | _ => do
    let (bs, e) ← readUpTo o (n + 1) (p 1 + o.sent) n
    let stop := e.map fun e => EngStop.mk e (p 1 + o.sent + bs.length)
    if bs.isEmpty then pure (o, stop)
    else do
      let tx ← sendPeer (opReq o) pkg 0 (opTag o) (peerIa o o.sent) bs.length bs (job bs.length)
      chargeBytes o bs.length
      pure (sentUnit o tx bs.length, stop)

/-- The lowest offset that has failed, with its class (20 R485). -/
def lowestFailure (a : Option (Nat × Nat)) (off cls : Nat) : Option (Nat × Nat) :=
  match a with
  | some x => if x.1 ≤ off then some x else some (off, cls)
  | none => some (off, cls)

/-- done of a command that writes to a peer: every byte below it has been acknowledged (10 R314, R318). -/
def ackedTo (o : EngineOp) : Nat :=
  o.pend.foldl (fun a e => Nat.min a e.2) (match o.failedAt with
    | some x => Nat.min x.1 o.sent
    | none => o.sent)

/-- An answer covers one unit of a peer command. -/
def peerAnswered (o : EngineOp) (tx : Nat) : EngineOp :=
  let o := { o with pend := o.pend.filter fun e => e.1 != tx }
  if o.kind = .rget then o else { o with done := ackedTo o }

/-- The end of a peer command that waits for answers, once nothing is outstanding: in state fault at the first byte
that no answer covers, or complete. -/
def peerSettled (o : EngineOp) : EngineOp :=
  if o.phase ≠ .peer || !o.pend.isEmpty then o
  else
    match o.failedAt with
    | some x => { o with phase := .faulting x.2 }
    | none => if opTotal o ≤ o.done then { o with phase := .ended 1 0 } else o

/-! ### Starting and performing (10 R314, R316, R317) -/

/-- Operations that an engine works on; a node counts once it has started (10 R315). -/
def activeOps (s : State) (cluster : Nat) : Nat :=
  (s.ops.filter fun e => e.2.cluster = cluster && (match e.2.phase with
    | .active => true
    | .peer => true
    | .holding _ => !e.2.node || e.2.sent != 0
    | _ => false)).length

/-- What a stop makes of an operation: a resumable fault holds it at done, a refusal leaves it to go on, any other
fault ends it with its class once nothing is outstanding (10 R317). -/
def stopOp (id : Nat) (o : EngineOp) (x : EngStop) : Act Unit :=
  let o := { o with failedVa := match engAddr x.place with
    | .va a => a
    | .stash _ => 0 }
  match x.stop with
  | .absent st w a => do
    let f ← noteFault o.bid (some id) 0 st w a
    setOp id { o with phase := .holding f }
  | .wait _ => setOp id { o with phase := .active }
  | e =>
    if isPeerKind o.kind then
      let at_ := if o.kind = .rget then o.done else o.sent
      setOp id (peerSettled { o with failedAt := lowestFailure o.failedAt at_ (stopClass e), phase := .peer })
    else setOp id { o with phase := .faulting (stopClass e) }

/-- Write the answers of RGET that are next in order. A resumable fault at the local side holds the operation, and a
refusal leaves the rest to its next turn. -/
def rgetStore (id : Nat) : Nat → EngineOp → Act Unit
  | 0, o => setOp id o
  | f + 1, o =>
    match o.early.find? fun e => e.1 = o.done with
    | none => setOp id (peerSettled o)
    | some e => do
      let dst := (o.run.getD 0 0 + o.done) % 2 ^ 64
      let (k, stop) ← engWriteUpTo o dst e.2
      let others := o.early.filter fun x => x.1 != e.1
      match stop with
      | none => rgetStore id f { o with done := o.done + k, early := others }
      | some x => stopOp id { o with done := o.done + k, early := (e.1 + k, e.2.drop k) :: others } ⟨x, dst + k⟩

/-- Perform one unit of an active operation. -/
def performUnit (id : Nat) : Act Unit := do
  match find? (← get).ops id with
  | none => pure ()
  | some o =>
    if o.phase ≠ .active then pure ()
    else if isPeerKind o.kind then
      if o.failedAt.isSome || decide (opTotal o ≤ o.sent) then
        if o.kind = .rget then rgetStore id (o.early.length + 1) { o with phase := .peer }
        else setOp id (peerSettled { o with phase := .peer })
      else
        match ← attempt (sendUnit id o) with
        | .ok (o, none) => setOp id o
        | .ok (o, some e) => stopOp id o e
        | .error e => stopOp id o ⟨e, 2 ^ 63⟩
    else do
      let (u, last, stop) ← nextUnit o
      let o := { o with done := u }
      match stop with
      | some e => stopOp id o e
      | none => setOp id (if last then { o with phase := .ended 1 0 } else o)

/-- The active operations of an engine, in the order of its rotation: those after the last one served come first
(10 R316). -/
def rotation (s : State) (cluster : Nat) : List Nat :=
  let ids := (s.ops.filter fun e => e.2.cluster = cluster && e.2.phase = .active).map (·.1)
  let last := ((find? s.copyTurn cluster).getD (0, 0)).2
  (ids.filter fun i => decide (last < i)) ++ ids.filter fun i => decide (i ≤ last)

/-- One unit of an operation, within the grant of its context on the core that issued it: it waits for a charge set there
(03 R72), and for a grant that covers it (03 R77). -/
def unitWithin (id : Nat) (o : EngineOp) : Act Unit := do
  let s ← get
  if !isFirmwareCore o.core && !hasChargeSet (coreOf s o.core) o.ctx then pure ()
  else do
    workingFor (some (o.bid, o.ctx)) (performUnit id)
    modify (keepGrants s)

/-- One unit of an operation, which is then the last one served. A unit that stopped at once leaves its operation's turn
over. -/
def serveUnit (cluster id : Nat) : Act Unit := do
  match find? (← get).ops id with
  | some o => unitWithin id o
  | none => pure ()
  modify fun s => { s with copyTurn := put s.copyTurn cluster (((find? s.copyTurn cluster).getD (0, 0)).1, id) }

/-- Whether an operation stands as it did, so that its turns come to nothing for now. -/
def stalled (s t : State) (id : Nat) : Bool := find? s.ops id = find? t.ops id

/-- The engine works until an operation has ended, stopped, or come to nothing: one unit of each active operation in turn
(10 R316). -/
def workUntil (cluster id : Nat) : Nat → Act Unit
  | 0 => pure ()
  | n + 1 => do
    let s ← get
    match find? s.ops id with
    | none => pure ()
    | some o =>
      if o.phase ≠ .active then pure ()
      else do
        each (rotation s cluster) (serveUnit cluster)
        if stalled s (← get) id then pure () else workUntil cluster id n

/-- Put an operation to work: it is active, and the engine goes on with it in turn with the others. -/
def performOp (id : Nat) (o : EngineOp) : Act Unit := do
  setOp id { o with phase := .active }
  workUntil o.cluster id (opTotal o + 3)

/-! ### Ends (10 R312, R317, R523) -/

/-- The late write of an operation's record: the progress word, then the counter. -/
def opRecord (o : EngineOp) (st cls : Nat) : Act Unit :=
  if o.recVa = 0 then pure ()
  else makeLate ⟨o.tid, o.ctx, o.world, o.core, none, o.recVa, some (progressWord o.done st cls), none, if o.incr = 0 then 1 else o.incr, none⟩

/-- The IA of the access that failed an operation: at the peer for an error there, else where its VA lies (17 R418). -/
def failedIaOf (s : State) (o : EngineOp) : Nat :=
  if o.failedVa ≠ 0 then placedIa s o.ctx o.failedVa
  else match o.failedAt with
    | some x => peerIa o x.1
    | none => 0

/-- An error of an operation, for the team that issued it. -/
def opError (o : EngineOp) (cls : Nat) (peer : Bool) (ia : Nat) : Act Unit :=
  asyncError o.tid o.ctx o.world o.core cls o.recVa 0 peer ⟨3, o.cluster, o.done⟩ o.prior ia

/-- A successor counter goes down; the armed node that it brings to 0 keeps the name of this one
(10 R315, 17 R418). The answer is false when a slice refuses it for now. -/
def lowerSuccessor (o : EngineOp) (va dec : Nat) : Act Bool := do
  if va = 0 then pure true
  else
    let r := opReq o
    match ← attempt (do
      let (ia, _) ← iaFor o.ctx va .rmw
      dropForBlock o.bid o.world ia
      let old ← counterAdd r ia (-(dec : Int))
      pure (wrapTo 64 ((old : Int) - dec))) with
    | .ok 0 => do
      modify fun s => { s with ops := s.ops.map fun e =>
        if e.2.node && e.2.phase = .armed && e.2.waitVa = va && e.2.ctx = o.ctx then (e.1, { e.2 with prior := o.nodeVa }) else e }
      pure true
    | .ok _ => pure true
    | .error (.wait _) => pure false
    | .error e => do
      opError o (stopClass e) false (placedIa (← get) o.ctx va)
      pure true

/-- The successors of a node go down in their order: those that are left when a slice refuses one. -/
def lowerAll (o : EngineOp) : List (Nat × Nat) → Act (List (Nat × Nat))
  | [] => pure []
  | x :: t => do
    if ← lowerSuccessor o x.1 x.2 then lowerAll o t else pure (x :: t)

/-- An operation ends: successors of a node that completed, then the record (10 R315). While a slice refuses a successor's
update the operation stands, and its end goes on later (17 R421). -/
def endOp (id : Nat) (o : EngineOp) (st cls : Nat) : Act Unit := do
  let left ← if st = 1 then workingFor (some (o.bid, o.ctx)) (lowerAll o o.succs) else pure []
  if left.isEmpty then do
    modify fun s => { s with ops := del s.ops id }
    if o.node then wakeRoom else pure ()
    workingFor (some (o.bid, o.ctx)) (opRecord o st cls)
  else setOp id { o with succs := left }

/-- Cancel the operations that a test selects, with a class (10 R318). -/
def cancelOps (p : EngineOp → Bool) (cls : Nat) : Act Unit := do
  each ((← get).ops.filter fun e => p e.2) fun e => endOp e.1 e.2 3 cls

/-! ### Commands (10 R309-R319) -/

/-- How many s registers a command's run takes. -/
def runRegs : OpKind → Nat
  | .copy | .fill => 3
  | .gath | .scat | .rcopy | .rget => 4
  | .copy2d => 6
  | .rput => 10

/-- The parameter checks of 10 R319 on a command's run and control word. -/
def cmdOk (k : OpKind) (rva ctl : Nat) (run : List Nat) : Bool :=
  let p := fun i => run.getD i 0
  let es := 2 ^ bitsOf ctl 32 2
  let isElem := k = .gath || k = .scat
  rva % 16 = 0 && bitsOf ctl 35 29 = 0 && (isElem || bitsOf ctl 32 2 = 0) &&
  (match k with
    | .copy => engAddrOk (p 0) && engAddrOk (p 1) && decide (p 2 < 2 ^ 40) && !overlaps (p 0) (p 2) (p 1) (p 2)
    | .fill => engAddrOk (p 0) && decide (p 2 < 2 ^ 40)
    | .copy2d =>
      engAddrOk (p 0) && engAddrOk (p 1) && decide (p 2 < 2 ^ 40) && decide (p 3 < 2 ^ 40)
        && !rowsOverlap (p 0) (p 1) (p 2) (p 3) (p 4) (p 5)
    | .gath | .scat =>
      engAddrOk (p 0) && engAddrOk (p 1) && engAddrOk (p 2) && decide (p 3 < 2 ^ 40)
        && p 0 % es = 0 && p 1 % es = 0 && p 2 % 4 = 0
    | .rcopy => engAddrOk (p 1) && decide (p 2 < 2 ^ 40) && bitsOf (p 3) 32 32 = 0
    | .rget => engAddrOk (p 0) && decide (p 2 < 2 ^ 40) && bitsOf (p 3) 32 32 = 0
    | .rput => p 0 % 64 = 0 && bitsOf (p 1) 32 32 = 0)

/-- The contiguous sides of a command: address, bytes and whether it is written. The rows of a COPY2D lie where their
addresses wrap to (log entry 32). -/
def sidesOf (k : OpKind) (es : Nat) (run : List Nat) : List (Nat × Nat × Bool) :=
  let p := fun i => run.getD i 0
  match k with
  | .copy => [(p 0, p 2, true), (p 1, p 2, false)]
  | .fill => [(p 0, p 2, true)]
  | .copy2d =>
    (List.range (if p 2 = 0 then 0 else p 3)).flatMap fun r =>
      [(rowAt (p 0) (p 4) r, p 2, true), (rowAt (p 1) (p 5) r, p 2, false)]
  | .gath => [(p 0, es * p 3, true), (p 2, 4 * p 3, false)]
  | .scat => [(p 1, es * p 3, false), (p 2, 4 * p 3, false)]
  | .rcopy => [(p 1, p 2, false)]
  | .rget => [(p 0, p 2, true)]
  | .rput => []

/-- A side that is no engine address, and a stash range that leaves the allocation, are traps at the command
(10 R310, R319). -/
def checkSides (c : Cx) (sides : List (Nat × Nat × Bool)) : Act Unit := do
  require (sides.all fun x => engAddrOk x.1) .engineParameter
  match sides.find? fun x => !stashRangeOk c.b.stashSize x.1 x.2.1 with
  | none => pure ()
  | some (x, _, w) =>
    throw (.trap { stashRangeTrap c (x - 2 ^ 63) with
      laneWord := (lanesOf c.t.lanes c.a.exec).headD 0 + 1024 * (if w then 2 else 1) })

/-- A fault on the completion record itself is a precise trap at the command (10 R319). -/
def checkRecord (c : Cx) (rva : Nat) : Act Unit :=
  if rva = 0 then pure ()
  else scalarAccess c rva .write do
    let (ia, _) ← iaFor c.b.ctx rva .write
    let _ ← probe c.req ia .write

/-- The cluster whose engines serve a block. -/
def engineCluster (b : Block) : Nat := clusterOfCore b.core

/-- Enter an operation: the fork with its device-scope release (05 R146), then the queue or node table;
while that is full the arm waits (10 R315, R316). -/
def issueOp (c : Cx) (o : EngineOp) : Act Next := do
  let s ← get
  let full := if o.node then 64 ≤ (s.ops.filter fun e => e.2.cluster = o.cluster && e.2.node).length
    else 64 ≤ (s.ops.filter fun e => e.2.cluster = o.cluster && e.2.phase = .queued).length
  if full then throw (.wait .room)
  else do
    releaseWide c.b.core c.t.bid
    let id ← freshId
    setOp id o
    pure .on

/-- The operation that a command makes. -/
def opOf (c : Cx) (k : OpKind) (rva ctl : Nat) (run : List Nat) : EngineOp :=
  ⟨engineCluster c.b, c.t.bid, c.tid, c.b.ctx, c.b.world, k, run, rva, signed 32 (bitsOf ctl 0 32), 2 ^ bitsOf ctl 32 2,
    bitSet ctl 34, 0, .queued, false, 0, [], false, 0, [], c.b.core, 0, none, [], 0, 0⟩

/-- A command: parameters, stash ranges, the record, then its operation. -/
def cmdBody (k : OpKind) (d a b : Opnd) (c : Cx) : Act Next := do
  if suppressed c then pure .on
  else do
    let run := (List.range (runRegs k)).map fun i => (runAt c a i).toNat
    let rva := (opScalar c d).toNat
    let ctl := (opScalar c b).toNat
    require (cmdOk k rva ctl run) .engineParameter
    checkSides c (sidesOf k (2 ^ bitsOf ctl 32 2) run)
    checkRecord c rva
    issueOp c (opOf c k rva ctl run)

/-- The declaration of a command: its run lies wholly within s0 to s47 (10 R309). -/
def cmdSig (op n : Nat) (d a b : Opnd) : Sig :=
  { plain op [⟨d, .scalar, false⟩, ⟨a, .scalar, false⟩, ⟨b, .scalar, false⟩] .none with operandOk := runOk a n }

/-- COPY (10 R313). -/
def execCopy (d a b : Opnd) (s : State) : Host.Outcome State Fault Refusal :=
  teamStep (fun _ => cmdSig 0xc0 (runRegs .copy) d a b) (cmdBody .copy d a b) s

/-- COPY2D (10 R313). -/
def execCopy2d (d a b : Opnd) (s : State) : Host.Outcome State Fault Refusal :=
  teamStep (fun _ => cmdSig 0xc1 (runRegs .copy2d) d a b) (cmdBody .copy2d d a b) s

/-- GATH (10 R313). -/
def execGath (d a b : Opnd) (s : State) : Host.Outcome State Fault Refusal :=
  teamStep (fun _ => cmdSig 0xc2 (runRegs .gath) d a b) (cmdBody .gath d a b) s

/-- SCAT (10 R313). -/
def execScat (d a b : Opnd) (s : State) : Host.Outcome State Fault Refusal :=
  teamStep (fun _ => cmdSig 0xc3 (runRegs .scat) d a b) (cmdBody .scat d a b) s

/-- FILL (10 R313). -/
def execFill (d a b : Opnd) (s : State) : Host.Outcome State Fault Refusal :=
  teamStep (fun _ => cmdSig 0xc4 (runRegs .fill) d a b) (cmdBody .fill d a b) s

/-- RCOPY (10 R313). -/
def execRcopy (d a b : Opnd) (s : State) : Host.Outcome State Fault Refusal :=
  teamStep (fun _ => cmdSig 0xc5 (runRegs .rcopy) d a b) (cmdBody .rcopy d a b) s

/-- RPUT (10 R313). -/
def execRput (d a b : Opnd) (s : State) : Host.Outcome State Fault Refusal :=
  teamStep (fun _ => cmdSig 0xc8 (runRegs .rput) d a b) (cmdBody .rput d a b) s

/-- RGET (10 R313). -/
def execRget (d a b : Opnd) (s : State) : Host.Outcome State Fault Refusal :=
  teamStep (fun _ => cmdSig 0xc9 (runRegs .rget) d a b) (cmdBody .rget d a b) s

/-! ### DEPN (10 R315) -/

/-- The checks on a node record: op, reserved bits, addresses, length, overlap; its counters are 8-byte
aligned. -/
def nodeOk (w : List DWord) : Bool :=
  let p := fun i => (w.getD i 0).toNat
  decide (bitsOf (p 0) 0 4 ≤ 1) && bitsOf (p 0) 4 60 = 0 && engAddrOk (p 1) && decide (p 3 < 2 ^ 40)
    && p 4 % 8 = 0 && p 5 % 8 = 0 && p 6 % 8 = 0
    && (bitsOf (p 0) 0 4 = 1 || (engAddrOk (p 2) && !overlaps (p 1) (p 3) (p 2) (p 3)))

/-- The operation of a node. -/
def nodeOp (c : Cx) (rva ctl : Nat) (w : List DWord) : EngineOp :=
  let p := fun i => (w.getD i 0).toNat
  let k := if bitsOf (p 0) 0 4 = 0 then OpKind.copy else OpKind.fill
  { opOf c k rva ctl [p 1, p 2, p 3] with
    phase := .armed
    node := true
    waitVa := p 4
    succs := [(p 5, bitsOf (p 7) 0 32), (p 6, bitsOf (p 7) 32 32)] }

/-- Read n 8-byte words of a record as the issuing core reads them (05 R146). -/
def readOwn (c : Cx) (va n : Nat) : Act (List (BitVec 8)) := do
  let parts ← collect (List.range n) fun i => readVa c.req c.b c.t.bid (va + 8 * i) 8 true
  pure parts.flatten

/-- DEPN: the node record is read at issue; its fields are checked once it has been read (18 R425). -/
def depnBody (d a b : Opnd) (c : Cx) : Act Next := do
  if suppressed c then pure .on
  else do
    let va := (runAt c a 0).toNat
    let rva := (opScalar c d).toNat
    let ctl := (opScalar c b).toNat
    require (rva % 16 = 0 && va % 64 = 0 && bitsOf ctl 35 29 = 0 && bitsOf ctl 32 2 = 0) .engineParameter
    let bs ← scalarAccess c va .read (readOwn c va 8)
    let w := wordsOf 8 bs
    require (nodeOk w) .engineParameter
    let o := { nodeOp c rva ctl w with nodeVa := va }
    checkSides c (sidesOf o.kind 1 o.run)
    checkRecord c rva
    issueOp c o

/-- DEPN (10 R315). -/
def execDepn (d a b : Opnd) (s : State) : Host.Outcome State Fault Refusal :=
  teamStep (fun _ => cmdSig 0xc6 1 d a b) (depnBody d a b) s

/-! ### Engine events -/

/-- The queued commands of a cluster. -/
def queuedOps (s : State) (cluster : Nat) : List (Nat × EngineOp) :=
  s.ops.filter fun e => e.2.cluster = cluster && e.2.phase = .queued && !e.2.node

/-- The next core of a cluster in rotation with a queued command (10 R316). -/
def nextCore (s : State) (cluster : Nat) : Option Nat :=
  let last := ((find? s.copyTurn cluster).getD (4 * cluster + 3, 0)).1
  ((List.range 4).map fun i => 4 * cluster + (last + 1 + i) % 4).find? fun c => (queuedOps s cluster).any fun e => e.2.core = c

/-- A command is taken when it is the oldest one of the core whose turn it is (10 R316). -/
def nextInQueue (s : State) (id : Nat) (o : EngineOp) : Bool :=
  nextCore s o.cluster = some o.core
    && !((queuedOps s o.cluster).any fun e => decide (e.1 < id) && e.2.core = o.core)

/-- ENGINE_OP_START (10 R316): a queued command starts when fewer than 8 operations are worked on; an
active one goes on. A place in the queue comes free. -/
def startOp (cluster id : Nat) : Act Unit := do
  let s ← get
  match find? s.ops id with
  | none => pure ()
  | some o =>
    if o.cluster ≠ cluster then pure ()
    else
      match o.phase with
      | .queued =>
        if nextInQueue s id o && decide (activeOps s cluster < 8) then do
          set { s with copyTurn := put s.copyTurn cluster (o.core, ((find? s.copyTurn cluster).getD (0, 0)).2) }
          performOp id o
          wakeRoom
        else pure ()
      | .active => performOp id o
      | _ => pure ()

/-- ENGINE_OP_START (10 R316). -/
def execEngineOpStart (cluster op : Nat) (s : State) : Host.Outcome State Fault Refusal :=
  eventStep (startOp cluster op) s

/-- ENGINE_OP_COMPLETE (10 R312): a performed operation writes its progress word and updates its
counter. -/
def execEngineOpComplete (cluster op : Nat) (s : State) : Host.Outcome State Fault Refusal :=
  eventStep (do
    match find? (← get).ops op with
    | none => pure ()
    | some o =>
      match o.phase with
      | .ended st cls => if o.cluster = cluster then endOp op o st cls else pure ()
      | _ => pure ()) s

/-- ENGINE_OP_FAULT (10 R317): an operation that met a fault ends with state fault, and the error goes to
its team. -/
def execEngineOpFault (cluster op : Nat) (s : State) : Host.Outcome State Fault Refusal :=
  eventStep (do
    match find? (← get).ops op with
    | none => pure ()
    | some o =>
      match o.phase with
      | .faulting cls =>
        if o.cluster = cluster then do
          endOp op o 2 cls
          opError o cls o.peer (failedIaOf (← get) o)
        else pure ()
      | _ => pure ()) s

/-- A node starts. -/
def beginNode (id : Nat) (o : EngineOp) : Act Unit := performOp id { o with sent := 1 }

/-- DEPN_NODE_START (10 R315): an armed node that observes its wait counter at 0 acquires at device scope, so the counter
line's release owner promotes first (05 R145), and starts. What it acquires it hands on to the waits of its own block at
block scope (05 R138), whose core gives up its lines. A fault on the counter is handled as the operation's. -/
def startNode (cluster id : Nat) : Act Unit := do
  let s ← get
  match find? s.ops id with
  | none => pure ()
  | some o =>
    if o.cluster ≠ cluster || o.phase ≠ .armed || decide (8 ≤ activeOps s cluster) then pure ()
    else if o.waitVa = 0 then beginNode id o
    else
      match ← attempt (do
        let (ia, _) ← iaFor o.ctx o.waitVa .read
        let bs ← sliceRead (opReq o) ia 8 .read
        if numLE bs = 0 then do
          promoteOwner (some o.ctx) o.world ia none
          match (find? (← get).blocks o.bid).filter fun b => b.st = .resident with
          | some b => acquireWide b.core
          | none => pure ()
        else pure ()
        pure (numLE bs)) with
      | .ok 0 => beginNode id o
      | .ok _ => pure ()
      | .error (.wait _) => pure ()
      | .error (.absent st w a) => do
        let f ← noteFault o.bid (some id) 0 st w a
        setOp id { o with phase := .holding f }
      | .error e => setOp id { o with phase := .faulting (stopClass e) }

/-- DEPN_NODE_START (10 R315). -/
def execDepnNodeStart (cluster op : Nat) (s : State) : Host.Outcome State Fault Refusal :=
  eventStep (startNode cluster op) s

end Sys2Proof.Machine
end

