-- ==== Sys2Proof/Machine/Keys.lean ====
section
/-! DEFINITION. The key table: SEQNEW, SEQEND, KEYGEN, KEYDEL and the ends of their operations
(04 R115-R122; 11 R334, R335, R348; 20 R486-R493, R519). -/
namespace Sys2Proof.Machine
open Sys2Proof

/-- The handle of a slot (04 R118). -/
def handleOf (s : State) (slot : Nat) : Nat := slot + (keyOf s slot).gen * 4096

/-- A key-table operation: its issuer sends it to every slice on the management channel, and each answers and is charged (01
R19; 11 R323). -/
def keyCommand (ctx : Option Nat) (world : Nat) (src : Nat × Nat) : Act Unit :=
  each (List.range 64) fun i => do
    command ctx world src (routerOfSlice i) 0
    chargeBase (quadOfSlice i) ctx clsKey 1

/-- A new key: slice 0 makes the secret for the issuer and sends it to the other replicas, which acknowledge it (04 R117). -/
def secretCommand (ctx : Option Nat) (world : Nat) (src : Nat × Nat) : Act Unit := do
  command ctx world src (routerOfSlice 0) 0
  each (List.range 63) fun i => command ctx world (routerOfSlice 0) (routerOfSlice (i + 1)) 64
  each (List.range 64) fun i => chargeBase (quadOfSlice i) ctx clsKey 1

/-- The lowest-numbered empty sequence slot (04 R119). -/
def freeSlot (s : State) : Option Nat :=
  ((List.range 4032).map (64 + ·)).find? fun k => (keyOf s k).st = .empty

/-- The generation of a slot rises, and the slot is empty; past 2^20 - 1 it is retired (04 R116). -/
def raiseGen (slot : Nat) : Act Unit := do
  let k := keyOf (← get) slot
  if k.gen + 1 < 2 ^ 20 then setKey slot { k with st := .empty, gen := k.gen + 1, installing := false, badReplicas := [] }
  else setKey slot { k with st := .retired, installing := false, badReplicas := [] }

/-- L1 lines and chunks that a test selects leave a core without write-back. -/
def discardLines (p : L1Line → Bool) (core : Nat) : Act Unit :=
  modCore core fun c => { c with l1 := c.l1.filter (fun e => !p e.2), code := c.code.filter fun e => !p e.2 }

def discardChunks (p : Chunk → Bool) (bid : Nat) : Act Unit := do
  match find? (← get).blocks bid with
  | none => pure ()
  | some b =>
    let gone := (b.chunks.filter fun e => p e.2).map (·.2.ma / 256)
    setBlock bid { b with chunks := b.chunks.filter fun e => !p e.2 }
    modify fun s => { s with dir := s.dir.filter fun e => !(gone.contains e.1 && e.2 = b.core) }

/-- The cores latched to a world. -/
def coresLatched (s : State) (world : Nat) : List Nat :=
  (s.cores.filter fun e => e.2.latch = some world).map (·.1)

/-- What 04 R120 does to one slot: secret and keys gone, generation raised, its LLC lines dropped, its
translations erased, its L1 lines and chunks discarded on the owner's cores. The command comes from `src` in a world. -/
def destroySlot (ctx : Option Nat) (world : Nat) (src : Nat × Nat) (slot : Nat) : Act Unit := do
  let owner := (keyOf (← get) slot).owner
  keyCommand ctx world src
  raiseGen slot
  modify fun s =>
    { s with llc := s.llc.filter fun e => lineSlot e.1 != slot
             tlb := s.tlb.map fun e => if e.2.slot = slot then (e.1, { e.2 with erased := true }) else e }
  each (coresLatched (← get) owner) fun c => do
    command ctx world src (coreRouter c) 0
    discardLines (fun l => l.slot = slot) c
    each (blocksOn (← get) c) (discardChunks fun x => x.slot = slot)

/-- What 04 R122 does to a world: its slot and its sequence slots, and every line of the world. -/
def destroyWorld (src : Nat × Nat) (world : Nat) : Act Unit := do
  let own := ((← get).keys.filter fun e => decide (64 ≤ e.1) && e.2.owner = world && e.2.st = .sequence).map (·.1)
  destroySlot none 64 src world
  each own (destroySlot none 64 src)
  modify fun s => { s with llc := s.llc.filter fun e => e.2.world != world }
  each (coresLatched (← get) world) (discardLines fun l => l.world = world)

/-- Note a key job in order of issue. -/
def addJob (j : KeyJob) : Act Unit := do
  let id ← freshId
  modify fun s => { s with keyJobs := put s.keyJobs id j }

/-- Blocks that an earlier secret of a slot has sealed at its generation match the new one's tags no longer: device reset takes
the secrets and leaves the generations (04 R112, R113, R117). -/
def breakSeals (slot gen : Nat) : Act Unit :=
  modify fun s =>
    { s with
      blocksMeta := s.blocksMeta.map fun e =>
        if e.2.sealed = some (slot, gen) then (e.1, { e.2 with sealed := none }) else e }

/-- Make a slot a key of a world; the arm waits until every replica has acknowledged the secret. -/
def installKey (c : Cx) (d : Opnd) (ctx : Option Nat) (st : SlotState) (slot world : Nat) : Act Next := do
  secretCommand ctx (if ctx.isNone then 64 else c.b.world) c.req.src
  let k := keyOf (← get) slot
  breakSeals slot k.gen
  setKey slot { k with st := st, owner := world, installing := true, badReplicas := [] }
  addJob (.install slot c.tid c.arm (destCode d))
  throw (.wait (.keyInstall slot))

/-- Whom a team's key operation is charged to: the context it works for; a firmware core's work is overhead
(11 R323). -/
def keyPayer (c : Cx) : Option Nat := if c.t.firmware then none else some (workContext c.t c.b)

/-- SEQNEW (11 R334): the lowest empty slot, or handle 0. The arm goes on once its handle is written. -/
def seqnewBody (d : Opnd) (c : Cx) : Act Next := do
  if suppressed c || c.a.joined then pure .on
  else
    match freeSlot (← get) with
    | none => do
      writeS c d 0
      pure .on
    | some slot => installKey c d (keyPayer c) .sequence slot c.b.world

/-- SEQNEW (11 R334). -/
def execSeqnew (d : Opnd) (s : State) : Host.Outcome State Fault Refusal :=
  teamStep (fun _ => plain 0xd7 [⟨d, .dst, false⟩] .none) (seqnewBody d) s

/-- SEQEND (11 R335): the arm continues at once; the key table takes the handles in their order. -/
def seqendBody (a b : Opnd) (c : Cx) : Act Next := do
  if suppressed c then pure .on
  else do
    let h := (opScalar c a).toNat
    let va := (opScalar c b).toNat
    require (va % 16 = 0) .engineParameter
    addJob (.seqend (h % 4096) (h / 4096) va c.tid c.b.ctx c.b.world c.b.core (keyPayer c))
    pure .on

/-- SEQEND (11 R335): a handle with bits 63:32 set is an illegal operand. -/
def execSeqend (a b : Opnd) (s : State) : Host.Outcome State Fault Refusal :=
  teamStep (fun c => { plain 0xd8 [⟨a, .scalar, false⟩, ⟨b, .scalar, false⟩] .none with
      operandOk := decide ((opScalar c a).toNat < 2 ^ 32) }) (seqendBody a b) s

/-- The jobs that end a slot's sequence, and those that install its key. -/
def endsSlot (slot : Nat) : KeyJob → Bool
  | .seqend k _ _ _ _ _ _ _ => k = slot
  | _ => false
def installsSlot (slot : Nat) : KeyJob → Bool
  | .install k _ _ _ => k = slot
  | _ => false

/-- The oldest job that a test selects. -/
def firstJob (s : State) (p : KeyJob → Bool) : Option (Nat × KeyJob) := s.keyJobs.find? fun e => p e.2

/-- SEQEND_COMPLETE (04 R120): the oldest SEQEND of the slot reaches the key table and ends: a current
handle of its own world destroys the slot and reports done 1, any other done 0. -/
def endSequence (slot : Nat) : Act Unit := do
  match firstJob (← get) (endsSlot slot) with
  | some (id, .seqend _ gen va tid ctx world core payer) => do
    modify fun s => { s with keyJobs := del s.keyJobs id }
    let s ← get
    let k := keyOf s slot
    let ok := decide (64 ≤ slot) && k.st = .sequence && k.owner = world && k.gen = gen && !k.installing
    if ok then destroySlot payer world (coreRouter core) slot else pure ()
    if va = 0 then pure ()
    else makeLate ⟨tid, ctx, world, core, none, va, some (progressWord (if ok then 1 else 0) 1 0), none, 1, none⟩
  | _ => pure ()

/-- SEQEND_COMPLETE (04 R120). -/
def execSeqendComplete (slot : Nat) (s : State) : Host.Outcome State Fault Refusal := eventStep (endSequence slot) s

/-- The counters of a world's flows start again with its key (04 R114). -/
def resetFlows (world : Nat) : Act Unit := modify fun s => { s with flows := s.flows.filter fun e => e.1 % 65 != world }

/-- The installation of a slot ends: the handle, or 0 when a replica did not acknowledge, goes to the
waiting arm. A world's NoC key is installed with the world's own. -/
def endInstall (slot : Nat) (good : Bool) : Act Unit := do
  match firstJob (← get) (installsSlot slot) with
  | some (id, .install _ tid arm d) => do
    modify fun s => { s with keyJobs := del s.keyJobs id }
    let h := handleOf (← get) slot
    if good then do
      setKey slot { keyOf (← get) slot with installing := false }
      if slot < 64 then resetFlows slot else pure ()
    else raiseGen slot
    modTeam tid fun t => putS t (d - 256) (BitVec.ofNat 64 (if good then h else 0))
    modArm tid arm fun x => { x with wait := .retry, joined := true }
  | _ => pure ()

/-- KEY_INSTALL_COMPLETE (04 R117). -/
def execKeyInstallComplete (slot : Nat) (s : State) : Host.Outcome State Fault Refusal :=
  eventStep (endInstall slot true) s

/-- KEY_INSTALL_TIMEOUT (20 R493). -/
def execKeyInstallTimeout (slot : Nat) (s : State) : Host.Outcome State Fault Refusal :=
  eventStep (endInstall slot false) s

/-- KEYGEN (11 R348). -/
def execKeygen (d : Opnd) (w : Nat) (s : State) : Host.Outcome State Fault Refusal :=
  teamStep (fun _ => { plain 0xf3 [⟨d, .dst, false⟩] .none with firmware := true })
    (fun c => do
      if c.a.joined then pure .on
      else if (keyOf (← get) w).st ≠ .empty then do
        writeS c d 0
        pure .on
      else installKey c d none .world w w) s

/-- KEYDEL (11 R348): it completes with every slice and core, here at once. Bits of s_d past the world are reserved and
ignored (00 R3, 11 R346). -/
def execKeydel (d : Opnd) (s : State) : Host.Outcome State Fault Refusal :=
  teamStep (fun _ => { plain 0xf4 [⟨d, .scalarBoth, false⟩] .none with firmware := true })
    (fun c => do
      destroyWorld c.req.src ((opScalar c d).toNat % 64)
      pure .on) s

/-- KEY_SLOT_RECOVERY (20 R491, R492): a replica that reads a slot uncorrectable takes it again from a
good one; with no good copy left the slot is lost. -/
def recoverSlot (slice slot : Nat) : Act Unit := do
  let k := keyOf (← get) slot
  if !k.badReplicas.contains slice then pure ()
  else if k.badReplicas.length < 64 then do
    setKey slot { k with badReplicas := dropAll k.badReplicas slice }
    let good := ((List.range 64).find? fun i => !k.badReplicas.contains i).getD 0
    command none 64 (routerOfSlice slice) (routerOfSlice good) 64
    sliceRecord slice { ErrRec.blank with type := 6, cls := 4 }
  else if 64 ≤ slot then destroySlot none 64 (routerOfSlice slice) slot
  else do
    destroyWorld (routerOfSlice slice) slot
    each ((← get).contexts.filter fun e => e.2.world = some slot) fun e => endContext e.1 ⟨2, 4, 0, 0x3ff, 0, DumpInfo.none, ⟨4, slice, 0⟩⟩

/-- KEY_SLOT_RECOVERY (20 R491). -/
def execKeySlotRecovery (slice slot : Nat) (s : State) : Host.Outcome State Fault Refusal :=
  eventStep (recoverSlot slice slot) s

end Sys2Proof.Machine
end

