-- ==== Sys2Proof/Machine/Tasks.lean ====
section
/-! DEFINITION. Tasks, launches, triggers, stealing, and the events of counters and waits
(02 R49-R59; 09 R282; 11 R324-R333; 19 R454, R455). JOINC is in Frames. -/
namespace Sys2Proof.Machine
open Sys2Proof

/-! ### TSPAWN (11 R325) -/

/-- TSPAWN: the record is read at issue and checked, the issue releases at device scope, and the copy is
queued. Status 1 when the queue is full. -/
def tspawnBody (d a : Opnd) (c : Cx) : Act Next := do
  if suppressed c then pure .on
  else do
    let va := (opScalar c a).toNat
    alignScalar c va .read 64
    let w := wordsOf 8 (← scalarAccess c va .read (readOwn c va 8))
    require (taskOk (← get) c.b.world w) .taskRecord
    releaseWide c.b.core c.t.bid
    match find? (← get).partitions c.b.part with
    | none => do
      writeS c d 1
      pure .on
    | some p =>
      match ← taskFate p c.b.world (some c.b.core) w with
      | .core x => do
        addTask x w
        writeS c d 0
      | .full => writeS c d 1
      | .held => do
        modPartition c.b.part fun p => { p with tasks := p.tasks ++ [w] }
        writeS c d 0
      pure .on

/-- TSPAWN (11 R325). -/
def execTspawn (d a : Opnd) (s : State) : Host.Outcome State Fault Refusal :=
  teamStep (fun _ => plain 0xd0 [⟨d, .dst, false⟩, ⟨a, .scalar, false⟩] .none) (tspawnBody d a) s

/-- Records held by the queue engine go to a core latched to their world that has room (19 R454). -/
def placeHeldTasks (part : Nat) : Act Unit := do
  match find? (← get).partitions part with
  | none => pure ()
  | some p =>
    setPartition part { p with tasks := [] }
    each p.tasks fun w => do
      let world := ((contextOf (← get) (taskContext w)).world).getD 64
      match ← taskFate p world none w with
      | .core c => addTask c w
      | _ => modPartition part fun p => { p with tasks := p.tasks ++ [w] }

/-! ### TNEXT and TDONE (11 R326, R327) -/

/-- The record that a team may take: the highest priority among those of its lanes and weight, the oldest
among equals. -/
def pickTask (ts : List (List DWord)) (lanes weight : Nat) : Option (List DWord) :=
  (ts.filter fun w => taskLanes w = lanes && taskWeight w = weight).foldl (fun a w => match a with
    | none => some w
    | some x => if taskPriority x < taskPriority w then some w else some x) none

/-- The team as a record of work starts it (11 R326). -/
def startTask (w : List DWord) (a : Arm) (t : Team) : Team :=
  let m := fullMask t.lanes
  let lanes := t.lane.map fun x => { x with st := LaneState.live, draw := 0 }
  let t := putS (putS (putS (putS t 1 (w.getD 1 0)) 2 (w.getD 6 0)) 3 (w.getD 7 0)) 4 (w.getD 2 0)
  { t with lane := lanes, mreg := [], w := 0, lo := 0, task := some w, a0 := some { a with exec := m, mode := modeStart } }

/-- TNEXT: a stop record retires the team; any other starts its work. While no record fits, the team
waits. -/
def tnextBody (c : Cx) : Act Next := do
  require (!c.t.split && stackDepth c.t.stack = 0 && c.t.task.isNone) .illegalState
  let core := coreOf (← get) c.b.core
  match pickTask core.tasks c.t.lanes c.t.weight with
  | none => throw (.wait .room)
  | some w =>
    if taskEntry w ≠ 0 && !hasChargeSet core (taskContext w) then throw (.wait .room)
    else do
      acquireWide c.b.core
      modCore c.b.core fun x => { x with tasks := x.tasks.erase w }
      placeHeldTasks c.b.part
      if taskEntry w = 0 then do
        chargeTeam c.tid clsFront 1
        modTeam c.tid fun t => { t with lane := t.lane.map fun x => { x with st := .exited } }
        retireTeam c.tid
        pure .gone
      else do
        modTeam c.tid fun t => match t.a0 with
          | some a => startTask w a t
          | none => t
        addCharge c.b.core (taskContext w) 0
        pure (.to (taskEntry w))

/-- TNEXT (11 R326). -/
def execTnext (s : State) : Host.Outcome State Fault Refusal :=
  teamStep (fun _ => plain 0xd1 [] .none) tnextBody s

/-- TDONE: the successor counter goes down, as a device-scope release when the record says so; the held
task is cleared. The update of a record without that flag is a release where a FENCE came before it (05 R137). A team with
no live lane does nothing (18 R440; log entry 29). -/
def tdoneBody (c : Cx) : Act Next := do
  if suppressed c then pure .on
  else
  match c.t.task with
  | none => raise .illegalState
  | some w => do
    require (!c.t.split) .illegalState
    let va := taskSuccessor w
    if va = 0 then pure ()
    else do
      alignScalar c va .rmw 8
      scalarAccess c va .rmw do
        let ia ← plainIa c va .rmw
        if taskRelease w then releaseWide c.b.core c.t.bid else pure ()
        releaseFenced c
        flushOwn c.req c.b c.t.bid va ia
        let _ ← counterSignal c false ia (-(taskDecrement w : Int))
    modTeam c.tid fun t => { t with task := none }
    pure .on

/-- TDONE (11 R327). -/
def execTdone (s : State) : Host.Outcome State Fault Refusal :=
  teamStep (fun _ => plain 0xd2 [] .none) tdoneBody s

/-! ### LAUNCH (11 R328) -/

/-- LAUNCH: a copy of the record joins the team's pending-launch queue of four; a fifth waits until an entry
drains (02 R59). -/
def launchBody (a : Opnd) (c : Cx) : Act Next := do
  if suppressed c then pure .on
  else do
    let va := (opScalar c a).toNat
    alignScalar c va .read 64
    if 4 ≤ c.t.pendingLaunch.length then throw (.wait .room)
    else do
      let bs ← scalarAccess c va .read (readOwn c va 64)
      let ia ← scalarAccess c va .read (plainIa c va .read)
      releaseWide c.b.core c.t.bid
      modTeam c.tid fun t =>
        { t with pendingLaunch := t.pendingLaunch ++ [⟨wordsOf 64 bs, ia, c.b.ctx, c.b.world, some c.tid, false⟩] }
      pure .on

/-- LAUNCH (11 R328). -/
def execLaunch (a : Opnd) (s : State) : Host.Outcome State Fault Refusal :=
  teamStep (fun _ => plain 0xd3 [⟨a, .scalar, false⟩] .none) (launchBody a) s

/-! ### TRIG and TDISARM (11 R331-R333) -/

/-- The parameter checks of TRIG (11 R331). -/
def trigOk (counter operand ctl : Nat) : Bool :=
  let cmp := bitsOf ctl 0 2
  let action := bitsOf ctl 2 2
  let ring := bitsOf ctl 16 12
  let step := signed 32 (bitsOf ctl 32 32)
  cmp != 3 && bitsOf ctl 5 11 = 0 && bitsOf ctl 28 4 = 0 && counter % 8 = 0
    && operand % (if action < 2 then 64 else 8) = 0 && (ring = 0 || decide (action < 2))
    && (!bitSet ctl 4 || (step != 0 && !(cmp = 1 && decide (step < 0)) && !(cmp = 2 && decide (0 < step))))

/-- The entry that TRIG arms. -/
def trigEntry (c : Cx) (counter operand : Nat) (target value : DWord) (ctl : Nat) : Trigger :=
  { counter := counter, cmp := bitsOf ctl 0 2, action := bitsOf ctl 2 2, standing := bitSet ctl 4, target := target
    operand := operand, ring := bitsOf ctl 16 12, value := value
    step := BitVec.ofInt 64 (signed 32 (bitsOf ctl 32 32)), ctx := c.b.ctx, world := c.b.world, fires := 0
    owed := false, parked := none }

/-- Where TRIG finds a VA that a range register maps, or its range trap: no access is made, and none is tested (11 R331, 18
R432). -/
def trigIa (c : Cx) (va : Nat) (k : AccKind) : Act Nat :=
  scalarAccess c va k do
    match rangePlace (contextOf (← get) c.b.ctx) va with
    | some ia => pure ia
    | none => accessFault .range

/-- TRIG: parameters, the two translations, then the lowest free entry. The issuing context is the block's own, whose range
registers translate the team's accesses, though the team may hold another context's task (DESIGN CHOICE, log entry 43: 11 R331
does not say which it is). -/
def trigBody (d a : Opnd) (c : Cx) : Act Next := do
  if suppressed c then pure .on
  else do
    let at_ := fun i => (runAt c a i).toNat
    require (trigOk (at_ 0) (at_ 2) (at_ 4)) .triggerParameter
    let ia ← trigIa c (at_ 0) .rmw
    require ((peerOf (← get) ia).isNone) .triggerParameter
    let op ← trigIa c (at_ 2) .read
    let i ← armTrigger c.b.part (trigEntry c ia op (runAt c a 1) (runAt c a 3) (at_ 4))
    writeS c d (match i with
      | some i => BitVec.ofNat 64 i
      | none => BitVec.ofNat 64 (2 ^ 64 - 1))
    pure .on

/-- TRIG (11 R331). -/
def execTrig (d a : Opnd) (s : State) : Host.Outcome State Fault Refusal :=
  teamStep (fun _ => { plain 0xd5 [⟨d, .dst, false⟩, ⟨a, .scalar, false⟩] .none with operandOk := runOk a 5 })
    (trigBody d a) s

/-- TDISARM: an entry that the issuing context armed is cleared, a parked JOINC's too (11 R329). -/
def tdisarmBody (d a : Opnd) (c : Cx) : Act Next := do
  match find? (← get).partitions c.b.part with
  | none => do
    writeS c d 0
    pure .on
  | some p =>
    match find? p.triggers (opScalar c a).toNat with
    | some e =>
      if e.ctx = c.b.ctx then do
        setPartition c.b.part { p with triggers := del p.triggers (opScalar c a).toNat }
        match e.parked with
        | some x => modBlock x.1 fun b => { b with trigger := none }
        | none => pure ()
        writeS c d 1
      else writeS c d 0
    | none => writeS c d 0
    pure .on

/-- TDISARM (11 R333). -/
def execTdisarm (d a : Opnd) (s : State) : Host.Outcome State Fault Refusal :=
  teamStep (fun c => { plain 0xd6 [⟨d, .dst, false⟩, ⟨a, .scalar, false⟩] .none with
      operandOk := decide ((opScalar c a).toNat ≤ 255) }) (tdisarmBody d a) s

/-! ### Stealing (02 R52; 19 R454, R455) -/

/-- Whether a resident team of a core holds a task. -/
def holdsTask (s : State) (core : Nat) : Bool :=
  s.teams.any fun e => e.2.task.isSome && !e.2.retired && (match find? s.blocks e.2.bid with
    | some b => b.core = core && b.st = .resident
    | none => false)

/-- Records given to a thief: from the tail, up to half of the queue, at most 8, none of them pinned. -/
def stealable (ts : List (List DWord)) : List (List DWord) :=
  (((ts.reverse.filter fun w => !taskPinned w).take (Nat.min (ts.length / 2) 8))).reverse

/-- A queue, youngest record first, without the first n records that are not pinned. -/
def dropUnpinned : Nat → List (List DWord) → List (List DWord)
  | 0, ws => ws
  | _, [] => []
  | n + 1, w :: ws => if taskPinned w then w :: dropUnpinned (n + 1) ws else dropUnpinned n ws

/-- STEAL_REQUEST: a thief with an empty queue and no task asks a victim of its partition; a victim of
another latch answers with nothing. -/
def askSteal (thief victim : Nat) : Act Unit := do
  let s ← get
  let t := coreOf s thief
  let v := coreOf s victim
  let same := partitionOfQuad s (quadOfCore thief) = partitionOfQuad s (quadOfCore victim)
  if !t.tasks.isEmpty || t.stealing.isSome || holdsTask s thief || thief = victim || !same || isFirmwareCore victim
      || isFirmwareCore thief then pure ()
  else
    let got := if t.latch = v.latch && t.latch.isSome then stealable v.tasks else []
    setCore victim { v with tasks := (dropUnpinned got.length v.tasks.reverse).reverse }
    modCore thief fun c => { c with stealing := some got }
    placeHeldTasks (partOfCore s victim)

/-- STEAL_REQUEST (02 R52). -/
def execStealRequest (thief victim : Nat) (s : State) : Host.Outcome State Fault Refusal :=
  eventStep (askSteal thief victim) s

/-- STEAL_ANSWER: the records join the thief's queue, or go to the queue engine when its latch has changed
(19 R455) or its queue of 256 has filled meanwhile (01 R10; log entry 45). -/
def takeSteal (thief : Nat) : Act Unit := do
  let s ← get
  let c := coreOf s thief
  match c.stealing with
  | none => pure ()
  | some ws => do
    let mine := fun (w : List DWord) => c.latch.isSome && (contextOf s (taskContext w)).world = c.latch
    let own := (ws.filter mine).take (256 - c.tasks.length)
    setCore thief { c with stealing := none, tasks := c.tasks ++ own }
    wakeRoom
    modPartition (partOfCore s thief) fun p =>
      { p with tasks := p.tasks ++ (ws.filter fun w => !mine w) ++ (ws.filter mine).drop own.length }
    placeHeldTasks (partOfCore s thief)

/-- STEAL_ANSWER (02 R52). -/
def execStealAnswer (thief : Nat) (s : State) : Host.Outcome State Fault Refusal := eventStep (takeSteal thief) s

/-- A core's task queue is emptied into the queue engine (19 R448, R454). -/
def emptyTasks (core : Nat) : Act Unit := do
  let ws := (coreOf (← get) core).tasks
  modCore core fun c => { c with tasks := [] }
  let part := partOfCore (← get) core
  modPartition part fun p => { p with tasks := p.tasks ++ ws }

/-! ### Counters and waits as events -/

/-- COUNTER_UPDATE (02 R53): a feeder's update reaches the home slice. -/
def execCounterUpdate (world ia : Nat) (delta : Int) (s : State) : Host.Outcome State Fault Refusal :=
  eventStep (tried do
    if ia % 8 = 0 && decide (ia < 2 ^ 52) && decide (world < 64) then
      let _ ← counterAdd ⟨routerOfSlice (sliceOf ia), none, none, none, world⟩ ia delta
      pure ()
    else pure ()) s

/-- The arm of a team observes what it waits for again, at the home slice: it goes on when satisfied, and
performs its instruction again when the read faults (09 R282). -/
def observeWait (tid a : Nat) (watched : Bool) : Act Unit := do
  match cxOf (← get) tid a .t with
  | none => pure ()
  | some c =>
    let look := fun (ia cmp : Nat) (target : DWord) => do
      if (peerOf (← get) ia).isSome then modArm tid a fun x => { x with wait := .retry }
      else
        match ← attempt (sliceRead c.req ia (if cmp = 3 then 1 else 8) .read) with
        | .ok bs =>
          if watchHolds cmp (numLE bs) target.toNat then modArm tid a fun x => { x with wait := .retry, joined := true }
          else pure ()
        | .error (.wait _) => pure ()
        | .error _ => modArm tid a fun x => { x with wait := .retry }
    match c.a.wait with
    | .watch _ ia cmp target => if watched then look ia cmp target else pure ()
    | .poll _ ia cmp target => if watched then pure () else look ia cmp target
    | .joinc _ ia cmp target w _ => if watched = w then look ia cmp target else pure ()
    | _ => pure ()

/-- WATCH_NOTIFY (09 R282). -/
def execWatchNotify (tid arm : Nat) (s : State) : Host.Outcome State Fault Refusal :=
  eventStep (observeWait tid arm true) s

/-- WAIT_POLL (09 R282). -/
def execWaitPoll (tid arm : Nat) (s : State) : Host.Outcome State Fault Refusal :=
  eventStep (observeWait tid arm false) s

/-- REQUEST_RETRY (01 R22): a request that a slice refused is made again. -/
def execRequestRetry (tid arm : Nat) (s : State) : Host.Outcome State Fault Refusal :=
  eventStep (do
    modArm tid arm fun x => { x with wait := if x.wait = .refused then .retry else x.wait }
    retryLate) s

end Sys2Proof.Machine
end

