-- ==== Sys2Proof/Machine/Frames.lean ====
section
/-! DEFINITION. Frames of saved blocks, saves, flushes and restores, and how blocks leave and take their
core (12 R357, R362-R367; 10 R286, R318; 05 R151; 19 R442-R447; 20 R471). -/
namespace Sys2Proof.Machine
open Sys2Proof

/-! ### Sizes (12 R357) -/

/-- Whether a block of a launch needs a reservation-table entry (10 R284). -/
def usesEngine (l : Launch) : Bool := launchStream l ≠ 0 || decide (0 < launchTiles l)

/-- Frame bytes of a launch's blocks. -/
def frameBytes (l : Launch) : Nat :=
  roundUp (4096 + launchTeams l * teamBytes l + launchStash l
    + (if usesEngine l then 4096 + 16384 * launchTiles l else 0)) 4096

/-- Offset of the stream part. -/
def streamOffset (l : Launch) : Nat := 4096 + launchTeams l * teamBytes l + launchStash l

/-! ### The frame's bytes (12 R366, R367) -/

/-- Bytes filled with zeros up to n. -/
def padTo (n : Nat) (bs : List (BitVec 8)) : List (BitVec 8) := bs ++ List.replicate (n - bs.length) 0#8

/-- A mask as a frame holds it: its 32 words and the crown. -/
def maskBytes (m : Mask) : List (BitVec 8) := bytesLE 128 m.toNat ++ bytesLE 4 (crown m).toNat

/-- A number of a frame: n bytes from an offset. -/
def fieldAt (bs : List (BitVec 8)) (off n : Nat) : Nat := numLE ((bs.drop off).take n)

def maskAt (bs : List (BitVec 8)) (off : Nat) : Mask := BitVec.ofNat 1024 (fieldAt bs off 128)

/-- An arm's 256 bytes. -/
def armBytes : Option Arm → List (BitVec 8)
  | none => padTo 256 []
  | some x =>
    let jt := match x.jt with
      | some t => t % 2 ^ 63 + 2 ^ 63
      | none => 0
    padTo 256 (bytesLE 8 (pcOf x.pc x.slot) ++ maskBytes x.exec ++ bytesLE 2 x.mode.toNat ++ bytesLE 8 jt ++ bytesLE 1 1)

/-- What an arm of a saved team keeps beside its frame: what is left of its instruction, and what its program order
carries across the move (05 R151). The waits are performed again (12 R365); one at a barrier knows the generation that it
waits out, which the counts of the frame give (19 R446). -/
def restedArm (x : Arm) : Arm :=
  let again := match x.wait with
    | .watch _ _ _ _ => true
    | .poll _ _ _ _ => true
    | .joinc _ _ _ _ _ _ => true
    | _ => false
  { x with
    wait := if x.wait = .fault then .fault else .none
    redo := if again then none else x.redo
    windows := []
    bundle := none
    stack := Stack.empty }

/-- An arm read back from a frame, with what it kept. -/
def armOfBytes (kept : Option Arm) (bs : List (BitVec 8)) : Option Arm :=
  if fieldAt bs 150 1 = 0 then none
  else
    let pc := fieldAt bs 0 8
    let jt := fieldAt bs 142 8
    let k := kept.getD ⟨0, 1, 0, 0, none, Stack.empty, [], .none, [], false, none, 0, none, none, 0, none, [], []⟩
    some { k with
      pc := pc / 32 * 32
      slot := pc % 32 / 4
      exec := maskAt bs 8
      mode := BitVec.ofNat 16 (fieldAt bs 140 2)
      jt := if 2 ^ 63 ≤ jt then some (jt % 2 ^ 63) else none
      came := if k.redo.isSome then k.came else pc }

/-- The asynchronous-error status as selector 2 shows it (11 R345). -/
def aerrBits (e : AErr) : Nat :=
  (if e.pending then 1 else 0) + (if e.more then 2 else 0) + (if e.scope5 then 4 else 0) + (if e.scope6 then 8 else 0)
    + (if e.pending then 256 * (e.cls % 256) else 0)

/-- The status read back: the frame's error is the oldest one, what entered while the block was away comes after it, and
what has no place in the frame stays with the team (17 R408; log entry 17). -/
def aerrOf (kept : AErr) (x detail : Nat) : AErr :=
  if !bitSet x 0 then kept
  else { kept with
    pending := true
    more := bitSet x 1 || kept.more
    scope5 := bitSet x 2 || kept.scope5
    scope6 := bitSet x 3 || kept.scope6
    cls := bitsOf x 8 8
    detail := detail }

/-- A team's hardware entries with their owners, oldest first. -/
def hwEntries (t : Team) : List (Nat × StackEntry) :=
  let all := (t.stack.hw.map fun e => (0, e)) ++ ((stackOf t 1).hw.map fun e => (1, e)) ++ ((stackOf t 2).hw.map fun e => (2, e))
  all.mergeSort fun a b => decide (a.2.age ≤ b.2.age)

/-- A lane's 8 bytes. -/
def laneBytes (x : Lane) : List (BitVec 8) :=
  let st := match x.st with
    | .live => 0
    | .helper => 1
    | .exited => 2
  bytesLE 8 (x.draw.toNat + 2 ^ 32 * x.xflags.toNat + 2 ^ 40 * st)

def laneOfNat (x : Nat) : Lane :=
  let st := bitsOf x 40 2
  ⟨if st = 0 then .live else if st = 1 then .helper else .exited, BitVec.ofNat 32 x, BitVec.ofNat 5 (x / 2 ^ 32)⟩

/-- The physical word of register lo + j of a lane (07 R197). -/
def frameKey (t : Team) (j l : Nat) : Nat := (t.lo + j) % Nat.max t.frame 1 * 1024 + l

/-- A team's area. -/
def teamAreaBytes (t : Team) : List (BitVec 8) :=
  let es := hwEntries t
  let owners := es.foldr (fun e a => e.1 + 4 * a) 0
  padTo 0x1200 (padTo 0x7e8
      (armBytes t.a0 ++ armBytes t.a1
      ++ ((List.range 48).flatMap fun i => bytesLE 8 (rd t.sreg i).toNat)
      ++ ((List.range 7).flatMap fun i => maskBytes (rd t.mreg (i + 1)) ++ bytesLE 4 0)
      ++ bytesLE 8 (t.w % 4096 + 2 ^ 32 * (t.lo % 4096))
      ++ bytesLE 8 (es.length + 256 * owners)
      ++ (match t.task with
        | some w => (List.range 8).flatMap fun i => bytesLE 8 (w.getD i 0).toNat
        | none => padTo 64 [])
      ++ bytesLE 8 t.mark.toNat
      ++ ((List.range 16).flatMap fun n => bytesLE 4 (rd t.nbWait n).toNat)
      ++ bytesLE 8 (aerrBits t.aerr + (if t.mabs then 2 ^ 16 else 0) + (if t.sfault then 2 ^ 17 else 0)
        + (if t.split then 2 ^ 18 else 0))
      ++ bytesLE 8 (t.stack.spilled + 2 ^ 16 * (stackOf t 1).spilled + 2 ^ 32 * (stackOf t 2).spilled)
      ++ bytesLE 8 (if t.aerr.pending then t.aerr.detail else 0))
    ++ bytesLE 8 0 ++ bytesLE 8 0 ++ bytesLE 8 0
    ++ es.flatMap fun e => entryBytes e.2)
  ++ padTo (0x2000 - 0x1200) []
  ++ (t.lane.flatMap laneBytes)
  ++ ((List.range t.frame).flatMap fun j => (List.range t.lanes).flatMap fun l => bytesLE 4 (rd t.v (frameKey t j l)).toNat)

/-- The hardware entries of a team area that belong to an owner, newest first. -/
def entriesOf (bs : List (BitVec 8)) (n owners owner : Nat) : List StackEntry :=
  (((List.range n).filter fun i => bitsOf owners (2 * i) 2 = owner).filterMap fun i =>
    (entryOfBytes ((bs.drop (0x800 + 160 * i)).take 160)).map fun e => { e with age := i + 1 }).reverse

/-- A team read back from its area; what the frame does not hold comes from what the team kept. -/
def teamOfBytes (kept : Team) (bs : List (BitVec 8)) (bad : Nat → Bool) : Team :=
  let w := fieldAt bs 0x738 8
  let held := fieldAt bs 0x740 8
  let n := bitsOf held 0 5
  let owners := bitsOf held 8 32
  let status := fieldAt bs 0x7d0 8
  let spilled := fieldAt bs 0x7d8 8
  let task := (List.range 8).map fun i => BitVec.ofNat 64 (fieldAt bs (0x748 + 8 * i) 8)
  let a0 := (armOfBytes kept.a0 (bs.take 256)).map fun x => { x with stack := ⟨entriesOf bs n owners 1, bitsOf spilled 16 9⟩ }
  let a1 := (armOfBytes kept.a1 ((bs.drop 256).take 256)).map fun x =>
    { x with stack := ⟨entriesOf bs n owners 2, bitsOf spilled 32 9⟩ }
  let lanes := (List.range kept.lanes).map fun l => laneOfNat (fieldAt bs (0x2000 + 8 * l) 8)
  let regs := (List.range kept.frame).flatMap fun j => (List.range kept.lanes).map fun l => (j, l)
  let at_ := fun (p : Nat × Nat) => 0x2000 + 8 * kept.lanes + 4 * (kept.lanes * p.1 + p.2)
  let t : Team := { kept with
    w := bitsOf w 0 12
    lo := bitsOf w 32 12
    lane := lanes
    sreg := (List.range 48).foldl (fun t i => wr t i (BitVec.ofNat 64 (fieldAt bs (0x200 + 8 * i) 8))) []
    mreg := (List.range 7).foldl (fun t i => wr t (i + 1) (maskAt bs (0x380 + 136 * i))) []
    stack := ⟨entriesOf bs n owners 0, bitsOf spilled 0 9⟩
    pushes := n
    split := bitSet status 18
    last := 1
    a0 := a0
    a1 := a1
    task := if task.all (· == 0) then none else some task
    mark := BitVec.ofNat 48 (fieldAt bs 0x788 8)
    nbWait := (List.range 16).foldl (fun t n => wr t n (BitVec.ofNat 32 (fieldAt bs (0x790 + 4 * n) 4))) []
    aerr := aerrOf kept.aerr (bitsOf status 0 16) (fieldAt bs 0x7e0 8)
    mabs := bitSet status 16
    sfault := bitSet status 17 }
  { t with
    v := regs.foldl (fun v p => wr v (frameKey t p.1 p.2) (BitVec.ofNat 32 (fieldAt bs (at_ p) 4))) []
    vPoison := (regs.filter fun p => bad (at_ p)).map fun p => frameKey t p.1 p.2 }

/-- What a saved team keeps beside its frame. -/
def restedTeam (t : Team) : Team :=
  { t with v := [], vPoison := [], sreg := [], mreg := [], stack := Stack.empty
           a0 := t.a0.map restedArm, a1 := t.a1.map restedArm }

/-- The block part. -/
def blockPartBytes (b : Block) (l : Launch) (spent : Nat) : List (BitVec 8) :=
  padTo 4096 (bytesLE 4 0x15346 ++ bytesLE 4 (frameBytes l / 4096)
    ++ bytesLE 8 (l.recIa % 2 ^ 52) ++ bytesLE 8 b.linear
    ++ bytesLE 8 (b.ctx % 1024 + 1024 * (b.world % 64) + 65536 * (b.retired % 256) + (if b.residual then 2 ^ 24 else 0))
    ++ bytesLE 4 b.bgen.toNat ++ bytesLE 4 (b.barrived % 256)
    ++ ((List.range 16).flatMap fun n =>
      let x := nbarOf b n
      bytesLE 8 (x.completed.toNat + 2 ^ 32 * (x.expected % 16) + 2 ^ 36 * (x.arrivals % 16) + 2 ^ 40 * (x.arrived % 256)
        + (if x.stream then 2 ^ 48 else 0)) ++ bytesLE 8 0)
    ++ ((List.range 8).flatMap fun r => match find? b.regions r with
      | some g => bytesLE 8 g.va ++ bytesLE 8 (g.off + 2 ^ 20 * (g.size / 4096) + 2 ^ 40) ++ bytesLE 8 0
      | none => bytesLE 8 0 ++ bytesLE 8 0 ++ bytesLE 8 0)
    ++ bytesLE 8 spent)

/-- The block of a block part. -/
def blockOfBytes (b : Block) (bs : List (BitVec 8)) : Block :=
  let w3 := fieldAt bs 0x18 8
  { b with
    retired := bitsOf w3 16 8
    residual := bitSet w3 24
    bgen := BitVec.ofNat 32 (fieldAt bs 0x20 4)
    barrived := fieldAt bs 0x24 1
    nbar := (List.range 16).foldl (fun t n =>
      let x := fieldAt bs (0x28 + 16 * n) 8
      let y : NBar := ⟨BitVec.ofNat 32 x, bitsOf x 32 4, bitsOf x 36 4, bitsOf x 40 8, bitSet x 48⟩
      if y = NBar.start then t else put t n y) []
    regions := (List.range 8).foldl (fun t r =>
      let w1 := fieldAt bs (0x130 + 24 * r) 8
      if bitSet w1 40 then put t r ⟨fieldAt bs (0x128 + 24 * r) 8, bitsOf w1 0 20, 4096 * bitsOf w1 20 20⟩ else t) []
    spent := fieldAt bs 0x1e8 8
    seen := fieldAt bs 0x1e8 8
    judged := fieldAt bs 0x1e8 8 }

/-- The unmapped stash image: mapped offsets hold zero. -/
def imageBytes (b : Block) : List (BitVec 8) :=
  (List.range b.stashSize).map fun o => if (regionAt b o).isSome then 0#8 else rd b.stash o

/-- The stream state in its first 4,096 bytes, in the order of 12 R367; the places within are the model's
(log entry 17). The PC is an original address (16 R395); a stream in residual code keeps its place there in
the model's last word. The heads and exits of its loop-stack entries stand there as residual addresses (DESIGN CHOICE, log
entry 17: 16 R395 speaks of the PC alone). -/
def streamBytes (s : Stream) (original : Option Nat) : List (BitVec 8) :=
  padTo 4096 (bytesLE 8 (original.getD (pcOf s.pc s.slot))
    ++ padTo 104 (bytesLE 8 s.loops.length ++ s.loops.flatMap fun x => bytesLE 8 x.count ++ bytesLE 8 x.head ++ bytesLE 8 x.exit)
    ++ ((List.range 16).flatMap fun n => match find? s.rings n with
      | some r => bytesLE 8 (1 + (if r.dir then 2 else 0) + (if r.held then 4 else 0) + 8 * r.sp) ++ bytesLE 8 r.base
          ++ bytesLE 8 r.size ++ bytesLE 8 r.slots ++ bytesLE 8 r.hdr ++ bytesLE 8 r.cursor.toNat
      | none => padTo 48 [])
    ++ (match s.conv with
      | some v => bytesLE 8 1 ++ bytesLE 8 v.word.toNat ++ bytesLE 8 v.wo ++ bytesLE 8 v.row0 ++ bytesLE 8 v.kpos
      | none => padTo 40 [])
    ++ bytesLE 8 s.flags.toNat
    ++ ((List.range 16).flatMap fun n => bytesLE 4 (rd s.waits n).toNat)
    ++ bytesLE 8 s.recVa
    ++ bytesLE 8 (s.fault + (if s.bound then 256 else 0))
    ++ bytesLE 8 s.ops ++ bytesLE 8 s.binder
    ++ ((List.range 16).flatMap fun n => match find? s.books n with
      | some xs => bytesLE 8 1 ++ padTo 32 (xs.flatMap fun x => bytesLE 2 x.toNat)
      | none => padTo 40 [])
    ++ bytesLE 8 (if original.isSome then pcOf s.pc s.slot else 0))

/-- The stream of its 4,096 bytes. -/
def streamOfBytes (bs : List (BitVec 8)) : Stream :=
  let pc := if fieldAt bs 1664 8 = 0 then fieldAt bs 0 8 else fieldAt bs 1664 8
  let ring := fun n => 112 + 48 * n
  { bound := bitSet (fieldAt bs 1000 8) 8
    pc := pc / 32 * 32
    slot := pc % 32 / 4
    loops := (List.range (fieldAt bs 8 8)).map fun i =>
      ⟨fieldAt bs (16 + 24 * i) 8, fieldAt bs (24 + 24 * i) 8, fieldAt bs (32 + 24 * i) 8⟩
    rings := (List.range 16).foldl (fun t n =>
      let w := fieldAt bs (ring n) 8
      if bitSet w 0 then
        put t n ⟨bitSet w 1, w / 8, fieldAt bs (ring n + 8) 8, fieldAt bs (ring n + 16) 8, fieldAt bs (ring n + 24) 8,
          fieldAt bs (ring n + 32) 8, BitVec.ofNat 32 (fieldAt bs (ring n + 40) 8), bitSet w 2⟩
      else t) []
    conv := if fieldAt bs 880 8 = 0 then none
      else some ⟨BitVec.ofNat 64 (fieldAt bs 888 8), fieldAt bs 896 8, fieldAt bs 904 8, fieldAt bs 912 8⟩
    flags := BitVec.ofNat 5 (fieldAt bs 920 8)
    waits := (List.range 16).foldl (fun t n => wr t n (BitVec.ofNat 32 (fieldAt bs (928 + 4 * n) 4))) []
    recVa := fieldAt bs 992 8
    binder := fieldAt bs 1016 8
    fault := fieldAt bs 1000 1
    ops := fieldAt bs 1008 8
    inFlight := false
    wait := .none
    books := (List.range 16).foldl (fun t n =>
      if fieldAt bs (1024 + 40 * n) 8 = 0 then t
      else put t n ((List.range 16).map fun i => BitVec.ofNat 16 (fieldAt bs (1032 + 40 * n + 2 * i) 2))) []
    bundle := none }

/-- The tiles of a block, row-major f32. -/
def tileBytes (b : Block) : List (BitVec 8) := (List.range (4096 * b.tiles)).flatMap fun k => bytesLE 4 (rd b.tile k).toNat

/-- The whole frame of a resident block. The area of a team that has retired holds zeros (DESIGN CHOICE, log entry 17: 12 R367
says nothing of it). -/
def frameOf (s : State) (bid : Nat) (b : Block) (l : Launch) (original : Option Nat) : List (BitVec 8) :=
  padTo (frameBytes l) (blockPartBytes b l (spentOf s bid b)
    ++ ((List.range b.nteams).flatMap fun t => match find? s.teams (bid * 8 + t) with
      | some x => if x.retired then padTo (teamBytes l) [] else padTo (teamBytes l) (teamAreaBytes x)
      | none => padTo (teamBytes l) [])
    ++ imageBytes b
    ++ (if usesEngine l then streamBytes b.stream original ++ tileBytes b else []))

/-- Offsets of the frame that hold a poisoned word. -/
def framePoison (s : State) (bid : Nat) (b : Block) (l : Launch) : List Nat :=
  ((List.range b.nteams).flatMap fun i => match find? s.teams (bid * 8 + i) with
    | some t =>
      if t.vPoison.isEmpty then []
      else (List.range t.frame).flatMap fun j => ((List.range t.lanes).filter fun k => t.vPoison.contains (frameKey t j k)).map
        fun k => 4096 + i * teamBytes l + 0x2000 + 8 * t.lanes + 4 * (t.lanes * j + k)
    | none => [])
  ++ (b.stashPoison.map fun w => 4096 + launchTeams l * teamBytes l + 4 * w)
  ++ (b.tilePoison.map fun k => streamOffset l + 4096 + 4 * k)

/-! ### Reading and writing a frame -/

/-- Write bytes at a VA, whole 512-byte blocks at once. -/
def writeBlocks (r : Req) (ctx : Nat) : Nat → Nat → List (BitVec 8) → Act Unit
  | 0, _, _ => pure ()
  | n + 1, va, bs =>
    if bs.isEmpty then pure ()
    else do
      let k := 512 - va % 512
      if k = 512 && decide (512 ≤ bs.length) then
        let (ia, _) ← iaFor ctx va .write
        sliceWriteBlock r ia (bs.take 512)
      else writeRecord r ctx va (bs.take k)
      writeBlocks r ctx n (va + k) (bs.drop k)

/-- Read bytes at a VA by 64-byte sectors: a sector that is poisoned reads as zeros, and its offset is
noted. -/
def readSectors (r : Req) (ctx va : Nat) : List (Nat × Nat) → Act (List (BitVec 8) × List Nat)
  | [] => pure ([], [])
  | p :: t => do
    let (bs, bad) ← match ← attempt (do
        let (ia, _) ← iaFor ctx p.1 .read
        sliceRead r ia p.2 .read) with
      | .ok x => pure (x, [])
      | .error (.fault .dataError _) => pure (List.replicate p.2 0#8, [p.1 - va])
      | .error e => throw e
    let (rest, more) ← readSectors r ctx va t
    pure (bs ++ rest, bad ++ more)

/-- Offsets of sectors that hold poison are told by their first byte. -/
def inSectors (bad : List Nat) (off : Nat) : Bool := bad.any fun s => decide (s ≤ off) && decide (off < s + 64)

/-! ### What goes with a discarded block -/

/-- Resumable faults of a block are forgotten; posted ones give their counters back. -/
def dropFaults (bid : Nat) : Act Unit := do
  match find? (← get).blocks bid with
  | none => pure ()
  | some b =>
    each b.faults fun f => do
      match find? (← get).faults f with
      | none => pure ()
      | some x => do
        modify fun s => { s with faults := del s.faults f }
        modPartition b.part fun p =>
          { p with faultFree := p.faultFree + (if x.state = 2 then 1 else 0), faultWait := dropAll p.faultWait f }
    modBlock bid fun b => { b with faults := [] }

/-- The trigger entries armed for a block's joins are cleared. -/
def dropParkTriggers (bid : Nat) : Act Unit := do
  match find? (← get).blocks bid with
  | none => pure ()
  | some b =>
    modPartition b.part fun p =>
      { p with triggers := p.triggers.filter fun e => match e.2.parked with
          | some (x, _, _) => x != bid
          | none => true }
    modBlock bid fun b => { b with trigger := none }

/-- Keys and invalidations that a discarded block's teams wait for find nobody. Its requests to peers keep their names: the
block does not start again before they are answered (05 R151). -/
def orphanJobs (bid : Nat) : Act Unit :=
  modify fun s =>
    { s with
      keyJobs := s.keyJobs.map fun e => match e.2 with
        | .install k t a d => (e.1, if t / 8 = bid then .install k 0 a d else e.2)
        | _ => e
      invals := s.invals.map fun e => if e.2.tid / 8 = bid then (e.1, { e.2 with tid := 0 }) else e }

/-- Operations of a block are cancelled (10 R318). -/
def cancelBlockOps (bid cls : Nat) : Act Unit := cancelOps (fun o => o.bid = bid) cls

/-- A block's stay ends without a save: its writes go out, and its teams, stream, faults, joins and frame
are discarded. -/
def discardBlock (bid cls : Nat) : Act Unit := do
  match find? (← get).blocks bid with
  | none => pure ()
  | some b =>
    if b.st = .resident then releaseWide b.core bid else pure ()
    cancelBlockOps bid cls
    dropFaults bid
    dropParkTriggers bid
    orphanJobs bid
    if b.st = .resident then leaveCore bid
    else modify fun s => { s with teams := s.teams.filter fun e => e.2.bid != bid }
    freeFrame bid

/-- A block as it stands before its first placement. -/
def freshBlock (b : Block) : Block :=
  { b with
    core := 0, frameIx := none, frameVa := 0, away := none, st := .pending, retired := 0, residual := false, spent := 0
    seen := 0, judged := 0, measured := 0
    stash := [], stashPoison := [], regions := [], chunks := [], bgen := 0, barrived := 0, nbar := []
    stream := Stream.idle, tile := [], tilePoison := [], preempt := .none, trigger := none, faults := []
    streamOwed := 0 }

/-- Flush a block: it is to restart from its entry (03 R78, 05 R151, 12 R362). -/
def flushBlock (bid : Nat) (queue : Bool) : Act Unit := do
  let from_ := find? (← get).blocks bid
  discardBlock bid 12
  modBlock bid freshBlock
  modify (dropShares bid)
  refsLeft from_
  if queue then requeueHead bid else pure ()

/-- A resident block is to be flushed as soon as the slices take its writes. -/
def flushSoon (bid : Nat) : Act Unit := do
  modBlock bid fun b => { b with preempt := .flush }
  let _ ← attempt (flushBlock bid true)

/-- A frame that cannot be stored or read: an idempotent launch's block is flushed, any other's context
ends (19 R443, R444). -/
def frameLost (bid : Nat) (b : Block) (cause : Nat) (queue : Bool) : Act Unit := do
  if launchIdempotent (launchOf (← get) b.launch) then flushBlock bid queue
  else endContext b.ctx ⟨11, 15, cause, b.core, 0, DumpInfo.none, Source.core⟩

/-- The cause code of what stopped an access. -/
def stopCause : Stop → Nat
  | .fault c _ => causeCode c
  | .absent _ _ _ => causeCode .pageFault
  | .spill .. => causeCode .pageFault
  | .trap t => causeCode t.cause
  | .wait _ => 0

/-! ### Saving (12 R365) -/

/-- The arms of a block's teams. -/
def armsOf (s : State) (bid : Nat) : List (Nat × Nat × Arm) :=
  (s.teams.filter fun e => e.2.bid = bid && !e.2.retired).flatMap fun e =>
    (match e.2.a0 with
      | some x => [(e.1, 0, x)]
      | none => []) ++ (match e.2.a1 with
      | some x => [(e.1, 1, x)]
      | none => [])

/-- Nothing is owed to the block any more: no answer of a peer or of the key table, no pending launch, no
tile operation under way; and it is not about to retire. -/
def saveReady (s : State) (bid : Nat) (b : Block) : Bool :=
  (s.teams.all fun e => e.2.bid != bid || e.2.pendingLaunch.isEmpty)
    && (armsOf s bid).all (fun a => match a.2.2.wait with
      | .keyInstall _ => false
      | .peer txs => !(txs.any fun tx => match find? (portOf s (tx / 4096)).jobs (tx % 4096) with
        | some (.load _ _ _ _ _ _ _) => true
        | _ => false)
      | _ => true)
    && !s.closing.contains bid
    && !b.stream.inFlight
    && !((s.engines.any fun e => e.2.granted = some bid || e.2.busy = some bid))

/-- Registers that residual code owes are written before the frame (12 R373): those of the bundle that an arm is about to
enter, and those that it still owes. -/
def settleOwed (bid : Nat) : Act Unit := do
  each (armsOf (← get) bid) fun a => do
    match cxOf (← get) a.1 a.2.1 .t with
    | none => pure ()
    | some c => do
      if c.a.slot = 1 then
        match ← backMap c c.a.pc with
        | some (base, ws) => do
          let xs ← owedList c.req base ws
          modArm c.tid c.arm (takeOwed xs)
        | none => pure ()
      else pure ()
      modTeam c.tid (payOwed c.arm fun _ => true)

/-- A saved block leaves its core, keeping its frame. -/
def leaveSaved (bid : Nat) (dest : BlockState) : Act Unit := do
  let kept := (← get).teams.filter fun e => e.2.bid = bid
  leaveCore bid
  modify fun s => { s with teams := kept.foldl (fun t e => put t e.1 (restedTeam e.2)) s.teams }
  modBlock bid fun b => { b with st := dest, preempt := .none }

/-- The requester of a block's frame stores: its core, for its context. -/
def frameReq (b : Block) : Req := ⟨routerOfCluster (clusterOfCore b.core), some b.core, none, some b.ctx, b.world⟩

/-- The original PC of a stream that stands in residual code, or that ended there (12 R372, 16 R395). -/
def streamOrigin (b : Block) (l : Launch) : Act (Option Nat) := do
  match ← backEntry (frameReq b) b l b.stream.pc with
  | some (_, ws) => pure (some (originalPc ws b.stream.slot))
  | none => pure none

/-- Write a frame: what goes wrong, when something does. -/
def writeFrame (bid : Nat) (b : Block) (va : Nat) : Act (Option Stop) := do
  let s ← get
  let l := launchOf s b.launch
  match ← attempt (do
    let original ← streamOrigin b l
    let bs := frameOf s bid b l original
    writeBlocks (frameReq b) b.ctx (bs.length / 512 + 2) va bs
    each (framePoison s bid b l) fun off => do
      let (ia, _) ← iaFor b.ctx (va + off) .write
      poisonIa (frameReq b) ia) with
  | .ok _ => pure none
  | .error e => pure (some e)

/-- The save of a resident block that owes nothing: its writes go out as a device-scope release, its frame
is written, and it leaves its core for a state. True when it is saved. Lost residual code ends it otherwise (19 R465). -/
def saveBlock (bid va : Nat) (dest : BlockState) (queue : Bool) : Act Bool := do
  match find? (← get).blocks bid with
  | none => pure false
  | some b => do
    let l := launchOf (← get) b.launch
    match ← attempt (undone do
        settleOwed bid
        let _ ← streamOrigin b l
        releaseWide b.core bid) with
    | .error (.fault x cls) => do
      if isLost x then residualLost bid b l cls else pure ()
      pure false
    | .error _ => pure false
    | .ok _ =>
      match find? (← get).blocks bid with
      | none => pure false
      | some b' =>
        match ← writeFrame bid b' va with
        | none => do
          setBlock bid { b' with away := if va = b.frameVa then none else some va }
          leaveSaved bid dest
          if queue then requeueHead bid else pure ()
          pure true
        | some (.wait _) => pure false
        | some e => do
          frameLost bid b' (stopCause e) true
          pure false

/-- Whether a one-shot trigger is armed for a block, a join's or a fault's (19 R442). A resumable fault of a team that has
been noted is taken up under 04 R100 whether or not its counter is free yet, and its trigger with it. -/
def armedFor (s : State) (b : Block) : Bool :=
  b.trigger.isSome || b.faults.any fun f => match find? s.faults f with
    | some x => x.op.isNone && x.stream = 0
    | none => false

/-- Save a block at its own frame: to PARKED when a one-shot trigger is armed for it, else to SAVED. -/
def saveHome (bid : Nat) : Act Unit := do
  let s ← get
  match find? s.blocks bid with
  | none => pure ()
  | some b =>
    if b.st = .resident && saveReady s bid b then
      let parked := armedFor s b
      let _ ← saveBlock bid b.frameVa (if parked then .parked else .saved) (!parked)
      pure ()
    else pure ()

/-! ### Room (02 R31-R33, 10 R284) -/

/-- Live teams of a saved block. -/
def liveCount (s : State) (bid : Nat) : Nat := (s.teams.filter fun e => e.2.bid = bid && !e.2.retired).length

/-- The contexts of the tasks that a block's teams hold (11 R326). -/
def heldContexts (s : State) (bid : Nat) : List Nat :=
  (s.teams.filter fun e => e.2.bid = bid && !e.2.retired).filterMap fun e => e.2.task.map taskContext

/-- Whether a core has, or can have, charge sets for some contexts beside those it holds (03 R72). -/
def setsFit (c : Core) (xs : List Nat) : Bool :=
  decide (c.charges.length + (xs.eraseDups.filter fun x => (find? c.charges x).isNone).length ≤ 16)

/-- The resident teams of a core. -/
def teamsOn (s : State) (core : Nat) : List Team :=
  (s.teams.filter fun e => !e.2.retired && (match find? s.blocks e.2.bid with
    | some b => b.core = core && b.st = .resident
    | none => false)).map (·.2)

/-- Whether a team of weight w at base b owns a slot. -/
def slotsOf (w b : Nat) : List Nat := (List.range w).map fun j => b + j * (8 / Nat.max w 1)

/-- The lowest base at which a team of weight w finds its slots free (02 R33). -/
def baseFor (taken : List Nat) (w : Nat) : Option Nat :=
  (List.range (8 / Nat.max w 1)).find? fun b => (slotsOf w b).all fun x => !taken.contains x

/-- Bases for n teams of equal weight, or none. -/
def basesFor (w : Nat) : Nat → List Nat → Option (List Nat)
  | 0, _ => some []
  | n + 1, taken =>
    match baseFor taken w with
    | none => none
    | some b => (basesFor w n (taken ++ slotsOf w b)).map fun bs => b :: bs

/-- Slots that the resident teams of a core own. -/
def takenSlots (s : State) (core : Nat) : List Nat := (teamsOn s core).flatMap fun t => slotsOf t.weight t.base

/-- Reservation-table entries and tiles of a cluster's engine that its resident blocks hold, or that are kept for parts of
gangs (02 R32, R61). -/
def engineUse (s : State) (cluster : Nat) : Nat × Nat :=
  let held := s.blocks.foldl (fun a e =>
    if e.2.st = .resident && clusterOfCore e.2.core = cluster && usesEngine (launchOf s e.2.launch) then (a.1 + 1, a.2 + e.2.tiles)
    else a) (0, 0)
  (s.partitions.flatMap fun e => e.2.reserved).foldl (fun a r =>
    if clusterOfCore r.core = cluster && usesEngine (launchOf s r.launch) then
      (a.1 + r.blocks, a.2 + r.blocks * launchTiles (launchOf s r.launch))
    else a) held

/-- Whether a core in service has room for k blocks of n teams of a launch, beside m blocks of it that are about to take
entries of the cluster's engine. -/
def roomFor (s : State) (l : Launch) (k n m core : Nat) : Bool :=
  let c := coreOf s core
  let ts := teamsOn s core
  let (e, t) := engineUse s (clusterOfCore core)
  !isFirmwareCore core && !c.gated && !c.closed && c.latch = some l.world
    && (quadOf s (quadOfCore core)).thermal != 2 && !(usesEngine l && (engineOf s (clusterOfCore core)).removed)
    && decide ((ts.map (·.weight)).sum + k * n * launchWeight l ≤ 8)
    && (basesFor (launchWeight l) (k * n) (takenSlots s core)).isSome
    && decide ((ts.map fun x => x.frame * x.lanes).sum + k * n * launchFrame l * launchLanes l ≤ 65536)
    && decide (((blocksOn s core).map fun b => stashSizeOf s b).sum + k * launchStash l ≤ 524288)
    && setsFit c [launchContext l]
    && (!usesEngine l || (decide (e + m + k ≤ 16) && decide (t + (m + k) * launchTiles l ≤ 32)))

/-- Whether a core in service has room for one block of n teams of a launch (02 R31). -/
def roomOn (s : State) (l : Launch) (n core : Nat) : Bool := roomFor s l 1 n 0 core

/-- Whether a core in service has room for a saved block: for its live teams, and charge sets for what they work for (02 R31,
03 R72). -/
def roomAgain (s : State) (bid : Nat) (l : Launch) (core : Nat) : Bool :=
  roomOn s l (liveCount s bid) core && setsFit (coreOf s core) (launchContext l :: heldContexts s bid)

/-! ### Restoring (12 R365, 19 R444-R446) -/

/-- Give a block's teams their slots on a core. -/
def seatTeams (bases : List Nat) : List (Nat × Team) → List (Nat × Team)
  | [] => []
  | e :: t =>
    if e.2.retired then e :: seatTeams bases t
    else (e.1, { e.2 with base := bases.headD 0 }) :: seatTeams bases.tail t

/-- The header of a frame is that of its launch (12 R366). -/
def frameHeaderOk (l : Launch) (bs : List (BitVec 8)) : Bool :=
  fieldAt bs 0 4 = 0x15346 && fieldAt bs 4 4 = frameBytes l / 4096

/-- Offsets of a frame whose loss no word's poison can carry: all but registers, stash image and tiles. -/
def frameVital (l : Launch) (off : Nat) : Bool :=
  decide (off < 4096)
    || (decide (off < 4096 + launchTeams l * teamBytes l) && decide ((off - 4096) % teamBytes l < 0x2000 + 8 * launchLanes l))
    || (decide (streamOffset l ≤ off) && decide (off < streamOffset l + 4096))

/-- The lowest free reservation-table entry of a cluster's engine (10 R284). -/
def freeEntry (s : State) (cluster : Nat) : Nat :=
  let used := (s.blocks.filter fun e => e.2.st = .resident && clusterOfCore e.2.core = cluster
    && usesEngine (launchOf s e.2.launch)).map (·.2.entry)
  ((List.range 16).find? fun i => !used.contains i).getD 0

/-- The block and teams that a frame gives, seated on a core. A stream failure that came meanwhile is delivered
(10 R307). -/
def unpackFrame (bid core : Nat) (b : Block) (l : Launch) (bs : List (BitVec 8)) (bad : List Nat) : Act Unit := do
  let s ← get
  let b' := blockOfBytes b bs
  let area := fun i => (bs.drop (4096 + i * teamBytes l)).take (teamBytes l)
  let ts := (s.teams.filter fun e => e.2.bid = bid).map fun e =>
    if e.2.retired then e
    else (e.1, teamOfBytes e.2 (area e.2.idx) fun off => inSectors bad (4096 + e.2.idx * teamBytes l + off))
  let live := (ts.filter fun e => !e.2.retired).length
  let bases := (basesFor (launchWeight l) live (takenSlots s core)).getD []
  let image := (bs.drop (4096 + launchTeams l * teamBytes l)).take b.stashSize
  let part := (bs.drop (streamOffset l)).take 4096
  let tiles := bs.drop (streamOffset l + 4096)
  let stream := if usesEngine l then streamOfBytes part else Stream.idle
  modify fun s => { s with teams := (seatTeams bases ts).foldl (fun t e => put t e.1
    { e.2 with sfaultPc := pcOf stream.pc stream.slot, sfaultCause := stream.fault }) s.teams }
  setBlock bid { b' with
    core := core
    st := .resident
    away := none
    streamOwed := 0
    chunks := []
    preempt := .none
    trigger := none
    stash := putBytes [] 0 image
    stashPoison := (List.range (b.stashSize / 4)).filter fun w => inSectors bad (4096 + launchTeams l * teamBytes l + 4 * w)
    stream := stream
    entry := freeEntry s (clusterOfCore core)
    tile := if usesEngine l then
      (List.range (4096 * b.tiles)).foldl (fun t k => wr t k (BitVec.ofNat 32 (fieldAt tiles (4 * k) 4))) [] else []
    tilePoison := if usesEngine l then
      (List.range (4096 * b.tiles)).filter fun k => inSectors bad (streamOffset l + 4096 + 4 * k) else [] }
  modCore core fun c => { c with code := [] }
  each (b.ctx :: heldContexts s bid) fun x => addCharge core x 0
  if b.streamOwed ≠ 0 && stream.bound then do
    streamFault bid b.streamOwed
    settleBlock bid
  else pure ()

/-- Restore a saved block onto a core that has room: a device-scope acquire, then its frame. A slice that
refuses leaves it as it was; a frame that cannot be read is lost (19 R444). -/
def restoreBlock (bid core va : Nat) (queue : Bool) : Act Unit := do
  let s ← get
  match find? s.blocks bid with
  | none => pure ()
  | some b =>
    let l := launchOf s b.launch
    let r := { frameReq b with src := routerOfCluster (clusterOfCore core), core := some core }
    match ← attempt (readSectors r b.ctx va (sectorsOf (frameBytes l / 64 + 2) va (frameBytes l))) with
    | .error (.wait _) => pure ()
    | .error e => frameLost bid b (stopCause e) queue
    | .ok (bs, bad) =>
      if !frameHeaderOk l bs then frameLost bid b 0 queue
      else if bad.any (frameVital l) then frameLost bid b (causeCode .dataError) queue
      else do
        acquireWide core
        dropParkTriggers bid
        unpackFrame bid core b l bs bad

/-- A block leaves its tenant queue. -/
def unqueue (bid : Nat) : Act Unit := do
  match find? (← get).blocks bid with
  | none => pure ()
  | some b => modPartition b.part fun p =>
      match find? p.tenants b.world with
      | none => p
      | some t => { p with tenants := put p.tenants b.world { t with requeued := dropAll t.requeued bid } }

end Sys2Proof.Machine
end

