-- ==== Sys2Proof/Machine/Parking.lean ====
section
/-! DEFINITION. JOINC and its patience, resumable faults and their resolution, and the events that save and
flush blocks (02 R60; 03 R78; 04 R100; 11 R329, R330; 19 R442, R461). -/
namespace Sys2Proof.Machine
open Sys2Proof

/-! ### JOINC (11 R329, 02 R60) -/

/-- The one-shot entry whose action ends a parked join. -/
def parkEntry (b : Block) (ia cmp : Nat) (target : DWord) (bid idx arm : Nat) : Trigger :=
  { counter := ia, cmp := cmp, action := 0, standing := false, target := target, operand := 0, ring := 0, value := 0
    step := 0, ctx := b.ctx, world := b.world, fires := 0, owed := false, parked := some (bid, idx, arm) }

/-- Park a block for a join: it is saved and a one-shot entry is armed, when an entry is free and the
counter's home is here and answers (19 R461). An arming that is refused after all sends the block back to its queue. -/
def parkBlock (bid idx arm ia cmp : Nat) (target : DWord) : Act Unit := do
  let s ← get
  match find? s.blocks bid with
  | none => pure ()
  | some b =>
    match find? s.partitions b.part with
    | none => pure ()
    | some p =>
      if b.st = .resident && saveReady s bid b && (freeTrigger p).isSome && (peerOf s ia).isNone then do
        let e := parkEntry b ia cmp target bid idx arm
        match ← attempt (sliceRead (frontReq b.part (some e.ctx) e.world) ia 8 .read) with
        | .error (.wait _) => pure ()
        | _ =>
          if ← saveBlock bid b.frameVa .parked false then
            match ← attempt (armTrigger b.part e) with
            | .ok i => modBlock bid fun x => if x.st = .parked then { x with trigger := i } else x
            | .error _ => requeueHead bid
          else pure ()
      else pure ()

/-- Whether a block has left its core. -/
def hasLeft (s : State) (bid : Nat) : Bool :=
  match find? s.blocks bid with
  | some b => b.st != .resident
  | none => true

/-- JOINC's body: the wait of WAITC with a patience, which ends at a time that the context's patience gives as the wait
begins (11 R330); a patience of 0 parks at once, and the arm goes on from its JOINC when the block is back. -/
def joincBody (cmp sc : Nat) (a b : Opnd) (c : Cx) : Act Next := do
  takeStreamFault c
  let va := (opScalar c a).toNat
  let target := (opScalar c b).toNat
  alignScalar c va .read 8
  if ← satisfied c va 8 cmp target then do
    acquireAt c sc
    mergeFlags c va
    deliverAsync c sc
    pure .on
  else do
    let s ← get
    let patience := (contextOf s c.b.ctx).jpat
    if patience = 0 then do
      let ia ← plainIa c va .read
      modArm c.tid c.arm fun x => { x with redo := none }
      parkBlock c.t.bid c.t.idx c.arm ia cmp (BitVec.ofNat 64 target)
    else pure ()
    if hasLeft (← get) c.t.bid then throw (.wait .retry)
    else startWait c va cmp target (some (s.time + patience))

/-- JOINC (11 R329). -/
def execJoinc (cmp sc : Nat) (a b : Opnd) (s : State) : Host.Outcome State Fault Refusal :=
  teamStep (fun _ => waitSig 0xd4 sc (decide (cmp < 3)) a b) (joincBody cmp sc a b) s

/-- JOIN_PATIENCE_EXPIRED (02 R60): the patience of a waiting JOINC has run out. -/
def patienceOver (tid arm : Nat) : Act Unit := do
  let s ← get
  match cxOf s tid arm .t with
  | none => pure ()
  | some c =>
    match c.a.wait with
    | .joinc _ ia cmp target _ until_ =>
      if until_ ≤ s.time then parkBlock c.t.bid c.t.idx arm ia cmp target else pure ()
    | _ => pure ()

/-- JOIN_PATIENCE_EXPIRED (02 R60). -/
def execJoinPatienceExpired (tid arm : Nat) (s : State) : Host.Outcome State Fault Refusal :=
  eventStep (patienceOver tid arm) s

/-! ### Resumable faults (04 R100) -/

/-- The function of a world, whose guest resolves its stage-1 faults. -/
def guestOf (s : State) (world : Nat) : Option Nat := (s.fns.find? fun e => e.2.world = some world).map (·.1)

/-- A fault takes a counter of its partition's pool with a one-shot trigger on it, and its record goes to the resolver's
queue: the guest's for stage 1, the host's for stage 2 (04 R100). The record in its posted state is the armed trigger: the
pool of 1,024 counters is the firmware's own and takes no entry of the table of 02 R54 (log entry 44). -/
def postFault (part id : Nat) : Act Unit := do
  match find? (← get).faults id with
  | none => pure ()
  | some f => do
    modPartition part fun p => { p with faultFree := p.faultFree - 1, faultWait := dropAll p.faultWait id }
    modify fun s =>
      { s with faults := put s.faults id { f with state := 2 }
               hostBox := s.hostBox ++ [.fault id (if f.stage = 1 then guestOf s f.world else none) f.stage f.world f.addr] }

/-- A fault is taken up: a counter when one is free and none waits before it, else its place in the
queue. -/
def takeUpFault (part id : Nat) : Act Unit := do
  let s ← get
  match find? s.partitions part, find? s.faults id with
  | some p, some f =>
    if 0 < p.faultFree && p.faultWait.isEmpty then postFault part id
    else do
      setPartition part { p with faultWait := p.faultWait ++ [id] }
      modify fun s => { s with faults := put s.faults id { f with state := 1 } }
  | _, _ => pure ()

/-- Whether a fault of a block's teams has been posted to its resolver. -/
def postedFor (s : State) (b : Block) : Bool :=
  b.faults.any fun f => match find? s.faults f with
    | some x => x.state = 2 && x.op.isNone && x.stream = 0
    | none => false

/-- A block with a posted fault of a core's access is saved; its teams stop until then. -/
def parkForFault (bid : Nat) : Act Unit := do
  let s ← get
  match find? s.blocks bid with
  | none => pure ()
  | some b =>
    if b.st = .resident && postedFor s b then do
      setBlock bid { b with preempt := .save }
      saveHome bid
    else pure ()

/-- RESUMABLE_FAULT (04 R100): the block's new faults are taken up, once nothing else is owed to it. -/
def takeUpFaults (bid : Nat) : Act Unit := do
  let s ← get
  match find? s.blocks bid with
  | none => pure ()
  | some b =>
    let new := b.faults.filter fun f => match find? s.faults f with
      | some x => x.state = 0
      | none => false
    each new (takeUpFault b.part)
    parkForFault bid

/-- RESUMABLE_FAULT (04 R100). -/
def execResumableFault (bid : Nat) (s : State) : Host.Outcome State Fault Refusal := eventStep (takeUpFaults bid) s

/-- FAULT_COUNTER_GRANT (04 R100): the oldest waiting fault of a partition takes a counter. -/
def grantCounter (part : Nat) : Act Unit := do
  let s ← get
  match find? s.partitions part with
  | none => pure ()
  | some p =>
    match p.faultWait with
    | [] => pure ()
    | id :: _ =>
      if p.faultFree = 0 then pure ()
      else do
        postFault part id
        match find? s.faults id with
        | some f => parkForFault f.bid
        | none => pure ()

/-- FAULT_COUNTER_GRANT (04 R100). -/
def execFaultCounterGrant (part : Nat) (s : State) : Host.Outcome State Fault Refusal := eventStep (grantCounter part) s

/-- The lanes that stand on a fault have failed: the VA of the lowest failed lane is kept (17 R405). -/
def redoLost (r : Redo) : Redo :=
  let low := decide (lowestLane r.stands < lowestLane r.failed)
  { r with
    fault := none
    failed := r.failed ||| r.stands
    stands := 0
    cls := if low then r.cls % 16 else r.cls
    detail := if low then r.va else r.detail }

/-- An arm whose fault has been resolved; a failure is that of the lanes that stand on it. -/
def resolveArm (id : Nat) (ok : Bool) (x : Arm) : Arm :=
  match x.redo with
  | none => x
  | some r =>
    if r.fault = some id then
      { x with
        wait := if x.wait = .fault then .retry else x.wait
        redo := some (if ok then { r with fault := none, stands := 0 } else redoLost r) }
    else x

/-- An operation whose fault has been resolved (10 R317): it goes on at done, or ends once nothing is outstanding. -/
def resolveOp (ok : Bool) (o : EngineOp) : EngineOp :=
  match o.phase with
  | .holding _ =>
    if ok then { o with phase := if o.node && o.sent = 0 then .armed else .active }
    else if isPeerKind o.kind then
      let at_ := if o.kind = .rget then o.done else o.sent
      peerSettled { o with failedAt := lowestFailure o.failedAt at_ 1, phase := .peer }
    else { o with phase := .faulting 1 }
  | _ => o

/-- FAULT_RESOLUTION (04 R100): the resolver's word. The counter returns to the pool; the block, stream or
operation goes on, or learns of the failure. -/
def resolveFault (id : Nat) (ok : Bool) : Act Unit := do
  let s ← get
  match find? s.faults id with
  | none => pure ()
  | some f =>
    if f.state ≠ 2 then pure ()
    else do
      modify fun s => { s with faults := del s.faults id }
      match find? s.blocks f.bid with
      | none => pure ()
      | some b => do
        modPartition b.part fun p => { p with faultFree := p.faultFree + 1 }
        setBlock f.bid { b with faults := dropAll b.faults id }
      match f.op with
      | some o => modOp o (resolveOp ok)
      | none =>
        if f.stream ≠ 0 then do
          modBlock f.bid fun b =>
            let st := b.stream
            { b with stream := { st with wait := if st.wait = .fault then .none else st.wait } }
          if ok then pure ()
          else do
            streamFault f.bid f.stream
            settleBlock f.bid
        else do
          modify fun s => { s with teams := s.teams.map fun e =>
            if e.2.bid = f.bid then (e.1, { e.2 with a0 := e.2.a0.map (resolveArm id ok), a1 := e.2.a1.map (resolveArm id ok) })
            else e }
          match find? (← get).blocks f.bid with
          | none => pure ()
          | some b => if b.st = .parked then requeueHead f.bid else pure ()

/-- FAULT_RESOLUTION (04 R100). -/
def execFaultResolution (fault : Nat) (ok : Bool) (s : State) : Host.Outcome State Fault Refusal :=
  eventStep (resolveFault fault ok) s

/-! ### Saves and flushes as events -/

/-- BLOCK_SAVE (12 R365): a block chosen to be saved is saved, once nothing is owed to it. -/
def execBlockSave (bid : Nat) (s : State) : Host.Outcome State Fault Refusal :=
  eventStep (do
    match find? (← get).blocks bid with
    | some b => if b.preempt = .save then saveHome bid else pure ()
    | none => pure ()) s

/-- BLOCK_FLUSH (05 R151): a block chosen to be flushed restarts from its entry. -/
def execBlockFlush (bid : Nat) (s : State) : Host.Outcome State Fault Refusal :=
  eventStep (do
    match find? (← get).blocks bid with
    | some b => if b.preempt = .flush && b.st = .resident then flushBlock bid true else pure ()
    | none => pure ()) s

end Sys2Proof.Machine
end

