-- ==== Sys2Proof/Machine/Launches.lean ====
section
/-! DEFINITION. A partition's launch queue: entries it takes, records it accepts or refuses, and the ends of
launches (02 R26, R59; 12 R354-R356; 15 R394; 19 R457-R460). -/
namespace Sys2Proof.Machine
open Sys2Proof

/-! ### The check of a record (12 R355, 02 R26) -/

/-- Ones of a number below 2^n. -/
def onesIn (n x : Nat) : Nat := ((List.range n).filter fun i => bitSet x i).length

/-- Reserved fields are zero. -/
def recordClean (l : Launch) : Bool :=
  let w := launchWord l
  bitsOf (w 4) 36 28 = 0 && ([5, 6, 7, 8, 9, 10].all fun i => bitsOf (w i) 49 15 = 0)
    && bitsOf (w 11) 25 7 = 0 && !bitSet (w 11) 46 && bitsOf (w 11) 57 7 = 0 && bitsOf (w 12) 32 32 = 0
    && bitsOf (w 18) 32 32 = 0 && bitsOf (w 20) 16 48 = 0 && bitsOf (w 23) 17 47 = 0
    && ((List.range 8).all fun i => w (56 + i) = 0)

/-- One field's width and extent: an extent of 0 for a width of 0 stands for 1. -/
def fieldOk (l : Launch) (i : Nat) : Bool :=
  let raw := bitsOf (launchWord l (5 + i)) 0 49
  let x := if fieldWidth l i = 0 && raw = 0 then 1 else raw
  decide (1 ≤ x) && decide (x ≤ 2 ^ fieldWidth l i)

/-- The limits of R26. -/
def widthsOk (l : Launch) : Bool :=
  let w := fieldWidth l
  ([0, 1, 2, 3, 4, 5].all (fieldOk l))
    && decide (5 ≤ w 0) && decide (w 0 ≤ 10) && decide (32 ≤ fieldExtent l 0) && decide (fieldExtent l 0 ≤ 1024)
    && fieldExtent l 0 % 32 = 0
    && decide (w 1 ≤ 3) && decide (w 2 ≤ 48) && decide (w 3 ≤ 48) && decide (w 4 ≤ 4) && decide (w 5 ≤ 48)
    && (w 3 = 0 || decide (fieldExtent l 2 ≤ 16))
    && decide (w 0 + w 1 + w 2 + w 3 + w 4 + w 5 ≤ 64)

/-- One block fits an empty program core (02 R31). -/
def blockFits (l : Launch) : Bool :=
  decide (launchTeams l * launchWeight l ≤ 8) && decide (launchTeams l * launchFrame l * launchLanes l ≤ 65536)
    && decide (launchStash l ≤ 524288)

/-- Blocks of a launch that one empty core holds at once. -/
def perCore (l : Launch) : Nat :=
  let a := 8 / (launchTeams l * launchWeight l)
  let b := 65536 / (launchTeams l * launchFrame l * launchLanes l)
  Nat.min (Nat.min a b) (if launchStash l = 0 then 8 else 524288 / launchStash l)

/-- Blocks per cohort: 1 for a launch without cohorts (02 R32). -/
def cohortSize (l : Launch) : Nat := if fieldWidth l 3 = 0 then 1 else fieldExtent l 2

/-- A cohort fits a cluster of four program cores (02 R32). -/
def cohortFits (l : Launch) : Bool :=
  fieldWidth l 3 = 0 || (decide (cohortSize l ≤ 4 * perCore l)
    && (!usesEngine l || (decide (cohortSize l ≤ 16) && decide (cohortSize l * launchTiles l ≤ 32))))

/-- Partitions that a gang names are the issuing function's (12 R355). -/
def gangOwned (s : State) (fn : Nat) (l : Launch) : Bool :=
  (List.range 16).all fun i => !bitSet (launchGang l) i || (match find? s.partitions i with
    | some p => p.fn = fn
    | none => false)

/-- Whether a partition accepts a record for a world (12 R355). -/
def recordOk (s : State) (p : Partition) (world : Nat) (l : Launch) : Bool :=
  recordClean l && widthsOk l
    && (if launchGang l = 0 then fieldWidth l 4 = 0 else fieldExtent l 4 = onesIn 16 (launchGang l))
    && launchLanes l = fieldExtent l 0 && launchTeams l = fieldExtent l 1
    && launchEntry l % 32 = 0 && launchStream l % 32 = 0
    && decide (launchFrame l * launchLanes l ≤ 65536)
    && blockFits l && cohortFits l && decide (launchTiles l ≤ 32)
    && (launchSpill l = 0 || (launchSpillSize l % 4096 = 0 && decide (122880 ≤ launchSpillSize l)))
    && (launchFrames l = 0 || decide (0 < launchNframes l))
    && (contextOf s (launchContext l)).world = some world
    && (launchGang l = 0 || gangOwned s ((guestOf s world).getD p.fn) l)

/-! ### Taking entries (02 R59, 15 R394, 19 R459) -/

/-- The cores of a partition in turn, from the one after the last that was served. -/
def coreRing (p : Partition) : List Nat :=
  let cs := coresOf p
  (cs.filter fun c => decide (p.nextCore ≤ c)) ++ cs.filter fun c => decide (c < p.nextCore)

/-- Teams resident on a core with a pending launch. -/
def postingTeams (s : State) (core : Nat) : List Nat :=
  (s.teams.filter fun e => !e.2.pendingLaunch.isEmpty && (match find? s.blocks e.2.bid with
    | some b => b.core = core && b.st = .resident
    | none => false)).map (·.1)

/-- Whether a core has a pending launch, of a team on it or of one that has left. -/
def corePosts (s : State) (core : Nat) : Bool := !(coreOf s core).gone.isEmpty || !(postingTeams s core).isEmpty

/-- A queue without its oldest entry; an empty one is given up. -/
def nextOf (q : List Posted) : List (List Posted) := if (q.drop 1).isEmpty then [] else [q.drop 1]

/-- A pending launch record goes from its core to the front end on the management channel (01 R19). -/
def announceLaunch (part core : Nat) (q : List Posted) : Act Unit := do
  match q with
  | [] => pure ()
  | x :: _ => command (some x.ctx) x.world (coreRouter core) (routerOfFront part) 64

/-- The next pending launch, core by core; among the queues of a core, those of teams that have left it first, the choice
is free. An arm that waits for the place looks again. -/
def takePending (part : Nat) : Act Unit := do
  let s ← get
  match find? s.partitions part with
  | none => pure ()
  | some p =>
    if 64 ≤ p.queue.length then pure ()
    else
      match (coreRing p).find? (corePosts s) with
      | none => pure ()
      | some core => do
        let gone := (coreOf s core).gone
        let ts := postingTeams s core
        match gone with
        | q :: rest => do
          announceLaunch part core q
          setPartition part { p with queue := p.queue ++ q.take 1, nextCore := core + 1 }
          modCore core fun c => { c with gone := nextOf q ++ rest }
        | [] => do
          let k ← if ts.length = 1 then pure 0 else drawChoice ts.length
          let tid := ts.getD k 0
          match find? (← get).teams tid with
          | none => pure ()
          | some t => do
            announceLaunch part core t.pendingLaunch
            setPartition part { p with queue := p.queue ++ t.pendingLaunch.take 1, nextCore := core + 1 }
            setTeam tid { t with pendingLaunch := t.pendingLaunch.drop 1 }
            wakeRoom

/-- The held actions that may be next in their queue: those behind which no other of that queue stands (19 R459), each with
its place in the list. -/
def heldHeads (hs : List Held) : List (Nat × Held) :=
  (hs.zipIdx.filter fun e => !waitsFor e.1 (hs.take e.2)).map fun e => (e.2, e.1)

/-- The first of some held actions that can be performed is; true when there is one. -/
def takeHeld (part : Nat) : List (Nat × Held) → Act Bool
  | [] => pure false
  | (i, h) :: t => do
    if ← performHeld part i h then pure true else takeHeld part t

/-- PENDING_LAUNCH_TAKE (15 R394): one entry. Held actions go first, each queue's in firing order, and no pending launch
passes a held one (19 R459). -/
def takeEntry (part : Nat) : Act Unit := do
  match find? (← get).partitions part with
  | none => pure ()
  | some p =>
    if ← takeHeld part (heldHeads p.held) then pure ()
    else if p.held.any fun h => heldQueue h = some 0 then pure ()
    else takePending part

/-- PENDING_LAUNCH_TAKE (15 R394). -/
def execPendingLaunchTake (part : Nat) (s : State) : Host.Outcome State Fault Refusal := eventStep (takeEntry part) s

/-! ### Acceptance (12 R355, 19 R457, R458) -/

/-- A release at device scope of a partition: +1 on a counter of a context. -/
def bumpCounter (part ctx world va : Nat) : Act Unit := do
  let (ia, _) ← iaFor ctx va .rmw
  let _ ← counterAdd (frontReq part (some ctx) world) ia 1

/-- The counter of a record that is refused goes up by 1 when it can be written (19 R457). False while a slice refuses the
update. -/
def refusedCounted (part : Nat) (x : Posted) (l : Launch) : Act Bool := do
  let own := (contextOf (← get) (launchContext l)).world = some x.world
  if x.unreadable || launchCounter l = 0 then pure true
  else
    match ← attempt (bumpCounter part (if own then launchContext l else x.ctx) x.world (launchCounter l)) with
    | .error (.wait _) => pure false
    | _ => pure true

/-- A record is refused: its record names it by its IA, with the VA of its counter as the object (19 R457). -/
def refuseRecord (part : Nat) (x : Posted) (l : Launch) : Act Unit := do
  frontRecord part
    { ErrRec.blank with
      type := 10, cls := 19, ctx := if x.unreadable then x.ctx else launchContext l, world := x.world
      info := { DumpInfo.none with object := x.recIa, ia := x.recIa } }
  match x.tid with
  | some t => asyncError t x.ctx x.world (48 * part) 19 0 0 false ⟨8, part, 0⟩ 0 0
  | none => pure ()

/-- The number of blocks of each part of a launch. -/
def partBlocks (l : Launch) : Nat := fieldExtent l 2 * fieldExtent l 3 * fieldExtent l 5

/-- The number of parts: 1 for an ordinary launch. -/
def partCount (l : Launch) : Nat := if launchGang l = 0 then 1 else onesIn 16 (launchGang l)

/-- The partition whose queue holds a launch: its own, or the lowest that a gang names (02 R61). -/
def homePart (part : Nat) (l : Launch) : Nat :=
  if launchGang l = 0 then part else ((List.range 16).find? fun i => bitSet (launchGang l) i).getD part

/-- E_h before any block has retired (03 R78). -/
def firstEh (l : Launch) : Nat := if launchHint l = 0 then 2 ^ 20 else launchHint l

/-- A launch begins: none of its blocks is placed. One that is to be specialised waits for that
(12 R370). -/
def acceptRecord (part : Nat) (x : Posted) (l : Launch) : Act Unit := do
  let id ← freshId
  let s ← get
  setLaunch id { l with
    recIa := x.recIa
    ctx := launchContext l
    world := x.world
    part := homePart part l
    open_ := partCount l * partBlocks l
    eh := firstEh l
    gang := if launchGang l = 0 then .notGang else .queued
    waiting := launchSpecialise l && ((worldOf s x.world).backing).isSome }

/-- LAUNCH_ACCEPT (12 R355): the head of the launch queue. A record of an ended context starts nothing
(17 R412). One that is refused stays at the head while a slice refuses its counter's update (01 R22). -/
def acceptHead (part : Nat) : Act Unit := do
  match find? (← get).partitions part with
  | none => pure ()
  | some p =>
    match p.queue with
    | [] => pure ()
    | x :: _ => do
      let leave := modPartition part fun p => { p with queue := p.queue.drop 1 }
      let s ← get
      let l := { Launch.blank with words := x.words }
      if (find? s.endings x.ctx).isSome || (!x.unreadable && (find? s.endings (launchContext l)).isSome) then leave
      else if !x.unreadable && recordOk s p x.world l && (p.world = none || p.world = some x.world) then do
        leave
        acceptRecord part x l
      else if ← refusedCounted part x l then do
        leave
        refuseRecord part x l
      else pure ()

/-- LAUNCH_ACCEPT (12 R355). -/
def execLaunchAccept (part : Nat) (s : State) : Host.Outcome State Fault Refusal := eventStep (acceptHead part) s

/-! ### The end of a launch (12 R356) -/

/-- Whether an engine operation of a launch's blocks is unfinished, or a bitmap bit is not yet set. -/
def launchBusy (s : State) (id : Nat) : Bool :=
  (s.ops.any fun e => match find? s.blocks e.2.bid with
    | some b => b.launch = id
    | none => false)
  || s.late.any fun x => x.bit.isSome && (find? s.blocks (x.tid / 8)).any fun b => b.launch = id

/-- LAUNCH_COMPLETE (12 R356): every block has retired; the counter goes up by 1 as a device-scope release.
A fault on it ends the context (19 R460). A slice that refuses leaves the launch to complete later. -/
def completeLaunch (id : Nat) : Act Unit := do
  let s ← get
  match find? s.launches id with
  | none => pure ()
  | some l =>
    if l.ended || l.open_ ≠ 0 || launchBusy s id then pure ()
    else
      let done := do
        modify fun s => { s with blocks := s.blocks.filter fun e => e.2.launch != id }
        setLaunch id { l with ended := true, gang := if l.gang = .notGang then .notGang else .done }
      if launchCounter l = 0 || (find? s.endings l.ctx).isSome then done
      else
        match ← attempt (bumpCounter l.part l.ctx l.world (launchCounter l)) with
        | .ok _ => done
        | .error (.wait _) => pure ()
        | .error e => do
          done
          endContext l.ctx ⟨2, stopClass e, 0, 0x3ff, 0, DumpInfo.none, ⟨8, l.part, 0⟩⟩

/-- LAUNCH_COMPLETE (12 R356). -/
def execLaunchComplete (launch : Nat) (s : State) : Host.Outcome State Fault Refusal := eventStep (completeLaunch launch) s

end Sys2Proof.Machine
end

