-- ==== Sys2Proof/Machine/Schedule.lean ====
section
/-! DEFINITION. The work distributor and the tenant queues: placing and restoring blocks, dispatch rounds,
relatching and removal of cores, and gangs (02 R31-R33, R61, R62; 03 R80; 11 R347; 12 R357, R361-R365;
19 R448-R453, R456). -/
namespace Sys2Proof.Machine
open Sys2Proof

/-! ### New blocks (12 R357, R363) -/

/-- The linear index of the k-th block of part j (02 R26, R27). -/
def linearOf (l : Launch) (j k : Nat) : Nat :=
  let e2 := fieldExtent l 2
  let e3 := fieldExtent l 3
  let w := fieldWidth l
  k % e2 + 2 ^ w 2 * (k / e2 % e3 + 2 ^ w 3 * (j + 2 ^ w 4 * (k / e2 / e3)))

/-- The part of a gang that a partition runs: the j-th lowest one named (12 R362). -/
def partIndex (l : Launch) (part : Nat) : Nat := if launchGang l = 0 then 0 else onesIn part (launchGang l)

/-- A block of a launch that has not been placed. -/
def newBlock (s : State) (id part : Nat) (linear : Nat) : Block :=
  let l := launchOf s id
  { launch := id, linear := linear, ctx := l.ctx, world := l.world, part := part, core := 0, frameIx := none
    frameVa := 0, st := .pending, nteams := launchTeams l, retired := 0, residual := false, spent := 0
    seen := 0, judged := 0, measured := 0, away := none, streamOwed := 0
    stashSize := launchStash l, stash := [], stashPoison := [], regions := [], chunks := [], bgen := 0, barrived := 0
    nbar := [], stream := Stream.idle, entry := 0, tiles := launchTiles l, tile := [], tilePoison := []
    preempt := .none, trigger := none, faults := [] }

/-- An arm at the start of a launch. -/
def newArm (pc lanes : Nat) : Arm :=
  ⟨pc, 1, fullMask lanes, modeStart, none, Stack.empty, [], .none, [], false, none, pc, none, none, 0, none, [], []⟩

/-- A team at the start of a launch: every lane live, every register zero (02 R29, 07 R195, R197). -/
def newTeam (bid idx : Nat) (l : Launch) (entry base : Nat) : Team :=
  { bid := bid, idx := idx, lanes := launchLanes l, weight := launchWeight l, base := base, frame := launchFrame l
    w := 0, lo := 0, lane := List.replicate (launchLanes l) Lane.start, v := [], vPoison := [], sreg := [], mreg := []
    stack := Stack.empty, pushes := 0, split := false, last := 1, a0 := some (newArm entry (launchLanes l)), a1 := none
    task := none, mark := 0, nbWait := [], aerr := AErr.none, mabs := false, sfault := false, sfaultPc := 0
    sfaultCause := 0, pendingLaunch := [], posted := [], firmware := false, retired := false }

/-- Whether two ranges share an address. -/
def rangesMeet (a n b m : Nat) : Bool := decide (a < b + m) && decide (b < a + n)

/-- Frames of a world's pool that its blocks hold: address and size. -/
def poolHeld (s : State) (world : Nat) : List (Nat × Nat) :=
  (s.blocks.filter fun e => e.2.world = world && e.2.frameIx.isSome && launchFrames (launchOf s e.2.launch) = 0).map
    fun e => (e.2.frameVa, frameBytes (launchOf s e.2.launch))

/-- The lowest place of n bytes in a world's frame pool, which is counted in pages of 4 KiB (log entry
18). -/
def poolPlace (s : State) (world n : Nat) : Option Nat :=
  match (worldOf s world).pool with
  | none => none
  | some (va, pages) =>
    let held := poolHeld s world
    ((va :: held.map fun h => h.1 + h.2).mergeSort fun a b => decide (a ≤ b)).find? fun x =>
      decide (va ≤ x) && decide (x + n ≤ va + 4096 * pages) && !(held.any fun h => rangesMeet x n h.1 h.2)

/-- The lowest free frame index of a launch and where its frame lies (12 R357). -/
def frameFor (s : State) (l : Launch) : Option (Nat × Nat) :=
  match (List.range (l.frames.length + 1)).find? fun i => !l.frames.contains i with
  | none => none
  | some i =>
    if launchFrames l ≠ 0 then if i < launchNframes l then some (i, launchFrames l + i * frameBytes l) else none
    else (poolPlace s l.world (frameBytes l)).map fun va => (i, va)

/-- Whether the launch's blocks run residual code, in every partition of a gang: its entry is ready (12 R370). -/
def startsResidual (s : State) (l : Launch) : Option (Nat × SpecEntry) :=
  match l.spec, (worldOf s l.world).backing with
  | some key, some base => ((specEntries s l.world).find? fun e => e.key = key && e.st = 1).map fun e => (base, e)
  | _, _ => none

/-- Start a pending block on a core: frame index, slots, teams, engine entry and charge set; the start is
a device-scope acquire (05 R146). -/
def startBlock (bid core : Nat) : Act Unit := do
  let s ← get
  match find? s.blocks bid with
  | none => pure ()
  | some b =>
    let l := launchOf s b.launch
    match frameFor s l, basesFor (launchWeight l) (launchTeams l) (takenSlots s core) with
    | some (i, va), some bases => do
      let spec := startsResidual s l
      let entry := match spec with
        | some (base, e) => base + e.code
        | none => launchEntry l
      acquireWide core
      modCore core fun c => { c with code := [] }
      modLaunch b.launch fun l => { l with frames := l.frames ++ [i] }
      setBlock bid { b with
        core := core, frameIx := some i, frameVa := va, st := .resident, residual := spec.isSome
        entry := freeEntry s (clusterOfCore core) }
      each (List.range (launchTeams l)) fun t => setTeam (bid * 8 + t) (newTeam bid t l entry (bases.getD t 0))
      addCharge core b.ctx 0
      wakeUnit (quadOfCore core) (clusterOfCore core % 12)
      noteRefs bid
    | _, _ => pure ()

/-! ### Choosing a core (12 R363) -/

/-- The core with the fewest resident teams; a tie goes to the lower number. -/
def fewestTeams (s : State) (cs : List Nat) : Option Nat :=
  cs.foldl (fun a c => match a with
    | none => some c
    | some x => if (teamsOn s c).length < (teamsOn s x).length then some c else some x) none

/-- A core of a list with room for a block; a gated cluster only when no other has room (21 R509). -/
def chooseCore (s : State) (room : Nat → Bool) (cs : List Nat) : Option Nat :=
  let fit := cs.filter room
  let on := fit.filter fun c => unitOn s (quadOfCore c) (clusterOfCore c % 12)
  fewestTeams s (if on.isEmpty then fit else on)

/-- Cores of a partition that no gang reserves. -/
def openCores (p : Partition) : List Nat := (coresOf p).filter fun c => !(p.reserved.any fun r => r.core = c)

/-- Writes of a block that a slice has refused and that are still to be made (05 R151). -/
def writesOwed (s : State) (bid : Nat) : Bool := s.late.any fun x => x.tid / 8 = bid

/-- The requests of a block's last stay, of the teams and operations that are gone, which have no answer from their peers
yet (05 R151). -/
def answersOwed (s : State) (bid : Nat) : Bool := (askersOf s).any fun a => a.bid = bid

/-- Place a list of pending blocks on cores of a list, all or none. A block starts only once the writes of its last stay
have been made (05 R151). -/
def placeAll (cs : List Nat) : List Nat → Act Bool
  | [] => pure true
  | bid :: t => do
    let s ← get
    match find? s.blocks bid with
    | none => pure false
    | some b =>
      let l := launchOf s b.launch
      if (frameFor s l).isNone || writesOwed s bid || answersOwed s bid then pure false
      else
        match chooseCore s (roomOn s l (launchTeams l)) cs with
        | none => pure false
        | some core => do
          startBlock bid core
          placeAll cs t

/-- Do an action that answers whether it took, and undo it when it did not. -/
def allOrNone (m : Act Bool) : Act Bool := do
  let s ← get
  if ← m then pure true
  else do
    set s
    pure false

/-- The cores of a cluster. -/
def clusterCores (k : Nat) : List Nat := (List.range 4).map (4 * k + ·)

/-- Clusters of a list of cores, lowest first, whose four cores are all in it, in service and latched to a world
(02 R32, 12 R363). -/
def wholeClusters (s : State) (world : Nat) (cs : List Nat) : List Nat :=
  (List.range 192).filter fun k => (clusterCores k).all fun c =>
    cs.contains c && (coreOf s c).latch = some world && !(coreOf s c).gated && !(coreOf s c).closed

/-- Whether a launch's blocks go in cohorts: its field 3 has a width (02 R32). -/
def inCohorts (l : Launch) : Bool := fieldWidth l 3 != 0

/-- Where a cohort of a world may go: for each whole cluster of a partition, those of its cores that are in a list. -/
def cohortSites (s : State) (part world : Nat) (cs : List Nat) : List (List Nat) :=
  let own := match find? s.partitions part with
    | some p => coresOf p
    | none => []
  (wholeClusters s world own).map fun k => (clusterCores k).filter cs.contains

/-- Try the sites of a cohort in order until one takes. -/
def firstSite (f : List Nat → Act Bool) : List (List Nat) → Act Bool
  | [] => pure false
  | c :: t => do if ← f c then pure true else firstSite f t

/-- Place the next block of part j of a launch, or its next cohort, on cores of a list. -/
def placeFresh (id part j : Nat) (cs : List Nat) : Act Bool := do
  let s ← get
  let l := launchOf s id
  let k := (find? l.next j).getD 0
  let n := cohortSize l
  let make : Act (List Nat) := collect (List.range n) fun i => do
    let bid ← freshId
    setBlock bid (newBlock s id part (linearOf l j (k + i)))
    pure bid
  let mark : Act Unit := modLaunch id fun l => { l with next := put l.next j (k + n) }
  let go : List Nat → Act Bool := fun cs => allOrNone do
    let bs ← make
    mark
    placeAll cs bs
  if inCohorts l then firstSite go (cohortSites s part l.world cs) else go cs

/-! ### The tenant queue (12 R361, 03 R80) -/

/-- What a tenant queue holds: a re-queued block, a launch's next block of part j, or a gang to be
reserved. -/
inductive Cand where
  | again (bid : Nat)
  | fresh (id j : Nat)
  | gang (id : Nat)
deriving DecidableEq, Repr

/-- A context's work may be dispatched. -/
def contextReady (s : State) (x : Nat) : Bool :=
  (contextOf s x).enable && !(contextOf s x).barred && decide (0 < (contextOf s x).level) && (find? s.endings x).isNone

/-- A gang's blocks go only while it runs (02 R61). -/
def gangRuns (l : Launch) : Bool := l.gang = .notGang || l.gang = .running

/-- The queue of a tenant in its order. -/
def tenantQueue (s : State) (part world : Nat) (t : Tenant) : List Cand :=
  let again := t.requeued.filterMap fun id => match find? s.blocks id with
    | some b => if gangRuns (launchOf s b.launch) then some (Cand.again id) else none
    | none => match find? s.launches id with
      | some l => if l.gang = .queued then some (Cand.gang id) else none
      | none => none
  let mine := (s.launches.filter fun e => e.2.world = world && !e.2.ended && !e.2.waiting).mergeSort fun a b =>
    decide (launchPriority b.2 ≤ launchPriority a.2)
  let fresh := mine.filterMap fun e =>
    let l := e.2
    let j := partIndex l part
    let here := if launchGang l = 0 then l.part = part else bitSet (launchGang l) part
    if l.gang = .queued then
      if l.part = part && !t.requeued.contains e.1 then some (Cand.gang e.1) else none
    else if here && gangRuns l && decide ((find? l.next j).getD 0 < partBlocks l) then some (Cand.fresh e.1 j)
    else none
  again ++ fresh

/-- The context of a candidate. -/
def candContext (s : State) : Cand → Nat
  | .again bid => match find? s.blocks bid with
    | some b => b.ctx
    | none => 1024
  | .fresh id _ => (launchOf s id).ctx
  | .gang id => (launchOf s id).ctx

/-- head_ready of R80: the first candidate whose context is ready. -/
def headReady (s : State) (part world : Nat) (t : Tenant) : Option Cand :=
  (tenantQueue s part world t).find? fun c => contextReady s (candContext s c)

/-- The blocks that are placed together with a re-queued block: of a flushed cohort, all that are pending and queued
(02 R32). -/
def placedWith (s : State) (bid : Nat) (b : Block) : List Nat :=
  let l := launchOf s b.launch
  let cohort := fun (x : Block) => x.linear / 2 ^ fieldWidth l 2
  let queued := match find? s.partitions b.part with
    | some p => ((find? p.tenants b.world).getD Tenant.fresh).requeued
    | none => []
  if b.st ≠ .pending || !inCohorts l then [bid]
  else (s.blocks.filter fun e => e.2.launch = b.launch && e.2.st = .pending && cohort e.2 = cohort b
    && queued.contains e.1).map (·.1)

/-- The estimate of a candidate: E_h of its launch (03 R78), for each block that it places. -/
def candEstimate (s : State) : Cand → Nat
  | .again bid => match find? s.blocks bid with
    | some b => (launchOf s b.launch).eh * (placedWith s bid b).length
    | none => 0
  | .fresh id _ => (launchOf s id).eh * cohortSize (launchOf s id)
  | .gang _ => 0

/-- Place a re-queued block: a saved one is restored, a flushed one starts again, a cohort's together in one cluster. -/
def placeAgain (bid : Nat) (cs : List Nat) : Act Bool := do
  let s ← get
  match find? s.blocks bid with
  | none => pure false
  | some b =>
    let l := launchOf s b.launch
    if b.st = .saved then
      match chooseCore s (roomAgain s bid l) cs with
      | none => pure false
      | some core => do
        restoreBlock bid core (frameNow b) true
        match find? (← get).blocks bid with
        | some x =>
          if x.st = .resident then do
            unqueue bid
            wakeUnit (quadOfCore core) (clusterOfCore core % 12)
            pure true
          else pure false
        | none => pure false
    else if b.st = .pending then do
      let ids := placedWith s bid b
      let go : List Nat → Act Bool := fun cs => allOrNone (placeAll cs ids)
      let placed ← if inCohorts l then firstSite go (cohortSites s b.part l.world cs) else go cs
      if placed then do
        each ids unqueue
        pure true
      else pure false
    else do
      unqueue bid
      pure true

/-- The fair queue selects a gang: it begins to reserve (02 R61). -/
def beginReserve (id : Nat) : Act Unit := do
  let s ← get
  modLaunch id fun l => { l with gang := .reserving, granted := [], gangTime := s.time }
  let l := launchOf s id
  modPartition l.part fun p =>
    match find? p.tenants l.world with
    | none => p
    | some t => { p with tenants := put p.tenants l.world { t with requeued := dropAll t.requeued id } }

/-- Place a candidate, when there is room on cores of a list. -/
def placeCand (part : Nat) (cs : List Nat) : Cand → Act Bool
  | .again bid => placeAgain bid cs
  | .fresh id j => placeFresh id part j cs
  | .gang id => do
    beginReserve id
    pure true

/-- Change a tenant's deficit. -/
def modTenant (part world : Nat) (f : Tenant → Tenant) : Act Unit :=
  modPartition part fun p => { p with tenants := put p.tenants world (f ((find? p.tenants world).getD Tenant.fresh)) }

/-- A pressing gang whose request waits at a partition holds up its dispatch (19 R452). -/
def heldByPressing (s : State) (part : Nat) : Bool :=
  s.launches.any fun e => e.2.gang = .reserving && decide (16 ≤ e.2.rollbacks) && bitSet (launchGang e.2) part
    && !e.2.granted.contains part
    && ((List.range part).all fun i => !bitSet (launchGang e.2) i || e.2.granted.contains i)

/-- The cores to which a round sends a candidate: the partition's open ones, or one that has been chosen for it. -/
def sentTo (p : Partition) (chosen : Option (Cand × Nat)) (c : Cand) : List Nat :=
  match chosen with
  | some (x, core) => if x = c then (openCores p).filter (· = core) else openCores p
  | none => openCores p

/-- One tenant's turn of a round: blocks go while there is room and the deficit holds; the first goes
whatever the deficit. A gang that begins to press stops it (19 R452). -/
def tenantTurn (part world : Nat) (chosen : Option (Cand × Nat)) : Nat → Bool → Act Unit
  | 0, _ => pure ()
  | n + 1, first => do
    let s ← get
    match find? s.partitions part with
    | none => pure ()
    | some p =>
      let t := (find? p.tenants world).getD Tenant.fresh
      match (headReady s part world t).filter fun _ => !heldByPressing s part with
      | none => pure ()
      | some c =>
        let est := candEstimate s c
        if first || decide ((est : Int) ≤ t.deficit) then
          if ← placeCand part (sentTo p chosen c) c then
            modTenant part world fun t => { t with deficit := t.deficit - est }
            tenantTurn part world chosen n false
          else pure ()
        else pure ()

/-- Items that a turn can send at most: the blocks that the device's cores hold, and what a queue gives up without a block. -/
def turnBound (s : State) (t : Tenant) : Nat := 768 * 8 + s.launches.length + t.requeued.length + 1

/-- Worlds with work in a partition: its tenants and the worlds of its launches. -/
def tenantWorlds (s : State) (p : Partition) (part : Nat) : List Nat :=
  ((p.tenants.map (·.1)) ++ (s.launches.filter fun e => !e.2.ended
    && (e.2.part = part || bitSet (launchGang e.2) part)).map (·.2.world)).eraseDups.mergeSort fun a b => decide (a ≤ b)

/-- Dispatch stands still for a checkpoint, or for a reset that the host has asked for (13 R388, 21 R505). -/
def dispatchStopped (s : State) : Bool := s.checkpointing || s.resetAsked.isSome

/-- One round over the tenants, in the order of their worlds (03 R80; log entry 19), with the core that has been chosen for
one of their blocks. -/
def roundWith (part : Nat) (chosen : Option (Cand × Nat)) : Act Unit := do
  let s ← get
  match find? s.partitions part with
  | none => pure ()
  | some p =>
    if dispatchStopped s || heldByPressing s part then pure ()
    else each (tenantWorlds s p part) fun w => do
      let s ← get
      match find? s.partitions part with
      | none => pure ()
      | some p =>
        let t := (find? p.tenants w).getD Tenant.fresh
        if (headReady s part w t).isNone then modTenant part w fun t => { t with deficit := min t.deficit 0 }
        else do
          modTenant part w fun t => { t with deficit := min (t.deficit + t.quantum) (4 * t.quantum) }
          tenantTurn part w chosen (turnBound s t) true

/-- DISPATCH_ROUND (03 R80). -/
def dispatchRound (part : Nat) : Act Unit := roundWith part none

/-- DISPATCH_ROUND (03 R80). -/
def execDispatchRound (part : Nat) (s : State) : Host.Outcome State Fault Refusal := eventStep (dispatchRound part) s

/-- BLOCK_RESTORE (12 R365): a round of the queue engine (03 R80) in which the saved block that is first to go in its tenant
queue has been chosen for a core that is still latched to its world and has room; else the block keeps its place (12 R361,
19 R456). -/
def restoreOn (bid core : Nat) : Act Unit := do
  let s ← get
  match find? s.blocks bid with
  | none => pure ()
  | some b =>
    match find? s.partitions b.part with
    | none => pure ()
    | some p =>
      let t := (find? p.tenants b.world).getD Tenant.fresh
      if b.st = .saved && headReady s b.part b.world t = some (.again bid)
          && (openCores p).contains core && roomAgain s bid (launchOf s b.launch) core then
        roundWith b.part (some (.again bid, core))
      else pure ()

/-- BLOCK_RESTORE (12 R365). -/
def execBlockRestore (bid core : Nat) (s : State) : Host.Outcome State Fault Refusal := eventStep (restoreOn bid core) s

/-! ### Cores leaving service (19 R448, R449; 11 R347) -/

/-- A partition without what it keeps for a launch. -/
def letGo (id : Nat) (p : Partition) : Partition :=
  { p with gang := if p.gang = some id then none else p.gang, reserved := p.reserved.filter fun r => r.launch != id }

/-- Every partition lets go what it keeps for a launch. -/
def releaseReserves (id : Nat) : Act Unit :=
  modify fun s => { s with partitions := s.partitions.map fun e => (e.1, letGo id e.2) }

/-- A gang rolls back. -/
def rollBack (id : Nat) : Act Unit := modLaunch id fun l => { l with gang := .rollback }

/-- A pre-empted gang goes back to its queue (02 R61); one that is still reserving rolls back. -/
def requeueGang (id : Nat) : Act Unit := do
  let l := launchOf (← get) id
  if l.gang = .reserving then rollBack id
  else if l.gang = .running || l.gang = .committed then do
    modLaunch id fun l => { l with gang := .queued, granted := [] }
    releaseReserves id
    modTenant l.part l.world fun t => { t with requeued := dropAll t.requeued id ++ [id] }
  else pure ()

/-- Resident blocks pre-empted together with a block: its cohort, or every part of its gang. -/
def movesWith (s : State) (b : Block) : List Nat :=
  let l := launchOf s b.launch
  let cohort := fun (x : Block) => x.linear / 2 ^ fieldWidth l 2
  (s.blocks.filter fun e => e.2.launch = b.launch && e.2.st = .resident
    && (launchGang l != 0 || (fieldWidth l 3 != 0 && cohort e.2 = cohort b))).map (·.1)

/-- A resident block must leave its core: flushed when its launch is idempotent, else saved as soon as
nothing is owed to it. -/
def evictBlock (bid : Nat) : Act Unit := do
  let s ← get
  match find? s.blocks bid with
  | none => pure ()
  | some b =>
    if b.st ≠ .resident then pure ()
    else if launchIdempotent (launchOf s b.launch) then flushSoon bid
    else do
      setBlock bid { b with preempt := .save }
      saveHome bid

/-- Launches that keep a core for their parts. -/
def keptFor (s : State) (core : Nat) : List Nat :=
  (s.partitions.flatMap fun e => e.2.reserved).filterMap fun r => if r.core = core then some r.launch else none

/-- Pre-empt resident blocks, each with its cohort and gang (02 R61, 19 R448). -/
def evictWhole (own : List Nat) : Act Unit := do
  let s ← get
  let all := (own ++ own.flatMap fun i => match find? s.blocks i with
    | some b => movesWith s b
    | none => []).eraseDups
  each all evictBlock
  each (own.filterMap fun i => (find? s.blocks i).map (·.launch)).eraseDups requeueGang

/-- Pre-empt every block of a core, with its cohort and gang, and the gangs for which it is kept. True when none is left
on it. -/
def clearCore (core : Nat) : Act Bool := do
  let s ← get
  evictWhole (blocksOn s core)
  each (keptFor s core).eraseDups requeueGang
  pure (blocksOn (← get) core).isEmpty

/-- The stores of a core are written back and zeroed, and its queue emptied (11 R347 steps 3 and 4, 19
R454). -/
def cleanCore (core : Nat) : Act Unit := do
  promoteWhere core fun _ => true
  backCore core
  modCore core fun c => { c with l1 := [], code := [] }
  emptyTasks core

/-- Whether a tick boundary has still to drain charge sets of a core (11 R347 step 5, 19 R448 step 6). -/
def chargesOwed (s : State) (core : Nat) : Bool := !(coreOf s core).charges.isEmpty

/-- A cleared and drained core takes its new latch (11 R347 step 6). -/
def takeLatch (core : Nat) (to_ : Option Nat) : Act Unit := do
  modCore core fun c => { c with latch := to_, closed := false, coming := none }
  each ((← get).partitions.map (·.1)) placeHeldTasks

/-- Take a core out of service (19 R448, 11 R352): false while a block must still be saved, or a tick boundary must still
drain the core's charge sets. -/
def removeCore (core : Nat) : Act Bool := do
  modCore core fun c => { c with closed := true, leaving := true }
  if ← clearCore core then do
    cleanCore core
    if chargesOwed (← get) core then pure false
    else do
      modCore core fun c => { c with latch := none, gated := true, closed := false, leaving := false, coming := none }
      placeHeldTasks (partOfCore (← get) core)
      pure true
  else pure false

/-- The zeroing of a core's stores has met an uncorrectable error: the core is removed and left gated (19 R456). -/
def storesFailed (core : Nat) : Act Unit := do
  emitRecord (dieOfCore core)
    { ErrRec.blank with type := 6, cls := 6, world := ((coreOf (← get) core).latch).getD 0, core := core }
  let _ ← removeCore core

/-- A change of a core's latch goes on (11 R347): false while a block must still be saved, or a tick boundary must still
drain the core's charge sets. -/
def relatchOn (core : Nat) : Act Bool := do
  match (coreOf (← get) core).coming with
  | none => pure true
  | some to_ =>
    if ← clearCore core then do
      cleanCore core
      if (coreOf (← get) core).stuck then do
        storesFailed core
        pure false
      else if chargesOwed (← get) core then pure false
      else do
        takeLatch core to_
        pure true
    else pure false

/-- Change a core's latch (11 R347). -/
def relatchCore (core : Nat) (to_ : Option Nat) : Act Bool := do
  let c := coreOf (← get) core
  if c.latch = to_ then pure true
  else do
    setCore core { c with closed := true, coming := some to_ }
    relatchOn core

/-- After a boundary's drain, changes of latches and removals of cores go on. -/
def coresGoOn : Act Unit := do
  each (← get).cores fun e => do
    let _ ← attempt (if e.2.leaving then removeCore e.1 else relatchOn e.1)

/-- Latch every program core of quadrants to a world, or to none; whether every core has taken it (12 R364,
11 R347). -/
def latchQuads (quads : List Nat) (world : Option Nat) : Act Bool := do
  let done ← collect (quads.flatMap fun q => (List.range 48).map (48 * q + ·)) fun c =>
    if isFirmwareCore c then pure true else relatchCore c world
  pure (done.all id)

/-- A resize goes on: the cores of the quadrants that leave are cleared, and then the partition has its new
quadrants, whose cores a dedicated partition latches to its world. -/
def goOnResizing (part : Nat) : Act Unit := do
  match find? (← get).partitions part with
  | none => pure ()
  | some p =>
    match p.resizing with
    | none => pure ()
    | some left => do
      if ← latchQuads (p.quads.filter fun q => !left.contains q) none then do
        modPartition part fun p => { p with quads := left, resizing := none }
        if p.world.isSome then do
          let _ ← latchQuads (left.filter fun q => !p.quads.contains q) p.world
          pure ()
        else pure ()
      else pure ()

/-- Among the idle cores of other worlds, the one that has held no block for the longest time, at least
100 µs (12 R364). -/
def longestIdle (s : State) (cs : List Nat) (world : Nat) : Option Nat :=
  let old := cs.filter fun c => (coreOf s c).latch != some world && (blocksOn s c).isEmpty
    && decide ((coreOf s c).idle + 100000 ≤ s.time)
  old.foldl (fun a c => match a with
    | none => some c
    | some x => if (coreOf s c).idle < (coreOf s x).idle then some c else some x) none

/-- Partitions in which a launch has blocks that have never been placed: its own, or its gang's. -/
def unplacedIn (l : Launch) : List Nat :=
  if l.ended || l.waiting then []
  else (if launchGang l = 0 then [l.part] else (List.range 16).filter fun i => bitSet (launchGang l) i).filter fun part =>
    decide ((find? l.next (partIndex l part)).getD 0 < partBlocks l)

/-- The launch and the partitions of a block that is to be placed, or of a launch that has unplaced blocks (12 R361). -/
def queuedItem (s : State) (id : Nat) : Option (Launch × List Nat) :=
  match find? s.blocks id with
  | some b => if b.st = .saved || b.st = .pending then some (launchOf s b.launch, [b.part]) else none
  | none => (find? s.launches id).map fun l => (l, unplacedIn l)

/-- Room that a list of cores gives to so many blocks of a launch, core by core (02 R31, R32). -/
def shareOut (s : State) (id : Nat) (l : Launch) : Nat → List Reserve → List Nat → List Reserve
  | _, got, [] => got
  | left, got, c :: t =>
    let m := ((got.filter fun r => clusterOfCore r.core = clusterOfCore c).map (·.blocks)).sum
    let fits := ((List.range 8).filter fun k => roomFor s l (k + 1) (launchTeams l) m c).length
    let k := Nat.min left fits
    shareOut s id l (left - k) (if k = 0 then got else got ++ [⟨c, id, k⟩]) t

/-- Blocks that a list of reserved cores takes. -/
def blocksIn (rs : List Reserve) : Nat := (rs.map (·.blocks)).sum

/-- Room for whole cohorts, cluster by cluster (02 R32, 12 R363). -/
def shareCohorts (s : State) (id : Nat) (l : Launch) : Nat → List Reserve → List (List Nat) → List Reserve
  | _, got, [] => got
  | left, got, k :: t =>
    let n := blocksIn (shareOut s id l left [] k) / cohortSize l * cohortSize l
    shareCohorts s id l (left - n) (got ++ shareOut s id l n [] k) t

/-- Whether a saved block, a launch's next block, or a cohort of it, finds room on some cores of a partition. -/
def findsRoom (s : State) (id part : Nat) (l : Launch) (cs : List Nat) : Bool :=
  let saved : Bool := match find? s.blocks id with
    | some b => b.st = .saved
    | none => false
  let together := match find? s.blocks id with
    | some b => (placedWith s id b).length
    | none => cohortSize l
  if saved then (chooseCore s (roomAgain s id l) cs).isSome
  else if inCohorts l then (cohortSites s part l.world cs).any fun k => decide (together ≤ blocksIn (shareOut s id l together [] k))
  else (chooseCore s (roomOn s l (launchTeams l)) cs).isSome

/-- The firmware latches a core of a shared partition for a ready block that finds no room there: an unlatched one, or the
one of another world that has been idle longest (12 R364). -/
def relatchIn (id part : Nat) (l : Launch) : Act Unit := do
  let s ← get
  match (find? s.partitions part).filter fun p => p.world.isNone with
  | none => pure ()
  | some p =>
    let cs := (openCores p).filter fun c => !(coreOf s c).gated && !(coreOf s c).closed
    if findsRoom s id part l cs then pure ()
    else
      let pick := match cs.find? fun c => (coreOf s c).latch.isNone with
        | some c => some c
        | none => longestIdle s cs l.world
      match pick with
      | none => pure ()
      | some core => do
        let _ ← relatchCore core (some l.world)

/-- CORE_RELATCH (12 R364), for a ready block or cohort, or a launch's next, in each partition that is to place it. -/
def relatchFor (id : Nat) : Act Unit := do
  let s ← get
  match queuedItem s id with
  | none => pure ()
  | some (l, parts) => if contextReady s l.ctx then each parts fun part => relatchIn id part l else pure ()

/-- CORE_RELATCH (12 R364). -/
def execCoreRelatch (bid : Nat) (s : State) : Host.Outcome State Fault Refusal := eventStep (relatchFor bid) s

/-! ### Gangs (02 R61, R62; 19 R451-R453) -/

/-- Blocks of a gang's part still to be placed, and those of them that are saved. -/
def partLeft (s : State) (id part : Nat) (l : Launch) : Nat :=
  (partBlocks l - (find? l.next (partIndex l part)).getD 0)
    + (s.blocks.filter fun e => e.2.launch = id && e.2.part = part && (e.2.st = .saved || e.2.st = .pending)).length

/-- The allowance of energy that the partitions keep for the parts of gangs of a context: the hint for each block for which
they have reserved room (12 R362). -/
def keptAllowance (s : State) (ctx : Nat) : Nat :=
  ((s.partitions.flatMap fun e => e.2.reserved).map fun r =>
    let l := launchOf s r.launch
    if l.ctx = ctx then launchHint l * r.blocks else 0).sum

/-- What a partition would reserve: room for as many of its part's blocks as fit at once, and an allowance of the hint for
each of them, beside what is kept for others; none when it has not got it (12 R362, log entry 20). -/
def reservable (s : State) (id part : Nat) (l : Launch) (p : Partition) : Option (List Reserve) :=
  let left := partLeft s id part l
  let rs := if inCohorts l then shareCohorts s id l left [] (cohortSites s part l.world (openCores p))
    else shareOut s id l left [] (openCores p)
  if left ≠ 0 && rs.isEmpty then none
  else if decide ((contextOf s l.ctx).level < (keptAllowance s l.ctx + launchHint l * blocksIn rs : Nat)) then none
  else some rs

/-- The next partition that a reserving gang asks. -/
def nextAsked (l : Launch) : Option Nat :=
  (List.range 16).find? fun i => bitSet (launchGang l) i && !l.granted.contains i

/-- GANG_RESERVE_REQUEST (19 R451): the next partition grants, refuses or holds. The last grant commits. -/
def reserveAt (id part : Nat) : Act Unit := do
  let s ← get
  let l := launchOf s id
  if l.gang ≠ .reserving || nextAsked l ≠ some part then pure ()
  else
    match find? s.partitions part with
    | none => rollBack id
    | some p =>
      if p.gang.isSome then pure ()
      else if p.resizing.isSome || !gangOwned s ((guestOf s l.world).getD ((find? s.partitions l.part).map (·.fn) |>.getD 0)) l then rollBack id
      else
        match reservable s id part l p with
        | none => if 16 ≤ l.rollbacks then pure () else rollBack id
        | some rs => do
          setPartition part { p with gang := some id, reserved := p.reserved ++ rs }
          each rs fun r => do
            wakeUnit (quadOfCore r.core) (clusterOfCore r.core % 12)
            wakeUnit (quadOfCore r.core) 12
          let l := { l with granted := l.granted ++ [part] }
          if (nextAsked l).isSome then setLaunch id l
          else do
            setLaunch id { l with gang := .committed, gangTime := s.time + 20000, rollbacks := 0 }
            modify fun s => { s with partitions := s.partitions.map fun e =>
              if e.2.gang = (some id) then (e.1, { e.2 with gang := none }) else e }

/-- GANG_RESERVE_REQUEST (19 R451). -/
def execGangReserveRequest (launch part : Nat) (s : State) : Host.Outcome State Fault Refusal :=
  eventStep (reserveAt launch part) s

/-- GANG_RESERVE_TIMEOUT (02 R61): 50 µs in RESERVING, unless the gang is pressing (19 R452). -/
def execGangReserveTimeout (launch : Nat) (s : State) : Host.Outcome State Fault Refusal :=
  eventStep (do
    let s ← get
    let l := launchOf s launch
    if l.gang = .reserving && decide (l.gangTime + 50000 ≤ s.time) && decide (l.rollbacks < 16) then rollBack launch
    else pure ()) s

/-- GANG_ROLLBACK_DONE (02 R61): every reservation is released and the gang is queued at the head. -/
def rollbackDone (id : Nat) : Act Unit := do
  let l := launchOf (← get) id
  if l.gang ≠ .rollback then pure ()
  else do
    releaseReserves id
    setLaunch id { l with gang := .queued, granted := [], rollbacks := l.rollbacks + 1 }
    modTenant l.part l.world fun t => { t with requeued := dropAll t.requeued id ++ [id] }

/-- GANG_ROLLBACK_DONE (02 R61). -/
def execGangRollbackDone (launch : Nat) (s : State) : Host.Outcome State Fault Refusal := eventStep (rollbackDone launch) s

/-- Place a gang's part on its reserved cores, as many blocks as fit. -/
def startPart (id part : Nat) (cs : List Nat) : Nat → Act Unit
  | 0 => pure ()
  | n + 1 => do
    let s ← get
    let l := launchOf s id
    let j := partIndex l part
    match s.blocks.find? fun e => e.2.launch = id && e.2.part = part && (e.2.st = .saved || e.2.st = .pending) with
    | some e =>
      if ← placeAgain e.1 cs then do
        modTenant part l.world fun t => { t with deficit := t.deficit - l.eh }
        startPart id part cs n
      else pure ()
    | none =>
      if partBlocks l ≤ (find? l.next j).getD 0 then pure ()
      else if ← placeFresh id part j cs then do
        modTenant part l.world fun t => { t with deficit := t.deficit - l.eh * cohortSize l }
        startPart id part cs n
      else pure ()

/-- GANG_START_TICK (02 R62): every part of a committed gang starts. -/
def startGang (id : Nat) : Act Unit := do
  let s ← get
  let l := launchOf s id
  if l.gang ≠ .committed || s.time < l.gangTime || dispatchStopped s then pure ()
  else do
    setLaunch id { l with gang := .running }
    each l.granted fun part => do
      match find? (← get).partitions part with
      | none => pure ()
      | some p => do
        setPartition part (letGo id p)
        startPart id part ((p.reserved.filter fun r => r.launch = id).map (·.core)) 65536

/-- GANG_START_TICK (02 R62). -/
def execGangStartTick (launch : Nat) (s : State) : Host.Outcome State Fault Refusal := eventStep (startGang launch) s

end Sys2Proof.Machine
end

