-- ==== Sys2Proof/Machine/Joules.lean ====
section
/-! DEFINITION. The energy instructions (11 R336-R342; 03 R65-R69, R82; 21 R510). -/
namespace Sys2Proof.Machine
open Sys2Proof

/-! ### Power figures -/

/-- The temperature band of a temperature in degrees (03 R74). -/
def bandOf (temp : Nat) : Nat := if temp < 40 then 0 else if 100 ≤ temp then 7 else (temp - 30) / 10

/-- Milliwatts of an energy in mq over n ticks: 1 mq is 2^-40 J and a tick 16 µs (03 R73, R76). -/
def milliwatts (mq ticks : Nat) : Nat := mq * 62500000 / 2 ^ 40 / Nat.max ticks 1

/-- The temperature band in force in a quadrant: 7 when every thermal sensor has failed (21 R513). -/
def bandIn (s : State) (q : Nat) : Nat := if (quadOf s q).thermal = 3 then 7 else bandOf (quadOf s q).temp

/-- The leakage model of a quadrant at a point, in mq per tick (03 R74). -/
def quadLeakage (s : State) (q p : Nat) : Nat :=
  (List.range 48).foldl (fun a i => a + leakageFigure (48 * q + i) p (bandIn s q)) 0

/-- The leakage model of a partition at a point, in mq per tick. -/
def leakageTick (s : State) (p : Partition) (op : Nat) : Nat := p.quads.foldl (fun a q => a + quadLeakage s q op) 0

/-- The leakage model of a partition at a point, in mW. -/
def partLeakage (s : State) (p : Partition) (op : Nat) : Nat := milliwatts (leakageTick s p op) 1

/-- The energy of some ticks, on the scale of `allowed`. -/
def spentOver (mq : Nat) : Nat := mq * 62500000

/-- What a power in mW allows over n ticks: m mq were within it when `spentOver m` is no more. -/
def allowed (mw n : Nat) : Nat := mw * 2 ^ 40 * n

/-- Whether the estimate of R82 for point p' stays within the allowance: both sides times σ × f and the number
of ticks. D and B are taken over the last 64 ticks. -/
def withinAllowance (s : State) (p : Partition) (now op : Nat) : Bool :=
  let k := sigmaOf now * clockOf now
  let n := Nat.max (p.dynamics.take 64).length 1
  decide (spentOver (p.dynamics.take 64).sum * (sigmaOf op * clockOf op)
    + (spentOver (leakageTick s p op) * n + spentOver (p.bases.take 64).sum) * k ≤ allowed p.mw n * k)

/-! ### Reads -/

/-- The declaration of an energy instruction that writes s_d. -/
def energySig (op : Nat) (d : Opnd) (ok : Bool) : Sig := { plain op [⟨d, .dst, false⟩] .none with operandOk := ok }

/-- Answer a read by s_d. -/
def answer (d : Opnd) (f : State → Cx → DWord) (c : Cx) : Act Next := do
  writeS c d (f (← get) c)
  pure .on

/-- The word at 0x30 of a context energy block (03 R65). -/
def controlWord (x : Context) : Nat :=
  (if x.enable then 1 else 0) + (if x.empty then 2 else 0) + (if x.clamp then 4 else 0) + 8 * (x.world.getD 0)

/-- Field f of a context energy block (11 R337). -/
def energyField (x : Context) (f : Nat) : DWord :=
  if f = 0 then x.account.setWidth 64
  else if f = 1 then (x.account.extractLsb' 64 32).setWidth 64
  else if f = 2 then BitVec.ofInt 64 x.level
  else if f = 3 then BitVec.ofNat 64 x.refill
  else if f = 4 then BitVec.ofNat 64 x.brim
  else if f = 5 then BitVec.ofNat 64 x.last
  else BitVec.ofNat 64 (controlWord x)

/-- ERD (11 R337): the issuing context's energy block. It is that of the block's context, also while the team holds a task of
another (DESIGN CHOICE, log entry 43: the rule does not say which the issuing context is then). -/
def execErd (d : Opnd) (f : Nat) (s : State) : Host.Outcome State Fault Refusal :=
  teamStep (fun _ => energySig 0xe0 d (f != 7)) (answer d fun s c => energyField (contextOf s c.b.ctx) f) s

/-- The spend state of a context on a core (11 R338). -/
def spendField (s : State) (core ctx f : Nat) : DWord :=
  let x := chargeSetOf (coreOf s core) ctx
  let g := if x.granted then x.grant else 0
  if f = 0 then BitVec.ofNat 64 g
  else if f = 1 then BitVec.ofNat 64 (committedOf s core ctx x)
  else if f = 2 then BitVec.ofInt 64 ((g : Int) - committedOf s core ctx x)
  else BitVec.ofNat 64 s.tickTime

/-- EBKT (11 R338), of the block's context as ERD (DESIGN CHOICE, log entry 43). -/
def execEbkt (d : Opnd) (f : Nat) (s : State) : Host.Outcome State Fault Refusal :=
  teamStep (fun _ => energySig 0xe1 d true) (answer d fun s c => spendField s c.b.core c.b.ctx f) s

/-! ### EOP and EOPRD -/

/-- The dedicated partition of a context's world that contains a core. -/
def ownPartition (s : State) (core world : Nat) : Option (Nat × Partition) :=
  s.partitions.find? fun e => e.2.quads.contains (quadOfCore core) && e.2.world = some world

/-- The answer to a request for point p (11 R339). -/
def eopStatus (s : State) (c : Cx) (p : Nat) : Nat :=
  match ownPartition s c.b.core c.b.world with
  | none => 3
  | some (_, x) =>
    if c.t.firmware then 3
    else if decide (p < x.lo) || decide (x.hi < p) then 1
    else if withinAllowance s x (quadOf s (quadOfCore c.b.core)).op p then 0 else 2

/-- An accepted request is the pending point of every quadrant of the partition (03 R82). -/
def acceptPoint (x : Partition) (p : Nat) : Act Unit := each x.quads fun q => modQuad q fun y => { y with pendingOp := some p }

/-- EOP: the request and its answer. -/
def eopBody (d : Opnd) (p : Nat) (c : Cx) : Act Next := do
  if suppressed c then pure .on
  else do
    let s ← get
    let st := eopStatus s c p
    match st, ownPartition s c.b.core c.b.world with
    | 0, some (_, x) => acceptPoint x p
    | _, _ => pure ()
    writeS c d (BitVec.ofNat 64 st)
    pure .on

/-- EOP (11 R339). -/
def execEop (d : Opnd) (p : Nat) (s : State) : Host.Outcome State Fault Refusal :=
  teamStep (fun _ => energySig 0xe2 d true) (eopBody d p) s

/-- What EOPRD shows of a quadrant (11 R340). -/
def pointWord (s : State) (core : Nat) : Nat :=
  let q := quadOf s (quadOfCore core)
  let range := match s.partitions.find? fun e => e.2.quads.contains (quadOfCore core) && e.2.world.isSome with
    | some e => (e.2.lo, e.2.hi)
    | none => (0, 15)
  q.op + (match q.pendingOp with
    | some p => 16 * p + 256
    | none => 0) + (if q.slewing then 512 else 0) + 4096 * range.1 + 65536 * range.2

/-- EOPRD (11 R340). -/
def execEoprd (d : Opnd) (s : State) : Host.Outcome State Fault Refusal :=
  teamStep (fun _ => energySig 0xe3 d true) (answer d fun s c => BitVec.ofNat 64 (pointWord s c.b.core)) s

/-! ### EMARK and ERDH -/

/-- EMARK (11 R341): with f = 0 the counter becomes 0; with f = 1 it is read. Its own front charge counts after that (DESIGN
CHOICE, log entry 43: the rule does not say on which side of it the charge falls). -/
def execEmark (d : Opnd) (f : Bool) (s : State) : Host.Outcome State Fault Refusal :=
  teamStep (fun _ => energySig 0xe4 d true) (fun c => do
    if f then writeS c d (c.t.mark.setWidth 64) else modTeam c.tid fun t => { t with mark := 0 }
    pure .on) s

/-- The fused figure that ERDH reads (11 R342). -/
def fusedFigure (core t p c : Nat) : Nat := if c = 31 then leakageFigure core p t else weightAt c p

/-- ERDH (11 R342). -/
def execErdh (d : Opnd) (t p c : Nat) (s : State) : Host.Outcome State Fault Refusal :=
  teamStep (fun _ => energySig 0xe5 d (decide (c < 32)))
    (answer d fun _ x => BitVec.ofNat 64 (fusedFigure x.b.core t p c)) s

end Sys2Proof.Machine
end

