-- ==== Sys2Proof/Machine/System.lean ====
section
/-! DEFINITION. System registers and the firmware instructions (11 R343-R353; 03 R83, R84; 04 R98; 12 R365;
19 R445, R448; 20 R480). -/
namespace Sys2Proof.Machine
open Sys2Proof

/-! ### SYSRD and SYSWR (11 R343-R345) -/

/-- Whether SYSRD knows a selector. -/
def selectorReads (n : Nat) : Bool := decide (n ≤ 6) || n = 0x8000 || n = 0x8001 || n = 0x8002

/-- Free fault counters of the partitions of a die (11 R345): with none formed, the full pool of 1,024 that the register
resets to. -/
def freeCounters (s : State) (die : Nat) : Nat :=
  let ps := s.partitions.filter fun e => e.2.quads.any fun q => q / 4 = die
  if ps.isEmpty then 1024 else ps.foldl (fun a e => a + e.2.faultFree) 0

/-- Where a team runs (11 R345). -/
def whereWord (b : Block) : Nat :=
  b.core + 2 ^ 10 * clusterOfCore b.core + 2 ^ 18 * quadOfCore b.core + 2 ^ 22 * b.world

/-- The value of a selector. -/
def selectorValue (s : State) (c : Cx) (n : Nat) : DWord :=
  if n = 0 then (if c.t.mabs then 1 else 0)
  else if n = 1 then (if c.t.sfault then 1 else 0)
  else if n = 2 then BitVec.ofNat 64 (aerrBits c.t.aerr)
  else if n = 3 then BitVec.ofNat 64 s.time
  else if n = 4 then BitVec.ofNat 64 (whereWord c.b)
  else if n = 5 then BitVec.ofNat 64 (contextOf s c.b.ctx).jpat
  else if n = 6 then (if c.t.task.isSome then 1 else 0)
  else if n = 0x8000 then BitVec.ofNat 64 s.epoch
  else if n = 0x8001 then BitVec.ofNat 64 (freeCounters s (dieOfCore c.b.core))
  else s.overhead.setWidth 64

/-- SYSRD: a read of selector 0 clears the sticky bit. -/
def sysrdBody (d : Opnd) (n : Nat) (c : Cx) : Act Next := do
  writeS c d (selectorValue (← get) c n)
  if n = 0 then modTeam c.tid fun t => { t with mabs := false } else pure ()
  pure .on

/-- SYSRD (11 R343): a firmware selector in program mode is a privilege trap (R344). -/
def execSysrd (d : Opnd) (n : Nat) (s : State) : Host.Outcome State Fault Refusal :=
  teamStep (fun _ => { plain 0xf0 [⟨d, .dst, false⟩] .none with
      firmware := bitSet n 15
      operandOk := selectorReads n }) (sysrdBody d n) s

/-- SYSWR (11 R343, R330): the join patience is the one selector that is written, of the block's context (DESIGN CHOICE, log
entry 43, as ERD's). -/
def execSyswr (d : Opnd) (n : Nat) (s : State) : Host.Outcome State Fault Refusal :=
  teamStep (fun c => { plain 0xf1 [⟨d, .scalar, false⟩] .none with
      firmware := bitSet n 15
      operandOk := n = 5 && decide ((opScalar c d).toNat ≤ 1000000) })
    (fun c => do
      modContext c.b.ctx fun x => { x with jpat := (opScalar c d).toNat }
      pure .on) s

/-! ### Firmware instructions -/

/-- The declaration of a firmware instruction with a run of n registers from s_d. -/
def firmwareSig (op n : Nat) (d : Opnd) (ok : Bool) : Sig :=
  { plain op [⟨d, .scalarBoth, false⟩] .none with firmware := true, operandOk := runOk d n && ok }

/-- Bits of a run register (11 R346); its other bits are reserved and ignored (00 R3). -/
def runBits (x : DWord) (lo n : Nat) : Nat := bitsOf x.toNat lo n

/-- The core that s_d names (11 R346). -/
def runCore (c : Cx) (d : Opnd) : Nat := runBits (opScalar c d) 0 10

/-- Whether a number is that of a core of this package (01 R10). -/
def isCore (n : Nat) : Bool := decide (n < 768)

/-- Whether a number is that of a program core. -/
def isProgramCore (n : Nat) : Bool := isCore n && !isFirmwareCore n

/-- An operation that is performed again until it is done. -/
def untilDone (m : Act Bool) : Act Next := do
  if ← m then pure .on else throw (.wait .retry)

/-- WLATCH (11 R347). -/
def execWlatch (d : Opnd) (u : Bool) (s : State) : Host.Outcome State Fault Refusal :=
  teamStep (fun c => firmwareSig 0xf2 1 d (isProgramCore (runCore c d)))
    (fun c => untilDone (relatchCore (runCore c d) (if u then none else some (runBits (opScalar c d) 10 6)))) s

/-- HALT (11 R352): a core leaves service, or returns to it unlatched. -/
def execHalt (d : Opnd) (b : Bool) (s : State) : Host.Outcome State Fault Refusal :=
  teamStep (fun c => firmwareSig 0xf9 1 d (isProgramCore (runCore c d)))
    (fun c =>
      let core := runCore c d
      if b then do
        modCore core fun x => { x with gated := false }
        wakeUnit (quadOfCore core) (clusterOfCore core % 12)
        pure .on
      else untilDone (removeCore core)) s

/-- The parts of a core that CLEAR zeroes; registers and stash of a core without blocks hold nothing. -/
def clearParts (core m : Nat) : Act Unit := do
  if bitSet m 2 then
    backAllLines core
    modCore core fun c => { c with l1 := [], code := [] }
  else pure ()
  if bitSet m 3 then promoteWhere core fun _ => true else pure ()

/-- CLEAR (11 R352). -/
def execClear (d : Opnd) (m : Nat) (s : State) : Host.Outcome State Fault Refusal :=
  teamStep (fun c => firmwareSig 0xfa 1 d (isCore (runCore c d)))
    (fun c => do
      let core := runCore c d
      require (m != 0 && (blocksOn (← get) core).isEmpty) .illegalState
      clearParts core m
      pure .on) s

/-- SAVE (11 R351, 19 R445): the named block is held out of every queue; with m = 1 it is flushed. -/
def saveNamed (m : Bool) (core index va : Nat) : Act Bool := do
  let s ← get
  match (blocksOn s core)[index]? with
  | none => pure true
  | some bid =>
    match find? s.blocks bid with
    | none => pure true
    | some b =>
      if m then do
        flushBlock bid false
        pure true
      else if saveReady s bid b then do
        let done ← saveBlock bid va .held false
        match find? (← get).blocks bid with
        | some x => pure (done || x.st != .resident || (find? (← get).endings b.ctx).isSome)
        | none => pure true
      else pure false

/-- SAVE (11 R351). -/
def execSave (d : Opnd) (m : Bool) (s : State) : Host.Outcome State Fault Refusal :=
  teamStep (fun c => firmwareSig 0xf7 2 d (isCore (runCore c d)))
    (fun c => untilDone (saveNamed m (runCore c d) (runBits (opScalar c d) 10 3) (runAt c d 1).toNat)) s

/-- Whether a block has left its core with a frame. -/
def isAway (b : Block) : Bool := b.st = .held || b.st = .saved || b.st = .parked

/-- Whether the bytes at a VA begin as the frame of a block (12 R366): its format and size, its launch record, its linear
index, its context and its world. -/
def namesBlock (l : Launch) (b : Block) (bs : List (BitVec 8)) : Bool :=
  frameHeaderOk l bs && fieldAt bs 8 8 = l.recIa % 2 ^ 52 && fieldAt bs 16 8 = b.linear
    && bitsOf (fieldAt bs 24 8) 0 16 = b.ctx % 1024 + 1024 * (b.world % 64)

/-- The first of some blocks whose frame's header lies at a VA. -/
def blockByHeader (core va : Nat) : List (Nat × Block) → Act (Option Nat)
  | [] => pure none
  | (bid, b) :: t => do
    let r := { frameReq b with src := routerOfCluster (clusterOfCore core), core := some core }
    match ← attempt (readSectors r b.ctx va (sectorsOf 2 va 64)) with
    | .ok (bs, []) => if namesBlock (launchOf (← get) b.launch) b bs then pure (some bid) else blockByHeader core va t
    | .error (.wait w) => throw (.wait w)
    | _ => blockByHeader core va t

/-- The block whose frame lies at a VA: the one that was saved there, of the core's world before any other's; else the one
that the frame's header names. -/
def blockOfFrame (core va : Nat) : Act (Option Nat) := do
  let s ← get
  let away := s.blocks.filter fun e => isAway e.2
  let here := away.filter fun e => frameNow e.2 = va
  match here.find? fun e => (coreOf s core).latch = some e.2.world with
  | some e => pure (some e.1)
  | none =>
    match here with
    | e :: _ => pure (some e.1)
    | [] => blockByHeader core va away

/-- REST (11 R351, 19 R445): the block whose frame lies at a VA goes onto a core latched to its world with room for it, and
leaves its queue. A VA that holds no block's frame changes nothing. True when it is done. -/
def restNamed (core va : Nat) : Act Bool := do
  match ← blockOfFrame core va with
  | none => pure true
  | some bid =>
    let s ← get
    match find? s.blocks bid with
    | none => pure true
    | some b => do
      require (roomOn s (launchOf s b.launch) (liveCount s bid) core) .illegalState
      restoreBlock bid core va true
      match find? (← get).blocks bid with
      | some x => do
        if x.st = .resident then unqueue bid else pure ()
        pure (!isAway x || (find? (← get).endings b.ctx).isSome)
      | none => pure true

/-- REST (11 R351). -/
def execRest (d : Opnd) (s : State) : Host.Outcome State Fault Refusal :=
  teamStep (fun c => firmwareSig 0xf8 2 d (isCore (runCore c d)))
    (fun c => untilDone (restNamed (runCore c d) (runAt c d 1).toNat)) s

/-! ### TINV (04 R98, 11 R349, 20 R480) -/

/-- Whether an invalidation covers a line or chunk at an IA. For k = 0 the range of a page of the largest
size is taken, since a line may leave its cache at any time (04 R520). -/
def invalCovers (k addr ia : Nat) : Bool := k != 0 || ia / 2 ^ 30 = addr / 2 ^ 30

/-- Whether it removes a translation-cache entry. -/
def invalRemoves (world k addr : Nat) (key : Nat) (e : TlbEntry) : Bool :=
  key / 64 % 64 = world && (match k with
    | 0 => (key / 4096) / e.s1units = addr / 65536 / e.s1units
    | 1 => e.gpa / e.s2units = addr / 65536 / e.s2units
    | _ => true)

/-- The cores latched to the world write back and invalidate what is covered; then every slice removes its
entries. The invalidations and their acknowledgements are messages of the firmware core at `src` (01 R19), which are the
device's own work. -/
def invalidate (src : Nat × Nat) (world k addr : Nat) : Act Unit := do
  each (coresLatched (← get) world) fun core => do
    sendMessage none 64 src (coreRouter core) .recall 0
    each (coreOf (← get) core).l1 fun e =>
      if e.2.world = world && invalCovers k addr (64 * e.2.ia) then dropL1 core e.1 else pure ()
    each (blocksOn (← get) core) fun bid => do
      match find? (← get).blocks bid with
      | none => pure ()
      | some b => each b.chunks fun e =>
          if invalCovers k addr e.2.ia then do
            promoteChunk bid e.1
            recallChunk bid e.1
          else pure ()
    sendMessage none 64 (coreRouter core) src .ack 0
  each (List.range 64) fun i => do
    sendMessage none 64 src (routerOfSlice i) .recall 0
    sendMessage none 64 (routerOfSlice i) src .ack 0
  modify fun s => { s with tlb := s.tlb.filter fun e => !invalRemoves world k addr e.1 e.2 }

/-- TINV: the invalidation is under way until every slice has answered. -/
def tinvBody (d : Opnd) (k : Nat) (c : Cx) : Act Next := do
  if c.a.joined then pure .on
  else do
    let id ← freshId
    modify fun s =>
      { s with invals := put s.invals id ⟨runBits (runAt c d 1) 0 6, k, (opScalar c d).toNat, c.tid, c.arm⟩ }
    throw (.wait .firmware)

/-- TINV (11 R349). -/
def execTinv (d : Opnd) (k : Nat) (s : State) : Host.Outcome State Fault Refusal :=
  teamStep (fun _ => firmwareSig 0xf5 2 d true) (tinvBody d k) s

/-- INVALIDATION_COMPLETE (04 R98). -/
def execInvalidationComplete (tag : Nat) (s : State) : Host.Outcome State Fault Refusal :=
  eventStep (do
    match find? (← get).invals tag with
    | none => pure ()
    | some x => do
      invalidate (firmwareRouter 0) x.world x.k x.addr
      modify fun s => { s with invals := del s.invals tag }
      modArm x.tid x.arm fun a => { a with wait := .retry, joined := true }) s

/-! ### METER (03 R83, R84; 11 R350; 21 R504) -/

/-- The partition of a world, for its allowance: its dedicated one, or a shared one, of its function before any other's (log
entry 23). -/
def worldPartition (s : State) (world : Nat) : Option Partition :=
  match s.partitions.find? fun e => e.2.world = some world with
  | some e => some e.2
  | none =>
    let shared := s.partitions.filter fun e => e.2.world.isNone
    match shared.find? fun e => guestOf s world = some e.2.fn with
    | some e => some e.2
    | none => (shared.head?).map (·.2)

/-- The function of a world; 0 when none is bound to it. -/
def worldFn (s : State) (world : Nat) : Nat := (guestOf s world).getD 0

/-- The first 384 bytes of a world's meter record over the interval that ends at the last boundary. -/
def meterHead (s : State) (world : Nat) : List (BitVec 8) :=
  let w := worldOf s world
  let p := worldPartition s world
  let sums : Int := (w.rawCompute + w.rawMemory + w.rawFabric + w.rawLeakage : Nat)
  bytesLE 4 0x14d52 ++ bytesLE 4 3696 ++ ((List.range 32).map Config.deviceDigest)
    ++ bytesLE 1 world ++ bytesLE 1 (worldFn s world) ++ bytesLE 2 0 ++ bytesLE 4 s.epoch ++ bytesLE 8 (w.meterSeq + 1)
    ++ bytesLE 8 w.meterEnd ++ bytesLE 8 s.tickTime
    ++ bytesLE 16 (w.total % 2 ^ 96) ++ bytesLE 16 w.rawCompute ++ bytesLE 16 w.rawMemory ++ bytesLE 16 w.rawFabric
    ++ bytesLE 16 w.rawLeakage ++ bytesLE 16 (wrapTo 128 ((w.total : Int) - sums))
    ++ ((List.range 16).flatMap fun i => bytesLE 4 ((find? w.points i).getD 0))
    ++ bytesLE 4 (p.map (·.mw) |>.getD 0) ++ bytesLE 4 (p.map (·.floorNow) |>.getD 0) ++ bytesLE 4 (s.grantCopy / 1000)
    ++ bytesLE 4 w.changes
    ++ bytesLE 8 ((if w.scaled then 1 else 0) + (if w.clamped then 2 else 0) + (if w.meterSeq = 0 then 4 else 0))
    ++ ((List.range 128).map fun i => BitVec.ofNat 8 ((List.range 8).foldl (fun a j =>
      if w.charged.contains (8 * i + j) then a + 2 ^ j else a) 0))

/-- The whole record: head, signature and three zero bytes. -/
def meterRecord (s : State) (world : Nat) : List (BitVec 8) :=
  let h := meterHead s world
  h ++ ((List.range 3309).map (Config.deviceSignature h)) ++ [0, 0, 0]

/-- The next interval begins where this record's ended. -/
def meterTaken (world : Nat) : Act Unit := do
  let s ← get
  modWorld world fun w =>
    { w with meterSeq := w.meterSeq + 1, meterEnd := s.tickTime, changes := 0, scaled := false, clamped := false
             total := 0, rawCompute := 0, rawMemory := 0, rawFabric := 0, rawLeakage := 0, points := [], charged := [] }
  modify fun s => { s with contexts := s.contexts.map fun e =>
    if e.2.world = (some world) then (e.1, { e.2 with clamp := false }) else e }

/-- Every piece of the record's range can be written; else a range trap (11 R350). -/
def meterRange (c : Cx) (va : Nat) : Act Unit := do
  match ← attempt (each (sectorsOf 60 va 3696) fun p => do
      let (ia, _) ← iaFor c.b.ctx p.1 .write
      let _ ← probe c.req ia .write) with
  | .ok _ => pure ()
  | .error (.wait w) => throw (.wait w)
  | .error _ => throw (.trap { alignTrap c va .write with cause := .range, cls := 2 })

/-- A world's interval ends: its record is built and signed, and the next interval begins. The signing is the host's
overhead (03 R71), in the base domain of the meter unit's quadrant (log entry 43). -/
def closeInterval (world : Nat) : Act (List (BitVec 8)) := do
  let bs := meterRecord (← get) world
  meterTaken world
  chargeHost 16 Config.signingCharge
  pure bs

/-- Whether a job is that of an arm. -/
def jobOfArm (tid arm : Nat) (j : MeterJob) : Bool := j.tid = tid && j.arm = arm

/-- METER: checks, then a wait for the interval's end, then the record as a device-scope release. -/
def meterBody (d : Opnd) (c : Cx) : Act Next := do
  let world := runBits (opScalar c d) 0 6
  let va := (runAt c d 1).toNat
  let s ← get
  match (s.meterJobs.find? (jobOfArm c.tid c.arm)).bind (·.bytes) with
  | some bs => do
    writeRecord c.req c.b.ctx va bs
    modify fun s => { s with meterJobs := s.meterJobs.filter fun j => !jobOfArm c.tid c.arm j }
    pure .on
  | none => do
    require (!(worldOf s world).unmetered) .illegalState
    alignScalar c va .write 64
    meterRange c va
    modify fun s => { s with meterJobs := s.meterJobs ++ [⟨c.tid, c.arm, world, s.tick, none⟩] }
    throw (.wait .firmware)

/-- METER (11 R350). -/
def execMeter (d : Opnd) (s : State) : Host.Outcome State Fault Refusal :=
  teamStep (fun _ => firmwareSig 0xf6 2 d true) (meterBody d) s

/-- The METERs of earlier ticks have their interval's end, in their order at the meter unit: their records are built, and
their arms go on. One whose world has lost its meter data meanwhile is checked again (21 R504). -/
def wakeMeters : Act Unit := do
  let s ← get
  set { s with meterJobs := [] }
  let jobs ← collect s.meterJobs fun j => do
    if j.bytes.isSome || s.tick ≤ j.tick then pure [j]
    else do
      modArm j.tid j.arm fun a => { a with wait := .retry }
      if (worldOf (← get) j.world).unmetered then pure []
      else do
        let bs ← closeInterval j.world
        pure [{ j with bytes := some bs }]
  modify fun s => { s with meterJobs := jobs.flatten }

/-! ### WAITI (11 R353) -/

/-- WAITI: waits until a source in m is pending; clears none. -/
def execWaiti (d : Opnd) (m : Nat) (s : State) : Host.Outcome State Fault Refusal :=
  teamStep (fun _ => { plain 0xfb [⟨d, .dst, false⟩] .none with firmware := true, operandOk := m != 0 })
    (fun c => do
      let x := pendingSources (← get) (dieOfCore c.b.core) &&& m
      if x = 0 then throw (.wait (.sources m))
      else do
        writeS c d (BitVec.ofNat 64 x)
        pure .on) s

/-- A request from outside waits in a firmware core's queue (11 R353). -/
def noteRequest (die source : Nat) : Act Unit := modFirmware die fun f => { f with requests := f.requests ++ [source] }

/-- The firmware takes the oldest request of a source off its queue. -/
def serveRequest (die source : Nat) : Act Unit := modFirmware die fun f => { f with requests := f.requests.erase source }

/-- FIRMWARE_TIMER (11 R353). -/
def execFirmwareTimer (die : Nat) (s : State) : Host.Outcome State Fault Refusal :=
  eventStep (if die < 4 then modFirmware die fun f => { f with timer := true } else pure ()) s

/-- FIRMWARE_MESSAGE (13 R382): a message from another firmware core waits in the queue. -/
def execFirmwareMessage (die msg : Nat) (s : State) : Host.Outcome State Fault Refusal :=
  eventStep (if die < 4 then modFirmware die fun f => { f with messages := f.messages ++ [.note msg] } else pure ()) s

end Sys2Proof.Machine
end

