-- ==== Sys2Proof/Machine/Slices.lean ====
section
/-! DEFINITION. Events of the memory slices: requests, recalls, releases, free declarations, moves, refresh,
patrol, retirement and error injection (04 R104-R127; 05 R143-R145; 20 R469-R478; 22 R517). -/
namespace Sys2Proof.Machine
open Sys2Proof

/-! ### A request at a slice (04 R106) -/

/-- The requester of a request of no context. -/
def hostReq (world : Nat) : Req := ⟨firmwareRouter 0, none, none, none, world⟩

/-- The LLC lines of a machine block, by key. -/
def linesOf (s : State) (ma : Nat) : List Nat := (s.llc.filter fun e => lineBlock e.1 = ma / 512).map (·.1)

/-- The LLC lines of an IA of a world. -/
def linesAt (s : State) (world ia : Nat) : List Nat :=
  (s.llc.filter fun e => e.2.world = world && e.2.ia = ia / 512).map (·.1)

/-- A slice serves a request, or refuses it. -/
def serve (x : SliceReq) : Act Unit :=
  match x.op with
  | .read n => do
    let _ ← readRange (hostReq x.world) x.ia n .read
  | .write bs => writeRange (hostReq x.world) x.ia bs
  | .evictLine => do each (linesAt (← get) x.world x.ia) evictLine
  | .dropTranslation =>
    modify fun s => { s with tlb := del s.tlb (tlbKey x.ia x.world (sliceOf x.ia)) }

/-- SLICE_ACCESS (04 R106). -/
def execSliceAccess (req : SliceReq) (s : State) : Host.Outcome State Fault Refusal := eventStep (tried (serve req)) s

/-- DIRECTORY_RECALL (04 R104): the owner of a chunk gives it up. -/
def execDirectoryRecall (ma : Nat) (s : State) : Host.Outcome State Fault Refusal := eventStep (recallDeep none none chainFuel ma) s

/-! ### Releases (05 R143-R145) -/

/-- RELEASE_HINT (05 R143). -/
def execReleaseHint (core world line : Nat) (s : State) : Host.Outcome State Fault Refusal :=
  eventStep (takeHint core world line) s

/-- PROMOTION_REQUEST (05 R144): the release owner writes back what its release ordered. -/
def execPromotionRequest (core world line : Nat) (s : State) : Host.Outcome State Fault Refusal :=
  eventStep (do
    promote core world line
    if find? (← get).relOwner (line * 64 + world) = some core then clearOwner world line else pure ()) s

/-- RELEASE_ENTRY_TIMEOUT (05 R145): the oldest entry is promoted. -/
def execReleaseEntryTimeout (core : Nat) (s : State) : Host.Outcome State Fault Refusal :=
  eventStep (do
    match (coreOf (← get) core).release with
    | e :: _ => promote core e.world e.line
    | [] => pure ()) s

/-! ### Free declarations and moves (04 R125, R127) -/

/-- A machine page is declared free: its blocks take state 14, and the LLC forgets them. -/
def declareFree (ma : Nat) : Act Unit := do
  let p := ma / 65536
  each (List.range 128) fun i => touchTags none (65536 * p + 512 * i) true
  modify fun s =>
    { s with
      blocksMeta := s.blocksMeta.filter fun e => e.1 / 128 != p
      llc := s.llc.filter fun e => lineBlock e.1 / 128 != p
      dir := s.dir.filter fun e => e.1 / 256 != p }

/-- FREE_DECLARATION (04 R125). -/
def execFreeDeclaration (ma : Nat) (s : State) : Host.Outcome State Fault Refusal := eventStep (declareFree ma) s

/-- The cost of moving a block (04 R127): its stored sectors read and written, and decrypted and encrypted again. -/
def chargeMove (src dst : Nat) (m : BlockMeta) : Act Unit := do
  touchTags none src false
  touchTags none dst true
  let n := if m.poison then 0 else storedSectors m.st
  if n = 0 then pure ()
  else do
    chargeBursts none src n
    chargeBase (quadOfSlice (sliceOf src)) none clsCipher 2
    chargeBursts none dst n

/-- A slice moves one block under the same key and generation; a block in poison form, or one whose check finds an error
that cannot be corrected, moves in poison form (04 R127, 20 R472, R476). A free block stays free. -/
def moveBlock (src dst : Nat) : Act Unit := do
  recallDeep none none chainFuel src
  recallDeep none none chainFuel (src + 256)
  each (linesOf (← get) src) evictLine
  let s ← get
  let m := blockMetaOf s src
  chargeMove src dst m
  if m.st = 14 then modify fun s => { s with blocksMeta := del s.blocksMeta (dst / 512) }
  else if m.poison || tagBad m || meetsBad m then setMeta dst ⟨15, m.sealed, true, 0⟩
  else do
    putMem (dst / 512 * 512) (readMem s.mem (src / 512 * 512) 512)
    setMeta dst m

/-- SLICE_BLOCK_MOVE (04 R127): a block moves within its home slice. -/
def execSliceBlockMove (src dst : Nat) (s : State) : Host.Outcome State Fault Refusal :=
  eventStep (tried do
    if src % 65536 / 512 = dst % 65536 / 512 && src / 512 ≠ dst / 512 && nameable (← get) dst then moveBlock src dst
    else pure ()) s

/-- Move every block of a page. -/
def movePage (src dst : Nat) : Act Unit :=
  each (List.range 128) fun i => moveBlock (src / 65536 * 65536 + 512 * i) (dst / 65536 * 65536 + 512 * i)

/-- The stage-2 leaf of a GPA: its machine address, its value and what it says (04 R93, R94). -/
def leafPlace (addr level table : Nat) : Nat → Act (Option (Nat × Nat × Entry))
  | 0 => pure none
  | n + 1 => do
    let at_ := table + 8 * levelIndex level addr
    let v ← readStage2Entry none at_
    match decodeEntry true level v with
    | .table t => leafPlace addr (level + 1) t n
    | .leaf b u r w x m k => pure (some (at_, v, .leaf b u r w x m k))
    | _ => pure none

/-- Write a stage-2 entry, which lies under the hypervisor's key in MA (04 R93). -/
def writeStage2 (ma value : Nat) : Act Unit := do
  chargeLlc none ma
  llcWrite none 64 0 ma hyperSlot 0 (bytesLE 8 value)

/-- A leaf's value with another page, and mig clear. -/
def leafWith (value ma : Nat) : Nat :=
  value - bitsOf value 16 36 * 65536 + ma / 65536 * 65536 - (if bitSet value 7 then 128 else 0)

/-- The leaves of one page, with their values: a larger page has one in each of 32 or 4 entries that follow one another, and
each of those that names the page's base is one of them (04 R95). -/
def leavesOf (at_ v base units : Nat) : Act (List (Nat × Nat)) := do
  let n := if units = 1 then 1 else if units = 32 then 32 else 4
  let level := if units = 16384 then 2 else 3
  let es ← collect ((List.range n).map fun i => at_ / (8 * n) * (8 * n) + 8 * i) fun a =>
    if a = at_ then pure (a, v) else do pure (a, ← readStage2Entry none a)
  pure (es.filter fun e => match decodeEntry true level e.2 with
    | .leaf b u _ _ _ _ _ => b = base && u = units
    | _ => false)

/-- Whether every 64 KiB unit of a page may be named by a leaf (04 R88, 20 R476). -/
def pageNameable (s : State) (ma units : Nat) : Bool := (List.range units).all fun i => nameable s (ma + 65536 * i)

/-- The chunks of a page are recalled from their owners, before its blocks move (04 R104). -/
def recallPage (base units : Nat) : Act Unit := do
  each ((← get).dir.filter fun e => decide (base ≤ 256 * e.1) && decide (256 * e.1 < base + 65536 * units)) fun e =>
    recallDeep none none chainFuel (256 * e.1)

/-- The value of a leaf with its mig bit set. -/
def migSet (value : Nat) : Nat := if bitSet value 7 then value else value + 128

/-- Move the page of a stage-2 leaf to a new machine page of its size (04 R127, steps 1 to 4): the old page's address and
its size in 64 KiB units, when it has moved. The firmware core of a die does it. What a slice may refuse, the write-backs of
the cores' copies, comes before anything else; the steps are one here, and no access comes between them. -/
def migrate (die world gpa new : Nat) : Act (Option (Nat × Nat)) := do
  let src := firmwareRouter die
  match ← leafPlace gpa 1 (worldOf (← get) world).s2root 3 with
  | some (at_, v, .leaf base units _ _ _ _ _) =>
    if new % (units * 65536) ≠ 0 || new = base || !pageNameable (← get) new units then pure none
    else do
      let leaves ← leavesOf at_ v base units
      invalidate src world 1 gpa
      recallPage base units
      each leaves fun e => writeStage2 e.1 (migSet e.2)
      invalidate src world 1 gpa
      each (List.range 64) fun i => command none 64 src (routerOfSlice i) 0
      each (List.range units) fun i => movePage (base + 65536 * i) (new + 65536 * i)
      each leaves fun e => writeStage2 e.1 (leafWith e.2 new)
      invalidate src world 1 gpa
      pure (some (base, units))
  | _ => pure none

/-- Step 5 (04 R127): the old page is declared free. -/
def freePages (base units : Nat) : Act Unit := each (List.range units) fun i => declareFree (base + 65536 * i)

/-! ### Refresh, hot pages and patrol (04 R124, R126; 20 R470) -/

/-- Whether a row of a slice's bank holds a block that is not free (04 R125). -/
def rowInUse (s : State) (slice bank row : Nat) : Bool :=
  s.blocksMeta.any fun e => e.2.st != 14 && sliceOf (512 * e.1) = slice && Config.bankOf e.1 = bank
    && Config.rowOf e.1 % 8192 = row && !isHostMa (512 * e.1)

/-- Nanoseconds between refresh commands to a bank (04 R126). -/
def refreshInterval (temp : Nat) : Nat := if temp ≤ 85 then 3900 else 1950

/-- REFRESH (04 R126): the rows of a bank take its refresh commands in turn, one each interval, 8,192 of them in 32 ms, and a
free row is skipped: no command is given for it. A command is the host's overhead. Data do not change. -/
def refreshBank (slice bank : Nat) : Act Unit := do
  let s ← get
  let x := sliceState s slice
  let due := match find? x.refreshedAt bank with
    | some t => decide (t + refreshInterval x.temp ≤ s.time)
    | none => true
  if due then do
    let row := (find? x.refreshRow bank).getD 0
    modSlice slice fun x =>
      { x with refreshedAt := put x.refreshedAt bank s.time, refreshRow := put x.refreshRow bank ((row + 1) % 8192) }
    if rowInUse s slice bank row then do
      modSlice slice fun x => { x with refreshed := wr x.refreshed bank (rd x.refreshed bank + 1) }
      chargeHost (16 + quadOfSlice slice) Config.refreshCharge
    else pure ()
  else pure ()

/-- REFRESH (04 R126). -/
def execRefresh (slice bank : Nat) (s : State) : Host.Outcome State Fault Refusal := eventStep (refreshBank slice bank) s

/-- HOT_PAGE_INTERVAL (04 R124): every slice copies its list for the firmware and starts again. -/
def execHotPageInterval (s : State) : Host.Outcome State Fault Refusal :=
  eventStep (modify fun s =>
    { s with slices := s.slices.map fun e => (e.1, { e.2 with hotCopy := e.2.hot, hot := [], sketch := [] }) }) s

/-- PATROL_READ (20 R470): a block that is not free is read, in the LLC and in HBM, and what is found is
handled as a read would. -/
def patrol (ma : Nat) : Act Unit := do
  each (linesOf (← get) ma) fun k => checkLine k ma
  let m := blockMetaOf (← get) ma
  if m.st = 14 then pure ()
  else do
    touchTags none ma false
    if m.poison then pure ()
    else if tagBad m || meetsBad m then do
      touchTags none ma true
      setMeta ma ⟨15, m.sealed, true, 0⟩
      askRetire ma
    else chargeBursts none ma (storedSectors m.st)

/-- PATROL_READ (20 R470). -/
def execPatrolRead (ma : Nat) (s : State) : Host.Outcome State Fault Refusal := eventStep (patrol ma) s

/-! ### Retirement (20 R476) -/

/-- The firmware's list of pages to retire loses a page. -/
def retireDone (ma : Nat) : Act Unit :=
  modify fun s => { s with retiring := s.retiring.filter fun x => x / 65536 != ma / 65536 }

/-- The record of a retired page. -/
def pageRecord (world block page : Nat) : Act Unit :=
  sliceRecord (sliceOf block) { ErrRec.blank with type := 7, cls := 6, ma := page, world := world }

/-- PAGE_RETIRE: the page that a GPA maps, when it is one to be retired. -/
def retirePage (world gpa : Nat) : Act Unit := do
  match ← leafPlace gpa 1 (worldOf (← get) world).s2root 3 with
  | some (_, _, .leaf base units _ _ _ _ _) => do
    let s ← get
    let page := base + gpa % (units * 65536) / 65536 * 65536
    match s.retiring.find? fun x => x / 65536 = page / 65536 with
    | none => pure ()
    | some block =>
      if units ≠ 1 then do
        retireDone page
        pageRecord world block page
      else if 4096 ≤ s.retiredPages.length then do
        retireDone page
        sliceRecord (sliceOf block) { ErrRec.blank with type := 14, cls := 21 }
      else
        match (worldOf s world).s2pool with
        | [] => pure ()
        | new :: rest =>
          match ← migrate (sliceOf block / 16) world gpa (new * 65536) with
          | some _ => do
            modWorld world fun w => { w with s2pool := rest }
            modify fun s => { s with retiredPages := s.retiredPages ++ [page / 65536] }
            declareFree page
            retireDone page
            pageRecord world block page
          | none => pure ()
  | _ => pure ()

/-- PAGE_RETIRE (20 R476). -/
def execPageRetire (world gpa : Nat) (s : State) : Host.Outcome State Fault Refusal := eventStep (tried (retirePage world gpa)) s

/-! ### Error injection (22 R517) -/

/-- The error-injection register as a request leaves it (22 R517): kind, sector, check and block. -/
def noteInjection (kind block sector : Nat) (check : Bool) : Act Unit :=
  let x := 2 * kind + 8 * (sector % 8) + (if check then 64 else 0) + 512 * (block % 2 ^ 37)
  modify fun s => { s with injection := BitVec.ofNat 64 x }

/-- Inject into the LLC line that holds a block, when there is one; then the check, when it is asked. -/
def injectLine (kind block sector : Nat) (check : Bool) (f : LlcLine → LlcLine) : Act Unit := do
  noteInjection kind block sector check
  let ma := 512 * block
  match (linesOf (← get) ma) with
  | [] => modify fun s => { s with injectStatus := 2 }
  | k :: _ => do
    match find? (← get).llc k with
    | some l => setLine k (f l)
    | none => pure ()
    modify fun s => { s with injectStatus := 1 }
    if check && decide (sector < 8) then patrol ma else pure ()

/-- INJECT_LLC_SINGLE (22 R517). -/
def execInjectLlcSingle (block sector : Nat) (check : Bool) (s : State) : Host.Outcome State Fault Refusal :=
  eventStep (injectLine 0 block sector check fun l => { l with single := l.single ||| 2 ^ sector }) s

/-- INJECT_LLC_DOUBLE (22 R517). -/
def execInjectLlcDouble (block sector : Nat) (check : Bool) (s : State) : Host.Outcome State Fault Refusal :=
  eventStep (injectLine 1 block sector check fun l => { l with double := l.double ||| 2 ^ sector }) s

/-- Inject into a block's stored sector; then the check, when it is asked. -/
def injectHbm (block sector : Nat) (check : Bool) : Act Unit := do
  noteInjection 2 block sector check
  let m := blockMetaOf (← get) (512 * block)
  setMeta (512 * block) { m with bad := m.bad ||| 2 ^ sector }
  modify fun s => { s with injectStatus := 1 }
  if check then patrol (512 * block) else pure ()

/-- INJECT_HBM_DOUBLE (22 R517). -/
def execInjectHbmDouble (block sector : Nat) (check : Bool) (s : State) : Host.Outcome State Fault Refusal :=
  eventStep (injectHbm block sector check) s

/-! ### Soft errors in a core's own stores (20 R469-R478) -/

/-- Count an uncorrectable error of a core: with more than 8 it is to be removed (20 R478). -/
def coreError (core : Nat) : Act Unit := do
  modCore core fun c => { c with errors := c.errors + 1 }
  if 8 < (coreOf (← get) core).errors then do
    let _ ← removeCore core
    emitRecord (dieOfCore core) { ErrRec.blank with type := 14, cls := 21, core := core, unit := 1 }
  else pure ()

/-- Count a corrected error of a core: the 64th within one second writes a record (20 R470). -/
def coreCorrected (core : Nat) : Act Unit := do
  let s ← get
  let c := coreOf s core
  let recent := (c.corrected.filter fun t => s.time < t + 1000000000) ++ [s.time]
  if 64 ≤ recent.length then do
    setCore core { c with corrected := [] }
    emitRecord (dieOfCore core) { ErrRec.blank with type := 14, cls := 21, core := core, unit := 1 }
  else setCore core { c with corrected := recent }

/-- The blocks whose tag entries share a line with a block's (04 R110): eight stripes of its slice, or four blocks of host
memory. -/
def tagLineBlocks (s : State) (ma : Nat) : List Nat :=
  match windowOf s ma with
  | some w => (List.range 4).map fun i => w.base + (ma - w.base) / 2048 * 2048 + 512 * i
  | none => (List.range 8).map fun i => (ma / 32768 / 8 * 8 + i) * 32768 + 512 * sliceOf ma

/-- A line of the metadata cache with an uncorrectable error (20 R473): a clean one is fetched again; with a dirty one every
block whose tag entry it holds is lost. -/
def upsetTagLine (ma : Nat) : Act Unit := do
  let s ← get
  match find? (sliceState s (sliceOf ma)).tags (tagLineOf s ma) with
  | none => pure ()
  | some dirty => do
    modSlice (sliceOf ma) fun x => { x with tags := del x.tags (tagLineOf s ma) }
    if dirty then each (tagLineBlocks s ma) fun b => do
      setMeta b ⟨15, (blockMetaOf (← get) b).sealed, true, 0⟩
      askRetire b
    else pure ()

/-- Poison the LLC line that a written-back line or chunk goes to (20 R473). -/
def poisonLine (ma slot : Nat) : Act Unit := do
  match find? (← get).llc (llcKey ma slot) with
  | some l => setLine (llcKey ma slot) { l with poison := true }
  | none => pure ()

/-- A dirty L1 line with an uncorrectable error: its owner ends, and the line goes out poisoned. A clean one
is fetched again, and counts as corrected. -/
def upsetL1 (core key : Nat) : Act Unit := do
  match find? (coreOf (← get) core).l1 key with
  | none => pure ()
  | some l =>
    dropL1 core key
    if l.dirty = 0 then coreCorrected core
    else do
      poisonLine l.ma l.slot
      endOwner Source.core core l.owner
      coreError core

/-- A stash word with an uncorrectable error: unmapped, it is poisoned; in a chunk, as an L1 line. -/
def upsetStash (bid word : Nat) : Act Unit := do
  match find? (← get).blocks bid with
  | none => pure ()
  | some b =>
    match find? b.chunks (word / 64) with
    | none =>
      if 4 * word < b.stashSize && (regionAt b (4 * word)).isNone then do
        setBlock bid { b with stashPoison := insertNew b.stashPoison word }
        coreError b.core
      else pure ()
    | some c => do
      promoteChunk bid (word / 64)
      recallChunk bid (word / 64)
      if !c.dirty then coreCorrected b.core
      else do
        poisonLine c.ma c.slot
        endOwner Source.core b.core c.owner
        coreError b.core

/-- The tag of an LLC line with an uncorrectable error: the line's data cannot be told from another's, and it is handled as
a line whose data are lost (20 R469, R473). -/
def upsetLlcTag (ma : Nat) : Act Unit := do
  each (linesOf (← get) ma) fun k => do
    match find? (← get).llc k with
    | some l => do
      setLine k { l with double := 255 }
      checkLine k ma
    | none => pure ()

/-- A directory entry, or a release-owner entry, with an uncorrectable error: the slice takes back what the entry stood for,
the chunk or the owner's promotion (DESIGN CHOICE, log entry 16: 20 R469 names the stores, and R473 has no row for them). -/
def upsetDirectory (ma : Nat) : Act Unit := recallDeep none none chainFuel ma
def upsetOwner (world line : Nat) : Act Unit := promoteOwner none world (64 * line) none

/-- A line of an L1 instruction cache is never dirty: it is fetched again, and the error counts as corrected (20 R473). -/
def upsetCode (core key : Nat) : Act Unit := do
  if (find? (coreOf (← get) core).code key).isSome then do
    modCore core fun c => { c with code := del c.code key }
    coreCorrected core
  else pure ()

/-- A slot of a slice's replica reads uncorrectable until it is recovered (20 R491). -/
def upsetReplica (slice slot : Nat) : Act Unit := do
  let k := keyOf (← get) slot
  if k.st = .world || k.st = .sequence then setKey slot { k with badReplicas := insertNew k.badReplicas (slice % 64) } else pure ()

/-- An error that its code misses is found by the tag check: the stored block matches its tag no longer (20 R469). -/
def upsetMissed (ma : Nat) : Act Unit := do
  let m := blockMetaOf (← get) ma
  if m.st = 14 then pure () else setMeta ma { m with sealed := none }

end Sys2Proof.Machine
end

