-- ==== Sys2Proof/Machine/Endings.lean ====
section
/-! DEFINITION. The end of a context, the removal of work, error records and tenant dumps, and queue resets
(17 R411-R418; 19 R466-R468). -/
namespace Sys2Proof.Machine
open Sys2Proof

/-! ### Removing work (17 R411; 19 R467) -/

/-- Whether a record that waits belongs to a selected context: its poster's, or the one that it is to run in. -/
def postedOf (p : Nat → Bool) (x : Posted) : Bool :=
  p x.ctx || (!x.unreadable && p (launchContext { Launch.blank with words := x.words }))

/-- Whether a held action belongs to a context that a test selects. -/
def heldOf (p : Nat → Bool) : Held → Bool
  | .launch x => postedOf p x
  | .enqueue w _ => p (taskContext w)
  | .again e _ => p e.ctx

/-- Pending launches, held actions, trigger entries and task records of the selected contexts are removed
from a partition and from its cores. -/
def dropQueued (p : Nat → Bool) (part : Nat) : Act Unit := do
  match find? (← get).partitions part with
  | none => pure ()
  | some x =>
    setPartition part { x with
      queue := x.queue.filter fun q => !postedOf p q
      held := x.held.filter fun h => !heldOf p h
      triggers := x.triggers.filter fun e => e.2.parked.isSome || !p e.2.ctx
      tasks := x.tasks.filter fun w => !p (taskContext w) }
    each (coresOf x) fun c => do
      if (coreOf (← get) c).tasks.any fun w => p (taskContext w) then
        modCore c fun y => { y with tasks := y.tasks.filter fun w => !p (taskContext w) }
      else pure ()

/-- A launch ends with no counter update: its blocks are discarded where they are, its gang's parts let go
their reservations, and it leaves every queue. -/
def dropLaunch (id cls : Nat) : Act Unit := do
  let bs := (← get).blocks.filter fun e => e.2.launch = id
  each bs fun e => if e.2.st = .retired then pure () else discardBlock e.1 cls
  modify fun s =>
    { s with
      blocks := s.blocks.filter fun e => e.2.launch != id
      blockBase := s.blockBase.filter fun e => !(bs.any fun b => b.1 = e.1 / 16)
      partitions := s.partitions.map fun e =>
        (e.1, { letGo id e.2 with
          tenants := e.2.tenants.map fun t =>
            (t.1, { t.2 with requeued := t.2.requeued.filter fun i => i != id && !(bs.any fun b => b.1 = i) }) }) }
  refsLeft ((bs.find? fun e => e.2.residual && e.2.st != .retired).map (·.2))
  modLaunch id fun l => { l with ended := true, open_ := 0, frames := [], gang := if l.gang = .notGang then .notGang else .done }

/-- The partitions of a launch: its gang's parts, or the one it was posted to. -/
def launchParts (l : Launch) : List Nat :=
  if launchGang l = 0 then [l.part] else (List.range 16).filter fun i => bitSet (launchGang l) i

/-- Dirty lines of the selected owners go out of every L1 cache. -/
def flushOwners (p : Nat → Bool) : Act Unit := do
  each (← get).cores fun c => each (c.2.l1.filter fun e => e.2.dirty != 0 && p e.2.owner) fun e => backLine c.1 e.1

/-- Launches that teams of the selected partitions, or of blocks that go, have posted for the selected contexts, and answers
to STEAL on their way with their task records, are removed. -/
def dropPosted (p : Nat → Bool) (parts : Nat → Bool) (gone : List Nat) : Act Unit :=
  modify fun s =>
    let keep := fun (q : List Posted) => q.filter fun x => !postedOf p x
    let ours := fun (x : Posted) => x.tid.any fun t => gone.contains (t / 8)
    { s with
      cores := s.cores.map fun e =>
        if parts (partOfCore s e.1) then
          (e.1, { e.2 with
            gone := (e.2.gone.map keep).filter fun q => !q.isEmpty
            stealing := e.2.stealing.map fun ws => ws.filter fun w => !p (taskContext w) })
        else (e.1, { e.2 with gone := (e.2.gone.map fun q => q.filter fun x => !ours x).filter fun q => !q.isEmpty })
      teams := s.teams.map fun e => match find? s.blocks e.2.bid with
        | some b => if parts (partOfCore s b.core) then (e.1, { e.2 with pendingLaunch := keep e.2.pendingLaunch }) else e
        | none => e }

/-- All work of the selected contexts in the selected partitions is removed, and gangs with a part there whole, its engine
operations with a class; writes of it that a slice had refused are discarded. -/
def dropWork (p : Nat → Bool) (parts : Nat → Bool) (cls : Nat) : Act Unit := do
  each (((← get).partitions.filter fun e => parts e.1).map (·.1)) (dropQueued p)
  let ids := ((← get).launches.filter fun e => p e.2.ctx && !e.2.ended && (launchParts e.2).any parts).map (·.1)
  let gone := ((← get).blocks.filter fun e => ids.contains e.2.launch).map (·.1)
  each ids fun id => dropLaunch id cls
  dropPosted p parts gone
  let s ← get
  cancelOps (fun o => gone.contains o.bid || (p o.ctx && parts ((partitionOfQuad s (quadOfCluster o.cluster)).getD 16))) cls
  flushOwners p
  modify fun s => { s with late := s.late.filter fun x =>
    x.port.isSome || !(gone.contains (x.tid / 8) || (p x.ctx && parts (partOfCore s x.core))) }

/-! ### The end of a context (17 R411, R412) -/

/-- The record of a context's end. -/
def endRecord (s : State) (ctx : Nat) (e : Ending) : ErrRec :=
  { ErrRec.blank with
    type := e.type, cls := e.cls, cause := e.cause, ctx := ctx
    world := (contextOf s ctx).world.getD 0
    core := e.core
    unit := e.src.unit
    number := e.src.number
    progress := e.src.progress
    offset := if e.type = 1 then some e.offset else none
    info := e.info }

/-- A context takes no more work; its enable bit is 0 from the next tick update on (03 R66). -/
def barContext (ctx : Nat) : Act Unit := modContext ctx fun x => { x with barred := true, newEnable := some false }

/-- Whether a write or an atomic of a context has no answer from its peer yet (17 R411 step 4). -/
def writesInFlight (s : State) (ctx : Nat) : Bool := (askersOf s).any fun a => a.write && a.ctx = some ctx

/-- CONTEXT_END: the firmware ends a context for its first error. Its work is removed at once; while a write of it is on its
way to a peer the end is not complete, and the firmware comes back to it (17 R411). -/
def endNow (ctx : Nat) : Act Unit := do
  match find? (← get).endings ctx with
  | none => pure ()
  | some e => do
    barContext ctx
    dropWork (fun c => c = ctx) (fun _ => true) 14
    let s ← get
    if writesInFlight s ctx then pure ()
    else do
      emitRecord (dieOfSource e.src e.core) (endRecord s ctx e)
      modify fun s => { s with endings := del s.endings ctx }

/-- CONTEXT_END (17 R411). -/
def execContextEnd (ctx : Nat) (s : State) : Host.Outcome State Fault Refusal := eventStep (endNow ctx) s

/-! ### Error records and dumps (17 R413-R418) -/

/-- Fields of a record policy register. -/
def policyOffsets (w : World) : Bool := bitSet w.policy.toNat 0
def policyDump (w : World) : Bool := bitSet w.policy.toNat 1
def policyIa (w : World) : Nat := bitsOf w.policy.toNat 16 36 * 65536
def policyDumps (w : World) : Nat := bitsOf w.policy.toNat 52 12

/-- A record's 64 bytes (17 R414). -/
def recordBytes (r : ErrRec) : List (BitVec 8) :=
  bytesLE 4 (r.type + 256 * r.cls + 65536 * r.cause + 2 ^ 24 * r.world + (if r.offset.isSome then 2 ^ 30 else 0))
    ++ bytesLE 4 (r.ctx + 2 ^ 10 * r.part + 2 ^ 16 * r.core)
    ++ bytesLE 8 (r.unit + 256 * r.number) ++ bytesLE 8 r.time ++ bytesLE 8 r.ma
    ++ bytesLE 8 (r.offset.getD 0) ++ bytesLE 8 (r.progress % 2 ^ 48 + 2 ^ 48 * r.lost)
    ++ bytesLE 8 r.sequence ++ bytesLE 8 r.epoch

/-- A tenant dump's 1,024 bytes (17 R418). -/
def dumpBytes (r : ErrRec) (n : Nat) : List (BitVec 8) :=
  let i := r.info
  padTo 1024 (recordBytes { r with offset := some (r.offset.getD 0) }
    ++ bytesLE 8 i.s44 ++ bytesLE 8 i.s45 ++ bytesLE 8 i.s46 ++ bytesLE 8 i.s47
    ++ maskBytes i.faulted ++ maskBytes i.completed
    ++ bytesLE 8 i.object ++ bytesLE 8 i.prior ++ bytesLE 8 i.ia ++ bytesLE 8 n)

/-- Write a record's tenant dump, when its world asks for one. A failure is not reported; false when a slice refuses it,
so that it is to be written again (01 R22). -/
def writeDump (die : Nat) (r : ErrRec) : Act Bool := do
  let w := worldOf (← get) r.world
  if policyDump w && policyDumps w != 0 then do
    let q : Req := ⟨routerOfCluster (48 * die), some (192 * die), none, none, r.world⟩
    match ← attempt (writeRange q (policyIa w + 1024 * (w.dumps % policyDumps w)) (dumpBytes r w.dumps)) with
    | .error (.wait _) => pure false
    | _ => do
      modWorld r.world fun w => { w with dumps := w.dumps + 1 }
      pure true
  else pure true

/-- A record as it is forwarded: nothing beyond its fields, and its offset only where the policy permits. -/
def forwarded (s : State) (r : ErrRec) : ErrRec :=
  { r with info := DumpInfo.none, offset := if policyOffsets (worldOf s r.world) then r.offset else none }

/-- The function bound to a world, other than the physical function. -/
def virtualFn (s : State) (world : Nat) : Option Nat :=
  (s.fns.find? fun e => e.1 != 0 && e.2.world = some world).map (·.1)

/-- ERROR_RECORD_TAKE: the firmware core of a die takes its oldest record, writes the dump and forwards it. -/
def takeRecord (die : Nat) : Act Unit := do
  let f := firmwareOf (← get) die
  match f.queue with
  | [] => pure ()
  | r :: _ => do
    if ← writeDump die r then do
      modFirmware die fun f => { f with queue := f.queue.drop 1 }
      modify fun s =>
        { s with hostBox := s.hostBox ++ [.record 0 (forwarded s r)] ++ (match virtualFn s r.world with
          | some fn => [.record fn (forwarded s r)]
          | none => []) }
    else pure ()

/-- ERROR_RECORD_TAKE (17 R413). -/
def execErrorRecordTake (die : Nat) (s : State) : Host.Outcome State Fault Refusal := eventStep (takeRecord die) s

/-! ### Queue resets (19 R466-R468) -/

/-- Units that answer a reset with a drain token: the 64 slices, the CXL port 64, and the Rensar ports 65 to
80 that hold requests of the world. -/
def drainUnits (s : State) (world : Nat) : List Nat :=
  List.range 65 ++ (s.ports.filter fun e => e.2.askers.any fun a => a.2.world = world).map fun e => 65 + e.1

/-- The place of a unit that answers a reset. -/
def routerOfDrain (unit : Nat) : Nat × Nat :=
  if unit < 64 then routerOfSlice unit else if unit = 64 then routerOfCxl else routerOfPort (unit - 65)

/-- The partitions whose front ends ask for a reset's tokens. -/
def resetParts (s : State) (whole : Bool) (part : Nat) : List Nat :=
  (s.partitions.filter fun e => whole || e.1 = part).map (·.1)

/-- The contexts of a world. -/
def inWorld (s : State) (world ctx : Nat) : Bool := (contextOf s ctx).world = some world

/-- Steps 1 to 5 of a reset: the work is removed and every unit is asked for its token, by a message of the partition's front
end (01 R19). -/
def beginReset (fn : Nat) (whole : Bool) (part world : Nat) : Act Unit := do
  let s ← get
  dropWork (inWorld s world) (fun i => whole || i = part) 13
  let s ← get
  let units := drainUnits s world
  modFn fn fun f =>
    { f with resetStatus := 1, resetGo := true, resetWhole := whole, resetPart := part, resetWorld := world, awaiting := units }
  each (resetParts s whole part) fun i =>
    each units fun u => sendMessage none 64 (routerOfFront i) (routerOfDrain u) .manage 0

/-- The world that a function's write names: a virtual function's is its bound world. -/
def resetWorldOf (s : State) (fn world : Nat) : Nat := if fn = 0 then world else ((fnOf s fn).world).getD world

/-- Whether a function may reset a queue of a partition: its own, one of its world, or the shared one;
the physical function any. -/
def ownsPart (s : State) (fn part : Nat) : Bool :=
  match find? s.partitions part with
  | none => false
  | some p => fn = 0 || p.fn = fn || p.world.isNone

/-- A reset of a function's named queue begins, or is refused; while one is running nothing happens (19 R466). -/
def resetQueue (fn part world : Nat) : Act Unit := do
  let s ← get
  if (fnOf s fn).resetStatus = 1 then pure ()
  else if ownsPart s fn part then beginReset fn false part (resetWorldOf s fn world)
  else modFn fn fun f =>
    { f with resetStatus := 3, resetGo := false, resetWhole := false, resetPart := part, resetWorld := resetWorldOf s fn world }

/-- A reset of every queue of a function's world begins, unless one is running. The register's part stays. -/
def resetAll (fn world : Nat) : Act Unit := do
  let s ← get
  if (fnOf s fn).resetStatus = 1 then pure () else beginReset fn true (fnOf s fn).resetPart (resetWorldOf s fn world)

/-- QUEUE_RESET_QUEUE (19 R467): the named queue, or refused. -/
def execQueueResetQueue (fn part world : Nat) (s : State) : Host.Outcome State Fault Refusal :=
  eventStep (tried (resetQueue fn part world)) s

/-- QUEUE_RESET_WHOLE (19 R467): every queue of the world. -/
def execQueueResetWhole (fn world : Nat) (s : State) : Host.Outcome State Fault Refusal :=
  eventStep (tried (resetAll fn world)) s

/-- A write of a function's queue reset register (19 R466): its fields are stored, and with go a reset begins. While one is
running the write has no effect. -/
def writeReset (fn value : Nat) : Act Unit := do
  let s ← get
  let part := bitsOf value 2 4
  let world := resetWorldOf s fn (bitsOf value 6 6)
  if (fnOf s fn).resetStatus = 1 then pure ()
  else do
    modFn fn fun f => { f with resetWhole := bitSet value 1, resetPart := part, resetWorld := world }
    if !bitSet value 0 then pure ()
    else if bitSet value 1 then resetAll fn world
    else resetQueue fn part world

/-- Whether a key operation of a world still owes its counter an update (19 R467 step 4). -/
def keysOwe (s : State) (world : Nat) : Bool :=
  s.keyJobs.any fun e => match e.2 with
    | .seqend _ _ _ _ _ w _ _ => w = world
    | .install .. => false

/-- Whether an outstanding write of a world belongs to work that is gone. -/
def goneAsker (s : State) (world : Nat) (a : Asker) : Bool :=
  a.write && a.world = world && !((find? s.blocks a.bid).any fun b => b.st != .pending)

/-- Whether a unit has performed or discarded every write of a reset's work: a slice once no key operation of the world owes
a counter and no refused write of the queues' work waits, a Rensar port once no write of work that is gone is outstanding. -/
def drained (s : State) (f : Fn) (unit : Nat) : Bool :=
  if unit < 65 then
    !keysOwe s f.resetWorld && s.late.all fun x =>
      x.port.isSome || x.world != f.resetWorld || !(f.resetWhole || partOfCore s x.core = f.resetPart)
  else (portOf s (unit - 65)).askers.all fun a => !goneAsker s f.resetWorld a.2

/-- A TDISP interface enters its new state once its reset is complete: its contexts may not stay enabled out of
RUN, and a transition out of RUN or into ERROR leaves a record for the world (13 R377, 20 R495). -/
def interfaceArrives (fn : Nat) : Act Unit := do
  let s ← get
  let f := fnOf s fn
  match f.going with
  | none => pure ()
  | some t => do
    setFn fn { f with tdisp := t, going := none, session := if t = .unlocked then none else f.session }
    match f.world with
    | none => pure ()
    | some w => do
      if t = .run then pure ()
      else each ((← get).contexts.filter fun e => e.2.world = some w || (e.2.world.isNone && e.2.newWorld = some w)) fun e =>
        barContext e.1
      if f.tdisp = .run || t = .error then
        emitRecord 0 { ErrRec.blank with type := 14, cls := 21, world := w }
      else pure ()

/-- A reset is complete (19 R467 step 6). An interface that leaves its state while one queue alone was being reset has its
whole reset next (13 R377). -/
def resetDone (fn : Nat) : Act Unit := do
  let f := fnOf (← get) fn
  match f.going.isSome && !f.resetWhole, f.world with
  | true, some w => beginReset fn true f.resetPart w
  | _, _ => interfaceArrives fn

/-- DRAIN_TOKEN: a unit's token arrives; after the last one the reset is complete. -/
def takeToken (fn unit : Nat) : Act Unit := do
  let s ← get
  let f := fnOf s fn
  if f.resetStatus = 1 && f.awaiting.contains unit && drained s f unit then do
    let rest := dropAll f.awaiting unit
    let last := rest.isEmpty
    setFn fn { f with
      awaiting := rest
      resetStatus := if last then 2 else 1
      resetGo := !last
      resetCount := if last then f.resetCount + 1 else f.resetCount }
    each (resetParts s f.resetWhole f.resetPart) fun i => sendMessage none 64 (routerOfDrain unit) (routerOfFront i) .managed 0
    if last then resetDone fn else pure ()
  else pure ()

/-- DRAIN_TOKEN (19 R467). -/
def execDrainToken (fn unit : Nat) (s : State) : Host.Outcome State Fault Refusal := eventStep (takeToken fn unit) s

end Sys2Proof.Machine
end

