-- ==== Sys2Proof/Machine/Meter.lean ====
section
/-! DEFINITION. The meter units: the tick boundary, the correction of each domain by its sensor, accounts and
buckets, spend limits, pre-emption, operating points, allowances, caps, and the rack (03 R65-R86; 14 R389;
21 R497-R510). -/
namespace Sys2Proof.Machine
open Sys2Proof

/-! ### Allowances, floors and caps (03 R81, R85, R86; 21 R506-R508) -/

/-- The sum of the partitions' guaranteed floors, as the hypervisor set them. -/
def floorSum (s : State) : Nat := (s.partitions.map (·.2.floorMw)).sum

/-- The sum of the allowances that the partitions ask for. -/
def askedSum (s : State) : Nat := (s.partitions.map (·.2.asked)).sum

/-- The package limit in mW (01 R25). -/
def packageLimit : Nat := 3200000

/-- What bounds the package: the lesser of its cap and its rack grant (21 R506), and never more than its limit (01 R25). -/
def packageBound (s : State) : Nat := Nat.min packageLimit (Nat.min s.packageCap s.rackGrant)

/-- The floor in force of a partition: scaled by a bound below the floors, and at most its own allowance
(21 R507 step 3, R508). -/
def floorInForce (s : State) (p : Partition) : Nat :=
  let f := if packageBound s < floorSum s then p.floorMw * packageBound s / Nat.max (floorSum s) 1 else p.floorMw
  Nat.min f p.asked

/-- The allowance in force: lowered pro rata over the floor in force when the sum exceeds the bound (03 R86). -/
def allowanceInForce (s : State) (p : Partition) : Nat :=
  let bound := packageBound s
  let floors := (s.partitions.map fun e => floorInForce s e.2).sum
  let f := floorInForce s p
  if askedSum s ≤ bound then p.asked
  else f + (p.asked - f) * (bound - floors) / Nat.max (askedSum s - floors) 1

/-- At a boundary, accepted caps and allowances come into force, and the floors and allowances follow. A world
counts the changes of the package's cap and of its partition, and remembers that its floor was scaled. -/
def applyCaps : Act Unit := do
  let s ← get
  let capped := s.newCap.isSome
  let asked := s.partitions.map fun e => (e.1, { e.2 with asked := e.2.newMw.getD e.2.asked, newMw := none })
  let s := { s with packageCap := s.newCap.getD s.packageCap, newCap := none, partitions := asked }
  let parts := s.partitions.map fun e =>
    (e.1, { e.2 with mw := allowanceInForce s e.2, floorNow := floorInForce s e.2 })
  set { s with partitions := parts }
  let t ← get
  each (List.range 64) fun w => do
    let was := (worldPartition s w).map fun p => (p.mw, p.floorNow)
    let now := (worldPartition t w).map fun p => (p.mw, p.floorNow)
    let low := match worldPartition t w with
      | some p => decide (p.floorNow < p.floorMw)
      | none => false
    if capped || was != now || low then
      modWorld w fun x => { x with
        changes := if capped || was != now then x.changes + 1 else x.changes
        scaled := x.scaled || low }
    else pure ()

/-- P_idle of the package: its fused figure in the hottest band in force (21 R507). -/
def packageIdle (s : State) : Nat := Config.idlePower ((List.range 16).foldl (fun a q => Nat.max a (bandIn s q)) 0)

/-- The answer to a request for C against floors F and an idle figure: status, and the value stored. -/
def capAnswer (c floors idle : Nat) (override : Bool) : Nat × Option Nat :=
  if c < floors && !override then (3, none)
  else if c < idle then (2, some idle)
  else (1, some c)

/-- The cap request register as a request leaves it (21 R506): watts, target and override. -/
def noteCap (watts target : Nat) (override : Bool) : Act Unit :=
  let x := watts % 65536 + 65536 * (target % 32) + (if override then 2 ^ 21 else 0)
  modify fun s => { s with capRequest := BitVec.ofNat 64 x }

/-- A request for the package's cap is answered (21 R507). -/
def capForPackage (watts : Nat) (override : Bool) : Act Unit := do
  noteCap watts 16 override
  let s ← get
  let r := capAnswer (1000 * (watts % 65536)) (floorSum s) (packageIdle s) override
  set { s with capStatus := r.1, newCap := match r.2 with
    | some c => some c
    | none => s.newCap }

/-- A request for a partition's allowance is answered (21 R506, R507): status 4 for a reserved target and a partition of no
function. -/
def capForPartition (target watts : Nat) (override : Bool) : Act Unit := do
  noteCap watts target override
  let s ← get
  match find? s.partitions target with
  | none => set { s with capStatus := 4 }
  | some p =>
    if p.world.isNone then set { s with capStatus := 4 }
    else do
      let r := capAnswer (1000 * (watts % 65536)) p.floorMw (partLeakage s p p.lo) override
      setPartition target { p with capStatus := r.1, newMw := match r.2 with
        | some c => some c
        | none => p.newMw }
      modify fun s => { s with capStatus := r.1 }

/-- CAP_REQUEST_PACKAGE (21 R507). -/
def execCapRequestPackage (watts : Nat) (override : Bool) (s : State) : Host.Outcome State Fault Refusal :=
  eventStep (capForPackage watts override) s

/-- CAP_REQUEST_PARTITION (21 R506, R507). -/
def execCapRequestPartition (target watts : Nat) (override : Bool) (s : State) : Host.Outcome State Fault Refusal :=
  eventStep (capForPartition target watts override) s

/-! ### Operating points (03 R67, R81, R82; 21 R497-R499, R510) -/

/-- VC voltage of each point, in mV (03 R67). -/
def voltOf : Nat → Nat
  | 0 => 500 | 1 => 525 | 2 => 550 | 3 => 575 | 4 => 600 | 5 => 625 | 6 => 650 | 7 => 675 | 8 => 700 | 9 => 725
  | 10 => 750 | 11 => 775 | 12 => 800 | 13 => 830 | 14 => 855 | _ => 880

/-- The voltage offset of a point, in mV: +20 while the clock is halved (21 R497, R498). -/
def offsetAt (q : Quad) (p : Nat) : Int := if q.halved then 20 else (find? q.offset p).getD 0

/-- The target-rate loop of a domain at a boundary (21 R497), after which the tick's counts start again and a
halved clock ends. -/
def rateLoop (q : Quad) : Quad :=
  let quiet := if q.replays = 0 then q.quiet + 1 else 0
  let now := (find? q.offset q.op).getD 0
  let next := if 4 * q.passes < q.replays * 2 ^ 20 then min (now + 5) 20
    else if 64 ≤ quiet then max (now - 5) (-40) else now
  { q with offset := put q.offset q.op next, quiet := quiet, replays := 0, passes := 0, halved := false }

/-- Whether a dedicated partition's average power over the last 1 ms exceeds its allowance (03 R81). The last
63 ticks cover 1 ms. -/
def overAllowance (p : Partition) : Bool :=
  let l := p.energies.take 63
  p.world.isSome && decide (allowed p.mw l.length < spentOver l.sum)

/-- The point that R81 and R82 give a quadrant at a boundary: in a dedicated partition the last accepted, or one step down
for an allowance exceeded, and elsewhere the host's (19 R449). The quadrants of a dedicated partition share the point of its lowest. -/
def targetPoint (s : State) (i : Nat) (q : Quad) : Nat :=
  match s.partitions.find? fun e => e.2.quads.contains i && e.2.world.isSome with
  | none => q.hostOp
  | some e =>
    let first := quadOf s e.1
    let t := Nat.max e.2.lo (Nat.min (first.pendingOp.getD first.target) e.2.hi)
    if overAllowance e.2 then Nat.max e.2.lo (t - 1) else t

/-- The point in force: the least of the target, the thermal ceiling and a forced point (21 R510). -/
def pointInForce (q : Quad) : Nat := if q.forced then 0 else Nat.min q.target q.ceiling

/-- A quadrant takes the point that holds from now on, by a slew when it changes (03 R82). -/
def takePoint (q : Quad) : Quad :=
  let p := pointInForce q
  if p = q.op then q else { q with op := p, slewing := true, slewFrom := q.op }

/-- A quadrant at a tick boundary. -/
def quadBoundary (s : State) (i : Nat) : Act Unit :=
  modQuad i fun q =>
    let t := targetPoint s i q
    let q := takePoint { rateLoop q with target := t, pendingOp := none, dueOp := q.startOp }
    { q with startOp := q.op }

/-- OP_SLEW_COMPLETE (03 R82). -/
def execOpSlewComplete (quad : Nat) (s : State) : Host.Outcome State Fault Refusal :=
  eventStep (modQuad quad fun q => { q with slewing := false, slewFrom := q.op }) s

/-! ### The tick boundary (03 R72, R73) -/

/-- The contexts that teams of a core work for, with the weights of their slots; firmware teams work for
none. -/
def coreWork (s : State) (core : Nat) : List (Nat × Nat) :=
  (s.teams.filter fun e => !e.2.retired && !e.2.firmware && (match find? s.blocks e.2.bid with
    | some b => b.core = core && b.st = .resident
    | none => false)).map fun e => (match find? s.blocks e.2.bid with
      | some b => workContext e.2 b
      | none => 0, e.2.weight)

/-- Contexts with work on a core; a block's own context keeps its set while a team holds another's task. -/
def coreContexts (s : State) (core : Nat) : List Nat :=
  ((coreWork s core).map (·.1) ++ (s.blocks.filter fun e => e.2.core = core && e.2.st = .resident).map (·.2.ctx)).eraseDups

/-- Add to an entry of a table of sums. -/
def addTo (t : Tbl Nat) (k v : Nat) : Tbl Nat := put t k ((find? t k).getD 0 + v)

/-- The copy of a core's charge sets into its domain. -/
def copyCore (t : Tbl Nat) (e : Nat × Core) : Tbl Nat :=
  e.2.charges.foldl (fun t x => if x.2.dynamic = 0 then t else addTo t ((quadOfCore e.1 * 1024 + x.1) * 2) x.2.dynamic) t

/-- The copy of the base layers' accumulators. -/
def copyBase (t : Tbl Nat) (e : Nat × Nat) : Tbl Nat := addTo t (e.1 + 16 * 1024 * 2) e.2

/-- A core after the copy: sets of contexts with no team go free; the others start again under their previous
grants, and a context that had reached its grant stays stopped. -/
def coreBoundary (s : State) (e : Nat × Core) : Nat × Core :=
  let live := coreContexts s e.1
  (e.1, { e.2 with
    due := e.2.paid
    paid := e.2.latch
    charges := (e.2.charges.filter fun x => live.contains x.1).map fun x =>
      (x.1, { x.2 with
        dynamic := 0, committed := 0
        stopped := x.2.stopped || (x.2.granted && decide (x.2.grant ≤ committedOf s e.1 x.1 x.2)) }) })

/-- What a block has been charged stands for the tick that has ended (03 R73). -/
def blockBoundary (e : Nat × Block) : Nat × Block := (e.1, { e.2 with seen := e.2.spent })

/-- The same of its shares of the base domains' charges. -/
def shareBoundary (e : Nat × BaseSpend) : Nat × BaseSpend := (e.1, { e.2 with seen := e.2.spent })

/-- A new tick lets the host write a context's credit again (03 R65). -/
def newCredit (e : Nat × Context) : Nat × Context := (e.1, { e.2 with credited := false })

/-- TICK_BOUNDARY: every accumulator is copied out and cleared, and pending points and caps come into force.
Latch changes, removals of cores and resizes under way go on, and a TNEXT that waits for a charge set looks again (03 R72). -/
def tickBoundary : Act Unit := do
  let s ← get
  if s.tickDue || s.time < s.tickTime + 16000 then pure ()
  else do
    set { s with
      tick := s.tick + 1
      tickTime := s.tickTime + 16000
      tickDue := true
      tickCopies := s.baseCharges.foldl copyBase (s.cores.foldl copyCore [])
      hostCopies := s.baseHost
      baseCharges := []
      baseHost := []
      cores := s.cores.map (coreBoundary s)
      blocks := s.blocks.map blockBoundary
      blockBase := s.blockBase.map shareBoundary
      grantCopy := s.rackGrant
      contexts := s.contexts.map newCredit }
    applyCaps
    let s ← get
    each (List.range 16) (quadBoundary s)
    coresGoOn
    each (s.partitions.map (·.1)) goOnResizing
    wakeRoom

/-- TICK_BOUNDARY (03 R73). -/
def execTickBoundary (s : State) : Host.Outcome State Fault Refusal := eventStep tickBoundary s

/-! ### One domain's correction (03 R74, R75; 21 R501, R502) -/

/-- The copied charges of a domain, by context: both class groups together. -/
def dynamicOf (s : State) (d : Nat) : Tbl Nat :=
  s.tickCopies.foldl (fun t e => if e.1 / 2048 = d then addTo t (e.1 / 2 % 1024) e.2 else t) []

/-- The context with the largest charge, the lower number winning a tie. -/
def largest (t : Tbl Nat) : Option Nat :=
  (t.foldl (fun (a : Option (Nat × Nat)) e => match a with
    | none => some e
    | some x => if x.2 < e.2 then some e else some x) none).map (·.1)

/-- A world's leakage in a domain, divided among its charged contexts (03 R74). The second part is what no
context takes. -/
def shareLeakage (s : State) (dyn : Tbl Nat) (world leak : Nat) : Tbl Nat × Nat :=
  let own := dyn.filter fun e => inWorld s world e.1 && e.2 != 0
  let total := (own.map (·.2)).sum
  match largest own with
  | some x =>
    let shares := own.map fun e => (e.1, leak * e.2 / total)
    (addTo shares x (leak - (shares.map (·.2)).sum), 0)
  | none =>
    match (worldOf s world).baseCtx with
    | some x => ([(x, leak)], 0)
    | none => ([], leak)

/-- Leakage of each latched world in a compute domain; none for the unlatched cores. The temperature band is that of the
tick update (DESIGN CHOICE, log entry 43: the manual names no instant of the tick for it). -/
def leakageOf (s : State) (q : Nat) : List (Option Nat × Nat) :=
  let p := (quadOf s q).dueOp
  let of := fun i => leakageFigure (48 * q + i) p (bandIn s q)
  let latches := (List.range 48).map fun i => ((coreOf s (48 * q + i)).due, of i)
  (latches.map (·.1)).eraseDups.map fun w => (w, ((latches.filter fun e => e.1 = w).map (·.2)).sum)

/-- The leakage shares of a domain's contexts, and the host's part. -/
def leakShares (s : State) (d : Nat) (dyn : Tbl Nat) : Tbl Nat × Nat :=
  if d < 16 then
    (leakageOf s d).foldl (fun a e => match e.1 with
      | none => (a.1, a.2 + e.2)
      | some w =>
        let r := shareLeakage s dyn w e.2
        (r.1.foldl (fun t x => addTo t x.1 x.2) a.1, a.2 + r.2)) ([], 0)
  else ([], Config.baseLeakage (d - 16) (bandIn s (d - 16)))

/-- The voltage that a domain's regulator is set to, in mV (01 R15, 03 R67, 21 R497). -/
def setPoint (s : State) (d : Nat) : Int :=
  if d < 16 then (voltOf (quadOf s d).dueOp : Int) + offsetAt (quadOf s d) (quadOf s d).dueOp else 750

/-- Two numbers more than a tenth of the second apart. -/
def tenthApart (x y : Int) : Bool := decide (y.natAbs < 10 * (x - y).natAbs)

/-- The run of equal samples, over one more sample; true when a new value began. -/
def runOn (x : Sensor) (v : Nat × Nat) : Sensor :=
  if x.run ≠ 0 && x.last = v then { x with run := x.run + 1 } else { x with run := 1, last := v, moved := false }

/-- A domain's correction factor before and after its clamp (03 R75). -/
def factorOf (meas est : Nat) : Nat × Nat :=
  if est = 0 then (65536, 65536)
  else
    let c := (meas * 65536 + est / 2) / est
    (c, Nat.min (Nat.max c 32768) 131072)

/-- The measured energy of a tick, in mq, rounded down: the integral of voltage times current over its samples, 1 µs apart
(01 R17; log entry 23). -/
def measuredEnergy (v : DomainSample) : Nat :=
  ((v.volts.zip v.amps).map fun e => e.1 * e.2).sum * 2 ^ 40 / 10 ^ 15

/-- The sensor of a domain after a tick's samples against an estimate (21 R501). -/
def judgeSensor (set_ : Int) (x : Sensor) (v : DomainSample) (est : Nat) : Sensor :=
  let y := (v.volts.zip v.amps).foldl runOn x
  let y := { y with moved := y.moved || decide (y.run ≥ 16 && est ≠ x.est), est := est }
  let c := factorOf (measuredEnergy v) est
  let y := { y with
    apart := if tenthApart (measuredEnergy v) v.phase then x.apart + 1 else 0
    clamps := if c.1 ≠ c.2 then x.clamps + 1 else 0 }
  { y with failed := x.failed || v.volts.any (fun u => tenthApart u set_) || (decide (64 ≤ y.run) && y.moved)
      || decide (4 ≤ y.apart) || decide (256 ≤ y.clamps) }

/-- What a tick's correction makes of one domain. -/
structure DomainEnd where
  sensor : Sensor
  est : Nat
  meas : Nat                 -- as corrected with
  power : Nat                -- as the tests of R81 and R82 take it (21 R502)
  factor : Nat
  clamped : Bool             -- the clamp flag of its contexts is set
  dyn : Tbl Nat
  leak : Tbl Nat
  corrected : Tbl Nat
  overhead : Int
deriving DecidableEq, Repr

/-- Correct one domain (03 R75; 21 R502). Charges of no context count in the estimate, and stay with the host
in what is left over. -/
def correctDomain (s : State) (d : Nat) (v : DomainSample) : DomainEnd :=
  let dyn := dynamicOf s d
  let leak := leakShares s d dyn
  let raw := leak.1.foldl (fun t e => addTo t e.1 e.2) dyn
  let est := (raw.map (·.2)).sum + leak.2 + (find? s.hostCopies d).getD 0
  let y := judgeSensor (setPoint s d) ((find? s.sensors d).getD Sensor.fresh) v est
  let meas := if y.failed then est else measuredEnergy v
  let c := factorOf meas est
  let corrected := raw.map fun e => (e.1, (e.2 * c.2 + 32768) / 65536)
  let host : Nat := (leak.2 * c.2 + 32768) / 65536
  { sensor := y, est := est, meas := meas, power := if y.failed then est * 5 / 4 else meas, factor := c.2
    clamped := y.failed || c.1 != c.2, dyn := dyn, leak := leak.1, corrected := corrected
    overhead := if est = 0 then (meas : Int)
      else (host : Int) + ((meas : Int) - host - ((corrected.map (·.2)).sum : Nat)) }

/-! ### The update (03 R76-R79) -/

/-- The sum over all domains of one table of each. -/
def totalOf (rs : List DomainEnd) (f : DomainEnd → Tbl Nat) (ctx : Nat) : Nat :=
  (rs.map fun r => (find? (f r) ctx).getD 0).sum

/-- A context energy block after a tick update (03 R76, R79): what the host wrote takes effect first. A level that falls
below -2^63 is kept, and a read gives its low 64 bits (DESIGN CHOICE, log entry 14: R76 gives the signed 64-bit level no
overflow). -/
def updateContext (t : Nat) (clamped : Bool) (x : Context) : Context :=
  let refill := x.newRefill.getD x.refill
  let brim := Nat.max (x.newBrim.getD x.brim) refill
  let level := min (x.level - t + x.credit + refill) brim
  { x with
    account := x.account + BitVec.ofNat 96 t
    level := level, refill := refill, brim := brim, credit := 0
    enable := x.newEnable.getD x.enable
    world := match x.world with
      | none => x.newWorld
      | some w => some w
    empty := decide (level ≤ 0), clamp := x.clamp || clamped || x.newClamp, last := t
    newRefill := none, newBrim := none, newEnable := none, newWorld := none, newClamp := false, barred := false }

/-- Whether a context is charged in a domain that was clamped. -/
def clampedIn (rs : List DomainEnd) (ctx : Nat) : Bool :=
  rs.any fun r => r.clamped && (find? r.corrected ctx).isSome

/-- Charges of a class group of the base domains (03 R83). -/
def groupOf (s : State) (g ctx : Nat) : Nat :=
  ((List.range 16).map fun q => (find? s.tickCopies (((16 + q) * 1024 + ctx) * 2 + g)).getD 0).sum

/-- A world's sums for its next meter record, with one context of it (03 R83). -/
def addToWorld (s : State) (rs : List DomainEnd) (ctx : Nat) (w : World) : World :=
  let t := totalOf rs (·.corrected) ctx
  { w with
    total := w.total + t
    rawCompute := w.rawCompute + totalOf (rs.take 16) (·.dyn) ctx
    rawMemory := w.rawMemory + groupOf s 0 ctx
    rawFabric := w.rawFabric + groupOf s 1 ctx
    rawLeakage := w.rawLeakage + totalOf rs (·.leak) ctx
    clamped := w.clamped || clampedIn rs ctx
    charged := if rs.any fun r => (find? r.corrected ctx).isSome then insertNew w.charged ctx else w.charged }

/-- The points of a world's tick: once for each quadrant whose compute domain charged it (14 R389). -/
def addPoints (s : State) (rs : List DomainEnd) (world : Nat) (w : World) : World :=
  { w with points := (List.range 16).foldl (fun t q => match rs[q]? with
      | some r => if r.corrected.any fun e => inWorld s world e.1 then addTo t (quadOf s q).dueOp 1 else t
      | none => t) w.points }

/-- A partition's power over this tick joins its history. -/
def addPower (rs : List DomainEnd) (p : Partition) : Partition :=
  let sum := fun (f : Nat → Nat) => (p.quads.map f).sum
  let of := fun (d : Nat) (f : DomainEnd → Nat) => (rs[d]?.map f).getD 0
  let dynamic := fun (r : DomainEnd) =>
    let x := ((r.dyn.map (·.2)).sum * r.factor + 32768) / 65536
    if r.sensor.failed then x * 5 / 4 else x
  { p with
    energies := (sum (fun q => of q (·.power) + of (16 + q) (·.power)) :: p.energies).take 64
    dynamics := (sum (fun q => of q dynamic) :: p.dynamics).take 64
    bases := (sum (fun q => of (16 + q) (·.power)) :: p.bases).take 64 }

/-- A grant scaled by an allowance exceeded at the lowest point of the range (03 R81). -/
def scaleGrant (s : State) (core g : Nat) : Nat :=
  match s.partitions.find? fun e => e.2.quads.contains (quadOfCore core) with
  | none => g
  | some e =>
    if overAllowance e.2 && decide ((quadOf s (quadOfCore core)).target ≤ e.2.lo) then
      let l := e.2.energies.take 63
      g * allowed e.2.mw l.length / Nat.max (spentOver l.sum) 1
    else g

/-- Weight of a context among a list of weights. -/
def weightIn (l : List (Nat × Nat)) (x : Nat) : Nat := ((l.filter fun e => e.1 = x).map (·.2)).sum

/-- The limit of one charge set of a core, from the work of every core (03 R77). An empty context has none, so
that what drains runs to its end. A set on a core that holds no team of the context is granted nothing while another core
holds one, and the whole level while none does (DESIGN CHOICE, log entry 43: R77 gives limits to the cores that hold its teams
alone). -/
def newLimit (s : State) (work : List (Nat × List (Nat × Nat))) (core x : Nat) (c : ChargeSet) : ChargeSet :=
  let level := (contextOf s x).level
  let all := (work.map fun w => weightIn w.2 x).sum
  let own := weightIn ((find? work core).getD []) x
  if level ≤ 0 then { c with granted := false, stopped := false }
  else
    let g := scaleGrant s core (if all = 0 then level.toNat else level.toNat * own / all)
    { c with grant := g, granted := true, stopped := c.stopped && decide (g ≤ committedOf s core x c) }

/-- New spend limits for every core (03 R77). -/
def grantLimits : Act Unit := do
  let s ← get
  let work := s.cores.map fun e => (e.1, coreWork s e.1)
  let limited := fun (i : Nat) (c : Core) =>
    { c with charges := c.charges.map fun (x : Nat × ChargeSet) => (x.1, newLimit s work i x.1 x.2) }
  set { s with cores := s.cores.map fun (e : Nat × Core) => (e.1, limited e.1 e.2) }

/-- The way in which an empty bucket pre-empts a block (03 R78). -/
def preemptWay (l : Launch) (spent : Nat) : Preempt :=
  let m := l.eh - spent
  let cost := 2033 * ((frameBytes l + 63) / 64)
  if m ≤ Nat.min (2 ^ 20) (l.eh / 4) then .drain (spent + 2 * m)
  else if launchIdempotent l && decide (spent ≤ cost) then .flush
  else .save

/-- Whether a block works for an empty context: its own, or that of a task which one of its teams holds. -/
def worksForEmpty (s : State) (bid : Nat) (b : Block) : Bool :=
  !isFirmwareCore b.core && ((contextOf s b.ctx).empty || s.teams.any fun e =>
    e.2.bid = bid && !e.2.retired && !e.2.firmware && (contextOf s (workContext e.2 b)).empty)

/-- A resident block with no way chosen yet is pre-empted; a choice once made stays (03 R79). -/
def choosePreempt (s : State) (bid : Nat) (b : Block) : Block :=
  if b.st = .resident && b.preempt = .none then { b with preempt := preemptWay (launchOf s b.launch) (spentOf s bid b) } else b

/-- Whether a block is to leave its core. -/
def mustLeave (b : Block) : Bool := b.preempt = .flush || b.preempt = .save

/-- The gangs that an empty context pre-empts: a part of one has a block that must leave, or is still to start (02 R61). -/
def emptyGangs (s : State) : List Nat :=
  (s.launches.filter fun e =>
    (e.2.gang = .running && s.blocks.any fun b => b.2.launch = e.1 && worksForEmpty s b.1 b.2 && mustLeave b.2)
      || (e.2.gang = .committed && (contextOf s e.2.ctx).empty)).map (·.1)

/-- Every part of some gangs is pre-empted, and they go back to their queues (02 R61). -/
def preemptGangs (ids : List Nat) : Act Unit := do
  let s ← get
  let gangs := ids.filter fun id => (launchOf s id).gang = .running || (launchOf s id).gang = .committed
  modify fun s => { s with blocks := s.blocks.map fun e =>
    (e.1, if gangs.contains e.2.launch then choosePreempt s e.1 e.2 else e.2) }
  each gangs requeueGang

/-- Every resident block that works for an empty context is pre-empted (03 R78), and with a part of a gang every part
(02 R61). -/
def preemptEmpty : Act Unit := do
  modify fun s => { s with blocks := s.blocks.map fun e =>
    (e.1, if worksForEmpty s e.1 e.2 then choosePreempt s e.1 e.2 else e.2) }
  preemptGangs (emptyGangs (← get))

/-- DRAIN_OVERRUN (03 R78): a draining block that has spent more than twice its remaining estimate is then
saved. -/
def execDrainOverrun (bid : Nat) (s : State) : Host.Outcome State Fault Refusal :=
  eventStep (do
    match find? (← get).blocks bid with
    | some b =>
      match b.preempt with
      | .drain limit =>
        if limit < spentOf (← get) bid b then do
          setBlock bid { b with preempt := .save }
          preemptGangs [b.launch]
        else pure ()
      | _ => pure ()
    | none => pure ()) s

/-- The record of a failed sensor (21 R501). -/
def sensorRecords (s : State) (rs : List DomainEnd) : Act Unit :=
  each (List.range 32) fun d =>
    let before := ((find? s.sensors d).getD Sensor.fresh).failed
    match rs[d]? with
    | some r =>
      if r.sensor.failed && !before then
        emitRecord (d % 16 / 4) { ErrRec.blank with type := 14, cls := 21, unit := 7, number := d }
      else pure ()
    | none => pure ()

/-- A sample for a domain that none is given for: nothing measured. -/
def DomainSample.none : DomainSample := ⟨[], [], 0⟩

/-- Before a reset that the host asked for, once a whole boundary has passed: a meter record for each world
with charge since its last one (21 R505). -/
def recordsForReset : Act Unit := do
  let s ← get
  match s.resetAsked with
  | none => pure ()
  | some t =>
    if t < s.tick then
      each (s.worlds.filter fun e => !e.2.charged.isEmpty && !e.2.unmetered) fun e => do
        let bs ← closeInterval e.1
        modify fun s => { s with hostBox := s.hostBox ++ [.meter bs] }
    else pure ()

/-- The host's own meter records, whose interval ends at the first boundary after the request (03 R83). -/
def recordsForHost : Act Unit := do
  let s ← get
  set { s with meterAsked := s.meterAsked.filter fun e => decide (s.tick ≤ e.2) }
  each (s.meterAsked.filter fun e => decide (e.2 < s.tick)) fun e => do
    if (worldOf (← get) e.1).unmetered then pure ()
    else do
      let bs ← closeInterval e.1
      modify fun s => { s with hostBox := s.hostBox ++ [.meter bs] }

/-- A block's charge of the tick that has ended is corrected by its domain's factor (03 R75, R80). -/
def correctBlock (s : State) (e : Nat × Block) : Nat × Block :=
  (e.1, { e.2 with
    measured := e.2.measured + correctedBy (quadOf s (quadOfCore e.2.core)).factor (e.2.seen - e.2.judged)
    judged := e.2.seen })

/-- The same of a share of a base domain's charges. -/
def correctShare (s : State) (e : Nat × BaseSpend) : Nat × BaseSpend :=
  (e.1, { e.2 with
    measured := e.2.measured + correctedBy (quadOf s (e.1 % 16)).baseFactor (e.2.seen - e.2.judged)
    judged := e.2.seen })

/-- The meter units drain the copies over the management channel (01 R19, 03 R73): those of the cores that hold charge sets,
and of the slices of a quadrant whose base layer has charged something. -/
def drainMeters (s : State) : Act Unit := do
  each (s.cores.filter fun e => !e.2.charges.isEmpty) fun e =>
    command none 64 (routerOfMeter (quadOfCore e.1)) (coreRouter e.1) 0
  each ((List.range 16).filter fun q => s.tickCopies.any fun e => e.1 / 2048 = 16 + q) fun q =>
    each (List.range 4) fun j => command none 64 (routerOfMeter q) (routerOfSlice (4 * q + j)) 0

/-- TICK_UPDATE: the copies are drained and corrected, and accounts, buckets, limits and pre-emptions follow.
METER's interval ends here (11 R350). -/
def tickUpdate (samples : List DomainSample) : Act Unit := do
  let s ← get
  if !s.tickDue then pure ()
  else do
    let rs := (List.range 32).map fun d => correctDomain s d (samples.getD d DomainSample.none)
    drainMeters s
    sensorRecords s rs
    modify fun t => { t with
      tickDue := false
      tickCopies := []
      hostCopies := []
      overhead := t.overhead + BitVec.ofInt 96 (rs.map (·.overhead)).sum
      drawn := (rs.map (·.meas)).sum
      sensors := (List.range 32).map fun d => (d, (rs[d]?.map (·.sensor)).getD Sensor.fresh)
      partitions := t.partitions.map fun e => (e.1, addPower rs e.2) }
    each (List.range 16) fun q => modQuad q fun x =>
      { x with factor := (rs[q]?.map (·.factor)).getD 65536, baseFactor := (rs[16 + q]?.map (·.factor)).getD 65536 }
    modify fun t => { t with blocks := t.blocks.map (correctBlock t), blockBase := t.blockBase.map (correctShare t) }
    each (List.range 1024) fun x => do
      match (contextOf s x).world with
      | some w => modWorld w (addToWorld s rs x)
      | none => pure ()
    each s.worlds fun e => modWorld e.1 (addPoints s rs e.1)
    modify fun t => { t with contexts := (List.range 1024).map fun x =>
      (x, updateContext (totalOf rs (·.corrected) x) (clampedIn rs x) (contextOf s x)) }
    grantLimits
    preemptEmpty
    wakeMeters
    recordsForHost
    recordsForReset

/-- TICK_UPDATE (03 R76). -/
def execTickUpdate (samples : List DomainSample) (s : State) : Host.Outcome State Fault Refusal :=
  eventStep (tickUpdate samples) s

/-- SPEND_LIMIT_REACHED (03 R77): the context's teams on the core stay not ready until a larger limit. -/
def execSpendLimitReached (core ctx : Nat) (s : State) : Host.Outcome State Fault Refusal :=
  eventStep (do
    let s ← get
    match find? (coreOf s core).charges ctx with
    | some x =>
      if x.granted && decide (x.grant ≤ committedOf s core ctx x) then
        modCore core fun c => { c with charges := put c.charges ctx { x with stopped := true } }
      else pure ()
    | none => pure ()) s

/-! ### Meter data lost (21 R503, R504) -/

/-- A charge found uncorrectable when it is drained counts as zero, and the domain's contexts are flagged. -/
def loseCharges (d ctx : Nat) : Act Unit := do
  let s ← get
  if !s.tickDue then pure ()
  else do
    let hit := (dynamicOf s d).map (·.1)
    set { s with
      tickCopies := s.tickCopies.filter fun e => e.1 / 2 != d * 1024 + ctx
      contexts := hit.foldl (fun t x => put t x { contextOf s x with newClamp := true }) s.contexts }
    each hit fun x => do
      match (contextOf s x).world with
      | some w => modWorld w fun y => { y with clamped := true }
      | none => pure ()
    emitRecord (d % 16 / 4) { ErrRec.blank with type := 14, cls := 21, unit := 7, number := d }

/-- Both copies of a context energy block have failed: the world's contexts end, and its meter signs nothing
until the next epoch. -/
def loseEnergyBlock (d ctx : Nat) : Act Unit := do
  match (contextOf (← get) ctx).world with
  | none => pure ()
  | some w => do
    modWorld w fun x => { x with unmetered := true }
    each ((← get).contexts.filter fun e => e.2.world = some w) fun e =>
      endContext e.1 ⟨2, 21, 0, 0x3ff, 0, DumpInfo.none, ⟨7, d, 0⟩⟩

/-! ### Soft errors -/

/-- A soft error (20 R469): it is handled where it is found, here at once. -/
def softError (u : Upset) : Act Unit :=
  match u with
  | .reg tid phys lane => do
    match find? (← get).teams tid with
    | none => pure ()
    | some t =>
      if phys < t.frame && lane < t.lanes && !t.retired then do
        setTeam tid { t with vPoison := insertNew t.vPoison (phys * 1024 + lane) }
        match find? (← get).blocks t.bid with
        | some b => coreError b.core
        | none => pure ()
      else pure ()
  | .stash bid word => upsetStash bid word
  | .tile bid e => do
    match find? (← get).blocks bid with
    | none => pure ()
    | some b =>
      if e < 4096 * b.tiles && b.st = .resident then do
        setBlock bid { b with tilePoison := insertNew b.tilePoison e }
        coreError (4 * clusterOfCore b.core)
      else pure ()
  | .l1 core key => upsetL1 core key
  | .corrected core => coreCorrected core
  | .hbm ma => pageCorrected ma
  | .table ia world => modify fun s => { s with tlb := del s.tlb (tlbKey ia world (sliceOf ia)) }
  | .tag ma => do
    let m := blockMetaOf (← get) ma
    setMeta ma { m with bad := m.bad ||| 256 }
  | .tagLine ma => upsetTagLine ma
  | .keyReplica slice slot => upsetReplica slice slot
  | .llcTag ma => upsetLlcTag ma
  | .directory ma => upsetDirectory ma
  | .relOwner world line => upsetOwner world line
  | .code core key => upsetCode core key
  | .missed ma => upsetMissed ma
  | .stores core => modCore core fun c => { c with stuck := true }
  | .charges d ctx => loseCharges d ctx
  | .energyBlock ctx => loseEnergyBlock 0 ctx

/-! ### The context energy block (03 R65) -/

/-- Whether a function's window holds a context's registers: the physical function's every one, a virtual one's its
world's. -/
def reaches (s : State) (fn ctx : Nat) : Bool :=
  fn = 0 || (match (contextOf s ctx).world with
    | some w => (fnOf s fn).world = some w
    | none => false)

/-- A write of a context's credit: the first one in a tick counts, and is added at the next update. -/
def writeCredit (fn ctx : Nat) (value : Int) : Act Unit := do
  if reaches (← get) fn ctx then
    modContext ctx fun x =>
      if x.credited then x else { x with credit := signed 64 (wrapTo 64 (x.credit + value)), credited := true }
  else pure ()

/-- CREDIT_WRITE (03 R65). -/
def execCreditWrite (place : Nat × Nat) (value : Int) (s : State) : Host.Outcome State Fault Refusal :=
  eventStep (writeCredit place.1 place.2 value) s

end Sys2Proof.Machine
end

