-- ==== Sys2Proof/Machine/Platform.lean ====
section
/-! DEFINITION. The platform: device reset and boot, checkpoints, timing replays, droops, temperature, and the
power of gateable units (13 R382-R388; 20 R476; 21 R496-R513). -/
namespace Sys2Proof.Machine
open Sys2Proof

/-- A record of the platform: type 14, class 21 (17 R415). -/
def platformRecord (die : Nat) (r : ErrRec) : Act Unit := emitRecord die { r with type := 14, cls := 21 }

/-! ### Reset and boot (03 R64; 04 R116; 13 R383; 21 R505) -/

/-- Key slots after reset: the generation lives in the protected store, and a retired slot stays retired
(04 R115, R116). -/
def keysAfterReset (t : Tbl KeySlot) : Tbl KeySlot :=
  t.map fun e => (e.1, { KeySlot.fresh with st := if e.2.st = .retired then .retired else .empty, gen := e.2.gen })

/-- Whether the boot ROM starts the image (13 R383) and the epoch counter could be raised (21 R505). -/
def bootGood (s : State) (img : BootImage) : Bool :=
  img.signatureGood && decide (s.rollback ≤ img.version) && img.epochGood

/-- The device after a reset. What the protected store and the fuses hold stays: the epoch, which rises, the
key generations, the retirement list and the rollback counter; so does host memory, with its tag entries (04 R110). -/
def afterReset (s : State) (img : BootImage) : State :=
  { State.reset with
    epoch := if img.epochGood then s.epoch + 1 else s.epoch
    bootStatus := if bootGood s img then 1 else 2
    rollback := s.rollback
    measurement := if bootGood s img then Config.measure 0 img.digest else 0
    retiredPages := s.retiredPages
    keys := keysAfterReset s.keys
    mem := s.mem.filter fun c => decide (0x200000000000 ≤ c.1)
    blocksMeta := s.blocksMeta.filter fun e => isHostMa (512 * e.1)
    cxlWidth := s.cxlWidth
    cxlSpeed := s.cxlSpeed
    hostBox := s.hostBox
    agenda := s.agenda
    draws := s.draws }

/-- The launch record of the firmware's image, which no queue has held: one team of 32 lanes with a window of 64 registers, and
no stash (DESIGN CHOICE, log entry 46: 13 R383 says only that the image is started). -/
def imageLaunch (img : BootImage) : Launch :=
  { Launch.blank with
    words := [BitVec.ofNat 64 img.entry] ++ List.replicate 10 0#64 ++ [BitVec.ofNat 64 (7 * 2 ^ 10)] ++ List.replicate 52 0#64
    ctx := img.ctx, world := img.world, open_ := 1, ended := true }

/-- The image starts on the firmware core of a die, in firmware mode (01 R11, 13 R383). -/
def startImage (img : BootImage) (s : State) (die : Nat) : State :=
  let id := s.nextId
  let core := 192 * die
  let s := { s with launches := put s.launches id (imageLaunch img), nextId := id + 1 }
  { s with
    cores := put s.cores core { coreOf s core with latch := some img.world }
    blocks := put s.blocks id { newBlock s id 0 0 with core := core, st := .resident, nteams := 1 }
    teams := put s.teams (id * 8) { newTeam id 0 (imageLaunch img) img.entry 0 with firmware := true } }

/-- The image's context, as the ROM leaves it: in the image's world, with every VA its own IA (DESIGN CHOICE, log entry 46). -/
def imageContext (img : BootImage) (s : State) : State :=
  { s with contexts := put s.contexts img.ctx { contextOf s img.ctx with
      world := some img.world, rr := [(0, ⟨0xf#64, BitVec.ofNat 64 (2 ^ 36), 0#64⟩)] } }

/-- The device after a reset and its boot: an image that passes its checks starts on all four firmware cores (13 R383). -/
def booted (s : State) (img : BootImage) : State :=
  let t := afterReset s img
  if bootGood s img then (List.range 4).foldl (startImage img) (imageContext img t) else t

/-- DEVICE_RESET (13 R383). -/
def execDeviceReset (img : BootImage) (s : State) : Host.Outcome State Fault Refusal :=
  eventStep (modify fun s => booted s img) s

/-- HOST_RESET_REQUEST (21 R505): dispatch stops, and the next boundary's update writes the meter records. -/
def execHostResetRequest (s : State) : Host.Outcome State Fault Refusal :=
  eventStep (modify fun s => if s.resetAsked.isSome then s else { s with resetAsked := some s.tick }) s

/-! ### Checkpoints (13 R388; 21 R516) -/

/-- Whether a program's block is resident; the firmware's own work is not part of a checkpoint (13 R388). -/
def holdsProgram (b : Block) : Bool := b.st = .resident && !isFirmwareCore b.core

/-- Every resident block is to be saved; those to which nothing is owed are. -/
def saveAll : Act Unit := do
  each ((← get).blocks.filter fun e => holdsProgram e.2) fun e => do
    modBlock e.1 fun b => { b with preempt := .save }
    let _ ← attempt (saveHome e.1)

/-- Every slice writes back its dirty lines. -/
def backAllLlc : Act Unit := do
  each (← get).llc fun e => writeBackLine e.1 (lineBlock e.1 * 512) (lineSlot e.1)

/-- The secrets' export, as the host receives it (04 R123). -/
def exportKeys (s : State) : List HostMsg :=
  (s.keys.filter fun e => e.2.st = .world || e.2.st = .sequence).map fun e => .wrapped e.1 e.2.owner e.2.gen

/-- The writes that carry a checkpoint's image: one for each 1,024 bytes of 768 GiB, in 17 flits with its header. -/
def imageWrites : Nat := 824633720832 / 1024

/-- Bursts of 64 bytes that read one stack's share of the image. -/
def imageBursts : Nat := 824633720832 / 64 / 16

/-- A port's share of the image: its first write's header, and how many more follow, each with the next address, transaction
number and counter. They are acknowledged as they go, and go under the fabric key (DESIGN CHOICE, log entry 46: 13 R388 names
no key and no target). -/
def sendShare (from_ count port : Nat) : Act Unit := do
  let s ← get
  let f := (find? (portOf s port).flows 64).getD ⟨0, 0⟩
  let tx := (freeTx (portOf s port)).getD 0
  let h : RensarHdr := ⟨0, 0, Config.packageId, Config.packageId, 0, 0, 1024 * from_, tx, 0, f.sent + 1, 0, true⟩
  let mac := Config.linkTag port 64 [h.type, h.len, h.dst, h.src, h.world, h.tag, h.ia, h.txid, h.rest, h.ctr] []
  let hbm := s.mem.filter fun c => decide (c.1 < 0xc000000000)
  modPort port fun p => { p with flows := put p.flows 64 ⟨f.sent + count, f.accepted + count⟩ }
  modify fun s => { s with hostBox := s.hostBox
    ++ [.image port { h with mac := mac } count hbm (s.blocksMeta.filter fun e => !isHostMa (512 * e.1))] }
  chargeHost (16 + port) (17 * count * Config.weight clsRensar)

/-- The parts of the image, port by port: where each begins, in writes, and how many it has. -/
def shares (n : Nat) : Nat → List Nat → List (Nat × Nat × Nat)
  | _, [] => []
  | from_, p :: ps => (from_, (if ps.isEmpty then n - from_ else n / (ps.length + 1)), p)
      :: shares n (from_ + n / (ps.length + 1)) ps

/-- Bytes of a manifest, which its signature covers (13 R384). -/
def manifestBytes (ports : List Nat) : List (BitVec 8) := ports.map (BitVec.ofNat 8)

/-- The image and its manifest go out over the ports that work (21 R516); with none the checkpoint is abandoned. Its work
is of no context. Die 0's firmware tells that of each other die whose ports carry it (13 R382). -/
def sendImage (ports : List Nat) : Act Unit := do
  let s ← get
  let up := ports.filter fun p => (portOf s p).up
  if up.isEmpty then pure ()
  else do
    each (((up.map (· / 4)).eraseDups).filter (· != 0)) fun d => command none 64 (firmwareRouter 0) (firmwareRouter d) 64
    modify fun s => { s with hostBox := s.hostBox ++ exportKeys s }
    each (List.range 16) fun q => chargeHost (16 + q) (imageBursts * Config.weight clsHbm)
    each (shares imageWrites 0 up) fun x => sendShare x.1 x.2.1 x.2.2
    let bs := manifestBytes up
    modify fun s => { s with hostBox := s.hostBox ++ [.manifest up ((List.range 3309).map (Config.deviceSignature bs))] }

/-- CHECKPOINT: dispatch stops and every resident block is saved; once none is left the image goes out and
dispatch resumes. The firmware names eight ports. -/
def checkpoint (ports : List Nat) : Act Unit := do
  if ports.length ≠ 8 || ports.eraseDups.length ≠ 8 || ports.any (fun p => decide (16 ≤ p)) then pure ()
  else do
    modify fun s => { s with checkpointing := true }
    saveAll
    each ports fun p => wakeUnit p 12
    let s ← get
    if (s.blocks.any fun e => holdsProgram e.2) || ports.any fun p => (portOf s p).up && !unitOn s p 12 then
      modify fun s => { s with turnedAway := true }
    else do
      backAllLlc
      sendImage ports
      modify fun s => { s with checkpointing := false }

/-- CHECKPOINT (13 R388). -/
def execCheckpoint (ports : List Nat) (s : State) : Host.Outcome State Fault Refusal := eventStep (checkpoint ports) s

/-! ### Timing replays (21 R496, R498) -/

/-- The block that held a pass which cannot be finished: flushed when its launch is idempotent, else its context
ends. -/
def loseBlock (bid : Nat) : Act Unit := do
  let s ← get
  match find? s.blocks bid with
  | none => pure ()
  | some b =>
    if launchIdempotent (launchOf s b.launch) then flushSoon bid
    else endContext b.ctx ⟨2, 21, 0, b.core, 0, DumpInfo.none, Source.core⟩

/-- A replay in a domain: counted, and after four in a row the clock is halved until the next boundary. -/
def countReplay (quad row : Nat) : Act Unit :=
  modQuad quad fun q => { q with
    replays := q.replays + 1, replayCount := q.replayCount + 1, halved := q.halved || row = 4 }

/-- A tile operation is replayed; failing after four it takes its engine out of service. -/
def replayTile (core cls bid : Nat) : Act Unit := do
  let s ← get
  let cluster := clusterOfCore core
  let e := engineOf s cluster
  match find? s.blocks bid with
  | none => pure ()
  | some b => do
    let mq := weightAt cls (chargePoint s (quadOfCore core))
    addCharge b.core b.ctx mq
    setBlock bid { b with spent := b.spent + mq }
    modTeam b.stream.binder fun t => { t with mark := t.mark + BitVec.ofNat 48 mq }
    setEngine cluster { e with row := e.row + 1 }
    countReplay (quadOfCore core) (e.row + 1)
    if e.row + 1 = 5 then do
      loseBlock bid
      modify fun s => { s with engines := put s.engines cluster { engineOf s cluster with removed := true } }
      evictWhole (((← get).blocks.filter fun x => x.2.st = .resident && clusterOfCore x.2.core = cluster
        && usesEngine (launchOf s x.2.launch) && x.1 != bid).map (·.1))
      platformRecord (dieOfCore core) { ErrRec.blank with unit := 2, number := cluster }
    else pure ()

/-- A team's pass is replayed; failing after four it takes its core out of service. -/
def replayPass (core cls tid : Nat) : Act Unit := do
  let row := (coreOf (← get) core).row + 1
  modCore core fun c => { c with row := row }
  chargeEvents tid cls 1
  countReplay (quadOfCore core) row
  if row = 5 then do
    loseBlock (tid / 8)
    let _ ← removeCore core
    platformRecord (dieOfCore core) { ErrRec.blank with unit := 1, core := core }
  else pure ()

/-- TIMING_REPLAY (21 R496): of the tile operation that occupies the core's engine, for a class of the engine,
or of the core's last pass. The result is that of the pass. -/
def execTimingReplay (core cls : Nat) (s : State) : Host.Outcome State Fault Refusal :=
  eventStep (do
    let s ← get
    if 10 ≤ cls && cls < 20 then
      match (engineOf s (clusterOfCore core)).busy with
      | some bid => replayTile core cls bid
      | none => pure ()
    else
      match (coreOf s core).lastPass with
      | some (tid, c) => if c = cls then replayPass core cls tid else pure ()
      | none => pure ()) s

/-! ### Droops (21 R499) -/

/-- DROOP: the clock drops every second edge; what the domain computes does not change. -/
def execDroop (domain : Nat) (s : State) : Host.Outcome State Fault Refusal :=
  eventStep (do
    let now := (← get).time
    modQuad (domain % 16) fun q =>
      let q := { q with droops := Nat.min (q.droops + 1) 65535 }
      if domain < 16 then { q with drooping := true, since := now } else { q with droopingVb := true, sinceVb := now }) s

/-- DROOP_END. -/
def execDroopEnd (domain : Nat) (s : State) : Host.Outcome State Fault Refusal :=
  eventStep (modQuad (domain % 16) fun q =>
    if domain < 16 then { q with drooping := false } else { q with droopingVb := false }) s

/-- Whether a domain's droop has lasted 100 µs. -/
def droopLasts (s : State) (domain : Nat) : Bool :=
  let q := quadOf s (domain % 16)
  if domain < 16 then q.drooping && decide (q.since + 100000 ≤ s.time)
  else q.droopingVb && decide (q.sinceVb + 100000 ≤ s.time)

/-- DROOP_TIMEOUT: the regulator has failed; the quadrant is forced to OP0 until device reset. -/
def execDroopTimeout (domain : Nat) (s : State) : Host.Outcome State Fault Refusal :=
  eventStep (do
    if droopLasts (← get) domain then do
      modQuad (domain % 16) fun q => takePoint { q with forced := true }
      platformRecord (domain % 16 / 4) { ErrRec.blank with number := domain }
    else pure ()) s

/-! ### Temperature (13 R385; 21 R511-R513) -/

/-- The thermal ceiling after a reading (13 R385): one step down at each tick from 95 °C up, one step up per 1 ms
below 90 °C, until it reaches the target. The point follows at the boundary (21 R510). -/
def ceilingStep (s : State) (temp : Nat) (q : Quad) : Quad :=
  let q := { q with temp := temp }
  if 2 ≤ q.thermal then q
  else if 95 ≤ temp then
    if q.risen < s.tickTime || q.ceiling = 15 then
      { q with ceiling := Nat.min q.ceiling q.op - 1, thermal := 1, risen := s.time }
    else q
  else if temp < 90 && q.ceiling < 15 && decide (q.risen + 1000000 ≤ s.time) then
    if q.target ≤ q.ceiling + 1 then { q with ceiling := 15, thermal := 0, risen := s.time }
    else { q with ceiling := q.ceiling + 1, risen := s.time }
  else q

/-- THERMAL_CEILING_STEP (13 R385). -/
def execThermalCeilingStep (quad temp : Nat) (s : State) : Host.Outcome State Fault Refusal :=
  eventStep (do
    let s ← get
    modQuad quad (ceilingStep s temp)) s

/-- THERMAL_TRIP: the quadrant's blocks are saved or flushed, its units gated and its waiting wakes cancelled, and
it goes to OP0. -/
def tripQuad (quad temp : Nat) : Act Unit := do
  let s ← get
  if temp < 105 || 2 ≤ (quadOf s quad).thermal then pure ()
  else do
    modQuad quad fun q => takePoint { q with thermal := 2, temp := temp, ceiling := 0, risen := s.time }
    each ((List.range 48).filter fun i => !isFirmwareCore (48 * quad + i)) fun i => do
      let _ ← attempt (clearCore (48 * quad + i))
      let _ ← attempt (promoteWhere (48 * quad + i) fun _ => true)
      let _ ← attempt (backCore (48 * quad + i))
    each (List.range 13) fun u => setGate quad u .gated
    modify fun s => { s with gateQueue := del s.gateQueue quad }
    platformRecord (quad / 4) { ErrRec.blank with number := quad, part := (partitionOfQuad s quad).getD 0 }

/-- THERMAL_TRIP (21 R511). -/
def execThermalTrip (quad temp : Nat) (s : State) : Host.Outcome State Fault Refusal := eventStep (tripQuad quad temp) s

/-- THERMAL_TRIP_CLEAR (21 R511): below 85 °C the units wake through the arbiter, and the ceiling rises. -/
def execThermalTripClear (quad temp : Nat) (s : State) : Host.Outcome State Fault Refusal :=
  eventStep (do
    let s ← get
    if temp < 85 && (quadOf s quad).thermal = 2 then do
      modQuad quad fun q => { q with thermal := 1, temp := temp, risen := s.time }
      each (List.range 13) (wakeUnit quad)
    else pure ()) s

/-- THERMAL_SENSOR_FAIL (21 R513): once every sensor has failed, band 7 and OP0 hold until device reset. -/
def execThermalSensorFail (quad sensor : Nat) (s : State) : Host.Outcome State Fault Refusal :=
  eventStep (modQuad quad fun q =>
    let q := { q with sensors := insertNew q.sensors sensor }
    if Config.thermalSensors quad ≤ q.sensors.length then takePoint { q with thermal := 3, forced := true } else q) s

/-- THERMAL_EMERGENCY (21 R512): power is removed, with no save and no record. -/
def execThermalEmergency (s : State) : Host.Outcome State Fault Refusal :=
  eventStep (modify fun s => { s with power := false }) s

/-- STACK_TEMPERATURE_LIMIT (13 R385, 21 R511): the four slices of a stack. -/
def execStackTemperatureLimit (stack temp : Nat) (s : State) : Host.Outcome State Fault Refusal :=
  eventStep (each (List.range 4) fun j =>
    modSlice (4 * stack + j) fun x => { x with
      temp := temp
      refuse := if 105 ≤ temp then true else if temp < 95 then false else x.refuse
      halfRate := if 95 < temp then true else if temp < 90 then false else x.halfRate }) s

/-! ### Gating and waking (13 R386, R387; 21 R509) -/

/-- Whether a cluster is kept for a part of a gang that has yet to start (19 R453). -/
def clusterKept (s : State) (cluster : Nat) : Bool :=
  s.partitions.any fun e => e.2.reserved.any fun r => clusterOfCore r.core = cluster

/-- Whether a quadrant's port is kept for such a part (19 R453). -/
def portKept (s : State) (q : Nat) : Bool :=
  s.partitions.any fun e => e.2.reserved.any fun r => quadOfCore r.core = q

/-- Whether a unit is idle (13 R386), and no gang's part is to start on it. -/
def unitIdle (s : State) (q u : Nat) : Bool :=
  if u = 12 then (portOf s q).jobs.isEmpty && !portKept s q
  else
    let cluster := 12 * q + u
    let cores := (List.range 4).map fun i => 4 * cluster + i
    !clusterKept s cluster && (cores.all fun c => (blocksOn s c).isEmpty && !isFirmwareCore c)
      && !(s.ops.any fun e => e.2.cluster = cluster && (match e.2.phase with
        | .ended _ _ => false
        | _ => true))

/-- UNIT_GATE: an idle unit enters its break-even hold, and after 20 µs it gates. The caches of a cluster's cores
go out first. -/
def gateUnit (q u : Nat) : Act Unit := do
  let s ← get
  if !unitIdle s q u then
    if gateOf s q u = .hold then setGate q u .on else pure ()
  else match gateOf s q u with
  | .on => do
    setGate q u .hold
    modify fun s => { s with gateTimes := put s.gateTimes (q * 13 + u) s.time }
  | .hold =>
    if ((find? s.gateTimes (q * 13 + u)).getD 0) + 20000 ≤ s.time then do
      if u < 12 then each (List.range 4) fun i => do
        let core := 4 * (12 * q + u) + i
        promoteWhere core fun _ => true
        backCore core
        modCore core fun c => { c with l1 := [], code := [] }
      else pure ()
      setGate q u .gated
    else pure ()
  | _ => pure ()

/-- UNIT_GATE (13 R386). -/
def execUnitGate (quad unit : Nat) (s : State) : Host.Outcome State Fault Refusal := eventStep (gateUnit quad unit) s

/-- WAKE_REQUEST (13 R387). -/
def execWakeRequest (quad unit : Nat) (s : State) : Host.Outcome State Fault Refusal := eventStep (wakeUnit quad unit) s

/-- A unit whose wake failed: its cores are removed, and the device says so (21 R509). -/
def unitFailed (q u : Nat) : Act Unit := do
  if u < 12 then each (List.range 4) fun i => do
    let core := 4 * (12 * q + u) + i
    if isFirmwareCore core then pure ()
    else do
      let _ ← removeCore core
  else pure ()
  platformRecord (q / 4) { ErrRec.blank with number := q }

/-- WAKE_COMPLETE: one of the two wakes that the arbiter serves ends, and the next in the queue is served. Its energy is the
host's overhead (13 R386, R387). -/
def wakeDone (q u : Nat) (good : Bool) : Act Unit := do
  let s ← get
  let queue := (find? s.gateQueue q).getD []
  if (queue.take 2).contains u then do
    modify fun s => { s with gateQueue := put s.gateQueue q (dropAll queue u) }
    setGate q u (if good then .on else .failed)
    chargeHost (16 + q) Config.wakeCharge
    serveWakes q
    if good then wakeRoom else unitFailed q u
  else pure ()

/-- WAKE_COMPLETE (13 R387). -/
def execWakeComplete (quad unit : Nat) (good : Bool) (s : State) : Host.Outcome State Fault Refusal :=
  eventStep (wakeDone quad unit good) s

end Sys2Proof.Machine
end

