-- ==== Sys2Proof/Machine/Host.lean ====
section
/-! DEFINITION. The host over CXL: accesses to the device's memory, the mailbox, the MMIO registers, the TDISP
interfaces, and failures of the link and of the NoC's ciphers (03 R65, R79; 04 R88, R91; 05 R130; 12 R360; 13
R375-R377; 17 R417; 20 R489-R495; 21 R514; 22 R518). -/
namespace Sys2Proof.Machine
open Sys2Proof

/-! ### CXL.mem (13 R376; 22 R518; 20 R486) -/

/-- The host-access context of a function: the one that the hypervisor named, or its world's base context. -/
def hostContextOf (s : State) (fn world : Nat) : Option Nat :=
  match (fnOf s fn).hostCtx with
  | some x => some x
  | none => (worldOf s world).baseCtx

/-- The requester of a CXL.mem access. -/
def cxlReq (s : State) (fn world : Nat) : Req := ⟨routerOfCxl, none, none, hostContextOf s fn world, world⟩

/-- The record of an access that failed translation. -/
def cxlRecord (r : Req) (ia cls type : Nat) : Act Unit :=
  emitRecord (sliceOf ia / 16)
    { ErrRec.blank with type := type, cls := cls, ctx := r.ctx.getD 0x3ff, world := r.world, unit := 6 }

/-- The class of a failed translation; none for an access that leaves no record of it. -/
def cxlClass : Stop → Option Nat
  | .absent _ _ _ => some 1
  | .fault .permission _ => some 2
  | .fault .translationEncoding _ => some 3
  | .fault .keyFault _ => some 4
  | _ => none

/-- The host becomes the owner of the lines of a range that it has reached. -/
def ownLines (r : Req) (ia n : Nat) : Act Unit :=
  each (sectorsOf (n / 64 + 2) ia n) fun p => do
    match find? (← get).tlb (tlbKey p.1 r.world (sliceOf p.1)) with
    | some e => modify fun s => { s with hostOwned := put s.hostOwned (maOf e p.1 / 64) (r.world, p.1 / 64) }
    | none => pure ()

/-- The CXL flits of n data bytes: one for each 64, in VB0. -/
def chargeCxl (r : Req) (n : Nat) : Act Unit := chargeBase 0 r.ctx clsCxl ((n + 63) / 64)

/-- Whether the device offers more than CXL.io: not in recovery (13 R383). -/
def offered (s : State) : Bool := s.bootStatus != 2

/-- A CXL.mem access reaches a function that is bound to a world, while the link is up. -/
def cxlTarget (s : State) (fn : Nat) : Option Nat := if s.cxlUp && offered s then (fnOf s fn).world else none

/-- The data of a read that failed: the manual gives them no value (log entry 3). -/
def poisonedBytes (n : Nat) : Act (List (BitVec 8)) := do
  let s ← get
  set { s with draws := s.draws + n }
  pure ((List.range n).map fun i => BitVec.ofNat 8 (Config.freeChoice (s.draws + i)))

/-- CXL_MEM_READ: data, with the poison indication when it failed. -/
def cxlRead (fn off n : Nat) : Act Unit := do
  let s ← get
  match cxlTarget s fn with
  | none => pure ()
  | some world => do
    let r := cxlReq s fn world
    let ia := (fnOf s fn).hdmBase + off
    match ← attempt (readRange r ia n .read) with
    | .ok bs => do
      ownLines r ia n
      modify fun s => { s with hostBox := s.hostBox ++ [.data fn off bs false] }
    | .error (.wait w) => throw (.wait w)
    | .error e => do
      match cxlClass e with
      | some cls => cxlRecord r ia cls 15
      | none => pure ()
      let bs ← poisonedBytes n
      modify fun s => { s with hostBox := s.hostBox ++ [.data fn off bs true] }
    chargeCxl r n

/-- CXL_MEM_READ (13 R376). A request that a slice refuses is made again. -/
def execCxlMemRead (fn off len : Nat) (s : State) : Host.Outcome State Fault Refusal := eventStep (tried (cxlRead fn off len)) s

/-- The counters among the words of a range that trigger entries of a world watch. -/
def countersIn (s : State) (world ia n : Nat) : List Nat :=
  (s.partitions.flatMap fun p => (p.2.triggers.filter fun t => t.2.world = world
    && decide (ia / 8 ≤ t.2.counter / 8) && decide (t.2.counter / 8 ≤ (ia + n - 1) / 8)).map (·.2.counter)).eraseDups

/-- Store a host's bytes: a whole block at once, which clears its poison; else piece by piece. -/
def hostStoreBytes (r : Req) (ia : Nat) (bs : List (BitVec 8)) : Act Unit :=
  if bs.length = 512 && ia % 512 = 0 then sliceWriteBlock r ia bs else writeRange r ia bs

/-- A write of n bytes by the host is an update of every counter that it changes, from the word's whole value before to
its whole value after (02 R53). -/
def asUpdate (r : Req) (ia n : Nat) (m : Act Unit) : Act Unit := do
  let cs := countersIn (← get) r.world ia n
  let before ← collect cs fun c => sliceRead r c 8 .write
  m
  let after ← collect cs fun c => sliceRead r c 8 .write
  each (cs.zip (before.zip after)) fun e =>
    if e.2.1 = e.2.2 then pure () else evaluate r.world e.1 (numLE e.2.1) (numLE e.2.2)

/-- A host write, with the updates that it is. -/
def hostWrite (r : Req) (ia : Nat) (bs : List (BitVec 8)) : Act Unit := asUpdate r ia bs.length (hostStoreBytes r ia bs)

/-- CXL_MEM_WRITE: performed, or discarded in every byte with a record. -/
def cxlWrite (fn off : Nat) (bs : List (BitVec 8)) : Act Unit := do
  let s ← get
  match cxlTarget s fn with
  | none => pure ()
  | some world => do
    let r := cxlReq s fn world
    let ia := (fnOf s fn).hdmBase + off
    match ← allOrError (hostWrite r ia bs) with
    | .ok _ => ownLines r ia bs.length
    | .error (.wait w) => throw (.wait w)
    | .error (.fault .dataError _) => cxlRecord r ia 6 6
    | .error e =>
      match cxlClass e with
      | some cls => cxlRecord r ia cls 15
      | none => pure ()
    chargeCxl r bs.length

/-- CXL_MEM_WRITE (13 R376). -/
def execCxlMemWrite (fn off : Nat) (bytes : List (BitVec 8)) (s : State) : Host.Outcome State Fault Refusal :=
  eventStep (tried (cxlWrite fn off bytes)) s

/-- CXL_BACK_INVALIDATE_RESPONSE: the host gives a line up, with what it had changed of it, which is its write of those
bytes (05 R150). What it gives back is one CXL flit, charged as its world's accesses are (13 R376). -/
def snoopAnswer (ma : Nat) (bytes : List (Nat × BitVec 8)) : Act Unit := do
  let s ← get
  if !s.snoops.contains (ma / 64) then pure ()
  else do
    set { s with snoops := dropAll s.snoops (ma / 64), hostOwned := del s.hostOwned (ma / 64) }
    match find? s.hostOwned (ma / 64) with
    | none => pure ()
    | some (world, line) => do
      let r := cxlReq s ((virtualFn s world).getD 0) world
      match ← attempt (asUpdate r (64 * line) 64 (each bytes fun b => sliceWrite r (64 * line + b.1 % 64) [b.2] .write)) with
      | .error (.wait w) => throw (.wait w)
      | _ => if bytes.isEmpty then pure () else chargeCxl r 64

/-- CXL_BACK_INVALIDATE_RESPONSE (13 R376). An answer that a slice refuses is made again. -/
def execCxlBackInvalidateResponse (ma : Nat) (bytes : List (Nat × BitVec 8)) (s : State) : Host.Outcome State Fault Refusal :=
  eventStep (tried (snoopAnswer ma bytes)) s

/-- The machine blocks of host memory whose content, or whose tag entry, a range of its bytes holds (04 R110). -/
def blocksHit (s : State) (ma n : Nat) : List Nat :=
  let own := (List.range ((ma + n - 1) / 512 - ma / 512 + 1)).map fun i => ma / 512 * 512 + 512 * i
  let tagged := s.windows.flatMap fun w =>
    ((List.range n).filter fun i => decide (w.tagBase ≤ ma + i) && decide (ma + i < w.tagBase + w.size / 32)).map
      fun i => w.base + (ma + i - w.tagBase) / 16 * 512
  (own ++ tagged).eraseDups

/-- A host agent writes its own memory: the device's copies of the blocks leave its LLC first, and their seals hold no
longer (04 R113). Data that the host marks as poisoned poison the line that reads them (21 R514). -/
def hostOwnStore (ma : Nat) (bytes : List (BitVec 8)) (poison : Bool) : Act Unit := do
  if ma < 0x200000000000 || 0x400000000000 < ma + bytes.length || bytes.isEmpty then pure ()
  else do
    let hit := blocksHit (← get) ma bytes.length
    each hit fun b => do each (linesOf (← get) b) evictLine
    putMem ma bytes
    each hit fun b => do
      let m := blockMetaOf (← get) b
      if m.st = 14 && !poison then pure () else setMeta b { m with sealed := if poison then m.sealed else none, poison := poison }

/-! ### TDISP (13 R377; 20 R490, R494, R495) -/

/-- Answer a TDISP request, which die 0's firmware takes (11 R353). -/
def tdispAnswer (fn session status : Nat) : Act Unit := do
  noteRequest 0 3
  modify fun s => { s with hostBox := s.hostBox ++ [.tdisp fn session status (fnOf s fn).tdisp] }

/-- An interface begins to leave its state: its world's queues are reset, and the new state comes when that is
complete (13 R377). A reset that is running is finished first; without a world there is nothing to reset. -/
def leaveTo (fn : Nat) (to_ : Tdisp) : Act Unit := do
  let f := fnOf (← get) fn
  modFn fn fun f => { f with going := some to_ }
  match f.world with
  | some w => if f.resetStatus = 1 then pure () else beginReset fn true f.resetPart w
  | none => interfaceArrives fn

/-- A request of the host's that the firmware serves, which it does not in recovery (13 R383); one that a slice refuses part
way is made again. -/
def serves (m : Act Unit) : Act Unit := do
  if offered (← get) then tried m else pure ()

/-- LOCK_INTERFACE_REQUEST: no interface locks while the link's IDE has failed (R490). -/
def lockRequest (fn session : Nat) : Act Unit := do
  let s ← get
  let f := fnOf s fn
  if fn = 0 then pure ()
  else if f.tdisp = .unlocked && f.going.isNone && s.ideUp then do
    setFn fn { f with tdisp := .locked, session := some session }
    tdispAnswer fn session 0
  else tdispAnswer fn session 1

/-- LOCK_INTERFACE_REQUEST (20 R495). -/
def execLockInterfaceRequest (fn session : Nat) (s : State) : Host.Outcome State Fault Refusal :=
  eventStep (serves (lockRequest fn session)) s

/-- START_INTERFACE_REQUEST. -/
def startRequest (fn session : Nat) : Act Unit := do
  let f := fnOf (← get) fn
  if fn = 0 then pure ()
  else if f.tdisp ≠ .locked || f.going.isSome then tdispAnswer fn session 1
  else if f.session = some session then do
    setFn fn { f with tdisp := .run }
    tdispAnswer fn session 0
  else tdispAnswer fn session 2

/-- START_INTERFACE_REQUEST (20 R495). -/
def execStartInterfaceRequest (fn session : Nat) (s : State) : Host.Outcome State Fault Refusal :=
  eventStep (serves (startRequest fn session)) s

/-- STOP_INTERFACE_REQUEST: the table has no row for an unlocked interface; it answers as for another state. -/
def stopRequest (fn session : Nat) : Act Unit := do
  let f := fnOf (← get) fn
  if fn = 0 then pure ()
  else if f.tdisp = .unlocked || f.going.isSome then tdispAnswer fn session 1
  else if f.session = some session then do
    leaveTo fn .unlocked
    tdispAnswer fn session 0
  else tdispAnswer fn session 2

/-- STOP_INTERFACE_REQUEST (20 R495). -/
def execStopInterfaceRequest (fn session : Nat) (s : State) : Host.Outcome State Fault Refusal :=
  eventStep (serves (stopRequest fn session)) s

/-- GET_DEVICE_INTERFACE_STATE (20 R495). -/
def execGetDeviceInterfaceState (fn session : Nat) (s : State) : Host.Outcome State Fault Refusal :=
  eventStep (serves (if fn = 0 then pure () else tdispAnswer fn session 0)) s

/-- An interface in CONFIG_LOCKED or RUN goes to ERROR, when a test selects it. -/
def failInterfaces (p : Nat → Fn → Bool) : Act Unit := do
  each ((← get).fns.filter fun e => e.1 != 0 && (e.2.tdisp = .locked || e.2.tdisp = .run) && p e.1 e.2) fun e =>
    leaveTo e.1 .error

/-- SPDM_SESSION_END (20 R495): the locking session ends or its keys are lost. -/
def execSpdmSessionEnd (session : Nat) (s : State) : Host.Outcome State Fault Refusal :=
  eventStep (tried (failInterfaces fun _ f => f.session = some session)) s

/-- TDISP_CONFIG_CHANGE (20 R495): the host changes a locked configuration through MMIO. -/
def execTdispConfigChange (fn : Nat) (s : State) : Host.Outcome State Fault Refusal :=
  eventStep (tried (failInterfaces fun i _ => i = fn)) s

/-- CXL_IDE_FAILURE (20 R490). -/
def execCxlIdeFailure (s : State) : Host.Outcome State Fault Refusal :=
  eventStep (tried do
    modify fun s => { s with ideUp := false }
    failInterfaces fun _ _ => true
    emitRecord 0 { ErrRec.blank with type := 13, cls := 20, unit := 6 }) s

/-- CXL_LINK_DOWN (21 R514). -/
def execCxlLinkDown (s : State) : Host.Outcome State Fault Refusal :=
  eventStep (tried do
    if (← get).cxlUp then do
      modify fun s => { s with cxlUp := false, snoops := [], hostOwned := [] }
      failInterfaces fun _ _ => true
      platformRecord 0 { ErrRec.blank with unit := 6 }
    else pure ()) s

/-- The link trains, at one of the widths and speeds that it has; the link status reports them (13 R375). A link that was down
is up again. -/
def linkTrained (width speed : Nat) : Act Unit :=
  if (width = 8 || width = 4 || width = 2) && (speed = 64 || speed = 32) then
    modify fun s => { s with cxlUp := true, cxlWidth := width, cxlSpeed := speed }
  else pure ()

/-- A TDISP request arrives: the CXL port stamps it with device time (20 R494). -/
def tdispArrives (fn session : Nat) (kind : TdispKind) : Act Unit :=
  modify fun s => if offered s then { s with tdispQueue := s.tdispQueue ++ [⟨s.time, session, fn, kind⟩] } else s

/-- The request that firmware core 0 takes next: the earliest stamp, and of equal stamps the lowest session (20 R494). -/
def nextTdisp (q : List TdispReq) : Option TdispReq :=
  (q.mergeSort fun a b => decide (a.stamp < b.stamp) || (a.stamp = b.stamp && decide (a.session ≤ b.session))).head?

/-- Firmware core 0 takes a TDISP request, and answers it before the next (20 R494, R495). -/
def takeTdisp : Act Unit := do
  let s ← get
  match nextTdisp s.tdispQueue with
  | none => pure ()
  | some q => do
    set { s with tdispQueue := s.tdispQueue.erase q }
    match q.kind with
    | .lock => lockRequest q.fn q.session
    | .start => startRequest q.fn q.session
    | .stop => stopRequest q.fn q.session
    | .state => if q.fn = 0 then pure () else tdispAnswer q.fn q.session 0

/-! ### NoC ciphers (20 R489) -/

/-- Whether a context has a team on a core of the cluster at a router. -/
def worksAt (s : State) (port ctx : Nat) : Bool :=
  s.blocks.any fun e => e.2.ctx = ctx && e.2.st = .resident && portOn (routerOfCluster (clusterOfCore e.2.core)) = port

/-- NOC_CIPHER_FAILURE: the pair's flows stop, and the contexts whose requests it held unanswered end. -/
def cipherFailure (src dst : Nat) (ctxs : List Nat) : Act Unit := do
  modify fun s => { s with stopped := (s.stopped.filter fun p => p != (src, dst) && p != (dst, src)) ++ [(src, dst), (dst, src)] }
  let s ← get
  each (ctxs.filter fun x => worksAt s src x || worksAt s dst x) fun x =>
    endContext x ⟨13, 20, 0, 0x3ff, 0, DumpInfo.none, ⟨6, 0, 0⟩⟩

/-- NOC_CIPHER_FAILURE (20 R489). -/
def execNocCipherFailure (src dst : Nat) (ctxs : List Nat) (s : State) : Host.Outcome State Fault Refusal :=
  eventStep (cipherFailure src dst ctxs) s

/-- The two ports of a flow's key (04 R114). -/
def flowPorts (k : Nat) : Nat × Nat := (k / 520 % 1024, k / 520 / 1024)

/-- Both ends of a flow go on from a counter 2^32 above the greater of theirs. -/
def raiseFlow (f : Flow) : Flow := ⟨Nat.max f.sent f.accepted + 2 ^ 32, Nat.max f.sent f.accepted + 2 ^ 32⟩

/-- CIPHER_FLOW_RESUME (20 R489): both flows go on from counters raised by 2^32, in every channel and world. -/
def execCipherFlowResume (src dst : Nat) (s : State) : Host.Outcome State Fault Refusal :=
  eventStep (modify fun s =>
    if s.stopped.contains (src, dst) then
      { s with
        stopped := s.stopped.filter fun p => p != (src, dst) && p != (dst, src)
        flows := s.flows.map fun e =>
          if flowPorts e.1 = (src, dst) || flowPorts e.1 = (dst, src) then (e.1, raiseFlow e.2) else e }
    else s) s

/-! ### MMIO registers -/

/-- The bits of a range register's word that are not reserved (04 R89). -/
def rangeMask : Nat → Nat
  | 0 => 0x3f + (2 ^ 56 - 2 ^ 16)
  | 1 => 2 ^ 40 - 1
  | _ => 2 ^ 36 - 1

/-- RANGE_REGISTER_WRITE (04 R91). -/
def writeRangeRegister (fn ctx n word value : Nat) : Act Unit := do
  let s ← get
  if !reaches s fn ctx then pure ()
  else if (contextOf s ctx).enable then modFn fn fun f => { f with refused := true }
  else
    let x := BitVec.ofNat 64 (value &&& rangeMask word)
    modContext ctx fun c =>
      let r := rrOf c n
      { c with rr := put c.rr n (match word with
          | 0 => { r with w0 := x }
          | 1 => { r with w1 := x }
          | _ => { r with w2 := x }) }

/-- RANGE_REGISTER_WRITE (04 R91). -/
def execRangeRegisterWrite (fn ctx rr word value : Nat) (s : State) : Host.Outcome State Fault Refusal :=
  eventStep (writeRangeRegister fn ctx rr word value) s

/-- A world's scope policy register takes a value; scopes that are not honoured are stored as 4 (05 R130). -/
def writeScopePolicy (world value : Nat) : Act Unit :=
  modWorld world fun w =>
    let m := value % 8
    { w with maxscope := if m = 4 || m = 5 || m = 6 then m else 4, remote := bitSet value 3 }

/-- SCOPE_POLICY_WRITE (05 R130). -/
def execScopePolicyWrite (world value : Nat) (s : State) : Host.Outcome State Fault Refusal :=
  eventStep (writeScopePolicy world value) s

/-- Whether a context may be enabled: the device has booted, and its function's interface is in RUN; a world of
the physical function or of none has no interface (13 R377, R383). -/
def mayEnable (s : State) (world : Option Nat) : Bool :=
  s.bootStatus = 1 && (match world with
    | none => true
    | some w => (s.fns.filter fun e => e.1 != 0 && e.2.world = some w).all fun e => e.2.tdisp = .run && e.2.going.isNone)

/-- The bits of the record policy register that are not reserved (17 R417). -/
def policyMask : Nat := 3 + (2 ^ 64 - 2 ^ 16)

/-- Whether a register lies in a function's window: a context's as `reaches` says, a function's own in its own, the
others in the physical function's. -/
def inWindow (s : State) (fn : Nat) : MmioReg → Bool
  | .refill x => reaches s fn x
  | .brim x => reaches s fn x
  | .control x => reaches s fn x
  | .account x => reaches s fn x
  | .level x => reaches s fn x
  | .last x => reaches s fn x
  | .credit x => reaches s fn x
  | .range x _ _ => reaches s fn x
  | .rangeStatus => true
  | .queueReset => true
  | _ => fn = 0

/-- A write of the cap request register (21 R506): its fields are stored, and with go the request is answered at once, so that
go reads 0. -/
def writeCap (value : Nat) : Act Unit := do
  let watts := bitsOf value 0 16
  let target := bitsOf value 16 5
  let override := bitSet value 21
  if !bitSet value 22 then noteCap watts target override
  else if target = 16 then capForPackage watts override
  else capForPartition target watts override

/-- A write of the error-injection register (22 R517): its fields are stored, and with go the injection is performed at once,
so that go reads 0. -/
def writeInjection (value : Nat) : Act Unit := do
  let kind := bitsOf value 1 2
  let sector := bitsOf value 3 3
  let check := bitSet value 6
  let block := bitsOf value 9 37
  if !bitSet value 0 then noteInjection kind block sector check
  else if kind = 3 || bitsOf value 46 18 != 0 then do
    noteInjection kind block sector check
    modify fun s => { s with injectStatus := 3 }
  else if kind = 2 then injectHbm block sector check
  else injectLine kind block sector check fun l =>
    if kind = 0 then { l with single := l.single ||| 2 ^ sector } else { l with double := l.double ||| 2 ^ sector }

/-- A write to a register through a function's window (00 R4): fields that are only read ignore it; a context energy block
takes what is written at its next update (03 R66, R79), and its world once. -/
def writeRegister (fn : Nat) (reg : MmioReg) (value : Nat) : Act Unit := do
  let s ← get
  if !inWindow s fn reg then pure ()
  else match reg with
  | .refill x => modContext x fun c => { c with newRefill := some (value % 2 ^ 48) }
  | .brim x => modContext x fun c => { c with newBrim := some (value % 2 ^ 63) }
  | .control x =>
    let c := contextOf s x
    let w := match c.world with
      | some w => some w
      | none => some (c.newWorld.getD (bitsOf value 3 6))
    setContext x { c with
      newWorld := if c.world.isNone then w else c.newWorld
      newEnable := some (bitSet value 0 && mayEnable s w) }
  | .recordPolicyLo w => modWorld w fun y => { y with policy := BitVec.ofNat 64 (value &&& policyMask) }
  | .credit x => writeCredit fn x (signed 64 (BitVec.ofNat 64 value).toNat)
  | .range x n w => if n < 8 && w < 3 then writeRangeRegister fn x n w value else pure ()
  | .scopePolicy w => writeScopePolicy w value
  | .account _ => pure ()
  | .level _ => pure ()
  | .last _ => pure ()
  | .health _ => pure ()
  | .keySlot _ => pure ()
  | .rangeStatus => pure ()
  | .linkStatus => pure ()
  | .queueReset => writeReset fn value
  | .capRequest => writeCap value
  | .injection => writeInjection value

/-- REGISTER_WRITE (00 R4). -/
def execRegisterWrite (place : Nat × MmioReg) (value : Nat) (s : State) : Host.Outcome State Fault Refusal :=
  eventStep (tried (writeRegister place.1 place.2 value)) s

/-- A quadrant's health register (21 R500). -/
def healthWord (s : State) (i : Nat) : Nat :=
  let q := quadOf s i
  let failed := fun (d : Nat) => ((find? s.sensors d).getD Sensor.fresh).failed
  wrapTo 8 (offsetAt q q.op / 5) + (if failed i then 2 ^ 8 else 0) + (if failed (16 + i) then 2 ^ 9 else 0)
    + 2 ^ 10 * q.thermal + 2 ^ 12 * q.ceiling + 2 ^ 16 * q.droops + 2 ^ 32 * q.replayCount.toNat

/-- A function's queue reset register (19 R466). -/
def resetWord (f : Fn) : Nat :=
  (if f.resetGo then 1 else 0) + (if f.resetWhole then 2 else 0) + 4 * (f.resetPart % 16) + 64 * (f.resetWorld % 64)
    + 2 ^ 12 * f.resetStatus + 2 ^ 32 * f.resetCount.toNat

/-- The word of a state of a key slot (04 R115). -/
def slotCode : SlotState → Nat
  | .empty => 0
  | .world => 1
  | .sequence => 2
  | .retired => 3

/-- A key slot's visible fields (04 R115). -/
def slotWord (k : KeySlot) : Nat := slotCode k.st + 4 * (k.owner % 64) + 256 * (k.gen % 2 ^ 20)

/-- The words of a register, lowest first. A context energy block shows its state
after the last update (03 R66). -/
def registerWords (s : State) (fn : Nat) : MmioReg → List DWord
  | .refill x => [energyField (contextOf s x) 3]
  | .brim x => [energyField (contextOf s x) 4]
  | .control x => [energyField (contextOf s x) 6]
  | .account x => [energyField (contextOf s x) 0, energyField (contextOf s x) 1]
  | .level x => [energyField (contextOf s x) 2]
  | .last x => [energyField (contextOf s x) 5]
  | .credit _ => [0]
  | .recordPolicyLo w => [(worldOf s w).policy]
  | .health q => [BitVec.ofNat 64 (healthWord s q)]
  | .keySlot k => [BitVec.ofNat 64 (slotWord (keyOf s k))]
  | .range x n w => if w = 0 then [(rrOf (contextOf s x) n).w0] else if w = 1 then [(rrOf (contextOf s x) n).w1] else [(rrOf (contextOf s x) n).w2]
  | .rangeStatus => [if (fnOf s fn).refused then 1 else 0]
  | .scopePolicy w => [BitVec.ofNat 64 ((worldOf s w).maxscope + if (worldOf s w).remote then 8 else 0)]
  | .linkStatus => [BitVec.ofNat 64 (s.cxlWidth + 256 * s.cxlSpeed)]
  | .queueReset => [BitVec.ofNat 64 (resetWord (fnOf s fn))]
  | .capRequest => [s.capRequest ||| BitVec.ofNat 64 (2 ^ 23 * s.capStatus)]
  | .injection => [s.injection ||| BitVec.ofNat 64 (2 ^ 7 * s.injectStatus)]

/-- The host reads a register through a function's window (03 R65, 04 R91, 17 R417, 19 R466, 21 R500, R506, 22 R517). -/
def readRegister (fn : Nat) (reg : MmioReg) : Act Unit :=
  modify fun s =>
    if inWindow s fn reg then { s with hostBox := s.hostBox ++ (registerWords s fn reg).map fun w => .word fn w } else s

/-! ### Partitions at the hypervisor's word (03 R81; 12 R364; 19 R449) -/

/-- A partition as it is formed. Its pool holds 1,024 fault counters (04 R100). -/
def newPartition (quads : List Nat) (world : Option Nat) (fn mw lo hi floor : Nat) : Partition :=
  { quads := quads, world := world, fn := fn, mw := mw, lo := lo, hi := hi, floorMw := floor, floorNow := floor
    triggers := [], queue := [], held := [], tenants := [], faultFree := 1024, faultWait := [], spec := []
    gang := none, tasks := [], nextCore := 0, reserved := [], resizing := none, capStatus := 0, asked := mw
    newMw := none, energies := [], dynamics := [], bases := [] }

/-- Form a partition of quadrants that no other holds, under its lowest one. -/
def formPartition (quads : List Nat) (world : Option Nat) (fn mw lo hi floor : Nat) : Act Unit := do
  let s ← get
  let qs := quads.eraseDups.mergeSort fun a b => decide (a ≤ b)
  if qs.isEmpty || qs.any (fun q => decide (16 ≤ q) || (partitionOfQuad s q).isSome) then pure ()
  else do
    setPartition (qs.headD 0) (newPartition qs world fn mw lo hi floor)
    if world.isSome then do
      let _ ← latchQuads qs world
      pure ()
    else pure ()

/-- Resize a partition; its lowest quadrant stays. A gang that is reserving there rolls back (R449). -/
def resize (part : Nat) (quads : List Nat) : Act Unit := do
  let s ← get
  let qs := quads.eraseDups.mergeSort fun a b => decide (a ≤ b)
  if qs.headD 16 ≠ part || qs.any (fun q => decide (16 ≤ q) || ((partitionOfQuad s q).getD part != part)) then pure ()
  else do
    modPartition part fun p => { p with resizing := some qs }
    match (find? s.partitions part).bind (·.gang) with
    | some g => if (launchOf s g).gang = .reserving then rollBack g else pure ()
    | none => pure ()
    goOnResizing part

/-! ### The mailbox (12 R360; 13 R376) -/

/-- An answer in a function's mailbox. -/
def mailAnswer (fn x : Nat) : Act Unit := modFn fn fun f => { f with answers := f.answers ++ [BitVec.ofNat 64 x] }

/-- Arm the host's standing LAUNCH entry under the function's world and a context that the host names; the answer
is the entry's index, or all ones (11 R331). -/
def armForHost (fn part ctx counterVa recordVa ring : Nat) (target : DWord) : Act Unit := do
  let s ← get
  let ctl := 1 + 2 ^ 4 + ring % 4096 * 2 ^ 16 + 2 ^ 32
  let ok := ownsPart s fn part && (contextOf s ctx).world.isSome && (contextOf s ctx).world = (fnOf s fn).world
    && trigOk counterVa recordVa ctl
  match rangeTranslate (contextOf s ctx) counterVa .read, rangeTranslate (contextOf s ctx) recordVa .read with
  | some (c, _), some (r, _) =>
    if ok && (peerOf s c).isNone then do
      let i ← armTrigger part
        { counter := c, cmp := 1, action := 0, standing := true, target := target, operand := r, ring := ring % 4096
          value := 0, step := 1, ctx := ctx, world := (contextOf s ctx).world.getD 0, fires := 0, owed := false
          parked := none }
      mailAnswer fn (i.getD (2 ^ 64 - 1))
    else mailAnswer fn (2 ^ 64 - 1)
  | _, _ => mailAnswer fn (2 ^ 64 - 1)

/-- What any function may ask for. -/
def guestRequest (fn : Nat) (req : MailReq) : Act Unit := do
  let s ← get
  let own := fun w => fn = 0 || (fnOf s fn).world = some w
  match req with
  | .armLaunch part ctx counterVa recordVa ring target =>
    armForHost fn part ctx counterVa recordVa ring (BitVec.ofNat 64 target)
  | .readFires part i =>
    if ownsPart s fn part then
      mailAnswer fn (((find? s.partitions part).bind fun p => find? p.triggers i).map (·.fires) |>.getD 0)
    else pure ()
  | .framePool world va n => if own world then modWorld world fun w => { w with pool := some (va, n) } else pure ()
  | .meter world =>
    if own world then do
      noteRequest 0 5
      modify fun s => { s with meterAsked := s.meterAsked ++ [(world, s.tick)] }
    else pure ()
  | .tinv world k addr =>
    if own world && decide (k < 4) && (fn = 0 || k % 2 = 0) then do
      let id ← freshId
      modify fun s => { s with invals := put s.invals id ⟨world, k, addr, 0, 0⟩ }
    else pure ()
  | _ => pure ()

/-- A wrapped secret is installed only in an empty slot whose generation is the secret's: that of an ended sequence is
another (04 R123, R117). -/
def restoreKey (slot owner gen : Nat) : Act Unit := do
  let k := keyOf (← get) slot
  if k.st = .empty && k.gen = gen && !k.installing && decide (slot < 4096) && decide (owner < 64)
      && (decide (64 ≤ slot) || slot = owner) then do
    secretCommand none 64 (firmwareRouter 0)
    setKey slot { k with st := if slot < 64 then .world else .sequence, owner := owner, installing := true, badReplicas := [] }
    addJob (.install slot 0 0 0)
  else pure ()

/-- A virtual function is bound to a world (13 R375). The host-access context that was named for it is that of its old world,
and the contexts of its new one may be enabled only once its interface is in RUN (13 R376, R377). -/
def bindFunction (fn world base : Nat) : Act Unit := do
  if 0 < fn && fn < 64 && (fnOf (← get) fn).tdisp = .unlocked then do
    modFn fn fun f => { f with world := some world, hdmBase := base, hostCtx := none }
    each ((← get).contexts.filter fun e => e.2.world = some world || (e.2.world.isNone && e.2.newWorld = some world)) fun e =>
      barContext e.1
  else pure ()

/-- A firmware core passes work to another's, over the management channel (01 R19, 13 R382). -/
def passMessage (src dst : Nat) (m : FwMsg) : Act Unit := do
  sendMessage none 64 (firmwareRouter src) (firmwareRouter dst) .manage 64
  modFirmware dst fun f => { f with messages := f.messages ++ [m] }

/-- The firmware core of a die moves a page, and frees the old one (04 R127). -/
def movesPage (die world gpa ma : Nat) : Act Unit := do
  match ← migrate die world gpa ma with
  | some (base, units) => freePages base units
  | none => pure ()

/-- What the firmware core of a die does for a message: a program's own says nothing to the device; a page is moved; a peer's
record goes to the physical function's mailbox, which is die 0's duty (13 R382, 20 R482). -/
def actOn (die : Nat) : FwMsg → Act Unit
  | .note _ => pure ()
  | .migrate world gpa ma => movesPage die world gpa ma
  | .record r =>
    if die = 0 then modify fun s => { s with hostBox := s.hostBox ++ [.record 0 r] }
    else passMessage die 0 (.record r)

/-- The firmware core of a die takes its oldest message, once the slices take what it asks for. -/
def takeMessage (die : Nat) : Act Unit := do
  match (firmwareOf (← get) die).messages with
  | [] => pure ()
  | m :: _ => do
    actOn die m
    modFirmware die fun f => { f with messages := f.messages.drop 1 }

/-- The firmware takes the oldest request of a source off its queue (11 R353). -/
def serveSource (die source : Nat) : Act Unit := if source = 7 then tried (takeMessage die) else serveRequest die source

/-- An SPDM measurement response: measurement register 0, signed with the device's key (13 R384). -/
def measurementResponse (nonce : Nat) : Act Unit :=
  modify fun s =>
    if offered s then
      let bs := bytesLE 32 nonce ++ bytesLE 32 s.measurement.toNat
      { s with hostBox := s.hostBox ++ [.measurement nonce s.measurement ((List.range 3309).map (Config.deviceSignature bs))] }
    else s

/-- What the hypervisor asks for, through the physical function. -/
def hypervisorRequest (req : MailReq) : Act Unit := do
  let s ← get
  match req with
  | .hostContext fn ctx =>
    if (contextOf s ctx).world.isSome && (contextOf s ctx).world = (fnOf s fn).world then
      modFn fn fun f => { f with hostCtx := some ctx }
    else pure ()
  | .bindFunction fn world base => bindFunction fn world base
  | .worldRoots world s1 s2 base =>
    modWorld world fun w => { w with s1root := s1, s2root := s2, baseCtx := some base }
  | .stage2Pool world pages => modWorld world fun w => { w with s2pool := pages }
  | .backing world ia => modWorld world fun w => { w with backing := some ia }
  | .formPartition quads world fn mw lo hi floor => formPartition quads world fn mw lo hi floor
  | .resize part quads => resize part quads
  | .quantum part world q => if 2 ^ 20 ≤ q then modTenant part world fun t => { t with quantum := q } else pure ()
  | .hostPoint quad p =>
    if s.partitions.any fun e => e.2.quads.contains quad && e.2.world.isSome then pure ()
    else modQuad quad fun q => { q with hostOp := p % 16, pendingOp := some (p % 16) }
  | .retirePage world gpa => do
    match ← leafPlace gpa 1 (worldOf s world).s2root 3 with
    | some (_, _, .leaf base units _ _ _ _ _) => do
      askRetire (base + gpa % (units * 65536))
      retirePage world gpa
    | _ => pure ()
  | .migratePage world gpa ma =>
    if sliceOf ma / 16 = 0 then movesPage 0 world gpa ma else passMessage 0 (sliceOf ma / 16) (.migrate world gpa ma)
  | .stage2Entry ma value => writeStage2 ma value
  | .peerWindow ia size pkg => modify fun s => { s with peerWindows := s.peerWindows ++ [(ia, size, pkg)] }
  | .tagEntry tag world ia valid =>
    if 0 < tag && tag < 1024 then
      modify fun s => { s with tags := if valid then put s.tags tag ⟨ia, world⟩ else del s.tags tag }
    else pure ()
  | .rackCap mw => modify fun s => { s with rackCap := mw }
  | .ideKeys => modify fun s => { s with ideUp := true }
  | .hostWindow base size tagBase =>
    if isHostMa base && decide (base + size ≤ 0x400000000000) && base % 65536 = 0 && size % 65536 = 0
        && !(s.windows.any fun w => rangesMeet base size w.base w.size) then
      modify fun s => { s with windows := s.windows ++ [⟨base, size, tagBase⟩] }
    else pure ()
  | .restoreKey slot owner gen => restoreKey slot owner gen
  | _ => pure ()

/-- HOST_MAILBOX_REQUEST (12 R360): die 0's firmware serves it in the step in which it arrives (log entry 21). -/
def execHostMailboxRequest (fn : Nat) (req : MailReq) (s : State) : Host.Outcome State Fault Refusal :=
  eventStep (serves do
    noteRequest 0 2
    guestRequest fn req
    if fn = 0 then hypervisorRequest req else pure ()) s

end Sys2Proof.Machine
end

