-- ==== Sys2Proof/Machine/Lanes.lean ====
section
/-! DEFINITION. The cross-lane instructions: shuffles, broadcasts, lane reads and writes, votes, matching,
reductions and scans (09 R265-R268). -/
namespace Sys2Proof.Machine
open Sys2Proof

/-! ### Members (09 R265) -/

/-- The guard mask, whose lanes are the members. -/
def members (c : Cx) : Mask := maskReg c.t (modeGuard c.a.mode)

/-- The executing lanes, in increasing order. -/
def executing (c : Cx) : List Nat := lanesOf c.t.lanes c.a.exec

/-- Members that are not executing lanes. -/
def absentMembers (c : Cx) : Mask := members c &&& fullMask c.t.lanes &&& ~~~c.a.exec

/-- A guard that omits an executing lane is an illegal member (18 R425 step 9). -/
def memberCheck (c : Cx) : Act Unit := require (decide (c.a.exec &&& ~~~members c = 0)) .illegalMember

/-- Values move as pairs under types 6, 7 and 11. -/
def movesPair (c : Cx) : Bool := wholePair (modeEtype c.a.mode)

/-- The declaration of a cross-lane instruction: its passes follow the execution mask, and its members are checked before
any register is made resident (18 R425 step 9). -/
def crossSig (op extra : Nat) (uses : List Use) (c : Cx) : Sig :=
  { plain op uses (.execPasses clsCross extra) with early := memberCheck c }

/-- Set the team's member-absent bit. -/
def noteAbsent (b : Bool) (t : Team) : Team := if b then { t with mabs := true } else t

/-- Write a value in each listed lane. -/
def putEach (pair : Bool) (d : Opnd) (xs : List (Nat × Nat)) (t : Team) : Team :=
  match d with
  | .v i =>
    if pair then putPairs t i (xs.map fun x => (x.1, BitVec.ofNat 64 x.2))
    else putVs t i (xs.map fun x => (x.1, BitVec.ofNat 32 x.2))
  | _ => t

/-! ### Moves (09 R266) -/

/-- Whether a source index names a lane of the guard. -/
def namesMember (c : Cx) (i : Int) : Bool :=
  decide (0 ≤ i) && decide (i < (c.t.lanes : Nat)) && (members c).getLsbD i.toNat

/-- The value that a lane takes from a source index, and whether it met an absent member. -/
def shuffled (c : Cx) (a : Opnd) (lane : Nat) (i : Int) : Nat × Bool :=
  if !namesMember c i then (laneVal c (movesPair c) lane a, false)
  else if c.a.exec.getLsbD i.toNat then (laneVal c (movesPair c) i.toNat a, false)
  else (0, true)

/-- A shuffle: each executing lane takes a from the lane that `src` gives. -/
def shuffleBody (src : Cx → Nat → Int) (d a : Opnd) (c : Cx) : Act Next := do
  let rs := (executing c).map fun l => (l, shuffled c a l (src c l))
  modTeam c.tid fun t =>
    noteAbsent (rs.any (·.2.2)) (putEach (movesPair c) d ((rs.filter fun r => c.gm.getLsbD r.1).map fun r => (r.1, r.2.1)) t)
  pure .on

def shuffleSig (op : Nat) (d a : Opnd) (more : List Use) (c : Cx) : Sig :=
  crossSig op 0 ([⟨d, .dst, movesPair c⟩, ⟨a, .src, movesPair c⟩] ++ more) c

/-- SHFL (09 R266). -/
def execShfl (d a b : Opnd) (s : State) : Host.Outcome State Fault Refusal :=
  teamStep (shuffleSig 0x80 d a [⟨b, .src, false⟩])
    (shuffleBody (fun c l => ((opWord c l b).toNat % 1024 : Nat)) d a) s

/-- SHFLX (09 R266). -/
def execShflx (d a : Opnd) (imm : Nat) (s : State) : Host.Outcome State Fault Refusal :=
  teamStep (shuffleSig 0x81 d a []) (shuffleBody (fun _ l => (Nat.xor l imm : Nat)) d a) s

/-- SHFLU (09 R266): out of range when negative. -/
def execShflu (d a : Opnd) (imm : Nat) (s : State) : Host.Outcome State Fault Refusal :=
  teamStep (shuffleSig 0x82 d a []) (shuffleBody (fun _ l => (l : Int) - (imm : Int)) d a) s

/-- SHFLD (09 R266). -/
def execShfld (d a : Opnd) (imm : Nat) (s : State) : Host.Outcome State Fault Refusal :=
  teamStep (shuffleSig 0x83 d a []) (shuffleBody (fun _ l => (l + imm : Nat)) d a) s

/-- BCST (09 R266): b is s or k. -/
def execBcst (d a b : Opnd) (s : State) : Host.Outcome State Fault Refusal :=
  teamStep (shuffleSig 0x84 d a [⟨b, .scalar, false⟩])
    (shuffleBody (fun c _ => ((opScalar c b).toNat : Nat)) d a) s

/-- RDLN: one result for the arm; an index outside the guard reads the lowest executing lane
(09 R265, R266). -/
def rdlnBody (d a b : Opnd) (c : Cx) : Act Next := do
  let r := shuffled c a ((executing c).headD 0) (opScalar c b).toNat
  modTeam c.tid fun t => noteAbsent r.2 (putScalar d r.1 t)
  pure .on

/-- RDLN (09 R266). -/
def execRdln (d a b : Opnd) (s : State) : Host.Outcome State Fault Refusal :=
  teamStep (fun c => crossSig 0x8b 0 [⟨d, .uniform, false⟩, ⟨a, .src, movesPair c⟩, ⟨b, .scalar, false⟩] c)
    (rdlnBody d a b) s

/-- WRLN: one lane is written, when it is a present member (09 R265, R266). -/
def wrlnBody (d a b : Opnd) (c : Cx) : Act Next := do
  let i := (opScalar c b).toNat
  let present := namesMember c i && c.a.exec.getLsbD i
  modTeam c.tid fun t =>
    noteAbsent (namesMember c i && !present)
      (if present then putEach (movesPair c) d [(i, (opScalar c a).toNat)] t else t)
  pure .on

/-- WRLN (09 R266). -/
def execWrln (d a b : Opnd) (s : State) : Host.Outcome State Fault Refusal :=
  teamStep (fun c => crossSig 0x8c 0 [⟨d, .dst, movesPair c⟩, ⟨a, .scalar, false⟩, ⟨b, .scalar, false⟩] c)
    (wrlnBody d a b) s

/-! ### Votes and matching (09 R267) -/

/-- Present members whose a is not zero. -/
def voters (c : Cx) (a : Opnd) : List Nat := (executing c).filter fun l => laneVal c (movesPair c) l a != 0

def voteSig (op extra : Nat) (role : Role) (d a : Opnd) (c : Cx) : Sig :=
  crossSig op extra [⟨d, role, false⟩, ⟨a, .src, movesPair c⟩] c

def vanyBody (d a : Opnd) (c : Cx) : Act Next := do
  let some? := !(voters c a).isEmpty
  modTeam c.tid fun t =>
    noteAbsent (!some? && absentMembers c != 0) (putScalar d (if some? then 1 else 0) t)
  pure .on

/-- VANY (09 R267). -/
def execVany (d a : Opnd) (s : State) : Host.Outcome State Fault Refusal :=
  teamStep (voteSig 0x85 1 .uniform d a) (vanyBody d a) s

def vallBody (d a : Opnd) (c : Cx) : Act Next := do
  let all := (voters c a).length = (executing c).length
  let absent := absentMembers c != 0
  modTeam c.tid fun t => noteAbsent (all && absent) (putScalar d (if all && !absent then 1 else 0) t)
  pure .on

/-- VALL (09 R267). -/
def execVall (d a : Opnd) (s : State) : Host.Outcome State Fault Refusal :=
  teamStep (voteSig 0x86 1 .uniform d a) (vallBody d a) s

/-- The word of a mask that covers a lane. -/
def wordAt (m : Mask) (lane : Nat) : Nat := (m.extractLsb' (32 * (lane / 32)) 32).toNat

def vbalBody (d a : Opnd) (c : Cx) : Act Next := do
  let v := maskOf (voters c a)
  modTeam c.tid fun t =>
    noteAbsent ((executing c).any fun l => wordAt (absentMembers c) l != 0)
      (putEach false d ((lanesOf c.t.lanes c.gm).map fun l => (l, wordAt v l)) t)
  pure .on

/-- VBAL (09 R267). -/
def execVbal (d a : Opnd) (s : State) : Host.Outcome State Fault Refusal :=
  teamStep (voteSig 0x87 0 .dst d a) (vbalBody d a) s

/-- The lowest present member with a lane's value. -/
def lowestMatch (c : Cx) (a : Opnd) (lane : Nat) : Nat :=
  ((executing c).find? fun m => laneVal c (movesPair c) m a = laneVal c (movesPair c) lane a).getD lane

def matchBody (d a : Opnd) (c : Cx) : Act Next := do
  modTeam c.tid fun t => putEach false d ((lanesOf c.t.lanes c.gm).map fun l => (l, lowestMatch c a l)) t
  pure .on

/-- MATCH (09 R267). -/
def execMatchLanes (d a : Opnd) (s : State) : Host.Outcome State Fault Refusal :=
  teamStep (voteSig 0x8a 1 .dst d a) (matchBody d a) s

/-! ### Reductions and scans (09 R268) -/

/-- Width of an element under any type that RED and SCAN honour. -/
def reduceWidth (e : Nat) : Nat := if e < 8 then intWidth e else fmtWidth e

/-- Whether an operation honours a type. -/
def reduceType (op e : Nat) : Bool := if op < 6 then decide (e < 8) else isFloat e

/-- The identity of an operation. -/
def reduceIdentity (op e : Nat) : Nat :=
  let w := reduceWidth e
  let sg := intSigned e
  match op with
  | 1 => if sg then 2 ^ (w - 1) - 1 else 2 ^ w - 1
  | 2 => if sg then 2 ^ (w - 1) else 0
  | 3 => 2 ^ w - 1
  | 7 => infBits e
  | 8 => infBits e + signBit e true
  | _ => 0

/-- An integer operation of two elements. -/
def reduceInt (op e x y : Nat) : Nat :=
  let w := intWidth e
  match op with
  | 0 => (x + y) % 2 ^ w
  | 1 => minFn w (intSigned e) 0 x y
  | 2 => maxFn w (intSigned e) 0 x y
  | 3 => x &&& y
  | 4 => x ||| y
  | _ => x ^^^ y

/-- FMIN or FMAX over elements, each as the instruction has it, from the first with itself (DESIGN CHOICE, log entry 28:
09 R268 gives an identity, which only an empty set of members shows unless every member is NaN; then this gives the
default NaN). -/
def reducePick (op e : Nat) (fsub : Bool) (xs : List Nat) : FRes :=
  let fn := if op = 7 then fminFn else fmaxFn
  let r : Rounding := ⟨0, false, fsub, none⟩
  match xs with
  | [] => ⟨reduceIdentity op e, 0⟩
  | x :: t => t.foldl (fun a y => (fn e r a.bits y 0).withFlags a.flags) (fn e r x x 0)

/-- One element position reduced over the members' values: an fadd is the exact sum, rounded
once under mode.rnd and mode.sat (DEDUCED, log entry 28, as `fdotLane`). -/
def reduceElems (op e : Nat) (r : Rounding) (xs : List Nat) : FRes :=
  if op < 6 then ⟨xs.foldl (reduceInt op e) (reduceIdentity op e), 0⟩
  else if op = 6 then finishF e r (groupSum (xs.map fun x => .exact (readF e r.fsub x)))
  else reducePick op e r.fsub xs

/-- Element position j of the listed lanes. -/
def memberElems (c : Cx) (a : Opnd) (j : Nat) (lanes : List Nat) : List Nat :=
  lanes.map fun l => (elementsOf c (reduceWidth (modeEtype c.a.mode)) l a).getD j 0

/-- A reduction over some lanes, all element positions; `rnd` gives each position's rounding. -/
def reduceOver (c : Cx) (a : Opnd) (op : Nat) (rnd : Nat → Rounding) (lane draws : Nat) (lanes : List Nat) : LaneRes :=
  let e := modeEtype c.a.mode
  let w := reduceWidth e
  let rs := (List.range (elementsIn c w)).map fun j => reduceElems op e (rnd j) (memberElems c a j lanes)
  ⟨lane, packElems w (rs.map (·.bits)), rs.foldl (fun x r => x ||| r.flags) 0, draws⟩

/-- The declaration: op 9 to 15 is an illegal operand, then the type and, for fadd, the rounding. -/
def reduceSig (op' : Nat) (role : Role) (d a : Opnd) (op : Nat) (c : Cx) : Sig :=
  let e := modeEtype c.a.mode
  { crossSig op' 1 [⟨d, role, role = .dst && movesPair c⟩, ⟨a, .src, movesPair c⟩] c with
    operandOk := decide (op < 9)
    mode := floatMode c (reduceType op e) (op = 6) }

/-- RED: SRD rounds as RNE (06 R167); the flags go to every governed lane. -/
def redBody (d a : Opnd) (op : Nat) (c : Cx) : Act Next := do
  let r := reduceOver c a op (fun j => { modeRounding c 0 j with draw := none }) 0 0 (executing c)
  modTeam c.tid fun t =>
    raiseLanes ((lanesOf c.t.lanes c.gm).map fun l => ⟨l, 0, r.flags, 0⟩) (putScalar d r.value t)
  pure .on

/-- RED (09 R268). -/
def execRed (d a : Opnd) (op : Nat) (s : State) : Host.Outcome State Fault Refusal :=
  teamStep (reduceSig 0x88 .uniform d a op) (redBody d a op) s

/-- SCAN: each executing lane over the members up to it, itself left out when exclusive; an fadd takes
one draw per element of the lane. -/
def scanBody (d a : Opnd) (x : Bool) (op : Nat) (c : Cx) : Act Next := do
  let n := if op = 6 then drawsFor c (modeRnd c.a.mode) (elementsIn c (reduceWidth (modeEtype c.a.mode))) else 0
  let rs := (lanesOf c.t.lanes c.gm).map fun l =>
    reduceOver c a op (modeRounding c l) l n ((executing c).filter fun m => if x then decide (m < l) else decide (m ≤ l))
  modTeam c.tid fun t => putRes (movesPair c) d rs c t
  pure .on

/-- SCAN (09 R268). -/
def execScan (d a : Opnd) (x : Bool) (op : Nat) (s : State) : Host.Outcome State Fault Refusal :=
  teamStep (reduceSig 0x89 .dst d a op) (scanBody d a x op) s

end Sys2Proof.Machine
end

