-- ==== Sys2Proof/Machine/Rensar.lean ====
section
/-! DEFINITION. Messages of the Rensar ports: inbound writes and reads, answers, errors and timeouts of this
device's own requests, and the state of the links (13 R378-R381; 20 R482-R485; 21 R515). -/
namespace Sys2Proof.Machine
open Sys2Proof

/-! ### Inbound requests (13 R379-R381; 20 R482) -/

/-- The reason that an error completion carries (20 R482). -/
def reasonOf : Stop → Nat
  | .absent _ _ _ => 1
  | .fault .permission _ => 2
  | .fault .keyFault _ => 3
  | .fault .integrity _ => 4
  | .fault .dataError _ => 5
  | .fault .translationEncoding _ => 6
  | _ => 2

/-- The class of the record of a refused inbound access. -/
def inboundClass (reason : Nat) : Nat := if reason = 4 then 5 else if reason = 5 then 6 else 7

/-- The header of a message to the package that sent one. -/
def replyHdr (type : Nat) (h : RensarHdr) (ia n : Nat) : RensarHdr :=
  ⟨type, (n + 63) / 64 % 16, h.src, Config.packageId, h.world, 0, ia, h.txid, 0, 0, 0, true⟩

/-- A message to the package that sent a request, under a key: its world's, or the fabric key, 64. Its flits are the
device's own work. -/
def reply (port key type : Nat) (h : RensarHdr) (ia : Nat) (bs : List (BitVec 8)) : Act Unit := do
  sendRensar port key (replyHdr type h ia bs.length) bs
  chargeBase port none clsRensar (1 + (bs.length + 63) / 64)

/-- An error completion with its reason in the ia field, its record, and the firmware message that carries the record, which
the firmware of the port's die sends (20 R482; 13 R382). -/
def refuseInbound (port : Nat) (h : RensarHdr) (reason : Nat) : Act Unit := do
  reply port h.world 4 h reason []
  let r := { ErrRec.blank with type := 12, cls := inboundClass reason, world := h.world, unit := 5, number := port }
  let s ← get
  emitRecord (port / 4) r
  sendMessage none 64 (firmwareRouter (port / 4)) (routerOfPort port) .manage 64
  reply port 64 7 h 0 (recordBytes { r with time := s.time, epoch := s.epoch, sequence := s.recSeq, part := recordPart s r })

/-! ### The arrival of a message (13 R379) -/

/-- A header that fails its check is dropped and counted (13 R379). -/
def dropHeader (port : Nat) : Act Unit := modPort port fun p => { p with dropped := p.dropped + 1 }

/-- Whether a header passes: its tag matches, and its counter is one more than the last that the port accepted under the key
(13 R379, 04 R114). -/
def headerOk (p : Port) (key : Nat) (h : RensarHdr) : Bool :=
  h.good && h.ctr = ((find? p.flows key).getD ⟨0, 0⟩).accepted + 1

/-- A port's counter of accepted messages under a key. -/
def setAccepted (port key n : Nat) : Act Unit :=
  modPort port fun p =>
    let f := (find? p.flows key).getD ⟨0, 0⟩
    { p with flows := put p.flows key { f with accepted := n } }

/-- A message of a type arrives. A port without power wakes, and the peer, which sees *on* deasserted, sends when it has (13
R386, R387); a header of another type, which a reserved one is, or one that fails its check is dropped. A message that a
slice refuses, or whose answer waits for a port, is not accepted yet, and is taken again. In recovery the device offers CXL.io
alone (13 R383). -/
def arrival (port key type : Nat) (h : RensarHdr) (m : Act Bool) : Act Unit := do
  wakeUnit port 12
  let s ← get
  if s.bootStatus = 2 then pure ()
  else if !unitOn s port 12 then modify fun s => { s with turnedAway := true }
  else if h.type ≠ type || !headerOk (portOf s port) key h then dropHeader port
  else do
    setAccepted port key h.ctr
    if ← m then pure ()
    else do
      setAccepted port key (h.ctr - 1)
      modify fun s => { s with turnedAway := true }

/-- Every arrival that is taken at once. -/
def arrives (port type : Nat) (h : RensarHdr) (m : Act Unit) : Act Unit :=
  arrival port h.world type h (do
    m
    pure true)

/-- Whether a world is served on a port: a link key, and a function bound to it here (20 R482, reason 8). -/
def worldServed (s : State) (port world : Nat) : Bool :=
  (portOf s port).linkKeys.contains world && s.fns.any fun e => e.2.world = some world

/-- The counter that a tag names for a world: no counter for tag 0; none for a tag that is refused (13 R381). -/
def tagCounter (s : State) (world tag : Nat) : Option (Option Nat) :=
  if tag = 0 then some none
  else if 1024 ≤ tag then none
  else match find? s.tags tag with
    | some e => if e.world = world then some (some e.ia) else none
    | none => none

/-- The requester of an inbound access. -/
def inboundReq (port world : Nat) : Req := ⟨routerOfPort port, none, none, none, world⟩

/-- The IA of a request's first byte: packages of this kind name it in the bytes that are reserved (log entry 11). -/
def hdrIa (h : RensarHdr) : Nat := h.ia + h.rest % 64

/-- RENSAR_WRITE: performed at its home slice and acknowledged, and then its tag's counter rises by one, once its
slice takes the update. False when a slice refuses it. -/
def inboundWrite (port : Nat) (h : RensarHdr) (bs : List (BitVec 8)) : Act Bool := do
  let s ← get
  if !worldServed s port h.world then do
    refuseInbound port h 8
    pure true
  else match tagCounter s h.world h.tag with
    | none => do
      refuseInbound port h 7
      pure true
    | some counter => do
      let r := inboundReq port h.world
      match ← allOrError (hostStoreBytes r (hdrIa h) bs) with
      | .error (.wait _) => pure false
      | .error e => do
        refuseInbound port h (reasonOf e)
        pure true
      | .ok _ => do
        reply port h.world 3 h 0 []
        match counter with
        | none => pure true
        | some c => do
          makeLate ⟨0, 0x3ff, h.world, 48 * port, some port, c, none, none, 1, none⟩
          pure true

/-- RENSAR_WRITE (13 R381). -/
def execRensarWrite (port : Nat) (hdr : RensarHdr) (bytes : List (BitVec 8)) (s : State) : Host.Outcome State Fault Refusal :=
  eventStep (arrival port hdr.world 0 hdr (inboundWrite port hdr bytes)) s

/-- Bytes that a read request asks for: its length field counts data flits, 0 for 16 (13 R378). -/
def requestBytes (len : Nat) : Nat := 64 * (if len % 16 = 0 then 16 else len % 16)

/-- RENSAR_READ_REQUEST: the data, or an error completion. False when a slice refuses it. -/
def inboundRead (port : Nat) (h : RensarHdr) : Act Bool := do
  let s ← get
  if !worldServed s port h.world then do
    refuseInbound port h 8
    pure true
  else
    match ← allOrError (readRange (inboundReq port h.world) h.ia (requestBytes h.len) .read) with
    | .ok bs => do
      reply port h.world 2 h 0 bs
      pure true
    | .error (.wait _) => pure false
    | .error e => do
      refuseInbound port h (reasonOf e)
      pure true

/-- RENSAR_READ_REQUEST (13 R380). -/
def execRensarReadRequest (port : Nat) (hdr : RensarHdr) (s : State) : Host.Outcome State Fault Refusal :=
  eventStep (arrival port hdr.world 1 hdr (inboundRead port hdr)) s

/-! ### Answers to this device's requests (13 R380; 20 R483-R485) -/

/-- An arm no longer waits for a transaction; with none left it goes on. -/
def withoutTx (tx : Nat) (x : Arm) : Arm :=
  match x.wait with
  | .peer txs => { x with wait := if (dropAll txs tx).isEmpty then .retry else .peer (dropAll txs tx) }
  | _ => x

/-- A team no longer owes a transaction. -/
def teamWithoutTx (tx : Nat) (t : Team) : Team :=
  { t with
    posted := t.posted.filter fun p => p.1 != tx
    a0 := t.a0.map (withoutTx tx)
    a1 := t.a1.map (withoutTx tx) }

/-- An arm's rest of an instruction after a lane, or the whole T slot, was answered. -/
def redoDone (m : Mask) (x : Arm) : Arm :=
  match x.redo with
  | some r => { x with redo := some { r with todo := r.todo &&& ~~~m, done := r.done ||| m } }
  | none => x

/-- An arm's rest after a failure of a class at an IA: the lowest faulted lane's is what its trap tells of (17 R405). -/
def redoFails (m : Mask) (cls ia : Nat) (x : Arm) : Arm :=
  match x.redo with
  | some r =>
    let r := if r.failed = 0 || decide (lowestLane m < lowestLane r.failed) then
        { r with cls := r.cls % 16 + 16 * cls, detail := ia } else r
    { x with redo := some { r with failed := r.failed ||| m, todo := r.todo &&& ~~~m } }
  | none => x

/-- The lanes that an answer concerns: one lane of a vector destination, else the arm's whole set. -/
def answerLanes (t : Team) (arm lane dreg : Nat) : Mask :=
  if dreg < 256 then BitVec.twoPow 1024 lane else ((armOf t arm).map (·.exec)).getD 0

/-- A load's or an atomic's data reach their destination: v_i, s_i, or what a wait observes. -/
def landLoad (tid arm lane dreg : Nat) (sx : Bool) (bs : List (BitVec 8)) : Act Unit := do
  let s ← get
  match find? s.teams tid with
  | none => pure ()
  | some t => do
    let m := answerLanes t arm lane dreg
    if dreg < 256 then
      match cxOf s tid arm .d with
      | some c => putLoaded c (.v dreg) sx lane bs
      | none => pure ()
    else if dreg < 512 then
      match cxOf s tid arm .t with
      | some c => putLoaded c (.s (dreg - 256)) sx lane bs
      | none => pure ()
    else modArm tid arm fun x => { x with redo := x.redo.map fun r => { r with detail := numLE bs } }
    modArm tid arm (redoDone m)

/-- An engine operation's unit is answered, a read's with the flits that hold its bytes. -/
def landEngine (op tx off len : Nat) (bs : Option (List (BitVec 8))) : Act Unit := do
  match find? (← get).ops op with
  | none => pure ()
  | some o => do
    let o := peerAnswered o tx
    match bs with
    | some b =>
      if o.kind = .rget && o.failedAt.isNone then
        let o := { o with early := o.early ++ [(off, (b.drop (peerIa o off % 64)).take len)] }
        match o.phase with
        | .holding _ => setOp op o
        | _ => rgetStore op (o.early.length + 1) o
      else setOp op (peerSettled o)
    | none => setOp op (peerSettled o)

/-- A request of a transaction has failed with a class (20 R483). -/
def failJob (port tx cls : Nat) : PeerJob → Act Unit
  | .load tid arm lane dreg _ ia _ => do
    match find? (← get).teams tid with
    | none => pure ()
    | some t => modArm tid arm (redoFails (answerLanes t arm lane dreg) cls ia)
  | .posted tid va kind ctx world core => do
    match find? (← get).teams tid with
    | none => pure ()
    | some _ => do
      let ia := placedIa (← get) ctx va
      asyncError tid ctx world core cls va kind true ⟨5, port, 0⟩ 0 ia
  | .engine op off _ => do
    modOp op fun o =>
      peerSettled (peerAnswered { o with failedAt := lowestFailure o.failedAt off cls } tx)

/-- Who waits for a transaction goes on. -/
def releaseTx (tx : Nat) : PeerJob → Act Unit
  | .load tid _ _ _ _ _ _ => modTeam tid (teamWithoutTx tx)
  | .posted tid _ _ _ _ _ => modTeam tid (teamWithoutTx tx)
  | .engine _ _ _ => pure ()

/-- The answer to a request goes on from its port to the core or the engine that waits for it (01 R16, R19). -/
def carryAnswer (port : Nat) (ch : Channel) (n : Nat) : Option Asker → Act Unit
  | none => pure ()
  | some a => sendMessage a.ctx a.world (routerOfPort port) (coreRouter a.core) ch n

/-- An outstanding request's answer of n bytes, when it is not late: late ones are dropped. -/
def answerTx (port txid : Nat) (ch : Channel) (n : Nat) (f : Nat → PeerJob → Act Unit) : Act Unit := do
  let p := portOf (← get) port
  if p.heldTx.contains txid then pure ()
  else match find? p.jobs txid with
    | none => pure ()
    | some job => do
      setPort port { p with jobs := del p.jobs txid, askers := del p.askers txid, sentAt := del p.sentAt txid }
      carryAnswer port ch n (find? p.askers txid)
      f (port * 4096 + txid) job
      releaseTx (port * 4096 + txid) job
      wakeRoom

/-- RENSAR_READ_RESPONSE (13 R380). -/
def execRensarReadResponse (port : Nat) (hdr : RensarHdr) (bytes : List (BitVec 8)) (s : State) :
    Host.Outcome State Fault Refusal :=
  eventStep (arrives port 2 hdr (answerTx port hdr.txid .data bytes.length fun tx job => match job with
    | .load tid arm lane dreg n ia sx => landLoad tid arm lane dreg sx ((bytes.drop (ia % 64)).take n)
    | .posted _ _ _ _ _ _ => pure ()
    | .engine op off len => landEngine op tx off len (some bytes))) s

/-- RENSAR_WRITE_ACK (13 R380). -/
def execRensarWriteAck (port : Nat) (hdr : RensarHdr) (s : State) : Host.Outcome State Fault Refusal :=
  eventStep (arrives port 3 hdr (answerTx port hdr.txid .ack 0 fun tx job => match job with
    | .engine op off _ => landEngine op tx off 0 none
    | _ => pure ())) s

/-- RENSAR_ERROR_COMPLETION (20 R483): class 7, whatever the reason that bits 7:0 of the ia field carry; a reason that is
never sent (20 R482) fails nothing. -/
def execRensarErrorCompletion (port : Nat) (hdr : RensarHdr) (reason : Nat) (s : State) : Host.Outcome State Fault Refusal :=
  eventStep (arrives port 4 hdr (
    if reason = 0 || 9 ≤ reason then pure () else answerTx port hdr.txid .ack 0 fun tx job => failJob port tx 7 job)) s

/-- A peer's firmware message with the record of an access that it refused, sealed under the fabric key: it waits at the
firmware core of the port's die, which is to forward it (13 R382, 20 R482). -/
def peerRecord (port : Nat) (h : RensarHdr) (r : ErrRec) : Act Unit :=
  arrival port 64 7 h (do
    sendMessage none 64 (routerOfPort port) (firmwareRouter (port / 4)) .manage 64
    modFirmware (port / 4) fun f => { f with messages := f.messages ++ [.record r] }
    pure true)

/-- The time for which a request waits for its answer, and a number is held after that, in ns (13 R380, 20 R484). -/
def answerTime : Nat := 2000000

/-- Whether 2 ms have passed since a request was sent, or since its number's hold began. -/
def txDue (s : State) (port txid : Nat) : Bool :=
  decide (((find? (portOf s port).sentAt txid).getD 0) + answerTime ≤ s.time)

/-- A request has timed out: its number is held, and the port says so (20 R484). -/
def timeOut (port txid : Nat) : Act Unit := do
  let p := portOf (← get) port
  if (find? p.jobs txid).isNone || p.heldTx.contains txid then pure ()
  else do
    answerTx port txid .ack 0 fun tx job => failJob port tx 8 job
    let now := (← get).time
    modPort port fun p => { p with heldTx := insertNew p.heldTx txid, sentAt := put p.sentAt txid now }
    emitRecord (port / 4) { ErrRec.blank with type := 14, cls := 8, unit := 5, number := port }

/-- RENSAR_TIMEOUT (13 R380, 20 R484): 2 ms after the request was sent. -/
def execRensarTimeout (port txid : Nat) (s : State) : Host.Outcome State Fault Refusal :=
  eventStep (do if txDue (← get) port txid then timeOut port txid else pure ()) s

/-- TXID_HOLD_EXPIRED (20 R484): 2 ms after the timeout. -/
def execTxidHoldExpired (port txid : Nat) (s : State) : Host.Outcome State Fault Refusal :=
  eventStep (do
    if (portOf (← get) port).heldTx.contains txid && txDue (← get) port txid then do
      modPort port fun p => { p with heldTx := dropAll p.heldTx txid, sentAt := del p.sentAt txid }
      wakeRoom
    else pure ()) s

/-! ### Links (13 R379; 21 R515) -/

/-- Lanes with which a port runs on: 8, 4, 2 or none. -/
def lanesKept (n : Nat) : Nat := if 8 ≤ n then 8 else if 4 ≤ n then 4 else if 2 ≤ n then 2 else 0

/-- RENSAR_LANE_FAILURE: a step down leaves a record; with no lane the port is down, and what is outstanding ends
as a timeout. -/
def lanesFail (port working : Nat) : Act Unit := do
  let p := portOf (← get) port
  let n := lanesKept working
  if p.lanes ≤ n then pure ()
  else do
    setPort port { p with lanes := n, up := decide (0 < n) }
    platformRecord (port / 4) { ErrRec.blank with unit := 5, number := port }
    if n = 0 then each p.jobs fun j => timeOut port j.1 else pure ()

/-- RENSAR_LANE_FAILURE (21 R515). -/
def execRensarLaneFailure (port lanes : Nat) (s : State) : Host.Outcome State Fault Refusal := eventStep (lanesFail port lanes) s

/-- RENSAR_LINK_UP (13 R379): the packages' firmwares agree a link key for each world that both serve; the counters
start anew with the keys. -/
def execRensarLinkUp (port : Nat) (worlds : List Nat) (s : State) : Host.Outcome State Fault Refusal :=
  eventStep (modPort port fun p =>
    { p with up := true, lanes := 8, flows := [], linkKeys := (worlds.filter fun w => decide (w < 64)).eraseDups }) s

end Sys2Proof.Machine
end

