-- ==== Sys2Proof/Machine/Rack.lean ====
section
/-! DEFINITION. Craras: the packages of a rack share its cap over their Rensar links (03 R85, R86; 21 R508; 13 R378, R379). -/
namespace Sys2Proof.Machine
open Sys2Proof

/-- Measured power of the package over the last tick, in mW. -/
def packagePower (s : State) : Nat := milliwatts s.drawn 1

/-- Reports not older than 3 ms: package, floors and demand. -/
def freshDemands (s : State) : List (Nat × Nat × Nat) :=
  (s.demands.filter fun e => decide (s.time ≤ e.2.1 + 3000000)).map fun e => (e.1, e.2.2)

/-- The coordinator (03 R85): the package of lowest identifier among the fresh reports and this one. -/
def coordinator (s : State) : Nat := (freshDemands s).foldl (fun a e => Nat.min a e.1) Config.packageId

/-- The data flit of a Craras message: its numbers, eight bytes each (DESIGN CHOICE, log entry 11: 03 R85 names what it holds
and not where). -/
def crarasBytes (xs : List Nat) : List (BitVec 8) := padTo 64 (xs.flatMap (bytesLE 8))

/-- A Craras flit goes from die 0's firmware to the Rensar port that serves a package, and out under the fabric key (DESIGN
CHOICE, log entry 11: the manual says only that it goes over the Rensar links). It is the device's own work. False while the
port has no power: it wakes (13 R386). -/
def sendCraras (pkg type : Nat) (xs : List Nat) : Act Bool := do
  let port := portFor pkg
  wakeUnit port 12
  if !unitOn (← get) port 12 then pure false
  else do
    sendMessage none 64 (firmwareRouter 0) (routerOfPort port) .manage 64
    sendRensar port 64 ⟨type, 1, pkg, Config.packageId, 0, 0, 0, 0, 0, 0, 0, true⟩ (crarasBytes xs)
    chargeBase port none clsRensar 2
    pure true

/-- The grant of a package under a rack cap (03 R85; 21 R508 for a cap below the floors). A report's demand may lie below its
floor, and the formula is signed; its `div` rounds down (DEDUCED, log entry 11). -/
def rackShare (cap : Nat) (ds : List (Nat × Nat × Nat)) (floor demand : Nat) : Nat :=
  let floors := (ds.map (·.2.1)).sum
  let above : Int := (ds.map fun e => (e.2.2 : Int) - e.2.1).sum
  if cap < floors then floor * cap / floors
  else if ds.all fun e => e.2.2 = e.2.1 then floor
  else if above = 0 then Nat.min (Config.openShare floor demand) demand
  else (min ((floor : Int) + Int.fdiv (((cap : Int) - floors) * ((demand : Int) - floor)) above) demand).toNat

/-- This package takes a grant, unless one at least as new has come from the same coordinator (03 R86). -/
def takeGrant (coord seq mw : Nat) : Act Unit :=
  modify fun s =>
    if (find? s.grantSeqs coord).any fun n => decide (seq ≤ n) then s
    else { s with rackGrant := mw, grantSeqs := put s.grantSeqs coord seq, grantTime := s.time }

/-- A report of a package stands for 3 ms. -/
def noteDemand (pkg floor demand : Nat) : Act Unit :=
  modify fun s => { s with demands := put s.demands pkg (s.time, floor, demand) }

/-- Whether this package is the coordinator of those whose reports are fresh, itself among them. -/
def coordinates (s : State) : Bool :=
  let ds := freshDemands s
  (ds.any fun e => e.1 = Config.packageId) && ds.all fun e => decide (Config.packageId ≤ e.1)

/-- The coordinator answers a report: with a flit, or for itself at once. False while the flit's port has no power. -/
def answerDemand (pkg floor demand : Nat) : Act Bool := do
  let s ← get
  let seq := s.sentSeq + 1
  let mw := rackShare s.rackCap (freshDemands s) floor demand
  if pkg = Config.packageId then do
    modify fun s => { s with sentSeq := seq }
    takeGrant pkg seq mw
    pure true
  else if ← sendCraras pkg 6 [Config.packageId, seq, mw] then do
    modify fun s => { s with sentSeq := seq }
    pure true
  else pure false

/-- This package reports its floors and its demand to the coordinator, which it may be itself. -/
def reportDemand : Act Bool := do
  let s ← get
  noteDemand Config.packageId (floorSum s) (askedSum s)
  let t ← get
  if coordinates t then answerDemand Config.packageId (floorSum s) (askedSum s)
  else sendCraras (coordinator t) 5 [Config.packageId, floorSum s, askedSum s, packagePower s]

/-- An operation that is made again while it cannot be done. -/
def untilSent (m : Act Bool) : Act Unit := do
  if ← m then pure () else modify fun s => { s with turnedAway := true }

/-- CRARAS_DEMAND_REPORT (03 R85). -/
def execCrarasDemandReport (s : State) : Host.Outcome State Fault Refusal := eventStep (untilSent reportDemand) s

/-- A Craras message that has come by a port goes on to die 0's firmware (13 R382). -/
def toFirmware (port : Nat) : Act Unit := do
  sendMessage none 64 (routerOfPort port) (firmwareRouter 0) .manage 64
  noteRequest 0 4

/-- CRARAS_DEMAND (03 R85): a report reaches this package; the package with the lowest identifier that has
reported within 3 ms is the coordinator, and answers. -/
def execCrarasDemand (frm : Nat × RensarHdr) (floor demand power : Nat) (s : State) : Host.Outcome State Fault Refusal :=
  eventStep (arrival frm.1 64 5 frm.2 (do
    let _ := power
    noteDemand frm.2.src floor demand
    if !coordinates (← get) || (← answerDemand frm.2.src floor demand) then do
      toFirmware frm.1
      pure true
    else pure false)) s

/-- CRARAS_GRANT (03 R86): the allowances follow at the next tick. -/
def execCrarasGrant (frm : Nat × RensarHdr) (seq mw : Nat) (s : State) : Host.Outcome State Fault Refusal :=
  eventStep (arrival frm.1 64 6 frm.2 (do
    toFirmware frm.1
    takeGrant frm.2.src seq mw
    pure true)) s

/-- CRARAS_GRANT_TIMEOUT (03 R86): with no grant for 3 ms the package uses its floor total. -/
def execCrarasGrantTimeout (s : State) : Host.Outcome State Fault Refusal :=
  eventStep (modify fun s => if s.grantTime + 3000000 ≤ s.time then { s with rackGrant := floorSum s } else s) s

end Sys2Proof.Machine
end

