-- ==== Sys2Proof/Machine/Shake.lean ====
section
/-! DEFINITION. SHAKE256 (FIPS 202), which the specialiser's keys are taken from (12 R368): the permutation
Keccak-f[1600] on 25 lanes of 64 bits, and a sponge with a rate of 136 bytes. -/
namespace Sys2Proof.Machine
open Sys2Proof

/-- The round constants. -/
def keccakConstants : List DWord :=
  [0x0000000000000001, 0x0000000000008082, 0x800000000000808a, 0x8000000080008000, 0x000000000000808b, 0x0000000080000001,
   0x8000000080008081, 0x8000000000008009, 0x000000000000008a, 0x0000000000000088, 0x0000000080008009, 0x000000008000000a,
   0x000000008000808b, 0x800000000000008b, 0x8000000000008089, 0x8000000000008003, 0x8000000000008002, 0x8000000000000080,
   0x000000000000800a, 0x800000008000000a, 0x8000000080008081, 0x8000000000008080, 0x0000000080000001, 0x8000000080008008]

/-- The rotation of lane x + 5 y. -/
def keccakTurns : List Nat :=
  [0, 1, 62, 28, 27, 36, 44, 6, 55, 20, 3, 10, 43, 25, 39, 41, 45, 15, 21, 8, 18, 2, 61, 56, 14]

/-- Lane (x, y) of a state, its coordinates taken modulo 5. -/
def keccakLane (a : List DWord) (x y : Nat) : DWord := a.getD (x % 5 + 5 * (y % 5)) 0

/-- The state whose lane (x, y) is f x y. -/
def keccakBuild (f : Nat → Nat → DWord) : List DWord := (List.range 25).map fun i => f (i % 5) (i / 5)

/-- Step theta: each lane with the parities of two columns. -/
def keccakTheta (a : List DWord) : List DWord :=
  let c := (List.range 5).map fun x => (List.range 5).foldl (fun p y => p ^^^ keccakLane a x y) 0
  let d := (List.range 5).map fun x => c.getD ((x + 4) % 5) 0 ^^^ (c.getD ((x + 1) % 5) 0).rotateLeft 1
  keccakBuild fun x y => keccakLane a x y ^^^ d.getD x 0

/-- Steps rho and pi: lane (x, y), rotated, moves to (y, 2x + 3y). -/
def keccakMove (a : List DWord) : List DWord :=
  keccakBuild fun x y =>
    let from_ := (x + 3 * y) % 5
    (keccakLane a from_ x).rotateLeft (keccakTurns.getD (from_ + 5 * x) 0)

/-- Step chi: each lane with the two that follow it in its row. -/
def keccakChi (a : List DWord) : List DWord :=
  keccakBuild fun x y => keccakLane a x y ^^^ (~~~(keccakLane a (x + 1) y) &&& keccakLane a (x + 2) y)

/-- One round, with its constant (step iota). -/
def keccakRound (a : List DWord) (k : DWord) : List DWord :=
  match keccakChi (keccakMove (keccakTheta a)) with
  | x :: t => (x ^^^ k) :: t
  | [] => []

/-- The permutation. -/
def keccak (a : List DWord) : List DWord := keccakConstants.foldl keccakRound a

/-- Bytes padded for SHAKE256 to a multiple of 136. -/
def shakePadded (bs : List (BitVec 8)) : List (BitVec 8) :=
  let n := 135 - bs.length % 136
  bs ++ (if n = 0 then [0x9f] else 0x1f :: (List.replicate (n - 1) 0 ++ [0x80]))

/-- Absorb n blocks. -/
def shakeAbsorb : Nat → List (BitVec 8) → List DWord → List DWord
  | 0, _, a => a
  | n + 1, bs, a =>
    let words := (List.range 25).map fun i =>
      if i < 17 then BitVec.ofNat 64 (numLE ((bs.drop (8 * i)).take 8)) else 0
    shakeAbsorb n (bs.drop 136) (keccak (List.zipWith (· ^^^ ·) a words))

/-- The first 16 bytes of SHAKE256, the first byte lowest. -/
def shake128 (bs : List (BitVec 8)) : BitVec 128 :=
  let p := shakePadded bs
  let a := shakeAbsorb (p.length / 136) p (List.replicate 25 0)
  BitVec.ofNat 128 ((a.getD 0 0).toNat + (a.getD 1 0).toNat * 2 ^ 64)

end Sys2Proof.Machine
end

