-- ==== Sys2Proof/Machine/Specialise.lean ====
section
/-! DEFINITION. The specialiser (07 R194; 12 R368-R374; 15 R395; 19 R462, R463): the key of a launch, the evaluation
of its code under its launch constants, the residual code with its back-map, and the entries of index and
directory. A slot is evaluated by its own meaning, on a team made for that; the plan is a pure function of the
launch, the bundles read so far and the state. -/
namespace Sys2Proof.Machine
open Sys2Proof

/-! ### Static states (12 R371) -/

/-- A counted loop that the evaluation is inside: the PC of its LOOP, its head and exit bundles, its count and
the iteration being copied, and whether it is unrolled. -/
structure StaticLoop where
  pc : Nat
  head : Nat
  exit : Nat
  count : Nat
  iter : Nat
  unrolled : Bool
deriving DecidableEq, Repr

/-- An original bundle under one static state: the mode where it is known, the s registers last written by
folded slots, and the loops around it. -/
structure Spot where
  addr : Nat
  mode : Option Nat
  known : Tbl DWord
  loops : List StaticLoop
deriving DecidableEq, Repr

/-- What becomes of a slot. -/
inductive Fate where
  | fill        -- a NOP
  | kept
  | folded (reg : Nat) (x : DWord) -- its value is known; it is dropped unless its write is needed
  | dropped     -- a resolved branch or loop instruction
  | skipped     -- after a taken branch
deriving DecidableEq, Repr

/-- A slot of an instance: its word, binding time, fate, the place that its offset names, and places that it
reaches without naming them (a loop's end). -/
structure SlotPlan where
  word : Nat
  bt : Bt
  fate : Fate
  target : Option Spot
  also : List Spot
deriving DecidableEq, Repr

/-- An original bundle evaluated under one static state. -/
structure Inst where
  place : Spot
  owed : Tbl DWord           -- values that the residual bundle owes
  slots : List SlotPlan
  next : Option Spot        -- where execution goes on after the bundle
  must : Bool                -- the next bundle must stand right after this one (a kept loop's head)
  evals : Nat                -- evaluated slots (12 R374)
deriving DecidableEq, Repr

/-- A bundle at which several ways meet, with what all of them know. -/
structure Meeting where
  addr : Nat
  loops : List StaticLoop
  mode : Option Nat
  known : Tbl DWord
deriving DecidableEq, Repr

/-- What the evaluation of one bundle gathers. -/
structure Walk where
  slots : List SlotPlan      -- newest first
  mode : Option Nat
  known : Tbl DWord
  loops : List StaticLoop
  past : Bool                -- a taken branch or an end has been met
  next : Option Spot
  must : Bool
  evals : Nat
  meets : List (Nat × List StaticLoop)
  unrolls : List (Nat × Nat) -- loops unrolled, with their depth
  inner : List Nat           -- loops that an indirect branch may leave
  reads : List (Nat × Nat)   -- constant-window offsets and sizes read
  lost : Bool                -- a constant-window read met a fault (19 R462)
  splits : Bool              -- a kept slot uses the join target, or leads to code that may
deriving DecidableEq, Repr

/-- What an evaluation works on: the launch, the map, loops that are not unrolled, slots that keep their write, whether
JOINSET is kept, the meetings, the bundles read, and what the last try evaluated. -/
structure SpecEnv where
  s : State
  id : Nat
  l : Launch
  team : Bool
  keep : List Nat
  force : List Nat
  joins : Bool
  meets : List Meeting
  code : Tbl (List (BitVec 8))
  seen : Nat                 -- slots evaluated by the last try (12 R374)

/-! ### Folding a slot (07 R194, 06 R173, 12 R371) -/

/-- The slots that can be folded: what they read, the register they write and their meaning. An instruction that
also reads a mask, a lane, a work identifier or a format slot has an input that is not launch-static. -/
def foldable (i : Instr) : Option (List Opnd × Opnd × (State → Host.Outcome State Fault Refusal)) :=
  match i with
  | .add d a b => some ([a, b], d, execAdd d a b)
  | .sub d a b => some ([a, b], d, execSub d a b)
  | .addi d a n => some ([a], d, execAddi d a n)
  | .mul d a b => some ([a, b], d, execMul d a b)
  | .mulh d a b => some ([a, b], d, execMulh d a b)
  | .mad d a b => some ([d, a, b], d, execMad d a b)
  | .div d a b => some ([a, b], d, execDiv d a b)
  | .rem d a b => some ([a, b], d, execRem d a b)
  | .min d a b => some ([a, b], d, execMin d a b)
  | .max d a b => some ([a, b], d, execMax d a b)
  | .abs d a => some ([a], d, execAbs d a)
  | .neg d a => some ([a], d, execNeg d a)
  | .and d a b => some ([a, b], d, execAnd d a b)
  | .or d a b => some ([a, b], d, execOr d a b)
  | .xor d a b => some ([a, b], d, execXor d a b)
  | .not d a => some ([a], d, execNot d a)
  | .andi d a n => some ([a], d, execAndi d a n)
  | .ori d a n => some ([a], d, execOri d a n)
  | .xori d a n => some ([a], d, execXori d a n)
  | .shl d a b => some ([a, b], d, execShl d a b)
  | .shr d a b => some ([a, b], d, execShr d a b)
  | .sha d a b => some ([a, b], d, execSha d a b)
  | .shli d a n => some ([a], d, execShli d a n)
  | .shri d a n => some ([a], d, execShri d a n)
  | .shai d a n => some ([a], d, execShai d a n)
  | .rol d a b => some ([a, b], d, execRol d a b)
  | .clz d a => some ([a], d, execClz d a)
  | .popc d a => some ([a], d, execPopc d a)
  | .brev d a => some ([a], d, execBrev d a)
  | .bfx d a b => some ([a, b], d, execBfx d a b)
  | .bfi d a b => some ([d, a, b], d, execBfi d a b)
  | .lim d n => some ([], d, execLim d n)
  | .limh d n => some ([d], d, execLimh d n)
  | .limx d n => some ([d], d, execLimx d n)
  | .mov d a => some ([a], d, execMov d a)
  | .lea d a b => some ([a, b], d, execLea d a b)
  | .addc d a b => some ([a, b], d, execAddc d a b)
  | .cvti d a p x y => some ([d, a], d, execCvti d a p x y)
  | .fadd d a b => some ([a, b], d, execFadd d a b)
  | .fsub d a b => some ([a, b], d, execFsub d a b)
  | .fmul d a b => some ([a, b], d, execFmul d a b)
  | .fma d a b => some ([d, a, b], d, execFma d a b)
  | .fms d a b => some ([d, a, b], d, execFms d a b)
  | .fnma d a b => some ([d, a, b], d, execFnma d a b)
  | .fmin d a b => some ([a, b], d, execFmin d a b)
  | .fmax d a b => some ([a, b], d, execFmax d a b)
  | .fabs d a => some ([a], d, execFabs d a)
  | .fneg d a => some ([a], d, execFneg d a)
  | .fclass d a => some ([a], d, execFclass d a)
  | .frcp d a la => some ([a], d, execFrcp d a la)
  | .frsq d a la => some ([a], d, execFrsq d a la)
  | .fsqrt d a la => some ([a], d, execFsqrt d a la)
  | .fdiv d a b => some ([a, b], d, execFdiv d a b)
  | .fexp2 d a la => some ([a], d, execFexp2 d a la)
  | .flog2 d a la => some ([a], d, execFlog2 d a la)
  | .fsin d a la => some ([a], d, execFsin d a la)
  | .fcos d a la => some ([a], d, execFcos d a la)
  | .ftanh d a la => some ([a], d, execFtanh d a la)
  | .frnd d a rc => some ([a], d, execFrnd d a rc)
  | .ftoi d a u => some ([a], d, execFtoi d a u)
  | .itof d a u => some ([a], d, execItof d a u)
  | .cvtf d a t => some ([a], d, execCvtf d a t)
  | .pack d a b => some ([a, b], d, execPack d a b)
  | .unpk d a p => some ([a], d, execUnpk d a p)
  | .fscl d a b => some ([a, b], d, execFscl d a b)
  | .ldcw d a la sx sz => some ([a], d, execLdcw d a la sx sz)
  | _ => none

/-- The value of a launch-static operand (07 R194). -/
def staticValue (x : SpecEnv) (known : Tbl DWord) : Opnd → Option DWord
  | .v _ => none
  | .s i => find? known i
  | .k i => if bitSet (launchStatic x.l) i then some (launchConst x.l i) else none

/-- The number of the team that evaluates: no team of the device has it. -/
def evalTeam (x : SpecEnv) : Nat := x.s.nextId * 8

/-- The state in which a slot is evaluated: one team of the launch with the known s registers, and a handler that
no evaluated slot stands in. -/
def evalState (x : SpecEnv) (pc slot mode : Nat) (known : Tbl DWord) : State :=
  let l := { x.l with words := x.l.words.set 2 (BitVec.ofNat 64 32) }
  let b := { newBlock x.s x.id x.l.part 0 with st := .resident, spent := 0 }
  let t := newTeam x.s.nextId 0 l pc 0
  let t := { t with
    sreg := known
    a0 := (t.a0.map fun a => { a with pc := pc, slot := slot, mode := BitVec.ofNat 16 mode }) }
  { x.s with
    launches := put x.s.launches x.id l
    blocks := put x.s.blocks x.s.nextId b
    teams := put x.s.teams (evalTeam x) t
    focus := .team (evalTeam x) 0 .s }

/-- Whether an evaluated slot completed with no effect but its register: its arm has gone on, and masks, lanes,
flags, draws and free values are as they were (06 R173, 19 R463). -/
def onlyRegister (x : SpecEnv) (pc slot : Nat) (before after : State) : Bool :=
  match find? before.teams (evalTeam x), find? after.teams (evalTeam x) with
  | some t, some u =>
    (match u.a0 with
      | some a => (a.pc, a.slot) = nextPlace pc slot && a.wait = .none && a.held.isNone
      | none => false)
      && u.lane = t.lane && u.mreg = t.mreg && before.draws = after.draws
  | _, _ => false

/-- The value that a slot writes, when every input is launch-static and nothing else happens; what the trap
registers hold is never taken as known. -/
def foldSlot (x : SpecEnv) (pc slot mode : Nat) (known : Tbl DWord) (i : Instr) : Option (Nat × DWord) :=
  match foldable i with
  | none => none
  | some (ins, .s r, f) =>
    if 44 ≤ r || !(ins.all fun o => (staticValue x known o).isSome) then none
    else
      let s := evalState x pc slot mode known
      match f s with
      | .next s' =>
        if onlyRegister x pc slot s s' then
          match find? s'.teams (evalTeam x) with
          | some t => some (r, readS t r)
          | none => none
        else none
      | _ => none
  | some _ => none

/-- The constant-window read of a slot within the window's limits (09 R277). -/
def windowRead (x : SpecEnv) (known : Tbl DWord) : Instr → Option (Nat × Nat)
  | .ldcw _ a _ _ sz => match staticValue x known a with
    | some o =>
      let n := sizeBytes sz
      if o.toNat + n ≤ launchWindowSize x.l && o.toNat % n = 0 then some (o.toNat, n) else none
    | none => none
  | _ => none

/-! ### Walking a bundle (12 R371) -/

/-- A constant-window read, as a memory event of the launching context. -/
def windowAccess (l : Launch) (e : Nat × Nat) : Act Unit := do
  let (ia, _) ← iaFor l.ctx (launchWindowAddr l + e.1) .read
  let _ ← readRange (frontReq l.part (some l.ctx) l.world) ia e.2 .read
  pure ()

/-- Whether a slot's read of the constant window itself meets a fault (19 R462); a slot that would trap for another cause is
kept, and the evaluation goes on (19 R463). -/
def windowLost (x : SpecEnv) (known : Tbl DWord) (i : Instr) : Bool :=
  match windowRead x known i with
  | none => false
  | some p => match (windowAccess x.l p).run.run x.s with
    | (.ok _, _) => false
    | (.error _, _) => true

/-- The depth of unrolled loops around a place. -/
def unrolledDepth (ls : List StaticLoop) : Nat := (ls.filter (·.unrolled)).length

/-- A slot is kept: what it writes is no longer known. -/
def keepSlot (w : Nat) (bt : Bt) (target : Option Spot) (writes : List Nat) (a : Walk) : Walk :=
  { a with
    slots := ⟨w, if bt = .s then .t else bt, .kept, target, []⟩ :: a.slots
    known := writes.foldl (fun t r => del t r) a.known }

/-- A slot that is illegal as it stands keeps its word and its binding time, so that it traps in its place (18 R423,
R426). -/
def keepIllegal (w : Nat) (bt : Bt) (a : Walk) : Walk := { a with slots := ⟨w, bt, .kept, none, []⟩ :: a.slots }

/-- A slot is resolved and dropped. -/
def dropSlot (w : Nat) (bt : Bt) (a : Walk) : Walk :=
  { a with slots := ⟨w, bt, .dropped, none, []⟩ :: a.slots, evals := a.evals + 1 }

/-- The path ends here or goes on elsewhere. -/
def turnAway (next : Option Spot) (a : Walk) : Walk := { a with past := true, next := next }

/-- A counted loop begins (08 R232, 10 R297): a static count of 0 goes to the exit, one of at most 64 is unrolled
at a depth of at most 3, and any other loop is kept. -/
def walkLoop (x : SpecEnv) (addr slot w : Nat) (bt : Bt) (exit : Nat) (ok : Bool) (count : Option DWord)
    (a : Walk) : Walk :=
  let pc := pcOf addr slot
  let loop := fun (n : Nat) (u : Bool) => (⟨pc, addr + 32, exit, n, 0, u⟩ : StaticLoop)
  let deep := !x.team && decide (4 ≤ a.loops.length)
  let kept := fun (a : Walk) =>
    let out : Spot := ⟨exit, a.mode, a.known, a.loops⟩
    let b := keepSlot w bt (some out) [] a
    { b with
      loops := loop 0 false :: a.loops
      must := true
      meets := (addr, a.loops) :: (exit, a.loops) :: (addr + 32, loop 0 false :: a.loops) :: a.meets }
  if !ok then keepSlot w bt none [] a
  else
    match (if bt = .s then count else none) with
    | none => kept a
    | some n =>
      if 2 ^ 32 ≤ n.toNat then keepSlot w bt none [] a
      else if n.toNat = 0 then turnAway (some ⟨exit, a.mode, a.known, a.loops⟩) (dropSlot w bt a)
      else if n.toNat ≤ 64 && unrolledDepth a.loops < 3 && !x.keep.contains pc && !deep then
        let b := dropSlot w bt a
        { b with loops := loop n.toNat true :: a.loops, unrolls := (pc, unrolledDepth a.loops) :: a.unrolls }
      else kept a

/-- A counted loop's end (08 R232, 10 R297). -/
def walkEnd (w : Nat) (bt : Bt) (a : Walk) : Walk :=
  match a.loops with
  | [] => keepSlot w bt none [] a
  | e :: rest =>
    if !e.unrolled then
      turnAway none { a with
        slots := ⟨w, .t, .kept, none, [⟨e.head, a.mode, a.known, a.loops⟩, ⟨e.exit, a.mode, a.known, rest⟩]⟩ :: a.slots }
    else if e.iter + 1 < e.count then
      turnAway (some ⟨e.head, a.mode, a.known, { e with iter := e.iter + 1 } :: rest⟩) (dropSlot w bt a)
    else turnAway (some ⟨e.exit, a.mode, a.known, rest⟩) (dropSlot w bt a)

/-- The target of a branch of n offset bits in a bundle. -/
def offTarget (addr n off : Nat) : Nat := wrapTo 56 ((addr : Int) + 32 * signed n off)

/-- Nothing is known any more: another arm or a callee may have written the registers. A trap handler is no part
of the code that is followed (log entry 15). -/
def forgetAll (a : Walk) : Walk := { a with known := [] }

/-- The path meets a slot that uses the arm's join target, or that leads to code which may. -/
def usesJoin (a : Walk) : Walk := { a with splits := true }

/-- One slot of a team bundle. -/
def walkTeam (x : SpecEnv) (addr slot w : Nat) (bt : Bt) (a : Walk) : Walk :=
  match decodeTeam w with
  | .error _ => keepIllegal w bt a
  | .ok i =>
    if !btAllowed (w / 16777216) bt then keepIllegal w bt a
    else
      let hence := fun (n off : Nat) => (⟨offTarget addr n off, a.mode, a.known, a.loops⟩ : Spot)
      match i with
      | .nop => { a with slots := ⟨w, bt, .fill, none, []⟩ :: a.slots }
      | .bra off =>
        if bt = .s then turnAway (some (hence 24 off)) (dropSlot w bt a)
        else turnAway none (keepSlot w bt (some (hence 24 off)) [] a)
      | .brz _ _ off => keepSlot w bt (some (hence 20 off)) [] a
      | .brnz _ _ off => keepSlot w bt (some (hence 20 off)) [] a
      | .brd _ _ off => usesJoin <| forgetAll (keepSlot w bt (some ⟨offTarget addr 20 off, a.mode, [], a.loops⟩) [] a)
      | .joinset off =>
        if bt = .s && !x.joins then dropSlot w bt a
        else
        let b := keepSlot w bt (some (hence 24 off)) [] a
        { b with meets := (offTarget addr 24 off, a.loops) :: a.meets }
      | .join => forgetAll (keepSlot w bt none [] a)
      | .call _ off => forgetAll (keepSlot w bt (some ⟨offTarget addr 20 off, a.mode, a.known, []⟩) [] a)
      | .calli _ _ => usesJoin <| forgetAll (keepSlot w bt none [] a)
      | .ret => turnAway none (keepSlot w bt none [] a)
      | .rft => turnAway none (keepSlot w bt none [] a)
      | .tnext => usesJoin <| turnAway none (keepSlot w bt none [] a)
      | .jmpi _ =>
        let b := usesJoin <| turnAway none (keepSlot w bt none [] a)
        { b with inner := ((a.loops.filter (·.unrolled)).map (·.pc)) ++ a.inner }
      | .trap _ => keepSlot w bt none [] a
      | .exit =>
        let b := keepSlot w bt none [] a
        match a.mode with
        | some m => if m % 8 = 0 then turnAway none b else b
        | none => b
      | .mode imm => { keepSlot w bt none [] a with mode := some (imm % 4096) }
      | .modet d imm =>
        let m := match a.mode, staticValue x a.known d with
          | some m, some v => some ((m &&& (65535 - imm % 65536)) ||| (v.toNat &&& imm))
          | _, _ => none
        { keepSlot w bt none [] a with mode := m.map (· % 4096) }
      | .loop d imm =>
        walkLoop x addr slot w bt (addr + 32 * imm) (imm != 0) (staticValue x a.known d) a
      | .endl => walkEnd w bt a
      | i =>
        match (if bt = .s then a.mode else none) with
        | none => keepSlot w bt none (keptWrites i w) a
        | some m =>
          match foldSlot x addr slot m a.known i with
          | some (r, v) =>
            { a with
              slots := ⟨w, bt, .folded r v, none, []⟩ :: a.slots
              known := put a.known r v
              evals := a.evals + 1
              reads := (match windowRead x a.known i with
                | some p => p :: a.reads
                | none => a.reads) }
          | none =>
            let inputs := match foldable i with
              | some (ins, _, _) => ins.all fun o => (staticValue x a.known o).isSome
              | none => false
            let b := keepSlot w bt none (keptWrites i w) a
            { b with lost := a.lost || (inputs && windowLost x a.known i) }

/-- One slot of a stream bundle: MLOOP and MENDL are the only ones that are resolved (15 R395). -/
def walkStream (x : SpecEnv) (addr slot w : Nat) (bt : Bt) (a : Walk) : Walk :=
  match decodeStream w with
  | .error _ => keepIllegal w bt a
  | .ok i =>
    if !streamBtAllowed (w / 16777216) bt then keepIllegal w bt a
    else
      match i with
      | .mnop => { a with slots := ⟨w, bt, .fill, none, []⟩ :: a.slots }
      | .mloop d imm =>
        let count := if bitSet imm 15 then staticValue x [] (.k (imm % 16)) else some (BitVec.ofNat 64 imm)
        walkLoop x addr slot w bt (addr + 32 * d) (d != 0 && !(bitSet imm 15 && bitsOf imm 4 11 != 0)) count a
      | .mendl => walkEnd w bt a
      | .mend => turnAway none (keepSlot w bt none [] a)
      | _ => keepSlot w bt none [] a

/-- The slots of a bundle in turn. -/
def walkSlots (x : SpecEnv) (addr : Nat) (ctl : Control) (bs : List (BitVec 8)) : List Nat → Walk → Walk
  | [], a => a
  | k :: t, a =>
    let w := numLE ((bs.drop (4 * k)).take 4)
    let a' := if a.past then { a with slots := ⟨w, ctl.bt k, .skipped, none, []⟩ :: a.slots }
      else if x.team then walkTeam x addr k w (ctl.bt k) a
      else walkStream x addr k w (ctl.bt k) a
    walkSlots x addr ctl bs t a'

/-! ### Meetings -/

/-- What two ways both know. -/
def bothKnow (a b : Tbl DWord) : Tbl DWord := a.filter fun e => find? b e.1 = some e.2

/-- The place at which a way arrives: at a meeting, with what the meeting knows. -/
def arriveAt (ms : List Meeting) (p : Spot) : Spot :=
  match ms.find? fun m => m.addr = p.addr && m.loops = p.loops with
  | some m => { p with mode := m.mode, known := m.known }
  | none => p

/-- A further arrival at a place that is a meeting. -/
def meetWith (p : Spot) (ms : List Meeting) : List Meeting :=
  ms.map fun m =>
    if m.addr = p.addr && m.loops = p.loops then
      { m with mode := (if m.mode = p.mode then m.mode else none), known := bothKnow m.known p.known }
    else m

/-- The meetings that new arrivals give. -/
def newMeetings (found : List (Nat × List StaticLoop)) (arrivals : List Spot) (ms : List Meeting) : List Meeting :=
  let grown := found.foldl (fun acc f =>
    if acc.any fun m => m.addr = f.1 && m.loops = f.2 then acc
    else match arrivals.find? fun p => p.addr = f.1 && p.loops = f.2 with
      | some p => acc ++ [⟨f.1, f.2, p.mode, p.known⟩]
      | none => acc) ms
  arrivals.foldl (fun acc p => meetWith p acc) grown

/-! ### Instances -/

/-- Whether a slot is one that the residual bundle holds. -/
def SlotPlan.isKept (p : SlotPlan) : Bool := p.fate = .kept

/-- Whether a place knows a register to hold a value. -/
def knows (r : Nat) (v : DWord) (p : Spot) : Bool := find? p.known r = some v

/-- Whether a folded slot between kept ones can be dropped: every way out of the bundle knows its value and no later kept
slot names its register (12 R372). With a trap handler it keeps its write, for the handler of a later slot sees the
register, and the owed list holds what stands at the start of the bundle alone (12 R373). -/
def hidden (x : SpecEnv) (next : Option Spot) (r : Nat) (v : DWord) (later : List SlotPlan) : Bool :=
  launchHandler x.l = 0 && (match next with
    | some n => knows r v n
    | none => false)
  && later.all fun q => !(namedS q.word).contains r && (q.target.toList ++ q.also).all (knows r v)

/-- Whether the folded slot k of a bundle keeps its write: a forced one; after the last kept slot, one that the next bundle
does not know; between kept slots, one that is not hidden. Before the first kept slot the bundle owes it. -/
def foldKept (x : SpecEnv) (addr : Nat) (next : Option Spot) (before : Bool) (k r : Nat) (v : DWord)
    (later : List SlotPlan) : Bool :=
  if x.force.contains (pcOf addr (k + 1)) then true
  else if later.isEmpty then !(match next with
    | some n => knows r v n
    | none => true)
  else before && !hidden x next r v later

/-- Settle the folded slots of a bundle (12 R371-R373), from the last one back. -/
def settleFolds (x : SpecEnv) (addr : Nat) (next : Option Spot) (ps : List SlotPlan) : List SlotPlan :=
  let firm := (ps.zipIdx.filter fun e => e.1.isKept || (match e.1.fate with
    | .folded _ _ => x.force.contains (pcOf addr (e.2 + 1))
    | _ => false)).map (·.2)
  ps.zipIdx.foldr (fun (e : SlotPlan × Nat) out => match e.1.fate with
    | .folded r v =>
      let keep := foldKept x addr next (firm.any fun j => decide (j < e.2)) e.2 r v (out.filter SlotPlan.isKept)
      (if keep then { e.1 with fate := .kept, bt := .t } else e.1) :: out
    | _ => e.1 :: out) []

/-- What the residual bundle owes: what was known at its start, with the folded slots that stand before its first
kept one. -/
def owedOf (start : Tbl DWord) : List SlotPlan → Tbl DWord
  | [] => start
  | p :: t => match p.fate with
    | .kept => start
    | .folded r v => owedOf (put start r v) t
    | _ => owedOf start t

/-- The evaluation of a bundle at a place: the instance, and what its walk gathered. -/
def evalBundle (x : SpecEnv) (p : Spot) (bs : List (BitVec 8)) : Inst × Walk :=
  let ctl : Control := ⟨numLE (bs.take 4)⟩
  let start : Walk := ⟨[], p.mode, p.known, p.loops, false, none, false, 0, [], [], [], [], false, false⟩
  let legal := decide (ctl.cls = if x.team then .team else .stream) && ctl.backmap = 0
  let a := if legal then walkSlots x p.addr ctl bs (List.range' 1 7) start
    else turnAway none (keepSlot 0xff000000 .t none [] start)
  let next := if a.past then a.next else some ⟨p.addr + 32, a.mode, a.known, a.loops⟩
  let slots := a.slots.reverse.map fun q => { q with target := q.target.map (arriveAt x.meets), also := q.also.map (arriveAt x.meets) }
  let next' := next.map (arriveAt x.meets)
  let settled := settleFolds x p.addr next' slots
  (⟨p, owedOf p.known settled, settled, next', a.must, a.evals⟩, { a with next := next })

/-- The places that slots reach. -/
def reached (ps : List SlotPlan) : List Spot := ps.flatMap fun p => p.target.toList ++ p.also

/-- The places to which an instance leads. -/
def Inst.leads (i : Inst) : List Spot := i.next.toList ++ reached i.slots

/-- How an attempt to evaluate a map's code ends. -/
inductive Tried where
  | need (addr evals : Nat)           -- a bundle must be read first
  | grown (evals : Nat) (unrolls : List (Nat × Nat)) -- more instances than the bound allows
  | again (x : SpecEnv)               -- once more, with what has been learnt
  | done (insts : List Inst) (reads : List (Nat × Nat)) (unrolls : List (Nat × Nat))
  | lost (evals : Nat)                -- a fault on the constant window

/-- The slots that instances have evaluated, each copy of a loop's body separately (12 R374). -/
def evaluated (is : List Inst) : Nat := (is.map (·.evals)).foldl (· + ·) 0

/-- Evaluate bundles until no place is left to visit. -/
def evalAll (x : SpecEnv) : Nat → List Spot → List Inst → List Walk → List Spot → Tried
  | 0, _, is, ws, _ => .grown (evaluated is) (ws.flatMap (·.unrolls))
  | n + 1, work, is, ws, arrivals =>
    match work with
    | [] =>
      let ms := newMeetings (ws.flatMap (·.meets)) arrivals x.meets
      let inner := (ws.flatMap (·.inner)).filter fun k => !x.keep.contains k
      let x := { x with seen := evaluated is }
      if ws.any (·.lost) then .lost x.seen
      else if !x.joins && ws.any (·.splits) then .again { x with joins := true, meets := [] }
      else if !inner.isEmpty then .again { x with keep := inner ++ x.keep, meets := [] }
      else if ms ≠ x.meets then .again { x with meets := ms }
      else .done is (ws.flatMap (·.reads)) (ws.flatMap (·.unrolls))
    | p :: rest =>
      if is.any fun i => i.place = p then evalAll x n rest is ws arrivals
      else
        match find? x.code p.addr with
        | none => .need p.addr (evaluated is)
        | some bs =>
          let (i, w) := evalBundle x p bs
          let raw := w.next.toList ++ reached w.slots
          evalAll x n (i.leads ++ rest) (is ++ [i]) (w :: ws) (raw ++ arrivals)

/-! ### Layout (12 R371) -/

/-- A residual bundle: an instance, or none, with the place of a branch that closes it. -/
structure Row where
  inst : Option Inst
  jump : Option Spot
deriving DecidableEq, Repr

/-- Residual bundles in order, and dropped places with the place that follows each. -/
structure Layout where
  rows : List Row
  gone : List (Spot × Spot)
deriving DecidableEq, Repr

def instAt (is : List Inst) (p : Spot) : Option Inst := is.find? fun i => i.place = p

/-- The kept slots of an instance, with their original numbers. -/
def Inst.kept (i : Inst) : List (Nat × SlotPlan) :=
  (i.slots.zipIdx.filter fun e => e.1.isKept).map fun e => (e.2 + 1, e.1)

/-- Close the rows with a branch to a place: in the last bundle when it has room, else in one of its own. -/
def closeRow (rows : List Row) (p : Spot) : List Row :=
  match rows.getLast? with
  | some ⟨some i, none⟩ =>
    if i.kept.length < 7 then rows.dropLast ++ [⟨some i, some p⟩] else rows ++ [⟨none, some p⟩]
  | _ => rows ++ [⟨none, some p⟩]

/-- Spot a chain of instances from a place on, each where the one before it goes on. -/
def layChain (is : List Inst) (targets : List Spot) : Nat → Bool → Spot → Layout → Layout
  | 0, _, _, o => o
  | n + 1, begun, p, o =>
    if o.rows.any fun r => match r.inst with
      | some i => i.place = p
      | none => false
    then if begun then { o with rows := closeRow o.rows p } else o
    else
      match instAt is p with
      | none => o
      | some i =>
        if i.kept.isEmpty && !targets.contains p then
          match i.next with
          | some q => layChain is targets n begun q { o with gone := (p, q) :: o.gone }
          | none => o
        else
          let o' := { o with rows := o.rows ++ [⟨some i, none⟩] }
          match i.next with
          | some q => layChain is targets n true q o'
          | none => o'

/-- Spot every instance: the chain of the entry, then of each branch target in the order met. -/
def layAll (is : List Inst) (targets : List Spot) : Nat → List Spot → Layout → Layout
  | 0, _, o => o
  | n + 1, work, o =>
    match work with
    | [] => o
    | p :: rest =>
      let o' := layChain is targets (is.length + 1) false p o
      let fresh := (o'.rows.drop o.rows.length).flatMap fun r => match r.inst with
        | some i => reached i.slots
        | none => []
      layAll is targets n (rest ++ fresh) o'

/-- The place where execution at a place really goes on, past dropped bundles. -/
def landing (o : Layout) : Nat → Spot → Spot
  | 0, p => p
  | n + 1, p => match o.gone.find? fun e => e.1 = p with
    | some e => landing o n e.2
    | none => p

/-- The index of the residual bundle at a place. -/
def rowOf (o : Layout) (p : Spot) : Option Nat :=
  let q := landing o (o.gone.length + 1) p
  o.rows.findIdx? fun r => match r.inst with
    | some i => i.place = q
    | none => false

/-- A kept loop's head stands right after its bundle (08 R231, 10 R297). -/
def headsOk (o : Layout) : Bool :=
  o.rows.zipIdx.all fun (r, k) => match r.inst with
    | some i => !i.must || (r.jump.isNone && (match i.next with
      | some q => rowOf o q = some (k + 1)
      | none => false))
    | none => true

/-! ### Lookaheads (07 R201, 12 R371) -/

/-- The next n instructions after a slot in the original code, within its window: the kept ones. -/
def windowKept (is : List Inst) : Nat → Nat → Option Inst → Nat → List (Spot × Nat)
  | 0, _, _, _ => []
  | _, 0, _, _ => []
  | f + 1, n + 1, some i, k =>
    match i.slots[k]? with
    | none => windowKept is f (n + 1) (i.next.bind (instAt is)) 0
    | some p =>
      let here := if p.isKept then [(i.place, k + 1)] else []
      if p.fate = .skipped then []
      else if closesWindow (p.word / 16777216) then here
      else here ++ windowKept is f n (some i) (k + 1)
  | _, _, none, _ => []

/-- The residual slots that follow slot j of row r, as long as nothing branches: the original slot of each, none
for a fill. -/
def residualAfter (o : Layout) : Nat → Nat → Nat → List (Option (Spot × Nat))
  | 0, _, _ => []
  | f + 1, r, j =>
    match o.rows[r]? with
    | some ⟨some i, jump⟩ =>
      let all := (List.range 7).map fun k => (i.kept[k]?).map fun e => (i.place, e.1)
      all.drop j ++ (if jump.isSome || i.next.isNone then [] else residualAfter o f (r + 1) 0)
    | _ => []

/-- The lookahead whose window holds the same kept instructions; none when the format cannot say it. -/
def newLookahead (is : List Inst) (o : Layout) (r j : Nat) (i : Inst) (k la : Nat) : Option Nat :=
  let want := windowKept is (2 * la + 2) la (some i) k
  match want.getLast? with
  | none => some 0
  | some e =>
    match (residualAfter o 3 r j).findIdx? fun x => x = some e with
    | some n => if n + 1 ≤ 15 then some (n + 1) else none
    | none => none

/-! ### Residual bundles and back-map entries (12 R371, R372) -/

/-- The field of n bits that holds a signed number, when it fits. -/
def fitSigned (n : Nat) (x : Int) : Option Nat :=
  if -(2 ^ (n - 1) : Int) ≤ x && x < 2 ^ (n - 1) then some (wrapTo n x) else none

/-- A kept branch, JOINSET, CALL or LOOP with a new distance in bundles. -/
def retarget (team : Bool) (w : Nat) (delta : Int) : Option Nat :=
  let op := w / 16777216
  if !team then if 0 < delta && delta < 256 then some (w / 16777216 * 16777216 + delta.toNat * 65536 + w % 65536) else none
  else if op = 0x04 || op = 0x08 then (fitSigned 24 delta).map fun f => op * 16777216 + f
  else if op = 0x14 then if 0 < delta && delta < 65536 then some (w / 65536 * 65536 + delta.toNat) else none
  else (fitSigned 20 delta).map fun f => w / 1048576 * 1048576 + f

/-- The word of a kept slot in its residual bundle. -/
def residualWord (is : List Inst) (o : Layout) (team : Bool) (r j : Nat) (i : Inst) (k : Nat) (p : SlotPlan) :
    Option Nat :=
  match p.target with
  | some q => (rowOf o q).bind fun n => retarget team p.word ((n : Int) - r)
  | none =>
    let la := p.word / 16 % 16
    let op := p.word / 16777216
    if team && p.bt = .d && la != 0 && (op = 0x5f || op = 0x60 || op = 0x61 || (0x63 ≤ op && op ≤ 0x67)
        || [0x90, 0x92, 0x94, 0x96].contains op) then
      (newLookahead is o r j i k la).map fun n => p.word - 16 * la + 16 * n
    else some p.word

/-- The code of a binding time. -/
def btCode : Bt → Nat
  | .d => 0
  | .t => 1
  | .s => 2
  | .illegal => 3

/-- The words and binding times of a row's slots. -/
def rowSlots (is : List Inst) (o : Layout) (team : Bool) (r : Nat) (row : Row) : Option (List (Nat × Nat)) := do
  let kept ← match row.inst with
    | some i => (i.kept.zipIdx.mapM fun e => (residualWord is o team r (e.2 + 1) i e.1.1 e.1.2).map fun w =>
        (w, btCode e.1.2.bt))
    | none => some []
  let jump ← match row.jump with
    | none => some []
    | some p =>
      if !team then none
      else (rowOf o p).bind fun n => (fitSigned 24 ((n : Int) - r)).map fun f => [(0x04000000 + f, 1)]
  some (kept ++ jump)

/-- The 32 bytes of a row. -/
def rowBytes (is : List Inst) (o : Layout) (team : Bool) (base r : Nat) (row : Row) : Option (List (BitVec 8)) := do
  let ss ← rowSlots is o team r row
  let full := ss ++ List.replicate (7 - ss.length) (0, if team then 0 else 1)
  let bts := (full.zipIdx.map fun e => e.1.2 * 4 ^ e.2).foldl (· + ·) 0
  some (bytesLE 4 (bts + 2 * 16384 + (base + r) * 65536) ++ full.flatMap fun e => bytesLE 4 e.1)

/-- The place whose original bundle a row reports. -/
def Row.origin (row : Row) : Option Spot :=
  match row.inst with
  | some i => some i.place
  | none => row.jump

/-- The 32-byte back-map entry of a row; its owed list starts at an offset of the region. -/
def rowMap (team : Bool) (owedAt : Nat) (row : Row) : List (BitVec 8) :=
  let p := row.origin
  let slots := match row.inst with
    | some i => (i.kept.zipIdx.map fun e => e.1.1 * 8 ^ e.2).foldl (· + ·) 0
    | none => 0
  let around : List StaticLoop := match p with
    | some q => q.loops
    | none => []
  let loops := (around.filter (·.unrolled)).reverse.take 3
  let iters := (loops.zipIdx.map fun (e : StaticLoop × Nat) => e.1.iter * 2 ^ (24 + 8 * e.2)).foldl (· + ·) 0
  let owed := match row.inst with
    | some i => i.owed.length
    | none => 0
  bytesLE 8 ((match p with
    | some q => q.addr
    | none => 0) + (if team then 0 else 2 ^ 56))
    ++ bytesLE 8 (slots + iters + loops.length * 2 ^ 48)
    ++ bytesLE 8 ((if owed = 0 then 0 else owedAt) + owed * 2 ^ 32) ++ bytesLE 8 0

/-- The owed list of a row, 16 bytes an entry. -/
def rowOwed (row : Row) : List (BitVec 8) :=
  match row.inst with
  | some i => i.owed.flatMap fun e => bytesLE 8 (192 + e.1) ++ bytesLE 8 e.2.toNat
  | none => []

/-- The evaluated code of one map. -/
structure Plan where
  insts : List Inst
  layout : Layout
  reads : List (Nat × Nat)
  evals : Nat
  originals : Nat            -- original bundles
deriving DecidableEq, Repr

/-- Lay out what has been evaluated. -/
def planOf (root : Spot) (is : List Inst) (reads : List (Nat × Nat)) : Plan :=
  let targets := is.flatMap fun i => reached i.slots
  ⟨is, layAll is targets (is.length * 8 + 2) [root] ⟨[], []⟩, reads, evaluated is,
    (is.map (·.place.addr)).eraseDups.length⟩

/-- What an evaluation comes to. -/
inductive Evaluated where
  | need (addr evals : Nat)
  | decline (evals : Nat)      -- the growth bound is broken (12 R370)
  | free (evals : Nat)         -- a fault, or nothing that the formats can hold (19 R462)
  | ready (p : Plan)

/-- The growth bound (12 R371). -/
def withinBound (p : Plan) : Bool :=
  decide (p.layout.rows.length ≤ 4 * p.originals) && decide (p.layout.rows.length ≤ 16384)

/-- The outermost loop that is still unrolled. -/
def outermost (keep : List Nat) (us : List (Nat × Nat)) : Option Nat :=
  ((us.filter fun u => !keep.contains u.1).foldl (fun (best : Option (Nat × Nat)) u => match best with
    | none => some u
    | some b => if u.2 < b.2 || (u.2 = b.2 && u.1 < b.1) then some u else some b) none).map (·.1)

/-- The last folded slot of an instance that writes a register, and whether a kept slot stands before it. -/
def lastFold (i : Inst) (r : Nat) : Option (Nat × Bool) :=
  (i.slots.zipIdx.foldl (fun (acc : Option (Nat × Bool) × Bool) e => match e.1.fate with
    | .kept => (acc.1, true)
    | .folded q _ => if q = r then (some (e.2, acc.2), acc.2) else acc
    | _ => acc) (none, false)).1

/-- Whether an instance gets a residual bundle. -/
def placed (targets : List Spot) (i : Inst) : Bool := !i.kept.isEmpty || targets.contains i.place

/-- The folded slots on the ways into a dropped instance whose write of a register no residual bundle would owe. -/
def foldSources (is : List Inst) (targets : List Spot) (r : Nat) : Nat → Inst → List Nat
  | 0, _ => []
  | n + 1, i =>
    match lastFold i r with
    | some (k, after) => if placed targets i && !after then [] else [pcOf i.place.addr (k + 1)]
    | none =>
      if placed targets i then []
      else (is.filter fun j => j.next = some i.place).flatMap (foldSources is targets r n)

/-- Folded slots that must keep their write, because a dropped bundle stands between them and a place that does not know the
value: R372's writes for kept slots that read the register there. -/
def unowedFolds (is : List Inst) : List Nat :=
  let targets := is.flatMap fun i => reached i.slots
  (is.flatMap fun i =>
    match i.next with
    | none => []
    | some n =>
      if placed targets i then []
      else (i.owed.filter fun e => !knows e.1 e.2 n).flatMap fun e => foldSources is targets e.1 (is.length + 1) i).eraseDups

/-- Evaluate a map's code from its entry; loops are kept from the outermost inwards until the bound holds. -/
def specialiseFrom (entry : Nat) : Nat → SpecEnv → Evaluated
  | 0, x => .free x.seen
  | n + 1, x =>
    let root : Spot := ⟨entry, if x.team then some 0x50 else none, [], []⟩
    let shrink := fun (evals : Nat) (us : List (Nat × Nat)) => match outermost x.keep us with
      | some pc => specialiseFrom entry n { x with keep := pc :: x.keep, meets := [], seen := evals }
      | none => .decline evals
    match evalAll x 200000 [root] [] [] [root] with
    | .need a e => .need a e
    | .lost e => .free e
    | .grown e us => shrink e us
    | .again x' => specialiseFrom entry n x'
    | .done is reads us =>
      let forced := (unowedFolds is).filter fun k => !x.force.contains k
      if !forced.isEmpty then specialiseFrom entry n { x with force := forced ++ x.force }
      else
        let p := planOf root is reads
        if !withinBound p then shrink p.evals us
        else if !headsOk p.layout then .free p.evals
        else .ready p

/-! ### The image in the region (12 R369, R372) -/

/-- The region's part for an entry: back-map, owed lists, residual code, from an offset that is a multiple of 32.
The answer gives the bytes and where code begins in them. -/
def imageOf (at_ : Nat) (parts : List (Bool × Plan)) : Option (List (BitVec 8) × Nat) := do
  let n := (parts.map fun p => p.2.layout.rows.length).foldl (· + ·) 0
  let rows := parts.flatMap fun p => p.2.layout.rows.map fun r => (p.1, r)
  let maps := (rows.foldl (fun (acc : List (BitVec 8) × List (BitVec 8)) e =>
    (acc.1 ++ rowMap e.1 (at_ + 32 * n + acc.2.length) e.2, acc.2 ++ rowOwed e.2)) ([], []))
  let head := maps.1 ++ maps.2
  let pad := List.replicate (roundUp head.length 32 - head.length) 0#8
  let (code, _) ← parts.foldlM (fun (acc : List (BitVec 8) × Nat) p => do
    let bs ← p.2.layout.rows.zipIdx.mapM fun e => rowBytes p.2.insts p.2.layout p.1 acc.2 e.2 e.1
    some (acc.1 ++ bs.flatten, acc.2 + p.2.layout.rows.length)) ([], 0)
  some (head ++ pad ++ code, at_ + head.length + pad.length)

/-- The region's bytes that an entry takes. -/
def SpecEntry.span (e : SpecEntry) : Nat × Nat := (8 * e.map, e.code + 32 * e.bundles)

/-- The lowest place of n bytes in the residual region, past the directory. -/
def regionPlace (taken : List (Nat × Nat)) (n : Nat) : Option Nat :=
  ((262144 :: taken.map fun t => roundUp t.2 32).mergeSort fun a b => decide (a ≤ b)).find? fun x =>
    decide (x + n ≤ 33554432) && !(taken.any fun t => rangesMeet x n t.1 (t.2 - t.1))

/-! ### Index and directory (12 R369) -/

/-- The 64 bytes of a directory entry. -/
def dirBytes (s : State) (e : SpecEntry) : List (BitVec 8) :=
  bytesLE 16 e.key.toNat ++ bytesLE 8 (e.code % 2 ^ 25 + e.bundles % 2 ^ 15 * 2 ^ 25 + e.map % 2 ^ 24 * 2 ^ 40)
    ++ bytesLE 8 (refsWord s e) ++ bytesLE 8 e.until_ ++ List.replicate 24 0#8

/-- Free entries that were to be freed once no block uses them (19 R465). -/
def sweepEntries (part ctx base world : Nat) : Act Unit := do
  let s ← get
  each ((specEntries s world).filter fun e => e.st = 4 && refsOf s e = 0) (freeEntryOf part ctx base)

/-- Room in the region for n bytes: least recently used ready entries that no block uses are freed until there is
room (12 R370). -/
def makeRoom (part ctx base world n : Nat) : Nat → Act (Option Nat)
  | 0 => pure none
  | f + 1 => do
    let s ← get
    let taken := ((specEntries s world).filter fun e => e.st = 1 || e.st = 4).map SpecEntry.span
    match regionPlace taken n with
    | some x => pure (some x)
    | none =>
      match (((specEntries s world).filter fun e => e.st = 1 && refsOf s e = 0).mergeSort fun a b =>
          decide (a.used ≤ b.used)).head? with
      | none => pure none
      | some e => do
        freeEntryOf part ctx base e
        makeRoom part ctx base world n f

/-- Put an entry into a partition's index of 256: a full index gives up its least recently used entry that is not being
evaluated. An entry that is not on die stays in the directory, in the region's room and in use (12 R369, R370). -/
def indexEntry (part : Nat) (e : SpecEntry) : Act Unit :=
  modPartition part fun p =>
    let others := p.spec.filter fun x => !(x.key = e.key && x.world = e.world)
    let die := others.filter (·.indexed)
    if die.length < 256 then { p with spec := others ++ [{ e with indexed := true }] }
    else
      match ((die.filter fun x => x.st ≠ 2).mergeSort fun a b => decide (a.used ≤ b.used)).head? with
      | none => { p with spec := others ++ [{ e with indexed := false }] }
      | some v =>
        let less := others.map fun x => if x.key = v.key && x.world = v.world then { x with indexed := false } else x
        { p with spec := less ++ [{ e with indexed := true }] }

/-- The entry that 64 bytes of the directory give for a key. The first back-map entry of the stream map gives
where the stream begins. -/
def entryFrom (r : Req) (base : Nat) (key : BitVec 128) (world : Nat) : Act (Option SpecEntry) := do
  let bs ← readRange r (dirAt base key) 64 .read
  let w := fun k => numLE ((bs.drop k).take 8)
  let st := w 0x18 % 4
  if numLE (bs.take 16) ≠ key.toNat || st = 0 then pure none
  else
    let code := bitsOf (w 0x10) 0 25
    let n := bitsOf (w 0x10) 25 15
    let map := bitsOf (w 0x10) 40 24
    let maps ← if st = 1 then readRange r (base + 8 * map) (32 * n) .read else pure []
    let first := (List.range n).find? fun i => bitSet (numLE ((maps.drop (32 * i)).take 8)) 56
    pure (some ⟨key, world, code, n, map, first.map fun i => code + 32 * i, st, w 0x20, 0, false, none⟩)

/-! ### The key (12 R368) -/

/-- The bytes that the key of a launch is taken over. -/
def keyBytes (l : Launch) : List (BitVec 8) :=
  ([86, 83, 57, 55, 52, 48, 32, 83, 80, 69, 67].map fun c => BitVec.ofNat 8 c)
    ++ bytesLE 1 l.world ++ bytesLE 8 (launchWord l 3) ++ bytesLE 8 (launchEntry l) ++ bytesLE 8 (launchStream l)
    ++ bytesLE 2 (launchStatic l)
    ++ ((List.range 16).flatMap fun i => if bitSet (launchStatic l) i then bytesLE 8 (launchConst l i).toNat else [])
    ++ bytesLE 8 (launchWord l 21)
    ++ ((List.range 16).flatMap fun i => bytesLE 8 (launchWord l (40 + i)))
    ++ bytesLE 8 (bitsOf (launchWord l 11) 0 40 + (if bitSet (launchWord l 11) 46 then 2 ^ 46 else 0)
        + bitsOf (launchWord l 11) 57 7 * 2 ^ 57)

/-- The key of a launch, its first byte lowest, as the entry holds it. -/
def launchKey (l : Launch) : BitVec 128 := shake128 (keyBytes l)

/-! ### The two events (12 R370, R374) -/

/-- Charge evaluated slots to the launching context, in the compute domain of the partition's lowest quadrant. -/
def chargeSlots (part ctx n : Nat) : Act Unit := do
  let s ← get
  match find? s.partitions part with
  | none => pure ()
  | some p =>
    match (coresOf p).head? with
    | none => pure ()
    | some core =>
      if n = 0 then pure ()
      else addCharge core ctx (n * weightAt clsSpecialiser (chargePoint s (quadOfCore core)))

/-- The launch no longer waits; it runs residual code or not. -/
def letRun (id : Nat) (key : Option (BitVec 128)) : Act Unit :=
  modLaunch id fun l => { l with waiting := false, spec := key }

/-- Every launch that waits for an entry goes on. -/
def letAllRun (world : Nat) (key : BitVec 128) (ready : Bool) : Act Unit := do
  each ((← get).launches.filter fun e => e.2.waiting && e.2.world = world && e.2.spec = some key) fun e =>
    letRun e.1 (if ready then some key else none)

/-- Perform an access and answer how it ended; one that a slice refuses for now is made again (01 R22). -/
def orWait {α : Type} (m : Act α) : Act (Except Stop α) := do
  match ← attempt m with
  | .error (.wait w) => throw (.wait w)
  | r => pure r

/-- Whether an access stopped at a data error. -/
def lostData {α : Type} : Except Stop α → Bool
  | .error (.trap t) => t.cause = .dataError
  | .error (.fault c _) => c = .dataError
  | _ => false

/-- What the specialiser reads or writes of a world's backing region. A data error there is also a record of type 6; an
integrity error has its own of type 13 from the check (19 R462, 20 R472). -/
def onRegion {α : Type} (part ctx world : Nat) (m : Act α) : Act (Except Stop α) := do
  let r ← orWait m
  if lostData r then frontRecord part { ErrRec.blank with type := 6, cls := 6, world := world, ctx := ctx } else pure ()
  pure r

/-- Read the bundles that an evaluation asks for, until it comes to an end. -/
def evaluateCode (x : SpecEnv) (entry : Nat) : Nat → Tbl (List (BitVec 8)) → Act Evaluated
  | 0, _ => pure (.free 0)
  | n + 1, code => do
    match specialiseFrom entry 4096 { x with code := code } with
    | .need a evals =>
      match ← orWait (fetchBundle (frontReq x.l.part (some x.l.ctx) x.l.world) x.l.ctx false a) with
      | .ok bs => evaluateCode x entry n (put code a bs)
      | .error _ => pure (.free evals)
    | e => pure e

/-- Read again, as memory events of the launching context, what folded slots read of the constant window. -/
def readWindow (l : Launch) (p : Plan) : Act Bool := do
  match ← orWait (each p.reads (windowAccess l)) with
  | .ok _ => pure true
  | .error _ => pure false

/-- The plan of a launch's code: its team code, and its stream where something there is resolved (15 R395); with
the number of slots evaluated. -/
def planLaunch (id : Nat) (l : Launch) : Act (Evaluated × Option Plan) := do
  let env := fun (s : State) (team : Bool) => (⟨s, id, l, team, [], [], launchHandler l != 0, [], [], 0⟩ : SpecEnv)
  match ← evaluateCode (env (← get) true) (launchEntry l) 65537 [] with
  | .ready t =>
    if launchStream l = 0 then pure (.ready t, none)
    else
      match ← evaluateCode (env (← get) false) (launchStream l) 65537 [] with
      | .ready st =>
        let both := t.layout.rows.length + st.layout.rows.length
        if st.evals = 0 then pure (.ready t, none)
        else if both ≤ 16384 then pure (.ready t, some st)
        else pure (.decline (t.evals + st.evals), none)
      | .decline n => pure (.decline (t.evals + n), none)
      | .free n => pure (.free (t.evals + n), none)
      | .need _ n => pure (.free (t.evals + n), none)
  | e => pure (e, none)

/-- The evaluation is abandoned: the entry is declined for one second, or freed. -/
def abandon (part ctx base : Nat) (e : SpecEntry) (decline : Bool) : Act Unit := do
  if decline then do
    let d : SpecEntry := { e with st := 3, until_ := (← get).time + 1000000000, code := 0, bundles := 0, map := 0, stream := none, evaluator := none }
    modEntries e.world fun x => if x.key = e.key then some { d with indexed := x.indexed } else some x
    let _ ← onRegion part ctx e.world (do
      writeRange (frontReq part (some ctx) e.world) (dirAt base e.key) (dirBytes (← get) d))
    pure ()
  else freeEntryOf part ctx base e
  letAllRun e.world e.key false

/-- Write the residual code of an evaluated launch, and make its entry ready. -/
def writeResidual (part base : Nat) (l : Launch) (e : SpecEntry) (t : Plan) (st : Option Plan) : Act Unit := do
  let parts := (true, t) :: (st.toList.map fun p => (false, p))
  let r := frontReq part (some l.ctx) l.world
  match imageOf 0 parts with
  | none => abandon part l.ctx base e false
  | some (img, _) =>
    match ← makeRoom part l.ctx base e.world img.length 4097 with
    | none => abandon part l.ctx base e false
    | some x =>
      match imageOf x parts with
      | none => abandon part l.ctx base e false
      | some (img, code) => do
        let n := (parts.map fun p => p.2.layout.rows.length).foldl (· + ·) 0
        let done : SpecEntry := { e with
          st := 1, code := code, bundles := n, map := x / 8, used := (← get).nextId, evaluator := none
          stream := st.map fun _ => code + 32 * t.layout.rows.length }
        match ← onRegion part l.ctx e.world (do
          writeRange r (base + x) img
          writeRange r (dirAt base e.key) (dirBytes (← get) done)) with
        | .ok _ => do
          let _ ← freshId
          modEntries e.world fun y => if y.key = e.key then some { done with indexed := y.indexed } else some y
          letAllRun e.world e.key true
        | .error _ => abandon part l.ctx base e false

/-- The evaluation of a launch comes to its end. -/
def finishEvaluation (id part base : Nat) (l : Launch) (e : SpecEntry) : Act Unit := do
  match ← planLaunch id l with
  | (.ready t, st) => do
    chargeSlots part l.ctx (t.evals + (match st with
      | some p => p.evals
      | none => 0))
    if ← readWindow l t then writeResidual part base l e t st else abandon part l.ctx base e false
  | (.decline n, _) => do
    chargeSlots part l.ctx n
    abandon part l.ctx base e true
  | (.free n, _) => do
    chargeSlots part l.ctx n
    abandon part l.ctx base e false
  | (.need _ n, _) => do
    chargeSlots part l.ctx n
    abandon part l.ctx base e false

/-- The directory's place for a key can be taken: it is free, declined past its time, or ready and unused. -/
def placeFree (s : State) (world : Nat) (key : BitVec 128) : Bool :=
  !((specEntries s world).any fun e => e.key ≠ key && e.key.toNat % 4096 = key.toNat % 4096
    && (e.st = 2 || e.st = 4 || refsOf s e ≠ 0))

/-- An evaluation begins: the entry becomes evaluating, and the launch waits. -/
def beginEvaluation (id part ctx base world : Nat) (key : BitVec 128) : Act Unit := do
  let s ← get
  if !placeFree s world key then letRun id none
  else do
    modEntries world fun x => if x.key.toNat % 4096 = key.toNat % 4096 then none else some x
    let e : SpecEntry := ⟨key, world, 0, 0, 0, none, 2, 0, s.nextId, true, some id⟩
    let _ ← freshId
    indexEntry part e
    modLaunch id fun l => { l with spec := some key }
    match ← onRegion part ctx world (do
      writeRange (frontReq part (some ctx) world) (dirAt base key) (dirBytes (← get) e)) with
    | .ok _ => pure ()
    | .error _ => abandon part ctx base e false

/-- What a look into the index, then the directory, finds; an access of the launching context (12 R374). -/
def lookup (part ctx base world : Nat) (key : BitVec 128) : Act (Option (Option SpecEntry)) := do
  match find? (← get).partitions part with
  | none => pure none
  | some p =>
    match p.spec.find? fun e => e.key = key && e.world = world && e.indexed with
    | some e => pure (some (some e))
    | none =>
      match ← onRegion part ctx world (entryFrom (frontReq part (some ctx) world) base key world) with
      | .error _ => pure none
      | .ok none => pure (some none)
      | .ok (some e) => do
        let e := ((specEntries (← get) world).find? fun x => x.key = key).getD e
        if e.st = 1 then indexEntry part e else pure ()
        pure (some (some e))

/-- Whether a launch is still there to evaluate an entry. -/
def evaluating (s : State) (e : SpecEntry) : Bool :=
  match e.evaluator.bind (find? s.launches) with
  | some l => l.waiting && !l.ended && l.spec = some e.key
  | none => false

/-- One step of the specialiser for a launch: the lookup of 12 R370, or the end of its own evaluation. -/
def specialiseLaunch (id : Nat) : Act Unit := do
  let s ← get
  match find? s.launches id with
  | none => pure ()
  | some l =>
    if !l.waiting then pure ()
    else
      match (worldOf s l.world).backing with
      | none => letRun id none
      | some base => do
        let key := launchKey l
        sweepEntries l.part l.ctx base l.world
        match ← lookup l.part l.ctx base l.world key with
        | none => letRun id none
        | some none => beginEvaluation id l.part l.ctx base l.world key
        | some (some e) =>
          if e.st = 1 then do
            modEntries l.world fun x => if x.key = key then some { x with used := s.nextId } else some x
            let _ ← freshId
            letRun id (some key)
          else if e.st = 2 then
            if e.evaluator = some id then finishEvaluation id l.part base l e
            else if evaluating s e then modLaunch id fun x => { x with spec := some key }
            else beginEvaluation id l.part l.ctx base l.world key
          else if e.st = 3 && decide (s.time < e.until_) then letRun id none
          else if e.st = 4 then letRun id none
          else beginEvaluation id l.part l.ctx base l.world key

/-- SPECIALISE_EVALUATE (12 R371): the specialiser's next step for a launch that waits for it. -/
def execSpecialiseEvaluate (launch : Nat) (s : State) : Host.Outcome State Fault Refusal :=
  eventStep (tried (specialiseLaunch launch)) s

/-- SPECIALISE_TIMEOUT (12 R370): an evaluation under way has taken 100 µs. It is charged for the slots that it has
evaluated, whose number is free, and its entry is declined. -/
def execSpecialiseTimeout (launch : Nat) (s : State) : Host.Outcome State Fault Refusal :=
  eventStep (tried do
    match find? s.launches launch with
    | none => pure ()
    | some l =>
      match (worldOf s l.world).backing, (specEntries s l.world).find? fun e => e.st = 2 && e.evaluator = some launch with
      | some base, some e =>
        if l.waiting then do
          chargeSlots l.part l.ctx (← drawChoice (4 * 16384 * 7))
          abandon l.part l.ctx base e true
        else pure ()
      | _, _ => pure ()) s

end Sys2Proof.Machine
end

