-- ==== Sys2Proof/Machine/Stream.lean ====
section
/-! DEFINITION. The matrix stream: MSTR, the sequencer's fetch and its instructions, the engine's grants and
tile operations (06 R174-R183; 10 R283-R308; 18 R433). -/
namespace Sys2Proof.Machine
open Sys2Proof

/-! ### What a stream instruction works on -/

/-- The stream in focus: its block as it stands, its launch, and the engine's cluster. -/
structure Sx where
  bid : Nat
  b : Block
  l : Launch

def Sx.st (x : Sx) : Stream := x.b.stream
def Sx.cluster (x : Sx) : Nat := clusterOfCore x.b.core
def Sx.req (x : Sx) : Req := reqOf x.b x.bid false

/-- The bound stream of a block. -/
def sxOf (s : State) (bid : Nat) : Option Sx :=
  match find? s.blocks bid with
  | some b => if b.stream.bound then some ⟨bid, b, launchOf s b.launch⟩ else none
  | none => none

/-- Raise a stream trap with its cause (10 R307, 17 R405). -/
def streamTrapped {α : Type} (cause : Nat) : Act α := throw (.trap { wholeTrap .streamFault with imm := cause })
def streamNeeds (ok : Bool) (cause : Nat) : Act Unit := if ok then pure () else streamTrapped cause

/-- Change the stream of a block. -/
def modStream (bid : Nat) (f : Stream → Stream) : Act Unit := modBlock bid fun b => { b with stream := f b.stream }

/-- Charge a block's stream: the core's charge set, the spent charge and, for a tile operation, the mark
counter of the team that issued MSTR (10 R290, 11 R341). -/
def chargeStream (x : Sx) (mq : Nat) (tile : Bool) : Act Unit := do
  addCharge x.b.core x.b.ctx mq
  modBlock x.bid fun b => { b with spent := b.spent + mq }
  if tile then modTeam x.st.binder fun t => { t with mark := t.mark + BitVec.ofNat 48 mq } else pure ()

/-- The weight of n events of a class in the quadrant of the block's core. -/
def streamWeight (s : State) (x : Sx) (cls n : Nat) : Nat := n * weightAt cls (chargePoint s (quadOfCore x.b.core))

/-! ### Performing a stream instruction -/

/-- Where the stream goes after an instruction. -/
inductive SNext where
  | on
  | to (bundle : Nat)
  | stay                        -- it waits where it is, or has ended
deriving DecidableEq, Repr

def placeStream (x : Sx) : SNext → Act Unit
  | .on =>
    let p := nextPlace x.st.pc x.st.slot
    modStream x.bid fun st => { st with pc := p.1, slot := p.2 }
  | .to b => modStream x.bid fun st => { st with pc := b, slot := 1 }
  | .stay => pure ()

/-- The grant of a block's tile operation is withdrawn. -/
def dropGrant (bid : Nat) : Act Unit :=
  modify fun s => { s with engines := s.engines.map fun e =>
    (e.1, if e.2.granted = some bid then { e.2 with granted := none } else e.2) }

/-- What comes of an attempt: a stream trap under R308; a poisoned word ends the context (20 R473); a slot
that cannot be read is a ring-slot trap; a refused access is made again. -/
def settleStream (x : Sx) : Except Stop SNext → Act Unit
  | .ok n => placeStream x n
  | .error (.trap t) => do
    streamFault x.bid t.imm
    settleBlock x.bid
  | .error (.fault .dataError _) => endContext x.b.ctx ⟨6, 6, 0, x.b.core, 0, DumpInfo.none, ⟨2, clusterOfCore x.b.core, x.st.ops⟩⟩
  | .error (.wait .fault) => dropGrant x.bid
  | .error (.wait _) => pure ()
  | .error _ => do
    streamFault x.bid 7
    settleBlock x.bid

/-- The meaning of a stream instruction: it needs a bound stream in focus. -/
def streamStep (body : Sx → Act SNext) (s : State) : Host.Outcome State Fault Refusal :=
  match s.focus with
  | .stream bid _ =>
    match sxOf s bid with
    | some x => .next (runAct (do settleStream x (← attempt (body x))) s)
    | none => .fault .noStream
  | _ => .fault .noStream

/-- An instruction of the sequencer itself: 160 mq once it performs (10 R290). -/
def sequencer (body : Sx → Act SNext) (x : Sx) : Act SNext := do
  let r ← body x
  chargeStream x (streamWeight (← get) x clsFront 1) false
  pure r

/-- The k register that an operand field names; any other field is a stream illegal operand (10 R285). -/
def streamK (x : Sx) : Opnd → Act Nat
  | .k i => pure (launchConst x.l i).toNat
  | _ => streamTrapped 2

/-! ### The block's stash as the stream uses it (05 R148) -/

def streamRead (x : Sx) (off n : Nat) : Act (List (BitVec 8)) := do
  let parts ← collect (chunkPieces (n / 256 + 2) off n) fun p => stashRead x.req x.bid p.1 p.2
  pure parts.flatten

def streamWritePieces (x : Sx) : List (Nat × Nat) → List (BitVec 8) → Act Unit
  | [], _ => pure ()
  | p :: t, bs => do
    stashWrite x.req x.bid p.1 x.b.ctx (bs.take p.2)
    streamWritePieces x t (bs.drop p.2)

def streamWrite (x : Sx) (off : Nat) (bs : List (BitVec 8)) : Act Unit :=
  streamWritePieces x (chunkPieces (bs.length / 256 + 2) off bs.length) bs

/-! ### Rings (10 R291-R295) -/

/-- The header of a ring: filled and freed. -/
def ringHeader (x : Sx) (hdr : Nat) : Act (BitVec 32 × BitVec 32) := do
  pure (headerWords (← streamRead x hdr 8))

/-- A ring that a tile operation uses: held, and of its direction (10 R293). -/
def heldRing (x : Sx) (n : Nat) (out : Bool) : Act Ring := do
  match find? x.st.rings n with
  | some r => if r.held && r.dir = out then pure r else streamTrapped 6
  | none => streamTrapped 6

/-- The stash offset of the held slot. -/
def slotOffset (r : Ring) : Nat := r.base + r.cursor.toNat % r.slots * r.size

/-- The held slot has room for n bytes (10 R295). -/
def slotHolds (r : Ring) (n : Nat) : Act Unit := streamNeeds (decide (n ≤ r.size)) 7

/-- The ring of a geometry word, with its cursor still to be set (10 R292). -/
def ringOfWord (w sp : Nat) (dir : Bool) : Ring :=
  ⟨dir, sp, bitsOf w 0 20, 256 * bitsOf w 20 16, bitsOf w 36 8, 16 * bitsOf w 44 20, 0, false⟩

/-- Whether a descriptor is one that R292 allows in an allocation of `size` bytes. -/
def ringOk (size : Nat) (r : Ring) : Bool :=
  let last := r.base + r.size * r.slots
  r.base % 256 = 0 && r.size != 0 && r.slots != 0 && decide (last ≤ size) && decide (r.hdr + 16 ≤ size)
    && (decide (last ≤ r.hdr) || decide (r.hdr + 16 ≤ r.base))

def ringdBody (d : Opnd) (sp : Nat) (dir : Bool) (n : Nat) (x : Sx) : Act SNext := do
  let r := ringOfWord (← streamK x d) sp dir
  streamNeeds (ringOk x.b.stashSize r) 5
  streamNeeds (!((find? x.st.rings n).any fun o => o.held)) 6
  let h ← ringHeader x r.hdr
  modStream x.bid fun st => { st with rings := put st.rings n { r with cursor := if dir then h.1 else h.2 } }
  pure .on

/-- RINGD (10 R292). -/
def execRingd (d : Opnd) (sp : Nat) (dir : Bool) (n : Nat) (s : State) : Host.Outcome State Fault Refusal :=
  streamStep (sequencer (ringdBody d sp dir n)) s

/-- The stream waits where it is; when the block's teams have all retired it ends there (10 R287). -/
def streamWait (x : Sx) (w : SWait) : Act SNext := do
  modStream x.bid fun st => { st with wait := w }
  settleBlock x.bid
  pure .stay

def rwaitBody (n : Nat) (x : Sx) : Act SNext := do
  match find? x.st.rings n with
  | none => streamTrapped 6
  | some r =>
    streamNeeds (!r.held) 6
    if ringReady r (← ringHeader x r.hdr) then do
      modStream x.bid fun st => { st with rings := put st.rings n { r with held := true } }
      chargeStream x (streamWeight (← get) x clsFront 1) false
      pure .on
    else streamWait x (.ring n)

/-- RWAIT (10 R293): it is charged when its wait is over. -/
def execRwait (n : Nat) (s : State) : Host.Outcome State Fault Refusal := streamStep (rwaitBody n) s

def rfreeBody (n : Nat) (x : Sx) : Act SNext := do
  match find? x.st.rings n with
  | none => streamTrapped 6
  | some r =>
    streamNeeds r.held 6
    streamWrite x (if r.dir then r.hdr else r.hdr + 4) (bytesLE 4 (r.cursor + 1).toNat)
    modStream x.bid fun st => { st with rings := put st.rings n { r with cursor := r.cursor + 1, held := false } }
    pure .on

/-- RFREE (10 R293). -/
def execRfree (n : Nat) (s : State) : Host.Outcome State Fault Refusal := streamStep (sequencer (rfreeBody n)) s

/-- RING_WAIT_WAKE (10 R293): the header now satisfies the RWAIT that the stream waits at. -/
def ringWake (bid : Nat) : Act Unit :=
  modStream bid fun st => match st.wait with
    | .ring _ => { st with wait := .none }
    | _ => st

/-- RING_WAIT_WAKE (10 R293). The sequencer looks at the header again. -/
def execRingWaitWake (bid : Nat) (s : State) : Host.Outcome State Fault Refusal := eventStep (ringWake bid) s

/-! ### Barriers (10 R299) -/

def mbaraBody (c n : Nat) (x : Sx) : Act SNext := do
  streamNeeds (decide (1 ≤ c) && decide (c ≤ 9)) 2
  if (nbarOf x.b n).stream then do
    modStream x.bid fun st => { st with wait := .arrive }
    pure .stay
  else do
    let ok ← arriveNumbered x.bid n c none
    streamNeeds ok 9
    chargeStream x (streamWeight (← get) x clsFront 1) false
    pure .on

/-- MBARA (10 R299). -/
def execMbara (c n : Nat) (s : State) : Host.Outcome State Fault Refusal := streamStep (mbaraBody c n) s

def mbarwBody (n : Nat) (x : Sx) : Act SNext := do
  let k := rd x.st.waits n
  if countPassed (nbarOf x.b n).completed k then do
    modStream x.bid fun st => { st with waits := wr st.waits n (k + 1) }
    chargeStream x (streamWeight (← get) x clsFront 1) false
    pure .on
  else streamWait x .barrier

/-- MBARW (10 R299). -/
def execMbarw (n : Nat) (s : State) : Host.Outcome State Fault Refusal := streamStep (mbarwBody n) s

/-! ### Loops (10 R297) -/

/-- The count of an MLOOP: its own, or a k register whose upper half is zero. -/
def loopCount (x : Sx) (imm : Nat) : Act Nat :=
  if bitSet imm 15 then do
    streamNeeds (bitsOf imm 4 11 = 0) 1
    let v := (launchConst x.l (imm % 16)).toNat
    streamNeeds (decide (v < 2 ^ 32)) 2
    pure v
  else pure imm

def mloopBody (d imm : Nat) (x : Sx) : Act SNext := do
  let n ← loopCount x imm
  streamNeeds (d != 0) 2
  if n = 0 then pure (.to (x.st.pc + 32 * d))
  else do
    streamNeeds (decide (x.st.loops.length < 4)) 8
    modStream x.bid fun st => { st with loops := ⟨n, x.st.pc + 32, x.st.pc + 32 * d⟩ :: st.loops }
    pure .on

/-- MLOOP (10 R297). -/
def execMloop (d imm : Nat) (s : State) : Host.Outcome State Fault Refusal := streamStep (sequencer (mloopBody d imm)) s

def mendlBody (x : Sx) : Act SNext := do
  match x.st.loops with
  | [] => streamTrapped 8
  | e :: rest =>
    if 1 < e.count then do
      modStream x.bid fun st => { st with loops := { e with count := e.count - 1 } :: rest }
      pure (.to e.head)
    else do
      modStream x.bid fun st => { st with loops := rest }
      pure (.to e.exit)

/-- MENDL (10 R297). -/
def execMendl (s : State) : Host.Outcome State Fault Refusal := streamStep (sequencer mendlBody) s

/-! ### The ends and the rest of the sequencer's instructions -/

/-- MNOP (07 R205): skipped at fetch; it does nothing and is not charged. -/
def execMnop (s : State) : Host.Outcome State Fault Refusal := streamStep (fun _ => pure .on) s

/-- Drop every held bit (10 R293). -/
def dropHeld (t : Tbl Ring) : Tbl Ring := t.map fun e => (e.1, { e.2 with held := false })

/-- MEND (10 R298): it waits for the stream's tile operation, then ends the stream. -/
def mendBody (x : Sx) : Act SNext := do
  if x.st.inFlight then do
    modStream x.bid fun st => { st with wait := .drain }
    pure .stay
  else do
    chargeStream x (streamWeight (← get) x clsFront 1) false
    modStream x.bid fun st => { st with bound := false, rings := dropHeld st.rings, wait := .none }
    freeEngine x.bid
    streamRecord x.bid x.b 1 0
    settleBlock x.bid
    pure .stay

/-- MEND (10 R298). -/
def execMend (s : State) : Host.Outcome State Fault Refusal := streamStep mendBody s

/-- The progress word of a stream's record with state running, written as a release at block scope, which the core's table and
the line's home note as they do a team's (05 R143; 10 R306). -/
def writeFlag (x : Sx) : Act Unit := do
  let va := x.st.recVa + 8
  let (ia, _) ← iaFor x.b.ctx va .write
  roomForRelease x.b.core x.b.world ia
  roomForOwner (some x.b.ctx) x.b.core x.b.world (ia / 64)
  writeVa x.req x.b x.bid va (bytesLE 8 (progressWord (streamDone x.st) 0 0))
  recordRelease x.b.core x.b.world x.b.ctx (lineKeySlot (← get) x.b.world ia) ia

/-- MFLAG (10 R306, R312, R523): the progress word with state running, at block scope. A write that faults is
reported to the binding team, and the stream goes on. -/
def mflagBody (x : Sx) : Act SNext := do
  if x.st.recVa ≠ 0 then
    match ← attempt (undone (writeFlag x)) with
    | .ok _ => pure ()
    | .error (.wait w) => throw (.wait w)
    | .error e => do
      asyncError x.st.binder x.b.ctx x.b.world x.b.core (stopClass e) x.st.recVa 0 false ⟨2, clusterOfCore x.b.core, x.st.ops⟩ 0
        (placedIa (← get) x.b.ctx x.st.recVa)
  pure .on

/-- MFLAG (10 R306). -/
def execMflag (s : State) : Host.Outcome State Fault Refusal := streamStep (sequencer mflagBody) s

/-- Fields of a convolution word (10 R302). -/
def convKh (w : Nat) : Nat := bitsOf w 0 3
def convKw (w : Nat) : Nat := bitsOf w 3 3
def convSy (w : Nat) : Nat := bitsOf w 6 2 + 1
def convSx (w : Nat) : Nat := bitsOf w 8 2 + 1
def convDy (w : Nat) : Nat := bitsOf w 10 2 + 1
def convDx (w : Nat) : Nat := bitsOf w 12 2 + 1
def convPt (w : Nat) : Nat := bitsOf w 14 3
def convPl (w : Nat) : Nat := bitsOf w 17 3
def convW (w : Nat) : Nat := bitsOf w 20 12
def convH (w : Nat) : Nat := bitsOf w 32 12
def convC (w : Nat) : Nat := bitsOf w 44 12

/-- A convolution word and output width that R302 allows. -/
def convOk (w wo : Nat) : Bool :=
  convKh w != 0 && convKw w != 0 && convW w != 0 && convH w != 0 && convC w != 0 && wo != 0 && bitsOf w 56 8 = 0

def convsetBody (d : Opnd) (wo : Nat) (x : Sx) : Act SNext := do
  let w ← streamK x d
  streamNeeds (convOk w wo) 2
  modStream x.bid fun st => { st with conv := some ⟨BitVec.ofNat 64 w, wo, 0, 0⟩ }
  pure .on

/-- CONVSET (10 R302). -/
def execConvset (d : Opnd) (wo : Nat) (s : State) : Host.Outcome State Fault Refusal :=
  streamStep (sequencer (convsetBody d wo)) s

/-! ### Formats of a pass (06 R176, R179; 10 R304, R305) -/

/-- Types of 06 R176: 16-bit, 8-bit float and 4-bit. -/
def isHalf (f : Nat) : Bool := f = 8 || f = 9
def isQuarter (f : Nat) : Bool := f = 12 || f = 13
def isNibble (f : Nat) : Bool := f = 14 || f = 15

/-- The dense K of a pair of types, or none for a pair that no pass accepts (06 R176, R180). -/
def passK (a b : Nat) : Option Nat :=
  if isHalf a && isHalf b then some 32
  else if (isQuarter a && isQuarter b) || (a = 0 && b = 0) then some 64
  else if isNibble a && isNibble b then some 256
  else none

/-- Output types of the engine (06 R176). -/
def outType (f : Nat) : Bool := f = 8 || f = 9 || f = 10 || f = 12 || f = 13

/-- An operand's scale bit stands as its type requires: none but for 8-bit and 4-bit types, always for
e2m1 (06 R176). -/
def scaleFits (f : Nat) (scaled : Bool) : Bool :=
  if f = 14 then scaled else if isQuarter f || f = 15 then true else !scaled

/-- A slot that MMA, MMAS and MMAV accept; for MMAV, without a scale on A (10 R303). -/
def passSlotOk (unfold : Bool) (v : Nat) : Bool :=
  slotClean v && (passK (slotA v) (slotB v)).isSome && outType (slotOut v) && scaleFits (slotA v) (slotScaleA v)
    && scaleFits (slotB v) (slotScaleB v) && !(unfold && slotScaleA v)

/-- A slot that MTRN, MPERM and MRED accept (10 R304). -/
def moveSlotOk (v : Nat) : Bool := slotClean v && outType (slotA v) && !slotScaleA v && !slotScaleB v

/-- Bits of an element of the engine's types. -/
def elemBits (f : Nat) : Nat := if f = 0 then 8 else if f = 15 then 4 else fmtWidth f

/-- The value of an element; a cb4 element's is its codebook entry (06 R163). -/
def elemValue (f : Nat) (book : List (BitVec 16)) (v : Nat) : FVal :=
  if f = 0 then .num (bitSet v 7) (signed 8 v).natAbs 0
  else if f = 15 then decodeF 9 (book.getD v 0).toNat
  else decodeF f v

/-- Element n of a slot's bytes, taken as one number (06 R156). -/
def slotElem (f : Nat) (book : List (BitVec 16)) (data n : Nat) : FVal :=
  elemValue f book (bitsOf data (n * elemBits f) (elemBits f))

/-! ### Codebooks (06 R177, R179; 10 R307) -/

/-- Read one codebook through the context's range registers, or take the one held. A codebook that cannot
be read, or breaks R163, is a format-slot trap; a resumable fault is the answer `some`. -/
def streamBook (x : Sx) (key va : Nat) : Act (Option (Nat × Nat × Nat)) := do
  match find? x.st.books key with
  | some _ => pure none
  | none =>
    match ← attempt (readRecord x.req x.b.ctx va 32) with
    | .ok bs => do
      streamNeeds ((bookEntries bs).all entryOk) 3
      modStream x.bid fun st => { st with books := put st.books key ((bookEntries bs).map (BitVec.ofNat 16)) }
      pure none
    | .error (.absent st w a) => pure (some (st, w, a))
    | .error (.wait w) => throw (.wait w)
    | .error _ => streamTrapped 3

/-- The codebooks that a pass needs: the first resumable fault among them. -/
def passBooks (x : Sx) (fs v : Nat) : Act (Option (Nat × Nat × Nat)) := do
  let a ← if slotA v = 15 then streamBook x (2 * fs) (slotBookA v) else pure none
  let b ← if slotB v = 15 then streamBook x (2 * fs + 1) (slotBookB v) else pure none
  pure (if a.isSome then a else b)

/-- The entry waits for the resolution of a codebook's fault (10 R307). -/
def holdBook {α : Type} (x : Sx) (f : Nat × Nat × Nat) : Act α := do
  let _ ← noteFault x.bid none 11 f.1 f.2.1 f.2.2
  modStream x.bid fun st => { st with wait := .fault }
  throw (.wait .fault)

/-- A held codebook. -/
def heldBook (s : State) (bid key : Nat) : List (BitVec 16) :=
  match find? s.blocks bid with
  | some b => (find? b.stream.books key).getD []
  | none => []

/-! ### One element of a pass (06 R180-R182) -/

/-- The engine rounds to f32 under RNE and never flushes. -/
def engineRound : Rounding := ⟨0, false, false, none⟩

/-- acc + round(s), rounded (06 R180). -/
def accumulate (acc : FRes) (s : FArg) : FRes :=
  let r := finishF 10 engineRound s
  (finishF 10 engineRound (addF false (decodeF 10 acc.bits) (decodeF 10 r.bits))).withFlags (acc.flags ||| r.flags)

/-- A group's sum, scaled; a scale of 255 makes it the default NaN (06 R181). -/
def scaledSum (xs : List FArg) (sa sb : Nat) : FArg :=
  if sa = 255 || sb = 255 then ⟨.nan false, flagNv, false⟩
  else
    let g := groupSum xs
    { g with v := scaleF g.v ((sa : Int) + sb - 254) }

/-- One element of an accumulator over the groups of a pass: `terms k` are the products at position k. -/
def passElem (groups : Nat) (terms : Nat → List FArg) (sa sb : Nat → Nat) (acc : Nat) : FRes :=
  (List.range groups).foldl (fun r g =>
    accumulate r (scaledSum ((List.range 32).flatMap fun t => terms (32 * g + t)) (sa g) (sb g))) ⟨acc, 0⟩

/-! ### Tiles (10 R284, R305) -/

/-- The tile is one that the launch asks for (10 R284). -/
def tileOk (x : Sx) (acc : Nat) : Act Unit := streamNeeds (decide (acc < launchTiles x.l)) 4

def tileKey (acc i j : Nat) : Nat := 4096 * acc + 64 * i + j

/-- A poisoned element that the stream reads ends its context (20 R473). -/
def tileClean (x : Sx) (acc : Nat) : Act Unit :=
  if x.b.tilePoison.any fun k => k / 4096 = acc then accessFault .dataError else pure ()

/-- Replace every element of a tile, and raise flags in the stream's flag word (06 R174). -/
def putTile (x : Sx) (acc : Nat) (f : Nat → Nat → Nat → FRes) : Act Unit :=
  let rs := (List.range 4096).map fun n => (4096 * acc + n, f (n / 64) (n % 64) (rd x.b.tile (4096 * acc + n)).toNat)
  modBlock x.bid fun b =>
    let st := b.stream
    { b with
      tile := rs.foldl (fun t r => wr t r.1 (BitVec.ofNat 32 r.2.bits)) b.tile
      tilePoison := b.tilePoison.filter fun k => k / 4096 != acc
      stream := { st with flags := st.flags ||| BitVec.ofNat 5 (rs.foldl (fun a r => a ||| r.2.flags) 0) } }

/-- A tile operation needs the engine's grant; it is charged at the grant, counted, and occupies the engine
until it completes (10 R288-R290). -/
def tileOperation (body : Sx → Act Nat) (x : Sx) : Act SNext := do
  let s ← get
  if (engineOf s x.cluster).granted ≠ some x.bid then do
    let e := engineOf s x.cluster
    setEngine x.cluster { e with waits := put e.waits x.bid s.time }
    modStream x.bid fun st => { st with wait := .engine }
    pure .stay
  else do
    let mq ← body x
    let e := engineOf (← get) x.cluster
    setEngine x.cluster { e with granted := none, busy := some x.bid, row := 0 }
    modQuad (quadOfCore x.b.core) fun q => { q with passes := q.passes + 1 }
    modStream x.bid fun st => { st with ops := st.ops + 1, inFlight := true }
    chargeStream x mq true
    pure .on

/-- ACCZ. -/
def acczBody (acc : Nat) (x : Sx) : Act Nat := do
  tileOk x acc
  putTile x acc fun _ _ _ => ⟨0, 0⟩
  pure (streamWeight (← get) x 18 1)

/-- ACCZ (10 R305). -/
def execAccz (acc : Nat) (s : State) : Host.Outcome State Fault Refusal := streamStep (tileOperation (acczBody acc)) s

def accldBody (acc ra : Nat) (x : Sx) : Act Nat := do
  tileOk x acc
  let r ← heldRing x ra false
  slotHolds r 16384
  let v := numLE (← streamRead x (slotOffset r) 16384)
  putTile x acc fun i j _ => ⟨bitsOf v (32 * (64 * i + j)) 32, 0⟩
  pure (streamWeight (← get) x 19 1)

/-- ACCLD (10 R305). -/
def execAccld (acc ra : Nat) (s : State) : Host.Outcome State Fault Refusal :=
  streamStep (tileOperation (accldBody acc ra)) s

/-- The elements of a tile converted to a type, row-major (06 R183). -/
def tileElems (b : Block) (acc out : Nat) (sat : Bool) : List FRes :=
  (List.range 4096).map fun n => roundF out ⟨0, sat, false, none⟩ (decodeF 10 (rd b.tile (4096 * acc + n)).toNat) false

/-- The bytes of elements of w bits: one element to a byte or more. -/
def elemBytes (w : Nat) (xs : List FRes) : List (BitVec 8) := xs.flatMap fun r => bytesLE (w / 8) r.bits

def accstBody (acc fs rb : Nat) (x : Sx) : Act Nat := do
  let v := slotBits x.l fs
  let out := slotOut v
  streamNeeds (slotClean v && outType out) 3
  tileOk x acc
  let r ← heldRing x rb true
  slotHolds r (512 * fmtWidth out)
  tileClean x acc
  let rs := tileElems x.b acc out (slotSat v)
  streamWrite x (slotOffset r) (elemBytes (fmtWidth out) rs)
  modStream x.bid fun st => { st with flags := st.flags ||| BitVec.ofNat 5 (rs.foldl (fun a r => a ||| r.flags) 0) }
  pure (streamWeight (← get) x 19 1)

/-- ACCST (10 R305). -/
def execAccst (acc fs rb : Nat) (s : State) : Host.Outcome State Fault Refusal :=
  streamStep (tileOperation (accstBody acc fs rb)) s

/-! ### MTRN, MPERM and MRED (06 R182, 10 R304) -/

/-- What a generated matrix selects: the element (i, k) of A at position k of output (i, j), if any. -/
inductive Move where
  | transpose
  | permute (pi : List (BitVec 8))
  | rows
deriving DecidableEq, Repr

/-- The index in X of the element that position k gives to output (i, j). -/
def Move.pick : Move → Nat → Nat → Nat → Option Nat
  | .transpose, i, j, k => if k = j then some (64 * k + i) else none
  | .permute pi, i, j, k => if (pi.getD j 0).toNat = k then some (64 * i + k) else none
  | .rows, i, j, k => if j = 0 then some (64 * i + k) else none

/-- The product of X with a generated matrix, added into a tile. -/
def movePass (x : Sx) (acc f data : Nat) (m : Move) : Act Unit :=
  putTile x acc fun i j a =>
    passElem 2 (fun k => match m.pick i j k with
      | some n => [.exact (slotElem f [] data n)]
      | none => []) (fun _ => 127) (fun _ => 127) a

def moveBody (acc fs ra : Nat) (rb : Option Nat) (move : List (BitVec 8) → Move) (x : Sx) : Act Nat := do
  let v := slotBits x.l fs
  let n := 512 * elemBits (slotA v)
  streamNeeds (moveSlotOk v) 3
  tileOk x acc
  let r ← heldRing x ra false
  let p ← match rb with
    | some n => pure (some (← heldRing x n false))
    | none => pure none
  slotHolds r n
  match p with
  | some p => slotHolds p 64
  | none => pure ()
  tileClean x acc
  let data := numLE (← streamRead x (slotOffset r) n)
  let pi ← match p with
    | some p => streamRead x (slotOffset p) 64
    | none => pure []
  movePass x acc (slotA v) data (move pi)
  pure (streamWeight (← get) x 17 1)

/-- MTRN (10 R304). -/
def execMtrn (acc fs ra : Nat) (s : State) : Host.Outcome State Fault Refusal :=
  streamStep (tileOperation (moveBody acc fs ra none fun _ => .transpose)) s

/-- MPERM (10 R304). -/
def execMperm (acc fs ra rb : Nat) (s : State) : Host.Outcome State Fault Refusal :=
  streamStep (tileOperation (moveBody acc fs ra (some rb) .permute)) s

/-- MRED (10 R304). -/
def execMred (acc fs ra : Nat) (s : State) : Host.Outcome State Fault Refusal :=
  streamStep (tileOperation (moveBody acc fs ra none fun _ => .rows)) s

/-! ### MMA, MMAS and MMAV (06 R180; 10 R300, R301, R303) -/

/-- Stored values in each 12 of a sparse ring (10 R292). -/
def sparseN (sp : Nat) : Nat := if sp = 1 then 6 else if sp = 2 then 4 else 3

/-- The charge class of a dense pass, by its K; the sparse pass's is three more (11 R342). -/
def passClass (K : Nat) : Nat := if K = 32 then 10 else if K = 64 then 11 else 12

/-- The index in the activation of element (i, t) of the tile that MMAV forms, none for a +0 (10 R303). -/
def unfoldAt (v : Conv) (i t : Nat) : Option Nat :=
  let w := v.word.toNat
  let p := v.row0 + i
  let k := v.kpos + t
  let y : Int := ((p / v.wo * convSy w : Nat) : Int) - convPt w + (k / (convC w * convKw w) * convDy w : Nat)
  let z : Int := ((p % v.wo * convSx w : Nat) : Int) - convPl w + (k / convC w % convKw w * convDx w : Nat)
  if k < convKh w * convKw w * convC w ∧ 0 ≤ y ∧ y < (convH w : Nat) ∧ 0 ≤ z ∧ z < (convW w : Nat) then
    some ((y.toNat * convW w + z.toNat) * convC w + k % convC w)
  else none

/-- The cursor after one MMAV (10 R303). -/
def convAfter (v : Conv) (K : Nat) : Conv :=
  let w := v.word.toNat
  if convKh w * convKw w * convC w ≤ v.kpos + K then { v with kpos := 0, row0 := v.row0 + 64 }
  else { v with kpos := v.kpos + K }

/-- The scale byte of a row or column and group, 127 when the operand carries none (06 R178). -/
def scaleAt (scaled : Bool) (data off groups row g : Nat) : Nat :=
  if scaled then bitsOf data (8 * (off + row * groups + g)) 8 else 127

/-- +0, the value of an element that is not stored. -/
def plusZero : FVal := .num false 0 0

/-- The values of column j of B at position k: one in a dense slot; in a sparse slot those stored there, or
+0 (10 R301). -/
def columnAt (f : Nat) (book : List (BitVec 16)) (data S N j k : Nat) : List FVal :=
  let off := 64 * S * elemBits f
  let hits := ((List.range N).map (N * (k / 12) + ·)).filter fun t => bitsOf data (off + 4 * (j * S + t)) 4 = k % 12
  if hits.isEmpty then [plusZero] else hits.map fun t => slotElem f book data (j * S + t)

/-- Whether a sparse slot holds an index of 12 or more (10 R301). -/
def badIndex (f data S : Nat) : Bool :=
  (List.range (64 * S)).any fun n => decide (12 ≤ bitsOf data (64 * S * elemBits f + 4 * n) 4)

/-- What a pass multiplies: A's element at (i, k), B's elements at (k, j), the scales, the number of groups,
and flags that reading the operands raises. -/
structure PassData where
  a : Nat → Nat → FVal
  b : Nat → Nat → List FVal
  sa : Nat → Nat → Nat
  sb : Nat → Nat → Nat
  groups : Nat
  flags : Nat

/-- Add a pass into a tile. -/
def addPass (x : Sx) (acc : Nat) (d : PassData) : Act Unit := do
  putTile x acc fun i j v =>
    passElem d.groups (fun k => (d.b k j).map fun y => mulF (d.a i k) y) (d.sa i) (d.sb j) v
  modStream x.bid fun st => { st with flags := st.flags ||| BitVec.ofNat 5 d.flags }

/-- The bytes that A takes in its slot; an activation's for MMAV. -/
def bytesOfA (x : Sx) (v : Nat) (unfold : Bool) (K : Nat) : Nat :=
  if unfold then
    match x.st.conv with
    | some c => (convH c.word.toNat * convW c.word.toNat * convC c.word.toNat * elemBits (slotA v) + 7) / 8
    | none => 0
  else 8 * K * elemBits (slotA v) + (if slotScaleA v then 2 * K else 0)

/-- The bytes that B takes: elements, indices and scales. -/
def bytesOfB (v S K : Nat) (sparse : Bool) : Nat :=
  8 * S * elemBits (slotB v) + (if sparse then 32 * S else 0) + (if slotScaleB v then 2 * K else 0)

/-- A pass's operands from the two slots; K is the span of A along K. -/
def passData (s : State) (x : Sx) (fs v K S N : Nat) (unfold sparse : Bool) (da db : Nat) : PassData :=
  let fa := slotA v
  let fb := slotB v
  let ba := heldBook s x.bid (2 * fs)
  let bb := heldBook s x.bid (2 * fs + 1)
  let g := K / 32
  { a := fun i k =>
      if unfold then
        match x.st.conv with
        | some c => match unfoldAt c i k with
          | some n => slotElem fa ba da n
          | none => plusZero
        | none => plusZero
      else slotElem fa ba da (i * K + k)
    b := fun k j => if sparse then columnAt fb bb db S N j k else [slotElem fb bb db (j * K + k)]
    sa := fun i => scaleAt (slotScaleA v) da (8 * K * elemBits fa) g i
    sb := fun j => scaleAt (slotScaleB v) db (8 * S * elemBits fb + (if sparse then 32 * S else 0)) g j
    groups := g
    flags := if sparse && badIndex fb db S then flagNv else 0 }

/-- A pass: every check in the order of 18 R433, then the product. -/
def passBody (acc fs ra rb : Nat) (unfold sparse : Bool) (x : Sx) : Act Nat := do
  let v := slotBits x.l fs
  streamNeeds (ra != rb) 2
  streamNeeds (!unfold || x.st.conv.isSome) 2
  streamNeeds (passSlotOk unfold v) 3
  let absent ← passBooks x fs v
  tileOk x acc
  let a ← heldRing x ra false
  let b ← heldRing x rb false
  streamNeeds ((b.sp != 0) = sparse) 6
  let K1 := (passK (slotA v) (slotB v)).getD 32
  let K := if sparse then 3 * K1 else K1
  let N := sparseN b.sp
  let S := if sparse then K * N / 12 else K
  slotHolds a (bytesOfA x v unfold K)
  slotHolds b (bytesOfB v S K sparse)
  match absent with
  | some f => holdBook x f
  | none => pure ()
  tileClean x acc
  let da := numLE (← streamRead x (slotOffset a) (bytesOfA x v unfold K))
  let db := numLE (← streamRead x (slotOffset b) (bytesOfB v S K sparse))
  addPass x acc (passData (← get) x fs v K S N unfold sparse da db)
  if unfold then modStream x.bid fun st => { st with conv := st.conv.map fun c => convAfter c K } else pure ()
  let p := chargePoint (← get) (quadOfCore x.b.core)
  pure (if sparse then scaledWeight (Config.weight (passClass K1 + 3) * N / 4) p
    else weightAt (passClass K1) p + (if unfold then weightAt 16 p else 0))

/-- MMA (10 R300). -/
def execMma (acc fs ra rb : Nat) (s : State) : Host.Outcome State Fault Refusal :=
  streamStep (tileOperation (passBody acc fs ra rb false false)) s

/-- MMAS (10 R301). -/
def execMmas (acc fs ra rb : Nat) (s : State) : Host.Outcome State Fault Refusal :=
  streamStep (tileOperation (passBody acc fs ra rb false true)) s

/-- MMAV (10 R303). -/
def execMmav (acc fs ra rb : Nat) (s : State) : Host.Outcome State Fault Refusal :=
  streamStep (tileOperation (passBody acc fs ra rb true false)) s

/-! ### MSTR (10 R283) -/

/-- Where the stream starts: the residual stream entry when the block runs residual code that has one. -/
def streamEntry (s : State) (c : Cx) : Nat :=
  match residualCode s c.b c.l with
  | some (base, e) => match e.stream with
    | some off => base + off
    | none => launchStream c.l
  | none => launchStream c.l

/-- Bind the block's stream. -/
def bindStream (c : Cx) (rva : Nat) : Act Unit := do
  let s ← get
  modBlock c.t.bid fun b =>
    { b with
      stream := { Stream.idle with
        bound := true, pc := streamEntry s c, slot := 1, recVa := rva, binder := c.tid, waits := b.stream.waits }
      tile := []
      tilePoison := [] }
  match sxOf (← get) c.t.bid with
  | some x => chargeStream x (streamWeight s x 18 (launchTiles c.l)) true
  | none => pure ()

def mstrBody (a : Opnd) (c : Cx) : Act Next := do
  if suppressed c then pure .on
  else do
    let rva := (opScalar c a).toNat
    require (rva % 16 = 0) .engineParameter
    require (launchStream c.l ≠ 0) .streamState
    let st := c.b.stream
    require (!st.bound || st.recVa = rva) .streamState
    if st.bound then pure .on
    else do
      bindStream c rva
      pure .on

/-- MSTR (10 R283). -/
def execMstr (a : Opnd) (s : State) : Host.Outcome State Fault Refusal :=
  teamStep (fun _ => plain 0xc7 [⟨a, .scalar, false⟩] .none) (mstrBody a) s

/-! ### The engine (10 R288) -/

/-- Whether a block's entry may go on: resident, its context not ending or at its limit, and no save begun
(10 R290; 12 R365; 17 R411). -/
def entryLive (s : State) (b : Block) : Bool :=
  b.st = .resident && b.stream.bound && (find? s.endings b.ctx).isNone && maySpend s b b.ctx
    && unitOn s (quadOfCore b.core) (clusterOfCore b.core % 12)

/-- Engine cycles that a block has waited for its grant. -/
def grantWait (s : State) (cluster bid : Nat) : Nat :=
  (s.time - (find? (engineOf s cluster).waits bid).getD s.time) * clockOf (quadOf s (quadOfCluster cluster)).op / 100

/-- A ready entry: its block, score, wait and entry number. -/
structure Ready where
  bid : Nat
  score : Nat
  wait : Nat
  entry : Nat
deriving DecidableEq, Repr

/-- When each of a cluster's entries last became ready (10 R288): an entry that has stopped being ready begins anew. -/
def readyTimes (s : State) (e : Nat × Engine) : Nat × Engine :=
  let live := s.blocks.filter fun b => clusterOfCore b.2.core = e.1 && entryLive s b.2 && b.2.stream.wait = .engine
  (e.1, { e.2 with waits := live.foldl (fun t b => put t b.1 ((find? e.2.waits b.1).getD s.time)) [] })

/-- The waits of every engine's entries, as they stand when a step begins. -/
def noteReady (s : State) : State := { s with engines := s.engines.map (readyTimes s) }

/-- The entries of a cluster that are ready for a tile operation. -/
def readyEntries (s : State) (cluster : Nat) : List Ready :=
  (s.blocks.filter fun e => clusterOfCore e.2.core = cluster && entryLive s e.2 && e.2.stream.wait = .engine).map fun e =>
    let w := grantWait s cluster e.1
    ⟨e.1, launchPriority (launchOf s e.2.launch) + Nat.min (w / 256) 15, w, e.2.entry⟩

/-- The score decides, then the larger wait, then the lower entry. -/
def beats (x y : Ready) : Bool :=
  decide (y.score < x.score) || (x.score = y.score && (decide (y.wait < x.wait) || (x.wait = y.wait && decide (x.entry < y.entry))))

def bestReady : List Ready → Option Ready
  | [] => none
  | x :: t => match bestReady t with
    | some y => some (if beats y x then y else x)
    | none => some x

/-- TILE_GRANT (10 R288): a free engine grants the ready entry with the greatest score. -/
def tileGrant (cluster : Nat) : Act Unit := do
  let s ← get
  let e := engineOf s cluster
  if e.granted.isSome || e.busy.isSome then pure ()
  else
    match bestReady (readyEntries s cluster) with
    | none => pure ()
    | some r => do
      setEngine cluster { e with granted := some r.bid, waits := del e.waits r.bid }
      modStream r.bid fun st => { st with wait := .none }

/-- TILE_GRANT (10 R288). -/
def execTileGrant (cluster : Nat) (s : State) : Host.Outcome State Fault Refusal := eventStep (tileGrant cluster) s

/-- TILE_OPERATION_COMPLETE (10 R289): the engine's tile operation is over. -/
def tileComplete (cluster : Nat) : Act Unit := do
  let e := engineOf (← get) cluster
  match e.busy with
  | none => pure ()
  | some bid => do
    setEngine cluster { e with busy := none }
    modStream bid fun st =>
      { st with inFlight := false, wait := if st.wait = .drain then .none else st.wait }

/-- TILE_OPERATION_COMPLETE (10 R289). -/
def execTileOperationComplete (cluster : Nat) (s : State) : Host.Outcome State Fault Refusal :=
  eventStep (tileComplete cluster) s

/-! ### The sequencer's fetch (10 R285, R307) -/

/-- The bundle at the stream's place, which it holds whole once it has been fetched (07 R186). -/
def streamBundle (x : Sx) (inRes : Bool) : Act (List (BitVec 8)) := do
  match x.st.bundle with
  | some (pc, bs) => if pc = x.st.pc && x.st.slot != 1 then pure bs else fetchBundle x.req x.b.ctx inRes x.st.pc
  | none => fetchBundle x.req x.b.ctx inRes x.st.pc

/-- The map of a residual stream bundle's back-map entry. -/
def streamMap (x : Sx) : Act (Option Nat) := do
  match ← backEntry x.req x.b x.l x.st.pc with
  | some (_, ws) => pure (some (bitsOf (ws.getD 0 0) 56 1))
  | none => pure none

/-- The bundle at the stream's place, with the map that its back-map entry names: an original bundle's is the stream's. -/
def streamCode (x : Sx) (inRes : Bool) : Act (List (BitVec 8) × Option Nat) := do
  let bs ← streamBundle x inRes
  let mb ← if inRes && x.st.slot = 1 then streamMap x else pure (some 1)
  pure (bs, mb)

/-- A stream bundle at the stream's place: its bytes and map, or the fault of its fetch. An index that names no back-map
entry is an illegal encoding (18 R426). -/
def fetchForStream (x : Sx) (inRes : Bool) : Act (Option (List (BitVec 8) × Option Nat)) := do
  match ← attempt (streamCode x inRes) with
  | .ok r =>
    modStream x.bid fun st => { st with bundle := some (x.st.pc, r.1) }
    pure (some r)
  | .error (.trap _) => do
    streamFault x.bid 1
    settleBlock x.bid
    pure none
  | .error (.absent st w a) => do
    let _ ← noteFault x.bid none 10 st w a
    modStream x.bid fun st => { st with wait := .fault }
    pure none
  | .error (.fault c cls) => do
    if inRes && (c = .dataError || c = .integrity) then residualLost x.bid x.b x.l cls
    else do
      streamFault x.bid 10
      settleBlock x.bid
    pure none
  | .error _ => pure none

/-- A trap of the sequencer's decoder. -/
def streamBad (x : Sx) : Act (Option Instr) := do
  streamFault x.bid 1
  settleBlock x.bid
  pure none

/-- Take the stream to its next instruction, past any MNOP, and leave it in focus. -/
def fetchStream (bid : Nat) : Nat → Act (Option Instr)
  | 0 => pure none
  | n + 1 => do
    match sxOf (← get) bid with
    | none => pure none
    | some x =>
      let inRes := x.b.residual && inResidual (← get) x.b.world x.st.pc
      match ← fetchForStream x inRes with
      | none => pure none
      | some (bs, mb) =>
        let ctl : Control := ⟨numLE (bs.take 4)⟩
        let bt := ctl.bt x.st.slot
        let w := numLE ((bs.drop (4 * x.st.slot)).take 4)
        if x.st.slot = 1 && !bundleOk ctl 1 inRes mb then streamBad x
        else if !classBtOk ctl bt || !streamBtAllowed (w / 16777216) bt then streamBad x
        else
          match decodeStream w with
          | .error _ => streamBad x
          | .ok .mnop => do
            placeStream x .on
            fetchStream bid n
          | .ok i => do
            modify fun s => { s with focus := .stream bid bt }
            pure (some i)

/-- One turn of the sequencer for a block's entry: the instruction that it issues. A granted tile operation
is performed even when a save has begun (10 R286). -/
def streamTurn (bid : Nat) : Act (Option Instr) := do
  let s ← get
  match find? s.blocks bid with
  | none => pure none
  | some b =>
    let granted := (engineOf s (clusterOfCore b.core)).granted = some bid
    if b.stream.wait = .none && b.stream.bound && b.st = .resident && (granted || entryLive s b) then do
      modify fun s => { s with working := some (bid, b.ctx) }
      fetchStream bid 64
    else pure none

end Sys2Proof.Machine
end

