-- ==== Sys2Proof/Machine/Dispatch.lean ====
section
/-! DEFINITION. One arm per constructor of `Instr`: a direct call of its meaning. -/
namespace Sys2Proof.Machine
open Sys2Proof

/-- What the device does on one instruction or event. -/
def exec (i : Instr) (s : State) : Host.Outcome State Fault Refusal :=
  match i with
  | .nop => Sys2Proof.Machine.execNop s
  | .mode imm => Sys2Proof.Machine.execMode imm s
  | .modet d imm => Sys2Proof.Machine.execModet d imm s
  | .modeg d imm => Sys2Proof.Machine.execModeg d imm s
  | .bra off => Sys2Proof.Machine.execBra off s
  | .brz m inv off => Sys2Proof.Machine.execBrz m inv off s
  | .brnz m inv off => Sys2Proof.Machine.execBrnz m inv off s
  | .brd m inv off => Sys2Proof.Machine.execBrd m inv off s
  | .joinset off => Sys2Proof.Machine.execJoinset off s
  | .join => Sys2Proof.Machine.execJoin s
  | .call frame off => Sys2Proof.Machine.execCall frame off s
  | .calli a frame => Sys2Proof.Machine.execCalli a frame s
  | .ret => Sys2Proof.Machine.execRet s
  | .jmpi a => Sys2Proof.Machine.execJmpi a s
  | .exit => Sys2Proof.Machine.execExit s
  | .demote => Sys2Proof.Machine.execDemote s
  | .trap imm => Sys2Proof.Machine.execTrap imm s
  | .rft => Sys2Proof.Machine.execRft s
  | .yield => Sys2Proof.Machine.execYield s
  | .refill d a b => Sys2Proof.Machine.execRefill d a b s
  | .loop d imm => Sys2Proof.Machine.execLoop d imm s
  | .endl => Sys2Proof.Machine.execEndl s
  | .mand d a b => Sys2Proof.Machine.execMand d a b s
  | .mor d a b => Sys2Proof.Machine.execMor d a b s
  | .mxor d a b => Sys2Proof.Machine.execMxor d a b s
  | .mnot d a => Sys2Proof.Machine.execMnot d a s
  | .mcnt d a => Sys2Proof.Machine.execMcnt d a s
  | .mfirst d a => Sys2Proof.Machine.execMfirst d a s
  | .mset d a => Sys2Proof.Machine.execMset d a s
  | .mmov d a => Sys2Proof.Machine.execMmov d a s
  | .add d a b => Sys2Proof.Machine.execAdd d a b s
  | .sub d a b => Sys2Proof.Machine.execSub d a b s
  | .addi d a imm => Sys2Proof.Machine.execAddi d a imm s
  | .mul d a b => Sys2Proof.Machine.execMul d a b s
  | .mulh d a b => Sys2Proof.Machine.execMulh d a b s
  | .mad d a b => Sys2Proof.Machine.execMad d a b s
  | .div d a b => Sys2Proof.Machine.execDiv d a b s
  | .rem d a b => Sys2Proof.Machine.execRem d a b s
  | .min d a b => Sys2Proof.Machine.execMin d a b s
  | .max d a b => Sys2Proof.Machine.execMax d a b s
  | .abs d a => Sys2Proof.Machine.execAbs d a s
  | .neg d a => Sys2Proof.Machine.execNeg d a s
  | .and d a b => Sys2Proof.Machine.execAnd d a b s
  | .or d a b => Sys2Proof.Machine.execOr d a b s
  | .xor d a b => Sys2Proof.Machine.execXor d a b s
  | .not d a => Sys2Proof.Machine.execNot d a s
  | .andi d a imm => Sys2Proof.Machine.execAndi d a imm s
  | .ori d a imm => Sys2Proof.Machine.execOri d a imm s
  | .xori d a imm => Sys2Proof.Machine.execXori d a imm s
  | .shl d a b => Sys2Proof.Machine.execShl d a b s
  | .shr d a b => Sys2Proof.Machine.execShr d a b s
  | .sha d a b => Sys2Proof.Machine.execSha d a b s
  | .shli d a imm => Sys2Proof.Machine.execShli d a imm s
  | .shri d a imm => Sys2Proof.Machine.execShri d a imm s
  | .shai d a imm => Sys2Proof.Machine.execShai d a imm s
  | .rol d a b => Sys2Proof.Machine.execRol d a b s
  | .clz d a => Sys2Proof.Machine.execClz d a s
  | .popc d a => Sys2Proof.Machine.execPopc d a s
  | .brev d a => Sys2Proof.Machine.execBrev d a s
  | .bfx d a b => Sys2Proof.Machine.execBfx d a b s
  | .bfi d a b => Sys2Proof.Machine.execBfi d a b s
  | .sel d a b => Sys2Proof.Machine.execSel d a b s
  | .ceq d a b => Sys2Proof.Machine.execCeq d a b s
  | .cne d a b => Sys2Proof.Machine.execCne d a b s
  | .clt d a b => Sys2Proof.Machine.execClt d a b s
  | .cle d a b => Sys2Proof.Machine.execCle d a b s
  | .cgt d a b => Sys2Proof.Machine.execCgt d a b s
  | .cge d a b => Sys2Proof.Machine.execCge d a b s
  | .lim d imm => Sys2Proof.Machine.execLim d imm s
  | .limh d imm => Sys2Proof.Machine.execLimh d imm s
  | .limx d imm => Sys2Proof.Machine.execLimx d imm s
  | .mov d a => Sys2Proof.Machine.execMov d a s
  | .wfld d h f => Sys2Proof.Machine.execWfld d h f s
  | .lea d a b => Sys2Proof.Machine.execLea d a b s
  | .addc d a b => Sys2Proof.Machine.execAddc d a b s
  | .cvti d a p dst src => Sys2Proof.Machine.execCvti d a p dst src s
  | .fadd d a b => Sys2Proof.Machine.execFadd d a b s
  | .fsub d a b => Sys2Proof.Machine.execFsub d a b s
  | .fmul d a b => Sys2Proof.Machine.execFmul d a b s
  | .fma d a b => Sys2Proof.Machine.execFma d a b s
  | .fms d a b => Sys2Proof.Machine.execFms d a b s
  | .fnma d a b => Sys2Proof.Machine.execFnma d a b s
  | .fmin d a b => Sys2Proof.Machine.execFmin d a b s
  | .fmax d a b => Sys2Proof.Machine.execFmax d a b s
  | .fabs d a => Sys2Proof.Machine.execFabs d a s
  | .fneg d a => Sys2Proof.Machine.execFneg d a s
  | .fceq d a b => Sys2Proof.Machine.execFceq d a b s
  | .fclt d a b => Sys2Proof.Machine.execFclt d a b s
  | .fcle d a b => Sys2Proof.Machine.execFcle d a b s
  | .fcun d a b => Sys2Proof.Machine.execFcun d a b s
  | .fclass d a => Sys2Proof.Machine.execFclass d a s
  | .frcp d a la => Sys2Proof.Machine.execFrcp d a la s
  | .frsq d a la => Sys2Proof.Machine.execFrsq d a la s
  | .fsqrt d a la => Sys2Proof.Machine.execFsqrt d a la s
  | .fdiv d a b => Sys2Proof.Machine.execFdiv d a b s
  | .fexp2 d a la => Sys2Proof.Machine.execFexp2 d a la s
  | .flog2 d a la => Sys2Proof.Machine.execFlog2 d a la s
  | .fsin d a la => Sys2Proof.Machine.execFsin d a la s
  | .fcos d a la => Sys2Proof.Machine.execFcos d a la s
  | .ftanh d a la => Sys2Proof.Machine.execFtanh d a la s
  | .frnd d a rc => Sys2Proof.Machine.execFrnd d a rc s
  | .ftoi d a u => Sys2Proof.Machine.execFtoi d a u s
  | .itof d a u => Sys2Proof.Machine.execItof d a u s
  | .cvt d a p fs => Sys2Proof.Machine.execCvt d a p fs s
  | .cvtf d a t => Sys2Proof.Machine.execCvtf d a t s
  | .pack d a b => Sys2Proof.Machine.execPack d a b s
  | .unpk d a p => Sys2Proof.Machine.execUnpk d a p s
  | .fscl d a b => Sys2Proof.Machine.execFscl d a b s
  | .cblk d a fs => Sys2Proof.Machine.execCblk d a fs s
  | .qnt d a p fs => Sys2Proof.Machine.execQnt d a p fs s
  | .dqnt d a p fs => Sys2Proof.Machine.execDqnt d a p fs s
  | .cblu d a h fs => Sys2Proof.Machine.execCblu d a h fs s
  | .fdot2 d a b => Sys2Proof.Machine.execFdot2 d a b s
  | .fdot4 d a b => Sys2Proof.Machine.execFdot4 d a b s
  | .shfl d a b => Sys2Proof.Machine.execShfl d a b s
  | .shflx d a imm => Sys2Proof.Machine.execShflx d a imm s
  | .shflu d a imm => Sys2Proof.Machine.execShflu d a imm s
  | .shfld d a imm => Sys2Proof.Machine.execShfld d a imm s
  | .bcst d a b => Sys2Proof.Machine.execBcst d a b s
  | .vany d a => Sys2Proof.Machine.execVany d a s
  | .vall d a => Sys2Proof.Machine.execVall d a s
  | .vbal d a => Sys2Proof.Machine.execVbal d a s
  | .red d a op => Sys2Proof.Machine.execRed d a op s
  | .scan d a x op => Sys2Proof.Machine.execScan d a x op s
  | .matchLanes d a => Sys2Proof.Machine.execMatchLanes d a s
  | .rdln d a b => Sys2Proof.Machine.execRdln d a b s
  | .wrln d a b => Sys2Proof.Machine.execWrln d a b s
  | .ld d a la sx sz => Sys2Proof.Machine.execLd d a la sx sz s
  | .st sz a b => Sys2Proof.Machine.execSt sz a b s
  | .lds d a la sx sz => Sys2Proof.Machine.execLds d a la sx sz s
  | .sts sz a b => Sys2Proof.Machine.execSts sz a b s
  | .lda d a la rmk sc => Sys2Proof.Machine.execLda d a la rmk sc s
  | .stl z sc a b => Sys2Proof.Machine.execStl z sc a b s
  | .ldnc d a la sx sz => Sys2Proof.Machine.execLdnc d a la sx sz s
  | .pref lv a => Sys2Proof.Machine.execPref lv a s
  | .aadd d a b => Sys2Proof.Machine.execAadd d a b s
  | .amin d a b => Sys2Proof.Machine.execAmin d a b s
  | .amax d a b => Sys2Proof.Machine.execAmax d a b s
  | .aand d a b => Sys2Proof.Machine.execAand d a b s
  | .aor d a b => Sys2Proof.Machine.execAor d a b s
  | .axor d a b => Sys2Proof.Machine.execAxor d a b s
  | .axch d a b => Sys2Proof.Machine.execAxch d a b s
  | .acas d a b => Sys2Proof.Machine.execAcas d a b s
  | .afadd d a b => Sys2Proof.Machine.execAfadd d a b s
  | .fence sc o => Sys2Proof.Machine.execFence sc o s
  | .stmap r a b => Sys2Proof.Machine.execStmap r a b s
  | .stunmap r => Sys2Proof.Machine.execStunmap r s
  | .stflush r => Sys2Proof.Machine.execStflush r s
  | .ldk d a la rmk sc => Sys2Proof.Machine.execLdk d a la rmk sc s
  | .stk sc a b => Sys2Proof.Machine.execStk sc a b s
  | .aaddk d a b => Sys2Proof.Machine.execAaddk d a b s
  | .ldcw d a la sx sz => Sys2Proof.Machine.execLdcw d a la sx sz s
  | .bar => Sys2Proof.Machine.execBar s
  | .nbara a n => Sys2Proof.Machine.execNbara a n s
  | .nbarw n => Sys2Proof.Machine.execNbarw n s
  | .nbaraw a n => Sys2Proof.Machine.execNbaraw a n s
  | .waitc cmp sc a b => Sys2Proof.Machine.execWaitc cmp sc a b s
  | .waitb sc a b => Sys2Proof.Machine.execWaitb sc a b s
  | .signal sc a b => Sys2Proof.Machine.execSignal sc a b s
  | .waita sc => Sys2Proof.Machine.execWaita sc s
  | .copy d a b => Sys2Proof.Machine.execCopy d a b s
  | .copy2d d a b => Sys2Proof.Machine.execCopy2d d a b s
  | .gath d a b => Sys2Proof.Machine.execGath d a b s
  | .scat d a b => Sys2Proof.Machine.execScat d a b s
  | .fill d a b => Sys2Proof.Machine.execFill d a b s
  | .rcopy d a b => Sys2Proof.Machine.execRcopy d a b s
  | .depn d a b => Sys2Proof.Machine.execDepn d a b s
  | .mstr a => Sys2Proof.Machine.execMstr a s
  | .rput d a b => Sys2Proof.Machine.execRput d a b s
  | .rget d a b => Sys2Proof.Machine.execRget d a b s
  | .tspawn d a => Sys2Proof.Machine.execTspawn d a s
  | .tnext => Sys2Proof.Machine.execTnext s
  | .tdone => Sys2Proof.Machine.execTdone s
  | .launch a => Sys2Proof.Machine.execLaunch a s
  | .joinc cmp sc a b => Sys2Proof.Machine.execJoinc cmp sc a b s
  | .trig d a => Sys2Proof.Machine.execTrig d a s
  | .tdisarm d a => Sys2Proof.Machine.execTdisarm d a s
  | .seqnew d => Sys2Proof.Machine.execSeqnew d s
  | .seqend a b => Sys2Proof.Machine.execSeqend a b s
  | .erd d f => Sys2Proof.Machine.execErd d f s
  | .ebkt d f => Sys2Proof.Machine.execEbkt d f s
  | .eop d p => Sys2Proof.Machine.execEop d p s
  | .eoprd d => Sys2Proof.Machine.execEoprd d s
  | .emark d f => Sys2Proof.Machine.execEmark d f s
  | .erdh d t p c => Sys2Proof.Machine.execErdh d t p c s
  | .sysrd d n => Sys2Proof.Machine.execSysrd d n s
  | .syswr d n => Sys2Proof.Machine.execSyswr d n s
  | .wlatch d u => Sys2Proof.Machine.execWlatch d u s
  | .keygen d w => Sys2Proof.Machine.execKeygen d w s
  | .keydel d => Sys2Proof.Machine.execKeydel d s
  | .tinv d k => Sys2Proof.Machine.execTinv d k s
  | .meter d => Sys2Proof.Machine.execMeter d s
  | .save d m => Sys2Proof.Machine.execSave d m s
  | .rest d => Sys2Proof.Machine.execRest d s
  | .halt d b => Sys2Proof.Machine.execHalt d b s
  | .clear d m => Sys2Proof.Machine.execClear d m s
  | .waiti d m => Sys2Proof.Machine.execWaiti d m s
  | .mnop => Sys2Proof.Machine.execMnop s
  | .mma acc fs ra rb => Sys2Proof.Machine.execMma acc fs ra rb s
  | .mmas acc fs ra rb => Sys2Proof.Machine.execMmas acc fs ra rb s
  | .mmav acc fs ra rb => Sys2Proof.Machine.execMmav acc fs ra rb s
  | .mtrn acc fs ra => Sys2Proof.Machine.execMtrn acc fs ra s
  | .mperm acc fs ra rb => Sys2Proof.Machine.execMperm acc fs ra rb s
  | .mred acc fs ra => Sys2Proof.Machine.execMred acc fs ra s
  | .accz acc => Sys2Proof.Machine.execAccz acc s
  | .accld acc ra => Sys2Proof.Machine.execAccld acc ra s
  | .accst acc fs rb => Sys2Proof.Machine.execAccst acc fs rb s
  | .ringd d sp dir n => Sys2Proof.Machine.execRingd d sp dir n s
  | .rwait n => Sys2Proof.Machine.execRwait n s
  | .rfree n => Sys2Proof.Machine.execRfree n s
  | .mbara c n => Sys2Proof.Machine.execMbara c n s
  | .mbarw n => Sys2Proof.Machine.execMbarw n s
  | .convset d wo => Sys2Proof.Machine.execConvset d wo s
  | .mloop d imm => Sys2Proof.Machine.execMloop d imm s
  | .mendl => Sys2Proof.Machine.execMendl s
  | .mend => Sys2Proof.Machine.execMend s
  | .mflag => Sys2Proof.Machine.execMflag s
  | .tileGrant cluster => Sys2Proof.Machine.execTileGrant cluster s
  | .ringWaitWake bid => Sys2Proof.Machine.execRingWaitWake bid s
  | .tickBoundary => Sys2Proof.Machine.execTickBoundary s
  | .tickUpdate samples => Sys2Proof.Machine.execTickUpdate samples s
  | .spendLimitReached core ctx => Sys2Proof.Machine.execSpendLimitReached core ctx s
  | .drainOverrun bid => Sys2Proof.Machine.execDrainOverrun bid s
  | .opSlewComplete quad => Sys2Proof.Machine.execOpSlewComplete quad s
  | .counterUpdate world ia delta => Sys2Proof.Machine.execCounterUpdate world ia delta s
  | .watchNotify tid arm => Sys2Proof.Machine.execWatchNotify tid arm s
  | .waitPoll tid arm => Sys2Proof.Machine.execWaitPoll tid arm s
  | .pendingLaunchTake part => Sys2Proof.Machine.execPendingLaunchTake part s
  | .launchAccept part => Sys2Proof.Machine.execLaunchAccept part s
  | .specialiseEvaluate launch => Sys2Proof.Machine.execSpecialiseEvaluate launch s
  | .specialiseTimeout launch => Sys2Proof.Machine.execSpecialiseTimeout launch s
  | .dispatchRound part => Sys2Proof.Machine.execDispatchRound part s
  | .coreRelatch bid => Sys2Proof.Machine.execCoreRelatch bid s
  | .blockRestore bid core => Sys2Proof.Machine.execBlockRestore bid core s
  | .blockSave bid => Sys2Proof.Machine.execBlockSave bid s
  | .blockFlush bid => Sys2Proof.Machine.execBlockFlush bid s
  | .joinPatienceExpired tid arm => Sys2Proof.Machine.execJoinPatienceExpired tid arm s
  | .launchComplete launch => Sys2Proof.Machine.execLaunchComplete launch s
  | .resumableFault bid => Sys2Proof.Machine.execResumableFault bid s
  | .faultCounterGrant part => Sys2Proof.Machine.execFaultCounterGrant part s
  | .faultResolution fault ok => Sys2Proof.Machine.execFaultResolution fault ok s
  | .stealRequest thief victim => Sys2Proof.Machine.execStealRequest thief victim s
  | .stealAnswer thief => Sys2Proof.Machine.execStealAnswer thief s
  | .gangReserveRequest launch part => Sys2Proof.Machine.execGangReserveRequest launch part s
  | .gangReserveTimeout launch => Sys2Proof.Machine.execGangReserveTimeout launch s
  | .gangRollbackDone launch => Sys2Proof.Machine.execGangRollbackDone launch s
  | .gangStartTick launch => Sys2Proof.Machine.execGangStartTick launch s
  | .engineOpStart cluster op => Sys2Proof.Machine.execEngineOpStart cluster op s
  | .engineOpComplete cluster op => Sys2Proof.Machine.execEngineOpComplete cluster op s
  | .engineOpFault cluster op => Sys2Proof.Machine.execEngineOpFault cluster op s
  | .depnNodeStart cluster op => Sys2Proof.Machine.execDepnNodeStart cluster op s
  | .seqendComplete slot => Sys2Proof.Machine.execSeqendComplete slot s
  | .keyInstallComplete slot => Sys2Proof.Machine.execKeyInstallComplete slot s
  | .sliceAccess req => Sys2Proof.Machine.execSliceAccess req s
  | .requestRetry tid arm => Sys2Proof.Machine.execRequestRetry tid arm s
  | .directoryRecall ma => Sys2Proof.Machine.execDirectoryRecall ma s
  | .releaseHint core world line => Sys2Proof.Machine.execReleaseHint core world line s
  | .promotionRequest core world line => Sys2Proof.Machine.execPromotionRequest core world line s
  | .releaseEntryTimeout core => Sys2Proof.Machine.execReleaseEntryTimeout core s
  | .freeDeclaration ma => Sys2Proof.Machine.execFreeDeclaration ma s
  | .sliceBlockMove src dst => Sys2Proof.Machine.execSliceBlockMove src dst s
  | .refresh slice bank => Sys2Proof.Machine.execRefresh slice bank s
  | .hotPageInterval => Sys2Proof.Machine.execHotPageInterval s
  | .patrolRead ma => Sys2Proof.Machine.execPatrolRead ma s
  | .pageRetire world gpa => Sys2Proof.Machine.execPageRetire world gpa s
  | .keySlotRecovery slice slot => Sys2Proof.Machine.execKeySlotRecovery slice slot s
  | .contextEnd ctx => Sys2Proof.Machine.execContextEnd ctx s
  | .errorRecordTake die => Sys2Proof.Machine.execErrorRecordTake die s
  | .cxlMemRead fn off len => Sys2Proof.Machine.execCxlMemRead fn off len s
  | .cxlMemWrite fn off bytes => Sys2Proof.Machine.execCxlMemWrite fn off bytes s
  | .hostMailboxRequest fn req => Sys2Proof.Machine.execHostMailboxRequest fn req s
  | .rensarWrite port hdr bytes => Sys2Proof.Machine.execRensarWrite port hdr bytes s
  | .rensarReadRequest port hdr => Sys2Proof.Machine.execRensarReadRequest port hdr s
  | .rensarReadResponse port hdr bytes => Sys2Proof.Machine.execRensarReadResponse port hdr bytes s
  | .rensarWriteAck port hdr => Sys2Proof.Machine.execRensarWriteAck port hdr s
  | .rensarErrorCompletion port hdr reason => Sys2Proof.Machine.execRensarErrorCompletion port hdr reason s
  | .rensarTimeout port txid => Sys2Proof.Machine.execRensarTimeout port txid s
  | .firmwareMessage die msg => Sys2Proof.Machine.execFirmwareMessage die msg s
  | .crarasDemandReport => Sys2Proof.Machine.execCrarasDemandReport s
  | .crarasDemand frm floor demand power => Sys2Proof.Machine.execCrarasDemand frm floor demand power s
  | .crarasGrant frm seq mw => Sys2Proof.Machine.execCrarasGrant frm seq mw s
  | .crarasGrantTimeout => Sys2Proof.Machine.execCrarasGrantTimeout s
  | .lockInterfaceRequest fn session => Sys2Proof.Machine.execLockInterfaceRequest fn session s
  | .startInterfaceRequest fn session => Sys2Proof.Machine.execStartInterfaceRequest fn session s
  | .stopInterfaceRequest fn session => Sys2Proof.Machine.execStopInterfaceRequest fn session s
  | .getDeviceInterfaceState fn session => Sys2Proof.Machine.execGetDeviceInterfaceState fn session s
  | .spdmSessionEnd session => Sys2Proof.Machine.execSpdmSessionEnd session s
  | .tdispConfigChange fn => Sys2Proof.Machine.execTdispConfigChange fn s
  | .nocCipherFailure src dst ctxs => Sys2Proof.Machine.execNocCipherFailure src dst ctxs s
  | .cipherFlowResume src dst => Sys2Proof.Machine.execCipherFlowResume src dst s
  | .cxlIdeFailure => Sys2Proof.Machine.execCxlIdeFailure s
  | .cxlLinkDown => Sys2Proof.Machine.execCxlLinkDown s
  | .rensarLaneFailure port lanes => Sys2Proof.Machine.execRensarLaneFailure port lanes s
  | .deviceReset img => Sys2Proof.Machine.execDeviceReset img s
  | .hostResetRequest => Sys2Proof.Machine.execHostResetRequest s
  | .checkpoint ports => Sys2Proof.Machine.execCheckpoint ports s
  | .timingReplay core cls => Sys2Proof.Machine.execTimingReplay core cls s
  | .droop domain => Sys2Proof.Machine.execDroop domain s
  | .droopTimeout domain => Sys2Proof.Machine.execDroopTimeout domain s
  | .thermalCeilingStep quad temp => Sys2Proof.Machine.execThermalCeilingStep quad temp s
  | .thermalTrip quad temp => Sys2Proof.Machine.execThermalTrip quad temp s
  | .thermalTripClear quad temp => Sys2Proof.Machine.execThermalTripClear quad temp s
  | .thermalSensorFail quad sensor => Sys2Proof.Machine.execThermalSensorFail quad sensor s
  | .thermalEmergency => Sys2Proof.Machine.execThermalEmergency s
  | .unitGate quad unit => Sys2Proof.Machine.execUnitGate quad unit s
  | .wakeRequest quad unit => Sys2Proof.Machine.execWakeRequest quad unit s
  | .wakeComplete quad unit good => Sys2Proof.Machine.execWakeComplete quad unit good s
  | .firmwareTimer die => Sys2Proof.Machine.execFirmwareTimer die s
  | .queueResetQueue fn part world => Sys2Proof.Machine.execQueueResetQueue fn part world s
  | .queueResetWhole fn world => Sys2Proof.Machine.execQueueResetWhole fn world s
  | .drainToken fn unit => Sys2Proof.Machine.execDrainToken fn unit s
  | .capRequestPackage watts override => Sys2Proof.Machine.execCapRequestPackage watts override s
  | .capRequestPartition target watts override => Sys2Proof.Machine.execCapRequestPartition target watts override s
  | .injectLlcSingle block sector check => Sys2Proof.Machine.execInjectLlcSingle block sector check s
  | .injectLlcDouble block sector check => Sys2Proof.Machine.execInjectLlcDouble block sector check s
  | .injectHbmDouble block sector check => Sys2Proof.Machine.execInjectHbmDouble block sector check s
  | .creditWrite place value => Sys2Proof.Machine.execCreditWrite place value s
  | .rangeRegisterWrite fn ctx rr word value => Sys2Proof.Machine.execRangeRegisterWrite fn ctx rr word value s
  | .scopePolicyWrite world value => Sys2Proof.Machine.execScopePolicyWrite world value s
  | .registerWrite place value => Sys2Proof.Machine.execRegisterWrite place value s
  | .keyInstallTimeout slot => Sys2Proof.Machine.execKeyInstallTimeout slot s
  | .txidHoldExpired port txid => Sys2Proof.Machine.execTxidHoldExpired port txid s
  | .droopEnd domain => Sys2Proof.Machine.execDroopEnd domain s
  | .stackTemperatureLimit stack temp => Sys2Proof.Machine.execStackTemperatureLimit stack temp s
  | .rensarLinkUp port worlds => Sys2Proof.Machine.execRensarLinkUp port worlds s
  | .cxlBackInvalidateResponse ma bytes => Sys2Proof.Machine.execCxlBackInvalidateResponse ma bytes s
  | .tileOperationComplete cluster => Sys2Proof.Machine.execTileOperationComplete cluster s
  | .invalidationComplete tag => Sys2Proof.Machine.execInvalidationComplete tag s

end Sys2Proof.Machine
end

