-- ==== Sys2Proof/Machine/Step.lean ====
section
/-! DEFINITION. One step of the device: the head of the agenda, or the next core's turn (log entry 4); and the
state in which the next step runs a given word (log entry 7). -/
namespace Sys2Proof.Machine
open Sys2Proof

/-- Perform what a fetch put in focus, unless a core would charge a context more than its grant for it (03 R77). -/
def issue (r : Except Stop (Option Instr) × State) : Host.Outcome State Fault Refusal :=
  match r with
  | (.ok (some i), s) =>
    match exec i s with
    | .next t => .next (keepGrants s t)
    | x => x
  | (_, s) => .next s

/-- A request from outside that was turned away is to be made again (01 R22). -/
def madeAgain (c : Choice) (s : State) : State :=
  if s.turnedAway then { s with again := s.again ++ [c], turnedAway := false } else s

/-- Perform a request from outside. -/
def request (c : Choice) (r : Host.Outcome State Fault Refusal) : Host.Outcome State Fault Refusal :=
  match r with
  | .next t => .next (madeAgain c t)
  | x => x

/-- Perform one choice. -/
def choose (s : State) : Choice → Host.Outcome State Fault Refusal
  | .event i => request (.event i) (exec i s)
  | .turn core => issue ((coreTurn core).run.run s)
  | .streamTurn bid => issue ((streamTurn bid).run.run s)
  | .evictL1 core key => .next (runAct (dropL1 core key) s)
  | .evictChunk bid chunk => .next (runAct (do promoteChunk bid chunk; recallChunk bid chunk) s)
  | .upset u => .next (runAct (softError u) s)
  | .hostStore ma bytes poison => request (.hostStore ma bytes poison) (.next (runAct (tried (hostOwnStore ma bytes poison)) s))
  | .mmioRead fn reg => .next (runAct (readRegister fn reg) s)
  | .queueFull slice full => .next (runAct (modSlice slice fun x => { x with full := full }) s)
  | .served die source => request (.served die source) (.next (runAct (serveSource die source) s))
  | .tdispArrives fn session kind => .next (runAct (tdispArrives fn session kind) s)
  | .tdispTaken => request .tdispTaken (.next (runAct (serves takeTdisp) s))
  | .peerRecord port hdr r => request (.peerRecord port hdr r) (.next (runAct (peerRecord port hdr r) s))
  | .measure nonce => .next (runAct (measurementResponse nonce) s)
  | .trained width speed => .next (runAct (linkTrained width speed) s)
  | .requeued bid => .next (runAct (requeueIdle bid) s)

/-- Writes that a slice has refused are made again before anything else, and blocks that close try again (log entry 4). -/
def settleLate (s : State) : State :=
  let s := if s.late.isEmpty then s else runAct retryLate s
  if s.closing.isEmpty then s else runAct retryClosing s

/-- The oldest request that was turned away is made again, before the step's own choice. -/
def settleAgain (s : State) : State :=
  match s.again with
  | [] => s
  | c :: rest =>
    match choose { s with again := rest } c with
    | .next t => t
    | _ => { s with again := rest }

/-- Without power a reset alone has an effect; any other choice is lost (21 R512). -/
def dark (s : State) : Choice → Host.Outcome State Fault Refusal
  | .event (.deviceReset img) => exec (.deviceReset img) s
  | _ => .next s

/-- The state in which a choice is performed: time has passed, nobody is in focus, refused writes and requests are made, and
the ready times of the matrix engines' entries are brought up to date (10 R288). -/
def begun (s : State) : State := noteReady (unfocus (settleAgain (settleLate (unfocus (tickTime s)))))

/-- One step: the head of the agenda, or the turn of the next core in rotation (log entry 4). -/
def step (s : State) : Host.Outcome State Fault Refusal :=
  match s.agenda with
  | c :: rest =>
    let s := { s with agenda := rest }
    if s.power then choose (begun s) c else dark s c
  | [] =>
    if s.power then choose (begun { s with rotor := (s.rotor + 1) % 768 }) (.turn s.rotor) else .next s

/-! ### Placing one instruction (log entry 7) -/

/-- Where the bundle of a placed word lies: VA, IA and machine address. -/
def placedAt : Nat := 65536

/-- The record of a launch of one team of 32 lanes with a window of 64, a stash of 4,096 bytes and one tile. -/
def placedWords : List DWord :=
  [BitVec.ofNat 64 placedAt, BitVec.ofNat 64 placedAt] ++ List.replicate 9 0#64
    ++ [BitVec.ofNat 64 (7 * 2 ^ 10 + 2 ^ 19 + 2 ^ 32)] ++ List.replicate 52 0#64

/-- Whether a word is a stream instruction and no team instruction. -/
def streamOnly (w : Nat) : Bool :=
  match decodeTeam w, decodeStream w with
  | .error _, .ok _ => true
  | _, _ => false

/-- Whether a word has an opcode of the firmware instructions (11 R322). -/
def firmwareOnly (w : Nat) : Bool := decide (0xf2 ≤ w / 16777216) && decide (w / 16777216 ≤ 0xfb)

/-- The binding time that a placed word is given: D where its opcode allows D, else T. -/
def placedBt (w : Nat) : Nat := if streamOnly w then 1 else if btAllowed (w / 16777216) .d then 0 else 1

/-- The bundle: the word in slot 1, and NOP or MNOP after it (07 R187, R209). -/
def placedBundle (w : Nat) : List (BitVec 8) :=
  bytesLE 4 (if streamOnly w then 0x5555 else placedBt w) ++ bytesLE 4 w ++ List.replicate 24 0#8

/-- The state with the instruction of a word placed so that the next step fetches and runs it: a block of one team
on program core 1, or on firmware core 0 in firmware mode, or a block with its stream bound; the bundle in memory
under world 1's key, and the translation of its page. -/
def State.withFetchWord (s : State) (nbits w : Nat) : State :=
  let w := w % 2 ^ Nat.min nbits 32
  let bid := s.nextId
  let fw := firmwareOnly w
  let core := if fw then 0 else 1
  let l := { Launch.blank with words := placedWords, world := 1, open_ := 1, frames := [0] }
  let t := { newTeam bid 0 l placedAt 0 with firmware := fw }
  { s with
    power := true
    mem := writeMem s.mem placedAt (placedBundle w)
    blocksMeta := put s.blocksMeta (placedAt / 512) ⟨15, some (1, 1), false, 0⟩
    llc := []
    keys := put s.keys 1 ⟨.world, 1, 1, false, []⟩
    tlb := put s.tlb (tlbKey placedAt 1 (sliceOf placedAt)) ⟨1, 1, 1, 1, 1, true, true, true, 1, 1, false⟩
    contexts := put s.contexts 0
      { contextOf s 0 with
        enable := true
        world := some 1
        rr := [(0, ⟨0x1000f#64, 1#64, 1#64⟩)] }
    cores := put s.cores core { coreOf s core with latch := some 1, cycle := 0, code := [] }
    launches := put s.launches bid l
    blocks := put s.blocks bid
      { newBlock s bid 0 0 with
        world := 1, core := core, frameIx := some 0, st := .resident, nteams := 1, stashSize := 4096, tiles := 1
        stream := if streamOnly w then { Stream.idle with bound := true, pc := placedAt, binder := bid * 8 } else Stream.idle }
    teams := put s.teams (bid * 8) t
    nextId := bid + 1
    late := []
    closing := []
    again := []
    turnedAway := false
    agenda := [if streamOnly w then .streamTurn bid else .turn core] }

end Sys2Proof.Machine
end

