-- ==== Sys2Proof/Safety.lean ====
section
/-! DEFINITION. The terms in which claims are stated: states that differ in charges alone, when an instruction is
ready to perform, where it leaves its arm, and the invariants of a run. -/
namespace Sys2Proof.Machine
open Sys2Proof

/-! ### Updates of the state's tables -/

/-- A table with one entry changed, when it is there. -/
def adjust {α : Type} (t : Tbl α) (k : Nat) (f : α → α) : Tbl α :=
  match find? t k with
  | some x => put t k (f x)
  | none => t

/-! The state with one entry of a table set. -/

def State.withTeam (s : State) (i : Nat) (x : Team) : State := { s with teams := put s.teams i x }
def State.withBlock (s : State) (i : Nat) (x : Block) : State := { s with blocks := put s.blocks i x }
def State.withCore (s : State) (i : Nat) (x : Core) : State := { s with cores := put s.cores i x }
def State.withQuad (s : State) (i : Nat) (x : Quad) : State := { s with quads := put s.quads i x }
def State.withLaunch (s : State) (i : Nat) (x : Launch) : State := { s with launches := put s.launches i x }
def State.withContext (s : State) (i : Nat) (x : Context) : State := { s with contexts := put s.contexts i x }
def State.withPartition (s : State) (i : Nat) (x : Partition) : State := { s with partitions := put s.partitions i x }
def State.withOp (s : State) (i : Nat) (x : EngineOp) : State := { s with ops := put s.ops i x }
def State.withFn (s : State) (i : Nat) (x : Fn) : State := { s with fns := put s.fns i x }
def State.withWorld (s : State) (i : Nat) (x : World) : State := { s with worlds := put s.worlds i x }
def State.withSlice (s : State) (i : Nat) (x : Slice) : State := { s with slices := put s.slices i x }
def State.withPort (s : State) (i : Nat) (x : Port) : State := { s with ports := put s.ports i x }
def State.withKey (s : State) (i : Nat) (x : KeySlot) : State := { s with keys := put s.keys i x }
def State.withEngine (s : State) (i : Nat) (x : Engine) : State := { s with engines := put s.engines i x }
def State.withFirmware (s : State) (i : Nat) (x : Firmware) : State := { s with fw := put s.fw i x }

/-! ### Charges (03 R68, R71, R72, R78; 11 R341; 21 R496, R497) -/

/-- A team without its mark counter. -/
def Team.unmarked (t : Team) : Team := { t with mark := 0 }

/-- A block without its spent charge. -/
def Block.unspent (b : Block) : Block := { b with spent := 0 }

/-- A core without its charge sets and its last pass. -/
def Core.uncharged (c : Core) : Core := { c with charges := [], lastPass := none, row := 0 }

/-- A quadrant without its count of passes. -/
def Quad.uncounted (q : Quad) : Quad := { q with passes := 0 }

/-- Two states that differ at most in what compute-domain charges change: charge sets and last passes of cores,
the quadrants' counts of passes, the blocks' spent charges, the teams' mark counters, and the overhead account. -/
structure ChargedOnly (s t : State) : Prop where
  rest : t = { s with teams := t.teams, blocks := t.blocks, cores := t.cores, quads := t.quads, baseHost := t.baseHost }
  teams : ∀ k, (find? t.teams k).map Team.unmarked = (find? s.teams k).map Team.unmarked
  blocks : ∀ k, (find? t.blocks k).map Block.unspent = (find? s.blocks k).map Block.unspent
  cores : ∀ k, (coreOf t k).uncharged = (coreOf s k).uncharged
  quads : ∀ k, (quadOf t k).uncounted = (quadOf s k).uncounted

/-! ### Performing an instruction of a team -/

/-- An instruction with declaration g is ready to perform: its arm is in focus, no check of 18 R425 fails, the v
registers that it names are resident (07 R198), nothing of it has been performed before (04 R100), and no lane
reads a poisoned register (20 R473). The checks of its own that come before residency pass too (18 R425 step 9). -/
structure Prepared (g : Cx → Sig) (s : State) (c : Cx) : Prop where
  focus : s.focus = .team c.tid c.arm c.bt
  here : cxOf s c.tid c.arm c.bt = some c
  legal : precheck s c (g c) = none
  early : (g c).early.run.run s = (.ok (), s)
  resident : ∀ x ∈ touched c (g c), x < c.t.lo + c.t.frame
  fresh : c.a.redo = none
  clean : poisonedLanes c (g c) = 0

/-- The place of an arm after an instruction (07 R185, 08 R224). -/
def placeAfter (c : Cx) (x : Arm) : Next → Nat × Nat
  | .on => nextPlace c.a.pc c.a.slot
  | .to t => (t, 1)
  | .back b k => (b, k)
  | .gone => (x.pc, x.slot)

/-- An arm that has performed: it stands at its next place with nothing to wait for or to redo. -/
def arrived (c : Cx) (g : Sig) (n : Next) (x : Arm) : Arm :=
  { x with
    windows := nextWindows c g n.taken, redo := none, wait := .none, joined := false
    pc := (placeAfter c x n).1, slot := (placeAfter c x n).2
    came := if n = .gone then x.came else pcOf c.a.pc c.a.slot }

/-- The state s in which the instruction's team stands as u with its arm moved on. -/
def movedOn (s : State) (c : Cx) (g : Sig) (u : Team) (n : Next) : State :=
  s.withTeam c.tid (match armOf u c.arm with
    | some x => withArm u c.arm (some (arrived c g n x))
    | none => u)

/-- The instruction of declaration g has completed with the next place n: the next state is s with the team u and
its arm moved on, but for charges. -/
def Completes (o : Host.Outcome State Fault Refusal) (s : State) (c : Cx) (g : Sig) (u : Team) (n : Next) : Prop :=
  ∃ t, o = .next t ∧ ChargedOnly (movedOn s c g u n) t

/-- An action that completes: from s it answers a and leaves t. -/
def Answers {α : Type} (m : Act α) (s : State) (a : α) (t : State) : Prop := m.run.run s = (.ok a, t)

/-- An action that ends in a stop: from s it stops with e and leaves t. -/
def Stops {α : Type} (m : Act α) (s : State) (e : Stop) (t : State) : Prop := m.run.run s = (.error e, t)

/-- Accesses of lanes in turn (05 R133), each of which completes with the answer listed for its lane; `g` is what the
machine does with the answer before the next. -/
inductive LanesAnswer {α : Type} (f : Nat → Act α) (g : Nat → α → State → State) : List (Nat × α) → State → State → Prop where
  | nil (s : State) : LanesAnswer f g [] s s
  | cons (l : Nat) (x : α) (r : List (Nat × α)) (s t u : State) (h : Answers (f l) s x t)
      (k : LanesAnswer f g r (g l x t) u) : LanesAnswer f g ((l, x) :: r) s u

/-! ### The values of integer instructions (08 R213, R236-R240) -/

/-- An element as a number, signed or unsigned. -/
def elemInt (sg : Bool) (w x : Nat) : Int := if sg then signed w x else (x % 2 ^ w : Nat)

/-- The rule of an instruction that computes on numbers: width, old d, x and y. -/
abbrev IntRule := Nat → Int → Int → Int → Int

/-- 08 R236 and R237, exact before the result is taken modulo 2^w: the destination, the source, the second operand,
whether d is read, and the rule. -/
def intRule : Instr → Option (Opnd × Opnd × IntArg × Role × IntRule)
  | .add d a b => some (d, a, .reg b, .dst, fun _ _ x y => x + y)
  | .sub d a b => some (d, a, .reg b, .dst, fun _ _ x y => x - y)
  | .addi d a n => some (d, a, .simm n, .dst, fun _ _ x y => x + y)
  | .mul d a b => some (d, a, .reg b, .dst, fun _ _ x y => x * y)
  | .mulh d a b => some (d, a, .reg b, .dst, fun w _ x y => x * y / 2 ^ w)
  | .mad d a b => some (d, a, .reg b, .both, fun _ z x y => z + x * y)
  | .div d a b => some (d, a, .reg b, .dst, fun _ _ x y => if y = 0 then -1 else x.tdiv y)
  | .rem d a b => some (d, a, .reg b, .dst, fun _ _ x y => if y = 0 then x else x.tmod y)
  | .min d a b => some (d, a, .reg b, .dst, fun _ _ x y => if y < x then y else x)
  | .max d a b => some (d, a, .reg b, .dst, fun _ _ x y => if x < y then y else x)
  | .abs d a => some (d, a, .imm 0, .dst, fun _ _ x _ => if x < 0 then -x else x)
  | .neg d a => some (d, a, .imm 0, .dst, fun _ _ x _ => -x)
  | _ => none

/-- The rule of an instruction that computes on bits: x and y. -/
abbrev BitRule := (w : Nat) → BitVec w → BitVec w → BitVec w

/-- 08 R236, R238 and R239: logic, shifts by the unsigned value of y, carry, and counts of bits. -/
def bitRule : Instr → Option (Opnd × Opnd × IntArg × BitRule)
  | .and d a b => some (d, a, .reg b, fun _ x y => x &&& y)
  | .or d a b => some (d, a, .reg b, fun _ x y => x ||| y)
  | .xor d a b => some (d, a, .reg b, fun _ x y => x ^^^ y)
  | .not d a => some (d, a, .imm 0, fun _ x _ => ~~~x)
  | .andi d a n => some (d, a, .simm n, fun _ x y => x &&& y)
  | .ori d a n => some (d, a, .imm n, fun _ x y => x ||| y)
  | .xori d a n => some (d, a, .imm n, fun _ x y => x ^^^ y)
  | .shl d a b => some (d, a, .reg b, fun _ x y => x <<< y.toNat)
  | .shli d a n => some (d, a, .imm n, fun _ x y => x <<< y.toNat)
  | .shr d a b => some (d, a, .reg b, fun _ x y => x >>> y.toNat)
  | .shri d a n => some (d, a, .imm n, fun _ x y => x >>> y.toNat)
  | .sha d a b => some (d, a, .reg b, fun _ x y => x.sshiftRight y.toNat)
  | .shai d a n => some (d, a, .imm n, fun _ x y => x.sshiftRight y.toNat)
  | .rol d a b => some (d, a, .reg b, fun _ x y => x.rotateLeft y.toNat)
  | .addc d a b => some (d, a, .reg b, fun w x y => if 2 ^ w ≤ x.toNat + y.toNat then 1#w else 0#w)
  | .clz d a => some (d, a, .imm 0, fun w x _ => BitVec.ofNat w (if x = 0#w then w else w - 1 - Nat.log2 x.toNat))
  | .popc d a => some (d, a, .imm 0, fun w x _ => BitVec.ofNat w ((List.range w).filter fun i => x.getLsbD i).length)
  | .brev d a => some (d, a, .imm 0, fun w x _ => BitVec.ofNat w (maskValue ((List.range w).filter fun i => x.getLsbD (w - 1 - i))))
  | _ => none
where
  /-- The number with ones at the listed bits. -/
  maskValue (l : List Nat) : Nat := l.foldl (fun n i => n + 2 ^ i) 0

/-- 08 R240: when a compare holds. -/
def cmpRule : Instr → Option (Nat × Opnd × Opnd × (Int → Int → Bool))
  | .ceq d a b => some (d, a, b, fun x y => decide (x = y))
  | .cne d a b => some (d, a, b, fun x y => decide (x ≠ y))
  | .clt d a b => some (d, a, b, fun x y => decide (x < y))
  | .cle d a b => some (d, a, b, fun x y => decide (x ≤ y))
  | .cgt d a b => some (d, a, b, fun x y => decide (y < x))
  | .cge d a b => some (d, a, b, fun x y => decide (y ≤ x))
  | _ => none

/-- The floating-point register forms: their declaration and what they do to their team. Arithmetic (09 R251),
compares (R252), class (R253), special functions (R254, R255), rounding and conversion (R256-R258, R260) and short dot
products (R264). -/
def floatForm : Instr → Option ((Cx → Sig) × (Cx → Team → Team))
  | .fadd d a b => some (arithSig 0x50 false true d a b, arithPut false true faddFn d a b)
  | .fsub d a b => some (arithSig 0x51 false true d a b, arithPut false true fsubFn d a b)
  | .fmul d a b => some (arithSig 0x52 false true d a b, arithPut false true fmulFn d a b)
  | .fma d a b => some (arithSig 0x53 true true d a b, arithPut true true fmaFn d a b)
  | .fms d a b => some (arithSig 0x54 true true d a b, arithPut true true fmsFn d a b)
  | .fnma d a b => some (arithSig 0x55 true true d a b, arithPut true true fnmaFn d a b)
  | .fmin d a b => some (arithSig 0x56 false false d a b, arithPut false false fminFn d a b)
  | .fmax d a b => some (arithSig 0x57 false false d a b, arithPut false false fmaxFn d a b)
  | .fdiv d a b => some (fdivSig d a b, arithPut false true fdivFn d a b)
  | .fscl d a b => some (arithSig 0x6f false true d a b, arithPut false true fsclFn d a b)
  | .fabs d a => some (bitsSig 0x58 d a, bitsPut fabsFn d a)
  | .fneg d a => some (bitsSig 0x59 d a, bitsPut fnegFn d a)
  | .fclass d a => some (bitsSig 0x5e d a, bitsPut classMask d a)
  | .fceq d a b => some (fcmpSig 0x5a d a b, fcmpPut fceqFn d a b)
  | .fclt d a b => some (fcmpSig 0x5b d a b, fcmpPut fcltFn d a b)
  | .fcle d a b => some (fcmpSig 0x5c d a b, fcmpPut fcleFn d a b)
  | .fcun d a b => some (fcmpSig 0x5d d a b, fcmpPut fcunFn d a b)
  | .frcp d a la => some (specialSig 0x5f true d a la, specialPut 0x5f d a)
  | .frsq d a la => some (specialSig 0x60 true d a la, specialPut 0x60 d a)
  | .fsqrt d a la => some (specialSig 0x61 true d a la, specialPut 0x61 d a)
  | .fexp2 d a la => some (specialSig 0x63 false d a la, specialPut 0x63 d a)
  | .flog2 d a la => some (specialSig 0x64 false d a la, specialPut 0x64 d a)
  | .fsin d a la => some (specialSig 0x65 false d a la, specialPut 0x65 d a)
  | .fcos d a la => some (specialSig 0x66 false d a la, specialPut 0x66 d a)
  | .ftanh d a la => some (specialSig 0x67 false d a la, specialPut 0x67 d a)
  | .frnd d a rc => some (frndSig d a rc, frndPut d a rc)
  | .ftoi d a u => some (convSig 0x69 d a, ftoiPut d a u)
  | .itof d a u => some (convSig 0x6a d a, itofPut d a u)
  | .cvtf d a t => some (cvtfSig d a t, cvtfPut d a t)
  | .pack d a b => some (packSig d a b, packPut d a b)
  | .unpk d a p => some (unpkSig d a p, unpkPut d a p)
  | .fdot2 d a b => some (fdot2Sig d a b, fdot2Put d a b)
  | .fdot4 d a b => some (fdot4Sig d a b, fdot4Put d a b)
  | _ => none

/-- 09 R266: the lane from which a lane of a shuffle takes its value: the declaration, the destination, the source,
and the index by lane. -/
def shuffleForm : Instr → Option ((Cx → Sig) × Opnd × Opnd × (Cx → Nat → Int))
  | .shfl d a b => some (shuffleSig 0x80 d a [⟨b, .src, false⟩], d, a, fun c l => ((opWord c l b).toNat % 1024 : Nat))
  | .shflx d a n => some (shuffleSig 0x81 d a [], d, a, fun _ l => (l ^^^ n : Nat))
  | .shflu d a n => some (shuffleSig 0x82 d a [], d, a, fun _ l => (l : Int) - n)
  | .shfld d a n => some (shuffleSig 0x83 d a [], d, a, fun _ l => (l : Int) + n)
  | .bcst d a b => some (shuffleSig 0x84 d a [⟨b, .scalar, false⟩], d, a, fun c _ => ((opScalar c b).toNat : Nat))
  | _ => none

/-- Every executing lane is a member (09 R265). -/
def membersHold (c : Cx) : Prop := c.a.exec &&& ~~~members c = 0

/-- The lanes whose value is in question: of the arm's lanes those for which a test holds. -/
def armLanes (c : Cx) (p : Nat → Bool) : List Nat := (lanesOf c.t.lanes c.a.exec).filter p

/-! ### Stacks and traps (02 R44, R45; 17 R400-R406) -/

/-- Stack k has room for one more entry without a spill: fewer than 256 entries on it, and fewer than 16 of the team's
in hardware. -/
def hasRoom (t : Team) (k : Nat) : Prop := stackDepth (stackOf t k) < 256 ∧ hwHeld t < 16

/-- The team with an entry pushed onto stack k. -/
def pushed (t : Team) (k : Nat) (e : StackEntry) : Team :=
  { withStack t k ⟨{ e with age := t.pushes + 1 } :: (stackOf t k).hw, (stackOf t k).spilled⟩ with pushes := t.pushes + 1 }

/-- The team with the top hardware entry of an arm's stack gone. -/
def popped (t : Team) (k : Nat) : Team := withStack t k ⟨(stackOf t k).hw.tail, (stackOf t k).spilled⟩

/-- The arm of a context changed in a team. -/
def armSet (c : Cx) (u : Team) (f : Arm → Arm) : Team :=
  match armOf u c.arm with
  | some x => withArm u c.arm (some (f x))
  | none => u

/-- The arm can take a trap to its launch's handler (17 R406): there is one, neither arm is inside a handler, nothing
lies in the spill area, there is room for the entry, and the code is not residual code. -/
structure TakesTraps (c : Cx) : Prop where
  handler : launchHandler c.l ≠ 0
  plainCode : c.b.residual = false
  hardware : ∀ k, k < 3 → (stackOf c.t k).spilled = 0
  free : ∀ k, k < 3 → hwHolds (stackOf c.t k) .trap = false
  room : hasRoom c.t (stackIx c.t c.arm)

/-- The team once a trap has been taken (17 R403-R406): the TRAP entry holds the place after the trapped instruction,
the mode and the execution mask; s44 the PC, s45 the cause, s46 the detail, s47 the lane word; m6 the faulted lanes and
m7 the completed ones; and the arm stands at slot 1 of the handler. What residual code left unwritten is written first
(12 R373). -/
def trapEntered (c : Cx) (t : Trap) (u : Team) : Team :=
  let u := giveOwed c.arm (armSet c u fun x => { x with windows := [], redo := none, wait := .none, joined := false })
  let u := pushed u (stackIx c.t c.arm)
    ⟨.trap, false, (nextPlace c.a.pc c.a.slot).2, c.a.mode, 0, (nextPlace c.a.pc c.a.slot).1, launchHandler c.l, c.a.exec, 0⟩
  let pc := pcOf c.a.pc c.a.slot
  let u := putS (putS (putS (putS u 44 (BitVec.ofNat 64 pc)) 45 (causeWord t)) 46 (BitVec.ofNat 64 t.detail)) 47
    (BitVec.ofNat 64 t.laneWord)
  let u := { u with mreg := wr (wr u.mreg 6 (t.faulted.getD (if c.bt = .d then c.gm else c.a.exec))) 7 t.completed }
  armSet c u fun x => { x with held := none, pc := launchHandler c.l, slot := 1, came := pc }

/-- The trap has been taken: the next state is s with the team as `trapEntered` says, but for charges. -/
def Traps (o : Host.Outcome State Fault Refusal) (s : State) (c : Cx) (t : Trap) (u : Team) : Prop :=
  ∃ v, o = .next v ∧ ChargedOnly (s.withTeam c.tid (trapEntered c t u)) v

/-- The instruction's arm waits: the next state is s with the arm waiting, and nothing else changed. -/
def Waits (o : Host.Outcome State Fault Refusal) (s : State) (c : Cx) (u : Team) (w : Wait) : Prop :=
  ∃ v, o = .next v ∧ v.teams = put s.teams c.tid (armSet c u fun x => { x with wait := w }) ∧ { v with teams := s.teams } = s

/-! ### Barriers (09 R280, R281) -/

/-- A numbered barrier after one arrival of a team with count k: the first arrival of a generation sets the count
expected, and the last completes it. -/
def arrivalOf (x : NBar) (k idx : Nat) : NBar :=
  if x.arrivals + 1 = k then ⟨x.completed + 1, k, 0, 0, false⟩
  else { x with expected := k, arrivals := x.arrivals + 1, arrived := x.arrived ||| 2 ^ idx }

/-- The state after the arrival of a team that stands as u: who waits looks again when the generation is complete. -/
def arrivedAt (s : State) (c : Cx) (n k : Nat) (u : Team) : State :=
  let t := (s.withTeam c.tid u).withBlock c.t.bid { c.b with nbar := put c.b.nbar n (arrivalOf (nbarOf c.b n) k c.t.idx) }
  if (nbarOf c.b n).arrivals + 1 = k then runAct (wakeBarriers c.t.bid) t else t

/-! ### Loads, stores and atomics (09 R269-R276) -/

/-- An instruction whose lanes each read, or read and write, and put what they read in d: its declaration; what comes
before; the lanes that take part; the alignment asked of the address operand; the access of a lane in a D slot, and the
one access of a T slot; whether the value is sign-extended; whether it writes memory; and what comes after. -/
structure ReadForm where
  sig : Cx → Sig
  before : Cx → Act Unit
  lanes : Cx → List Nat
  align : Cx → Nat
  addr : Opnd
  dst : Opnd
  lane : Cx → Nat → Act (List (BitVec 8))
  one : Cx → Act (List (BitVec 8))
  sx : Bool
  writes : Bool
  after : Cx → Act Unit

/-- The form of an atomic (09 R276). -/
def atomicForm (op : Nat) (role : Role) (ok : Nat → Bool) (fn : AtomicFn) (d a b : Opnd) : ReadForm :=
  ⟨atomicSig op role ok d a b, releaseFenced, storeLanes, wideBytes, a, d, fun c l => atomicLane fn d a b c l,
    fun c => atomicLane fn d a b c 0, false, true, fun _ => pure ()⟩

/-- The lane that a T-slot load names (17 R405). -/
def firstOf (c : Cx) : Nat := (lanesOf c.t.lanes c.a.exec).headD 0

/-- The loads and atomics of 09 R272, R274 and R276. -/
def readForm : Instr → Option ReadForm
  | .ld d a la sx sz => some ⟨fun _ => loadSig 0x90 clsL1 true d a la sx sz, fun _ => pure (),
      fun c => lanesOf c.t.lanes c.gm, fun _ => sizeBytes sz, a, d,
      fun c l => globalLoad c d (sizeBytes sz) sx true l (addrOf c a l),
      fun c => globalLoad c d (sizeBytes sz) sx true (firstOf c) (addrOf c a 0), sx, false, fun _ => pure ()⟩
  | .ldnc d a la sx sz => some ⟨fun _ => loadSig 0x96 clsL1 true d a la sx sz, fun _ => pure (),
      fun c => lanesOf c.t.lanes c.gm, fun _ => sizeBytes sz, a, d,
      fun c l => globalLoad c d (sizeBytes sz) sx false l (addrOf c a l),
      fun c => globalLoad c d (sizeBytes sz) sx false (firstOf c) (addrOf c a 0), sx, false,
      fun _ => pure ()⟩
  | .lds d a la sx sz => some ⟨fun _ => loadSig 0x92 clsStash false d a la sx sz, fun _ => pure (),
      fun c => lanesOf c.t.lanes c.gm, fun _ => 1, a, d,
      fun c l => stashLoad c (sizeBytes sz) (offsetOf c a l), fun c => stashLoad c (sizeBytes sz) (offsetOf c a 0), sx, false, fun _ => pure ()⟩
  | .lda d a la rmk sc => some ⟨fun c =>
        { plain 0x94 [⟨d, .dst, decide (wideBytes c = 8)⟩, ⟨a, .src, true⟩] (.passes clsL1) with
          values := scopeOk sc rmk
          scope := some (sc, rmk)
          la := some (la, d, decide (wideBytes c = 8)) },
      fun c => acquireAt c sc, fun c => lanesOf c.t.lanes c.gm, wideBytes, a, d,
      fun c l => if rmk then homeRead c d (wideBytes c) true l (addrOf c a l)
        else globalLoad c d (wideBytes c) false true l (addrOf c a l),
      fun c => if rmk then homeRead c d (wideBytes c) true (firstOf c) (addrOf c a 0)
        else globalLoad c d (wideBytes c) false true (firstOf c) (addrOf c a 0), false, false, fun _ => pure ()⟩
  | .aadd d a b => some (atomicForm 0x98 .dst intAtomic aaddFn d a b)
  | .amin d a b => some (atomicForm 0x99 .dst intAtomic aminFn d a b)
  | .amax d a b => some (atomicForm 0x9a .dst intAtomic amaxFn d a b)
  | .aand d a b => some (atomicForm 0x9b .dst anyType aandFn d a b)
  | .aor d a b => some (atomicForm 0x9c .dst anyType aorFn d a b)
  | .axor d a b => some (atomicForm 0x9d .dst anyType axorFn d a b)
  | .axch d a b => some (atomicForm 0x9e .dst anyType axchFn d a b)
  | .acas d a b => some (atomicForm 0x9f .both anyType acasFn d a b)
  | .afadd d a b => some (atomicForm 0xa0 .dst isFloat afaddFn d a b)
  | _ => none

/-- A store: its declaration, the alignment, the address operand, the access of a lane (lane 0 for a T slot), and what
a release asks, before the accesses and once they have performed. -/
structure StoreForm where
  sig : Cx → Sig
  align : Cx → Nat
  addr : Opnd
  lane : Cx → Nat → Act Unit
  rel : Cx → Act Unit

/-- The stores of 09 R273 and R274. -/
def storeForm : Instr → Option StoreForm
  | .st sz a b => some ⟨fun _ => storeSig 0x91 clsL1 true sz a b, fun _ => sizeBytes sz, a,
      fun c l => globalStore c none (addrOf c a l) (storeData c b (sizeBytes sz) l), releaseFenced⟩
  | .sts sz a b => some ⟨fun _ => storeSig 0x93 clsStash false sz a b, fun _ => 1, a,
      fun c l => stashStore c (offsetOf c a l) (storeData c b (sizeBytes sz) l), releaseFenced⟩
  | .stl z sc a b => some ⟨fun _ => { plain 0x95 [⟨a, .src, true⟩, ⟨b, .src, z⟩] (.passes clsL1) with
        values := scopeOk sc false
        scope := some (sc, false) }, fun _ => if z then 8 else 4, a,
      fun c l => globalStore c (some sc) (addrOf c a l) (storeData c b (if z then 8 else 4) l), fun c => do releaseAt c sc; releaseFenced c⟩
  | _ => none

/-! ### Where an access is served (04 R92-R107) -/

/-- The home slice of an IA serves a requester's accesses there: no flow to it is stopped and it refuses nothing; it holds
the combined pair, which allows reads and writes, with a current key; its line is whole and sound; and neither a core's
chunk, nor the host, holds those bytes. -/
structure Serves (s : State) (r : Req) (ia : Nat) (e : TlbEntry) (l : LlcLine) : Prop where
  flows : flowStopped s r.src (routerOfSlice (sliceOf ia)) = false
  takes : (sliceState s (sliceOf ia)).refuse = false ∧ (sliceState s (sliceOf ia)).full = false
  pair : find? s.tlb (tlbKey ia r.world (sliceOf ia)) = some e
  permitted : e.rd = true ∧ e.wr = true ∧ e.erased = false
  replicas : (keyOf s e.slot).badReplicas.contains (sliceOf ia) = false
  key : keyCurrent s e.slot e.gen = true
  reached : hostLost s (maOf e ia) = false
  line : find? s.llc (llcKey (maOf e ia) e.slot) = some l
  whole : l.valid = 0xff ∧ l.poison = false ∧ l.single = 0 ∧ l.double = 0
  alone : chunkOwner s (maOf e ia) = none ∧ find? s.hostOwned (maOf e ia / 64) = none

/-- A VA of a team outside its block's mapped regions, whose range register gives an IA of this package, cached in the
core's L1 in a line with write permission that the host has not taken. -/
structure LineTakes (s : State) (c : Cx) (va ia : Nat) : Prop where
  unmapped : regionFor c.b va = none
  range : ∃ cache, rangeTranslate (contextOf s c.b.ctx) va .write = some (ia, cache) ∧ cache ≠ 2
  near : peerOf s ia = none
  line : ∃ l, find? (coreOf s c.b.core).l1 (l1Key ia c.b.world) = some l ∧ l.wrOk = true ∧
    hostOwns s l.ma = false

/-- L1 lines of a world after stores of bytes at IAs, in their order, each of which hits its line. -/
def storedLines (world owner : Nat) (t : Tbl L1Line) (l : List (Nat × List (BitVec 8))) : Tbl L1Line :=
  l.foldl (fun t e => adjust t (l1Key e.1 world) fun x =>
    { x with bytes := putBytes x.bytes (e.1 % 64) e.2, dirty := x.dirty ||| byteMask (e.1 % 64) e.2.length, owner := owner }) t

/-- A block's stash after stores of bytes at offsets, in their order: words wholly written lose their poison (20 R471). -/
def storedStash (b : Block) (l : List (Nat × List (BitVec 8))) : Block :=
  l.foldl (fun b e => { b with
    stash := putBytes b.stash e.1 e.2
    stashPoison := b.stashPoison.filter fun w => !(decide (e.1 ≤ 4 * w) && decide (4 * w + 4 ≤ e.1 + e.2.length)) }) b

/-- The lanes whose addresses a store names: those that take part in a D slot, lane 0 for the one of a T slot. -/
def namedLanes (c : Cx) : List Nat := if c.bt = .d then storeLanes c else [0]

/-- The team of an arm stands after an instruction that goes on: at its next place, with nothing to wait for. -/
def Moved (t : State) (c : Cx) : Prop :=
  ∃ u x, find? t.teams c.tid = some u ∧ armOf u c.arm = some x ∧ (x.pc, x.slot) = nextPlace c.a.pc c.a.slot ∧ x.wait = .none

/-! ### Engines and keys (10 R309-R313, 11 R334) -/

/-- The engine commands: kind, opcode, and operands. -/
def cmdForm : Instr → Option (OpKind × Nat × Opnd × Opnd × Opnd)
  | .copy d a b => some (.copy, 0xc0, d, a, b)
  | .copy2d d a b => some (.copy2d, 0xc1, d, a, b)
  | .gath d a b => some (.gath, 0xc2, d, a, b)
  | .scat d a b => some (.scat, 0xc3, d, a, b)
  | .fill d a b => some (.fill, 0xc4, d, a, b)
  | .rcopy d a b => some (.rcopy, 0xc5, d, a, b)
  | .rput d a b => some (.rput, 0xc8, d, a, b)
  | .rget d a b => some (.rget, 0xc9, d, a, b)
  | _ => none

/-- The state in which a slot is being installed for an arm: the slot is a key of its world that is not yet ready, and
the job to end it is noted. -/
def installing (s : State) (slot : Nat) (st : SlotState) (world : Nat) (c : Cx) (d : Opnd) : State :=
  { s.withKey slot { keyOf s slot with st := st, owner := world, installing := true, badReplicas := [] } with
    keyJobs := put s.keyJobs s.nextId (.install slot c.tid c.arm (destCode d))
    nextId := s.nextId + 1 }

/-! ### The matrix stream (10 R286-R290) -/

/-- A stream where an instruction leaves it. -/
def streamAt (x : Sx) (n : SNext) (st : Stream) : Stream :=
  match n with
  | .on => { st with pc := (nextPlace x.st.pc x.st.slot).1, slot := (nextPlace x.st.pc x.st.slot).2 }
  | .to b => { st with pc := b, slot := 1 }
  | .stay => st

/-- The stream instruction has performed: the next state is s with the block as b, its stream moved on, but for
charges. -/
def StreamGoes (o : Host.Outcome State Fault Refusal) (s : State) (x : Sx) (b : Block) (n : SNext) : Prop :=
  ∃ t, o = .next t ∧ ChargedOnly (s.withBlock x.bid { b with stream := streamAt x n b.stream }) t

/-- The tile operations and their bodies. -/
def tileForm : Instr → Option (Sx → Act Nat)
  | .accz acc => some (acczBody acc)
  | .accld acc ra => some (accldBody acc ra)
  | .accst acc fs rb => some (accstBody acc fs rb)
  | .mtrn acc fs ra => some (moveBody acc fs ra none fun _ => .transpose)
  | .mperm acc fs ra rb => some (moveBody acc fs ra (some rb) .permute)
  | .mred acc fs ra => some (moveBody acc fs ra none fun _ => .rows)
  | .mma acc fs ra rb => some (passBody acc fs ra rb false false)
  | .mmas acc fs ra rb => some (passBody acc fs ra rb false true)
  | .mmav acc fs ra rb => some (passBody acc fs ra rb true false)
  | _ => none

/-- The stream's ring n is held with a slot of at least k bytes, in an unmapped part of the stash without poison there. -/
structure SlotHeld (x : Sx) (n : Nat) (out : Bool) (k : Nat) (r : Ring) : Prop where
  ring : find? x.st.rings n = some r
  held : r.held = true ∧ r.dir = out
  room : k ≤ r.size
  unmapped : ∀ j, j < k → regionAt x.b (slotOffset r + j) = none
  sound : stashBad x.b (slotOffset r) k = false

/-- The bytes of a held slot. -/
def slotData (x : Sx) (r : Ring) (k : Nat) : List (BitVec 8) := lineBytes x.b.stash (slotOffset r) k

/-- The stream may perform a tile operation on a tile: the engine is granted to its block, the tile is the launch's and
without poison. -/
structure TileReady (s : State) (x : Sx) (bt : Bt) (acc : Nat) : Prop where
  focus : s.focus = .stream x.bid bt
  here : sxOf s x.bid = some x
  granted : (engineOf s x.cluster).granted = some x.bid
  tile : acc < launchTiles x.l
  clean : ∀ k ∈ x.b.tilePoison, k / 4096 ≠ acc
  order : sorted x.b.tile = true

/-- A tile operation is done: the element (i, j) of its tile is f i j of the old one, no other tile has changed, the
operation is counted and occupies the engine, and the stream stands at its next place. -/
def TileDone (o : Host.Outcome State Fault Refusal) (x : Sx) (acc : Nat) (f : Nat → Nat → Nat → Nat) : Prop :=
  ∃ t b, o = .next t ∧ find? t.blocks x.bid = some b ∧
    (∀ n, rd b.tile n = if n / 4096 = acc then BitVec.ofNat 32 (f (n % 4096 / 64) (n % 64) (rd x.b.tile n).toNat)
      else rd x.b.tile n) ∧
    b.stream.ops = x.st.ops + 1 ∧ b.stream.inFlight = true ∧ (b.stream.pc, b.stream.slot) = nextPlace x.st.pc x.st.slot ∧
    (engineOf t x.cluster).busy = some x.bid ∧ (engineOf t x.cluster).granted = none

/-! ### Firmware instructions and suppression (11 R343-R353, 02 R48) -/

/-- The declarations of the system-register and firmware instructions. -/
def firmwareForm : Instr → Option (Cx → Sig)
  | .sysrd d n => some fun _ => { plain 0xf0 [⟨d, .dst, false⟩] .none with firmware := bitSet n 15, operandOk := selectorReads n }
  | .syswr d n => some fun c => { plain 0xf1 [⟨d, .scalar, false⟩] .none with
      firmware := bitSet n 15
      operandOk := n = 5 && decide ((opScalar c d).toNat ≤ 1000000) }
  | .wlatch d _ => some fun c => firmwareSig 0xf2 1 d (isProgramCore (runCore c d))
  | .keygen d _ => some fun _ => { plain 0xf3 [⟨d, .dst, false⟩] .none with firmware := true }
  | .keydel d => some fun _ => { plain 0xf4 [⟨d, .scalarBoth, false⟩] .none with firmware := true }
  | .tinv d _ => some fun _ => firmwareSig 0xf5 2 d true
  | .meter d => some fun _ => firmwareSig 0xf6 2 d true
  | .save d _ => some fun c => firmwareSig 0xf7 2 d (isCore (runCore c d))
  | .rest d => some fun c => firmwareSig 0xf8 2 d (isCore (runCore c d))
  | .halt d _ => some fun c => firmwareSig 0xf9 1 d (isProgramCore (runCore c d))
  | .clear d _ => some fun c => firmwareSig 0xfa 1 d (isCore (runCore c d))
  | .waiti d m => some fun _ => { plain 0xfb [⟨d, .dst, false⟩] .none with firmware := true, operandOk := m != 0 }
  | _ => none

/-- The instructions that an arm without a live lane suppresses, with their declarations. -/
def suppressedForm (i : Instr) : Option (Cx → Sig) :=
  match cmdForm i with
  | some (k, op, d, a, b) => some fun _ => cmdSig op (runRegs k) d a b
  | none => match i with
    | .st _ _ _ | .sts _ _ _ | .stl _ _ _ _ => (storeForm i).map (·.sig)
    | .depn d a b => some fun _ => cmdSig 0xc6 1 d a b
    | .mstr a => some fun _ => plain 0xc7 [⟨a, .scalar, false⟩] .none
    | .signal sc a b => some fun _ => waitSig 0xb6 sc true a b
    | .stmap _ a b => some fun _ => plain 0xa2 [⟨a, .scalar, false⟩, ⟨b, .scalar, false⟩] .none
    | .aaddk d a b => some fun _ => plain 0xa7 [⟨d, .dst, false⟩, ⟨a, .scalar, false⟩, ⟨b, .scalar, false⟩] .none
    | .stk sc a b => some fun _ => { plain 0xa6 [⟨a, .scalar, false⟩, ⟨b, .scalar, false⟩] .none with
        values := scopeOk sc false
        scope := some (sc, false) }
    | .tspawn d a => some fun _ => plain 0xd0 [⟨d, .dst, false⟩, ⟨a, .scalar, false⟩] .none
    | .launch a => some fun _ => plain 0xd3 [⟨a, .scalar, false⟩] .none
    | .trig d a => some fun _ => { plain 0xd5 [⟨d, .dst, false⟩, ⟨a, .scalar, false⟩] .none with operandOk := runOk a 5 }
    | .seqnew d => some fun _ => plain 0xd7 [⟨d, .dst, false⟩] .none
    | .seqend a b => some fun c => { plain 0xd8 [⟨a, .scalar, false⟩, ⟨b, .scalar, false⟩] .none with
        operandOk := decide ((opScalar c a).toNat < 2 ^ 32) }
    | .eop d _ => some fun _ => energySig 0xe2 d true
    | _ => (readForm i).bind fun f => if f.writes then some f.sig else none

/-- A message that a port takes: the port has power, the device is not in recovery, and the header is of the type that is
expected and passes its check under the key (13 R379, R383, R386). -/
structure Taken (s : State) (port key type : Nat) (h : RensarHdr) : Prop where
  on : gateOf s port 12 = .on
  booted : s.bootStatus ≠ 2
  kind : h.type = type
  fresh : headerOk (portOf s port) key h = true

/-- A header as a port sends it with its bytes: with its counter and its tag under the key (13 R378, R379). -/
def sentHdr (port key ctr : Nat) (h : RensarHdr) (bs : List (BitVec 8)) : RensarHdr :=
  { h with
    ctr := ctr
    mac := Config.linkTag port key [h.type, h.len, h.dst, h.src, h.world, h.tag, h.ia, h.txid, h.rest, ctr] bs
    good := true }

/-! ### Invariants and runs -/

/-- Machine memory is in its canonical form (log entry 2). -/
def MemInv (s : State) : Prop := Memory.wf s.mem

/-- The device answers a next state. -/
def Goes (o : Host.Outcome State Fault Refusal) (t : State) : Prop := o = .next t

/-- A run from s that never stops for n steps and ends in t. -/
inductive Runs : Nat → State → State → Prop where
  | zero (s : State) : Runs 0 s s
  | succ (n : Nat) (s t u : State) (h : step s = .next t) (r : Runs n t u) : Runs (n + 1) s u

end Sys2Proof.Machine
end

