-- ==== Sys2Proof/Certificates/Slice0/Obligations.lean ====
section
/-! DEFINITION. The statements about the model, each from the rules of the manual that its docstring names (file and
rule). Where a clause rests on a choice of the model, the docstring names the entry of the assumption log. -/
open Sys2Proof Sys2Proof.Machine

/-! ### Encoding -/

/-- Every instruction comes back from its own word (07 R189, R202-R204; 00 R3): decoding the word that the encoder gives
an instruction with every field within its width gives that instruction, through the stream map for the instructions
of a stream and through the team map for the others. -/
def Obligations.DecodeEncode : Prop :=
  ∀ (i : Instr) (w : Nat), i.fits = true → encode i = some w →
    w < 2 ^ 32 ∧ (if i.isStream then decodeStream w else decodeTeam w) = .ok i

/-- The other direction (07 R190): a 32-bit word that a map decodes is the word of the instruction that it decodes to,
so no two words mean one instruction and no bit of a word is dropped. -/
def Obligations.EncodeDecode : Prop :=
  ∀ (w : Nat) (i : Instr), w < 2 ^ 32 →
    (decodeTeam w = .ok i → encode i = some w ∧ i.isStream = false ∧ i.fits = true) ∧
    (decodeStream w = .ok i → encode i = some w ∧ i.isStream = true ∧ i.fits = true)

/-- Words written out from the encodings of 07 R189 and R202-R204 mean what the tables say. -/
def Obligations.WordsMean : Prop :=
  decodeTeam 0x20010203 = .ok (.add (.v 1) (.v 2) (.v 3)) ∧
  decodeTeam 0x22c1f0ff = .ok (.addi (.s 1) (.k 0) 255) ∧
  decodeTeam 0x04fffffe = .ok (.bra 0xfffffe) ∧
  decodeTeam 0x07700010 = .ok (.brd 3 true 16) ∧
  decodeTeam 0x53040506 = .ok (.fma (.v 4) (.v 5) (.v 6)) ∧
  decodeTeam 0x90040631 = .ok (.ld (.v 4) (.v 6) 3 false 1) ∧
  decodeTeam 0x91010406 = .ok (.st 1 (.v 4) (.v 6)) ∧
  decodeTeam 0xc0c1c2c3 = .ok (.copy (.s 1) (.s 2) (.s 3)) ∧
  decodeTeam 0xe0c50002 = .ok (.erd (.s 5) 2) ∧
  decodeTeam 0xf0c10000 = .ok (.sysrd (.s 1) 0) ∧
  decodeStream 0x010a0203 = .ok (.mma 1 2 2 3) ∧
  decodeTeam 0x16000000 = .error .reservedOpcode ∧
  decodeTeam 0x00000001 = .error .reservedField

/-! ### Steps -/

/-- A step runs the decoded instruction (02 R33, R41; 07 R184-R188; 18 R425): on a device with power, when the turn of a
core is the head of the agenda, the core is not gated, the slot's owner is ready, reconvergence leaves its arm in
turn to fetch, the arm holds no trap, the bundle at its place is read and well-formed, with the map of its back-map
entry in residual code, and the slot decodes to an instruction that is no NOP, the step is the meaning of that
instruction with the arm in focus, once the registers that residual code left unwritten and that it reads are
written (12 R372, R373). What takes a core past a context's grant is not issued (03 R77, log entry 43). The same of
a stream (10 R290, R291; 07 R204): with its turn at the head of the agenda, the stream that is ready runs the
instruction that the slot at its place decodes to, and holds the bundle for the slots that follow. A step performs
an event of the agenda (10 R288, log entry 4), one that was turned away being kept to be made again (01 R22), and a
device without power takes nothing but a reset (21 R512). -/
def Obligations.StepRunsDecoded : Prop :=
  (∀ (s s0 s1 s2 s3 s4 s5 s6 : State) (core tid a : Nat) (rest : List Choice) (t : Team) (c : Cx) (res : Bool)
     (bs : List (BitVec 8)) (mb : Option Nat) (i : Instr) (ctl : Control),
     s.agenda = .turn core :: rest → s.power = true →
     s0 = begun { s with agenda := rest } →
     (coreOf s0 core).gated = false →
     s1 = { s0 with cores := put s0.cores core { coreOf s0 core with cycle := (coreOf s0 core).cycle + 1 } } →
     slotOwner s0 core ((coreOf s0 core).cycle % 8) = some tid → find? s0.teams tid = some t →
     teamReady s0 t = true → turnArm s0 t = some a →
     s2 = workForTeam t { s1 with teams := put s1.teams tid { t with last := a } } →
     Answers (reachOn tid a) s2 true s3 →
     cxOf s3 tid a .t = some c → c.a.held = none →
     res = (c.b.residual && inResidual s3 c.b.world c.a.pc) →
     Answers (armBundle c res) s3 bs s4 →
     Answers (if (res && decide (c.a.slot = 1)) = true then mapOfBundle c else pure (some 0)) s4 mb s5 →
     ctl = ⟨numLE (bs.take 4)⟩ → (c.a.slot = 1 → bundleOk ctl 0 res mb = true) →
     ctl.bt c.a.slot ≠ .illegal → classBtOk ctl (ctl.bt c.a.slot) = true →
     decodeTeam (numLE ((bs.drop (4 * c.a.slot)).take 4)) = .ok i → i ≠ .nop →
     s6 = { runAct (do
         if res then payNamed c i (numLE ((bs.drop (4 * c.a.slot)).take 4)) else leaveResidual c
         modArm tid a fetchDone) s5 with
       focus := .team tid a (ctl.bt c.a.slot) } →
     step s = match exec i s6 with
       | .next u => .next (keepGrants s6 u)
       | o => o) ∧
  (∀ (s s0 s1 s2 : State) (bid : Nat) (rest : List Choice) (x : Sx) (res : Bool) (bs : List (BitVec 8)) (mb : Option Nat)
     (i : Instr) (ctl : Control),
     s.agenda = .streamTurn bid :: rest → s.power = true →
     s0 = { begun { s with agenda := rest } with working := some (bid, x.b.ctx) } →
     sxOf s0 bid = some x → x.st.wait = .none → x.st.bound = true → x.b.st = .resident →
     ((engineOf s0 (clusterOfCore x.b.core)).granted = some bid ∨ entryLive s0 x.b = true) →
     res = (x.b.residual && inResidual s0 x.b.world x.st.pc) →
     Answers (streamCode x res) s0 (bs, mb) s1 →
     ctl = ⟨numLE (bs.take 4)⟩ → (x.st.slot = 1 → bundleOk ctl 1 res mb = true) →
     classBtOk ctl (ctl.bt x.st.slot) = true →
     streamBtAllowed (numLE ((bs.drop (4 * x.st.slot)).take 4) / 2 ^ 24) (ctl.bt x.st.slot) = true →
     decodeStream (numLE ((bs.drop (4 * x.st.slot)).take 4)) = .ok i → i ≠ .mnop →
     s2 = { runAct (modStream bid fun st => { st with bundle := some (x.st.pc, bs) }) s1 with
       focus := .stream bid (ctl.bt x.st.slot) } →
     step s = match exec i s2 with
       | .next u => .next (keepGrants s2 u)
       | o => o) ∧
  ((∀ (s : State) (i : Instr) (rest : List Choice), s.agenda = .event i :: rest → s.power = true →
     step s = match exec i (begun { s with agenda := rest }) with
       | .next u => .next (if u.turnedAway = true then { u with again := u.again ++ [.event i], turnedAway := false } else u)
       | o => o) ∧
   (∀ (s : State) (c : Choice) (rest : List Choice), s.agenda = c :: rest → s.power = false →
     (∀ img, c ≠ .event (.deviceReset img)) → step s = .next { s with agenda := rest }) ∧
   (∀ s : State, s.agenda = [] → s.power = false → step s = .next s))

/-! ### Invariants -/

/-- Machine memory keeps its canonical form in every step (04 R88; the form is the model's, log entry 2): addresses
strictly rising, and no entry equal to what an unlisted address reads as. -/
def Obligations.StepKeepsMemory : Prop :=
  ∀ s t : State, MemInv s → step s = .next t → MemInv t

/-- At reset machine memory is in its canonical form. -/
def Obligations.ResetMemory : Prop :=
  MemInv State.reset

/-! ### Addresses, handles and weights -/

/-- 04 R92: the home slice of an IA is its bits 14:9; translation keeps bits 15:0, so the machine address of an IA lies
in that same slice; the channel within the slice is 8 × slice + (MA[17:15] xor MA[20:18]); a 512-byte block and a
256-byte stash chunk never cross slices. The same holds of host-memory addresses. -/
def Obligations.HomeSlices : Prop :=
  ∀ (e : TlbEntry) (ia k : Nat),
    (∀ i, (sliceOf ia).testBit i = (decide (i < 6) && ia.testBit (9 + i))) ∧
    maOf e ia % 2 ^ 16 = ia % 2 ^ 16 ∧ sliceOf (maOf e ia) = sliceOf ia ∧
    (∀ i, i < 3 → (channelOf (maOf e ia) % 8).testBit i =
      ((maOf e ia).testBit (15 + i) ^^ (maOf e ia).testBit (18 + i))) ∧
    channelOf (maOf e ia) / 8 = sliceOf ia ∧
    (ia % 512 + k < 512 → sliceOf (ia + k) = sliceOf ia) ∧
    (ia % 256 + k < 256 → sliceOf (ia + k) = sliceOf ia)

/-- 04 R118: a sequence handle holds its slot in bits 11:0, its generation in bits 31:12 and zero above, so that two
handles are one number only where slot and generation are the same. -/
def Obligations.SequenceHandles : Prop :=
  ∀ (s : State) (slot : Nat), slot < 4096 → (keyOf s slot).gen < 2 ^ 20 →
    (∀ i, (handleOf s slot).testBit i =
      (if i < 12 then slot.testBit i else if i < 32 then (keyOf s slot).gen.testBit (i - 12) else false)) ∧
    handleOf s slot < 2 ^ 32 ∧
    ∀ (t : State) (k : Nat), k < 4096 → handleOf t k = handleOf s slot → k = slot ∧ (keyOf t k).gen = (keyOf s slot).gen

/-- 03 R68: a compute-domain event of class c at point p is charged (w × σ_p + 32,768) >> 16 of its class's weight w at
OP8, by the class and the point alone; a base-domain event keeps its weight. A weight of 1,430 at OP4 gives 1,051
mq, the manual's example. At OP8 the weight is its own. -/
def Obligations.ChargeWeights : Prop :=
  ∀ (cls p w : Nat),
    (cls < 22 → weightAt cls p = (Config.weight cls * sigmaOf p + 32768) >>> 16) ∧
    (22 ≤ cls → weightAt cls p = Config.weight cls) ∧
    scaledWeight 1430 4 = 1051 ∧
    (cls < 22 → weightAt cls 8 = Config.weight cls) ∧
    (p ≤ 14 → scaledWeight w p ≤ scaledWeight w (p + 1))

/-! ### Integer instructions -/

/-- 08 R213, R236 and R237 in a D slot: every governed lane of d takes, element by element, the exact result modulo 2^w;
no other lane, register, flag or byte of memory changes. The same in a T or S slot: one 64-bit value, signed or
unsigned by the type, into the s register d. -/
def Obligations.IntegerArithmetic : Prop :=
  (∀ (i : Instr) (d a : Opnd) (y : IntArg) (r : Role) (f : IntRule) (s : State) (c : Cx),
     intRule i = some (d, a, y, r, f) → Prepared (intSig i.opcode r d a y) s c → c.bt = .d →
     Completes (exec i s) s c (intSig i.opcode r d a y c)
       (putLanes (intPair (modeEtype c.a.mode)) d c.gm (fun l =>
         packElems (intWidth (modeEtype c.a.mode)) ((List.range (elemCount (intWidth (modeEtype c.a.mode)))).map fun j =>
           wrapTo (intWidth (modeEtype c.a.mode)) (f (intWidth (modeEtype c.a.mode))
             (elemInt (intSigned (modeEtype c.a.mode)) (intWidth (modeEtype c.a.mode)) (srcElem c (intWidth (modeEtype c.a.mode)) l d j))
             (elemInt (intSigned (modeEtype c.a.mode)) (intWidth (modeEtype c.a.mode)) (srcElem c (intWidth (modeEtype c.a.mode)) l a j))
             (elemInt (intSigned (modeEtype c.a.mode)) (intWidth (modeEtype c.a.mode)) (argElem c (intWidth (modeEtype c.a.mode)) l j y))))) c.t) .on) ∧
  (∀ (i : Instr) (d a : Opnd) (y : IntArg) (r : Role) (f : IntRule) (s : State) (c : Cx),
     intRule i = some (d, a, y, r, f) → Prepared (intSig i.opcode r d a y) s c → c.bt ≠ .d →
     Completes (exec i s) s c (intSig i.opcode r d a y c)
       (putScalar d (wrapTo 64 (f 64
         (elemInt (intSigned (modeEtype c.a.mode)) 64 (opScalar c d).toNat)
         (elemInt (intSigned (modeEtype c.a.mode)) 64 (opScalar c a).toNat)
         (elemInt (intSigned (modeEtype c.a.mode)) 64 (argScalar c y)))) c.t) .on)

/-- 08 R236, R238 and R239 in a D slot: logic, shifts, rotation, carry and bit counts on each element of each governed
lane, and nothing else. The same in a T or S slot, on 64 bits. -/
def Obligations.BitInstructions : Prop :=
  (∀ (i : Instr) (d a : Opnd) (y : IntArg) (f : BitRule) (s : State) (c : Cx),
     bitRule i = some (d, a, y, f) → Prepared (intSig i.opcode .dst d a y) s c → c.bt = .d → i.fits = true →
     Completes (exec i s) s c (intSig i.opcode .dst d a y c)
       (putLanes (intPair (modeEtype c.a.mode)) d c.gm (fun l =>
         packElems (intWidth (modeEtype c.a.mode)) ((List.range (elemCount (intWidth (modeEtype c.a.mode)))).map fun j =>
           (f (intWidth (modeEtype c.a.mode))
             (BitVec.ofNat _ (srcElem c (intWidth (modeEtype c.a.mode)) l a j))
             (BitVec.ofNat _ (argElem c (intWidth (modeEtype c.a.mode)) l j y))).toNat)) c.t) .on) ∧
  (∀ (i : Instr) (d a : Opnd) (y : IntArg) (f : BitRule) (s : State) (c : Cx),
     bitRule i = some (d, a, y, f) → Prepared (intSig i.opcode .dst d a y) s c → c.bt ≠ .d → i.fits = true →
     Completes (exec i s) s c (intSig i.opcode .dst d a y c)
       (putScalar d (f 64 (opScalar c a) (BitVec.ofNat 64 (argScalar c y))).toNat c.t) .on)

/-- 08 R240, R233 and R234: a compare sets bit l of m_d where it holds for every element of lane l, within the governing
mask alone; in a T or S slot the one result fills the arm's execution mask. m0 is no destination: such a compare is
not ready to perform (see MaskRegisters). -/
def Obligations.Compares : Prop :=
  ∀ (i : Instr) (d : Nat) (a b : Opnd) (f : Int → Int → Bool) (s : State) (c : Cx),
    cmpRule i = some (d, a, b, f) → Prepared (cmpSig i.opcode d a b) s c →
    Completes (exec i s) s c (cmpSig i.opcode d a b c)
      (if c.bt = .d then
        putMask c.t d c.gm (lanesWhere c.t.lanes c.gm fun l =>
          (List.range (elemCount (intWidth (modeEtype c.a.mode)))).all fun j =>
            f (elemInt (intSigned (modeEtype c.a.mode)) (intWidth (modeEtype c.a.mode)) (srcElem c (intWidth (modeEtype c.a.mode)) l a j))
              (elemInt (intSigned (modeEtype c.a.mode)) (intWidth (modeEtype c.a.mode)) (srcElem c (intWidth (modeEtype c.a.mode)) l b j)))
      else
        putMask c.t d c.a.exec (if f (elemInt (intSigned (modeEtype c.a.mode)) 64 (opScalar c a).toNat)
            (elemInt (intSigned (modeEtype c.a.mode)) 64 (opScalar c b).toNat) then c.a.exec else 0)) .on

/-- A field that is read back: what an instruction puts in the lanes of v_d reads back there, a word or a pair with the
low word in the even register (06 R157, 07 R192, R197), and every other register of the window keeps its value in
every lane, while the window holds d. -/
def Obligations.LanesReadBack : Prop :=
  ∀ (t : Team) (i : Nat) (m : Mask) (val : Nat → Nat) (pair : Bool) (l j : Nat),
    sorted t.v = true → l < t.lanes → t.lanes ≤ 1024 → i + 1 < t.frame → j < t.frame →
    readV (putLanes pair (.v i) m val t) j l =
      (if m.getLsbD l && j = i then BitVec.ofNat 32 (val l)
      else if m.getLsbD l && pair && j = i + 1 then BitVec.ofNat 32 (val l / 2 ^ 32)
      else readV t j l)

/-- 08 R241: SEL takes a where the guard has the lane's bit and b elsewhere, in every lane of the execution mask; in a T
or S slot it takes a when the guard and the execution mask meet. -/
def Obligations.Select : Prop :=
  ∀ (d a b : Opnd) (s : State) (c : Cx), Prepared (selSig d a b) s c →
    Completes (exec (.sel d a b) s) s c (selSig d a b c)
      (if c.bt = .d then
        putLanes (wholePair (modeEtype c.a.mode)) d c.a.exec (fun l =>
          laneVal c (wholePair (modeEtype c.a.mode)) l
            (if (maskReg c.t (modeGuard c.a.mode)).getLsbD l then a else b)) c.t
      else putScalar d (opScalar c (if maskReg c.t (modeGuard c.a.mode) &&& c.a.exec = 0 then b else a)).toNat c.t) .on

/-- 08 R242: LIM, LIMH, LIMX and MOV in governed lane words, pairs for MOV under a 64-bit type, or a whole s register.
08 R239, R243-R245: BFX and BFI, WFLD, LEA and CVTI, each element or lane by its own rule, and nothing else. -/
def Obligations.MovesAndFields : Prop :=
  (∀ (d a : Opnd) (imm : Nat) (s : State) (c : Cx), imm < 65536 →
     (∀ g : Cx → Sig, g = (fun _ => plain 0x46 [⟨d, .dst, false⟩] (.passes clsInteger)) → Prepared g s c →
       Completes (exec (.lim d imm) s) s c (g c)
         (if c.bt = .d then putLanes false d c.gm (fun _ => wrapTo 32 (signed 16 imm)) c.t
         else putScalar d (wrapTo 64 (signed 16 imm)) c.t) .on) ∧
     (∀ g : Cx → Sig, g = (fun _ => plain 0x47 [⟨d, .both, false⟩] (.passes clsInteger)) → Prepared g s c →
       Completes (exec (.limh d imm) s) s c (g c)
         (if c.bt = .d then putLanes false d c.gm (fun l => imm * 65536 + (opWord c l d).toNat % 65536) c.t
         else putScalar d ((opScalar c d).toNat / 2 ^ 32 * 2 ^ 32 + imm * 65536 + (opScalar c d).toNat % 65536) c.t) .on) ∧
     (∀ g : Cx → Sig, g = (fun _ => plain 0x48 [⟨d, .both, false⟩] (.passes clsInteger)) → Prepared g s c →
       Completes (exec (.limx d imm) s) s c (g c)
         (if c.bt = .d then putLanes false d c.gm (fun l => ((opWord c l d).toNat * 65536 + imm) % 2 ^ 32) c.t
         else putScalar d (((opScalar c d).toNat * 65536 + imm) % 2 ^ 64) c.t) .on) ∧
     (Prepared (movSig 0x49 d a) s c →
       Completes (exec (.mov d a) s) s c (movSig 0x49 d a c)
         (if c.bt = .d then
           putLanes (wholePair (modeEtype c.a.mode)) d c.gm (fun l => laneVal c (wholePair (modeEtype c.a.mode)) l a) c.t
         else putScalar d (opScalar c a).toNat c.t) .on)) ∧
  (∀ (d a b : Opnd) (h : Bool) (f p dst src : Nat) (s : State) (c : Cx),
     (Prepared (intSig 0x3d .dst d a (.reg b)) s c →
       Completes (exec (.bfx d a b) s) s c (intSig 0x3d .dst d a (.reg b) c) (fieldPut bfxFn d a b c c.t) .on) ∧
     (Prepared (intSig 0x3e .both d a (.reg b)) s c →
       Completes (exec (.bfi d a b) s) s c (intSig 0x3e .both d a (.reg b) c) (fieldPut bfiFn d a b c c.t) .on) ∧
     (Prepared (wfldSig d h f) s c →
       Completes (exec (.wfld d h f) s) s c (wfldSig d h f c)
         (if c.bt = .d then
           putLanes false d c.gm (fun l => workField c f l / (if h then 2 ^ 32 else 1)) c.t
         else putScalar d (workField c f 0) c.t) .on) ∧
     (∀ g : Cx → Sig, g = (fun _ => plain 0x4c [⟨d, .dst, true⟩, ⟨a, .src, true⟩, ⟨b, .src, false⟩] (.passes clsInteger)) →
       Prepared g s c →
       Completes (exec (.lea d a b) s) s c (g c)
         (if c.bt = .d then
           putLanes true d c.gm (fun l => wrapTo 64 ((opPair c l a).toNat +
             leaOffset (modeEtype c.a.mode) (signed 32 (opWord c l b).toNat))) c.t
         else putScalar d (wrapTo 64 ((opScalar c a).toNat + leaOffset (modeEtype c.a.mode) (signed 64 (opScalar c b).toNat))) c.t) .on) ∧
     (Prepared (cvtiSig d a p dst src) s c →
       Completes (exec (.cvti d a p dst src) s) s c (cvtiSig d a p dst src c) (cvtiPut d a p dst src c c.t) .on))

/-- 08 R239, bit by bit: a field of an element is clipped at its top; BFX reads it, sign-extended when the type is
signed, and BFI puts the low bits of x into d there and leaves d's other bits. -/
def Obligations.BitFields : Prop :=
  ∀ (w x z y : Nat), 0 < w → x < 2 ^ w → z < 2 ^ w →
    (∀ i, i < w → (bfxFn w false z x y).testBit i = (decide (i < fieldLen w y) && x.testBit (fieldPos y + i))) ∧
    (∀ i, i < w → (bfxFn w true z x y % 2 ^ w).testBit i =
      (decide (0 < fieldLen w y) && x.testBit (fieldPos y + Nat.min i (fieldLen w y - 1)))) ∧
    (∀ i, i < w → (bfiFn w false z x y).testBit i =
      (if fieldPos y ≤ i ∧ i < fieldPos y + fieldLen w y then x.testBit (i - fieldPos y) else z.testBit i)) ∧
    fieldLen w y = Nat.min (y / 256 % 256) (w - y % 256)

/-- 08 R235: the mask instructions act within the governing mask, or the execution mask in a T or S slot; MCNT counts
and MFIRST finds the lowest lane, all ones for none; MSET sets the bits of lanes whose operand is not 0. -/
def Obligations.MaskInstructions : Prop :=
  ∀ (d a b : Nat) (o : Opnd) (s : State) (c : Cx),
    (Prepared (fun _ => maskSig 0x18 d []) s c →
      Completes (exec (.mand d a b) s) s c (maskSig 0x18 d [])
        (putMask c.t d (maskScope c) (maskReg c.t a &&& maskReg c.t b)) .on) ∧
    (Prepared (fun _ => maskSig 0x19 d []) s c →
      Completes (exec (.mor d a b) s) s c (maskSig 0x19 d [])
        (putMask c.t d (maskScope c) (maskReg c.t a ||| maskReg c.t b)) .on) ∧
    (Prepared (fun _ => maskSig 0x1a d []) s c →
      Completes (exec (.mxor d a b) s) s c (maskSig 0x1a d [])
        (putMask c.t d (maskScope c) (maskReg c.t a ^^^ maskReg c.t b)) .on) ∧
    (Prepared (fun _ => maskSig 0x1b d []) s c →
      Completes (exec (.mnot d a) s) s c (maskSig 0x1b d []) (putMask c.t d (maskScope c) (~~~(maskReg c.t a))) .on) ∧
    (Prepared (fun _ => maskSig 0x1f d []) s c →
      Completes (exec (.mmov d a) s) s c (maskSig 0x1f d []) (putMask c.t d (maskScope c) (maskReg c.t a)) .on) ∧
    (∀ g : Cx → Sig, g = (fun _ => plain 0x1c [⟨o, .uniform, false⟩] (.passes clsInteger)) → Prepared g s c →
      Completes (exec (.mcnt o a) s) s c (g c)
        (putScalar o ((List.range c.t.lanes).filter fun l => (maskReg c.t a &&& maskScope c).getLsbD l).length c.t) .on) ∧
    (∀ g : Cx → Sig, g = (fun _ => plain 0x1d [⟨o, .uniform, false⟩] (.passes clsInteger)) → Prepared g s c →
      Completes (exec (.mfirst o a) s) s c (g c)
        (putScalar o (((List.range c.t.lanes).find? fun l => (maskReg c.t a &&& maskScope c).getLsbD l).getD (2 ^ 64 - 1)) c.t) .on) ∧
    (∀ g : Cx → Sig, g = (fun c => maskSig 0x1e d [⟨o, .src, wholePair (modeEtype c.a.mode)⟩]) → Prepared g s c →
      Completes (exec (.mset d o) s) s c (g c)
        (if c.bt = .d then
          putMask c.t d c.gm (lanesWhere c.t.lanes c.gm fun l => laneVal c (wholePair (modeEtype c.a.mode)) l o != 0)
        else putMask c.t d c.a.exec (if opScalar c o = 0 then 0 else c.a.exec)) .on)

/-- 08 R233 and R234: m0 reads as every lane of the team and no write changes it; a write to another mask register
changes only the bits under its scope, and no other mask register. -/
def Obligations.MaskRegisters : Prop :=
  ∀ (t : Team) (n k : Nat) (sc x : Mask) (l : Nat), sorted t.mreg = true → l < 1024 →
    maskReg t 0 = fullMask t.lanes ∧ putMask t 0 sc x = t ∧
    (n ≠ 0 → (maskReg (putMask t n sc x) n).getLsbD l = (if sc.getLsbD l then x.getLsbD l else (maskReg t n).getLsbD l)) ∧
    (k ≠ n → maskReg (putMask t n sc x) k = maskReg t k)

/-! ### Floating point -/

/-- 09 R247-R264: every floating-point register form completes from every state in which it is ready, with its team
changed by its own rule (values in governed lanes, sticky flags, draws) and nothing else but charges. -/
def Obligations.FloatForms : Prop :=
  ∀ (i : Instr) (g : Cx → Sig) (f : Cx → Team → Team) (s : State) (c : Cx),
    floatForm i = some (g, f) → Prepared g s c → Completes (exec i s) s c (g c) (f c c.t) .on

/-- 09 R251 and R252, the parts that need no rounding: FNEG flips the sign bit and FABS clears it, whatever the element
is; FMIN and FMAX of one NaN give the other element; no compare but FCUN holds of a NaN, and a quiet NaN alone
raises NV in FCLT and FCLE and in no other compare. -/
def Obligations.FloatSignsAndNans : Prop :=
  ∀ (f x y : Nat) (r : Rounding), 8 ≤ f → f ≤ 11 → x < 2 ^ fmtWidth f → y < 2 ^ fmtWidth f → r.fsub = false →
    (∀ k, k < fmtWidth f → (fnegFn f x).testBit k = (if k = fmtWidth f - 1 then !x.testBit k else x.testBit k)) ∧
    (∀ k, k < fmtWidth f → (fabsFn f x).testBit k = (decide (k ≠ fmtWidth f - 1) && x.testBit k)) ∧
    ((readF f false x).isNan = true → (readF f false y).isNan = false →
      (fminFn f r x y 0).bits = y ∧ (fmaxFn f r x y 0).bits = y ∧ (fminFn f r y x 0).bits = y ∧ (fmaxFn f r y x 0).bits = y) ∧
    ((readF f false x).isNan = true →
      (fceqFn (readF f false x) (readF f false y)).1 = false ∧ (fcltFn (readF f false x) (readF f false y)).1 = false ∧
      (fcleFn (readF f false x) (readF f false y)).1 = false ∧ (fcunFn (readF f false x) (readF f false y)).1 = true ∧
      (fcltFn (readF f false x) (readF f false y)).2 = flagNv ∧ (fcleFn (readF f false x) (readF f false y)).2 = flagNv) ∧
    ((readF f false x).isSig = false → (readF f false y).isSig = false →
      (fceqFn (readF f false x) (readF f false y)).2 = 0 ∧ (fcunFn (readF f false x) (readF f false y)).2 = 0)

/-- 09 R259-R263 and 06 R175-R179: a conversion under a format slot that the slot allows completes with its lanes'
results, and CBLK, QNT, DQNT and CBLU do once their codebook is read. -/
def Obligations.SlotConversions : Prop :=
  ∀ (d a : Opnd) (h : Bool) (p fs : Nat) (s s1 : State) (c : Cx) (book : List Nat) (u : Team),
    (Prepared (cvtSig d a fs) s c →
      slotClean (slotBits c.l fs) = true → cvtType (slotA (slotBits c.l fs)) = true →
      cvtType (slotOut (slotBits c.l fs)) = true → slotScaleA (slotBits c.l fs) = false →
      slotScaleB (slotBits c.l fs) = false →
      (if c.bt = .d then p < cvtParts (fmtWidth (slotA (slotBits c.l fs))) (fmtWidth (slotOut (slotBits c.l fs))) else p = 0) →
      Completes (exec (.cvt d a p fs) s) s c (cvtSig d a fs c)
        (putRes false d ((workLanes c).map (cvtLane (slotBits c.l fs) p d a c)) c c.t) .on) ∧
    (Prepared (cblkSig d a) s c → slotClean (slotBits c.l fs) = true → 12 ≤ slotOut (slotBits c.l fs) →
      (if slotOut (slotBits c.l fs) = 15 then Answers (readBook c (slotBookA (slotBits c.l fs))) s book s1
        else book = [] ∧ s1 = s) →
      find? s1.teams c.tid = some u →
      Completes (exec (.cblk d a fs) s) s1 c (cblkSig d a c)
        (putRes false d ((List.range 32).flatMap (cblkWord (emaxOf (slotOut (slotBits c.l fs)) book) a c)) c u) .on) ∧
    (Prepared (qntSig d a fs) s c → slotClean (slotBits c.l fs) = true → 12 ≤ slotOut (slotBits c.l fs) →
      p < 32 / storeWidth (slotOut (slotBits c.l fs)) →
      (if slotOut (slotBits c.l fs) = 15 then Answers (readBook c (slotBookA (slotBits c.l fs))) s book s1
        else book = [] ∧ s1 = s) →
      find? s1.teams c.tid = some u →
      Completes (exec (.qnt d a p fs) s) s1 c (qntSig d a fs c)
        (putRes false d ((workLanes c).map (qntLane (slotBits c.l fs) p book d a c)) c u) .on) ∧
    (Prepared (quantSig 0x72 .dst d a fs true) s c → slotClean (slotBits c.l fs) = true → 12 ≤ slotA (slotBits c.l fs) →
      p < 32 / storeWidth (slotA (slotBits c.l fs)) →
      (if slotA (slotBits c.l fs) = 15 then Answers (readBook c (slotBookA (slotBits c.l fs))) s book s1
        else book = [] ∧ s1 = s) →
      find? s1.teams c.tid = some u →
      Completes (exec (.dqnt d a p fs) s) s1 c (quantSig 0x72 .dst d a fs true c)
        (putRes false d ((workLanes c).map (dqntLane (slotBits c.l fs) p book a c)) c u) .on) ∧
    (Prepared (cbluSig d a) s c → slotClean (slotBits c.l fs) = true → slotA (slotBits c.l fs) = 15 →
      Answers (readBook c (slotBookA (slotBits c.l fs))) s book s1 → find? s1.teams c.tid = some u →
      Completes (exec (.cblu d a h fs) s) s1 c (cbluSig d a c)
        (putRes true d ((workLanes c).map (cbluLane book h a c)) c u) .on)

/-! ### Cross-lane instructions -/

/-- 09 R265 and R266: with every executing lane a member, each governed lane of the arm takes a from the lane that its
index names: a member that executes gives its value, a member that does not gives 0 and sets the member-absent bit,
and an index that names no member leaves the lane its own a. -/
def Obligations.Shuffles : Prop :=
  ∀ (i : Instr) (g : Cx → Sig) (d a : Opnd) (src : Cx → Nat → Int) (s : State) (c : Cx),
    shuffleForm i = some (g, d, a, src) → Prepared g s c → membersHold c →
    Completes (exec i s) s c (g c)
      (noteAbsent ((lanesOf c.t.lanes c.a.exec).any fun l => namesMember c (src c l) && !c.a.exec.getLsbD (src c l).toNat)
        (putEach (movesPair c) d ((armLanes c fun l => c.gm.getLsbD l).map fun l =>
          (l, if namesMember c (src c l) then
              (if c.a.exec.getLsbD (src c l).toNat then laneVal c (movesPair c) (src c l).toNat a else 0)
            else laneVal c (movesPair c) l a)) c.t)) .on

/-- 09 R265-R267: RDLN reads one lane into s_d and WRLN writes one lane; VANY and VALL vote over the executing lanes,
VBAL gives each governed lane its word of the votes, and MATCH the lowest executing lane with the lane's value. An
absent member makes VALL answer 0. -/
def Obligations.LaneReadsAndVotes : Prop :=
  ∀ (d a b : Opnd) (s : State) (c : Cx), membersHold c →
    (∀ g : Cx → Sig, g = (fun c => crossSig 0x8b 0 [⟨d, .uniform, false⟩, ⟨a, .src, movesPair c⟩, ⟨b, .scalar, false⟩] c) →
      Prepared g s c →
      Completes (exec (.rdln d a b) s) s c (g c)
        (noteAbsent (shuffled c a ((executing c).headD 0) (opScalar c b).toNat).2
          (putScalar d (shuffled c a ((executing c).headD 0) (opScalar c b).toNat).1 c.t)) .on) ∧
    (∀ g : Cx → Sig, g = (fun c => crossSig 0x8c 0 [⟨d, .dst, movesPair c⟩, ⟨a, .scalar, false⟩, ⟨b, .scalar, false⟩] c) →
      Prepared g s c →
      Completes (exec (.wrln d a b) s) s c (g c)
        (if namesMember c (opScalar c b).toNat then
          (if c.a.exec.getLsbD (opScalar c b).toNat then
            putEach (movesPair c) d [((opScalar c b).toNat, (opScalar c a).toNat)] c.t
          else { c.t with mabs := true })
        else c.t) .on) ∧
    (Prepared (voteSig 0x85 1 .uniform d a) s c →
      Completes (exec (.vany d a) s) s c (voteSig 0x85 1 .uniform d a c)
        (noteAbsent ((armLanes c fun l => laneVal c (movesPair c) l a != 0).isEmpty && absentMembers c != 0)
          (putScalar d (if (armLanes c fun l => laneVal c (movesPair c) l a != 0).isEmpty then 0 else 1) c.t)) .on) ∧
    (Prepared (voteSig 0x86 1 .uniform d a) s c →
      Completes (exec (.vall d a) s) s c (voteSig 0x86 1 .uniform d a c)
        (noteAbsent ((armLanes c fun l => laneVal c (movesPair c) l a == 0).isEmpty && absentMembers c != 0)
          (putScalar d (if (armLanes c fun l => laneVal c (movesPair c) l a == 0).isEmpty && absentMembers c == 0 then 1 else 0) c.t)) .on) ∧
    (Prepared (voteSig 0x87 0 .dst d a) s c →
      Completes (exec (.vbal d a) s) s c (voteSig 0x87 0 .dst d a c)
        (noteAbsent ((executing c).any fun l => wordAt (absentMembers c) l != 0)
          (putEach false d ((lanesOf c.t.lanes c.gm).map fun l =>
            (l, wordAt (maskOf (armLanes c fun m => laneVal c (movesPair c) m a != 0)) l)) c.t)) .on) ∧
    (Prepared (voteSig 0x8a 1 .dst d a) s c →
      Completes (exec (.matchLanes d a) s) s c (voteSig 0x8a 1 .dst d a c)
        (putEach false d ((lanesOf c.t.lanes c.gm).map fun l =>
          (l, ((executing c).find? fun m => laneVal c (movesPair c) m a = laneVal c (movesPair c) l a).getD l)) c.t) .on)

/-- 09 R268: RED reduces the executing lanes' values into s_d, and SCAN gives each governed lane the reduction of the
executing lanes up to it, itself left out when the scan is exclusive. 09 R268: the integer operations of RED and
SCAN, folded over the values from the operation's identity, are the sum modulo 2^w, the least, the greatest, and the
bitwise operations; over no value they give the identity. -/
def Obligations.Reductions : Prop :=
  (∀ (d a : Opnd) (x : Bool) (op : Nat) (s : State) (c : Cx), membersHold c →
     (Prepared (reduceSig 0x88 .uniform d a op) s c →
       Completes (exec (.red d a op) s) s c (reduceSig 0x88 .uniform d a op c)
         (raiseLanes ((lanesOf c.t.lanes c.gm).map fun l =>
             ⟨l, 0, (reduceOver c a op (fun j => { modeRounding c 0 j with draw := none }) 0 0 (executing c)).flags, 0⟩)
           (putScalar d (reduceOver c a op (fun j => { modeRounding c 0 j with draw := none }) 0 0 (executing c)).value c.t)) .on) ∧
     (Prepared (reduceSig 0x89 .dst d a op) s c →
       Completes (exec (.scan d a x op) s) s c (reduceSig 0x89 .dst d a op c)
         (putRes (movesPair c) d ((lanesOf c.t.lanes c.gm).map fun l =>
           reduceOver c a op (modeRounding c l) l
             (if op = 6 then drawsFor c (modeRnd c.a.mode) (elementsIn c (reduceWidth (modeEtype c.a.mode))) else 0)
             ((executing c).filter fun m => if x then decide (m < l) else decide (m ≤ l))) c c.t) .on)) ∧
  (∀ (e : Nat) (r : Rounding) (xs : List Nat), e < 8 → (∀ x ∈ xs, x < 2 ^ intWidth e) →
     (reduceElems 0 e r xs).bits = xs.sum % 2 ^ intWidth e ∧
     (xs ≠ [] → (reduceElems 1 e r xs).bits ∈ xs ∧ ∀ x ∈ xs,
       elemInt (intSigned e) (intWidth e) (reduceElems 1 e r xs).bits ≤ elemInt (intSigned e) (intWidth e) x) ∧
     (xs ≠ [] → (reduceElems 2 e r xs).bits ∈ xs ∧ ∀ x ∈ xs,
       elemInt (intSigned e) (intWidth e) x ≤ elemInt (intSigned e) (intWidth e) (reduceElems 2 e r xs).bits) ∧
     (∀ k, k < intWidth e → (reduceElems 3 e r xs).bits.testBit k = xs.all (·.testBit k)) ∧
     (∀ k, (reduceElems 4 e r xs).bits.testBit k = xs.any (·.testBit k)) ∧
     (∀ op, op < 6 → (reduceElems op e r []).bits = reduceIdentity op e))

/-! ### Control -/

/-- 08 R219: JOINSET sets the arm's join target to the address of its bundle + 32 × off and marks it valid; it changes
nothing else, but for the charge of its issue and the arm's place. -/
def Obligations.JoinTarget : Prop :=
  ∀ (off : Nat) (s : State) (c : Cx), Prepared (bare 0x08) s c →
    Completes (exec (.joinset off) s) s c (bare 0x08 c)
      (armSet c c.t fun x => { x with jt := some (wrapTo 56 ((c.a.pc : Int) + 32 * signed 24 off)) }) .on

/-- 07 R195, R205; 08 R216: NOP moves on and is charged nothing; MODE sets the mode register, MODET the bits of its
field mask from s_d, and MODEG reads the mode and the arm's sticky flags and clears the flags that it names. 08
R217, R218, R224, R225, R230: branches move the arm alone, by a signed count of bundles, when their condition on the
arm's lanes holds; JMPI goes to an aligned register target; YIELD only moves on; DEMOTE makes live governed lanes
helpers, and an arm that it leaves without a live lane is no longer waited for at a barrier at which the other has
arrived (18 R440). -/
def Obligations.ModesAndBranches : Prop :=
  (∀ (d : Opnd) (imm : Nat) (s : State) (c : Cx),
     (s.focus = .team c.tid c.arm c.bt → cxOf s c.tid c.arm c.bt = some c → c.bt ≠ .illegal →
       ∃ v, exec .nop s = .next v ∧ { v with teams := s.teams } = s ∧
         ∀ k, find? v.teams k = if k = c.tid then
           some (armSet c c.t fun x => { x with
             windows := windowsAfter c.a.windows, pc := (nextPlace c.a.pc c.a.slot).1
             slot := (nextPlace c.a.pc c.a.slot).2, came := pcOf c.a.pc c.a.slot })
           else find? s.teams k) ∧
     (Prepared (bare 0x01) s c →
       Completes (exec (.mode imm) s) s c (bare 0x01 c)
         (armSet c c.t fun x => { x with mode := BitVec.ofNat 16 (imm % 4096) }) .on) ∧
     (Prepared (fun _ => plain 0x02 [⟨d, .scalar, false⟩] .none) s c →
       Completes (exec (.modet d imm) s) s c (plain 0x02 [⟨d, .scalar, false⟩] .none)
         (armSet c c.t fun x => { x with
           mode := BitVec.ofNat 16 (((c.a.mode.toNat &&& (65535 - imm % 65536)) ||| ((opScalar c d).toNat &&& imm)) % 4096) }) .on) ∧
     (Prepared (fun _ => plain 0x03 [⟨d, .dst, false⟩] .none) s c →
       Completes (exec (.modeg d imm) s) s c (plain 0x03 [⟨d, .dst, false⟩] .none)
         (putScalar d (c.a.mode.toNat + orFlags c * 65536)
           (modLanes c.t c.a.exec fun x => { x with xflags := x.xflags &&& ~~~(BitVec.ofNat 5 imm) })) .on)) ∧
  (∀ (a : Opnd) (m off : Nat) (inv : Bool) (s : State) (c : Cx),
     (Prepared (bare 0x04) s c →
       Completes (exec (.bra off) s) s c (bare 0x04 c) c.t (.to (wrapTo 56 ((c.a.pc : Int) + 32 * signed 24 off)))) ∧
     (Prepared (bare 0x05) s c →
       Completes (exec (.brz m inv off) s) s c (bare 0x05 c) c.t
         (if (if inv then ~~~(maskReg c.t m) else maskReg c.t m) &&& c.a.exec = 0
           then .to (wrapTo 56 ((c.a.pc : Int) + 32 * signed 20 off)) else .on)) ∧
     (Prepared (bare 0x06) s c →
       Completes (exec (.brnz m inv off) s) s c (bare 0x06 c) c.t
         (if (if inv then ~~~(maskReg c.t m) else maskReg c.t m) &&& c.a.exec = 0
           then .on else .to (wrapTo 56 ((c.a.pc : Int) + 32 * signed 20 off)))) ∧
     (Prepared (fun _ => plain 0x0d [⟨a, .scalar, false⟩] .none) s c → (opScalar c a).toNat % 32 = 0 →
       Completes (exec (.jmpi a) s) s c (plain 0x0d [⟨a, .scalar, false⟩] .none) c.t (.to (opScalar c a).toNat)) ∧
     (Prepared (bare 0x12) s c → Completes (exec .yield s) s c (bare 0x12 c) c.t .on) ∧
     (∀ (s1 : State) (u : Team), Prepared (fun _ => plain 0x0f [] (.passes clsInteger)) s c →
       Answers (recountTeam c.tid)
         (s.withTeam c.tid (modLanes c.t c.gm fun x => { x with st := if x.st = .live then .helper else x.st })) () s1 →
       find? s1.teams c.tid = some u →
       Completes (exec .demote s) s1 c (plain 0x0f [] (.passes clsInteger)) u .on) ∧
     (∀ a0, Prepared (fun _ => plain 0x0f [] (.passes clsInteger)) s c → c.t.a0 = some a0 → a0.arrived = [] →
       (c.t.a1 = none ∨ ∃ a1, c.t.a1 = some a1 ∧ a1.arrived = []) →
       Completes (exec .demote s) s c (plain 0x0f [] (.passes clsInteger))
         (modLanes c.t c.gm fun x => { x with st := if x.st = .live then .helper else x.st }) .on))

/-- 02 R40, R42, R196; 08 R220: BRD with no lane taken goes on, with all taken branches; otherwise it needs a join
target, and splits an unsplit team into a taken and a fall-through arm under a dual SPLIT entry, or in a split team
pushes a nested SPLIT entry with the taken lanes pending and goes on with the others. 02 R43; 08 R221: a JOIN that
is not the one of the dual SPLIT entry only moves on; at that JOIN an arm waits until the other has come, and then
the team is one again, with the lanes of both arms that have not exited. -/
def Obligations.Divergence : Prop :=
  (∀ (m off rejoin : Nat) (inv : Bool) (s s1 : State) (c : Cx) (u : Team) (g : Sig),
     g = plain 0x07 [] (.execPasses clsInteger 0) → Prepared (fun _ => g) s c →
     (branchLanes c m inv = 0 → Completes (exec (.brd m inv off) s) s c g c.t .on) ∧
     (branchLanes c m inv ≠ 0 → c.a.exec &&& ~~~(branchLanes c m inv) = 0 →
       Completes (exec (.brd m inv off) s) s c g c.t (.to (branchTarget c 20 off))) ∧
     (branchLanes c m inv ≠ 0 → c.a.exec &&& ~~~(branchLanes c m inv) ≠ 0 → c.a.jt = some rejoin → c.t.split = false →
       Answers (push c ⟨.split, true, 0, c.a.mode, 0, rejoin, 0, c.a.exec, 0⟩) s () s1 → find? s1.teams c.tid = some u →
       c.arm = 0 →
       ∃ v, exec (.brd m inv off) s = .next v ∧ ∃ w x y, find? v.teams c.tid = some w ∧ w.split = true ∧
         w.a0 = some x ∧ w.a1 = some y ∧ w.stack = u.stack ∧
         x.exec = c.a.exec &&& ~~~(branchLanes c m inv) ∧ y.exec = branchLanes c m inv ∧
         (x.pc, x.slot) = nextPlace c.a.pc c.a.slot ∧ (y.pc, y.slot) = (branchTarget c 20 off, 1) ∧
         x.mode = c.a.mode ∧ y.mode = c.a.mode ∧ x.jt = c.a.jt ∧ y.jt = c.a.jt) ∧
     (branchLanes c m inv ≠ 0 → c.a.exec &&& ~~~(branchLanes c m inv) ≠ 0 → c.a.jt = some rejoin → c.t.split = true →
       Answers (push c ⟨.split, false, 0, c.a.mode, 0, rejoin, branchTarget c 20 off, branchLanes c m inv, 0⟩) s () s1 →
       find? s1.teams c.tid = some u →
       Completes (exec (.brd m inv off) s) s1 c g
         (armSet c u fun x => { x with exec := c.a.exec &&& ~~~(branchLanes c m inv) }) .on)) ∧
  (∀ (s : State) (c : Cx) (g : Sig) (e : StackEntry) (r : List StackEntry),
     g = plain 0x09 [] (.execPasses clsInteger 0) → Prepared (fun _ => g) s c →
     (c.t.split = false → Completes (exec .join s) s c g c.t .on) ∧
     (c.t.split = true → c.t.stack.hw = e :: r → atDual c.t c.a = false → Completes (exec .join s) s c g c.t .on) ∧
     (c.t.split = true → c.t.stack.hw = e :: r → stackDepth c.a.stack = 0 → e.kind = .split → e.dual = true →
       e.rejoin = c.a.pc → (∃ x, armOf c.t (1 - c.arm) = some x ∧ x.wait ≠ .join) → c.arm < 2 →
       ∃ v, exec .join s = .next v ∧ ∃ w x, find? v.teams c.tid = some w ∧ w.split = true ∧ armOf w c.arm = some x ∧
         x.wait = .join ∧ x.pc = c.a.pc ∧ armOf w (1 - c.arm) = armOf c.t (1 - c.arm)) ∧
     (c.t.split = true → c.t.stack.hw = e :: r → stackDepth c.a.stack = 0 → e.kind = .split → e.dual = true →
       e.rejoin = c.a.pc → c.arm < 2 → ∀ x, armOf c.t (1 - c.arm) = some x → x.wait = .join →
       ∃ v, exec .join s = .next v ∧ ∃ w y, find? v.teams c.tid = some w ∧ w.split = false ∧ w.a0 = some y ∧ w.a1 = none ∧
         w.stack.hw = r ∧ y.exec = (c.a.exec ||| x.exec) &&& presentLanes c.t ∧
         (c.arm = 0 → (y.pc, y.slot) = nextPlace c.a.pc c.a.slot ∧ y.mode = c.a.mode)))

/-- 02 R45 and 18 R434: a push onto a stack with room puts the entry on top and changes nothing else; onto a stack of
256 entries it is a stack overflow. 07 R199; 08 R222-R224: CALL and CALLI push a CALL entry with the resume place,
mode, mask and window base, move the base and branch; RET takes the entry back: mode, base, residency, and the place
after the call. -/
def Obligations.CallsAndReturns : Prop :=
  (∀ (s : State) (c : Cx) (e : StackEntry), cxOf s c.tid c.arm c.bt = some c →
     (hasRoom c.t (stackIx c.t c.arm) →
       Answers (push c e) s () (s.withTeam c.tid (pushed c.t (stackIx c.t c.arm) e))) ∧
     (256 ≤ stackDepth (stackOf c.t (stackIx c.t c.arm)) → Stops (push c e) s (.trap (wholeTrap .stackOverflow)) s)) ∧
  (∀ (a : Opnd) (frame off : Nat) (s s1 s2 : State) (c : Cx) (u v : Team) (e : StackEntry),
     c.t.w + 8 * frame ≤ 4088 →
     (Prepared (bare 0x0a) s c →
       Answers (push c ⟨.call, false, (nextPlace c.a.pc c.a.slot).2, c.a.mode, 0, (nextPlace c.a.pc c.a.slot).1, c.t.w, c.a.exec, 0⟩) s () s1 →
       find? s1.teams c.tid = some u →
       Completes (exec (.call frame off) s) s1 c (bare 0x0a c) { u with w := c.t.w + 8 * frame } (.to (branchTarget c 20 off))) ∧
     (Prepared (fun _ => plain 0x0b [⟨a, .scalar, false⟩] .none) s c → (opScalar c a).toNat % 32 = 0 →
       Answers (push c ⟨.call, false, (nextPlace c.a.pc c.a.slot).2, c.a.mode, 0, (nextPlace c.a.pc c.a.slot).1, c.t.w, c.a.exec, 0⟩) s () s1 →
       find? s1.teams c.tid = some u →
       Completes (exec (.calli a frame) s) s1 c (plain 0x0b [⟨a, .scalar, false⟩] .none) { u with w := c.t.w + 8 * frame }
         (.to (opScalar c a).toNat)) ∧
     (Prepared (bare 0x0c) s c → Answers (topKind c .call) s e s1 → find? s1.teams c.tid = some u →
       Answers (restoreResident c 512) (s1.withTeam c.tid { armSet c u fun x => { x with mode := e.mode } with w := e.pending }) () s2 →
       find? s2.teams c.tid = some v →
       Completes (exec .ret s) s2 c (bare 0x0c c) (popped v (stackIx v c.arm)) (.back e.rejoin e.slot)))

/-- 08 R231, R232: LOOP with a count of 0 goes to its exit, with another it pushes a LOOP entry; ENDL goes round while
the count is above 1, and then drops the entry and leaves. -/
def Obligations.CountedLoops : Prop :=
  ∀ (d : Opnd) (imm : Nat) (s s1 : State) (c : Cx) (u : Team) (e : StackEntry) (g : Cx → Sig),
    g = (fun c => { plain 0x14 [⟨d, .scalar, false⟩] .none with
      operandOk := imm != 0 && decide ((opScalar c d).toNat < 2 ^ 32) }) →
    (Prepared g s c → opScalar c d = 0 →
      Completes (exec (.loop d imm) s) s c (g c) c.t (.to (wrapTo 56 ((c.a.pc : Int) + 32 * imm)))) ∧
    (Prepared g s c → opScalar c d ≠ 0 →
      Answers (push c ⟨.loop, false, 0, 0, (opScalar c d).setWidth 32, wrapTo 56 ((c.a.pc : Int) + 32 * imm),
        wrapTo 56 ((c.a.pc : Int) + 32), c.a.exec, 0⟩) s () s1 →
      find? s1.teams c.tid = some u → Completes (exec (.loop d imm) s) s1 c (g c) u .on) ∧
    (Prepared (bare 0x15) s c → Answers (topKind c .loop) s e s1 → find? s1.teams c.tid = some u →
      Completes (exec .endl s) s1 c (bare 0x15 c)
        (if 1 < e.count.toNat then
          withStack u (stackIx u c.arm)
            ⟨{ e with count := e.count - 1 } :: (stackOf u (stackIx u c.arm)).hw.tail, (stackOf u (stackIx u c.arm)).spilled⟩
        else popped u (stackIx u c.arm))
        (.to (if 1 < e.count.toNat then e.pending else e.rejoin)))

/-- 17 R400-R406; 08 R229: TRAP takes its software trap: a TRAP entry is pushed, s44 to s47 and m6 and m7 are written,
and the arm goes on at slot 1 of the handler. 08 R229: RFT gives the arm back the mode and the lanes of its TRAP
entry that have not exited, drops the entry, and goes on at its place; of the values that residual code left to the
handler, those stay noted that the handler has replaced (12 R373). -/
def Obligations.SoftwareTraps : Prop :=
  (∀ (imm : Nat) (s : State) (c : Cx), Prepared (bare 0x10) s c → TakesTraps c →
     Traps (exec (.trap imm) s) s c { wholeTrap .software with imm := imm } c.t) ∧
  (∀ (s s1 : State) (c : Cx) (u : Team) (e : StackEntry),
     Prepared (bare 0x11) s c → Answers (topKind c .trap) s e s1 → find? s1.teams c.tid = some u →
     Completes (exec .rft s) s1 c (bare 0x11 c)
       (armSet c (popped u (stackIx u c.arm)) fun x => { x with
         mode := e.mode, exec := e.mask &&& presentLanes (popped u (stackIx u c.arm))
         given := x.given.filter fun v => readS u v.1 != v.2 }) (.back e.rejoin e.slot))

/-- 18 R425: an instruction that fails a check takes that check's trap to the handler and has no other effect: the
integer, compare and floating-point register forms. -/
def Obligations.ChecksTrap : Prop :=
  ∀ (i : Instr) (g : Cx → Sig) (s : State) (c : Cx) (cause : Cause),
    ((∃ d a y r f, intRule i = some (d, a, y, r, f) ∧ g = intSig i.opcode r d a y) ∨
      (∃ d a y f, bitRule i = some (d, a, y, f) ∧ g = intSig i.opcode .dst d a y) ∨
      (∃ d a b f, cmpRule i = some (d, a, b, f) ∧ g = cmpSig i.opcode d a b) ∨
      (∃ f, floatForm i = some (g, f))) →
    s.focus = .team c.tid c.arm c.bt → cxOf s c.tid c.arm c.bt = some c → TakesTraps c →
    precheck s c (g c) = some cause → Traps (exec i s) s c (wholeTrap cause) c.t

/-- 08 R226, R227: REFILL reads its descriptor, gives each exited lane of its guard an item while there is one, makes
those lanes live and of the arm, stores the new head, and counts them in s_b. -/
def Obligations.Refill : Prop :=
  ∀ (d a b : Opnd) (s s1 s2 s3 : State) (c : Cx) (g : Cx → Sig) (ds : List (BitVec 8)) (head : Nat)
    (got : List (Nat × Word)) (u : Team),
    g = (fun c => { plain 0x13 [⟨d, .dst, false⟩, ⟨a, .scalar, false⟩, ⟨b, .uniform, false⟩] .none with
      faulted := some (refillLanes c)
      early := refillCheck c }) → Prepared g s c → (opScalar c a).toNat % 16 = 0 →
    (opScalar c a).toNat + 16 ≤ c.b.stashSize →
    Answers (stashRead c.req c.t.bid (opScalar c a).toNat 16) s ds s1 →
    Answers (takeItems c (numLE ((ds.drop 4).take 4)) (numLE ((ds.drop 8).take 4)) (numLE (ds.drop 12))
      (lanesOf c.t.lanes (refillLanes c)) (numLE (ds.take 4))) s1 (head, got, none) s2 →
    (if got = [] then s3 = s2
      else Answers (do
        stashWrite c.req c.t.bid (opScalar c a).toNat c.b.ctx (bytesLE 4 head)
        noteStash c (opScalar c a).toNat
        releaseFenced c) s2 () s3) →
    find? s3.teams c.tid = some u →
    ∃ i, d = .v i ∧
    ∃ j, b = .s j ∧
      Completes (exec (.refill d a b) s) s3 c (g c)
        (putS (armSet c (modLanes (putVs u i got) (maskOf (got.map (·.1))) fun x => { x with st := .live }) fun x =>
          { x with exec := x.exec ||| maskOf (got.map (·.1)) }) j (BitVec.ofNat 64 got.length)) .on

/-! ### Memory -/

/-- 09 R272, R274, R276; 05 R133 in a D slot: once every participating lane's address is aligned, the lanes read (an
atomic: read and write, lane by lane in increasing order), and each lane's bytes go to its lane of d; what else
changes is what the accesses change. The same in a T slot: one access, whose bytes, extended to 64 bits, go to s_d.
What a loaded value leaves (09 R272, 06 R157): in a D slot a pair for 8 bytes and a word for fewer, in the lane's d
alone; sign-extended from its size when asked, else zero-extended. That an instruction performs whole in its turn,
lane after lane, is the model's (log entry 5). -/
def Obligations.Loads : Prop :=
  (∀ (i : Instr) (f : ReadForm) (s s0 s1 s2 : State) (c : Cx) (xs : List (Nat × List (BitVec 8))) (u : Team),
     readForm i = some f → Prepared f.sig s c → c.bt = .d →
     Answers (f.before c) s () s0 → (∀ l ∈ f.lanes c, addrOf c f.addr l % f.align c = 0) →
     LanesAnswer (f.lane c) (fun l bs t => runAct (putLoaded c f.dst f.sx l bs) t) xs s0 s1 → xs.map (·.1) = f.lanes c →
     Answers (f.after c) s1 () s2 → find? s2.teams c.tid = some u → Completes (exec i s) s2 c (f.sig c) u .on) ∧
  (∀ (i : Instr) (f : ReadForm) (s s0 s1 s2 : State) (c : Cx) (bs : List (BitVec 8)) (u : Team),
     readForm i = some f → Prepared f.sig s c → c.bt ≠ .d → (f.writes = true → suppressed c = false) →
     Answers (f.before c) s () s0 → addrOf c f.addr 0 % f.align c = 0 → Answers (f.one c) s0 bs s1 →
     Answers (f.after c) s1 () s2 → find? s2.teams c.tid = some u →
     Completes (exec i s) s2 c (f.sig c) (putScalar f.dst (extendTo 64 f.sx bs) u) .on) ∧
  (∀ (c : Cx) (s : State) (i l : Nat) (sx : Bool) (bs : List (BitVec 8)) (t : Team),
     c.bt = .d → find? s.teams c.tid = some t →
     runAct (putLoaded c (.v i) sx l bs) s =
       s.withTeam c.tid (if bs.length = 8 then putPairs t i [(l, BitVec.ofNat 64 (numLE bs))]
         else putVs t i [(l, BitVec.ofNat 32 (extendTo 32 sx bs))]) ∧
     (bs.length ≤ 8 → extendTo 64 false bs = numLE bs ∧ numLE bs < 2 ^ (8 * bs.length) ∧
       (0 < bs.length → signed 64 (extendTo 64 true bs) = signed (8 * bs.length) (numLE bs))))

/-- 09 R273, R274; 05 R133; 02 R29: a store performs for the live governed lanes in increasing order in a D slot, or
once in a T slot; a release store, and any store after a release FENCE at a wide scope (05 R137), releases before
that, and again for the lines that it has written. No register changes. A store whose lanes' lines stand in the
core's L1 with write permission, or whose offsets lie in the block's unmapped stash, completes with those bytes
stored and nothing else changed (09 R273, R274; 04 R101, R102). A release store at scope 0 or 1 records its lines
(05 R143); at a wider scope, with slices that take its write-backs, it leaves no dirty line in the core's L1 (04
R101). That an instruction performs whole in its turn is the model's (log entry 5). -/
def Obligations.Stores : Prop :=
  (∀ (i : Instr) (f : StoreForm) (s s0 s1 s2 : State) (c : Cx) (xs : List (Nat × Unit)) (u : Team),
     storeForm i = some f → Prepared f.sig s c → Answers (f.rel c) s () s0 → Answers (f.rel c) s1 () s2 →
     find? s2.teams c.tid = some u →
     (c.bt = .d → (∀ l ∈ storeLanes c, addrOf c f.addr l % f.align c = 0) →
       LanesAnswer (f.lane c) (fun _ _ t => t) xs s0 s1 → xs.map (·.1) = storeLanes c →
       Completes (exec i s) s2 c (f.sig c) u .on) ∧
     (c.bt ≠ .d → suppressed c = false → addrOf c f.addr 0 % f.align c = 0 → Answers (f.lane c 0) s0 () s1 →
       Completes (exec i s) s2 c (f.sig c) u .on)) ∧
  (∀ (sz sc n : Nat) (z : Bool) (a b : Opnd) (ia : Nat → Nat) (s : State) (c : Cx) (g : Sig),
     c.a.fence = none → (c.bt ≠ .d → suppressed c = false) →
     (g = storeSig 0x91 clsL1 true sz a b → Prepared (fun _ => g) s c →
       (∀ l ∈ namedLanes c, addrOf c a l % sizeBytes sz = 0 ∧ LineTakes s c (addrOf c a l) (ia l)) →
       Completes (exec (.st sz a b) s) (s.withCore c.b.core { coreOf s c.b.core with
         l1 := storedLines c.b.world (c.req.ctx.getD 0x3ff) (coreOf s c.b.core).l1
           ((namedLanes c).map fun l => (ia l, storeData c b (sizeBytes sz) l)) }) c g c.t .on) ∧
     (g = storeSig 0x93 clsStash false sz a b → Prepared (fun _ => g) s c →
       (∀ l ∈ namedLanes c, regionAt c.b (offsetOf c a l) = none ∧ offsetOf c a l + sizeBytes sz ≤ c.b.stashSize) →
       Completes (exec (.sts sz a b) s) (s.withBlock c.t.bid (storedStash c.b
         ((namedLanes c).map fun l => (offsetOf c a l, storeData c b (sizeBytes sz) l)))) c g c.t .on) ∧
     (g = { plain 0x95 [⟨a, .src, true⟩, ⟨b, .src, z⟩] (.passes clsL1) with
         values := Machine.scopeOk sc false
         scope := some (sc, false) } → Prepared (fun _ => g) s c → n = (if z then 8 else 4) →
       (∀ l ∈ namedLanes c, addrOf c a l % n = 0 ∧ LineTakes s c (addrOf c a l) (ia l)) →
       (sc < 2 → (coreOf s c.b.core).release.length + (namedLanes c).length ≤ 32 →
         ∃ t, exec (.stl z sc a b) s = .next t ∧ Moved t c ∧ t.mem = s.mem ∧ t.llc = s.llc ∧
           (coreOf t c.b.core).l1 = storedLines c.b.world (c.req.ctx.getD 0x3ff) (coreOf s c.b.core).l1
             ((namedLanes c).map fun l => (ia l, storeData c b n l)) ∧
           ∀ l ∈ namedLanes c, ∃ e ∈ (coreOf t c.b.core).release, e.world = c.b.world ∧ e.line = ia l / 64) ∧
       (2 ≤ sc → s.stopped = [] → s.hostOwned = [] → (∀ i, sliceBusy s i = false) →
         ∃ t, exec (.stl z sc a b) s = .next t ∧ Moved t c ∧
           ∀ k x, find? (coreOf t c.b.core).l1 k = some x → x.dirty = 0)))

/-- 09 R269; 17 R400, R405: a misaligned lane of a global load, store or atomic makes the instruction an alignment trap
before any lane performs: m6 holds the misaligned lanes, s46 the address of the lowest. -/
def Obligations.AlignmentTraps : Prop :=
  ∀ (s : State) (c : Cx) (d a b : Opnd) (la sz : Nat) (sx : Bool), c.bt = .d → TakesTraps c → sz < 4 → sizeBytes sz ≠ 1 →
    (Prepared (fun _ => loadSig 0x90 clsL1 true d a la sx sz) s c →
      ((lanesOf c.t.lanes c.gm).filter fun l => addrOf c a l % sizeBytes sz != 0) ≠ [] →
      Traps (exec (.ld d a la sx sz) s) s c
        (laneAlignTrap c a .read ((lanesOf c.t.lanes c.gm).filter fun l => addrOf c a l % sizeBytes sz != 0)) c.t) ∧
    (Prepared (fun _ => storeSig 0x91 clsL1 true sz a b) s c →
      ((storeLanes c).filter fun l => addrOf c a l % sizeBytes sz != 0) ≠ [] →
      Traps (exec (.st sz a b) s) s c
        (laneAlignTrap c a .write ((storeLanes c).filter fun l => addrOf c a l % sizeBytes sz != 0)) c.t)

/-- 04 R88: bytes stored in machine memory read back, and every other byte reads as before. 04 R96, R99, R101; 13 R376:
a read that hits the core's L1 gives the line's bytes and changes nothing, once the line's home slice has confirmed
that its leaves allow reads; a write that hits a line with write permission, which the host has not taken, changes
its bytes there, marks them dirty under the writing context, and changes nothing else: no other line, no byte of
machine memory; any other hit asks the home slice first. 04 R102; 09 R272, R273; 20 R471: a write to an unmapped
part of a block's stash stores its bytes there, leaves every other byte of the stash and all else alone, and clears
the poison of words wholly written; an unpoisoned read gives the bytes. The dirty bits by byte are the model's (log
entry 10). -/
def Obligations.StorageAccesses : Prop :=
  (∀ (s : State) (ma j : Nat) (bs : List (BitVec 8)), MemInv s →
     ∃ t, Answers (putMem ma bs) s () t ∧ MemInv t ∧ readMem t.mem ma bs.length = bs ∧
       (j < ma ∨ ma + bs.length ≤ j → rd t.mem j = rd s.mem j) ∧ { t with mem := s.mem } = s) ∧
  (∀ (r : Req) (core ia owner n : Nat) (alloc : Bool) (bs : List (BitVec 8)) (s s1 : State) (l : L1Line),
     find? (coreOf s core).l1 (l1Key ia r.world) = some l →
     (l.rdOk = true → Answers (l1Read r core ia 0 n alloc) s (lineBytes l.bytes (ia % 64) n) s) ∧
     (l.rdOk = false → Answers (confirm r ia l.ma .read) s () s1 →
       Answers (l1Read r core ia 0 n alloc) s (lineBytes l.bytes (ia % 64) n)
         (s1.withCore core { coreOf s1 core with l1 := put (coreOf s1 core).l1 (l1Key ia r.world) { l with rdOk := true } })) ∧
     ((l.wrOk = false ∨ hostOwns s l.ma = true) → Answers (confirm r ia l.ma .write) s () s1 →
       Answers (l1Write r core ia 0 owner bs) s ()
         (s1.withCore core { coreOf s1 core with
           l1 := put (coreOf s1 core).l1 (l1Key ia r.world) { l with
             wrOk := true, bytes := putBytes l.bytes (ia % 64) bs
             dirty := l.dirty ||| byteMask (ia % 64) bs.length, owner := owner } })) ∧
     (l.wrOk = true → hostOwns s l.ma = false →
       Answers (l1Write r core ia 0 owner bs) s ()
         (s.withCore core { coreOf s core with
           l1 := put (coreOf s core).l1 (l1Key ia r.world) { l with
             bytes := putBytes l.bytes (ia % 64) bs, dirty := l.dirty ||| byteMask (ia % 64) bs.length, owner := owner } }))) ∧
  (∀ (r : Req) (bid off owner n : Nat) (bs : List (BitVec 8)) (s : State) (b : Block),
     find? s.blocks bid = some b → (∀ j, j ≤ Nat.max bs.length n → regionAt b (off + j) = none) → sorted b.stash = true →
     Answers (stashWrite r bid off owner bs) s ()
       (s.withBlock bid { b with
         stash := putBytes b.stash off bs
         stashPoison := b.stashPoison.filter fun w => !(decide (off ≤ 4 * w) && decide (4 * w + 4 ≤ off + bs.length)) }) ∧
     (∀ j, rd (putBytes b.stash off bs) j =
       if off ≤ j ∧ j < off + bs.length then bs.getD (j - off) 0 else rd b.stash j) ∧
     (stashBad b off n = false → Answers (stashRead r bid off n) s ((List.range n).map fun j => rd b.stash (off + j)) s))

/-- 09 R275, R277: PREF moves on and asks for its lanes' lines, and what would stop an access drops it; LDK reads 8
bytes at the home slice after its acquire, LDCW reads the constant window, STK releases and then writes 8 bytes at
the home slice, and AADDK updates a counter and takes its old value. -/
def Obligations.UniformAccesses : Prop :=
  ∀ (d a b : Opnd) (la lv sc sz ia old : Nat) (rmk sx : Bool) (s s0 s1 s2 : State) (c : Cx) (bs : List (BitVec 8)) (u : Team),
    (∀ g : Sig, g = { plain 0x97 [⟨a, .src, true⟩] (.passes clsL1) with values := lv != 3 } → Prepared (fun _ => g) s c →
      find? (runAct (prefLanes lv a c) s).teams c.tid = some u →
      Completes (exec (.pref lv a) s) (runAct (prefLanes lv a c) s) c g u .on) ∧
    (∀ g : Sig, g = { plain 0xa5 [⟨d, .dst, false⟩, ⟨a, .scalar, false⟩] .none with
        values := Machine.scopeOk sc rmk
        scope := some (sc, rmk)
        la := some (la, d, false) } → Prepared (fun _ => g) s c →
      (opScalar c a).toNat % 8 = 0 → Answers (acquireAt c sc) s () s0 →
      Answers (homeRead c d 8 rmk (firstOf c) (opScalar c a).toNat) s0 bs s1 → find? s1.teams c.tid = some u →
      Completes (exec (.ldk d a la rmk sc) s) s1 c g (putScalar d (numLE bs) u) .on) ∧
    (∀ g : Sig, g = { plain 0xa8 [⟨d, .dst, false⟩, ⟨a, .scalar, false⟩] .none with
        values := !(sx && decide (sz < 2))
        la := some (la, d, false) } → Prepared (fun _ => g) s c →
      (opScalar c a).toNat + sizeBytes sz ≤ launchWindowSize c.l → (opScalar c a).toNat % sizeBytes sz = 0 →
      Answers (readVa c.req c.b c.t.bid (launchWindowAddr c.l + (opScalar c a).toNat) (sizeBytes sz) true) s bs s1 →
      find? s1.teams c.tid = some u →
      Completes (exec (.ldcw d a la sx sz) s) s1 c g (putScalar d (extendTo 64 sx bs) u) .on) ∧
    (∀ g : Sig, g = { plain 0xa6 [⟨a, .scalar, false⟩, ⟨b, .scalar, false⟩] .none with
        values := Machine.scopeOk sc false
        scope := some (sc, false) } → Prepared (fun _ => g) s c → suppressed c = false →
      (opScalar c a).toNat % 8 = 0 → Answers (do releaseAt c sc; releaseFenced c) s () s0 →
      Answers (homeWrite c (opScalar c a).toNat (opScalar c b).toNat) s0 ia s1 →
      (if sc < 2 ∧ peerOf s1 ia = none then Answers (noteReleaseHere c ia) s1 () s2 else s2 = s1) → find? s2.teams c.tid = some u →
      Completes (exec (.stk sc a b) s) s2 c g u .on) ∧
    (∀ g : Sig, g = plain 0xa7 [⟨d, .dst, false⟩, ⟨a, .scalar, false⟩, ⟨b, .scalar, false⟩] .none →
      Prepared (fun _ => g) s c → suppressed c = false → (opScalar c a).toNat % 8 = 0 →
      (∃ s3, Answers (releaseFenced c) s () s3 ∧ Answers (plainIa c (opScalar c a).toNat .rmw) s3 ia s0) → peerOf s0 ia = none →
      Answers (flushOwn c.req c.b c.t.bid (opScalar c a).toNat ia) s0 () s1 →
      Answers (counterSignal c false ia (opScalar c b).toInt) s1 old s2 → find? s2.teams c.tid = some u → old < 2 ^ 64 →
      Completes (exec (.aaddk d a b) s) s2 c g (putScalar d old u) .on)

/-- 09 R278, R279, R282; 04 R101-R104; 17 R409: FENCE releases, acquires and delivers errors at its scope; WAITA
delivers once every posted access is acknowledged; STMAP maps a free aligned range of the stash; STUNMAP writes its
dirty chunks back and unmaps it, and STFLUSH writes them back and keeps it. -/
def Obligations.FencesAndMaps : Prop :=
  ∀ (a b : Opnd) (sc o r : Nat) (s s1 s2 s3 : State) (c : Cx) (u : Team) (x : Block) (rg : Region),
    (∀ g : Sig, g = { plain 0xa1 [] .none with values := o != 0 && Machine.scopeOk sc false, scope := some (sc, false) } →
      Prepared (fun _ => g) s c →
      (if bitSet o 1 then (sc = 6 → owedPosts c = []) ∧
        ∃ s0, Answers (releaseAt c sc) s () s0 ∧
          s1 = runAct (modArm c.tid c.arm fun x => { x with fence := widerFence x.fence (some sc) }) s0 else s1 = s) →
      (if bitSet o 0 then Answers (acquireAt c sc) s1 () s2 else s2 = s1) →
      Answers (deliverAsync c sc) s2 () s3 → find? s3.teams c.tid = some u →
      Completes (exec (.fence sc o) s) s3 c g u .on) ∧
    (∀ g : Sig, g = { plain 0xb8 [] .none with values := Machine.scopeOk sc false, scope := some (sc, false) } →
      Prepared (fun _ => g) s c → owedPosts c = [] → Answers (deliverAsync c sc) s () s3 → find? s3.teams c.tid = some u →
      Completes (exec (.waita sc) s) s3 c g u .on) ∧
    (∀ g : Sig, g = plain 0xa2 [⟨a, .scalar, false⟩, ⟨b, .scalar, false⟩] .none → Prepared (fun _ => g) s c →
      suppressed c = false → rg = ⟨(opScalar c a).toNat, bitsOf (opScalar c b).toNat 0 32, bitsOf (opScalar c b).toNat 32 32⟩ →
      find? c.b.regions r = none →
      (∀ e ∈ c.b.regions, overlaps rg.off rg.size e.2.off e.2.size = false ∧ overlaps rg.va rg.size e.2.va e.2.size = false) →
      rg.off % 4096 = 0 → rg.size % 4096 = 0 → rg.va % 4096 = 0 → rg.size ≠ 0 → rg.off + rg.size ≤ c.b.stashSize →
      mapRangeOk s c.b.ctx rg.va rg.size = true →
      Completes (exec (.stmap r a b) s) (s.withBlock c.t.bid { c.b with regions := put c.b.regions r rg }) c g c.t .on) ∧
    (∀ g : Sig, g = plain 0xa3 [] .none → Prepared (fun _ => g) s c → find? c.b.regions r = some rg →
      Answers (each (chunksOf c.b rg) fun i => do promoteChunk c.t.bid i; recallChunk c.t.bid i) s () s1 →
      find? s1.blocks c.t.bid = some x → find? s1.teams c.tid = some u →
      Completes (exec (.stunmap r) s) (s1.withBlock c.t.bid { x with regions := del x.regions r }) c g u .on) ∧
    (∀ g : Sig, g = plain 0xa4 [] .none → Prepared (fun _ => g) s c → find? c.b.regions r = some rg →
      Answers (each (chunksOf c.b rg) fun i => do promoteChunk c.t.bid i; backChunk c.t.bid i) s () s1 →
      find? s1.teams c.tid = some u → Completes (exec (.stflush r) s) s1 c g u .on)

/-! ### Barriers, counters and the ends of arms -/

/-- 09 R280; 05 R149: BAR arrives for its team; the arrival that leaves no live team missing completes the generation
and wakes who waits, and the arm goes on; any other waits with its arrival noted. In an arm with no live lane BAR is
suppressed (18 R440; log entry 29). 09 R281: NBARA and NBARAW with a count that is not the open generation's are
barrier misuse; else the team's arrival is counted and NBARA goes on; NBARW passes once the completed count is above
its team's wait count, which it raises, and waits before; NBARAW goes on when its own arrival completes the
generation, and raises the wait count past it once every arm of its team with lanes has passed, and otherwise waits.
In an arm with no live lane each is suppressed (18 R440; log entry 29). -/
def Obligations.Barriers : Prop :=
  (∀ (s s1 : State) (c : Cx) (u w : Team) (g : Sig) (all : Nat),
     g = plain 0xb0 [] .none → Prepared (fun _ => g) s c →
     (suppressed c = true → Completes (exec .bar s) s c g c.t .on) ∧
     (suppressed c = false → c.t.sfault = false → bitSet c.b.barrived c.t.idx = false →
     u = armSet c c.t (fun x => { x with arrived := put x.arrived 16 c.b.bgen }) → allMarked u 16 c.b.bgen = true →
     all = c.b.barrived ||| 2 ^ c.t.idx →
     ((all &&& liveTeams c.b = liveTeams c.b →
       s1 = runAct (wakeBarriers c.t.bid)
         ((s.withTeam c.tid u).withBlock c.t.bid { c.b with bgen := c.b.bgen + 1, barrived := 0 }) →
       find? s1.teams c.tid = some w → Completes (exec .bar s) s1 c g w .on) ∧
     (all &&& liveTeams c.b ≠ liveTeams c.b →
       Waits (exec .bar s) (s.withBlock c.t.bid { c.b with barrived := all }) c
         (armSet c u fun x => { x with redo := some ⟨c.a.exec, 0, 0, 0, c.b.bgen.toNat, none, 0, 0⟩ }) .barrier)))) ∧
  (∀ (a : Opnd) (n k : Nat) (s s1 : State) (c : Cx) (x : NBar) (u w : Team),
     (suppressed c = true →
       (Prepared (nbarSig 0xb1 a) s c → Completes (exec (.nbara a n) s) s c (nbarSig 0xb1 a c) c.t .on) ∧
       (Prepared (fun _ => plain 0xb2 [] .none) s c → Completes (exec (.nbarw n) s) s c (plain 0xb2 [] .none) c.t .on) ∧
       (Prepared (nbarSig 0xb3 a) s c → Completes (exec (.nbaraw a n) s) s c (nbarSig 0xb3 a c) c.t .on)) ∧
     (suppressed c = false → c.t.sfault = false → x = nbarOf c.b n → k = (opScalar c a).toNat →
     u = armSet c (armSet c c.t fun y => { y with arrived := put y.arrived n x.completed })
       (fun y => { y with arrived := put y.arrived (48 + n) (BitVec.ofNat 32 k) }) →
     ((∀ i op, (i, op) ∈ [(Instr.nbara a n, 0xb1), (Instr.nbaraw a n, 0xb3)] → Prepared (nbarSig op a) s c →
       teamArrived c.b n c.t.idx = false →
       (x.arrivals ≠ 0 → x.expected ≠ k → TakesTraps c → Traps (exec i s) s c (wholeTrap .barrierMisuse) c.t) ∧
       (x.arrivals = 0 ∨ x.expected = k → allMarked u n x.completed = true → s1 = arrivedAt s c n k u →
         find? s1.teams c.tid = some w →
         (op = 0xb1 → Completes (exec i s) s1 c (nbarSig op a c) w .on) ∧
         (op = 0xb3 → x.arrivals + 1 = k → ∀ v, v = armSet c w (fun y => { y with arrived := put y.arrived (32 + n) x.completed }) →
           (¬ (allMarked v (32 + n) x.completed = true ∧ 0 < (x.completed + 1 - waitCount v n).toInt) →
             Completes (exec i s) s1 c (nbarSig op a c) v .on) ∧
           (allMarked v (32 + n) x.completed = true → 0 < (x.completed + 1 - waitCount v n).toInt → ∀ s2 v2,
             s2 = runAct (wakeBarriers c.t.bid) (s1.withTeam c.tid { v with nbWait := wr v.nbWait n (x.completed + 1) }) →
             find? s2.teams c.tid = some v2 → Completes (exec i s) s2 c (nbarSig op a c) v2 .on)) ∧
         (op = 0xb3 → x.arrivals + 1 ≠ k →
           Waits (exec i s) s1 c
             (armSet c w fun y => { y with redo := some ⟨c.a.exec, 0, 0, 0, x.completed.toNat + 2 ^ 32, none, 0, 0⟩ }) .barrier))) ∧
     (Prepared (fun _ => plain 0xb2 [] .none) s c → find? c.a.arrived (32 + n) ≠ some (waitCount c.t n) →
       (0 < (x.completed - waitCount c.t n).toInt →
         ∀ v, v = armSet c c.t (fun y => { y with arrived := put y.arrived (32 + n) (waitCount c.t n) }) →
         allMarked v (32 + n) (waitCount c.t n) = true →
         s1 = runAct (wakeBarriers c.t.bid) (s.withTeam c.tid { v with nbWait := wr v.nbWait n (waitCount c.t n + 1) }) →
         find? s1.teams c.tid = some w →
         Completes (exec (.nbarw n) s) s1 c (plain 0xb2 [] .none) w .on) ∧
       ((x.completed - waitCount c.t n).toInt ≤ 0 → Waits (exec (.nbarw n) s) s c c.t .barrier)))))

/-- 09 R282; 19 R446: WAITC and WAITB observe their location at its home; a location that satisfies them lets them go on
after an acquire, with the stream's flags merged and errors delivered; one that does not leaves the arm at a watch
entry while one of the core's 64 is free and the home is here, and else at a poll. SIGNAL releases and adds to its
counter. -/
def Obligations.CounterWaits : Prop :=
  ∀ (cmp sc va n k target op v ia old : Nat) (ok : Bool) (a b : Opnd) (i : Instr) (s s1 s2 s3 : State) (c : Cx) (u : Team),
    ((i = .waitc cmp sc a b ∧ op = 0xb4 ∧ ok = decide (cmp < 3) ∧ va = (opScalar c a).toNat ∧ n = 8 ∧ k = cmp ∧
        target = (opScalar c b).toNat) ∨
      (i = .waitb sc a b ∧ op = 0xb5 ∧ ok = true ∧ va = (opScalar c a).toNat + (opScalar c b).toNat / 8 ∧ n = 1 ∧ k = 3 ∧
        target = (opScalar c b).toNat % 8) →
      Prepared (fun _ => waitSig op sc ok a b) s c → c.t.sfault = false → (opScalar c a).toNat % 8 = 0 →
      c.a.joined = false → Answers (observe c va n) s v s1 →
      (watchHolds k v target = true → Answers (do acquireAt c sc; mergeFlags c va; deliverAsync c sc) s1 () s2 →
        find? s2.teams c.tid = some u → Completes (exec i s) s2 c (waitSig op sc ok a b) u .on) ∧
      (watchHolds k v target = false → Answers (plainIa c va .read) s1 ia s2 → find? s2.teams c.tid = some u →
        Waits (exec i s) s2 c u
          (if watchesOn s2 c.b.core < 64 ∧ peerOf s2 ia = none then .watch c.b.world ia k (BitVec.ofNat 64 target)
            else .poll c.b.world ia k (BitVec.ofNat 64 target)))) ∧
    (Prepared (fun _ => waitSig 0xb6 sc true a b) s c → suppressed c = false → (opScalar c a).toNat % 8 = 0 →
      Answers (plainIa c (opScalar c a).toNat .rmw) s ia s1 → peerOf s1 ia = none →
      Answers (do releaseAt c sc; releaseFenced c; flushOwn c.req c.b c.t.bid (opScalar c a).toNat ia) s1 () s2 →
      Answers (counterSignal c (decide (sc < 2)) ia (opScalar c b).toInt) s2 old s3 → find? s3.teams c.tid = some u →
      Completes (exec (.signal sc a b) s) s3 c (waitSig 0xb6 sc true a b) u .on)

/-- 08 R225; 02 R46: EXIT takes the governed lanes out of the team and of the arm; an arm that keeps a lane goes on; an
unsplit team without one retires, and its block goes on while another of its teams lives. -/
def Obligations.LaneExit : Prop :=
  ∀ (s : State) (c : Cx) (g : Sig), g = plain 0x0e [] .none → Prepared (fun _ => g) s c →
    (c.a.exec &&& ~~~c.gm ≠ 0 →
      Completes (exec .exit s) s c g
        (armSet c (modLanes c.t c.gm fun x => { x with st := .exited }) fun x => { x with exec := x.exec &&& ~~~c.gm }) .on) ∧
    (c.a.exec &&& ~~~c.gm = 0 → c.t.split = false → c.t.task = none → c.t.aerr.pending = false → c.b.barrived = 0 →
      liveTeams { c.b with retired := c.b.retired ||| 2 ^ c.t.idx } ≠ 0 →
      ∃ v, exec .exit s = .next v ∧
        (∃ x, find? v.teams c.tid = some x ∧ x.retired = true ∧ x.a0 = none ∧ x.a1 = none ∧ x.split = false ∧
          x.lanes = c.t.lanes ∧ x.v = c.t.v ∧ x.sreg = c.t.sreg) ∧
        (∀ k, k ≠ c.tid → find? v.teams k = find? s.teams k) ∧
        (∃ x, find? v.blocks c.t.bid = some x ∧ x.unspent = { c.b.unspent with retired := c.b.retired ||| 2 ^ c.t.idx }) ∧
        v.mem = s.mem)

/-! ### Engines, keys and tasks -/

/-- 10 R309-R316, R319; 05 R146: an engine command whose parameters, stash ranges and record pass its checks releases at
device scope and puts its operation in the engine's queue; DEPN puts the node that its record describes among the
armed nodes. A parameter that fails is the engine-parameter trap, and with the queue full the arm waits. -/
def Obligations.EngineCommands : Prop :=
  ∀ (i : Instr) (k : OpKind) (op : Nat) (d a b : Opnd) (s s1 s2 : State) (c : Cx) (run : List Nat) (rva ctl : Nat) (u : Team)
    (g : Sig) (o : EngineOp) (bs : List (BitVec 8)) (s0 : State),
    rva = (opScalar c d).toNat → ctl = (opScalar c b).toNat → suppressed c = false →
    (cmdForm i = some (k, op, d, a, b) → g = cmdSig op (runRegs k) d a b → Prepared (fun _ => g) s c →
      run = (List.range (runRegs k)).map (fun j => (runAt c a j).toNat) →
      (cmdOk k rva ctl run = false → TakesTraps c → Traps (exec i s) s c (wholeTrap .engineParameter) c.t) ∧
      (cmdOk k rva ctl run = true → Answers (checkSides c (sidesOf k (2 ^ bitsOf ctl 32 2) run)) s () s →
        Answers (checkRecord c rva) s () s1 →
        ((s1.ops.filter fun e => e.2.cluster = clusterOfCore c.b.core && e.2.phase = .queued).length < 64 →
          Answers (releaseWide c.b.core c.t.bid) s1 () s2 → find? s2.teams c.tid = some u →
          Completes (exec i s) { s2 with ops := put s2.ops s2.nextId (opOf c k rva ctl run), nextId := s2.nextId + 1 } c g u .on) ∧
        (64 ≤ (s1.ops.filter fun e => e.2.cluster = clusterOfCore c.b.core && e.2.phase = .queued).length →
          find? s1.teams c.tid = some u → Waits (exec i s) s1 c u .room))) ∧
    (i = .depn d a b → g = cmdSig 0xc6 1 d a b → Prepared (fun _ => g) s c →
      rva % 16 = 0 → (runAt c a 0).toNat % 64 = 0 → bitsOf ctl 35 29 = 0 → bitsOf ctl 32 2 = 0 →
      Answers (scalarAccess c (runAt c a 0).toNat .read (readOwn c (runAt c a 0).toNat 8)) s bs s0 →
      nodeOk (wordsOf 8 bs) = true →
      o = { nodeOp c rva ctl (wordsOf 8 bs) with nodeVa := (runAt c a 0).toNat } →
      Answers (checkSides c (sidesOf o.kind 1 o.run)) s0 () s0 → Answers (checkRecord c rva) s0 () s1 →
      (s1.ops.filter fun e => e.2.cluster = clusterOfCore c.b.core && e.2.node).length < 64 →
      Answers (releaseWide c.b.core c.t.bid) s1 () s2 → find? s2.teams c.tid = some u →
      Completes (exec i s) { s2 with ops := put s2.ops s2.nextId o, nextId := s2.nextId + 1 } c g u .on)

/-- 10 R312-R317, R320: a queued command that is next and finds fewer than 8 operations at work starts and frees its
place, and so does an armed node whose wait counter reads 0; of the active operations each performs one unit in
turn: a unit of COPY or FILL within a stash, and an element, is written at its destination and counted; one with
nothing left has ended with state done; a FILL of a stash range within one unit, alone at work, ends with the range
filled. The end of an operation takes it from the engine and writes its record, once; a fault gives the record its
state and the team its error. That all units of an operation are performed in one event is the model's (log entry
4). -/
def Obligations.EngineEvents : Prop :=
  ∀ (id cluster st cls : Nat) (s s0 s1 s2 s3 : State) (o o1 : EngineOp) (ia : Nat) (q : Nat) (bs : List (BitVec 8))
    (left : List (Nat × Nat)),
    find? s.ops id = some o → o.cluster = cluster →
    (o.phase = .queued → nextInQueue s id o = true → activeOps s cluster < 8 → o1 = { o with phase := .active } →
      s0 = { s with copyTurn := put s.copyTurn cluster (o.core, ((find? s.copyTurn cluster).getD (0, 0)).2) } →
      exec (.engineOpStart cluster id) s =
        .next (runAct (do workUntil cluster id (opTotal o + 3); wakeRoom) (s0.withOp id o1))) ∧
    (o.phase = .active → isPeerKind o.kind = false →
      (o.kind ≠ .gath → o.kind ≠ .scat → unitAt o o.done = none →
        Answers (performUnit id) s () (s.withOp id { o with phase := .ended 1 0 })) ∧
      (o.kind = .gath ∨ o.kind = .scat → opTotal o ≤ o.done →
        Answers (performUnit id) s () (s.withOp id { o with phase := .ended 1 0 })) ∧
      (o.kind = .gath ∨ o.kind = .scat → o.done < opTotal o → Answers (doElement o o.done) s none s1 →
        Answers (performUnit id) s () (s1.withOp id { o with done := o.done + 1 })) ∧
      (∀ dst src n k, o.kind ≠ .gath → o.kind ≠ .scat → unitAt o o.done = some (dst, src, n) →
        Answers (doUnit o dst src n) s (k, none) s1 →
        Answers (performUnit id) s () (s1.withOp id { o with done := o.done + k }))) ∧
    (o.phase = .armed → activeOps s cluster < 8 → o1 = { o with phase := .active, sent := 1 } → o.waitVa ≠ 0 →
      Answers (iaFor o.ctx o.waitVa .read) s (ia, q) s → Answers (sliceRead (opReq o) ia 8 .read) s bs s1 →
      (numLE bs ≠ 0 → exec (.depnNodeStart cluster id) s = .next s1) ∧
      (numLE bs = 0 → Answers (promoteOwner (some o.ctx) o.world ia none) s1 () s3 →
        (match (find? s3.blocks o.bid).filter fun b => b.st = .resident with
          | some b => Answers (acquireWide b.core) s3 () s2
          | none => s2 = s3) →
        exec (.depnNodeStart cluster id) s = .next (runAct (workUntil cluster id (opTotal o + 3)) (s2.withOp id o1)))) ∧
    (o.phase = .armed → activeOps s cluster < 8 → o1 = { o with phase := .active, sent := 1 } → o.waitVa = 0 →
      exec (.depnNodeStart cluster id) s = .next (runAct (workUntil cluster id (opTotal o + 3)) (s.withOp id o1))) ∧
    (o.phase = .ended st cls →
      (if st = 1 then Answers (workingFor (some (o.bid, o.ctx)) (lowerAll o o.succs)) s left s3 else left = [] ∧ s3 = s) →
      s0 = { s3 with ops := del s3.ops id } → s1 = (if o.node then runAct wakeRoom s0 else s0) →
      (left = [] → exec (.engineOpComplete cluster id) s =
        .next (runAct (workingFor (some (o.bid, o.ctx)) (opRecord o st cls)) s1)) ∧
      (left ≠ [] → exec (.engineOpComplete cluster id) s = .next (s3.withOp id { o with succs := left }))) ∧
    (o.phase = .faulting cls → s0 = { s with ops := del s.ops id } → s1 = (if o.node then runAct wakeRoom s0 else s0) →
      exec (.engineOpFault cluster id) s = .next (runAct (do
        workingFor (some (o.bid, o.ctx)) (opRecord o 2 cls)
        let t ← get
        opError o cls o.peer (failedIaOf t o)) s1)) ∧
    (∀ (off pat n : Nat) (b : Block), o.phase = .queued → nextInQueue s id o = true → activeOps s cluster < 8 →
      (∀ e ∈ s.ops, e.2.cluster = cluster → e.2.phase ≠ .active) →
      (isFirmwareCore o.core = true ∨ hasChargeSet (coreOf s o.core) o.ctx = true) →
      (∀ e ∈ s.cores, ∀ x ∈ e.2.charges, x.2.granted = false) → o.kind = .fill → o.run = [2 ^ 63 + off, pat, n] → o.done = 0 →
      0 < n → off % 512 + n ≤ 512 → find? s.blocks o.bid = some b → b.st = .resident → off + n ≤ b.stashSize →
      (∀ j, j < n → regionAt b (off + j) = none) → sorted b.stash = true →
      ∃ t o2 b2, exec (.engineOpStart cluster id) s = .next t ∧ find? t.ops id = some o2 ∧ o2.phase = .ended 1 0 ∧ o2.done = n ∧
        find? t.blocks o.bid = some b2 ∧
        ∀ j, rd b2.stash j = if off ≤ j ∧ j < off + n then BitVec.ofNat 8 (pat / 256 ^ (j % 8)) else rd b.stash j)

/-- 04 R116-R122; 11 R334, R335, R348; 20 R491-R493: SEQNEW and KEYGEN give 0 when there is no free slot, and otherwise
make the slot a key that is being installed while the arm waits; the end of the installation gives the arm the
handle, or 0 when a replica did not acknowledge. SEQEND notes its handle and goes on; its end destroys the slot of a
current handle and reports 1, of any other 0. KEYDEL destroys a world. A slot that is destroyed is empty with its
generation raised, or retired, and no LLC line keeps it. SEQNEW with a free slot makes it a sequence of the arm's
world, and KEYGEN the empty slot of a world a world key: the arm waits until the key is in every replica, and then
goes on with the handle in s_d (04 R117-R119; 11 R334, R348). SEQEND goes on at once, and the table then destroys
the slot of a current handle (04 R120; 11 R335). KEYDEL completes with the world's slot destroyed and no line of the
world left (04 R122; 11 R348). Which job an event ends is the model's (log entry 4). -/
def Obligations.KeyTable : Prop :=
  (∀ (d a b : Opnd) (slot w id tid arm gen va ctx world core slice n : Nat) (ox : Option Nat) (s s0 s1 : State) (c : Cx) (u : Team)
     (k : KeySlot) (src : Nat × Nat) (g : Cx → Sig),
     (g = (fun _ => plain 0xd7 [⟨d, .dst, false⟩] .none) → Prepared g s c → suppressed c = false →
       (c.a.joined = true → Completes (exec (.seqnew d) s) s c (g c) c.t .on) ∧
       (c.a.joined = false → freeSlot s = none → Completes (exec (.seqnew d) s) s c (g c) (putScalar d 0 c.t) .on) ∧
       (c.a.joined = false → freeSlot s = some slot → Answers (secretCommand (keyPayer c) (if (keyPayer c).isNone then 64 else c.b.world) c.req.src) s () s1 →
         find? s1.teams c.tid = some u →
         Waits (exec (.seqnew d) s) (installing (runAct (breakSeals slot (keyOf s1 slot).gen) s1) slot .sequence c.b.world c d)
           c u (.keyInstall slot))) ∧
     (g = (fun _ => { plain 0xf3 [⟨d, .dst, false⟩] .none with firmware := true }) → Prepared g s c →
       (c.a.joined = true → Completes (exec (.keygen d w) s) s c (g c) c.t .on) ∧
       (c.a.joined = false → (keyOf s w).st ≠ .empty → Completes (exec (.keygen d w) s) s c (g c) (putScalar d 0 c.t) .on) ∧
       (c.a.joined = false → (keyOf s w).st = .empty → Answers (secretCommand none 64 c.req.src) s () s1 → find? s1.teams c.tid = some u →
         Waits (exec (.keygen d w) s) (installing (runAct (breakSeals w (keyOf s1 w).gen) s1) w .world w c d) c u
           (.keyInstall w))) ∧
     (g = (fun c => { plain 0xd8 [⟨a, .scalar, false⟩, ⟨b, .scalar, false⟩] .none with
         operandOk := decide ((opScalar c a).toNat < 2 ^ 32) }) → Prepared g s c → suppressed c = false →
       (opScalar c b).toNat % 16 = 0 →
       Completes (exec (.seqend a b) s)
         { s with keyJobs := put s.keyJobs s.nextId (.seqend ((opScalar c a).toNat % 4096) ((opScalar c a).toNat / 4096)
                    (opScalar c b).toNat c.tid c.b.ctx c.b.world c.b.core (keyPayer c))
                  nextId := s.nextId + 1 } c (g c) c.t .on) ∧
     (g = (fun _ => { plain 0xf4 [⟨d, .scalarBoth, false⟩] .none with
         firmware := true }) → Prepared g s c →
       Answers (destroyWorld c.req.src ((opScalar c d).toNat % 64)) s () s1 → find? s1.teams c.tid = some u →
       Completes (exec (.keydel d) s) s1 c (g c) u .on) ∧
     (firstJob s (installsSlot slot) = some (id, .install slot tid arm (256 + n)) →
       find? s.teams tid = some u → ∀ x, armOf u arm = some x →
       exec (.keyInstallComplete slot) s = .next ((runAct (if slot < 64 then resetFlows slot else pure ())
         ({ s with keyJobs := del s.keyJobs id }.withKey slot { keyOf s slot with installing := false })).withTeam tid (withArm (putS u n (BitVec.ofNat 64 (handleOf s slot))) arm
           (some { x with wait := .retry, joined := true }))) ∧
       ((keyOf s slot).gen + 1 < 2 ^ 20 → exec (.keyInstallTimeout slot) s = .next ({ s with keyJobs := del s.keyJobs id }.withKey slot
         { keyOf s slot with st := .empty, gen := (keyOf s slot).gen + 1, installing := false, badReplicas := [] }
         |>.withTeam tid (withArm (putS u n 0) arm (some { x with wait := .retry, joined := true }))))) ∧
     (firstJob s (endsSlot slot)
         = some (id, .seqend slot gen va tid ctx world core ox) → s0 = { s with keyJobs := del s.keyJobs id } → k = keyOf s slot →
       (64 ≤ slot → k.st = .sequence → k.owner = world → k.gen = gen → k.installing = false →
         (va = 0 → exec (.seqendComplete slot) s = .next (runAct (destroySlot ox world (coreRouter core) slot) s0)) ∧
         (va ≠ 0 → exec (.seqendComplete slot) s = .next (runAct (do
           destroySlot ox world (coreRouter core) slot
           makeLate ⟨tid, ctx, world, core, none, va, some (progressWord 1 1 0), none, 1, none⟩) s0))) ∧
       (k.gen ≠ gen →
         (va = 0 → exec (.seqendComplete slot) s = .next s0) ∧
         (va ≠ 0 → exec (.seqendComplete slot) s = .next (runAct
           (makeLate ⟨tid, ctx, world, core, none, va, some (progressWord 0 1 0), none, 1, none⟩) s0)))) ∧
     (k = keyOf s slot → k.badReplicas.contains slice = true →
       (k.badReplicas.length < 64 → n = ((List.range 64).find? fun i => !k.badReplicas.contains i).getD 0 →
         exec (.keySlotRecovery slice slot) s = .next (runAct (do
             command none 64 (routerOfSlice slice) (routerOfSlice n) 64
             sliceRecord slice { ErrRec.blank with type := 6, cls := 4 })
           (s.withKey slot { k with badReplicas := dropAll k.badReplicas slice }))) ∧
       (64 ≤ k.badReplicas.length → 64 ≤ slot →
         exec (.keySlotRecovery slice slot) s = .next (runAct (destroySlot none 64 (routerOfSlice slice) slot) s))) ∧
     (Answers (destroySlot ox world src slot) s () s1 →
       ((keyOf s1 slot).st = .empty ∨ (keyOf s1 slot).st = .retired) ∧ (keyOf s1 slot).installing = false ∧
       (∀ e ∈ s1.llc, lineSlot e.1 ≠ slot) ∧ (∀ e ∈ s1.tlb, e.2.slot = slot → e.2.erased = true))) ∧
  (∀ (d a b : Opnd) (slot n w : Nat) (s : State) (c : Cx),
     (d = .s n → freeSlot s = some slot → Prepared (fun _ => plain 0xd7 [⟨d, .dst, false⟩] .none) s c → suppressed c = false →
       c.a.joined = false → (∀ e ∈ s.keyJobs, installsSlot slot e.2 = false) → sorted c.t.sreg = true →
       ∃ s1 s2 s3, exec (.seqnew d) s = .next s1 ∧ exec (.keyInstallComplete slot) s1 = .next s2 ∧
         exec (.seqnew d) s2 = .next s3 ∧ Moved s3 c ∧
         (∃ u, find? s3.teams c.tid = some u ∧ readS u n = BitVec.ofNat 64 (slot + (keyOf s slot).gen * 4096)) ∧
         keyOf s3 slot = { keyOf s slot with st := .sequence, owner := c.b.world, installing := false, badReplicas := [] }) ∧
     (d = .s n → Prepared (fun _ => { plain 0xf3 [⟨d, .dst, false⟩] .none with firmware := true }) s c → c.a.joined = false →
       (keyOf s w).st = .empty → (∀ e ∈ s.keyJobs, installsSlot w e.2 = false) → sorted c.t.sreg = true →
       ∃ s1 s2 s3, exec (.keygen d w) s = .next s1 ∧ exec (.keyInstallComplete w) s1 = .next s2 ∧
         exec (.keygen d w) s2 = .next s3 ∧ Moved s3 c ∧
         (∃ u, find? s3.teams c.tid = some u ∧ readS u n = BitVec.ofNat 64 (w + (keyOf s w).gen * 4096)) ∧
         keyOf s3 w = { keyOf s w with st := .world, owner := w, installing := false, badReplicas := [] }) ∧
     (Prepared (fun c => { plain 0xd8 [⟨a, .scalar, false⟩, ⟨b, .scalar, false⟩] .none with
         operandOk := decide ((opScalar c a).toNat < 2 ^ 32) }) s c → suppressed c = false → opScalar c b = 0 →
       64 ≤ slot → slot < 4096 → opScalar c a = BitVec.ofNat 64 (slot + (keyOf s slot).gen * 4096) →
       (keyOf s slot).gen < 2 ^ 20 → (keyOf s slot).st = .sequence → (keyOf s slot).owner = c.b.world →
       (keyOf s slot).installing = false → (∀ e ∈ s.keyJobs, endsSlot slot e.2 = false) →
       ∃ s1 s2, exec (.seqend a b) s = .next s1 ∧ Moved s1 c ∧ exec (.seqendComplete slot) s1 = .next s2 ∧
         ((keyOf s2 slot).st = .empty ∨ (keyOf s2 slot).st = .retired) ∧ (∀ e ∈ s2.llc, lineSlot e.1 ≠ slot)) ∧
     (Prepared (fun _ => { plain 0xf4 [⟨d, .scalarBoth, false⟩] .none with firmware := true }) s c →
       w = (opScalar c d).toNat % 64 →
       ∃ t, exec (.keydel d) s = .next t ∧ Moved t c ∧ ((keyOf t w).st = .empty ∨ (keyOf t w).st = .retired) ∧
         (∀ e ∈ t.llc, lineSlot e.1 ≠ w ∧ e.2.world ≠ w) ∧
         ∀ core, (coreOf s core).latch = some w → ∀ e ∈ (coreOf t core).l1, e.2.world ≠ w))

/-- 11 R325-R328, R331, R333: TSPAWN queues a copy of its record and reports whether there was room; TNEXT starts the
record that fits, or waits, or retires its team on a stop record; TDONE lowers the record's successor and clears the
task; LAUNCH joins the team's queue of four; TRIG arms the lowest free entry; TDISARM clears an entry of its
context. -/
def Obligations.TaskInstructions : Prop :=
  ∀ (d a : Opnd) (s s0 s1 s2 s3 : State) (c : Cx) (u : Team) (x : Arm) (bs : List (BitVec 8)) (w : List DWord) (p q : Partition)
    (f : TaskFate) (ia op old : Nat) (r : Option Nat) (g : Cx → Sig),
    (g = (fun _ => plain 0xd0 [⟨d, .dst, false⟩, ⟨a, .scalar, false⟩] .none) → Prepared g s c → suppressed c = false →
      (opScalar c a).toNat % 64 = 0 →
      Answers (scalarAccess c (opScalar c a).toNat .read (readOwn c (opScalar c a).toNat 8)) s bs s0 → w = wordsOf 8 bs →
      taskOk s0 c.b.world w = true → Answers (releaseWide c.b.core c.t.bid) s0 () s1 →
      find? s1.partitions c.b.part = some p → Answers (taskFate p c.b.world (some c.b.core) w) s1 f s2 →
      (∀ core, f = .core core → Answers (addTask core w) s2 () s3 → find? s3.teams c.tid = some u →
        Completes (exec (.tspawn d a) s) s3 c (g c) (putScalar d 0 u) .on) ∧
      (f = .full → find? s2.teams c.tid = some u → Completes (exec (.tspawn d a) s) s2 c (g c) (putScalar d 1 u) .on) ∧
      (f = .held → find? s2.partitions c.b.part = some q → find? s2.teams c.tid = some u →
        Completes (exec (.tspawn d a) s) (s2.withPartition c.b.part { q with tasks := q.tasks ++ [w] }) c (g c)
          (putScalar d 0 u) .on)) ∧
    (g = (fun _ => plain 0xd1 [] .none) → Prepared g s c → c.t.split = false → stackDepth c.t.stack = 0 → c.t.task = none →
      c.arm = 0 →
      (pickTask (coreOf s c.b.core).tasks c.t.lanes c.t.weight = none → Waits (exec .tnext s) s c c.t .room) ∧
      (pickTask (coreOf s c.b.core).tasks c.t.lanes c.t.weight = some w → taskEntry w ≠ 0 →
        hasChargeSet (coreOf s c.b.core) (taskContext w) = true →
        Answers (acquireWide c.b.core) s () s0 →
        Answers (placeHeldTasks c.b.part)
          (s0.withCore c.b.core { coreOf s0 c.b.core with tasks := (coreOf s0 c.b.core).tasks.erase w }) () s1 →
        find? s1.teams c.tid = some u → u.a0 = some x →
        Completes (exec .tnext s) (runAct (addCharge c.b.core (taskContext w) 0) s1) c (g c) (startTask w x u)
          (.to (taskEntry w))) ∧
      (pickTask (coreOf s c.b.core).tasks c.t.lanes c.t.weight = some w → taskEntry w = 0 → c.t.aerr.pending = false →
        Answers (acquireWide c.b.core) s () s0 →
        Answers (placeHeldTasks c.b.part)
          (s0.withCore c.b.core { coreOf s0 c.b.core with tasks := (coreOf s0 c.b.core).tasks.erase w }) () s1 →
        s1.teams = s.teams → s1.blocks = s.blocks → c.b.barrived = 0 →
        liveTeams { c.b with retired := c.b.retired ||| 2 ^ c.t.idx } ≠ 0 →
        ∃ v y, exec .tnext s = .next v ∧ find? v.teams c.tid = some y ∧ y.retired = true ∧ y.a0 = none ∧
          ∀ l ∈ y.lane, l.st = .exited)) ∧
    (g = (fun _ => plain 0xd2 [] .none) → Prepared g s c → c.t.split = false → c.t.task = some w →
      (suppressed c = true → Completes (exec .tdone s) s c (g c) c.t .on) ∧
      (suppressed c = false → taskSuccessor w = 0 → Completes (exec .tdone s) s c (g c) { c.t with task := none } .on) ∧
      (suppressed c = false → taskSuccessor w ≠ 0 → taskSuccessor w % 8 = 0 →
        Answers (plainIa c (taskSuccessor w) .rmw) s ia s0 →
        (if taskRelease w = true then Answers (releaseWide c.b.core c.t.bid) s0 () s1 else s1 = s0) →
        Answers (do releaseFenced c; flushOwn c.req c.b c.t.bid (taskSuccessor w) ia) s1 () s2 →
        Answers (counterSignal c false ia (-(taskDecrement w : Int))) s2 old s3 → find? s3.teams c.tid = some u →
        Completes (exec .tdone s) s3 c (g c) { u with task := none } .on)) ∧
    (g = (fun _ => plain 0xd3 [⟨a, .scalar, false⟩] .none) → Prepared g s c → suppressed c = false →
      (opScalar c a).toNat % 64 = 0 →
      (c.t.pendingLaunch.length < 4 →
        Answers (scalarAccess c (opScalar c a).toNat .read (readOwn c (opScalar c a).toNat 64)) s bs s0 →
        Answers (scalarAccess c (opScalar c a).toNat .read (plainIa c (opScalar c a).toNat .read)) s0 ia s1 → Answers (releaseWide c.b.core c.t.bid) s1 () s2 → find? s2.teams c.tid = some u →
        Completes (exec (.launch a) s) s2 c (g c)
          { u with pendingLaunch := u.pendingLaunch ++ [⟨wordsOf 64 bs, ia, c.b.ctx, c.b.world, some c.tid, false⟩] } .on) ∧
      (4 ≤ c.t.pendingLaunch.length → Waits (exec (.launch a) s) s c c.t .room)) ∧
    (g = (fun _ => { plain 0xd5 [⟨d, .dst, false⟩, ⟨a, .scalar, false⟩] .none with operandOk := runOk a 5 }) → Prepared g s c →
      suppressed c = false → trigOk (runAt c a 0).toNat (runAt c a 2).toNat (runAt c a 4).toNat = true →
      rangePlace (contextOf s c.b.ctx) (runAt c a 0).toNat = some ia → peerOf s ia = none →
      rangePlace (contextOf s c.b.ctx) (runAt c a 2).toNat = some op →
      Answers (armTrigger c.b.part (trigEntry c ia op (runAt c a 1) (runAt c a 3) (runAt c a 4).toNat)) s r s2 →
      find? s2.teams c.tid = some u →
      Completes (exec (.trig d a) s) s2 c (g c) (putScalar d (r.getD (2 ^ 64 - 1)) u) .on) ∧
    (g = (fun c => { plain 0xd6 [⟨d, .dst, false⟩, ⟨a, .scalar, false⟩] .none with
        operandOk := decide ((opScalar c a).toNat ≤ 255) }) → Prepared g s c → find? s.partitions c.b.part = some p →
      (∀ e, find? p.triggers (opScalar c a).toNat = some e → e.ctx = c.b.ctx → e.parked = none →
        Completes (exec (.tdisarm d a) s) (s.withPartition c.b.part { p with triggers := del p.triggers (opScalar c a).toNat })
          c (g c) (putScalar d 1 c.t) .on) ∧
      (∀ e k, find? p.triggers (opScalar c a).toNat = some e → e.ctx = c.b.ctx → e.parked = some k →
        Completes (exec (.tdisarm d a) s) (runAct (modBlock k.1 fun b => { b with trigger := none })
          (s.withPartition c.b.part { p with triggers := del p.triggers (opScalar c a).toNat }))
          c (g c) (putScalar d 1 c.t) .on) ∧
      ((∀ e, find? p.triggers (opScalar c a).toNat = some e → e.ctx ≠ c.b.ctx) →
        Completes (exec (.tdisarm d a) s) s c (g c) (putScalar d 0 c.t) .on))

/-- 02 R52, R53, R60; 03 R78; 04 R100; 05 R151; 09 R282; 11 R329; 12 R365; 19 R442, R454, R455, R461: counter updates,
notifications and polls of waits, stealing, retries, JOINC and its patience, resumable faults and their resolution,
and the saving and flushing of blocks. The events themselves and their order are the model's (log entry 4). -/
def Obligations.WorkEvents : Prop :=
  ∀ (tid arm ia cmp sc thief victim bid part id va v since world : Nat) (delta : Int) (target : DWord) (ok : Bool) (a b : Opnd)
    (s s1 s2 : State) (c : Cx) (u : Team) (bs : List (BitVec 8)) (ws : List (List DWord)) (x : Block) (p : Partition) (f : FaultRec)
    (i : Option Nat),
    (ia % 8 = 0 → ia < 2 ^ 52 → world < 64 → ∀ r : Req, r = ⟨routerOfSlice (sliceOf ia), none, none, none, world⟩ →
      (∀ old t, Answers (counterAdd r ia delta) s old t → exec (.counterUpdate world ia delta) s = .next t) ∧
      (∀ w t, Stops (counterAdd r ia delta) s (.wait w) t →
        exec (.counterUpdate world ia delta) s = .next { keepingTraffic s t with turnedAway := true }) ∧
      ∀ (e : TlbEntry) (l : LlcLine), Serves s r ia e l →
        (∀ q ∈ s.partitions, ∀ x ∈ q.2.triggers, x.2.counter ≠ ia ∨ x.2.world ≠ world) →
        ∃ t, exec (.counterUpdate world ia delta) s = .next t ∧ t.mem = s.mem ∧
          t.llc = put s.llc (llcKey (maOf e ia) e.slot) { l with
            bytes := putBytes l.bytes (ia % 512)
              (bytesLE 8 (wrapTo 64 ((numLE (lineBytes l.bytes (ia % 512) 8) : Nat) + delta)))
            dirty := l.dirty ||| BitVec.twoPow 8 (ia / 64 % 8), owner := 0x3ff }) ∧
    (cxOf s tid arm .t = some c → peerOf s ia = none →
      (∀ (e : TlbEntry) (l : LlcLine) (n v : Nat), Serves s c.req ia e l → n = (if cmp = 3 then 1 else 8) → ia % n = 0 →
        v = numLE (lineBytes l.bytes (ia % 512) n) → watchHolds cmp v target.toNat = true →
        (c.a.wait = .watch world ia cmp target → ∃ t, exec (.watchNotify tid arm) s = .next t ∧
          t.teams = put s.teams tid (armSet c c.t fun y => { y with wait := .retry, joined := true }) ∧ t.llc = s.llc) ∧
        (c.a.wait = .poll world ia cmp target → ∃ t, exec (.waitPoll tid arm) s = .next t ∧
          t.teams = put s.teams tid (armSet c c.t fun y => { y with wait := .retry, joined := true }) ∧ t.llc = s.llc)) ∧
      (Answers (sliceRead c.req ia (if cmp = 3 then 1 else 8) .read) s bs s1 → find? s1.teams tid = some u →
      s2 = (if watchHolds cmp (numLE bs) target.toNat then
        s1.withTeam tid (armSet c u fun y => { y with wait := .retry, joined := true }) else s1) →
      (c.a.wait = .watch world ia cmp target → armOf u arm = some c.a → exec (.watchNotify tid arm) s = .next s2) ∧
      (c.a.wait = .poll world ia cmp target → armOf u arm = some c.a → exec (.waitPoll tid arm) s = .next s2))) ∧
    ((coreOf s thief).tasks = [] → (coreOf s thief).stealing = none → holdsTask s thief = false → thief ≠ victim →
      partitionOfQuad s (quadOfCore thief) = partitionOfQuad s (quadOfCore victim) → isFirmwareCore victim = false →
      isFirmwareCore thief = false → (coreOf s thief).latch = (coreOf s victim).latch → (coreOf s thief).latch ≠ none →
      ws = stealable (coreOf s victim).tasks →
      exec (.stealRequest thief victim) s = .next (runAct (placeHeldTasks (partOfCore s victim))
        ((s.withCore victim { coreOf s victim with
          tasks := (dropUnpinned ws.length (coreOf s victim).tasks.reverse).reverse }).withCore thief
            { coreOf s thief with stealing := some ws }))) ∧
    ((coreOf s thief).stealing = some ws → find? s.partitions (partOfCore s thief) = some p →
      ∀ own rest : List (List DWord),
      own = (ws.filter fun w => (coreOf s thief).latch.isSome && (contextOf s (taskContext w)).world = (coreOf s thief).latch) →
      rest = (ws.filter fun w => !((coreOf s thief).latch.isSome && (contextOf s (taskContext w)).world = (coreOf s thief).latch)) →
      exec (.stealAnswer thief) s = .next (runAct (placeHeldTasks (partOfCore s thief)) ((runAct wakeRoom
        (s.withCore thief { coreOf s thief with
        stealing := none
        tasks := (coreOf s thief).tasks ++ own.take (256 - (coreOf s thief).tasks.length) })).withPartition
          (partOfCore s thief) { p with
            tasks := p.tasks ++ rest ++ own.drop (own.take (256 - (coreOf s thief).tasks.length)).length }))) ∧
    (cxOf s tid arm .t = some c → s.late = [] →
      exec (.requestRetry tid arm) s = .next (if c.a.wait = .refused then
        s.withTeam tid (armSet c c.t fun y => { y with wait := .retry }) else s.withTeam tid c.t)) ∧
    (Prepared (fun _ => waitSig 0xd4 sc (decide (cmp < 3)) a b) s c → c.t.sfault = false → va = (opScalar c a).toNat →
      va % 8 = 0 → c.a.joined = false → Answers (observe c va 8) s v s1 →
      (watchHolds cmp v (opScalar c b).toNat = true → Answers (do acquireAt c sc; mergeFlags c va; deliverAsync c sc) s1 () s2 →
        find? s2.teams c.tid = some u →
        Completes (exec (.joinc cmp sc a b) s) s2 c (waitSig 0xd4 sc (decide (cmp < 3)) a b) u .on) ∧
      (watchHolds cmp v (opScalar c b).toNat = false → (contextOf s1 c.b.ctx).jpat ≠ 0 → hasLeft s1 c.t.bid = false →
        Answers (plainIa c va .read) s1 ia s2 →
        find? s2.teams c.tid = some u →
        Waits (exec (.joinc cmp sc a b) s) s2 c u (.joinc c.b.world ia cmp (opScalar c b)
          (decide (watchesOn s2 c.b.core < 64) && (peerOf s2 ia).isNone) (s1.time + (contextOf s1 c.b.ctx).jpat)))) ∧
    (cxOf s tid arm .t = some c → c.a.wait = .joinc world ia cmp target ok since →
      (s.time < since → exec (.joinPatienceExpired tid arm) s = .next s) ∧
      (since ≤ s.time → exec (.joinPatienceExpired tid arm) s =
        .next (runAct (parkBlock c.t.bid c.t.idx arm ia cmp target) s)) ∧
      (since ≤ s.time → c.b.st = .resident → saveReady s c.t.bid c.b = true →
        find? s.partitions c.b.part = some p → freeTrigger p ≠ none → peerOf s ia = none → ∀ s0,
        Answers (sliceRead (frontReq c.b.part (some c.b.ctx) c.b.world) ia 8 .read) s bs s0 →
        Answers (saveBlock c.t.bid c.b.frameVa .parked false) s0 true s1 →
        Answers (armTrigger c.b.part (parkEntry c.b ia cmp target c.t.bid c.t.idx arm)) s1 i s2 →
        find? s2.blocks c.t.bid = some x → x.st = .parked →
        exec (.joinPatienceExpired tid arm) s = .next (s2.withBlock c.t.bid { x with trigger := i }))) ∧
    (find? s.blocks bid = some x → x.faults = [id] → find? s.faults id = some f → f.state = 0 → f.op ≠ none →
      find? s.partitions x.part = some p → x.trigger = none →
      (0 < p.faultFree → p.faultWait = [] →
        exec (.resumableFault bid) s = .next { s.withPartition x.part { p with faultFree := p.faultFree - 1, faultWait := [] } with
          faults := put s.faults id { f with state := 2 }
          hostBox := s.hostBox ++ [.fault id (if f.stage = 1 then guestOf s f.world else none) f.stage f.world f.addr] }) ∧
      (p.faultFree = 0 →
        exec (.resumableFault bid) s = .next { s.withPartition x.part { p with faultWait := p.faultWait ++ [id] } with
          faults := put s.faults id { f with state := 1 } })) ∧
    (find? s.partitions part = some p → p.faultWait = [id] → 0 < p.faultFree → find? s.faults id = some f → find? s.blocks f.bid = none →
      exec (.faultCounterGrant part) s = .next { s.withPartition part { p with faultFree := p.faultFree - 1, faultWait := [] } with
        faults := put s.faults id { f with state := 2 }
        hostBox := s.hostBox ++ [.fault id (if f.stage = 1 then guestOf s f.world else none) f.stage f.world f.addr] }) ∧
    (find? s.faults id = some f → f.state = 2 → find? s.blocks f.bid = some x → find? s.partitions x.part = some p →
      ∀ n o, f.op = some n → find? s.ops n = some o →
      exec (.faultResolution id ok) s = .next (({ s with faults := del s.faults id }.withPartition x.part
        { p with faultFree := p.faultFree + 1 }).withBlock f.bid { x with faults := dropAll x.faults id } |>.withOp n
          (resolveOp ok o))) ∧
    (find? s.blocks bid = some x →
      (x.preempt = .save → x.st = .resident → saveReady s bid x = true → armedFor s x = false →
        exec (.blockSave bid) s = .next (runAct (saveBlock bid x.frameVa .saved true) s)) ∧
      (x.preempt = .save → x.st = .resident → saveReady s bid x = true → armedFor s x = true →
        exec (.blockSave bid) s = .next (runAct (saveBlock bid x.frameVa .parked false) s)) ∧
      (x.preempt = .flush → x.st = .resident → exec (.blockFlush bid) s = .next (runAct (flushBlock bid true) s)) ∧
      (∀ limit, x.preempt = .drain limit →
        exec (.drainOverrun bid) s = .next (if limit < spentOf s bid x then
          runAct (preemptGangs [x.launch]) (s.withBlock bid { x with preempt := .save }) else s)))

/-! ### The matrix stream -/

/-- 10 R283; 11 R341: MSTR binds an unbound stream at its entry with its record, clears its tiles and is charged for
them; on a stream that is bound with the same record it only moves on; a launch without a stream is a stream-state
trap. 10 R292-R299, R302, R306; 07 R205: the sequencer's instructions: each changes the stream as its rule says,
moves it on, and is charged; an RWAIT, MBARW or MEND whose condition does not hold waits. -/
def Obligations.Streams : Prop :=
  (∀ (a : Opnd) (s : State) (c : Cx) (g : Sig) (rva : Nat),
     g = plain 0xc7 [⟨a, .scalar, false⟩] .none → Prepared (fun _ => g) s c → suppressed c = false →
     rva = (opScalar c a).toNat → rva % 16 = 0 →
     (launchStream c.l = 0 → TakesTraps c → Traps (exec (.mstr a) s) s c (wholeTrap .streamState) c.t) ∧
     (launchStream c.l ≠ 0 → c.b.stream.bound = true → c.b.stream.recVa = rva → Completes (exec (.mstr a) s) s c g c.t .on) ∧
     (launchStream c.l ≠ 0 → c.b.stream.bound = false →
       Completes (exec (.mstr a) s)
         (s.withBlock c.t.bid { c.b with
           stream := { Stream.idle with
             bound := true, pc := streamEntry s c, slot := 1, recVa := rva, binder := c.tid, waits := c.b.stream.waits }
           tile := []
           tilePoison := [] }) c g c.t .on)) ∧
  (∀ (s s1 : State) (bt : Bt) (x : Sx) (b : Block) (i sp n c d imm wo : Nat) (dir : Bool) (r : Ring) (h : BitVec 32 × BitVec 32)
     (e : MLoop) (rest : List MLoop) (y : NBar),
     s.focus = .stream x.bid bt → sxOf s x.bid = some x →
     (r = ringOfWord (launchConst x.l i).toNat sp dir → ringOk x.b.stashSize r = true →
       (∀ o, find? x.st.rings n = some o → o.held = false) → Answers (ringHeader x r.hdr) s h s1 →
       find? s1.blocks x.bid = some b →
       StreamGoes (exec (.ringd (.k i) sp dir n) s) s1 x { b with stream := { b.stream with
         rings := put b.stream.rings n { r with cursor := if dir then h.1 else h.2 } } } .on) ∧
     (find? x.st.rings n = some r → r.held = false → Answers (ringHeader x r.hdr) s h s1 → find? s1.blocks x.bid = some b →
       (ringReady r h = true → StreamGoes (exec (.rwait n) s) s1 x
         { b with stream := { b.stream with rings := put b.stream.rings n { r with held := true } } } .on) ∧
       (ringReady r h = false → liveTeams b ≠ 0 →
         exec (.rwait n) s = .next (s1.withBlock x.bid { b with stream := { b.stream with wait := .ring n } }))) ∧
     (find? x.st.rings n = some r → r.held = true →
       Answers (streamWrite x (if r.dir then r.hdr else r.hdr + 4) (bytesLE 4 (r.cursor + 1).toNat)) s () s1 →
       find? s1.blocks x.bid = some b →
       StreamGoes (exec (.rfree n) s) s1 x
         { b with stream := { b.stream with rings := put b.stream.rings n { r with cursor := r.cursor + 1, held := false } } } .on) ∧
     (1 ≤ c → c ≤ 9 → y = nbarOf x.b n → y.stream = false → y.arrivals = 0 ∨ y.expected = c →
       (y.arrivals + 1 = c → s1 = runAct (wakeBarriers x.bid) (s.withBlock x.bid { x.b with
           nbar := put x.b.nbar n ⟨y.completed + 1, c, 0, 0, false⟩ }) → find? s1.blocks x.bid = some b →
         StreamGoes (exec (.mbara c n) s) s1 x b .on) ∧
       (y.arrivals + 1 ≠ c → StreamGoes (exec (.mbara c n) s) s x
         { x.b with nbar := put x.b.nbar n { y with expected := c, arrivals := y.arrivals + 1, stream := true } } .on)) ∧
     (y = nbarOf x.b n →
       (0 < (y.completed - rd x.st.waits n).toInt → StreamGoes (exec (.mbarw n) s) s x
         { x.b with stream := { x.st with waits := wr x.st.waits n (rd x.st.waits n + 1) } } .on) ∧
       ((y.completed - rd x.st.waits n).toInt ≤ 0 → liveTeams x.b ≠ 0 →
         exec (.mbarw n) s = .next (s.withBlock x.bid { x.b with stream := { x.st with wait := .barrier } }))) ∧
     (Answers (loopCount x imm) s n s → d ≠ 0 →
       (n = 0 → StreamGoes (exec (.mloop d imm) s) s x x.b (.to (x.st.pc + 32 * d))) ∧
       (n ≠ 0 → x.st.loops.length < 4 → StreamGoes (exec (.mloop d imm) s) s x
         { x.b with stream := { x.st with loops := ⟨n, x.st.pc + 32, x.st.pc + 32 * d⟩ :: x.st.loops } } .on)) ∧
     (x.st.loops = e :: rest → StreamGoes (exec .mendl s) s x
       { x.b with stream := { x.st with loops := if 1 < e.count then { e with count := e.count - 1 } :: rest else rest } }
       (.to (if 1 < e.count then e.head else e.exit))) ∧
     exec .mnop s = .next (s.withBlock x.bid { x.b with stream := streamAt x .on x.st }) ∧
     (x.st.inFlight = true → exec .mend s = .next (s.withBlock x.bid { x.b with stream := { x.st with wait := .drain } })) ∧
     (x.st.inFlight = false → x.st.recVa = 0 → liveTeams x.b ≠ 0 →
       ∃ t, exec .mend s = .next t ∧ ChargedOnly (runAct (freeEngine x.bid) (s.withBlock x.bid { x.b with
         stream := { x.st with bound := false, rings := dropHeld x.st.rings, wait := .none } })) t) ∧
     (x.st.inFlight = false → x.st.recVa ≠ 0 → Answers (do
         chargeStream x (streamWeight s x clsFront 1) false
         modStream x.bid fun st => { st with bound := false, rings := dropHeld st.rings, wait := .none }
         freeEngine x.bid
         streamRecord x.bid x.b 1 0) s () s1 → find? s1.blocks x.bid = some b → liveTeams b ≠ 0 → exec .mend s = .next s1) ∧
     (x.st.recVa = 0 → StreamGoes (exec .mflag s) s x x.b .on) ∧
     (x.st.recVa ≠ 0 →
       Answers (writeFlag x) s () s1 →
       find? s1.blocks x.bid = some b → StreamGoes (exec .mflag s) s1 x b .on) ∧
     (convOk (launchConst x.l i).toNat wo = true → StreamGoes (exec (.convset (.k i) wo) s) s x
       { x.b with stream := { x.st with conv := some ⟨launchConst x.l i, wo, 0, 0⟩ } } .on))

/-- 10 R288-R290: a tile operation without a grant enters the engine's waits; one with it performs its body, takes the
engine, is counted and moves on. A free engine grants the entry with the greatest score; the end of a tile operation
frees it. 06 R180; 10 R300, R305: ACCZ zeroes its tile, ACCLD fills it from the slot, a dense MMA of types without
codebooks adds A times B in groups of 32, ACCST writes its elements converted to the slot; no other tile changes.
With the engine granted and the slots that it names held, each tile operation completes with its own value in every
element of its tile and no other tile changed (06 R180-R183; 10 R300-R305): ACCZ 0; ACCLD the f32 elements of its
slot; ACCST stores the tile converted; MTRN, MPERM and MRED add the product with their generated matrix; MMA, MMAS
and MMAV add the product of their operands, and MMAV moves its window on (10 R303). What grants and ends a tile
operation are events of the agenda (log entry 4). -/
def Obligations.TileOperations : Prop :=
  (∀ (i : Instr) (body : Sx → Act Nat) (s s1 : State) (bt : Bt) (x : Sx) (b : Block) (mq cluster bid : Nat) (r : Ready),
     (tileForm i = some body → s.focus = .stream x.bid bt → sxOf s x.bid = some x →
       ((engineOf s x.cluster).granted ≠ some x.bid →
         exec i s = .next ((s.withEngine x.cluster { engineOf s x.cluster with
           waits := put (engineOf s x.cluster).waits x.bid s.time }).withBlock x.bid
             { x.b with stream := { x.st with wait := .engine } })) ∧
       ((engineOf s x.cluster).granted = some x.bid → Answers (body x) s mq s1 → find? s1.blocks x.bid = some b →
         StreamGoes (exec i s) (s1.withEngine x.cluster { engineOf s1 x.cluster with
           granted := none, busy := some x.bid, row := 0 }) x
           { b with stream := { b.stream with ops := b.stream.ops + 1, inFlight := true } } .on)) ∧
     ((engineOf s cluster).granted = none → (engineOf s cluster).busy = none → bestReady (readyEntries s cluster) = some r →
       find? s.blocks r.bid = some b →
       exec (.tileGrant cluster) s = .next ((s.withEngine cluster { engineOf s cluster with
         granted := some r.bid, waits := del (engineOf s cluster).waits r.bid }).withBlock r.bid
           { b with stream := { b.stream with wait := .none } })) ∧
     ((engineOf s cluster).busy = some bid → find? s.blocks bid = some b →
       exec (.tileOperationComplete cluster) s = .next ((s.withEngine cluster { engineOf s cluster with busy := none }).withBlock bid
         { b with stream := { b.stream with
           inFlight := false, wait := if b.stream.wait = .drain then .none else b.stream.wait } })) ∧
     (∀ n, find? s.blocks bid = some b → b.stream.wait = .ring n →
       exec (.ringWaitWake bid) s = .next (s.withBlock bid { b with stream := { b.stream with wait := .none } }))) ∧
  (∀ (s s1 s2 : State) (x : Sx) (acc fs ra rb v K : Nat) (r q : Ring) (da db : List (BitVec 8)) (b : Block),
     sxOf s x.bid = some x → sorted x.b.tile = true → acc < launchTiles x.l → v = slotBits x.l fs →
     (∃ mq t y, Answers (acczBody acc x) s mq t ∧ find? t.blocks x.bid = some y ∧
       ∀ n, rd y.tile n = if n / 4096 = acc then 0 else rd x.b.tile n) ∧
     (find? x.st.rings ra = some r → r.held = true → r.dir = false → 16384 ≤ r.size →
       Answers (streamRead x (slotOffset r) 16384) s da s1 → find? s1.blocks x.bid = some b → b.tile = x.b.tile →
       ∃ mq t y, Answers (accldBody acc ra x) s mq t ∧ find? t.blocks x.bid = some y ∧
         ∀ n, rd y.tile n = if n / 4096 = acc then BitVec.ofNat 32 (bitsOf (numLE da) (32 * (n % 4096)) 32)
           else rd x.b.tile n) ∧
     (find? x.st.rings rb = some q → q.held = true → q.dir = true → slotClean v = true → outType (slotOut v) = true →
       512 * fmtWidth (slotOut v) ≤ q.size → (∀ k ∈ x.b.tilePoison, k / 4096 ≠ acc) →
       Answers (streamWrite x (slotOffset q) (elemBytes (fmtWidth (slotOut v)) (tileElems x.b acc (slotOut v) (slotSat v)))) s () s1 →
       find? s1.blocks x.bid = some b →
       ∃ mq t y, Answers (accstBody acc fs rb x) s mq t ∧ find? t.blocks x.bid = some y ∧ y.tile = b.tile ∧ t.mem = s1.mem) ∧
     (find? x.st.rings ra = some r → r.held = true → r.dir = false → find? x.st.rings rb = some q → q.held = true → q.dir = false →
       ra ≠ rb → q.sp = 0 → passSlotOk false v = true → slotA v ≠ 15 → slotB v ≠ 15 → passK (slotA v) (slotB v) = some K →
       (∀ k ∈ x.b.tilePoison, k / 4096 ≠ acc) → bytesOfA x v false K ≤ r.size → bytesOfB v K K false ≤ q.size →
       Answers (streamRead x (slotOffset r) (bytesOfA x v false K)) s da s1 →
       Answers (streamRead x (slotOffset q) (bytesOfB v K K false)) s1 db s2 → find? s2.blocks x.bid = some b → b.tile = x.b.tile →
       ∃ mq t y, Answers (passBody acc fs ra rb false false x) s mq t ∧ find? t.blocks x.bid = some y ∧
         ∀ n, rd y.tile n = if n / 4096 = acc then
           BitVec.ofNat 32 (passElem (K / 32)
             (fun k => [mulF (slotElem (slotA v) [] (numLE da) (n % 4096 / 64 * K + k))
               (slotElem (slotB v) [] (numLE db) (n % 64 * K + k))])
             (scaleAt (slotScaleA v) (numLE da) (8 * K * elemBits (slotA v)) (K / 32) (n % 4096 / 64))
             (scaleAt (slotScaleB v) (numLE db) (8 * K * elemBits (slotB v)) (K / 32) (n % 64))
             (rd x.b.tile n).toNat).bits
           else rd x.b.tile n)) ∧
  (∀ (acc fs ra rb v K K1 S : Nat) (unfold sparse : Bool) (i : Instr) (m : Move) (s : State) (bt : Bt) (x : Sx) (r q : Ring)
     (d : PassData), TileReady s x bt acc → v = slotBits x.l fs →
     TileDone (exec (.accz acc) s) x acc (fun _ _ _ => 0) ∧
     (SlotHeld x ra false 16384 r →
       TileDone (exec (.accld acc ra) s) x acc fun i j _ => bitsOf (numLE (slotData x r 16384)) (32 * (64 * i + j)) 32) ∧
     (slotClean v = true → outType (slotOut v) = true → SlotHeld x rb true (512 * fmtWidth (slotOut v)) q →
       sorted x.b.stash = true →
       TileDone (exec (.accst acc fs rb) s) x acc (fun _ _ y => y) ∧
       ∃ t b, exec (.accst acc fs rb) s = .next t ∧ find? t.blocks x.bid = some b ∧
         lineBytes b.stash (slotOffset q) (512 * fmtWidth (slotOut v)) =
           elemBytes (fmtWidth (slotOut v)) (tileElems x.b acc (slotOut v) (slotSat v))) ∧
     (moveSlotOk v = true → SlotHeld x ra false (512 * elemBits (slotA v)) r →
       ((i = .mtrn acc fs ra ∧ m = .transpose) ∨ (i = .mred acc fs ra ∧ m = .rows) ∨
         (i = .mperm acc fs ra rb ∧ SlotHeld x rb false 64 q ∧ m = .permute (slotData x q 64))) →
       TileDone (exec i s) x acc fun i j y => (passElem 2 (fun k => match m.pick i j k with
           | some n => [.exact (slotElem (slotA v) [] (numLE (slotData x r (512 * elemBits (slotA v)))) n)]
           | none => []) (fun _ => 127) (fun _ => 127) y).bits) ∧
     (((i = .mma acc fs ra rb ∧ unfold = false ∧ sparse = false) ∨ (i = .mmas acc fs ra rb ∧ unfold = false ∧ sparse = true) ∨
         (i = .mmav acc fs ra rb ∧ unfold = true ∧ sparse = false)) →
       ra ≠ rb → (unfold = true → x.st.conv ≠ none) → passSlotOk unfold v = true → passK (slotA v) (slotB v) = some K1 →
       (slotA v = 15 → find? x.st.books (2 * fs) ≠ none) → (slotB v = 15 → find? x.st.books (2 * fs + 1) ≠ none) →
       (q.sp ≠ 0 ↔ sparse = true) → K = (if sparse then 3 * K1 else K1) → S = (if sparse then K * sparseN q.sp / 12 else K) →
       SlotHeld x ra false (bytesOfA x v unfold K) r → SlotHeld x rb false (bytesOfB v S K sparse) q →
       d = passData s x fs v K S (sparseN q.sp) unfold sparse (numLE (slotData x r (bytesOfA x v unfold K)))
         (numLE (slotData x q (bytesOfB v S K sparse))) →
       TileDone (exec i s) x acc (fun i j y =>
         (passElem d.groups (fun k => (d.b k j).map fun y => mulF (d.a i k) y) (d.sa i) (d.sb j) y).bits) ∧
       (unfold = true → ∃ t b, exec i s = .next t ∧ find? t.blocks x.bid = some b ∧
         b.stream.conv = x.st.conv.map fun k => convAfter k K)))

/-! ### Energy and firmware instructions -/

/-- 03 R65; 11 R336-R342: ERD, EBKT, EOPRD, EMARK and ERDH read the energy block, the spend state, the operating point,
the mark counter and the fused figures into s_d; EMARK with f = 0 starts the counter again; EOP answers a request,
and an accepted one is the pending point of every quadrant of the partition. The fused figures are opaque (log entry
9). -/
def Obligations.EnergyInstructions : Prop :=
  ∀ (d : Opnd) (f p t cl : Nat) (s s1 : State) (c : Cx) (u : Team) (part : Nat) (x : Partition) (e : Context) (h : ChargeSet),
    e = contextOf s c.b.ctx → h = chargeSetOf (coreOf s c.b.core) c.b.ctx →
    (f < 7 → Prepared (fun _ => energySig 0xe0 d (f != 7)) s c →
      Completes (exec (.erd d f) s) s c (energySig 0xe0 d (f != 7))
        (putScalar d ([e.account.toNat, e.account.toNat / 2 ^ 64, wrapTo 64 e.level, e.refill, e.brim, e.last,
          (if e.enable then 1 else 0) + (if e.empty then 2 else 0) + (if e.clamp then 4 else 0) + 8 * e.world.getD 0].getD f 0)
          c.t) .on) ∧
    (f < 4 → Prepared (fun _ => energySig 0xe1 d true) s c →
      Completes (exec (.ebkt d f) s) s c (energySig 0xe1 d true)
        (putScalar d ([if h.granted then h.grant else 0, committedOf s c.b.core c.b.ctx h,
          wrapTo 64 ((if h.granted then (h.grant : Int) else 0) - committedOf s c.b.core c.b.ctx h), s.tickTime].getD f 0) c.t) .on) ∧
    (Prepared (fun _ => energySig 0xe2 d true) s c → suppressed c = false →
      (eopStatus s c p ≠ 0 →
        Completes (exec (.eop d p) s) s c (energySig 0xe2 d true) (putScalar d (eopStatus s c p) c.t) .on) ∧
      (eopStatus s c p = 0 → ownPartition s c.b.core c.b.world = some (part, x) → Answers (acceptPoint x p) s () s1 →
        find? s1.teams c.tid = some u →
        Completes (exec (.eop d p) s) s1 c (energySig 0xe2 d true) (putScalar d 0 u) .on)) ∧
    (Answers (acceptPoint x p) s () s1 → s1 = { s with quads := s1.quads } ∧ ∀ q, quadOf s1 q =
      if q ∈ x.quads then { quadOf s q with pendingOp := some p } else quadOf s q) ∧
    (Prepared (fun _ => energySig 0xe3 d true) s c →
      Completes (exec (.eoprd d) s) s c (energySig 0xe3 d true) (putScalar d (pointWord s c.b.core) c.t) .on) ∧
    (Prepared (fun _ => energySig 0xe4 d true) s c → c.t.retired = false →
      Completes (exec (.emark d true) s) s c (energySig 0xe4 d true) (putScalar d c.t.mark.toNat c.t) .on ∧
      Completes (exec (.emark d false) s) s c (energySig 0xe4 d true) { c.t with mark := 0 } .on ∧
      (c.bt ≠ .d → ∀ v, exec (.emark d false) s = .next v → ∃ w, find? v.teams c.tid = some w ∧
        w.mark = BitVec.ofNat 48 (weightAt clsFront (chargePoint s (quadOfCore c.b.core))))) ∧
    (Prepared (fun _ => energySig 0xe5 d (decide (cl < 32))) s c →
      Completes (exec (.erdh d t p cl) s) s c (energySig 0xe5 d (decide (cl < 32)))
        (putScalar d (if cl = 31 then leakageFigure c.b.core p t else weightAt cl p) c.t) .on)

/-- 07 R194; 11 R322, R343, R344; 18 R425: a firmware instruction, or a system-register access with a firmware selector,
in program mode is a privilege trap. -/
def Obligations.Privilege : Prop :=
  ∀ (i : Instr) (g : Cx → Sig) (s : State) (c : Cx), firmwareForm i = some g → (g c).firmware = true →
    s.focus = .team c.tid c.arm c.bt → cxOf s c.tid c.arm c.bt = some c → TakesTraps c → c.t.firmware = false →
    encodingOk c (g c) = true → Traps (exec i s) s c (wholeTrap .privilege) c.t

/-- 11 R343-R353; 03 R83; 04 R98; 19 R445, R448: SYSRD reads its selector (and clears sticky bit 0), SYSWR writes the
join patience; WLATCH, HALT, SAVE, CLEAR and REST act on the core that bits 9:0 of their register name and are
performed again until they are done; TINV waits for its invalidation, METER for its interval, whose record it then
writes, and WAITI for a pending source. 04 R98; 11 R353; 13 R382: the end of an invalidation leaves no
translation-cache entry that it covers and lets its TINV go on; a firmware timer and a message become pending. When
firmware requests are served is the model's (log entry 21). -/
def Obligations.SystemInstructions : Prop :=
  (∀ (i : Instr) (g : Cx → Sig) (d : Opnd) (n k m core x y : Nat) (u0 : Bool) (s s1 : State) (c : Cx) (u : Team)
     (bs : List (BitVec 8)),
     firmwareForm i = some g → Prepared g s c → x = (opScalar c d).toNat → y = (runAt c d 1).toNat →
     (i = .sysrd d n → Completes (exec i s) s c (g c)
       { putScalar d (selectorValue s c n).toNat c.t with mabs := if n = 0 then false else c.t.mabs } .on) ∧
     (i = .syswr d n → Completes (exec i s) (s.withContext c.b.ctx { contextOf s c.b.ctx with jpat := x }) c (g c) c.t .on) ∧
     (i = .wlatch d u0 →
       (Answers (relatchCore (x % 1024) (if u0 then none else some (x / 1024 % 64))) s true s1 → find? s1.teams c.tid = some u →
         Completes (exec i s) s1 c (g c) u .on) ∧
       (Answers (relatchCore (x % 1024) (if u0 then none else some (x / 1024 % 64))) s false s1 → find? s1.teams c.tid = some u →
         Waits (exec i s) s1 c u .retry)) ∧
     (i = .halt d false → Answers (removeCore (x % 1024)) s true s1 → find? s1.teams c.tid = some u →
       Completes (exec i s) s1 c (g c) u .on) ∧
     (i = .halt d false → Answers (removeCore (x % 1024)) s false s1 → find? s1.teams c.tid = some u →
       Waits (exec i s) s1 c u .retry) ∧
     (i = .halt d true →
       Answers (wakeUnit (quadOfCore (x % 1024)) (clusterOfCore (x % 1024) % 12))
         (s.withCore (x % 1024) { coreOf s (x % 1024) with gated := false }) () s1 →
       find? s1.teams c.tid = some u → Completes (exec i s) s1 c (g c) u .on) ∧
     (i = .clear d m →
       (m ≠ 0 → blocksOn s (x % 1024) = [] → Answers (clearParts (x % 1024) m) s () s1 → find? s1.teams c.tid = some u →
         Completes (exec i s) s1 c (g c) u .on) ∧
       (blocksOn s (x % 1024) ≠ [] → TakesTraps c → Traps (exec i s) s c (wholeTrap .illegalState) c.t)) ∧
     (i = .save d u0 →
       (Answers (saveNamed u0 (x % 1024) (x / 1024 % 8) y) s true s1 → find? s1.teams c.tid = some u →
         Completes (exec i s) s1 c (g c) u .on) ∧
       (Answers (saveNamed u0 (x % 1024) (x / 1024 % 8) y) s false s1 → find? s1.teams c.tid = some u →
         Waits (exec i s) s1 c u .retry)) ∧
     (i = .rest d →
       (Answers (restNamed (x % 1024) y) s true s1 → find? s1.teams c.tid = some u → Completes (exec i s) s1 c (g c) u .on) ∧
       (Answers (restNamed (x % 1024) y) s false s1 → find? s1.teams c.tid = some u → Waits (exec i s) s1 c u .retry)) ∧
     (i = .tinv d k →
       (c.a.joined = true → Completes (exec i s) s c (g c) c.t .on) ∧
       (c.a.joined = false → Waits (exec i s)
         { s with invals := put s.invals s.nextId ⟨y % 64, k, x, c.tid, c.arm⟩, nextId := s.nextId + 1 } c c.t .firmware)) ∧
     (i = .meter d →
       ((s.meterJobs.find? (jobOfArm c.tid c.arm)).bind (·.bytes) = none → (worldOf s (x % 64)).unmetered = false → y % 64 = 0 →
         Answers (meterRange c y) s () s1 → find? s1.teams c.tid = some u →
         Waits (exec i s) { s1 with meterJobs := s1.meterJobs ++ [⟨c.tid, c.arm, x % 64, s.tick, none⟩] } c u .firmware) ∧
       ((s.meterJobs.find? (jobOfArm c.tid c.arm)).bind (·.bytes) = some bs → Answers (writeRecord c.req c.b.ctx y bs) s () s1 →
         find? s1.teams c.tid = some u →
         Completes (exec i s) { s1 with meterJobs := s1.meterJobs.filter fun j => !jobOfArm c.tid c.arm j } c (g c) u .on)) ∧
     (i = .waiti d m →
       (pendingSources s (dieOfCore c.b.core) &&& m ≠ 0 → Completes (exec i s) s c (g c)
         (putScalar d (pendingSources s (dieOfCore c.b.core) &&& m) c.t) .on) ∧
       (pendingSources s (dieOfCore c.b.core) &&& m = 0 → Waits (exec i s) s c c.t (.sources m))) ∧
     (Answers (relatchCore core (some k)) s true s1 → (coreOf s1 core).latch = some k) ∧
     (Answers (removeCore core) s true s1 → (coreOf s1 core).latch = none ∧ (coreOf s1 core).gated = true)) ∧
  (∀ (tag die msg : Nat) (s s1 : State) (x : Inval) (u : Team) (a : Arm),
     (find? s.invals tag = some x → Answers (invalidate (firmwareRouter 0) x.world x.k x.addr) s () s1 → find? s1.teams x.tid = some u →
       armOf u x.arm = some a →
       (∀ e ∈ s1.tlb, invalRemoves x.world x.k x.addr e.1 e.2 = false) ∧
       exec (.invalidationComplete tag) s = .next ({ s1 with invals := del s1.invals tag }.withTeam x.tid
         (withArm u x.arm (some { a with wait := .retry, joined := true })))) ∧
     (die < 4 →
       exec (.firmwareTimer die) s = .next (s.withFirmware die { firmwareOf s die with timer := true }) ∧
       exec (.firmwareMessage die msg) s = .next
         (s.withFirmware die { firmwareOf s die with messages := (firmwareOf s die).messages ++ [.note msg] })))

/-- 02 R48: an instruction whose effect reaches beyond its team, performed in an arm without a live lane, completes with
no effect. -/
def Obligations.Suppression : Prop :=
  ∀ (i : Instr) (g : Cx → Sig) (s : State) (c : Cx), suppressedForm i = some g → Prepared g s c → c.bt ≠ .d →
    suppressed c = true → Completes (exec i s) s c (g c) c.t .on

/-! ### Launches, dispatch and the specialiser -/

/-- 02 R59; 12 R355, R356; 15 R394; 19 R457-R459: a pending launch moves from its team, or from a team that has left its
core, to the partition's queue; the record at the head of the queue is accepted as a launch with none of its blocks
placed, or refused with a record of type 10; a launch whose blocks have all retired adds one to its counter and
ends. 02 R61, R62; 03 R80; 12 R364, R365; 19 R451-R453, R456: a round of dispatch credits a tenant with work and
lets it place blocks, and takes the credit of one without; a core is relatched for a block or cohort that finds no
room; a saved block that is first of its tenant is restored where it fits, as a turn of its tenant; a gang is
granted its partitions in turn, commits with the last, rolls back when it is refused or late, and starts at its tick
on the cores kept for it. The order of tenants and the gang's reservation are log entries 19 and 20. -/
def Obligations.LaunchesAndDispatch : Prop :=
  (∀ (part id tid core : Nat) (s s0 s1 : State) (p : Partition) (t : Team) (x : Posted) (rest : List Posted) (l : Launch)
     (info : DumpInfo),
     (find? s.partitions part = some p → p.held = [] → p.queue.length < 64 →
       (coreRing p).find? (corePosts s) = some core →
       ((coreOf s core).gone = [] → postingTeams s core = [tid] → find? s.teams tid = some t →
         Answers (announceLaunch part core t.pendingLaunch) s () s0 →
         exec (.pendingLaunchTake part) s = .next (runAct wakeRoom ((s0.withPartition part
           { p with queue := p.queue ++ t.pendingLaunch.take 1, nextCore := core + 1 }).withTeam tid
             { t with pendingLaunch := t.pendingLaunch.drop 1 }))) ∧
       (∀ q more, (coreOf s core).gone = q :: more → Answers (announceLaunch part core q) s () s0 →
         exec (.pendingLaunchTake part) s = .next ((s0.withPartition part
           { p with queue := p.queue ++ q.take 1, nextCore := core + 1 }).withCore core
             { coreOf s0 core with gone := nextOf q ++ more }))) ∧
     (find? s.partitions part = some p → p.queue = x :: rest → find? s.endings x.ctx = none → x.unreadable = false →
       find? s.endings (launchContext { Launch.blank with words := x.words }) = none →
       s0 = s.withPartition part { p with queue := rest } → l = { Launch.blank with words := x.words } →
       (recordOk s p x.world l = true → p.world = none ∨ p.world = some x.world →
         exec (.launchAccept part) s = .next ({ s0 with nextId := s0.nextId + 1 }.withLaunch s0.nextId { l with
           recIa := x.recIa
           ctx := launchContext l
           world := x.world
           part := homePart part l
           open_ := partCount l * partBlocks l
           eh := firstEh l
           gang := if launchGang l = 0 then .notGang else .queued
           waiting := launchSpecialise l && (worldOf s0 x.world).backing.isSome })) ∧
       (recordOk s p x.world l = false → launchCounter l = 0 → x.tid = none →
         info = { DumpInfo.none with object := x.recIa, ia := x.recIa } →
         exec (.launchAccept part) s = .next (runAct (frontRecord part
           { ErrRec.blank with type := 10, cls := 19, ctx := launchContext l, world := x.world, info := info }) s0))) ∧
     (find? s.launches id = some l → l.ended = false → l.open_ = 0 → launchBusy s id = false → find? s.endings l.ctx = none →
       (if launchCounter l = 0 then s1 = s else Answers (bumpCounter l.part l.ctx l.world (launchCounter l)) s () s1) →
       exec (.launchComplete id) s = .next ({ s1 with blocks := s1.blocks.filter fun e => e.2.launch != id }.withLaunch id
         { l with ended := true, gang := if l.gang = GangState.notGang then GangState.notGang else GangState.done }))) ∧
  (∀ (part id bid core w : Nat) (s s0 s1 : State) (p : Partition) (t u : Tenant) (k : Cand) (l : Launch) (x : Block)
     (cs : List Nat) (rs : List Reserve),
     (find? s.partitions part = some p → dispatchStopped s = false → heldByPressing s part = false → tenantWorlds s p part = [w] →
       find? p.tenants w = some t →
       (headReady s part w t = none → exec (.dispatchRound part) s = .next (s.withPartition part
         { p with tenants := put p.tenants w { t with deficit := min t.deficit 0 } })) ∧
       (headReady s part w t = some k → exec (.dispatchRound part) s = .next (runAct (tenantTurn part w none (turnBound s t) true)
         (s.withPartition part
           { p with tenants := put p.tenants w { t with deficit := min (t.deficit + t.quantum) (4 * t.quantum) } })))) ∧
     (dispatchStopped s = true → exec (.dispatchRound part) s = .next s) ∧
     (queuedItem s id = some (l, [part]) → find? s.partitions part = some p → p.world = none → contextReady s l.ctx = true →
       cs = ((openCores p).filter fun c => !(coreOf s c).gated && !(coreOf s c).closed) → findsRoom s id part l cs = false →
       (cs.find? (fun c => (coreOf s c).latch.isNone) = some core →
         exec (.coreRelatch id) s = .next (runAct (relatchCore core (some l.world)) s)) ∧
       (cs.find? (fun c => (coreOf s c).latch.isNone) = none → longestIdle s cs l.world = some core →
         exec (.coreRelatch id) s = .next (runAct (relatchCore core (some l.world)) s))) ∧
     (find? s.blocks bid = some x → find? s.partitions x.part = some p → dispatchStopped s = false →
       heldByPressing s x.part = false → x.st = .saved → find? p.tenants x.world = some t →
       headReady s x.part x.world t = some (.again bid) → (openCores p).contains core = true →
       roomAgain s bid (launchOf s x.launch) core = true → tenantWorlds s p x.part = [x.world] →
       u = { t with deficit := min (t.deficit + t.quantum) (4 * t.quantum) } →
       s0 = s.withPartition x.part { p with tenants := put p.tenants x.world u } →
       exec (.blockRestore bid core) s =
         .next (runAct (tenantTurn x.part x.world (some (.again bid, core)) (turnBound s t) true) s0) ∧
       (headReady s0 x.part x.world u = some (.again bid) →
         Answers (placeAgain bid ((openCores p).filter (· = core))) s0 true s1 →
         exec (.blockRestore bid core) s = .next (runAct (do
           modTenant x.part x.world fun t => { t with deficit := t.deficit - candEstimate s0 (.again bid) }
           tenantTurn x.part x.world (some (.again bid, core)) (turnBound s t - 1) false) s1))) ∧
     (find? s.launches id = some l → l.gang = .reserving → nextAsked l = some part → find? s.partitions part = some p →
       (p.gang ≠ none → exec (.gangReserveRequest id part) s = .next s) ∧
       (p.gang = none → p.resizing ≠ none → exec (.gangReserveRequest id part) s = .next (s.withLaunch id { l with gang := .rollback })) ∧
       (p.gang = none → p.resizing = none →
         gangOwned s ((guestOf s l.world).getD ((find? s.partitions l.part).map (·.fn) |>.getD 0)) l = true →
         reservable s id part l p = some rs →
         s1 = runAct (each rs fun r => do
             wakeUnit (quadOfCore r.core) (clusterOfCore r.core % 12)
             wakeUnit (quadOfCore r.core) 12)
           (s.withPartition part { p with gang := some id, reserved := p.reserved ++ rs }) →
         (nextAsked { l with granted := l.granted ++ [part] } ≠ none →
           exec (.gangReserveRequest id part) s = .next (s1.withLaunch id { l with granted := l.granted ++ [part] })) ∧
         (nextAsked { l with granted := l.granted ++ [part] } = none →
           exec (.gangReserveRequest id part) s = .next { s1.withLaunch id { l with
               granted := l.granted ++ [part], gang := .committed, gangTime := s.time + 20000, rollbacks := 0 } with
             partitions := s1.partitions.map fun e => if e.2.gang = some id then (e.1, { e.2 with gang := none }) else e }))) ∧
     (find? s.launches id = some l → l.gang = .reserving → l.rollbacks < 16 →
       exec (.gangReserveTimeout id) s =
         .next (if l.gangTime + 50000 ≤ s.time then s.withLaunch id { l with gang := .rollback } else s)) ∧
     (find? s.launches id = some l → l.gang = .rollback → s.partitions = [(l.part, p)] → p.gang = some id →
       find? p.tenants l.world = some t →
       exec (.gangRollbackDone id) s = .next ((s.withPartition l.part { p with
         gang := none
         reserved := p.reserved.filter fun r => r.launch != id
         tenants := put p.tenants l.world { t with requeued := dropAll t.requeued id ++ [id] } }).withLaunch id
           { l with gang := .queued, granted := [], rollbacks := l.rollbacks + 1 })) ∧
     (find? s.launches id = some l → l.gang = .committed → l.gangTime ≤ s.time → dispatchStopped s = false → l.granted = [part] →
       find? s.partitions part = some p →
       exec (.gangStartTick id) s = .next (runAct
         (startPart id part ((p.reserved.filter fun r => r.launch = id).map (·.core)) 65536)
         ((s.withLaunch id { l with gang := .running }).withPartition part (letGo id p)))))

/-- 12 R370, R371, R372: a launch that waits for its specialisation takes the next step of it: without a backing region
it runs its own code, a ready entry lets it run the residual code, an evaluation that is its own is finished, and
one that is another launch's is waited for; an evaluation of more than 100 µs is charged for the slots that it has
evaluated and declined. That an evaluation takes two events is the model's (log entry 15). -/
def Obligations.SpecialiserEvents : Prop :=
  ∀ (id base : Nat) (s s1 s2 : State) (l : Launch) (e : SpecEntry),
    find? s.launches id = some l → l.waiting = true →
    ((worldOf s l.world).backing = none →
      exec (.specialiseEvaluate id) s = .next (s.withLaunch id { l with waiting := false, spec := none })) ∧
    ((worldOf s l.world).backing = some base → Answers (sweepEntries l.part l.ctx base l.world) s () s1 →
      Answers (lookup l.part l.ctx base l.world (launchKey l)) s1 (some (some e)) s2 →
      (e.st = 1 → exec (.specialiseEvaluate id) s = .next (runAct (do
          modEntries l.world fun x => if x.key = launchKey l then some { x with used := s.nextId } else some x
          let _ ← freshId
          letRun id (some (launchKey l))) s2)) ∧
      (e.st = 2 → e.evaluator = some id →
        (∀ t, Answers (finishEvaluation id l.part base l e) s2 () t → exec (.specialiseEvaluate id) s = .next t) ∧
        (∀ k t, Stops (finishEvaluation id l.part base l e) s2 (.wait k) t →
          exec (.specialiseEvaluate id) s = .next { keepingTraffic s t with turnedAway := true })) ∧
      (e.st = 2 → e.evaluator ≠ some id → evaluating s e = true → s2.launches = s.launches →
        exec (.specialiseEvaluate id) s = .next (s2.withLaunch id { l with spec := some (launchKey l) })) ∧
      (e.st = 3 → s.time < e.until_ → s2.launches = s.launches →
        exec (.specialiseEvaluate id) s = .next (s2.withLaunch id { l with waiting := false, spec := none }))) ∧
    ((worldOf s l.world).backing = some base →
      (specEntries s l.world).find? (fun e => e.st = 2 && e.evaluator = some id) = some e →
      Answers (do
        chargeSlots l.part l.ctx (Config.freeChoice s.draws % (4 * 16384 * 7))
        abandon l.part l.ctx base e true) { s with draws := s.draws + 1 } () s1 →
      exec (.specialiseTimeout id) s = .next s1)

/-! ### Slices, meter and firmware -/

/-- 04 R104, R106, R124-R127; 05 R143-R145; 20 R470, R476; 22 R517: what the events of the memory slices do: requests,
recalls, releases and promotions, declarations that a page is free, moves of blocks, refreshes, the hot-page
interval, the patrol, retirement, and the injection of errors. -/
def Obligations.SliceEvents : Prop :=
  ∀ (world ia n core line src dst slice bank block sector gpa page new at_ v k ma i : Nat) (check : Bool)
    (bs : List (BitVec 8)) (s s1 s2 : State) (l : LlcLine) (m : BlockMeta) (e : RelEntry) (rest : List RelEntry) (tl : List Nat),
    (∀ t, Answers (readRange (hostReq world) ia n .read) s bs t → exec (.sliceAccess ⟨world, ia, .read n⟩) s = .next t) ∧
    (∀ t, Answers (writeRange (hostReq world) ia bs) s () t → exec (.sliceAccess ⟨world, ia, .write bs⟩) s = .next t) ∧
    (∀ w t, Stops (writeRange (hostReq world) ia bs) s (.wait w) t →
      exec (.sliceAccess ⟨world, ia, .write bs⟩) s = .next { keepingTraffic s t with turnedAway := true }) ∧
    (∀ t, Answers (each (linesAt s world ia) evictLine) s () t → exec (.sliceAccess ⟨world, ia, .evictLine⟩) s = .next t) ∧
    exec (.sliceAccess ⟨world, ia, .dropTranslation⟩) s = .next { s with tlb := del s.tlb (tlbKey ia world (sliceOf ia)) } ∧
    exec (.directoryRecall ma) s = .next (runAct (recallDeep none none chainFuel ma) s) ∧
    (chunkOwner s ma = none → exec (.directoryRecall ma) s = .next s) ∧
    (∀ h, nextHint s core world line = some h → world < 64 →
      flowStopped s (coreRouter core) (routerOfSlice (sliceOf (64 * line))) = false → sliceBusy s (sliceOf (64 * line)) = false →
      (∀ c, find? s.relOwner (line * 64 + world) = some c → c = core) →
      ((ownersOfSet s line).filter fun e => e.1 != line * 64 + world).length < 8 →
      exec (.releaseHint core world line) s = .next { s with
        hints := s.hints.erase h, relOwner := put s.relOwner (line * 64 + world) core }) ∧
    (nextHint s core world line = none → exec (.releaseHint core world line) s = .next s) ∧
    (s1 = runAct (promote core world line) s → Answers (promote core world line) s () s1 →
      (find? s1.relOwner (line * 64 + world) = some core →
        exec (.promotionRequest core world line) s = .next { s1 with relOwner := del s1.relOwner (line * 64 + world) }) ∧
      (find? s1.relOwner (line * 64 + world) ≠ some core → exec (.promotionRequest core world line) s = .next s1)) ∧
    ((coreOf s core).release = e :: rest →
      exec (.releaseEntryTimeout core) s = .next (runAct (promote core e.world e.line) s)) ∧
    (∃ t, exec (.freeDeclaration ma) s = .next t ∧ t.mem = s.mem ∧
      (∀ x, x / 65536 = ma / 65536 → find? t.blocksMeta (x / 512) = none) ∧
      (∀ x ∈ t.llc, lineBlock x.1 / 128 ≠ ma / 65536) ∧ (∀ x ∈ t.dir, x.1 / 256 ≠ ma / 65536) ∧
      { t with blocksMeta := s.blocksMeta, llc := s.llc, dir := s.dir, slices := s.slices, baseHost := s.baseHost
               draws := s.draws } = s) ∧
    (src % 65536 / 512 = dst % 65536 / 512 → src / 512 ≠ dst / 512 → nameable s dst = true →
      ∀ t, Answers (moveBlock src dst) s () t → exec (.sliceBlockMove src dst) s = .next t) ∧
    ((∀ t, find? (sliceState s slice).refreshedAt bank = some t → t + refreshInterval (sliceState s slice).temp ≤ s.time) →
      n = (find? (sliceState s slice).refreshRow bank).getD 0 →
      (rowInUse s slice bank n = true →
        exec (.refresh slice bank) s = .next (runAct (chargeHost (16 + quadOfSlice slice) Config.refreshCharge)
          (s.withSlice slice { sliceState s slice with
            refreshed := wr (sliceState s slice).refreshed bank (rd (sliceState s slice).refreshed bank + 1)
            refreshedAt := put (sliceState s slice).refreshedAt bank s.time
            refreshRow := put (sliceState s slice).refreshRow bank ((n + 1) % 8192) }))) ∧
      (rowInUse s slice bank n = false →
        exec (.refresh slice bank) s = .next (s.withSlice slice { sliceState s slice with
          refreshedAt := put (sliceState s slice).refreshedAt bank s.time
          refreshRow := put (sliceState s slice).refreshRow bank ((n + 1) % 8192) }))) ∧
    (∀ t, find? (sliceState s slice).refreshedAt bank = some t → s.time < t + refreshInterval (sliceState s slice).temp →
      exec (.refresh slice bank) s = .next s) ∧
    exec .hotPageInterval s = .next { s with slices := s.slices.map fun e =>
      (e.1, { e.2 with hotCopy := e.2.hot, hot := [], sketch := [] }) } ∧
    (linesOf s ma = [] → m = blockMetaOf s ma →
      (m.st = 14 → exec (.patrolRead ma) s = .next s) ∧
      (m.st ≠ 14 → m.poison = false → tagBad m = true ∨ meetsBad m = true →
        exec (.patrolRead ma) s = .next (runAct (do
          touchTags none ma false
          touchTags none ma true
          setMeta ma ⟨15, m.sealed, true, 0⟩
          askRetire ma) s)) ∧
      (m.st ≠ 14 → m.poison = false → tagBad m = false → meetsBad m = false →
        exec (.patrolRead ma) s = .next (runAct (do
          touchTags none ma false
          chargeBursts none ma (storedSectors m.st)) s))) ∧
    (∀ p q r t u, Answers (leafPlace gpa 1 (worldOf s world).s2root 3) s (some (at_, v, .leaf page 1 p q r t u)) s1 →
      page % 65536 = 0 →
      s1.retiring.find? (fun x => x / 65536 = page / 65536) = some block → s1.retiredPages.length < 4096 →
      (worldOf s1 world).s2pool = new :: tl → Answers (migrate (sliceOf block / 16) world gpa (new * 65536)) s1 (some (page, i)) s2 →
      exec (.pageRetire world gpa) s = .next (runAct (do
        modWorld world fun w => { w with s2pool := tl }
        modify fun s => { s with retiredPages := s.retiredPages ++ [page / 65536] }
        declareFree page
        retireDone page
        pageRecord world block page) s2)) ∧
    (∀ kind, s1 = runAct (noteInjection kind block sector false) s →
      (linesOf s (512 * block) = [] →
        (kind = 0 → exec (.injectLlcSingle block sector false) s = .next { s1 with injectStatus := 2 }) ∧
        (kind = 1 → exec (.injectLlcDouble block sector false) s = .next { s1 with injectStatus := 2 })) ∧
      (linesOf s (512 * block) = k :: tl → find? s.llc k = some l →
        (kind = 0 → exec (.injectLlcSingle block sector false) s = .next { s1 with
          llc := put s.llc k { l with single := l.single ||| 2 ^ sector }, injectStatus := 1 }) ∧
        (kind = 1 → exec (.injectLlcDouble block sector false) s = .next { s1 with
          llc := put s.llc k { l with double := l.double ||| 2 ^ sector }, injectStatus := 1 })) ∧
      (kind = 2 → exec (.injectHbmDouble block sector false) s = .next { s1 with
        blocksMeta := put s.blocksMeta block { blockMetaOf s (512 * block) with bad := (blockMetaOf s (512 * block)).bad ||| 2 ^ sector }
        injectStatus := 1 })) ∧
    (check = true → sector < 8 → linesOf s (512 * block) = k :: tl → find? s.llc k = some l →
      exec (.injectLlcSingle block sector check) s = .next (runAct (patrol (512 * block))
        { runAct (noteInjection 0 block sector true) s with
          llc := put s.llc k { l with single := l.single ||| 2 ^ sector }, injectStatus := 1 }))

/-- 03 R72-R79, R82: at a due boundary every accumulator is copied and cleared, and the tick is counted; at the update
each context's account rises by its corrected charge T, and its level becomes min(level - T + credit + refill,
brim), the bucket being empty at 0 or below; a context at its grant stops; a slew ends; the first credit of a tick
counts, when it comes through a function's window that holds the context. 01 R25; 03 R85, R86; 21 R506-R508: a
request for a cap below the floors without the override is refused, one below the idle power stores the idle power,
and any other is accepted for the next boundary; a package reports its floors and demand to the coordinator, which
answers with its share, and which may be itself; a report that comes is noted, and answered by the coordinator; the
newer grant of a coordinator counts; without one for 3 ms the package has its floors; and the package's bound never
passes 3,200 W. The charge of one block at an update is log entry 14. -/
def Obligations.MeterEvents : Prop :=
  (∀ (s : State) (samples : List DomainSample) (core ctx quad fn : Nat) (value : Int) (x : ChargeSet),
     (s.tickDue = true ∨ s.time < s.tickTime + 16000 → exec .tickBoundary s = .next s) ∧
     (s.tickDue = false → s.tickTime + 16000 ≤ s.time → (∀ e ∈ s.cores, e.2.leaving = false ∧ e.2.coming = none) →
       (∀ e ∈ s.partitions, e.2.resizing = none) →
       ∃ t, exec .tickBoundary s = .next t ∧ t.tick = s.tick + 1 ∧ t.tickTime = s.tickTime + 16000 ∧ t.tickDue = true ∧
         t.baseCharges = [] ∧ t.baseHost = [] ∧ t.hostCopies = s.baseHost ∧
         t.tickCopies = s.baseCharges.foldl copyBase (s.cores.foldl copyCore []) ∧ t.mem = s.mem ∧
         ∀ e ∈ t.cores, ∀ y ∈ e.2.charges, y.2.dynamic = 0 ∧ y.2.committed = 0) ∧
     (s.tickDue = false → exec (.tickUpdate samples) s = .next s) ∧
     (s.tickDue = true → s.meterAsked = [] → s.resetAsked = none →
       ∃ t, exec (.tickUpdate samples) s = .next t ∧ t.tickDue = false ∧ t.tickCopies = [] ∧ t.mem = s.mem ∧
         ∀ k T refill brim, k < 1024 →
           T = totalOf ((List.range 32).map fun d => correctDomain s d (samples.getD d DomainSample.none)) (·.corrected) k →
           refill = (contextOf s k).newRefill.getD (contextOf s k).refill →
           brim = Nat.max ((contextOf s k).newBrim.getD (contextOf s k).brim) refill →
           (contextOf t k).account = (contextOf s k).account + BitVec.ofNat 96 T ∧ (contextOf t k).last = T ∧
           (contextOf t k).level = min ((contextOf s k).level - T + (contextOf s k).credit + refill) brim ∧
           (contextOf t k).refill = refill ∧ (contextOf t k).brim = brim ∧ (contextOf t k).credit = 0 ∧
           (contextOf t k).empty = decide ((contextOf t k).level ≤ 0)) ∧
     (find? (coreOf s core).charges ctx = some x → x.granted = true →
       exec (.spendLimitReached core ctx) s = .next (if x.grant ≤ committedOf s core ctx x then
         s.withCore core { coreOf s core with charges := put (coreOf s core).charges ctx { x with stopped := true } } else s)) ∧
     (find? (coreOf s core).charges ctx = none → exec (.spendLimitReached core ctx) s = .next s) ∧
     exec (.opSlewComplete quad) s = .next (s.withQuad quad { quadOf s quad with slewing := false, slewFrom := (quadOf s quad).op }) ∧
     (reaches s fn ctx = true →
       exec (.creditWrite (fn, ctx) value) s = .next (s.withContext ctx (if (contextOf s ctx).credited then contextOf s ctx
         else { contextOf s ctx with credit := signed 64 (wrapTo 64 ((contextOf s ctx).credit + value)), credited := true }))) ∧
     (reaches s fn ctx = false → exec (.creditWrite (fn, ctx) value) s = .next s)) ∧
  (∀ (s s0 s1 : State) (watts c target pkg floor demand power port seq mw : Nat) (over_ : Bool) (p : Partition) (h : RensarHdr),
     (packageBound s ≤ s.packageCap ∧ packageBound s ≤ s.rackGrant ∧ packageBound s ≤ 3200000) ∧
     (c = 1000 * (watts % 65536) → s0 = runAct (noteCap watts 16 over_) s → s1 = runAct (noteCap watts target over_) s →
       (c < floorSum s → over_ = false → exec (.capRequestPackage watts over_) s = .next { s0 with capStatus := 3 }) ∧
       (floorSum s ≤ c ∨ over_ = true → c < packageIdle s →
         exec (.capRequestPackage watts over_) s = .next { s0 with capStatus := 2, newCap := some (packageIdle s) }) ∧
       (floorSum s ≤ c ∨ over_ = true → packageIdle s ≤ c →
         exec (.capRequestPackage watts over_) s = .next { s0 with capStatus := 1, newCap := some c }) ∧
       (find? s.partitions target = none → exec (.capRequestPartition target watts over_) s = .next { s1 with capStatus := 4 }) ∧
       (find? s.partitions target = some p → p.world = none →
         exec (.capRequestPartition target watts over_) s = .next { s1 with capStatus := 4 }) ∧
       (find? s.partitions target = some p → p.world ≠ none → c < p.floorMw → over_ = false →
         exec (.capRequestPartition target watts over_) s = .next { s1.withPartition target { p with capStatus := 3 } with
           capStatus := 3 }) ∧
       (find? s.partitions target = some p → p.world ≠ none → p.floorMw ≤ c ∨ over_ = true → c < partLeakage s p p.lo →
         exec (.capRequestPartition target watts over_) s = .next { s1.withPartition target { p with
           capStatus := 2, newMw := some (partLeakage s p p.lo) } with capStatus := 2 }) ∧
       (find? s.partitions target = some p → p.world ≠ none → p.floorMw ≤ c ∨ over_ = true → partLeakage s p p.lo ≤ c →
         exec (.capRequestPartition target watts over_) s = .next { s1.withPartition target { p with
           capStatus := 1, newMw := some c } with capStatus := 1 })) ∧
     (s0 = { s with demands := put s.demands Config.packageId (s.time, floorSum s, askedSum s) } →
       (coordinates s0 = true → exec .crarasDemandReport s = .next (runAct (takeGrant Config.packageId (s.sentSeq + 1)
         (rackShare s.rackCap (freshDemands s0) (floorSum s) (askedSum s))) { s0 with sentSeq := s.sentSeq + 1 })) ∧
       (coordinates s0 = false → gateOf s (portFor (coordinator s0)) 12 = .on →
         exec .crarasDemandReport s = .next (runAct
           (sendCraras (coordinator s0) 5 [Config.packageId, floorSum s, askedSum s, packagePower s]) s0)) ∧
       (coordinates s0 = false → gateOf s (portFor (coordinator s0)) 12 = .waking →
         exec .crarasDemandReport s = .next { s0 with turnedAway := true })) ∧
     (Taken s port 64 5 h → s0 = runAct (setAccepted port 64 h.ctr) s →
       s1 = { s0 with demands := put s.demands h.src (s.time, floor, demand) } →
       (coordinates s1 = false → exec (.crarasDemand (port, h) floor demand power) s = .next (runAct (toFirmware port) s1)) ∧
       (coordinates s1 = true → h.src ≠ Config.packageId → gateOf s (portFor h.src) 12 = .on →
         exec (.crarasDemand (port, h) floor demand power) s = .next (runAct (do
           let _ ← sendCraras h.src 6 [Config.packageId, s.sentSeq + 1, rackShare s.rackCap (freshDemands s1) floor demand]
           modify fun t => { t with sentSeq := s.sentSeq + 1 }
           toFirmware port) s1))) ∧
     (Taken s port 64 6 h → s0 = runAct (setAccepted port 64 h.ctr) s → s1 = runAct (toFirmware port) s0 →
       exec (.crarasGrant (port, h) seq mw) s = .next (runAct (takeGrant h.src seq mw) s1)) ∧
     (headerOk (portOf s port) 64 h = false → gateOf s port 12 = .on → s.bootStatus ≠ 2 →
       s1 = s.withPort port { portOf s port with dropped := (portOf s port).dropped + 1 } →
       exec (.crarasDemand (port, h) floor demand power) s = .next s1 ∧ exec (.crarasGrant (port, h) seq mw) s = .next s1) ∧
     (gateOf s (portFor pkg) 12 = .on → ∃ t f, Answers (sendCraras pkg seq [floor, demand]) s true t ∧
       t.hostBox = s.hostBox ++ [.rensar (portFor pkg) f (crarasBytes [floor, demand])] ∧ f.type = seq ∧ f.dst = pkg ∧
       f.src = Config.packageId ∧ f.len = 1 ∧
       f.ctr = ((find? (portOf s (portFor pkg)).flows 64).getD ⟨0, 0⟩).sent + 1) ∧
     (s1 = runAct (takeGrant pkg seq mw) s →
       ((∃ n, find? s.grantSeqs pkg = some n ∧ seq ≤ n) → s1 = s) ∧
       ((∀ n, find? s.grantSeqs pkg = some n → n < seq) →
         s1 = { s with rackGrant := mw, grantSeqs := put s.grantSeqs pkg seq, grantTime := s.time })) ∧
     exec .crarasGrantTimeout s = .next (if s.grantTime + 3000000 ≤ s.time then { s with rackGrant := floorSum s } else s))

/-- 17 R411-R417; 19 R466-R468: the end of a context bars it and removes its work, and leaves its record once no write
of it is on its way to a peer; the firmware takes the oldest record of its die and forwards it; a queue reset is
refused for a partition that is not the function's, and otherwise removes the work and waits for the tokens, the
last of which completes it. 04 R115, R116; 13 R383; 21 R505: device reset brings the reset state, but for what its
stores keep: the epoch, one higher, the retired pages, the rollback counter, every slot's generation, and host
memory. What a reset keeps beyond the stores of the rules is log entry 1. -/
def Obligations.EndingsAndReset : Prop :=
  (∀ (ctx die fn part world unit : Nat) (s : State) (e : Ending) (r : ErrRec) (rest : List ErrRec) (f : Fn) (removal : Act Unit),
     (find? s.endings ctx = none → exec (.contextEnd ctx) s = .next s) ∧
     (find? s.endings ctx = some e → removal = (do
         barContext ctx
         dropWork (fun c => c = ctx) (fun _ => true) 14) →
       (writesInFlight (runAct removal s) ctx = true → exec (.contextEnd ctx) s = .next (runAct removal s)) ∧
       (writesInFlight (runAct removal s) ctx = false → exec (.contextEnd ctx) s = .next (runAct (do
         removal
         emitRecord (dieOfSource e.src e.core) (endRecord (← get) ctx e)
         modify fun t => { t with endings := del t.endings ctx }) s))) ∧
     ((firmwareOf s die).queue = r :: rest → policyDump (worldOf s r.world) = false →
       exec (.errorRecordTake die) s = .next { s.withFirmware die { firmwareOf s die with queue := rest } with
         hostBox := s.hostBox ++ [.record 0 (forwarded s r)] ++ (match virtualFn s r.world with
           | some n => [.record n (forwarded s r)]
           | none => []) }) ∧
     (f = fnOf s fn → f.resetStatus ≠ 1 →
       (ownsPart s fn part = false → exec (.queueResetQueue fn part world) s = .next (s.withFn fn { f with
         resetStatus := 3, resetGo := false, resetWhole := false, resetPart := part, resetWorld := resetWorldOf s fn world })) ∧
       (∀ t, ownsPart s fn part = true → Answers (beginReset fn false part (resetWorldOf s fn world)) s () t →
         exec (.queueResetQueue fn part world) s = .next t) ∧
       (∀ t, Answers (beginReset fn true f.resetPart (resetWorldOf s fn world)) s () t →
         exec (.queueResetWhole fn world) s = .next t)) ∧
     ((fnOf s fn).resetStatus = 1 →
       exec (.queueResetQueue fn part world) s = .next s ∧ exec (.queueResetWhole fn world) s = .next s) ∧
     (f = fnOf s fn → f.resetStatus = 1 → f.going = none → f.awaiting.contains unit = true → drained s f unit = true →
       exec (.drainToken fn unit) s = .next (runAct (each (resetParts s f.resetWhole f.resetPart) fun i =>
         sendMessage none 64 (routerOfDrain unit) (routerOfFront i) .managed 0) (s.withFn fn { f with
         awaiting := dropAll f.awaiting unit
         resetStatus := if dropAll f.awaiting unit = [] then 2 else 1
         resetGo := decide (dropAll f.awaiting unit ≠ [])
         resetCount := if dropAll f.awaiting unit = [] then f.resetCount + 1 else f.resetCount })))) ∧
  (∀ (img : BootImage) (s : State), ∃ t, exec (.deviceReset img) s = .next t ∧
     (img.epochGood = true → t.epoch = s.epoch + 1) ∧
     t.bootStatus = (if img.signatureGood = true ∧ s.rollback ≤ img.version ∧ img.epochGood = true then 1 else 2) ∧
     t.retiredPages = s.retiredPages ∧ t.rollback = s.rollback ∧
     (∀ k, (keyOf t k).gen = (keyOf s k).gen ∧ ((keyOf t k).st = .empty ∨ (keyOf t k).st = .retired ∧ (keyOf s k).st = .retired)) ∧
     (∀ a, a < 0x200000000000 → Memory.wf s.mem → rd t.mem a = rd State.reset.mem a) ∧
     (∀ a, 0x200000000000 ≤ a → Memory.wf s.mem → rd t.mem a = rd s.mem a) ∧
     t.power = true ∧ t.llc = [] ∧ t.tlb = [] ∧ t.partitions = [] ∧ t.hostBox = s.hostBox ∧
     (bootGood s img = false → t.blocks = [] ∧ t.teams = [] ∧ t.launches = [] ∧ t.contexts = State.reset.contexts) ∧
     (bootGood s img = true → ∀ die, die < 4 → ∃ bid b u, find? t.blocks bid = some b ∧ b.core = 192 * die ∧ b.st = .resident ∧
       find? t.teams (bid * 8) = some u ∧ u.firmware = true))

/-- 13 R382-R388; 21 R496-R513: reset requests, checkpoints, replays, droops, temperature, gating and waking. -/
def Obligations.PlatformEvents : Prop :=
  ∀ (core cls tid domain quad temp unit sensor stack : Nat) (ports : List Nat) (s : State) (q : Quad),
    exec .hostResetRequest s = .next (if s.resetAsked = none then { s with resetAsked := some s.tick } else s) ∧
    (ports.length ≠ 8 → exec (.checkpoint ports) s = .next s) ∧
    (ports.length = 8 → ports.eraseDups.length = 8 → (∀ p ∈ ports, p < 16) → (∀ e ∈ s.blocks, holdsProgram e.2 = false) →
      (∀ p ∈ ports, gateOf s p 12 = .on) →
      exec (.checkpoint ports) s = .next (runAct (do
        backAllLlc
        sendImage ports
        modify fun t => { t with checkpointing := false }) { s with checkpointing := true })) ∧
    (cls < 10 ∨ 20 ≤ cls → (coreOf s core).lastPass = some (tid, cls) → (coreOf s core).row < 4 →
      exec (.timingReplay core cls) s = .next (runAct (do
        chargeEvents tid cls 1
        modQuad (quadOfCore core) fun q => { q with
          replays := q.replays + 1, replayCount := q.replayCount + 1
          halved := q.halved || decide ((coreOf s core).row + 1 = 4) })
        (s.withCore core { coreOf s core with row := (coreOf s core).row + 1 }))) ∧
    (q = quadOf s (domain % 16) →
      exec (.droop domain) s = .next (s.withQuad (domain % 16) (if domain < 16 then
          { q with droops := Nat.min (q.droops + 1) 65535, drooping := true, since := s.time }
        else { q with droops := Nat.min (q.droops + 1) 65535, droopingVb := true, sinceVb := s.time })) ∧
      exec (.droopEnd domain) s = .next (s.withQuad (domain % 16)
        (if domain < 16 then { q with drooping := false } else { q with droopingVb := false })) ∧
      (droopLasts s domain = false → exec (.droopTimeout domain) s = .next s) ∧
      (droopLasts s domain = true →
        exec (.droopTimeout domain) s = .next (runAct (platformRecord (domain % 16 / 4) { ErrRec.blank with number := domain })
          (s.withQuad (domain % 16) (takePoint { q with forced := true }))))) ∧
    (q = quadOf s quad → q.thermal < 2 →
      (95 ≤ temp → q.risen < s.tickTime →
        exec (.thermalCeilingStep quad temp) s = .next (s.withQuad quad
          { q with temp := temp, ceiling := Nat.min q.ceiling q.op - 1, thermal := 1, risen := s.time })) ∧
      (90 ≤ temp → temp < 95 → exec (.thermalCeilingStep quad temp) s = .next (s.withQuad quad { q with temp := temp })) ∧
      (temp < 90 → q.ceiling < 15 → q.risen + 1000000 ≤ s.time → q.ceiling + 1 < q.target →
        exec (.thermalCeilingStep quad temp) s = .next (s.withQuad quad
          { q with temp := temp, ceiling := q.ceiling + 1, risen := s.time })) ∧
      (temp < 105 → exec (.thermalTrip quad temp) s = .next s) ∧
      (105 ≤ temp →
        exec (.thermalTrip quad temp) s = .next (runAct (do
          each ((List.range 48).filter fun i => !isFirmwareCore (48 * quad + i)) fun i => do
            let _ ← attempt (clearCore (48 * quad + i))
            let _ ← attempt (promoteWhere (48 * quad + i) fun _ => true)
            let _ ← attempt (backCore (48 * quad + i))
          each (List.range 13) fun u => setGate quad u .gated
          modify fun s => { s with gateQueue := del s.gateQueue quad }
          platformRecord (quad / 4) { ErrRec.blank with number := quad, part := (partitionOfQuad s quad).getD 0 })
          (s.withQuad quad (takePoint { q with thermal := 2, temp := temp, ceiling := 0, risen := s.time }))))) ∧
    (q = quadOf s quad → q.thermal = 2 → temp < 85 →
      exec (.thermalTripClear quad temp) s = .next (runAct (each (List.range 13) (wakeUnit quad))
        (s.withQuad quad { q with thermal := 1, temp := temp, risen := s.time }))) ∧
    (85 ≤ temp → exec (.thermalTripClear quad temp) s = .next s) ∧
    (q = quadOf s quad →
      exec (.thermalSensorFail quad sensor) s = .next (s.withQuad quad
        (if Config.thermalSensors quad ≤ (insertNew q.sensors sensor).length then
          takePoint { q with sensors := insertNew q.sensors sensor, thermal := 3, forced := true }
        else { q with sensors := insertNew q.sensors sensor }))) ∧
    exec .thermalEmergency s = .next { s with power := false } ∧
    (∃ t, exec (.stackTemperatureLimit stack temp) s = .next t ∧ t = { s with slices := t.slices } ∧ ∀ i, sliceState t i =
      if i / 4 = stack then { sliceState s i with
        temp := temp
        refuse := if 105 ≤ temp then true else if temp < 95 then false else (sliceState s i).refuse
        halfRate := if 95 < temp then true else if temp < 90 then false else (sliceState s i).halfRate }
      else sliceState s i) ∧
    (unitIdle s quad unit = true → gateOf s quad unit = .on →
      exec (.unitGate quad unit) s = .next { s with
        gates := put s.gates (quad * 13 + unit) .hold, gateTimes := put s.gateTimes (quad * 13 + unit) s.time }) ∧
    (unitIdle s quad unit = true → gateOf s quad unit = .hold → 12 ≤ unit →
      (find? s.gateTimes (quad * 13 + unit)).getD 0 + 20000 ≤ s.time →
      exec (.unitGate quad unit) s = .next { s with gates := put s.gates (quad * 13 + unit) .gated }) ∧
    ((quadOf s quad).thermal ≠ 2 →
      (gateOf s quad unit = .hold → exec (.wakeRequest quad unit) s = .next { s with gates := put s.gates (quad * 13 + unit) .on }) ∧
      (gateOf s quad unit = .gated → exec (.wakeRequest quad unit) s = .next (runAct (serveWakes quad) { s with
        gateTimes := put s.gateTimes (quad * 13 + unit) s.time
        gateQueue := put s.gateQueue quad (((find? s.gateQueue quad).getD []).filter
            (fun v => decide (gateTime s quad v < s.time) || decide (v < unit))
          ++ unit :: ((find? s.gateQueue quad).getD []).filter
            fun v => !(decide (gateTime s quad v < s.time) || decide (v < unit))) }))) ∧
    (((find? s.gateQueue quad).getD []).take 2 |>.contains unit) = true →
      exec (.wakeComplete quad unit true) s = .next (runAct (do
        chargeHost (16 + quad) Config.wakeCharge
        serveWakes quad
        wakeRoom) { s with
        gateQueue := put s.gateQueue quad (dropAll ((find? s.gateQueue quad).getD []) unit)
        gates := put s.gates (quad * 13 + unit) .on })

/-! ### The host and the peers -/

/-- 00 R4; 03 R65, R66, R79; 04 R91; 05 R130; 12 R360; 17 R417: a range register is written while its context is
disabled, and a write to an enabled one is refused; the scope policy stores 4 for a value that is not honoured;
refill, brim and the enable bit are taken at the next update, and a field that is only read ignores the write; the
mailbox binds functions, sets the roots of a world, its pools and the tag table. 13 R376; 20 R486; 21 R514; 22 R518:
a CXL.mem access of a bound function while the link is up reads or writes through the function's world: at a home
slice that serves it, the data go to the host, or its bytes into the slice's line; one that fails returns poison, or
is discarded whole with its record; the answer to a back invalidation gives the line up. 13 R377; 20 R489, R490,
R494, R495; 21 R514: an interface is locked from UNLOCKED, started by its session from CONFIG_LOCKED, and stopped by
its session through a reset of its world's queues; the end of the session, a change of the locked configuration, a
failure of the IDE or the loss of the link take it to ERROR through the same reset; a cipher failure stops the
pair's flows, and they resume from counters 2^32 above the greater of the two ends'. The requests of the mailbox are
the model's form (log entry 26). -/
def Obligations.HostInterface : Prop :=
  (∀ (fn ctx rr word value world base s1root s2root va n tag ia mw : Nat) (pages : List Nat) (s s0 : State) (r : RangeReg),
     (reaches s fn ctx = true → (contextOf s ctx).enable = false → r = rrOf (contextOf s ctx) rr →
       (word = 0 → exec (.rangeRegisterWrite fn ctx rr word value) s = .next (s.withContext ctx { contextOf s ctx with
         rr := put (contextOf s ctx).rr rr { r with w0 := BitVec.ofNat 64 (value &&& (0x3f + (2 ^ 56 - 2 ^ 16))) } })) ∧
       (word = 1 → exec (.rangeRegisterWrite fn ctx rr word value) s = .next (s.withContext ctx { contextOf s ctx with
         rr := put (contextOf s ctx).rr rr { r with w1 := BitVec.ofNat 64 (value &&& (2 ^ 40 - 1)) } })) ∧
       (word = 2 → exec (.rangeRegisterWrite fn ctx rr word value) s = .next (s.withContext ctx { contextOf s ctx with
         rr := put (contextOf s ctx).rr rr { r with w2 := BitVec.ofNat 64 (value &&& (2 ^ 36 - 1)) } }))) ∧
     (reaches s fn ctx = true → (contextOf s ctx).enable = true →
       exec (.rangeRegisterWrite fn ctx rr word value) s = .next (s.withFn fn { fnOf s fn with refused := true })) ∧
     (reaches s fn ctx = false → exec (.rangeRegisterWrite fn ctx rr word value) s = .next s) ∧
     exec (.scopePolicyWrite world value) s = .next (s.withWorld world { worldOf s world with
       maxscope := if value % 8 = 4 ∨ value % 8 = 5 ∨ value % 8 = 6 then value % 8 else 4, remote := value / 8 % 2 = 1 }) ∧
     (reaches s fn ctx = true →
       exec (.registerWrite (fn, .refill ctx) value) s = .next (s.withContext ctx { contextOf s ctx with newRefill := some (value % 2 ^ 48) }) ∧
       exec (.registerWrite (fn, .brim ctx) value) s = .next (s.withContext ctx { contextOf s ctx with newBrim := some (value % 2 ^ 63) }) ∧
       (s.bootStatus ≠ 1 → (contextOf s ctx).world = some world → exec (.registerWrite (fn, .control ctx) value) s =
         .next (s.withContext ctx { contextOf s ctx with newEnable := some false }))) ∧
     exec (.registerWrite (fn, .account ctx) value) s = .next s ∧ exec (.registerWrite (fn, .level ctx) value) s = .next s ∧
     (reaches s fn ctx = false → exec (.registerWrite (fn, .refill ctx) value) s = .next s ∧
       exec (.registerWrite (fn, .brim ctx) value) s = .next s ∧ exec (.registerWrite (fn, .control ctx) value) s = .next s) ∧
     (value % 2 = 0 → (fnOf s fn).resetStatus ≠ 1 → exec (.registerWrite (fn, .queueReset) value) s =
       .next (s.withFn fn { fnOf s fn with
         resetWhole := bitSet value 1, resetPart := bitsOf value 2 4, resetWorld := resetWorldOf s fn (bitsOf value 6 6) })) ∧
     ((fnOf s fn).resetStatus = 1 → exec (.registerWrite (fn, .queueReset) value) s = .next s) ∧
     (s.bootStatus ≠ 2 → s0 = runAct (noteRequest 0 2) s →
       exec (.hostMailboxRequest 0 (.worldRoots world s1root s2root base)) s = .next (s0.withWorld world { worldOf s world with
         s1root := s1root, s2root := s2root, baseCtx := some base }) ∧
       exec (.hostMailboxRequest 0 (.stage2Pool world pages)) s = .next (s0.withWorld world { worldOf s world with s2pool := pages }) ∧
       ((fnOf s fn).tdisp = .unlocked → 0 < fn → fn < 64 →
         (∀ y ∈ s.contexts, y.2.world ≠ some world ∧ (y.2.world = none → y.2.newWorld ≠ some world)) →
         exec (.hostMailboxRequest 0 (.bindFunction fn world base)) s =
           .next (s0.withFn fn { fnOf s fn with world := some world, hdmBase := base, hostCtx := none })) ∧
       (fn ≠ 0 → (fnOf s fn).world = some world → exec (.hostMailboxRequest fn (.framePool world va n)) s =
         .next (s0.withWorld world { worldOf s world with pool := some (va, n) })) ∧
       (0 < tag → tag < 1024 → exec (.hostMailboxRequest 0 (.tagEntry tag world ia true)) s =
         .next { s0 with tags := put s.tags tag ⟨ia, world⟩ }) ∧
       exec (.hostMailboxRequest 0 (.rackCap mw)) s = .next { s0 with rackCap := mw })) ∧
  (∀ (fn off n world ia ma cls : Nat) (bs : List (BitVec 8)) (s s1 : State) (r : Req) (e : Stop) (x : TlbEntry) (l : LlcLine),
     (cxlTarget s fn = some world → r = cxlReq s fn world → ia = (fnOf s fn).hdmBase + off →
       (Serves s r ia x l → 0 < n → ia % 64 + n ≤ 64 →
         ∃ t, exec (.cxlMemRead fn off n) s = .next t ∧ t.mem = s.mem ∧ t.llc = s.llc ∧
           t.hostBox = s.hostBox ++ [.data fn off (lineBytes l.bytes (ia % 512) n) false]) ∧
       (Serves s r ia x l → 0 < bs.length → ia % 64 + bs.length ≤ 64 → countersIn s world ia bs.length = [] →
         ∃ t, exec (.cxlMemWrite fn off bs) s = .next t ∧ t.mem = s.mem ∧ t.hostBox = s.hostBox ∧
           t.llc = put s.llc (llcKey (maOf x ia) x.slot) { l with
             bytes := putBytes l.bytes (ia % 512) bs, dirty := l.dirty ||| BitVec.twoPow 8 (ia / 64 % 8)
             owner := r.ctx.getD 0x3ff }) ∧
       (Answers (readRange r ia n .read) s bs s1 →
         exec (.cxlMemRead fn off n) s = .next (runAct (do
           ownLines r ia n
           modify fun t => { t with hostBox := t.hostBox ++ [.data fn off bs false] }
           chargeCxl r n) s1)) ∧
       (Stops (readRange r ia n .read) s e s1 → cxlClass e = some cls →
         exec (.cxlMemRead fn off n) s = .next (runAct (do
           cxlRecord r ia cls 15
           let bs ← poisonedBytes n
           modify fun t => { t with hostBox := t.hostBox ++ [.data fn off bs true] }
           chargeCxl r n) s1)) ∧
       (Answers (hostWrite r ia bs) s () s1 →
         exec (.cxlMemWrite fn off bs) s = .next (runAct (do
           ownLines r ia bs.length
           chargeCxl r bs.length) s1)) ∧
       (Stops (hostWrite r ia bs) s e s1 → cxlClass e = some cls →
         exec (.cxlMemWrite fn off bs) s = .next (runAct (do
           cxlRecord r ia cls 15
           chargeCxl r bs.length) (keepingTraffic s s1)))) ∧
     (cxlTarget s fn = none → exec (.cxlMemRead fn off n) s = .next s ∧ exec (.cxlMemWrite fn off bs) s = .next s) ∧
     (s.snoops.contains (ma / 64) = true → ∀ w line, find? s.hostOwned (ma / 64) = some (w, line) →
       countersIn s w (64 * line) 64 = [] →
       exec (.cxlBackInvalidateResponse ma []) s = .next { s with
         snoops := dropAll s.snoops (ma / 64), hostOwned := del s.hostOwned (ma / 64) })) ∧
  (∀ (fn session src dst : Nat) (ctxs : List Nat) (s s0 t : State) (f : Fn),
     (s.bootStatus ≠ 2 → fn ≠ 0 → f = fnOf s fn → s0 = runAct (noteRequest 0 3) s →
       (f.tdisp = .unlocked → f.going = none → s.ideUp = true →
         exec (.lockInterfaceRequest fn session) s = .next { s0.withFn fn { f with tdisp := .locked, session := some session } with
           hostBox := s.hostBox ++ [.tdisp fn session 0 .locked] }) ∧
       (f.tdisp ≠ .unlocked → exec (.lockInterfaceRequest fn session) s = .next { s0 with
         hostBox := s.hostBox ++ [.tdisp fn session 1 f.tdisp] }) ∧
       (f.tdisp = .locked → f.going = none →
         (f.session = some session → exec (.startInterfaceRequest fn session) s = .next { s0.withFn fn { f with tdisp := .run } with
           hostBox := s.hostBox ++ [.tdisp fn session 0 .run] }) ∧
         (f.session ≠ some session → exec (.startInterfaceRequest fn session) s = .next { s0 with
           hostBox := s.hostBox ++ [.tdisp fn session 2 .locked] })) ∧
       (f.tdisp ≠ .unlocked → f.going = none →
         (f.session = some session → Answers (do
             leaveTo fn .unlocked
             tdispAnswer fn session 0) s () t →
           exec (.stopInterfaceRequest fn session) s = .next t) ∧
         (f.session ≠ some session → exec (.stopInterfaceRequest fn session) s = .next { s0 with
           hostBox := s.hostBox ++ [.tdisp fn session 2 f.tdisp] })) ∧
       exec (.getDeviceInterfaceState fn session) s = .next { s0 with
         hostBox := s.hostBox ++ [.tdisp fn session 0 f.tdisp] }) ∧
     (s.fns = [(fn, f)] → fn ≠ 0 → f.tdisp = .locked ∨ f.tdisp = .run →
       Answers (leaveTo fn .error) s () t →
       (f.session = some session → exec (.spdmSessionEnd session) s = .next t) ∧ exec (.tdispConfigChange fn) s = .next t) ∧
     (s.fns = [(fn, f)] → fn ≠ 0 → f.tdisp = .locked ∨ f.tdisp = .run → f.world = none →
       exec (.tdispConfigChange fn) s = .next (s.withFn fn { f with tdisp := .error, going := none })) ∧
     (Answers (failInterfaces fun _ _ => true) { s with ideUp := false } () t → exec .cxlIdeFailure s =
       .next (runAct (emitRecord 0 { ErrRec.blank with type := 13, cls := 20, unit := 6 }) t)) ∧
     (s.cxlUp = true → Answers (failInterfaces fun _ _ => true) { s with cxlUp := false, snoops := [], hostOwned := [] } () t →
       exec .cxlLinkDown s = .next (runAct (platformRecord 0 { ErrRec.blank with unit := 6 }) t)) ∧
     (s.cxlUp = false → exec .cxlLinkDown s = .next s) ∧
     (ctxs = [] → exec (.nocCipherFailure src dst ctxs) s = .next { s with
       stopped := (s.stopped.filter fun p => p != (src, dst) && p != (dst, src)) ++ [(src, dst), (dst, src)] }) ∧
     (s.stopped.contains (src, dst) = true → exec (.cipherFlowResume src dst) s = .next { s with
       stopped := s.stopped.filter fun p => p != (src, dst) && p != (dst, src)
       flows := s.flows.map fun e =>
         if flowPorts e.1 = (src, dst) ∨ flowPorts e.1 = (dst, src) then
           (e.1, ⟨Nat.max e.2.sent e.2.accepted + 2 ^ 32, Nat.max e.2.sent e.2.accepted + 2 ^ 32⟩)
         else e }))

/-- 13 R378-R381; 20 R482-R485; 21 R515: a message whose header passes its check is accepted under its key, one that
does not is dropped and counted. An inbound write of a served world is performed at its home, acknowledged, and
counted on its tag's counter; an inbound read returns its data; both are refused with a reason; an answer reaches
the destination that waits for it, once; an error or a timeout makes it a failure of class 7 or 8, and the number of
a request that timed out is held. The numbering of ports and requests is log entry 11. -/
def Obligations.PeerEvents : Prop :=
  ∀ (port txid tid arm lane dreg n ia op off len va kind ctx world core lanes reason : Nat) (sx : Bool) (h : RensarHdr)
    (bs : List (BitVec 8)) (worlds : List Nat) (s s0 s1 : State) (e : Stop) (p : Port) (o : EngineOp) (x : TlbEntry) (l : LlcLine),
    (gateOf s port 12 = .on → s.bootStatus ≠ 2 → s0 = s.withPort port { portOf s port with dropped := (portOf s port).dropped + 1 } →
      (headerOk (portOf s port) h.world h = false ∨ h.type ≠ 0 → exec (.rensarWrite port h bs) s = .next s0) ∧
      (headerOk (portOf s port) h.world h = false ∨ h.type ≠ 1 → exec (.rensarReadRequest port h) s = .next s0) ∧
      (headerOk (portOf s port) h.world h = false ∨ h.type ≠ 2 → exec (.rensarReadResponse port h bs) s = .next s0) ∧
      (headerOk (portOf s port) h.world h = false ∨ h.type ≠ 3 → exec (.rensarWriteAck port h) s = .next s0) ∧
      (headerOk (portOf s port) h.world h = false ∨ h.type ≠ 4 → exec (.rensarErrorCompletion port h reason) s = .next s0)) ∧
    (s0 = runAct (setAccepted port h.world h.ctr) s → worldServed s port h.world = false →
      (Taken s port h.world 0 h → exec (.rensarWrite port h bs) s = .next (runAct (refuseInbound port h 8) s0)) ∧
      (Taken s port h.world 1 h → exec (.rensarReadRequest port h) s = .next (runAct (refuseInbound port h 8) s0))) ∧
    (Taken s port h.world 0 h → s0 = runAct (setAccepted port h.world h.ctr) s → worldServed s port h.world = true →
      (tagCounter s h.world h.tag = none → exec (.rensarWrite port h bs) s = .next (runAct (refuseInbound port h 7) s0)) ∧
      (tagCounter s h.world h.tag = some none → Serves s (inboundReq port h.world) (hdrIa h) x l → 0 < bs.length →
        hdrIa h % 64 + bs.length ≤ 64 →
        ∃ t, exec (.rensarWrite port h bs) s = .next t ∧ t.mem = s.mem ∧
          t.llc = put s.llc (llcKey (maOf x (hdrIa h)) x.slot) { l with
            bytes := putBytes l.bytes (hdrIa h % 512) bs, dirty := l.dirty ||| BitVec.twoPow 8 (hdrIa h / 64 % 8), owner := 0x3ff } ∧
          t.hostBox = s.hostBox ++ [.rensar port (sentHdr port h.world
            (((find? (portOf s port).flows h.world).getD ⟨0, 0⟩).sent + 1) (replyHdr 3 h 0 0) []) []]) ∧
      (tagCounter s h.world h.tag = some none → Answers (hostStoreBytes (inboundReq port h.world) (hdrIa h) bs) s0 () s1 →
        exec (.rensarWrite port h bs) s = .next (runAct (reply port h.world 3 h 0 []) s1)) ∧
      (tagCounter s h.world h.tag = some (some ia) → Answers (hostStoreBytes (inboundReq port h.world) (hdrIa h) bs) s0 () s1 →
        exec (.rensarWrite port h bs) s = .next (runAct (do
          reply port h.world 3 h 0 []
          makeLate ⟨0, 0x3ff, h.world, 48 * port, some port, ia, none, none, 1, none⟩) s1)) ∧
      (tagCounter s h.world h.tag ≠ none → Stops (hostStoreBytes (inboundReq port h.world) (hdrIa h) bs) s0 e s1 →
        ((∀ w, e ≠ .wait w) →
          exec (.rensarWrite port h bs) s = .next (runAct (refuseInbound port h (reasonOf e)) (keepingTraffic s0 s1))) ∧
        (∀ w, e = .wait w → exec (.rensarWrite port h bs) s =
          .next { runAct (setAccepted port h.world (h.ctr - 1)) (keepingTraffic s0 s1) with turnedAway := true }))) ∧
    (Taken s port h.world 1 h → s0 = runAct (setAccepted port h.world h.ctr) s → worldServed s port h.world = true →
      (Serves s (inboundReq port h.world) h.ia x l → h.ia % 64 = 0 → requestBytes h.len = 64 →
        ∃ t, exec (.rensarReadRequest port h) s = .next t ∧ t.mem = s.mem ∧ t.llc = s.llc ∧
          t.hostBox = s.hostBox ++ [.rensar port (sentHdr port h.world
            (((find? (portOf s port).flows h.world).getD ⟨0, 0⟩).sent + 1) (replyHdr 2 h 0 64) (lineBytes l.bytes (h.ia % 512) 64))
            (lineBytes l.bytes (h.ia % 512) 64)]) ∧
      (Answers (readRange (inboundReq port h.world) h.ia (requestBytes h.len) .read) s0 bs s1 →
        exec (.rensarReadRequest port h) s = .next (runAct (reply port h.world 2 h 0 bs) s1)) ∧
      (Stops (readRange (inboundReq port h.world) h.ia (requestBytes h.len) .read) s0 e s1 → (∀ w, e ≠ .wait w) →
        exec (.rensarReadRequest port h) s = .next (runAct (refuseInbound port h (reasonOf e)) (keepingTraffic s0 s1)))) ∧
    (s0 = runAct (setAccepted port h.world h.ctr) s → p = portOf s0 port → p.heldTx.contains h.txid = false →
      s1 = s0.withPort port { p with jobs := del p.jobs h.txid, askers := del p.askers h.txid, sentAt := del p.sentAt h.txid } →
      (find? p.jobs h.txid = some (.load tid arm lane dreg n ia sx) →
        (Taken s port h.world 2 h → exec (.rensarReadResponse port h bs) s = .next (runAct (do
          carryAnswer port .data bs.length (find? p.askers h.txid)
          landLoad tid arm lane dreg sx ((bs.drop (ia % 64)).take n)
          modTeam tid (teamWithoutTx (port * 4096 + h.txid))
          wakeRoom) s1)) ∧
        (Taken s port h.world 4 h → 1 ≤ reason → reason ≤ 8 →
          exec (.rensarErrorCompletion port h reason) s = .next (runAct (do
            carryAnswer port .ack 0 (find? p.askers h.txid)
            failJob port (port * 4096 + h.txid) 7 (.load tid arm lane dreg n ia sx)
            modTeam tid (teamWithoutTx (port * 4096 + h.txid))
            wakeRoom) s1))) ∧
      (find? p.jobs h.txid = some (.posted tid va kind ctx world core) → Taken s port h.world 3 h →
        exec (.rensarWriteAck port h) s = .next (runAct (do
          carryAnswer port .ack 0 (find? p.askers h.txid)
          modTeam tid (teamWithoutTx (port * 4096 + h.txid))
          wakeRoom) s1)) ∧
      (find? p.jobs h.txid = some (.engine op off len) → find? s.ops op = some o → Taken s port h.world 3 h →
        exec (.rensarWriteAck port h) s = .next (runAct (do
          carryAnswer port .ack 0 (find? p.askers h.txid)
          setOp op (peerSettled (peerAnswered o (port * 4096 + h.txid)))
          wakeRoom) s1))) ∧
    (s0 = runAct (setAccepted port h.world h.ctr) s →
      (portOf s port).heldTx.contains h.txid = true ∨ find? (portOf s port).jobs h.txid = none →
      (Taken s port h.world 2 h → exec (.rensarReadResponse port h bs) s = .next s0) ∧
      (Taken s port h.world 3 h → exec (.rensarWriteAck port h) s = .next s0)) ∧
    (txDue s port txid = true → p = portOf s port → p.heldTx.contains txid = false →
      find? p.jobs txid = some (.load tid arm lane dreg n ia sx) →
      exec (.rensarTimeout port txid) s = .next (runAct (do
        carryAnswer port .ack 0 (find? p.askers txid)
        failJob port (port * 4096 + txid) 8 (.load tid arm lane dreg n ia sx)
        modTeam tid (teamWithoutTx (port * 4096 + txid))
        wakeRoom
        let now := (← get).time
        modPort port fun p => { p with heldTx := insertNew p.heldTx txid, sentAt := put p.sentAt txid now }
        emitRecord (port / 4) { ErrRec.blank with type := 14, cls := 8, unit := 5, number := port })
        (s.withPort port { p with jobs := del p.jobs txid, askers := del p.askers txid, sentAt := del p.sentAt txid }))) ∧
    (txDue s port txid = false ∨ (portOf s port).heldTx.contains txid = true ∨ find? (portOf s port).jobs txid = none →
      exec (.rensarTimeout port txid) s = .next s) ∧
    ((portOf s port).heldTx.contains txid = true → txDue s port txid = true →
      exec (.txidHoldExpired port txid) s = .next (runAct wakeRoom (s.withPort port { portOf s port with
        heldTx := dropAll (portOf s port).heldTx txid, sentAt := del (portOf s port).sentAt txid }))) ∧
    (txDue s port txid = false → exec (.txidHoldExpired port txid) s = .next s) ∧
    (2 ≤ lanes → lanes < 8 → lanesKept lanes < (portOf s port).lanes →
      exec (.rensarLaneFailure port lanes) s = .next (runAct
        (platformRecord (port / 4) { ErrRec.blank with unit := 5, number := port })
        (s.withPort port { portOf s port with lanes := lanesKept lanes, up := true }))) ∧
    exec (.rensarLinkUp port worlds) s = .next (s.withPort port { portOf s port with
      up := true, lanes := 8, flows := [], linkKeys := (worlds.filter fun w => decide (w < 64)).eraseDups })
end

