-- ==== Sys2Proof/Laws/Act.lean ====
section
/-! SUPPORT. How actions run: the answer and the state of each way to build one. -/
namespace Sys2Proof.Machine
open Sys2Proof

/-- Running an action: its answer or what stopped it, and the state it leaves. -/
abbrev outcome {α : Type} (m : Act α) (s : State) : Except Stop α × State := m.run.run s

@[simp] theorem outcome_pure {α : Type} (a : α) (s : State) : outcome (pure a : Act α) s = (.ok a, s) := rfl
@[simp] theorem outcome_throw {α : Type} (e : Stop) (s : State) : outcome (throw e : Act α) s = (.error e, s) := rfl
@[simp] theorem outcome_get (s : State) : outcome (get : Act State) s = (.ok s, s) := rfl
@[simp] theorem outcome_set (t s : State) : outcome (set t : Act PUnit) s = (.ok ⟨⟩, t) := rfl
@[simp] theorem outcome_modify (f : State → State) (s : State) : outcome (modify f : Act PUnit) s = (.ok ⟨⟩, f s) := rfl

/-- The second of two actions runs where the first leaves off, or not at all. -/
theorem outcome_bind {α β : Type} (m : Act α) (f : α → Act β) (s : State) :
    outcome (m >>= f) s = match outcome m s with
      | (.ok a, t) => outcome (f a) t
      | (.error e, t) => (.error e, t) := by
  have e : outcome (m >>= f) s = (match m.run.run s with
      | (.ok a, t) => outcome (f a) t
      | (.error e, t) => (.error e, t)) := by
    simp only [outcome, ExceptT.run_bind, StateT.run_bind]
    rcases m.run.run s with ⟨r | r, t⟩ <;> rfl
  exact e

/-- The second action after a first that completes. -/
theorem outcome_bind_ok {α β : Type} {m : Act α} {f : α → Act β} {s t : State} {a : α}
    (h : outcome m s = (.ok a, t)) : outcome (m >>= f) s = outcome (f a) t := by
  rw [outcome_bind, h]

/-- A stop of the first action is a stop of both. -/
theorem outcome_bind_error {α β : Type} {m : Act α} {f : α → Act β} {s t : State} {e : Stop}
    (h : outcome m s = (.error e, t)) : outcome (m >>= f) s = (.error e, t) := by
  rw [outcome_bind, h]

/-- An attempt always completes, with what came of it. -/
@[simp] theorem outcome_attempt {α : Type} (m : Act α) (s : State) :
    outcome (attempt m) s = (.ok (outcome m s).1, (outcome m s).2) := rfl

theorem runAct_eq {α : Type} (m : Act α) (s : State) : runAct m s = (outcome m s).2 := rfl

/-- Running a sequence whose first part completes. -/
theorem runAct_bind_ok {α β : Type} {m : Act α} {f : α → Act β} {s t : State} {a : α}
    (h : outcome m s = (.ok a, t)) : runAct (m >>= f) s = runAct (f a) t := by
  rw [runAct_eq, outcome_bind_ok h, runAct_eq]

end Sys2Proof.Machine
end

