-- ==== Sys2Proof/Laws/Table.lean ====
section
/-! SUPPORT. Reads after writes of the state's tables and sparse stores, and their canonical forms. -/
namespace Sys2Proof.Machine
open Sys2Proof

theorem find?_put_self {α : Type} (t : Tbl α) (k : Nat) (a : α) : find? (put t k a) k = some a := by
  induction t with
  | nil => simp [put, find?]
  | cons e t ih =>
    obtain ⟨j, b⟩ := e
    unfold put
    split
    · next h => subst h; simp [find?]
    · next h =>
      split
      · simp [find?]
      · next g => simp [find?, h, g, ih]

theorem find?_put_other {α : Type} (t : Tbl α) (k j : Nat) (a : α) (h : j ≠ k) :
    find? (put t k a) j = find? t j := by
  induction t with
  | nil =>
    simp only [put, find?]
    split
    · contradiction
    · split <;> rfl
  | cons e t ih =>
    obtain ⟨i, b⟩ := e
    unfold put
    split
    · next g =>
      subst g
      simp only [find?]
      simp [h]
    · next g =>
      split
      · next g2 =>
        simp only [find?, h, if_false]
        split
        · next g3 => rw [if_neg (by omega), if_pos (by omega)]
        · rfl
      · next g2 =>
        simp only [find?, ih]

theorem find?_put {α : Type} (t : Tbl α) (k j : Nat) (a : α) :
    find? (put t k a) j = if j = k then some a else find? t j := by
  split
  · next h => subst h; exact find?_put_self t j a
  · next h => exact find?_put_other t k j a h

/-! ### Strictly rising keys -/

theorem sorted_tail {α : Type} {e : Nat × α} {t : Tbl α} (h : sorted (e :: t) = true) : sorted t = true := by
  obtain ⟨i, a⟩ := e
  cases t with
  | nil => rfl
  | cons f t =>
    obtain ⟨j, b⟩ := f
    simp only [sorted, Bool.and_eq_true] at h
    exact h.2

/-- In a rising table no key of the tail is at or below the head's. -/
theorem sorted_head_lt {α : Type} {i : Nat} {a : α} {t : Tbl α} (h : sorted ((i, a) :: t) = true) :
    ∀ e ∈ t, i < e.1 := by
  induction t generalizing i a with
  | nil => simp
  | cons f t ih =>
    obtain ⟨j, b⟩ := f
    simp only [sorted, Bool.and_eq_true, decide_eq_true_eq] at h
    intro e he
    rcases List.mem_cons.mp he with rfl | he
    · exact h.1
    · exact Nat.lt_trans h.1 (ih h.2 e he)

theorem sorted_cons {α : Type} {i : Nat} {a : α} {t : Tbl α} (h : sorted t = true) (g : ∀ e ∈ t, i < e.1) :
    sorted ((i, a) :: t) = true := by
  cases t with
  | nil => rfl
  | cons f t =>
    obtain ⟨j, b⟩ := f
    simp only [sorted, Bool.and_eq_true, decide_eq_true_eq]
    exact ⟨g (j, b) (List.mem_cons_self ..), h⟩

theorem mem_put {α : Type} {t : Tbl α} {k : Nat} {a : α} {e : Nat × α} (h : e ∈ put t k a) :
    e = (k, a) ∨ e ∈ t := by
  induction t with
  | nil => simpa [put] using h
  | cons f t ih =>
    obtain ⟨j, b⟩ := f
    unfold put at h
    split at h
    · next g => subst g; rcases List.mem_cons.mp h with rfl | h <;> simp_all
    · split at h
      · rcases List.mem_cons.mp h with rfl | h <;> simp_all
      · rcases List.mem_cons.mp h with rfl | h
        · simp
        · rcases ih h with h | h <;> simp_all

theorem mem_del {α : Type} {t : Tbl α} {k : Nat} {e : Nat × α} (h : e ∈ del t k) : e ∈ t := by
  induction t with
  | nil => simp [del] at h
  | cons f t ih =>
    obtain ⟨j, b⟩ := f
    unfold del at h
    split at h
    · exact List.mem_cons_of_mem _ h
    · split at h
      · exact h
      · rcases List.mem_cons.mp h with rfl | h
        · simp
        · exact List.mem_cons_of_mem _ (ih h)

theorem sorted_put {α : Type} (t : Tbl α) (k : Nat) (a : α) (h : sorted t = true) : sorted (put t k a) = true := by
  induction t with
  | nil => rfl
  | cons f t ih =>
    obtain ⟨j, b⟩ := f
    unfold put
    split
    · exact sorted_cons (sorted_tail h) (sorted_head_lt h)
    · next g =>
      split
      · next g2 =>
        refine sorted_cons h fun e he => ?_
        rcases List.mem_cons.mp he with rfl | he
        · exact g2
        · exact Nat.lt_trans g2 (sorted_head_lt h e he)
      · next g2 =>
        refine sorted_cons (ih (sorted_tail h)) fun e he => ?_
        rcases mem_put he with rfl | he
        · show j < k
          omega
        · exact sorted_head_lt h e he

theorem sorted_del {α : Type} (t : Tbl α) (k : Nat) (h : sorted t = true) : sorted (del t k) = true := by
  induction t with
  | nil => rfl
  | cons f t ih =>
    obtain ⟨j, b⟩ := f
    unfold del
    split
    · exact sorted_tail h
    · split
      · exact h
      · exact sorted_cons (ih (sorted_tail h)) fun e he => sorted_head_lt h e (mem_del he)

theorem find?_below {α : Type} {t : Tbl α} {k : Nat} (h : ∀ e ∈ t, k < e.1) : find? t k = none := by
  cases t with
  | nil => rfl
  | cons f t =>
    obtain ⟨j, b⟩ := f
    have := h (j, b) (List.mem_cons_self ..)
    simp only at this
    simp only [find?]
    rw [if_neg (by omega), if_pos this]

theorem find?_del {α : Type} (t : Tbl α) (k j : Nat) (h : sorted t = true) :
    find? (del t k) j = if j = k then none else find? t j := by
  induction t with
  | nil => simp [del, find?]
  | cons f t ih =>
    obtain ⟨i, b⟩ := f
    have hl := sorted_head_lt h
    unfold del
    split
    · next g =>
      subst g
      split
      · next g => subst g; exact find?_below hl
      · next g2 =>
        simp only [find?, g2, if_false]
        split
        · next g3 => exact find?_below fun e he => Nat.lt_trans g3 (hl e he)
        · rfl
    · next g =>
      split
      · next g2 =>
        split
        · next g3 => subst g3; simp only [find?]; rw [if_neg g, if_pos g2]
        · rfl
      · next g2 =>
        simp only [find?, ih (sorted_tail h)]
        split
        · next g3 =>
          subst g3
          rw [if_neg (by omega)]
        · split
          · split
            · next g4 => subst g4; omega
            · rfl
          · rfl

/-! ### Sparse stores of words -/

/-- A store is canonical: rising keys, and nothing listed that reads as the unlisted do. -/
def canonical {n : Nat} (t : Tbl (BitVec n)) : Prop := sorted t = true ∧ ∀ e ∈ t, e.2 ≠ 0#n

theorem rd_wr {n : Nat} (t : Tbl (BitVec n)) (k j : Nat) (v : BitVec n) (h : sorted t = true) :
    rd (wr t k v) j = if j = k then v else rd t j := by
  unfold rd wr
  split
  · next g =>
    rw [find?_del t k j h]
    split
    · simp [g]
    · rfl
  · rw [find?_put]
    split <;> rfl

theorem canonical_wr {n : Nat} (t : Tbl (BitVec n)) (k : Nat) (v : BitVec n) (h : canonical t) :
    canonical (wr t k v) := by
  unfold wr
  split
  · exact ⟨sorted_del t k h.1, fun e he => h.2 e (mem_del he)⟩
  · next g =>
    refine ⟨sorted_put t k v h.1, fun e he => ?_⟩
    rcases mem_put he with rfl | he
    · exact g
    · exact h.2 e he

end Sys2Proof.Machine
end

