-- ==== Sys2Proof/Laws/State.lean ====
section
/-! SUPPORT. The updates of the state's tables as functions of the state, what each leaves of every field, and the
actions that make them. -/
namespace Sys2Proof.Machine
open Sys2Proof

theorem find?_adjust {α : Type} (t : Tbl α) (k j : Nat) (f : α → α) :
    find? (adjust t k f) j = if j = k then (find? t k).map f else find? t j := by
  unfold adjust
  cases h : find? t k with
  | none =>
    simp only [Option.map_none]
    split
    · next g => subst g; exact h
    · rfl
  | some x =>
    simp only [find?_put, Option.map_some]

/-! ### withTeam -/

@[simp] theorem outcome_setTeam (i : Nat) (x : Team) (s : State) :
    outcome (setTeam i x) s = (.ok ⟨⟩, s.withTeam i x) := rfl
@[simp] theorem withTeam_teams (s : State) (i : Nat) (x : Team) : (s.withTeam i x).teams = put s.teams i x := rfl
@[simp] theorem withTeam_power (s : State) (i : Nat) (x : Team) : (s.withTeam i x).power = s.power := rfl
@[simp] theorem withTeam_time (s : State) (i : Nat) (x : Team) : (s.withTeam i x).time = s.time := rfl
@[simp] theorem withTeam_tick (s : State) (i : Nat) (x : Team) : (s.withTeam i x).tick = s.tick := rfl
@[simp] theorem withTeam_tickTime (s : State) (i : Nat) (x : Team) : (s.withTeam i x).tickTime = s.tickTime := rfl
@[simp] theorem withTeam_epoch (s : State) (i : Nat) (x : Team) : (s.withTeam i x).epoch = s.epoch := rfl
@[simp] theorem withTeam_bootStatus (s : State) (i : Nat) (x : Team) : (s.withTeam i x).bootStatus = s.bootStatus := rfl
@[simp] theorem withTeam_rollback (s : State) (i : Nat) (x : Team) : (s.withTeam i x).rollback = s.rollback := rfl
@[simp] theorem withTeam_measurement (s : State) (i : Nat) (x : Team) : (s.withTeam i x).measurement = s.measurement := rfl
@[simp] theorem withTeam_mem (s : State) (i : Nat) (x : Team) : (s.withTeam i x).mem = s.mem := rfl
@[simp] theorem withTeam_blocksMeta (s : State) (i : Nat) (x : Team) : (s.withTeam i x).blocksMeta = s.blocksMeta := rfl
@[simp] theorem withTeam_retiredPages (s : State) (i : Nat) (x : Team) : (s.withTeam i x).retiredPages = s.retiredPages := rfl
@[simp] theorem withTeam_retiring (s : State) (i : Nat) (x : Team) : (s.withTeam i x).retiring = s.retiring := rfl
@[simp] theorem withTeam_llc (s : State) (i : Nat) (x : Team) : (s.withTeam i x).llc = s.llc := rfl
@[simp] theorem withTeam_dir (s : State) (i : Nat) (x : Team) : (s.withTeam i x).dir = s.dir := rfl
@[simp] theorem withTeam_hostOwned (s : State) (i : Nat) (x : Team) : (s.withTeam i x).hostOwned = s.hostOwned := rfl
@[simp] theorem withTeam_snoops (s : State) (i : Nat) (x : Team) : (s.withTeam i x).snoops = s.snoops := rfl
@[simp] theorem withTeam_relOwner (s : State) (i : Nat) (x : Team) : (s.withTeam i x).relOwner = s.relOwner := rfl
@[simp] theorem withTeam_hints (s : State) (i : Nat) (x : Team) : (s.withTeam i x).hints = s.hints := rfl
@[simp] theorem withTeam_tlb (s : State) (i : Nat) (x : Team) : (s.withTeam i x).tlb = s.tlb := rfl
@[simp] theorem withTeam_slices (s : State) (i : Nat) (x : Team) : (s.withTeam i x).slices = s.slices := rfl
@[simp] theorem withTeam_keys (s : State) (i : Nat) (x : Team) : (s.withTeam i x).keys = s.keys := rfl
@[simp] theorem withTeam_keyJobs (s : State) (i : Nat) (x : Team) : (s.withTeam i x).keyJobs = s.keyJobs := rfl
@[simp] theorem withTeam_invals (s : State) (i : Nat) (x : Team) : (s.withTeam i x).invals = s.invals := rfl
@[simp] theorem withTeam_cores (s : State) (i : Nat) (x : Team) : (s.withTeam i x).cores = s.cores := rfl
@[simp] theorem withTeam_blocks (s : State) (i : Nat) (x : Team) : (s.withTeam i x).blocks = s.blocks := rfl
@[simp] theorem withTeam_launches (s : State) (i : Nat) (x : Team) : (s.withTeam i x).launches = s.launches := rfl
@[simp] theorem withTeam_contexts (s : State) (i : Nat) (x : Team) : (s.withTeam i x).contexts = s.contexts := rfl
@[simp] theorem withTeam_baseCharges (s : State) (i : Nat) (x : Team) : (s.withTeam i x).baseCharges = s.baseCharges := rfl
@[simp] theorem withTeam_blockBase (s : State) (i : Nat) (x : Team) : (s.withTeam i x).blockBase = s.blockBase := rfl
@[simp] theorem withTeam_working (s : State) (i : Nat) (x : Team) : (s.withTeam i x).working = s.working := rfl
@[simp] theorem withTeam_baseHost (s : State) (i : Nat) (x : Team) : (s.withTeam i x).baseHost = s.baseHost := rfl
@[simp] theorem withTeam_tickCopies (s : State) (i : Nat) (x : Team) : (s.withTeam i x).tickCopies = s.tickCopies := rfl
@[simp] theorem withTeam_hostCopies (s : State) (i : Nat) (x : Team) : (s.withTeam i x).hostCopies = s.hostCopies := rfl
@[simp] theorem withTeam_tickDue (s : State) (i : Nat) (x : Team) : (s.withTeam i x).tickDue = s.tickDue := rfl
@[simp] theorem withTeam_sensors (s : State) (i : Nat) (x : Team) : (s.withTeam i x).sensors = s.sensors := rfl
@[simp] theorem withTeam_worlds (s : State) (i : Nat) (x : Team) : (s.withTeam i x).worlds = s.worlds := rfl
@[simp] theorem withTeam_fns (s : State) (i : Nat) (x : Team) : (s.withTeam i x).fns = s.fns := rfl
@[simp] theorem withTeam_partitions (s : State) (i : Nat) (x : Team) : (s.withTeam i x).partitions = s.partitions := rfl
@[simp] theorem withTeam_quads (s : State) (i : Nat) (x : Team) : (s.withTeam i x).quads = s.quads := rfl
@[simp] theorem withTeam_engines (s : State) (i : Nat) (x : Team) : (s.withTeam i x).engines = s.engines := rfl
@[simp] theorem withTeam_copyTurn (s : State) (i : Nat) (x : Team) : (s.withTeam i x).copyTurn = s.copyTurn := rfl
@[simp] theorem withTeam_ops (s : State) (i : Nat) (x : Team) : (s.withTeam i x).ops = s.ops := rfl
@[simp] theorem withTeam_faults (s : State) (i : Nat) (x : Team) : (s.withTeam i x).faults = s.faults := rfl
@[simp] theorem withTeam_endings (s : State) (i : Nat) (x : Team) : (s.withTeam i x).endings = s.endings := rfl
@[simp] theorem withTeam_overhead (s : State) (i : Nat) (x : Team) : (s.withTeam i x).overhead = s.overhead := rfl
@[simp] theorem withTeam_drawn (s : State) (i : Nat) (x : Team) : (s.withTeam i x).drawn = s.drawn := rfl
@[simp] theorem withTeam_fw (s : State) (i : Nat) (x : Team) : (s.withTeam i x).fw = s.fw := rfl
@[simp] theorem withTeam_recSeq (s : State) (i : Nat) (x : Team) : (s.withTeam i x).recSeq = s.recSeq := rfl
@[simp] theorem withTeam_hostBox (s : State) (i : Nat) (x : Team) : (s.withTeam i x).hostBox = s.hostBox := rfl
@[simp] theorem withTeam_ports (s : State) (i : Nat) (x : Team) : (s.withTeam i x).ports = s.ports := rfl
@[simp] theorem withTeam_tags (s : State) (i : Nat) (x : Team) : (s.withTeam i x).tags = s.tags := rfl
@[simp] theorem withTeam_peerWindows (s : State) (i : Nat) (x : Team) : (s.withTeam i x).peerWindows = s.peerWindows := rfl
@[simp] theorem withTeam_cxlUp (s : State) (i : Nat) (x : Team) : (s.withTeam i x).cxlUp = s.cxlUp := rfl
@[simp] theorem withTeam_cxlWidth (s : State) (i : Nat) (x : Team) : (s.withTeam i x).cxlWidth = s.cxlWidth := rfl
@[simp] theorem withTeam_cxlSpeed (s : State) (i : Nat) (x : Team) : (s.withTeam i x).cxlSpeed = s.cxlSpeed := rfl
@[simp] theorem withTeam_ideUp (s : State) (i : Nat) (x : Team) : (s.withTeam i x).ideUp = s.ideUp := rfl
@[simp] theorem withTeam_stopped (s : State) (i : Nat) (x : Team) : (s.withTeam i x).stopped = s.stopped := rfl
@[simp] theorem withTeam_flows (s : State) (i : Nat) (x : Team) : (s.withTeam i x).flows = s.flows := rfl
@[simp] theorem withTeam_windows (s : State) (i : Nat) (x : Team) : (s.withTeam i x).windows = s.windows := rfl
@[simp] theorem withTeam_tdispQueue (s : State) (i : Nat) (x : Team) : (s.withTeam i x).tdispQueue = s.tdispQueue := rfl
@[simp] theorem withTeam_packageCap (s : State) (i : Nat) (x : Team) : (s.withTeam i x).packageCap = s.packageCap := rfl
@[simp] theorem withTeam_newCap (s : State) (i : Nat) (x : Team) : (s.withTeam i x).newCap = s.newCap := rfl
@[simp] theorem withTeam_capStatus (s : State) (i : Nat) (x : Team) : (s.withTeam i x).capStatus = s.capStatus := rfl
@[simp] theorem withTeam_capRequest (s : State) (i : Nat) (x : Team) : (s.withTeam i x).capRequest = s.capRequest := rfl
@[simp] theorem withTeam_rackGrant (s : State) (i : Nat) (x : Team) : (s.withTeam i x).rackGrant = s.rackGrant := rfl
@[simp] theorem withTeam_grantCopy (s : State) (i : Nat) (x : Team) : (s.withTeam i x).grantCopy = s.grantCopy := rfl
@[simp] theorem withTeam_grantSeqs (s : State) (i : Nat) (x : Team) : (s.withTeam i x).grantSeqs = s.grantSeqs := rfl
@[simp] theorem withTeam_rackCap (s : State) (i : Nat) (x : Team) : (s.withTeam i x).rackCap = s.rackCap := rfl
@[simp] theorem withTeam_demands (s : State) (i : Nat) (x : Team) : (s.withTeam i x).demands = s.demands := rfl
@[simp] theorem withTeam_grantTime (s : State) (i : Nat) (x : Team) : (s.withTeam i x).grantTime = s.grantTime := rfl
@[simp] theorem withTeam_sentSeq (s : State) (i : Nat) (x : Team) : (s.withTeam i x).sentSeq = s.sentSeq := rfl
@[simp] theorem withTeam_injectStatus (s : State) (i : Nat) (x : Team) : (s.withTeam i x).injectStatus = s.injectStatus := rfl
@[simp] theorem withTeam_injection (s : State) (i : Nat) (x : Team) : (s.withTeam i x).injection = s.injection := rfl
@[simp] theorem withTeam_gates (s : State) (i : Nat) (x : Team) : (s.withTeam i x).gates = s.gates := rfl
@[simp] theorem withTeam_gateQueue (s : State) (i : Nat) (x : Team) : (s.withTeam i x).gateQueue = s.gateQueue := rfl
@[simp] theorem withTeam_gateTimes (s : State) (i : Nat) (x : Team) : (s.withTeam i x).gateTimes = s.gateTimes := rfl
@[simp] theorem withTeam_checkpointing (s : State) (i : Nat) (x : Team) : (s.withTeam i x).checkpointing = s.checkpointing := rfl
@[simp] theorem withTeam_meterJobs (s : State) (i : Nat) (x : Team) : (s.withTeam i x).meterJobs = s.meterJobs := rfl
@[simp] theorem withTeam_meterAsked (s : State) (i : Nat) (x : Team) : (s.withTeam i x).meterAsked = s.meterAsked := rfl
@[simp] theorem withTeam_resetAsked (s : State) (i : Nat) (x : Team) : (s.withTeam i x).resetAsked = s.resetAsked := rfl
@[simp] theorem withTeam_late (s : State) (i : Nat) (x : Team) : (s.withTeam i x).late = s.late := rfl
@[simp] theorem withTeam_closing (s : State) (i : Nat) (x : Team) : (s.withTeam i x).closing = s.closing := rfl
@[simp] theorem withTeam_again (s : State) (i : Nat) (x : Team) : (s.withTeam i x).again = s.again := rfl
@[simp] theorem withTeam_turnedAway (s : State) (i : Nat) (x : Team) : (s.withTeam i x).turnedAway = s.turnedAway := rfl
@[simp] theorem withTeam_focus (s : State) (i : Nat) (x : Team) : (s.withTeam i x).focus = s.focus := rfl
@[simp] theorem withTeam_agenda (s : State) (i : Nat) (x : Team) : (s.withTeam i x).agenda = s.agenda := rfl
@[simp] theorem withTeam_draws (s : State) (i : Nat) (x : Team) : (s.withTeam i x).draws = s.draws := rfl
@[simp] theorem withTeam_nextId (s : State) (i : Nat) (x : Team) : (s.withTeam i x).nextId = s.nextId := rfl
@[simp] theorem withTeam_rotor (s : State) (i : Nat) (x : Team) : (s.withTeam i x).rotor = s.rotor := rfl

/-- The action that changes one entry of `teams`. -/
@[simp] theorem outcome_modTeam (i : Nat) (f : Team → Team) (s : State) :
    outcome (modTeam i f) s = (.ok ⟨⟩, { s with teams := adjust s.teams i f }) := by
  have h : outcome (modTeam i f) s = outcome (match find? s.teams i with
      | some x => setTeam i (f x)
      | none => pure ()) s := rfl
  rw [h]
  unfold adjust
  cases find? s.teams i <;> rfl

/-! ### withBlock -/

@[simp] theorem outcome_setBlock (i : Nat) (x : Block) (s : State) :
    outcome (setBlock i x) s = (.ok ⟨⟩, s.withBlock i x) := rfl
@[simp] theorem withBlock_blocks (s : State) (i : Nat) (x : Block) : (s.withBlock i x).blocks = put s.blocks i x := rfl
@[simp] theorem withBlock_power (s : State) (i : Nat) (x : Block) : (s.withBlock i x).power = s.power := rfl
@[simp] theorem withBlock_time (s : State) (i : Nat) (x : Block) : (s.withBlock i x).time = s.time := rfl
@[simp] theorem withBlock_tick (s : State) (i : Nat) (x : Block) : (s.withBlock i x).tick = s.tick := rfl
@[simp] theorem withBlock_tickTime (s : State) (i : Nat) (x : Block) : (s.withBlock i x).tickTime = s.tickTime := rfl
@[simp] theorem withBlock_epoch (s : State) (i : Nat) (x : Block) : (s.withBlock i x).epoch = s.epoch := rfl
@[simp] theorem withBlock_bootStatus (s : State) (i : Nat) (x : Block) : (s.withBlock i x).bootStatus = s.bootStatus := rfl
@[simp] theorem withBlock_rollback (s : State) (i : Nat) (x : Block) : (s.withBlock i x).rollback = s.rollback := rfl
@[simp] theorem withBlock_measurement (s : State) (i : Nat) (x : Block) : (s.withBlock i x).measurement = s.measurement := rfl
@[simp] theorem withBlock_mem (s : State) (i : Nat) (x : Block) : (s.withBlock i x).mem = s.mem := rfl
@[simp] theorem withBlock_blocksMeta (s : State) (i : Nat) (x : Block) : (s.withBlock i x).blocksMeta = s.blocksMeta := rfl
@[simp] theorem withBlock_retiredPages (s : State) (i : Nat) (x : Block) : (s.withBlock i x).retiredPages = s.retiredPages := rfl
@[simp] theorem withBlock_retiring (s : State) (i : Nat) (x : Block) : (s.withBlock i x).retiring = s.retiring := rfl
@[simp] theorem withBlock_llc (s : State) (i : Nat) (x : Block) : (s.withBlock i x).llc = s.llc := rfl
@[simp] theorem withBlock_dir (s : State) (i : Nat) (x : Block) : (s.withBlock i x).dir = s.dir := rfl
@[simp] theorem withBlock_hostOwned (s : State) (i : Nat) (x : Block) : (s.withBlock i x).hostOwned = s.hostOwned := rfl
@[simp] theorem withBlock_snoops (s : State) (i : Nat) (x : Block) : (s.withBlock i x).snoops = s.snoops := rfl
@[simp] theorem withBlock_relOwner (s : State) (i : Nat) (x : Block) : (s.withBlock i x).relOwner = s.relOwner := rfl
@[simp] theorem withBlock_hints (s : State) (i : Nat) (x : Block) : (s.withBlock i x).hints = s.hints := rfl
@[simp] theorem withBlock_tlb (s : State) (i : Nat) (x : Block) : (s.withBlock i x).tlb = s.tlb := rfl
@[simp] theorem withBlock_slices (s : State) (i : Nat) (x : Block) : (s.withBlock i x).slices = s.slices := rfl
@[simp] theorem withBlock_keys (s : State) (i : Nat) (x : Block) : (s.withBlock i x).keys = s.keys := rfl
@[simp] theorem withBlock_keyJobs (s : State) (i : Nat) (x : Block) : (s.withBlock i x).keyJobs = s.keyJobs := rfl
@[simp] theorem withBlock_invals (s : State) (i : Nat) (x : Block) : (s.withBlock i x).invals = s.invals := rfl
@[simp] theorem withBlock_cores (s : State) (i : Nat) (x : Block) : (s.withBlock i x).cores = s.cores := rfl
@[simp] theorem withBlock_teams (s : State) (i : Nat) (x : Block) : (s.withBlock i x).teams = s.teams := rfl
@[simp] theorem withBlock_launches (s : State) (i : Nat) (x : Block) : (s.withBlock i x).launches = s.launches := rfl
@[simp] theorem withBlock_contexts (s : State) (i : Nat) (x : Block) : (s.withBlock i x).contexts = s.contexts := rfl
@[simp] theorem withBlock_baseCharges (s : State) (i : Nat) (x : Block) : (s.withBlock i x).baseCharges = s.baseCharges := rfl
@[simp] theorem withBlock_blockBase (s : State) (i : Nat) (x : Block) : (s.withBlock i x).blockBase = s.blockBase := rfl
@[simp] theorem withBlock_working (s : State) (i : Nat) (x : Block) : (s.withBlock i x).working = s.working := rfl
@[simp] theorem withBlock_baseHost (s : State) (i : Nat) (x : Block) : (s.withBlock i x).baseHost = s.baseHost := rfl
@[simp] theorem withBlock_tickCopies (s : State) (i : Nat) (x : Block) : (s.withBlock i x).tickCopies = s.tickCopies := rfl
@[simp] theorem withBlock_hostCopies (s : State) (i : Nat) (x : Block) : (s.withBlock i x).hostCopies = s.hostCopies := rfl
@[simp] theorem withBlock_tickDue (s : State) (i : Nat) (x : Block) : (s.withBlock i x).tickDue = s.tickDue := rfl
@[simp] theorem withBlock_sensors (s : State) (i : Nat) (x : Block) : (s.withBlock i x).sensors = s.sensors := rfl
@[simp] theorem withBlock_worlds (s : State) (i : Nat) (x : Block) : (s.withBlock i x).worlds = s.worlds := rfl
@[simp] theorem withBlock_fns (s : State) (i : Nat) (x : Block) : (s.withBlock i x).fns = s.fns := rfl
@[simp] theorem withBlock_partitions (s : State) (i : Nat) (x : Block) : (s.withBlock i x).partitions = s.partitions := rfl
@[simp] theorem withBlock_quads (s : State) (i : Nat) (x : Block) : (s.withBlock i x).quads = s.quads := rfl
@[simp] theorem withBlock_engines (s : State) (i : Nat) (x : Block) : (s.withBlock i x).engines = s.engines := rfl
@[simp] theorem withBlock_copyTurn (s : State) (i : Nat) (x : Block) : (s.withBlock i x).copyTurn = s.copyTurn := rfl
@[simp] theorem withBlock_ops (s : State) (i : Nat) (x : Block) : (s.withBlock i x).ops = s.ops := rfl
@[simp] theorem withBlock_faults (s : State) (i : Nat) (x : Block) : (s.withBlock i x).faults = s.faults := rfl
@[simp] theorem withBlock_endings (s : State) (i : Nat) (x : Block) : (s.withBlock i x).endings = s.endings := rfl
@[simp] theorem withBlock_overhead (s : State) (i : Nat) (x : Block) : (s.withBlock i x).overhead = s.overhead := rfl
@[simp] theorem withBlock_drawn (s : State) (i : Nat) (x : Block) : (s.withBlock i x).drawn = s.drawn := rfl
@[simp] theorem withBlock_fw (s : State) (i : Nat) (x : Block) : (s.withBlock i x).fw = s.fw := rfl
@[simp] theorem withBlock_recSeq (s : State) (i : Nat) (x : Block) : (s.withBlock i x).recSeq = s.recSeq := rfl
@[simp] theorem withBlock_hostBox (s : State) (i : Nat) (x : Block) : (s.withBlock i x).hostBox = s.hostBox := rfl
@[simp] theorem withBlock_ports (s : State) (i : Nat) (x : Block) : (s.withBlock i x).ports = s.ports := rfl
@[simp] theorem withBlock_tags (s : State) (i : Nat) (x : Block) : (s.withBlock i x).tags = s.tags := rfl
@[simp] theorem withBlock_peerWindows (s : State) (i : Nat) (x : Block) : (s.withBlock i x).peerWindows = s.peerWindows := rfl
@[simp] theorem withBlock_cxlUp (s : State) (i : Nat) (x : Block) : (s.withBlock i x).cxlUp = s.cxlUp := rfl
@[simp] theorem withBlock_cxlWidth (s : State) (i : Nat) (x : Block) : (s.withBlock i x).cxlWidth = s.cxlWidth := rfl
@[simp] theorem withBlock_cxlSpeed (s : State) (i : Nat) (x : Block) : (s.withBlock i x).cxlSpeed = s.cxlSpeed := rfl
@[simp] theorem withBlock_ideUp (s : State) (i : Nat) (x : Block) : (s.withBlock i x).ideUp = s.ideUp := rfl
@[simp] theorem withBlock_stopped (s : State) (i : Nat) (x : Block) : (s.withBlock i x).stopped = s.stopped := rfl
@[simp] theorem withBlock_flows (s : State) (i : Nat) (x : Block) : (s.withBlock i x).flows = s.flows := rfl
@[simp] theorem withBlock_windows (s : State) (i : Nat) (x : Block) : (s.withBlock i x).windows = s.windows := rfl
@[simp] theorem withBlock_tdispQueue (s : State) (i : Nat) (x : Block) : (s.withBlock i x).tdispQueue = s.tdispQueue := rfl
@[simp] theorem withBlock_packageCap (s : State) (i : Nat) (x : Block) : (s.withBlock i x).packageCap = s.packageCap := rfl
@[simp] theorem withBlock_newCap (s : State) (i : Nat) (x : Block) : (s.withBlock i x).newCap = s.newCap := rfl
@[simp] theorem withBlock_capStatus (s : State) (i : Nat) (x : Block) : (s.withBlock i x).capStatus = s.capStatus := rfl
@[simp] theorem withBlock_capRequest (s : State) (i : Nat) (x : Block) : (s.withBlock i x).capRequest = s.capRequest := rfl
@[simp] theorem withBlock_rackGrant (s : State) (i : Nat) (x : Block) : (s.withBlock i x).rackGrant = s.rackGrant := rfl
@[simp] theorem withBlock_grantCopy (s : State) (i : Nat) (x : Block) : (s.withBlock i x).grantCopy = s.grantCopy := rfl
@[simp] theorem withBlock_grantSeqs (s : State) (i : Nat) (x : Block) : (s.withBlock i x).grantSeqs = s.grantSeqs := rfl
@[simp] theorem withBlock_rackCap (s : State) (i : Nat) (x : Block) : (s.withBlock i x).rackCap = s.rackCap := rfl
@[simp] theorem withBlock_demands (s : State) (i : Nat) (x : Block) : (s.withBlock i x).demands = s.demands := rfl
@[simp] theorem withBlock_grantTime (s : State) (i : Nat) (x : Block) : (s.withBlock i x).grantTime = s.grantTime := rfl
@[simp] theorem withBlock_sentSeq (s : State) (i : Nat) (x : Block) : (s.withBlock i x).sentSeq = s.sentSeq := rfl
@[simp] theorem withBlock_injectStatus (s : State) (i : Nat) (x : Block) : (s.withBlock i x).injectStatus = s.injectStatus := rfl
@[simp] theorem withBlock_injection (s : State) (i : Nat) (x : Block) : (s.withBlock i x).injection = s.injection := rfl
@[simp] theorem withBlock_gates (s : State) (i : Nat) (x : Block) : (s.withBlock i x).gates = s.gates := rfl
@[simp] theorem withBlock_gateQueue (s : State) (i : Nat) (x : Block) : (s.withBlock i x).gateQueue = s.gateQueue := rfl
@[simp] theorem withBlock_gateTimes (s : State) (i : Nat) (x : Block) : (s.withBlock i x).gateTimes = s.gateTimes := rfl
@[simp] theorem withBlock_checkpointing (s : State) (i : Nat) (x : Block) : (s.withBlock i x).checkpointing = s.checkpointing := rfl
@[simp] theorem withBlock_meterJobs (s : State) (i : Nat) (x : Block) : (s.withBlock i x).meterJobs = s.meterJobs := rfl
@[simp] theorem withBlock_meterAsked (s : State) (i : Nat) (x : Block) : (s.withBlock i x).meterAsked = s.meterAsked := rfl
@[simp] theorem withBlock_resetAsked (s : State) (i : Nat) (x : Block) : (s.withBlock i x).resetAsked = s.resetAsked := rfl
@[simp] theorem withBlock_late (s : State) (i : Nat) (x : Block) : (s.withBlock i x).late = s.late := rfl
@[simp] theorem withBlock_closing (s : State) (i : Nat) (x : Block) : (s.withBlock i x).closing = s.closing := rfl
@[simp] theorem withBlock_again (s : State) (i : Nat) (x : Block) : (s.withBlock i x).again = s.again := rfl
@[simp] theorem withBlock_turnedAway (s : State) (i : Nat) (x : Block) : (s.withBlock i x).turnedAway = s.turnedAway := rfl
@[simp] theorem withBlock_focus (s : State) (i : Nat) (x : Block) : (s.withBlock i x).focus = s.focus := rfl
@[simp] theorem withBlock_agenda (s : State) (i : Nat) (x : Block) : (s.withBlock i x).agenda = s.agenda := rfl
@[simp] theorem withBlock_draws (s : State) (i : Nat) (x : Block) : (s.withBlock i x).draws = s.draws := rfl
@[simp] theorem withBlock_nextId (s : State) (i : Nat) (x : Block) : (s.withBlock i x).nextId = s.nextId := rfl
@[simp] theorem withBlock_rotor (s : State) (i : Nat) (x : Block) : (s.withBlock i x).rotor = s.rotor := rfl

/-- The action that changes one entry of `blocks`. -/
@[simp] theorem outcome_modBlock (i : Nat) (f : Block → Block) (s : State) :
    outcome (modBlock i f) s = (.ok ⟨⟩, { s with blocks := adjust s.blocks i f }) := by
  have h : outcome (modBlock i f) s = outcome (match find? s.blocks i with
      | some x => setBlock i (f x)
      | none => pure ()) s := rfl
  rw [h]
  unfold adjust
  cases find? s.blocks i <;> rfl

/-! ### withCore -/

@[simp] theorem outcome_setCore (i : Nat) (x : Core) (s : State) :
    outcome (setCore i x) s = (.ok ⟨⟩, s.withCore i x) := rfl
@[simp] theorem withCore_cores (s : State) (i : Nat) (x : Core) : (s.withCore i x).cores = put s.cores i x := rfl
@[simp] theorem withCore_power (s : State) (i : Nat) (x : Core) : (s.withCore i x).power = s.power := rfl
@[simp] theorem withCore_time (s : State) (i : Nat) (x : Core) : (s.withCore i x).time = s.time := rfl
@[simp] theorem withCore_tick (s : State) (i : Nat) (x : Core) : (s.withCore i x).tick = s.tick := rfl
@[simp] theorem withCore_tickTime (s : State) (i : Nat) (x : Core) : (s.withCore i x).tickTime = s.tickTime := rfl
@[simp] theorem withCore_epoch (s : State) (i : Nat) (x : Core) : (s.withCore i x).epoch = s.epoch := rfl
@[simp] theorem withCore_bootStatus (s : State) (i : Nat) (x : Core) : (s.withCore i x).bootStatus = s.bootStatus := rfl
@[simp] theorem withCore_rollback (s : State) (i : Nat) (x : Core) : (s.withCore i x).rollback = s.rollback := rfl
@[simp] theorem withCore_measurement (s : State) (i : Nat) (x : Core) : (s.withCore i x).measurement = s.measurement := rfl
@[simp] theorem withCore_mem (s : State) (i : Nat) (x : Core) : (s.withCore i x).mem = s.mem := rfl
@[simp] theorem withCore_blocksMeta (s : State) (i : Nat) (x : Core) : (s.withCore i x).blocksMeta = s.blocksMeta := rfl
@[simp] theorem withCore_retiredPages (s : State) (i : Nat) (x : Core) : (s.withCore i x).retiredPages = s.retiredPages := rfl
@[simp] theorem withCore_retiring (s : State) (i : Nat) (x : Core) : (s.withCore i x).retiring = s.retiring := rfl
@[simp] theorem withCore_llc (s : State) (i : Nat) (x : Core) : (s.withCore i x).llc = s.llc := rfl
@[simp] theorem withCore_dir (s : State) (i : Nat) (x : Core) : (s.withCore i x).dir = s.dir := rfl
@[simp] theorem withCore_hostOwned (s : State) (i : Nat) (x : Core) : (s.withCore i x).hostOwned = s.hostOwned := rfl
@[simp] theorem withCore_snoops (s : State) (i : Nat) (x : Core) : (s.withCore i x).snoops = s.snoops := rfl
@[simp] theorem withCore_relOwner (s : State) (i : Nat) (x : Core) : (s.withCore i x).relOwner = s.relOwner := rfl
@[simp] theorem withCore_hints (s : State) (i : Nat) (x : Core) : (s.withCore i x).hints = s.hints := rfl
@[simp] theorem withCore_tlb (s : State) (i : Nat) (x : Core) : (s.withCore i x).tlb = s.tlb := rfl
@[simp] theorem withCore_slices (s : State) (i : Nat) (x : Core) : (s.withCore i x).slices = s.slices := rfl
@[simp] theorem withCore_keys (s : State) (i : Nat) (x : Core) : (s.withCore i x).keys = s.keys := rfl
@[simp] theorem withCore_keyJobs (s : State) (i : Nat) (x : Core) : (s.withCore i x).keyJobs = s.keyJobs := rfl
@[simp] theorem withCore_invals (s : State) (i : Nat) (x : Core) : (s.withCore i x).invals = s.invals := rfl
@[simp] theorem withCore_blocks (s : State) (i : Nat) (x : Core) : (s.withCore i x).blocks = s.blocks := rfl
@[simp] theorem withCore_teams (s : State) (i : Nat) (x : Core) : (s.withCore i x).teams = s.teams := rfl
@[simp] theorem withCore_launches (s : State) (i : Nat) (x : Core) : (s.withCore i x).launches = s.launches := rfl
@[simp] theorem withCore_contexts (s : State) (i : Nat) (x : Core) : (s.withCore i x).contexts = s.contexts := rfl
@[simp] theorem withCore_baseCharges (s : State) (i : Nat) (x : Core) : (s.withCore i x).baseCharges = s.baseCharges := rfl
@[simp] theorem withCore_blockBase (s : State) (i : Nat) (x : Core) : (s.withCore i x).blockBase = s.blockBase := rfl
@[simp] theorem withCore_working (s : State) (i : Nat) (x : Core) : (s.withCore i x).working = s.working := rfl
@[simp] theorem withCore_baseHost (s : State) (i : Nat) (x : Core) : (s.withCore i x).baseHost = s.baseHost := rfl
@[simp] theorem withCore_tickCopies (s : State) (i : Nat) (x : Core) : (s.withCore i x).tickCopies = s.tickCopies := rfl
@[simp] theorem withCore_hostCopies (s : State) (i : Nat) (x : Core) : (s.withCore i x).hostCopies = s.hostCopies := rfl
@[simp] theorem withCore_tickDue (s : State) (i : Nat) (x : Core) : (s.withCore i x).tickDue = s.tickDue := rfl
@[simp] theorem withCore_sensors (s : State) (i : Nat) (x : Core) : (s.withCore i x).sensors = s.sensors := rfl
@[simp] theorem withCore_worlds (s : State) (i : Nat) (x : Core) : (s.withCore i x).worlds = s.worlds := rfl
@[simp] theorem withCore_fns (s : State) (i : Nat) (x : Core) : (s.withCore i x).fns = s.fns := rfl
@[simp] theorem withCore_partitions (s : State) (i : Nat) (x : Core) : (s.withCore i x).partitions = s.partitions := rfl
@[simp] theorem withCore_quads (s : State) (i : Nat) (x : Core) : (s.withCore i x).quads = s.quads := rfl
@[simp] theorem withCore_engines (s : State) (i : Nat) (x : Core) : (s.withCore i x).engines = s.engines := rfl
@[simp] theorem withCore_copyTurn (s : State) (i : Nat) (x : Core) : (s.withCore i x).copyTurn = s.copyTurn := rfl
@[simp] theorem withCore_ops (s : State) (i : Nat) (x : Core) : (s.withCore i x).ops = s.ops := rfl
@[simp] theorem withCore_faults (s : State) (i : Nat) (x : Core) : (s.withCore i x).faults = s.faults := rfl
@[simp] theorem withCore_endings (s : State) (i : Nat) (x : Core) : (s.withCore i x).endings = s.endings := rfl
@[simp] theorem withCore_overhead (s : State) (i : Nat) (x : Core) : (s.withCore i x).overhead = s.overhead := rfl
@[simp] theorem withCore_drawn (s : State) (i : Nat) (x : Core) : (s.withCore i x).drawn = s.drawn := rfl
@[simp] theorem withCore_fw (s : State) (i : Nat) (x : Core) : (s.withCore i x).fw = s.fw := rfl
@[simp] theorem withCore_recSeq (s : State) (i : Nat) (x : Core) : (s.withCore i x).recSeq = s.recSeq := rfl
@[simp] theorem withCore_hostBox (s : State) (i : Nat) (x : Core) : (s.withCore i x).hostBox = s.hostBox := rfl
@[simp] theorem withCore_ports (s : State) (i : Nat) (x : Core) : (s.withCore i x).ports = s.ports := rfl
@[simp] theorem withCore_tags (s : State) (i : Nat) (x : Core) : (s.withCore i x).tags = s.tags := rfl
@[simp] theorem withCore_peerWindows (s : State) (i : Nat) (x : Core) : (s.withCore i x).peerWindows = s.peerWindows := rfl
@[simp] theorem withCore_cxlUp (s : State) (i : Nat) (x : Core) : (s.withCore i x).cxlUp = s.cxlUp := rfl
@[simp] theorem withCore_cxlWidth (s : State) (i : Nat) (x : Core) : (s.withCore i x).cxlWidth = s.cxlWidth := rfl
@[simp] theorem withCore_cxlSpeed (s : State) (i : Nat) (x : Core) : (s.withCore i x).cxlSpeed = s.cxlSpeed := rfl
@[simp] theorem withCore_ideUp (s : State) (i : Nat) (x : Core) : (s.withCore i x).ideUp = s.ideUp := rfl
@[simp] theorem withCore_stopped (s : State) (i : Nat) (x : Core) : (s.withCore i x).stopped = s.stopped := rfl
@[simp] theorem withCore_flows (s : State) (i : Nat) (x : Core) : (s.withCore i x).flows = s.flows := rfl
@[simp] theorem withCore_windows (s : State) (i : Nat) (x : Core) : (s.withCore i x).windows = s.windows := rfl
@[simp] theorem withCore_tdispQueue (s : State) (i : Nat) (x : Core) : (s.withCore i x).tdispQueue = s.tdispQueue := rfl
@[simp] theorem withCore_packageCap (s : State) (i : Nat) (x : Core) : (s.withCore i x).packageCap = s.packageCap := rfl
@[simp] theorem withCore_newCap (s : State) (i : Nat) (x : Core) : (s.withCore i x).newCap = s.newCap := rfl
@[simp] theorem withCore_capStatus (s : State) (i : Nat) (x : Core) : (s.withCore i x).capStatus = s.capStatus := rfl
@[simp] theorem withCore_capRequest (s : State) (i : Nat) (x : Core) : (s.withCore i x).capRequest = s.capRequest := rfl
@[simp] theorem withCore_rackGrant (s : State) (i : Nat) (x : Core) : (s.withCore i x).rackGrant = s.rackGrant := rfl
@[simp] theorem withCore_grantCopy (s : State) (i : Nat) (x : Core) : (s.withCore i x).grantCopy = s.grantCopy := rfl
@[simp] theorem withCore_grantSeqs (s : State) (i : Nat) (x : Core) : (s.withCore i x).grantSeqs = s.grantSeqs := rfl
@[simp] theorem withCore_rackCap (s : State) (i : Nat) (x : Core) : (s.withCore i x).rackCap = s.rackCap := rfl
@[simp] theorem withCore_demands (s : State) (i : Nat) (x : Core) : (s.withCore i x).demands = s.demands := rfl
@[simp] theorem withCore_grantTime (s : State) (i : Nat) (x : Core) : (s.withCore i x).grantTime = s.grantTime := rfl
@[simp] theorem withCore_sentSeq (s : State) (i : Nat) (x : Core) : (s.withCore i x).sentSeq = s.sentSeq := rfl
@[simp] theorem withCore_injectStatus (s : State) (i : Nat) (x : Core) : (s.withCore i x).injectStatus = s.injectStatus := rfl
@[simp] theorem withCore_injection (s : State) (i : Nat) (x : Core) : (s.withCore i x).injection = s.injection := rfl
@[simp] theorem withCore_gates (s : State) (i : Nat) (x : Core) : (s.withCore i x).gates = s.gates := rfl
@[simp] theorem withCore_gateQueue (s : State) (i : Nat) (x : Core) : (s.withCore i x).gateQueue = s.gateQueue := rfl
@[simp] theorem withCore_gateTimes (s : State) (i : Nat) (x : Core) : (s.withCore i x).gateTimes = s.gateTimes := rfl
@[simp] theorem withCore_checkpointing (s : State) (i : Nat) (x : Core) : (s.withCore i x).checkpointing = s.checkpointing := rfl
@[simp] theorem withCore_meterJobs (s : State) (i : Nat) (x : Core) : (s.withCore i x).meterJobs = s.meterJobs := rfl
@[simp] theorem withCore_meterAsked (s : State) (i : Nat) (x : Core) : (s.withCore i x).meterAsked = s.meterAsked := rfl
@[simp] theorem withCore_resetAsked (s : State) (i : Nat) (x : Core) : (s.withCore i x).resetAsked = s.resetAsked := rfl
@[simp] theorem withCore_late (s : State) (i : Nat) (x : Core) : (s.withCore i x).late = s.late := rfl
@[simp] theorem withCore_closing (s : State) (i : Nat) (x : Core) : (s.withCore i x).closing = s.closing := rfl
@[simp] theorem withCore_again (s : State) (i : Nat) (x : Core) : (s.withCore i x).again = s.again := rfl
@[simp] theorem withCore_turnedAway (s : State) (i : Nat) (x : Core) : (s.withCore i x).turnedAway = s.turnedAway := rfl
@[simp] theorem withCore_focus (s : State) (i : Nat) (x : Core) : (s.withCore i x).focus = s.focus := rfl
@[simp] theorem withCore_agenda (s : State) (i : Nat) (x : Core) : (s.withCore i x).agenda = s.agenda := rfl
@[simp] theorem withCore_draws (s : State) (i : Nat) (x : Core) : (s.withCore i x).draws = s.draws := rfl
@[simp] theorem withCore_nextId (s : State) (i : Nat) (x : Core) : (s.withCore i x).nextId = s.nextId := rfl
@[simp] theorem withCore_rotor (s : State) (i : Nat) (x : Core) : (s.withCore i x).rotor = s.rotor := rfl

/-! ### withQuad -/

@[simp] theorem outcome_setQuad (i : Nat) (x : Quad) (s : State) :
    outcome (setQuad i x) s = (.ok ⟨⟩, s.withQuad i x) := rfl
@[simp] theorem withQuad_quads (s : State) (i : Nat) (x : Quad) : (s.withQuad i x).quads = put s.quads i x := rfl
@[simp] theorem withQuad_power (s : State) (i : Nat) (x : Quad) : (s.withQuad i x).power = s.power := rfl
@[simp] theorem withQuad_time (s : State) (i : Nat) (x : Quad) : (s.withQuad i x).time = s.time := rfl
@[simp] theorem withQuad_tick (s : State) (i : Nat) (x : Quad) : (s.withQuad i x).tick = s.tick := rfl
@[simp] theorem withQuad_tickTime (s : State) (i : Nat) (x : Quad) : (s.withQuad i x).tickTime = s.tickTime := rfl
@[simp] theorem withQuad_epoch (s : State) (i : Nat) (x : Quad) : (s.withQuad i x).epoch = s.epoch := rfl
@[simp] theorem withQuad_bootStatus (s : State) (i : Nat) (x : Quad) : (s.withQuad i x).bootStatus = s.bootStatus := rfl
@[simp] theorem withQuad_rollback (s : State) (i : Nat) (x : Quad) : (s.withQuad i x).rollback = s.rollback := rfl
@[simp] theorem withQuad_measurement (s : State) (i : Nat) (x : Quad) : (s.withQuad i x).measurement = s.measurement := rfl
@[simp] theorem withQuad_mem (s : State) (i : Nat) (x : Quad) : (s.withQuad i x).mem = s.mem := rfl
@[simp] theorem withQuad_blocksMeta (s : State) (i : Nat) (x : Quad) : (s.withQuad i x).blocksMeta = s.blocksMeta := rfl
@[simp] theorem withQuad_retiredPages (s : State) (i : Nat) (x : Quad) : (s.withQuad i x).retiredPages = s.retiredPages := rfl
@[simp] theorem withQuad_retiring (s : State) (i : Nat) (x : Quad) : (s.withQuad i x).retiring = s.retiring := rfl
@[simp] theorem withQuad_llc (s : State) (i : Nat) (x : Quad) : (s.withQuad i x).llc = s.llc := rfl
@[simp] theorem withQuad_dir (s : State) (i : Nat) (x : Quad) : (s.withQuad i x).dir = s.dir := rfl
@[simp] theorem withQuad_hostOwned (s : State) (i : Nat) (x : Quad) : (s.withQuad i x).hostOwned = s.hostOwned := rfl
@[simp] theorem withQuad_snoops (s : State) (i : Nat) (x : Quad) : (s.withQuad i x).snoops = s.snoops := rfl
@[simp] theorem withQuad_relOwner (s : State) (i : Nat) (x : Quad) : (s.withQuad i x).relOwner = s.relOwner := rfl
@[simp] theorem withQuad_hints (s : State) (i : Nat) (x : Quad) : (s.withQuad i x).hints = s.hints := rfl
@[simp] theorem withQuad_tlb (s : State) (i : Nat) (x : Quad) : (s.withQuad i x).tlb = s.tlb := rfl
@[simp] theorem withQuad_slices (s : State) (i : Nat) (x : Quad) : (s.withQuad i x).slices = s.slices := rfl
@[simp] theorem withQuad_keys (s : State) (i : Nat) (x : Quad) : (s.withQuad i x).keys = s.keys := rfl
@[simp] theorem withQuad_keyJobs (s : State) (i : Nat) (x : Quad) : (s.withQuad i x).keyJobs = s.keyJobs := rfl
@[simp] theorem withQuad_invals (s : State) (i : Nat) (x : Quad) : (s.withQuad i x).invals = s.invals := rfl
@[simp] theorem withQuad_cores (s : State) (i : Nat) (x : Quad) : (s.withQuad i x).cores = s.cores := rfl
@[simp] theorem withQuad_blocks (s : State) (i : Nat) (x : Quad) : (s.withQuad i x).blocks = s.blocks := rfl
@[simp] theorem withQuad_teams (s : State) (i : Nat) (x : Quad) : (s.withQuad i x).teams = s.teams := rfl
@[simp] theorem withQuad_launches (s : State) (i : Nat) (x : Quad) : (s.withQuad i x).launches = s.launches := rfl
@[simp] theorem withQuad_contexts (s : State) (i : Nat) (x : Quad) : (s.withQuad i x).contexts = s.contexts := rfl
@[simp] theorem withQuad_baseCharges (s : State) (i : Nat) (x : Quad) : (s.withQuad i x).baseCharges = s.baseCharges := rfl
@[simp] theorem withQuad_blockBase (s : State) (i : Nat) (x : Quad) : (s.withQuad i x).blockBase = s.blockBase := rfl
@[simp] theorem withQuad_working (s : State) (i : Nat) (x : Quad) : (s.withQuad i x).working = s.working := rfl
@[simp] theorem withQuad_baseHost (s : State) (i : Nat) (x : Quad) : (s.withQuad i x).baseHost = s.baseHost := rfl
@[simp] theorem withQuad_tickCopies (s : State) (i : Nat) (x : Quad) : (s.withQuad i x).tickCopies = s.tickCopies := rfl
@[simp] theorem withQuad_hostCopies (s : State) (i : Nat) (x : Quad) : (s.withQuad i x).hostCopies = s.hostCopies := rfl
@[simp] theorem withQuad_tickDue (s : State) (i : Nat) (x : Quad) : (s.withQuad i x).tickDue = s.tickDue := rfl
@[simp] theorem withQuad_sensors (s : State) (i : Nat) (x : Quad) : (s.withQuad i x).sensors = s.sensors := rfl
@[simp] theorem withQuad_worlds (s : State) (i : Nat) (x : Quad) : (s.withQuad i x).worlds = s.worlds := rfl
@[simp] theorem withQuad_fns (s : State) (i : Nat) (x : Quad) : (s.withQuad i x).fns = s.fns := rfl
@[simp] theorem withQuad_partitions (s : State) (i : Nat) (x : Quad) : (s.withQuad i x).partitions = s.partitions := rfl
@[simp] theorem withQuad_engines (s : State) (i : Nat) (x : Quad) : (s.withQuad i x).engines = s.engines := rfl
@[simp] theorem withQuad_copyTurn (s : State) (i : Nat) (x : Quad) : (s.withQuad i x).copyTurn = s.copyTurn := rfl
@[simp] theorem withQuad_ops (s : State) (i : Nat) (x : Quad) : (s.withQuad i x).ops = s.ops := rfl
@[simp] theorem withQuad_faults (s : State) (i : Nat) (x : Quad) : (s.withQuad i x).faults = s.faults := rfl
@[simp] theorem withQuad_endings (s : State) (i : Nat) (x : Quad) : (s.withQuad i x).endings = s.endings := rfl
@[simp] theorem withQuad_overhead (s : State) (i : Nat) (x : Quad) : (s.withQuad i x).overhead = s.overhead := rfl
@[simp] theorem withQuad_drawn (s : State) (i : Nat) (x : Quad) : (s.withQuad i x).drawn = s.drawn := rfl
@[simp] theorem withQuad_fw (s : State) (i : Nat) (x : Quad) : (s.withQuad i x).fw = s.fw := rfl
@[simp] theorem withQuad_recSeq (s : State) (i : Nat) (x : Quad) : (s.withQuad i x).recSeq = s.recSeq := rfl
@[simp] theorem withQuad_hostBox (s : State) (i : Nat) (x : Quad) : (s.withQuad i x).hostBox = s.hostBox := rfl
@[simp] theorem withQuad_ports (s : State) (i : Nat) (x : Quad) : (s.withQuad i x).ports = s.ports := rfl
@[simp] theorem withQuad_tags (s : State) (i : Nat) (x : Quad) : (s.withQuad i x).tags = s.tags := rfl
@[simp] theorem withQuad_peerWindows (s : State) (i : Nat) (x : Quad) : (s.withQuad i x).peerWindows = s.peerWindows := rfl
@[simp] theorem withQuad_cxlUp (s : State) (i : Nat) (x : Quad) : (s.withQuad i x).cxlUp = s.cxlUp := rfl
@[simp] theorem withQuad_cxlWidth (s : State) (i : Nat) (x : Quad) : (s.withQuad i x).cxlWidth = s.cxlWidth := rfl
@[simp] theorem withQuad_cxlSpeed (s : State) (i : Nat) (x : Quad) : (s.withQuad i x).cxlSpeed = s.cxlSpeed := rfl
@[simp] theorem withQuad_ideUp (s : State) (i : Nat) (x : Quad) : (s.withQuad i x).ideUp = s.ideUp := rfl
@[simp] theorem withQuad_stopped (s : State) (i : Nat) (x : Quad) : (s.withQuad i x).stopped = s.stopped := rfl
@[simp] theorem withQuad_flows (s : State) (i : Nat) (x : Quad) : (s.withQuad i x).flows = s.flows := rfl
@[simp] theorem withQuad_windows (s : State) (i : Nat) (x : Quad) : (s.withQuad i x).windows = s.windows := rfl
@[simp] theorem withQuad_tdispQueue (s : State) (i : Nat) (x : Quad) : (s.withQuad i x).tdispQueue = s.tdispQueue := rfl
@[simp] theorem withQuad_packageCap (s : State) (i : Nat) (x : Quad) : (s.withQuad i x).packageCap = s.packageCap := rfl
@[simp] theorem withQuad_newCap (s : State) (i : Nat) (x : Quad) : (s.withQuad i x).newCap = s.newCap := rfl
@[simp] theorem withQuad_capStatus (s : State) (i : Nat) (x : Quad) : (s.withQuad i x).capStatus = s.capStatus := rfl
@[simp] theorem withQuad_capRequest (s : State) (i : Nat) (x : Quad) : (s.withQuad i x).capRequest = s.capRequest := rfl
@[simp] theorem withQuad_rackGrant (s : State) (i : Nat) (x : Quad) : (s.withQuad i x).rackGrant = s.rackGrant := rfl
@[simp] theorem withQuad_grantCopy (s : State) (i : Nat) (x : Quad) : (s.withQuad i x).grantCopy = s.grantCopy := rfl
@[simp] theorem withQuad_grantSeqs (s : State) (i : Nat) (x : Quad) : (s.withQuad i x).grantSeqs = s.grantSeqs := rfl
@[simp] theorem withQuad_rackCap (s : State) (i : Nat) (x : Quad) : (s.withQuad i x).rackCap = s.rackCap := rfl
@[simp] theorem withQuad_demands (s : State) (i : Nat) (x : Quad) : (s.withQuad i x).demands = s.demands := rfl
@[simp] theorem withQuad_grantTime (s : State) (i : Nat) (x : Quad) : (s.withQuad i x).grantTime = s.grantTime := rfl
@[simp] theorem withQuad_sentSeq (s : State) (i : Nat) (x : Quad) : (s.withQuad i x).sentSeq = s.sentSeq := rfl
@[simp] theorem withQuad_injectStatus (s : State) (i : Nat) (x : Quad) : (s.withQuad i x).injectStatus = s.injectStatus := rfl
@[simp] theorem withQuad_injection (s : State) (i : Nat) (x : Quad) : (s.withQuad i x).injection = s.injection := rfl
@[simp] theorem withQuad_gates (s : State) (i : Nat) (x : Quad) : (s.withQuad i x).gates = s.gates := rfl
@[simp] theorem withQuad_gateQueue (s : State) (i : Nat) (x : Quad) : (s.withQuad i x).gateQueue = s.gateQueue := rfl
@[simp] theorem withQuad_gateTimes (s : State) (i : Nat) (x : Quad) : (s.withQuad i x).gateTimes = s.gateTimes := rfl
@[simp] theorem withQuad_checkpointing (s : State) (i : Nat) (x : Quad) : (s.withQuad i x).checkpointing = s.checkpointing := rfl
@[simp] theorem withQuad_meterJobs (s : State) (i : Nat) (x : Quad) : (s.withQuad i x).meterJobs = s.meterJobs := rfl
@[simp] theorem withQuad_meterAsked (s : State) (i : Nat) (x : Quad) : (s.withQuad i x).meterAsked = s.meterAsked := rfl
@[simp] theorem withQuad_resetAsked (s : State) (i : Nat) (x : Quad) : (s.withQuad i x).resetAsked = s.resetAsked := rfl
@[simp] theorem withQuad_late (s : State) (i : Nat) (x : Quad) : (s.withQuad i x).late = s.late := rfl
@[simp] theorem withQuad_closing (s : State) (i : Nat) (x : Quad) : (s.withQuad i x).closing = s.closing := rfl
@[simp] theorem withQuad_again (s : State) (i : Nat) (x : Quad) : (s.withQuad i x).again = s.again := rfl
@[simp] theorem withQuad_turnedAway (s : State) (i : Nat) (x : Quad) : (s.withQuad i x).turnedAway = s.turnedAway := rfl
@[simp] theorem withQuad_focus (s : State) (i : Nat) (x : Quad) : (s.withQuad i x).focus = s.focus := rfl
@[simp] theorem withQuad_agenda (s : State) (i : Nat) (x : Quad) : (s.withQuad i x).agenda = s.agenda := rfl
@[simp] theorem withQuad_draws (s : State) (i : Nat) (x : Quad) : (s.withQuad i x).draws = s.draws := rfl
@[simp] theorem withQuad_nextId (s : State) (i : Nat) (x : Quad) : (s.withQuad i x).nextId = s.nextId := rfl
@[simp] theorem withQuad_rotor (s : State) (i : Nat) (x : Quad) : (s.withQuad i x).rotor = s.rotor := rfl

/-! ### withLaunch -/

@[simp] theorem outcome_setLaunch (i : Nat) (x : Launch) (s : State) :
    outcome (setLaunch i x) s = (.ok ⟨⟩, s.withLaunch i x) := rfl
@[simp] theorem withLaunch_launches (s : State) (i : Nat) (x : Launch) : (s.withLaunch i x).launches = put s.launches i x := rfl
@[simp] theorem withLaunch_power (s : State) (i : Nat) (x : Launch) : (s.withLaunch i x).power = s.power := rfl
@[simp] theorem withLaunch_time (s : State) (i : Nat) (x : Launch) : (s.withLaunch i x).time = s.time := rfl
@[simp] theorem withLaunch_tick (s : State) (i : Nat) (x : Launch) : (s.withLaunch i x).tick = s.tick := rfl
@[simp] theorem withLaunch_tickTime (s : State) (i : Nat) (x : Launch) : (s.withLaunch i x).tickTime = s.tickTime := rfl
@[simp] theorem withLaunch_epoch (s : State) (i : Nat) (x : Launch) : (s.withLaunch i x).epoch = s.epoch := rfl
@[simp] theorem withLaunch_bootStatus (s : State) (i : Nat) (x : Launch) : (s.withLaunch i x).bootStatus = s.bootStatus := rfl
@[simp] theorem withLaunch_rollback (s : State) (i : Nat) (x : Launch) : (s.withLaunch i x).rollback = s.rollback := rfl
@[simp] theorem withLaunch_measurement (s : State) (i : Nat) (x : Launch) : (s.withLaunch i x).measurement = s.measurement := rfl
@[simp] theorem withLaunch_mem (s : State) (i : Nat) (x : Launch) : (s.withLaunch i x).mem = s.mem := rfl
@[simp] theorem withLaunch_blocksMeta (s : State) (i : Nat) (x : Launch) : (s.withLaunch i x).blocksMeta = s.blocksMeta := rfl
@[simp] theorem withLaunch_retiredPages (s : State) (i : Nat) (x : Launch) : (s.withLaunch i x).retiredPages = s.retiredPages := rfl
@[simp] theorem withLaunch_retiring (s : State) (i : Nat) (x : Launch) : (s.withLaunch i x).retiring = s.retiring := rfl
@[simp] theorem withLaunch_llc (s : State) (i : Nat) (x : Launch) : (s.withLaunch i x).llc = s.llc := rfl
@[simp] theorem withLaunch_dir (s : State) (i : Nat) (x : Launch) : (s.withLaunch i x).dir = s.dir := rfl
@[simp] theorem withLaunch_hostOwned (s : State) (i : Nat) (x : Launch) : (s.withLaunch i x).hostOwned = s.hostOwned := rfl
@[simp] theorem withLaunch_snoops (s : State) (i : Nat) (x : Launch) : (s.withLaunch i x).snoops = s.snoops := rfl
@[simp] theorem withLaunch_relOwner (s : State) (i : Nat) (x : Launch) : (s.withLaunch i x).relOwner = s.relOwner := rfl
@[simp] theorem withLaunch_hints (s : State) (i : Nat) (x : Launch) : (s.withLaunch i x).hints = s.hints := rfl
@[simp] theorem withLaunch_tlb (s : State) (i : Nat) (x : Launch) : (s.withLaunch i x).tlb = s.tlb := rfl
@[simp] theorem withLaunch_slices (s : State) (i : Nat) (x : Launch) : (s.withLaunch i x).slices = s.slices := rfl
@[simp] theorem withLaunch_keys (s : State) (i : Nat) (x : Launch) : (s.withLaunch i x).keys = s.keys := rfl
@[simp] theorem withLaunch_keyJobs (s : State) (i : Nat) (x : Launch) : (s.withLaunch i x).keyJobs = s.keyJobs := rfl
@[simp] theorem withLaunch_invals (s : State) (i : Nat) (x : Launch) : (s.withLaunch i x).invals = s.invals := rfl
@[simp] theorem withLaunch_cores (s : State) (i : Nat) (x : Launch) : (s.withLaunch i x).cores = s.cores := rfl
@[simp] theorem withLaunch_blocks (s : State) (i : Nat) (x : Launch) : (s.withLaunch i x).blocks = s.blocks := rfl
@[simp] theorem withLaunch_teams (s : State) (i : Nat) (x : Launch) : (s.withLaunch i x).teams = s.teams := rfl
@[simp] theorem withLaunch_contexts (s : State) (i : Nat) (x : Launch) : (s.withLaunch i x).contexts = s.contexts := rfl
@[simp] theorem withLaunch_baseCharges (s : State) (i : Nat) (x : Launch) : (s.withLaunch i x).baseCharges = s.baseCharges := rfl
@[simp] theorem withLaunch_blockBase (s : State) (i : Nat) (x : Launch) : (s.withLaunch i x).blockBase = s.blockBase := rfl
@[simp] theorem withLaunch_working (s : State) (i : Nat) (x : Launch) : (s.withLaunch i x).working = s.working := rfl
@[simp] theorem withLaunch_baseHost (s : State) (i : Nat) (x : Launch) : (s.withLaunch i x).baseHost = s.baseHost := rfl
@[simp] theorem withLaunch_tickCopies (s : State) (i : Nat) (x : Launch) : (s.withLaunch i x).tickCopies = s.tickCopies := rfl
@[simp] theorem withLaunch_hostCopies (s : State) (i : Nat) (x : Launch) : (s.withLaunch i x).hostCopies = s.hostCopies := rfl
@[simp] theorem withLaunch_tickDue (s : State) (i : Nat) (x : Launch) : (s.withLaunch i x).tickDue = s.tickDue := rfl
@[simp] theorem withLaunch_sensors (s : State) (i : Nat) (x : Launch) : (s.withLaunch i x).sensors = s.sensors := rfl
@[simp] theorem withLaunch_worlds (s : State) (i : Nat) (x : Launch) : (s.withLaunch i x).worlds = s.worlds := rfl
@[simp] theorem withLaunch_fns (s : State) (i : Nat) (x : Launch) : (s.withLaunch i x).fns = s.fns := rfl
@[simp] theorem withLaunch_partitions (s : State) (i : Nat) (x : Launch) : (s.withLaunch i x).partitions = s.partitions := rfl
@[simp] theorem withLaunch_quads (s : State) (i : Nat) (x : Launch) : (s.withLaunch i x).quads = s.quads := rfl
@[simp] theorem withLaunch_engines (s : State) (i : Nat) (x : Launch) : (s.withLaunch i x).engines = s.engines := rfl
@[simp] theorem withLaunch_copyTurn (s : State) (i : Nat) (x : Launch) : (s.withLaunch i x).copyTurn = s.copyTurn := rfl
@[simp] theorem withLaunch_ops (s : State) (i : Nat) (x : Launch) : (s.withLaunch i x).ops = s.ops := rfl
@[simp] theorem withLaunch_faults (s : State) (i : Nat) (x : Launch) : (s.withLaunch i x).faults = s.faults := rfl
@[simp] theorem withLaunch_endings (s : State) (i : Nat) (x : Launch) : (s.withLaunch i x).endings = s.endings := rfl
@[simp] theorem withLaunch_overhead (s : State) (i : Nat) (x : Launch) : (s.withLaunch i x).overhead = s.overhead := rfl
@[simp] theorem withLaunch_drawn (s : State) (i : Nat) (x : Launch) : (s.withLaunch i x).drawn = s.drawn := rfl
@[simp] theorem withLaunch_fw (s : State) (i : Nat) (x : Launch) : (s.withLaunch i x).fw = s.fw := rfl
@[simp] theorem withLaunch_recSeq (s : State) (i : Nat) (x : Launch) : (s.withLaunch i x).recSeq = s.recSeq := rfl
@[simp] theorem withLaunch_hostBox (s : State) (i : Nat) (x : Launch) : (s.withLaunch i x).hostBox = s.hostBox := rfl
@[simp] theorem withLaunch_ports (s : State) (i : Nat) (x : Launch) : (s.withLaunch i x).ports = s.ports := rfl
@[simp] theorem withLaunch_tags (s : State) (i : Nat) (x : Launch) : (s.withLaunch i x).tags = s.tags := rfl
@[simp] theorem withLaunch_peerWindows (s : State) (i : Nat) (x : Launch) : (s.withLaunch i x).peerWindows = s.peerWindows := rfl
@[simp] theorem withLaunch_cxlUp (s : State) (i : Nat) (x : Launch) : (s.withLaunch i x).cxlUp = s.cxlUp := rfl
@[simp] theorem withLaunch_cxlWidth (s : State) (i : Nat) (x : Launch) : (s.withLaunch i x).cxlWidth = s.cxlWidth := rfl
@[simp] theorem withLaunch_cxlSpeed (s : State) (i : Nat) (x : Launch) : (s.withLaunch i x).cxlSpeed = s.cxlSpeed := rfl
@[simp] theorem withLaunch_ideUp (s : State) (i : Nat) (x : Launch) : (s.withLaunch i x).ideUp = s.ideUp := rfl
@[simp] theorem withLaunch_stopped (s : State) (i : Nat) (x : Launch) : (s.withLaunch i x).stopped = s.stopped := rfl
@[simp] theorem withLaunch_flows (s : State) (i : Nat) (x : Launch) : (s.withLaunch i x).flows = s.flows := rfl
@[simp] theorem withLaunch_windows (s : State) (i : Nat) (x : Launch) : (s.withLaunch i x).windows = s.windows := rfl
@[simp] theorem withLaunch_tdispQueue (s : State) (i : Nat) (x : Launch) : (s.withLaunch i x).tdispQueue = s.tdispQueue := rfl
@[simp] theorem withLaunch_packageCap (s : State) (i : Nat) (x : Launch) : (s.withLaunch i x).packageCap = s.packageCap := rfl
@[simp] theorem withLaunch_newCap (s : State) (i : Nat) (x : Launch) : (s.withLaunch i x).newCap = s.newCap := rfl
@[simp] theorem withLaunch_capStatus (s : State) (i : Nat) (x : Launch) : (s.withLaunch i x).capStatus = s.capStatus := rfl
@[simp] theorem withLaunch_capRequest (s : State) (i : Nat) (x : Launch) : (s.withLaunch i x).capRequest = s.capRequest := rfl
@[simp] theorem withLaunch_rackGrant (s : State) (i : Nat) (x : Launch) : (s.withLaunch i x).rackGrant = s.rackGrant := rfl
@[simp] theorem withLaunch_grantCopy (s : State) (i : Nat) (x : Launch) : (s.withLaunch i x).grantCopy = s.grantCopy := rfl
@[simp] theorem withLaunch_grantSeqs (s : State) (i : Nat) (x : Launch) : (s.withLaunch i x).grantSeqs = s.grantSeqs := rfl
@[simp] theorem withLaunch_rackCap (s : State) (i : Nat) (x : Launch) : (s.withLaunch i x).rackCap = s.rackCap := rfl
@[simp] theorem withLaunch_demands (s : State) (i : Nat) (x : Launch) : (s.withLaunch i x).demands = s.demands := rfl
@[simp] theorem withLaunch_grantTime (s : State) (i : Nat) (x : Launch) : (s.withLaunch i x).grantTime = s.grantTime := rfl
@[simp] theorem withLaunch_sentSeq (s : State) (i : Nat) (x : Launch) : (s.withLaunch i x).sentSeq = s.sentSeq := rfl
@[simp] theorem withLaunch_injectStatus (s : State) (i : Nat) (x : Launch) : (s.withLaunch i x).injectStatus = s.injectStatus := rfl
@[simp] theorem withLaunch_injection (s : State) (i : Nat) (x : Launch) : (s.withLaunch i x).injection = s.injection := rfl
@[simp] theorem withLaunch_gates (s : State) (i : Nat) (x : Launch) : (s.withLaunch i x).gates = s.gates := rfl
@[simp] theorem withLaunch_gateQueue (s : State) (i : Nat) (x : Launch) : (s.withLaunch i x).gateQueue = s.gateQueue := rfl
@[simp] theorem withLaunch_gateTimes (s : State) (i : Nat) (x : Launch) : (s.withLaunch i x).gateTimes = s.gateTimes := rfl
@[simp] theorem withLaunch_checkpointing (s : State) (i : Nat) (x : Launch) : (s.withLaunch i x).checkpointing = s.checkpointing := rfl
@[simp] theorem withLaunch_meterJobs (s : State) (i : Nat) (x : Launch) : (s.withLaunch i x).meterJobs = s.meterJobs := rfl
@[simp] theorem withLaunch_meterAsked (s : State) (i : Nat) (x : Launch) : (s.withLaunch i x).meterAsked = s.meterAsked := rfl
@[simp] theorem withLaunch_resetAsked (s : State) (i : Nat) (x : Launch) : (s.withLaunch i x).resetAsked = s.resetAsked := rfl
@[simp] theorem withLaunch_late (s : State) (i : Nat) (x : Launch) : (s.withLaunch i x).late = s.late := rfl
@[simp] theorem withLaunch_closing (s : State) (i : Nat) (x : Launch) : (s.withLaunch i x).closing = s.closing := rfl
@[simp] theorem withLaunch_again (s : State) (i : Nat) (x : Launch) : (s.withLaunch i x).again = s.again := rfl
@[simp] theorem withLaunch_turnedAway (s : State) (i : Nat) (x : Launch) : (s.withLaunch i x).turnedAway = s.turnedAway := rfl
@[simp] theorem withLaunch_focus (s : State) (i : Nat) (x : Launch) : (s.withLaunch i x).focus = s.focus := rfl
@[simp] theorem withLaunch_agenda (s : State) (i : Nat) (x : Launch) : (s.withLaunch i x).agenda = s.agenda := rfl
@[simp] theorem withLaunch_draws (s : State) (i : Nat) (x : Launch) : (s.withLaunch i x).draws = s.draws := rfl
@[simp] theorem withLaunch_nextId (s : State) (i : Nat) (x : Launch) : (s.withLaunch i x).nextId = s.nextId := rfl
@[simp] theorem withLaunch_rotor (s : State) (i : Nat) (x : Launch) : (s.withLaunch i x).rotor = s.rotor := rfl

/-- The action that changes one entry of `launches`. -/
@[simp] theorem outcome_modLaunch (i : Nat) (f : Launch → Launch) (s : State) :
    outcome (modLaunch i f) s = (.ok ⟨⟩, { s with launches := adjust s.launches i f }) := by
  have h : outcome (modLaunch i f) s = outcome (match find? s.launches i with
      | some x => setLaunch i (f x)
      | none => pure ()) s := rfl
  rw [h]
  unfold adjust
  cases find? s.launches i <;> rfl

/-! ### withContext -/

@[simp] theorem outcome_setContext (i : Nat) (x : Context) (s : State) :
    outcome (setContext i x) s = (.ok ⟨⟩, s.withContext i x) := rfl
@[simp] theorem withContext_contexts (s : State) (i : Nat) (x : Context) : (s.withContext i x).contexts = put s.contexts i x := rfl
@[simp] theorem withContext_power (s : State) (i : Nat) (x : Context) : (s.withContext i x).power = s.power := rfl
@[simp] theorem withContext_time (s : State) (i : Nat) (x : Context) : (s.withContext i x).time = s.time := rfl
@[simp] theorem withContext_tick (s : State) (i : Nat) (x : Context) : (s.withContext i x).tick = s.tick := rfl
@[simp] theorem withContext_tickTime (s : State) (i : Nat) (x : Context) : (s.withContext i x).tickTime = s.tickTime := rfl
@[simp] theorem withContext_epoch (s : State) (i : Nat) (x : Context) : (s.withContext i x).epoch = s.epoch := rfl
@[simp] theorem withContext_bootStatus (s : State) (i : Nat) (x : Context) : (s.withContext i x).bootStatus = s.bootStatus := rfl
@[simp] theorem withContext_rollback (s : State) (i : Nat) (x : Context) : (s.withContext i x).rollback = s.rollback := rfl
@[simp] theorem withContext_measurement (s : State) (i : Nat) (x : Context) : (s.withContext i x).measurement = s.measurement := rfl
@[simp] theorem withContext_mem (s : State) (i : Nat) (x : Context) : (s.withContext i x).mem = s.mem := rfl
@[simp] theorem withContext_blocksMeta (s : State) (i : Nat) (x : Context) : (s.withContext i x).blocksMeta = s.blocksMeta := rfl
@[simp] theorem withContext_retiredPages (s : State) (i : Nat) (x : Context) : (s.withContext i x).retiredPages = s.retiredPages := rfl
@[simp] theorem withContext_retiring (s : State) (i : Nat) (x : Context) : (s.withContext i x).retiring = s.retiring := rfl
@[simp] theorem withContext_llc (s : State) (i : Nat) (x : Context) : (s.withContext i x).llc = s.llc := rfl
@[simp] theorem withContext_dir (s : State) (i : Nat) (x : Context) : (s.withContext i x).dir = s.dir := rfl
@[simp] theorem withContext_hostOwned (s : State) (i : Nat) (x : Context) : (s.withContext i x).hostOwned = s.hostOwned := rfl
@[simp] theorem withContext_snoops (s : State) (i : Nat) (x : Context) : (s.withContext i x).snoops = s.snoops := rfl
@[simp] theorem withContext_relOwner (s : State) (i : Nat) (x : Context) : (s.withContext i x).relOwner = s.relOwner := rfl
@[simp] theorem withContext_hints (s : State) (i : Nat) (x : Context) : (s.withContext i x).hints = s.hints := rfl
@[simp] theorem withContext_tlb (s : State) (i : Nat) (x : Context) : (s.withContext i x).tlb = s.tlb := rfl
@[simp] theorem withContext_slices (s : State) (i : Nat) (x : Context) : (s.withContext i x).slices = s.slices := rfl
@[simp] theorem withContext_keys (s : State) (i : Nat) (x : Context) : (s.withContext i x).keys = s.keys := rfl
@[simp] theorem withContext_keyJobs (s : State) (i : Nat) (x : Context) : (s.withContext i x).keyJobs = s.keyJobs := rfl
@[simp] theorem withContext_invals (s : State) (i : Nat) (x : Context) : (s.withContext i x).invals = s.invals := rfl
@[simp] theorem withContext_cores (s : State) (i : Nat) (x : Context) : (s.withContext i x).cores = s.cores := rfl
@[simp] theorem withContext_blocks (s : State) (i : Nat) (x : Context) : (s.withContext i x).blocks = s.blocks := rfl
@[simp] theorem withContext_teams (s : State) (i : Nat) (x : Context) : (s.withContext i x).teams = s.teams := rfl
@[simp] theorem withContext_launches (s : State) (i : Nat) (x : Context) : (s.withContext i x).launches = s.launches := rfl
@[simp] theorem withContext_baseCharges (s : State) (i : Nat) (x : Context) : (s.withContext i x).baseCharges = s.baseCharges := rfl
@[simp] theorem withContext_blockBase (s : State) (i : Nat) (x : Context) : (s.withContext i x).blockBase = s.blockBase := rfl
@[simp] theorem withContext_working (s : State) (i : Nat) (x : Context) : (s.withContext i x).working = s.working := rfl
@[simp] theorem withContext_baseHost (s : State) (i : Nat) (x : Context) : (s.withContext i x).baseHost = s.baseHost := rfl
@[simp] theorem withContext_tickCopies (s : State) (i : Nat) (x : Context) : (s.withContext i x).tickCopies = s.tickCopies := rfl
@[simp] theorem withContext_hostCopies (s : State) (i : Nat) (x : Context) : (s.withContext i x).hostCopies = s.hostCopies := rfl
@[simp] theorem withContext_tickDue (s : State) (i : Nat) (x : Context) : (s.withContext i x).tickDue = s.tickDue := rfl
@[simp] theorem withContext_sensors (s : State) (i : Nat) (x : Context) : (s.withContext i x).sensors = s.sensors := rfl
@[simp] theorem withContext_worlds (s : State) (i : Nat) (x : Context) : (s.withContext i x).worlds = s.worlds := rfl
@[simp] theorem withContext_fns (s : State) (i : Nat) (x : Context) : (s.withContext i x).fns = s.fns := rfl
@[simp] theorem withContext_partitions (s : State) (i : Nat) (x : Context) : (s.withContext i x).partitions = s.partitions := rfl
@[simp] theorem withContext_quads (s : State) (i : Nat) (x : Context) : (s.withContext i x).quads = s.quads := rfl
@[simp] theorem withContext_engines (s : State) (i : Nat) (x : Context) : (s.withContext i x).engines = s.engines := rfl
@[simp] theorem withContext_copyTurn (s : State) (i : Nat) (x : Context) : (s.withContext i x).copyTurn = s.copyTurn := rfl
@[simp] theorem withContext_ops (s : State) (i : Nat) (x : Context) : (s.withContext i x).ops = s.ops := rfl
@[simp] theorem withContext_faults (s : State) (i : Nat) (x : Context) : (s.withContext i x).faults = s.faults := rfl
@[simp] theorem withContext_endings (s : State) (i : Nat) (x : Context) : (s.withContext i x).endings = s.endings := rfl
@[simp] theorem withContext_overhead (s : State) (i : Nat) (x : Context) : (s.withContext i x).overhead = s.overhead := rfl
@[simp] theorem withContext_drawn (s : State) (i : Nat) (x : Context) : (s.withContext i x).drawn = s.drawn := rfl
@[simp] theorem withContext_fw (s : State) (i : Nat) (x : Context) : (s.withContext i x).fw = s.fw := rfl
@[simp] theorem withContext_recSeq (s : State) (i : Nat) (x : Context) : (s.withContext i x).recSeq = s.recSeq := rfl
@[simp] theorem withContext_hostBox (s : State) (i : Nat) (x : Context) : (s.withContext i x).hostBox = s.hostBox := rfl
@[simp] theorem withContext_ports (s : State) (i : Nat) (x : Context) : (s.withContext i x).ports = s.ports := rfl
@[simp] theorem withContext_tags (s : State) (i : Nat) (x : Context) : (s.withContext i x).tags = s.tags := rfl
@[simp] theorem withContext_peerWindows (s : State) (i : Nat) (x : Context) : (s.withContext i x).peerWindows = s.peerWindows := rfl
@[simp] theorem withContext_cxlUp (s : State) (i : Nat) (x : Context) : (s.withContext i x).cxlUp = s.cxlUp := rfl
@[simp] theorem withContext_cxlWidth (s : State) (i : Nat) (x : Context) : (s.withContext i x).cxlWidth = s.cxlWidth := rfl
@[simp] theorem withContext_cxlSpeed (s : State) (i : Nat) (x : Context) : (s.withContext i x).cxlSpeed = s.cxlSpeed := rfl
@[simp] theorem withContext_ideUp (s : State) (i : Nat) (x : Context) : (s.withContext i x).ideUp = s.ideUp := rfl
@[simp] theorem withContext_stopped (s : State) (i : Nat) (x : Context) : (s.withContext i x).stopped = s.stopped := rfl
@[simp] theorem withContext_flows (s : State) (i : Nat) (x : Context) : (s.withContext i x).flows = s.flows := rfl
@[simp] theorem withContext_windows (s : State) (i : Nat) (x : Context) : (s.withContext i x).windows = s.windows := rfl
@[simp] theorem withContext_tdispQueue (s : State) (i : Nat) (x : Context) : (s.withContext i x).tdispQueue = s.tdispQueue := rfl
@[simp] theorem withContext_packageCap (s : State) (i : Nat) (x : Context) : (s.withContext i x).packageCap = s.packageCap := rfl
@[simp] theorem withContext_newCap (s : State) (i : Nat) (x : Context) : (s.withContext i x).newCap = s.newCap := rfl
@[simp] theorem withContext_capStatus (s : State) (i : Nat) (x : Context) : (s.withContext i x).capStatus = s.capStatus := rfl
@[simp] theorem withContext_capRequest (s : State) (i : Nat) (x : Context) : (s.withContext i x).capRequest = s.capRequest := rfl
@[simp] theorem withContext_rackGrant (s : State) (i : Nat) (x : Context) : (s.withContext i x).rackGrant = s.rackGrant := rfl
@[simp] theorem withContext_grantCopy (s : State) (i : Nat) (x : Context) : (s.withContext i x).grantCopy = s.grantCopy := rfl
@[simp] theorem withContext_grantSeqs (s : State) (i : Nat) (x : Context) : (s.withContext i x).grantSeqs = s.grantSeqs := rfl
@[simp] theorem withContext_rackCap (s : State) (i : Nat) (x : Context) : (s.withContext i x).rackCap = s.rackCap := rfl
@[simp] theorem withContext_demands (s : State) (i : Nat) (x : Context) : (s.withContext i x).demands = s.demands := rfl
@[simp] theorem withContext_grantTime (s : State) (i : Nat) (x : Context) : (s.withContext i x).grantTime = s.grantTime := rfl
@[simp] theorem withContext_sentSeq (s : State) (i : Nat) (x : Context) : (s.withContext i x).sentSeq = s.sentSeq := rfl
@[simp] theorem withContext_injectStatus (s : State) (i : Nat) (x : Context) : (s.withContext i x).injectStatus = s.injectStatus := rfl
@[simp] theorem withContext_injection (s : State) (i : Nat) (x : Context) : (s.withContext i x).injection = s.injection := rfl
@[simp] theorem withContext_gates (s : State) (i : Nat) (x : Context) : (s.withContext i x).gates = s.gates := rfl
@[simp] theorem withContext_gateQueue (s : State) (i : Nat) (x : Context) : (s.withContext i x).gateQueue = s.gateQueue := rfl
@[simp] theorem withContext_gateTimes (s : State) (i : Nat) (x : Context) : (s.withContext i x).gateTimes = s.gateTimes := rfl
@[simp] theorem withContext_checkpointing (s : State) (i : Nat) (x : Context) : (s.withContext i x).checkpointing = s.checkpointing := rfl
@[simp] theorem withContext_meterJobs (s : State) (i : Nat) (x : Context) : (s.withContext i x).meterJobs = s.meterJobs := rfl
@[simp] theorem withContext_meterAsked (s : State) (i : Nat) (x : Context) : (s.withContext i x).meterAsked = s.meterAsked := rfl
@[simp] theorem withContext_resetAsked (s : State) (i : Nat) (x : Context) : (s.withContext i x).resetAsked = s.resetAsked := rfl
@[simp] theorem withContext_late (s : State) (i : Nat) (x : Context) : (s.withContext i x).late = s.late := rfl
@[simp] theorem withContext_closing (s : State) (i : Nat) (x : Context) : (s.withContext i x).closing = s.closing := rfl
@[simp] theorem withContext_again (s : State) (i : Nat) (x : Context) : (s.withContext i x).again = s.again := rfl
@[simp] theorem withContext_turnedAway (s : State) (i : Nat) (x : Context) : (s.withContext i x).turnedAway = s.turnedAway := rfl
@[simp] theorem withContext_focus (s : State) (i : Nat) (x : Context) : (s.withContext i x).focus = s.focus := rfl
@[simp] theorem withContext_agenda (s : State) (i : Nat) (x : Context) : (s.withContext i x).agenda = s.agenda := rfl
@[simp] theorem withContext_draws (s : State) (i : Nat) (x : Context) : (s.withContext i x).draws = s.draws := rfl
@[simp] theorem withContext_nextId (s : State) (i : Nat) (x : Context) : (s.withContext i x).nextId = s.nextId := rfl
@[simp] theorem withContext_rotor (s : State) (i : Nat) (x : Context) : (s.withContext i x).rotor = s.rotor := rfl

/-- The action that changes one core. -/
@[simp] theorem outcome_modCore (i : Nat) (f : Core → Core) (s : State) :
    outcome (modCore i f) s = (.ok ⟨⟩, s.withCore i (f (coreOf s i))) := rfl

/-- The action that changes one quadrant. -/
@[simp] theorem outcome_modQuad (i : Nat) (f : Quad → Quad) (s : State) :
    outcome (modQuad i f) s = (.ok ⟨⟩, s.withQuad i (f (quadOf s i))) := rfl

/-! ### The other tables -/

@[simp] theorem outcome_setSlice (i : Nat) (x : Slice) (s : State) :
    outcome (setSlice i x) s = (.ok ⟨⟩, s.withSlice i x) := rfl
@[simp] theorem outcome_modSlice (i : Nat) (f : Slice → Slice) (s : State) :
    outcome (modSlice i f) s = (.ok ⟨⟩, s.withSlice i (f (sliceState s i))) := rfl

@[simp] theorem outcome_setWorld (i : Nat) (x : World) (s : State) :
    outcome (setWorld i x) s = (.ok ⟨⟩, s.withWorld i x) := rfl
@[simp] theorem outcome_modWorld (i : Nat) (f : World → World) (s : State) :
    outcome (modWorld i f) s = (.ok ⟨⟩, s.withWorld i (f (worldOf s i))) := rfl

@[simp] theorem outcome_setFn (i : Nat) (x : Fn) (s : State) :
    outcome (setFn i x) s = (.ok ⟨⟩, s.withFn i x) := rfl
@[simp] theorem outcome_modFn (i : Nat) (f : Fn → Fn) (s : State) :
    outcome (modFn i f) s = (.ok ⟨⟩, s.withFn i (f (fnOf s i))) := rfl

@[simp] theorem outcome_setEngine (i : Nat) (x : Engine) (s : State) :
    outcome (setEngine i x) s = (.ok ⟨⟩, s.withEngine i x) := rfl

@[simp] theorem outcome_setKey (i : Nat) (x : KeySlot) (s : State) :
    outcome (setKey i x) s = (.ok ⟨⟩, s.withKey i x) := rfl

@[simp] theorem outcome_setPort (i : Nat) (x : Port) (s : State) :
    outcome (setPort i x) s = (.ok ⟨⟩, s.withPort i x) := rfl
@[simp] theorem outcome_modPort (i : Nat) (f : Port → Port) (s : State) :
    outcome (modPort i f) s = (.ok ⟨⟩, s.withPort i (f (portOf s i))) := rfl

@[simp] theorem outcome_setFirmware (i : Nat) (x : Firmware) (s : State) :
    outcome (setFirmware i x) s = (.ok ⟨⟩, s.withFirmware i x) := rfl
@[simp] theorem outcome_modFirmware (i : Nat) (f : Firmware → Firmware) (s : State) :
    outcome (modFirmware i f) s = (.ok ⟨⟩, s.withFirmware i (f (firmwareOf s i))) := rfl

@[simp] theorem outcome_setPartition (i : Nat) (x : Partition) (s : State) :
    outcome (setPartition i x) s = (.ok ⟨⟩, s.withPartition i x) := rfl
@[simp] theorem outcome_modPartition (i : Nat) (f : Partition → Partition) (s : State) :
    outcome (modPartition i f) s = (.ok ⟨⟩, { s with partitions := adjust s.partitions i f }) := by
  have h : outcome (modPartition i f) s = outcome (match find? s.partitions i with
      | some x => setPartition i (f x)
      | none => pure ()) s := rfl
  rw [h]
  unfold adjust
  cases find? s.partitions i <;> rfl

@[simp] theorem outcome_setOp (i : Nat) (x : EngineOp) (s : State) :
    outcome (setOp i x) s = (.ok ⟨⟩, s.withOp i x) := rfl
@[simp] theorem outcome_modOp (i : Nat) (f : EngineOp → EngineOp) (s : State) :
    outcome (modOp i f) s = (.ok ⟨⟩, { s with ops := adjust s.ops i f }) := by
  have h : outcome (modOp i f) s = outcome (match find? s.ops i with
      | some x => setOp i (f x)
      | none => pure ()) s := rfl
  rw [h]
  unfold adjust
  cases find? s.ops i <;> rfl

@[simp] theorem outcome_modContext (i : Nat) (f : Context → Context) (s : State) :
    outcome (modContext i f) s = (.ok ⟨⟩, s.withContext i (f (contextOf s i))) := rfl

end Sys2Proof.Machine
end

