-- ==== Sys2Proof/Laws/Charge.lean ====
section
/-! SUPPORT. What charging an instruction can change. -/
namespace Sys2Proof.Machine
open Sys2Proof

theorem ChargedOnly.refl (s : State) : ChargedOnly s s := ⟨rfl, fun _ => rfl, fun _ => rfl, fun _ => rfl, fun _ => rfl⟩

theorem ChargedOnly.trans {s t u : State} (h : ChargedOnly s t) (k : ChargedOnly t u) : ChargedOnly s u where
  rest := by rw [k.rest, h.rest]
  teams i := (k.teams i).trans (h.teams i)
  blocks i := (k.blocks i).trans (h.blocks i)
  cores i := (k.cores i).trans (h.cores i)
  quads i := (k.quads i).trans (h.quads i)

theorem coreOf_withCore (s : State) (i k : Nat) (x : Core) :
    coreOf (s.withCore i x) k = if k = i then x else coreOf s k := by
  simp only [coreOf, withCore_cores, find?_put]
  split <;> rfl

theorem quadOf_withQuad (s : State) (i k : Nat) (x : Quad) :
    quadOf (s.withQuad i x) k = if k = i then x else quadOf s k := by
  simp only [quadOf, withQuad_quads, find?_put]
  split <;> rfl

theorem chargedOnly_withCore (s : State) (i : Nat) (x : Core) (h : x.uncharged = (coreOf s i).uncharged) :
    ChargedOnly s (s.withCore i x) where
  rest := rfl
  teams _ := rfl
  blocks _ := rfl
  cores k := by
    rw [coreOf_withCore]
    split
    · next g => subst g; exact h
    · rfl
  quads _ := rfl

theorem chargedOnly_withQuad (s : State) (i : Nat) (x : Quad) (h : x.uncounted = (quadOf s i).uncounted) :
    ChargedOnly s (s.withQuad i x) where
  rest := rfl
  teams _ := rfl
  blocks _ := rfl
  cores _ := rfl
  quads k := by
    rw [quadOf_withQuad]
    split
    · next g => subst g; exact h
    · rfl

theorem chargedOnly_withTeam (s : State) (i : Nat) (x y : Team) (hy : find? s.teams i = some y)
    (h : x.unmarked = y.unmarked) : ChargedOnly s (s.withTeam i x) where
  rest := rfl
  teams k := by
    rw [withTeam_teams, find?_put]
    split
    · next g => subst g; rw [hy]; simp [h]
    · rfl
  blocks _ := rfl
  cores _ := rfl
  quads _ := rfl

theorem chargedOnly_withBlock (s : State) (i : Nat) (x y : Block) (hy : find? s.blocks i = some y)
    (h : x.unspent = y.unspent) : ChargedOnly s (s.withBlock i x) where
  rest := rfl
  teams _ := rfl
  blocks k := by
    rw [withBlock_blocks, find?_put]
    split
    · next g => subst g; rw [hy]; simp [h]
    · rfl
  cores _ := rfl
  quads _ := rfl

theorem chargedOnly_host (s : State) (t : Tbl Nat) : ChargedOnly s { s with baseHost := t } :=
  ⟨rfl, fun _ => rfl, fun _ => rfl, fun _ => rfl, fun _ => rfl⟩

/-- An action that completes and changes charges alone. -/
def ChargesOnly (m : Act Unit) : Prop := ∀ s, ∃ t, outcome m s = (.ok (), t) ∧ ChargedOnly s t

theorem ChargesOnly.pure : ChargesOnly (pure ()) := fun s => ⟨s, rfl, .refl s⟩

theorem ChargesOnly.bind {m k : Act Unit} (hm : ChargesOnly m) (hk : ChargesOnly k) : ChargesOnly (m >>= fun _ => k) := by
  intro s
  obtain ⟨t, h, g⟩ := hm s
  obtain ⟨u, h', g'⟩ := hk t
  exact ⟨u, by rw [outcome_bind_ok h, h'], g.trans g'⟩

theorem chargesOnly_addCharge (core ctx mq : Nat) : ChargesOnly (addCharge core ctx mq) := by
  intro s
  exact ⟨_, outcome_modCore _ _ _, chargedOnly_withCore _ _ _ rfl⟩

theorem chargesOnly_chargeHost (d mq : Nat) : ChargesOnly (chargeHost d mq) := by
  intro s
  exact ⟨_, outcome_modify _ _, chargedOnly_host _ _⟩

theorem chargesOnly_countPasses (core tid cls n : Nat) : ChargesOnly (countPasses core tid cls n) := by
  unfold countPasses
  split
  · intro s
    refine ⟨_, by rw [outcome_bind_ok (outcome_modQuad _ _ _), outcome_modCore], ?_⟩
    refine ChargedOnly.trans (chargedOnly_withQuad _ _ _ ?_) (chargedOnly_withCore _ _ _ ?_)
    · rfl
    · rfl
  · exact .pure

theorem chargesOnly_chargeEventsAs (who : Option Nat) (tid cls n : Nat) : ChargesOnly (chargeEventsAs who tid cls n) := by
  intro s
  unfold chargeEventsAs
  rw [outcome_bind_ok (outcome_get s)]
  cases ht : (find? s.teams tid).filter fun t => !t.retired with
  | none => exact ⟨s, rfl, .refl s⟩
  | some t =>
    have hs : find? s.teams tid = some t := by
      cases h : find? s.teams tid with
      | none => simp [h] at ht
      | some y => simp [h, Option.filter] at ht; simp [ht.2]
    cases hb : find? s.blocks t.bid with
    | none => exact ⟨s, by simp only [hb]; rfl, .refl s⟩
    | some b =>
      simp only [hb]
      split
      · obtain ⟨u, h, g⟩ := chargesOnly_chargeHost (quadOfCore b.core) (n * weightAt cls (chargePoint s (quadOfCore b.core))) s
        refine ⟨_, by rw [outcome_bind_ok h, outcome_setTeam], g.trans ?_⟩
        obtain ⟨y, hy, gy⟩ : ∃ y, find? u.teams tid = some y ∧ y.unmarked = t.unmarked := by
          have := g.teams tid
          rw [hs] at this
          simpa using this
        exact chargedOnly_withTeam _ _ _ _ hy (by rw [gy]; rfl)
      · obtain ⟨u, h, g⟩ := chargesOnly_addCharge b.core (who.getD (workContext t b)) (n * weightAt cls (chargePoint s (quadOfCore b.core))) s
        rw [outcome_bind_ok h, outcome_bind_ok (outcome_setBlock _ _ _), outcome_setTeam]
        refine ⟨_, rfl, g.trans ?_⟩
        obtain ⟨z, hz, gz⟩ : ∃ y, find? u.blocks t.bid = some y ∧ y.unspent = b.unspent := by
          have := g.blocks t.bid
          rw [hb] at this
          simpa using this
        have k := chargedOnly_withBlock u t.bid { b with spent := b.spent + n * weightAt cls (chargePoint s (quadOfCore b.core)) } z hz (by rw [gz]; rfl)
        refine k.trans ?_
        obtain ⟨y, hy, gy⟩ : ∃ y, find? u.teams tid = some y ∧ y.unmarked = t.unmarked := by
          have := g.teams tid
          rw [hs] at this
          simpa using this
        exact chargedOnly_withTeam _ _ _ y hy (by rw [gy]; rfl)

theorem chargesOnly_chargeEvents (tid cls n : Nat) : ChargesOnly (chargeEvents tid cls n) :=
  chargesOnly_chargeEventsAs none tid cls n

theorem chargesOnly_chargeTeamAs (who : Option Nat) (tid cls n : Nat) : ChargesOnly (chargeTeamAs who tid cls n) := by
  unfold chargeTeamAs
  refine (chargesOnly_chargeEventsAs who tid cls n).bind fun s => ?_
  rw [outcome_bind_ok (outcome_get s)]
  split
  · exact ChargesOnly.pure s
  · split
    · exact ChargesOnly.pure s
    · exact chargesOnly_countPasses _ _ _ _ s

theorem chargesOnly_chargeTeam (tid cls n : Nat) : ChargesOnly (chargeTeam tid cls n) :=
  chargesOnly_chargeTeamAs none tid cls n

theorem chargesOnly_chargeOf (c : Cx) (cls n : Nat) : ChargesOnly (chargeOf c cls n) :=
  chargesOnly_chargeTeamAs _ c.tid cls n

/-- Charging an instruction completes and changes charges alone. -/
theorem chargesOnly_chargeFor (c : Cx) (g : Sig) : ChargesOnly (chargeFor c g) := by
  unfold chargeFor
  split
  · split
    · exact .pure
    · dsimp only; split <;> exact chargesOnly_chargeOf _ _ _
    · split <;> exact chargesOnly_chargeOf _ _ _
  · exact chargesOnly_chargeOf _ _ _

end Sys2Proof.Machine
end

