-- ==== Sys2Proof/Laws/Memory.lean ====
section
/-! SUPPORT. Machine memory: a write is read back, leaves every other byte alone, and keeps the canonical form. -/
namespace Sys2Proof.Machine
open Sys2Proof

/-- The canonical form of memory is that of a sparse store. -/
theorem memory_wf_iff (m : Memory) : Memory.wf m ↔ canonical (n := 8) m := by
  simp [Memory.wf, storeWf, canonical]

/-- A write keeps the canonical form. -/
theorem wf_wr (m : Memory) (k : Nat) (b : BitVec 8) (h : Memory.wf m) : Memory.wf (wr m k b) :=
  (memory_wf_iff _).2 (canonical_wr m k b ((memory_wf_iff m).1 h))

theorem readMem_length (m : Memory) (ma n : Nat) : (readMem m ma n).length = n := by
  induction n generalizing ma with
  | zero => rfl
  | succ n ih => simp [readMem, ih]

/-- Storing bytes keeps the canonical form. -/
theorem writeMem_wf (m : Memory) (ma : Nat) (bs : List (BitVec 8)) (h : Memory.wf m) : Memory.wf (writeMem m ma bs) := by
  induction bs generalizing m ma with
  | nil => exact h
  | cons b bs ih => exact ih _ _ (wf_wr m ma b h)

theorem sorted_of_wf {m : Memory} (h : Memory.wf m) : sorted m = true := by
  simp only [Memory.wf, storeWf, Bool.and_eq_true] at h
  exact h.1

/-- A byte outside the bytes stored reads as it did. -/
theorem rd_writeMem_other (m : Memory) (ma j : Nat) (bs : List (BitVec 8)) (h : Memory.wf m)
    (g : j < ma ∨ ma + bs.length ≤ j) : rd (writeMem m ma bs) j = rd m j := by
  induction bs generalizing m ma with
  | nil => rfl
  | cons b bs ih =>
    simp only [List.length_cons] at g
    rw [writeMem, ih (wr m ma b) (ma + 1) (wf_wr m ma b h) (by omega), rd_wr m ma j b (sorted_of_wf h)]
    split
    · omega
    · rfl

/-- A byte stored reads back. -/
theorem rd_writeMem_self (m : Memory) (ma i : Nat) (bs : List (BitVec 8)) (h : Memory.wf m) (g : i < bs.length) :
    rd (writeMem m ma bs) (ma + i) = bs[i] := by
  induction bs generalizing m ma i with
  | nil => simp at g
  | cons b bs ih =>
    cases i with
    | zero =>
      rw [writeMem, rd_writeMem_other (wr m ma b) (ma + 1) (ma + 0) bs (wf_wr m ma b h) (by omega), rd_wr m ma (ma + 0) b (sorted_of_wf h)]
      simp
    | succ i =>
      have := ih (wr m ma b) (ma + 1) i (wf_wr m ma b h) (by simpa using g)
      simpa [writeMem, Nat.add_assoc, Nat.add_comm 1 i] using this

/-- Bytes stored read back. -/
theorem readMem_writeMem (m : Memory) (ma : Nat) (bs : List (BitVec 8)) (h : Memory.wf m) :
    readMem (writeMem m ma bs) ma bs.length = bs := by
  induction bs generalizing m ma with
  | nil => rfl
  | cons b bs ih =>
    have z := rd_writeMem_self m ma 0 (b :: bs) h (by simp)
    simp only [Nat.add_zero, List.getElem_cons_zero] at z
    simp only [List.length_cons, readMem, z]
    rw [writeMem, ih _ _ (wf_wr m ma b h)]

/-- What memory keeps of its canonical form when cells are left out. -/
theorem wf_filter (m : Memory) (p : Host.Cell → Bool) (h : Memory.wf m) : Memory.wf (m.filter p) := by
  induction m with
  | nil => exact h
  | cons e m ih =>
    obtain ⟨i, b⟩ := e
    simp only [Memory.wf, storeWf, Bool.and_eq_true, List.all_cons] at h
    have t : Memory.wf m := by
      simp only [Memory.wf, storeWf, Bool.and_eq_true]
      exact ⟨sorted_tail h.1, h.2.2⟩
    have r := ih t
    simp only [List.filter_cons]
    split
    · simp only [Memory.wf, storeWf, Bool.and_eq_true, List.all_cons] at r ⊢
      refine ⟨sorted_cons r.1 fun e he => ?_, h.2.1, r.2⟩
      exact sorted_head_lt h.1 e (List.mem_filter.mp he).1
    · exact r

/-- The action that stores bytes keeps the canonical form. -/
theorem outcome_putMem (ma : Nat) (bs : List (BitVec 8)) (s : State) :
    outcome (putMem ma bs) s = (.ok (), { s with mem := writeMem s.mem ma bs }) := rfl

theorem putMem_memInv (ma : Nat) (bs : List (BitVec 8)) (s : State) (h : MemInv s) :
    MemInv (outcome (putMem ma bs) s).2 := writeMem_wf s.mem ma bs h

/-- Memory at reset is in its canonical form. -/
theorem reset_memInv : MemInv State.reset := rfl

end Sys2Proof.Machine
end

