-- ==== Sys2Proof/Laws/PerInstr.lean ====
section
/-! SUPPORT. The encodings, instruction by instruction: decoding the word of an instruction gives the instruction
back. -/
namespace Sys2Proof

theorem Opnd.ofNat_toNat (o : Opnd) (h : o.wf = true) : Opnd.ofNat o.toNat = o := by
  cases o with
  | v n =>
    have b : n < 192 := by simpa [Opnd.wf] using h
    simp [Opnd.toNat, Opnd.ofNat, b]
  | s n =>
    have b : n < 48 := by simpa [Opnd.wf] using h
    simp only [Opnd.toNat, Opnd.ofNat, if_neg (show ¬ 192 + n < 192 by omega), if_pos (show 192 + n < 240 by omega),
      Nat.add_sub_cancel_left]
  | k n =>
    have b : n < 16 := by simpa [Opnd.wf] using h
    simp only [Opnd.toNat, Opnd.ofNat, if_neg (show ¬ 240 + n < 192 by omega), if_neg (show ¬ 240 + n < 240 by omega),
      Nat.add_sub_cancel_left]

theorem Opnd.toNat_lt (o : Opnd) (h : o.wf = true) : o.toNat < 256 := by
  cases o <;> simp [Opnd.wf] at h <;> simp [Opnd.toNat] <;> omega

theorem and_both {a b : Bool} (h : (a && b) = true) : a = true ∧ b = true := by
  cases a
  · exact absurd h (by simp)
  · exact ⟨rfl, h⟩

theorem bitOf_lt (b : Bool) : bitOf b < 2 := by cases b <;> decide

theorem decide_bitOf (b : Bool) : decide (bitOf b = 1) = b := by cases b <;> rfl

end Sys2Proof

namespace Sys2Proof.Laws.Encoding
open Sys2Proof
set_option Elab.async false

/-- An instruction whose fields fit their widths comes back from its own word: from the stream map when it is an
instruction of a stream, else from the team map (07 R189, R202-R204). -/
def Statement (i : Instr) : Prop :=
  i.fits = true → ∀ w, encode i = some w → w < 4294967296 ∧ (if i.isStream then decodeStream w else decodeTeam w) = .ok i

/-- The fields of a word of one format. -/
theorem fields_11_0 {w c hi lo x0 : Nat} (h : c + x0 = w) (k : c = (16 * hi + lo) * 16777216)
    (bh : hi < 16) (bl : lo < 16) (b0 : x0 < 4096) :
    w < 4294967296 ∧
    w / 268435456 = hi ∧
    w / 16777216 % 16 = lo ∧
    w / 16777216 = 16 * hi + lo ∧
    w % 4096 = x0 ∧
    w / 4096 % 4096 = 0 := by
  refine ⟨?_, ?_, ?_, ?_, ?_, ?_⟩ <;> omega

/-- The fields of a word of one format. -/
theorem fields_23_16_11_0 {w c hi lo x0 x1 : Nat} (h : c + x0 * 65536 + x1 = w) (k : c = (16 * hi + lo) * 16777216)
    (bh : hi < 16) (bl : lo < 16) (b0 : x0 < 256) (b1 : x1 < 4096) :
    w < 4294967296 ∧
    w / 268435456 = hi ∧
    w / 16777216 % 16 = lo ∧
    w / 16777216 = 16 * hi + lo ∧
    w / 65536 % 256 = x0 ∧
    w % 4096 = x1 ∧
    w / 4096 % 16 = 0 := by
  refine ⟨?_, ?_, ?_, ?_, ?_, ?_, ?_⟩ <;> omega

/-- The fields of a word of one format. -/
theorem fields_23_16_4_0 {w c hi lo x0 x1 : Nat} (h : c + x0 * 65536 + x1 = w) (k : c = (16 * hi + lo) * 16777216)
    (bh : hi < 16) (bl : lo < 16) (b0 : x0 < 256) (b1 : x1 < 32) :
    w < 4294967296 ∧
    w / 268435456 = hi ∧
    w / 16777216 % 16 = lo ∧
    w / 16777216 = 16 * hi + lo ∧
    w / 65536 % 256 = x0 ∧
    w % 32 = x1 ∧
    w / 32 % 2048 = 0 := by
  refine ⟨?_, ?_, ?_, ?_, ?_, ?_, ?_⟩ <;> omega

/-- The fields of a word of one format. -/
theorem fields_23_0 {w c hi lo x0 : Nat} (h : c + x0 = w) (k : c = (16 * hi + lo) * 16777216)
    (bh : hi < 16) (bl : lo < 16) (b0 : x0 < 16777216) :
    w < 4294967296 ∧
    w / 268435456 = hi ∧
    w / 16777216 % 16 = lo ∧
    w / 16777216 = 16 * hi + lo ∧
    w % 16777216 = x0 := by
  refine ⟨?_, ?_, ?_, ?_, ?_⟩ <;> omega

/-- The fields of a word of one format. -/
theorem fields_23_21_20_20_19_0 {w c hi lo x0 x1 x2 : Nat} (h : c + x0 * 2097152 + x1 * 1048576 + x2 = w) (k : c = (16 * hi + lo) * 16777216)
    (bh : hi < 16) (bl : lo < 16) (b0 : x0 < 8) (b1 : x1 < 2) (b2 : x2 < 1048576) :
    w < 4294967296 ∧
    w / 268435456 = hi ∧
    w / 16777216 % 16 = lo ∧
    w / 16777216 = 16 * hi + lo ∧
    w / 2097152 % 8 = x0 ∧
    w / 1048576 % 2 = x1 ∧
    w % 1048576 = x2 := by
  refine ⟨?_, ?_, ?_, ?_, ?_, ?_, ?_⟩ <;> omega

/-- The fields of a word of one format. -/
theorem fields_23_20_19_0 {w c hi lo x0 x1 : Nat} (h : c + x0 * 1048576 + x1 = w) (k : c = (16 * hi + lo) * 16777216)
    (bh : hi < 16) (bl : lo < 16) (b0 : x0 < 16) (b1 : x1 < 1048576) :
    w < 4294967296 ∧
    w / 268435456 = hi ∧
    w / 16777216 % 16 = lo ∧
    w / 16777216 = 16 * hi + lo ∧
    w / 1048576 % 16 = x0 ∧
    w % 1048576 = x1 := by
  refine ⟨?_, ?_, ?_, ?_, ?_, ?_⟩ <;> omega

/-- The fields of a word of one format. -/
theorem fields_15_8_3_0 {w c hi lo x0 x1 : Nat} (h : c + x0 * 256 + x1 = w) (k : c = (16 * hi + lo) * 16777216)
    (bh : hi < 16) (bl : lo < 16) (b0 : x0 < 256) (b1 : x1 < 16) :
    w < 4294967296 ∧
    w / 268435456 = hi ∧
    w / 16777216 % 16 = lo ∧
    w / 16777216 = 16 * hi + lo ∧
    w / 256 % 256 = x0 ∧
    w % 16 = x1 ∧
    w / 16 % 16 = 0 ∧
    w / 65536 % 256 = 0 := by
  refine ⟨?_, ?_, ?_, ?_, ?_, ?_, ?_, ?_⟩ <;> omega

/-- The fields of a word of one format. -/
theorem fields_15_8 {w c hi lo x0 : Nat} (h : c + x0 * 256 = w) (k : c = (16 * hi + lo) * 16777216)
    (bh : hi < 16) (bl : lo < 16) (b0 : x0 < 256) :
    w < 4294967296 ∧
    w / 268435456 = hi ∧
    w / 16777216 % 16 = lo ∧
    w / 16777216 = 16 * hi + lo ∧
    w / 256 % 256 = x0 ∧
    w % 256 = 0 ∧
    w / 65536 % 256 = 0 := by
  refine ⟨?_, ?_, ?_, ?_, ?_, ?_, ?_⟩ <;> omega

/-- The fields of a word of one format. -/
theorem fields_15_0 {w c hi lo x0 : Nat} (h : c + x0 = w) (k : c = (16 * hi + lo) * 16777216)
    (bh : hi < 16) (bl : lo < 16) (b0 : x0 < 65536) :
    w < 4294967296 ∧
    w / 268435456 = hi ∧
    w / 16777216 % 16 = lo ∧
    w / 16777216 = 16 * hi + lo ∧
    w % 65536 = x0 ∧
    w / 65536 % 256 = 0 := by
  refine ⟨?_, ?_, ?_, ?_, ?_, ?_⟩ <;> omega

/-- The fields of a word of one format. -/
theorem fields_23_16_15_8_7_0 {w c hi lo x0 x1 x2 : Nat} (h : c + x0 * 65536 + x1 * 256 + x2 = w) (k : c = (16 * hi + lo) * 16777216)
    (bh : hi < 16) (bl : lo < 16) (b0 : x0 < 256) (b1 : x1 < 256) (b2 : x2 < 256) :
    w < 4294967296 ∧
    w / 268435456 = hi ∧
    w / 16777216 % 16 = lo ∧
    w / 16777216 = 16 * hi + lo ∧
    w / 65536 % 256 = x0 ∧
    w / 256 % 256 = x1 ∧
    w % 256 = x2 := by
  refine ⟨?_, ?_, ?_, ?_, ?_, ?_, ?_⟩ <;> omega

/-- The fields of a word of one format. -/
theorem fields_23_16_15_0 {w c hi lo x0 x1 : Nat} (h : c + x0 * 65536 + x1 = w) (k : c = (16 * hi + lo) * 16777216)
    (bh : hi < 16) (bl : lo < 16) (b0 : x0 < 256) (b1 : x1 < 65536) :
    w < 4294967296 ∧
    w / 268435456 = hi ∧
    w / 16777216 % 16 = lo ∧
    w / 16777216 = 16 * hi + lo ∧
    w / 65536 % 256 = x0 ∧
    w % 65536 = x1 := by
  refine ⟨?_, ?_, ?_, ?_, ?_, ?_⟩ <;> omega

/-- The fields of a word of one format. -/
theorem fields_18_16_10_8_2_0 {w c hi lo x0 x1 x2 : Nat} (h : c + x0 * 65536 + x1 * 256 + x2 = w) (k : c = (16 * hi + lo) * 16777216)
    (bh : hi < 16) (bl : lo < 16) (b0 : x0 < 8) (b1 : x1 < 8) (b2 : x2 < 8) :
    w < 4294967296 ∧
    w / 268435456 = hi ∧
    w / 16777216 % 16 = lo ∧
    w / 16777216 = 16 * hi + lo ∧
    w / 65536 % 8 = x0 ∧
    w / 256 % 8 = x1 ∧
    w % 8 = x2 ∧
    w / 8 % 32 = 0 ∧
    w / 2048 % 32 = 0 ∧
    w / 524288 % 32 = 0 := by
  refine ⟨?_, ?_, ?_, ?_, ?_, ?_, ?_, ?_, ?_, ?_⟩ <;> omega

/-- The fields of a word of one format. -/
theorem fields_18_16_10_8 {w c hi lo x0 x1 : Nat} (h : c + x0 * 65536 + x1 * 256 = w) (k : c = (16 * hi + lo) * 16777216)
    (bh : hi < 16) (bl : lo < 16) (b0 : x0 < 8) (b1 : x1 < 8) :
    w < 4294967296 ∧
    w / 268435456 = hi ∧
    w / 16777216 % 16 = lo ∧
    w / 16777216 = 16 * hi + lo ∧
    w / 65536 % 8 = x0 ∧
    w / 256 % 8 = x1 ∧
    w % 256 = 0 ∧
    w / 2048 % 32 = 0 ∧
    w / 524288 % 32 = 0 := by
  refine ⟨?_, ?_, ?_, ?_, ?_, ?_, ?_, ?_, ?_⟩ <;> omega

/-- The fields of a word of one format. -/
theorem fields_23_16_10_8 {w c hi lo x0 x1 : Nat} (h : c + x0 * 65536 + x1 * 256 = w) (k : c = (16 * hi + lo) * 16777216)
    (bh : hi < 16) (bl : lo < 16) (b0 : x0 < 256) (b1 : x1 < 8) :
    w < 4294967296 ∧
    w / 268435456 = hi ∧
    w / 16777216 % 16 = lo ∧
    w / 16777216 = 16 * hi + lo ∧
    w / 65536 % 256 = x0 ∧
    w / 256 % 8 = x1 ∧
    w % 256 = 0 ∧
    w / 2048 % 32 = 0 := by
  refine ⟨?_, ?_, ?_, ?_, ?_, ?_, ?_, ?_⟩ <;> omega

/-- The fields of a word of one format. -/
theorem fields_18_16_15_8 {w c hi lo x0 x1 : Nat} (h : c + x0 * 65536 + x1 * 256 = w) (k : c = (16 * hi + lo) * 16777216)
    (bh : hi < 16) (bl : lo < 16) (b0 : x0 < 8) (b1 : x1 < 256) :
    w < 4294967296 ∧
    w / 268435456 = hi ∧
    w / 16777216 % 16 = lo ∧
    w / 16777216 = 16 * hi + lo ∧
    w / 65536 % 8 = x0 ∧
    w / 256 % 256 = x1 ∧
    w % 256 = 0 ∧
    w / 524288 % 32 = 0 := by
  refine ⟨?_, ?_, ?_, ?_, ?_, ?_, ?_, ?_⟩ <;> omega

/-- The fields of a word of one format. -/
theorem fields_23_16_15_8 {w c hi lo x0 x1 : Nat} (h : c + x0 * 65536 + x1 * 256 = w) (k : c = (16 * hi + lo) * 16777216)
    (bh : hi < 16) (bl : lo < 16) (b0 : x0 < 256) (b1 : x1 < 256) :
    w < 4294967296 ∧
    w / 268435456 = hi ∧
    w / 16777216 % 16 = lo ∧
    w / 16777216 = 16 * hi + lo ∧
    w / 65536 % 256 = x0 ∧
    w / 256 % 256 = x1 ∧
    w % 256 = 0 := by
  refine ⟨?_, ?_, ?_, ?_, ?_, ?_, ?_⟩ <;> omega

/-- The fields of a word of one format. -/
theorem fields_18_16_15_8_7_0 {w c hi lo x0 x1 x2 : Nat} (h : c + x0 * 65536 + x1 * 256 + x2 = w) (k : c = (16 * hi + lo) * 16777216)
    (bh : hi < 16) (bl : lo < 16) (b0 : x0 < 8) (b1 : x1 < 256) (b2 : x2 < 256) :
    w < 4294967296 ∧
    w / 268435456 = hi ∧
    w / 16777216 % 16 = lo ∧
    w / 16777216 = 16 * hi + lo ∧
    w / 65536 % 8 = x0 ∧
    w / 256 % 256 = x1 ∧
    w % 256 = x2 ∧
    w / 524288 % 32 = 0 := by
  refine ⟨?_, ?_, ?_, ?_, ?_, ?_, ?_, ?_⟩ <;> omega

/-- The fields of a word of one format. -/
theorem fields_23_16_3_3_2_0 {w c hi lo x0 x1 x2 : Nat} (h : c + x0 * 65536 + x1 * 8 + x2 = w) (k : c = (16 * hi + lo) * 16777216)
    (bh : hi < 16) (bl : lo < 16) (b0 : x0 < 256) (b1 : x1 < 2) (b2 : x2 < 8) :
    w < 4294967296 ∧
    w / 268435456 = hi ∧
    w / 16777216 % 16 = lo ∧
    w / 16777216 = 16 * hi + lo ∧
    w / 65536 % 256 = x0 ∧
    w / 8 % 2 = x1 ∧
    w % 8 = x2 ∧
    w / 16 % 4096 = 0 := by
  refine ⟨?_, ?_, ?_, ?_, ?_, ?_, ?_, ?_⟩ <;> omega

/-- The fields of a word of one format. -/
theorem fields_23_16_15_8_7_6_5_3_2_0 {w c hi lo x0 x1 x2 x3 x4 : Nat} (h : c + x0 * 65536 + x1 * 256 + x2 * 64 + x3 * 8 + x4 = w) (k : c = (16 * hi + lo) * 16777216)
    (bh : hi < 16) (bl : lo < 16) (b0 : x0 < 256) (b1 : x1 < 256) (b2 : x2 < 4) (b3 : x3 < 8) (b4 : x4 < 8) :
    w < 4294967296 ∧
    w / 268435456 = hi ∧
    w / 16777216 % 16 = lo ∧
    w / 16777216 = 16 * hi + lo ∧
    w / 65536 % 256 = x0 ∧
    w / 256 % 256 = x1 ∧
    w / 64 % 4 = x2 ∧
    w / 8 % 8 = x3 ∧
    w % 8 = x4 := by
  refine ⟨?_, ?_, ?_, ?_, ?_, ?_, ?_, ?_, ?_⟩ <;> omega

/-- The fields of a word of one format. -/
theorem fields_23_16_15_8_7_4 {w c hi lo x0 x1 x2 : Nat} (h : c + x0 * 65536 + x1 * 256 + x2 * 16 = w) (k : c = (16 * hi + lo) * 16777216)
    (bh : hi < 16) (bl : lo < 16) (b0 : x0 < 256) (b1 : x1 < 256) (b2 : x2 < 16) :
    w < 4294967296 ∧
    w / 268435456 = hi ∧
    w / 16777216 % 16 = lo ∧
    w / 16777216 = 16 * hi + lo ∧
    w / 65536 % 256 = x0 ∧
    w / 256 % 256 = x1 ∧
    w / 16 % 16 = x2 ∧
    w % 16 = 0 := by
  refine ⟨?_, ?_, ?_, ?_, ?_, ?_, ?_, ?_⟩ <;> omega

/-- The fields of a word of one format. -/
theorem fields_23_16_15_8_2_0 {w c hi lo x0 x1 x2 : Nat} (h : c + x0 * 65536 + x1 * 256 + x2 = w) (k : c = (16 * hi + lo) * 16777216)
    (bh : hi < 16) (bl : lo < 16) (b0 : x0 < 256) (b1 : x1 < 256) (b2 : x2 < 8) :
    w < 4294967296 ∧
    w / 268435456 = hi ∧
    w / 16777216 % 16 = lo ∧
    w / 16777216 = 16 * hi + lo ∧
    w / 65536 % 256 = x0 ∧
    w / 256 % 256 = x1 ∧
    w % 8 = x2 ∧
    w / 8 % 32 = 0 := by
  refine ⟨?_, ?_, ?_, ?_, ?_, ?_, ?_, ?_⟩ <;> omega

/-- The fields of a word of one format. -/
theorem fields_23_16_15_8_0_0 {w c hi lo x0 x1 x2 : Nat} (h : c + x0 * 65536 + x1 * 256 + x2 = w) (k : c = (16 * hi + lo) * 16777216)
    (bh : hi < 16) (bl : lo < 16) (b0 : x0 < 256) (b1 : x1 < 256) (b2 : x2 < 2) :
    w < 4294967296 ∧
    w / 268435456 = hi ∧
    w / 16777216 % 16 = lo ∧
    w / 16777216 = 16 * hi + lo ∧
    w / 65536 % 256 = x0 ∧
    w / 256 % 256 = x1 ∧
    w % 2 = x2 ∧
    w / 2 % 128 = 0 := by
  refine ⟨?_, ?_, ?_, ?_, ?_, ?_, ?_, ?_⟩ <;> omega

/-- The fields of a word of one format. -/
theorem fields_23_16_15_8_5_3_2_0 {w c hi lo x0 x1 x2 x3 : Nat} (h : c + x0 * 65536 + x1 * 256 + x2 * 8 + x3 = w) (k : c = (16 * hi + lo) * 16777216)
    (bh : hi < 16) (bl : lo < 16) (b0 : x0 < 256) (b1 : x1 < 256) (b2 : x2 < 8) (b3 : x3 < 8) :
    w < 4294967296 ∧
    w / 268435456 = hi ∧
    w / 16777216 % 16 = lo ∧
    w / 16777216 = 16 * hi + lo ∧
    w / 65536 % 256 = x0 ∧
    w / 256 % 256 = x1 ∧
    w / 8 % 8 = x2 ∧
    w % 8 = x3 ∧
    w / 64 % 4 = 0 := by
  refine ⟨?_, ?_, ?_, ?_, ?_, ?_, ?_, ?_, ?_⟩ <;> omega

/-- The fields of a word of one format. -/
theorem fields_23_16_15_8_3_0 {w c hi lo x0 x1 x2 : Nat} (h : c + x0 * 65536 + x1 * 256 + x2 = w) (k : c = (16 * hi + lo) * 16777216)
    (bh : hi < 16) (bl : lo < 16) (b0 : x0 < 256) (b1 : x1 < 256) (b2 : x2 < 16) :
    w < 4294967296 ∧
    w / 268435456 = hi ∧
    w / 16777216 % 16 = lo ∧
    w / 16777216 = 16 * hi + lo ∧
    w / 65536 % 256 = x0 ∧
    w / 256 % 256 = x1 ∧
    w % 16 = x2 ∧
    w / 16 % 16 = 0 := by
  refine ⟨?_, ?_, ?_, ?_, ?_, ?_, ?_, ?_⟩ <;> omega

/-- The fields of a word of one format. -/
theorem fields_23_16_15_8_3_3_2_0 {w c hi lo x0 x1 x2 x3 : Nat} (h : c + x0 * 65536 + x1 * 256 + x2 * 8 + x3 = w) (k : c = (16 * hi + lo) * 16777216)
    (bh : hi < 16) (bl : lo < 16) (b0 : x0 < 256) (b1 : x1 < 256) (b2 : x2 < 2) (b3 : x3 < 8) :
    w < 4294967296 ∧
    w / 268435456 = hi ∧
    w / 16777216 % 16 = lo ∧
    w / 16777216 = 16 * hi + lo ∧
    w / 65536 % 256 = x0 ∧
    w / 256 % 256 = x1 ∧
    w / 8 % 2 = x2 ∧
    w % 8 = x3 ∧
    w / 16 % 16 = 0 := by
  refine ⟨?_, ?_, ?_, ?_, ?_, ?_, ?_, ?_, ?_⟩ <;> omega

/-- The fields of a word of one format. -/
theorem fields_23_16_15_8_4_4_3_0 {w c hi lo x0 x1 x2 x3 : Nat} (h : c + x0 * 65536 + x1 * 256 + x2 * 16 + x3 = w) (k : c = (16 * hi + lo) * 16777216)
    (bh : hi < 16) (bl : lo < 16) (b0 : x0 < 256) (b1 : x1 < 256) (b2 : x2 < 2) (b3 : x3 < 16) :
    w < 4294967296 ∧
    w / 268435456 = hi ∧
    w / 16777216 % 16 = lo ∧
    w / 16777216 = 16 * hi + lo ∧
    w / 65536 % 256 = x0 ∧
    w / 256 % 256 = x1 ∧
    w / 16 % 2 = x2 ∧
    w % 16 = x3 ∧
    w / 32 % 8 = 0 := by
  refine ⟨?_, ?_, ?_, ?_, ?_, ?_, ?_, ?_, ?_⟩ <;> omega

/-- The fields of a word of one format. -/
theorem fields_23_16_15_8_7_4_2_2_1_0 {w c hi lo x0 x1 x2 x3 x4 : Nat} (h : c + x0 * 65536 + x1 * 256 + x2 * 16 + x3 * 4 + x4 = w) (k : c = (16 * hi + lo) * 16777216)
    (bh : hi < 16) (bl : lo < 16) (b0 : x0 < 256) (b1 : x1 < 256) (b2 : x2 < 16) (b3 : x3 < 2) (b4 : x4 < 4) :
    w < 4294967296 ∧
    w / 268435456 = hi ∧
    w / 16777216 % 16 = lo ∧
    w / 16777216 = 16 * hi + lo ∧
    w / 65536 % 256 = x0 ∧
    w / 256 % 256 = x1 ∧
    w / 16 % 16 = x2 ∧
    w / 4 % 2 = x3 ∧
    w % 4 = x4 ∧
    w / 8 % 2 = 0 := by
  refine ⟨?_, ?_, ?_, ?_, ?_, ?_, ?_, ?_, ?_, ?_⟩ <;> omega

/-- The fields of a word of one format. -/
theorem fields_17_16_15_8_7_0 {w c hi lo x0 x1 x2 : Nat} (h : c + x0 * 65536 + x1 * 256 + x2 = w) (k : c = (16 * hi + lo) * 16777216)
    (bh : hi < 16) (bl : lo < 16) (b0 : x0 < 4) (b1 : x1 < 256) (b2 : x2 < 256) :
    w < 4294967296 ∧
    w / 268435456 = hi ∧
    w / 16777216 % 16 = lo ∧
    w / 16777216 = 16 * hi + lo ∧
    w / 65536 % 4 = x0 ∧
    w / 256 % 256 = x1 ∧
    w % 256 = x2 ∧
    w / 262144 % 64 = 0 := by
  refine ⟨?_, ?_, ?_, ?_, ?_, ?_, ?_, ?_⟩ <;> omega

/-- The fields of a word of one format. -/
theorem fields_23_16_15_8_7_4_3_3_2_0 {w c hi lo x0 x1 x2 x3 x4 : Nat} (h : c + x0 * 65536 + x1 * 256 + x2 * 16 + x3 * 8 + x4 = w) (k : c = (16 * hi + lo) * 16777216)
    (bh : hi < 16) (bl : lo < 16) (b0 : x0 < 256) (b1 : x1 < 256) (b2 : x2 < 16) (b3 : x3 < 2) (b4 : x4 < 8) :
    w < 4294967296 ∧
    w / 268435456 = hi ∧
    w / 16777216 % 16 = lo ∧
    w / 16777216 = 16 * hi + lo ∧
    w / 65536 % 256 = x0 ∧
    w / 256 % 256 = x1 ∧
    w / 16 % 16 = x2 ∧
    w / 8 % 2 = x3 ∧
    w % 8 = x4 := by
  refine ⟨?_, ?_, ?_, ?_, ?_, ?_, ?_, ?_, ?_⟩ <;> omega

/-- The fields of a word of one format. -/
theorem fields_19_19_18_16_15_8_7_0 {w c hi lo x0 x1 x2 x3 : Nat} (h : c + x0 * 524288 + x1 * 65536 + x2 * 256 + x3 = w) (k : c = (16 * hi + lo) * 16777216)
    (bh : hi < 16) (bl : lo < 16) (b0 : x0 < 2) (b1 : x1 < 8) (b2 : x2 < 256) (b3 : x3 < 256) :
    w < 4294967296 ∧
    w / 268435456 = hi ∧
    w / 16777216 % 16 = lo ∧
    w / 16777216 = 16 * hi + lo ∧
    w / 524288 % 2 = x0 ∧
    w / 65536 % 8 = x1 ∧
    w / 256 % 256 = x2 ∧
    w % 256 = x3 ∧
    w / 1048576 % 16 = 0 := by
  refine ⟨?_, ?_, ?_, ?_, ?_, ?_, ?_, ?_, ?_⟩ <;> omega

/-- The fields of a word of one format. -/
theorem fields_17_16_15_8 {w c hi lo x0 x1 : Nat} (h : c + x0 * 65536 + x1 * 256 = w) (k : c = (16 * hi + lo) * 16777216)
    (bh : hi < 16) (bl : lo < 16) (b0 : x0 < 4) (b1 : x1 < 256) :
    w < 4294967296 ∧
    w / 268435456 = hi ∧
    w / 16777216 % 16 = lo ∧
    w / 16777216 = 16 * hi + lo ∧
    w / 65536 % 4 = x0 ∧
    w / 256 % 256 = x1 ∧
    w % 256 = 0 ∧
    w / 262144 % 64 = 0 := by
  refine ⟨?_, ?_, ?_, ?_, ?_, ?_, ?_, ?_⟩ <;> omega

/-- The fields of a word of one format. -/
theorem fields_4_2_1_0 {w c hi lo x0 x1 : Nat} (h : c + x0 * 4 + x1 = w) (k : c = (16 * hi + lo) * 16777216)
    (bh : hi < 16) (bl : lo < 16) (b0 : x0 < 8) (b1 : x1 < 4) :
    w < 4294967296 ∧
    w / 268435456 = hi ∧
    w / 16777216 % 16 = lo ∧
    w / 16777216 = 16 * hi + lo ∧
    w / 4 % 8 = x0 ∧
    w % 4 = x1 ∧
    w / 32 % 524288 = 0 := by
  refine ⟨?_, ?_, ?_, ?_, ?_, ?_, ?_⟩ <;> omega

/-- The fields of a word of one format. -/
theorem fields_18_16 {w c hi lo x0 : Nat} (h : c + x0 * 65536 = w) (k : c = (16 * hi + lo) * 16777216)
    (bh : hi < 16) (bl : lo < 16) (b0 : x0 < 8) :
    w < 4294967296 ∧
    w / 268435456 = hi ∧
    w / 16777216 % 16 = lo ∧
    w / 16777216 = 16 * hi + lo ∧
    w / 65536 % 8 = x0 ∧
    w % 65536 = 0 ∧
    w / 524288 % 32 = 0 := by
  refine ⟨?_, ?_, ?_, ?_, ?_, ?_, ?_⟩ <;> omega

/-- The fields of a word of one format. -/
theorem fields_3_0 {w c hi lo x0 : Nat} (h : c + x0 = w) (k : c = (16 * hi + lo) * 16777216)
    (bh : hi < 16) (bl : lo < 16) (b0 : x0 < 16) :
    w < 4294967296 ∧
    w / 268435456 = hi ∧
    w / 16777216 % 16 = lo ∧
    w / 16777216 = 16 * hi + lo ∧
    w % 16 = x0 ∧
    w / 16 % 1048576 = 0 := by
  refine ⟨?_, ?_, ?_, ?_, ?_, ?_⟩ <;> omega

/-- The fields of a word of one format. -/
theorem fields_20_19_18_16_15_8_7_0 {w c hi lo x0 x1 x2 x3 : Nat} (h : c + x0 * 524288 + x1 * 65536 + x2 * 256 + x3 = w) (k : c = (16 * hi + lo) * 16777216)
    (bh : hi < 16) (bl : lo < 16) (b0 : x0 < 4) (b1 : x1 < 8) (b2 : x2 < 256) (b3 : x3 < 256) :
    w < 4294967296 ∧
    w / 268435456 = hi ∧
    w / 16777216 % 16 = lo ∧
    w / 16777216 = 16 * hi + lo ∧
    w / 524288 % 4 = x0 ∧
    w / 65536 % 8 = x1 ∧
    w / 256 % 256 = x2 ∧
    w % 256 = x3 ∧
    w / 2097152 % 8 = 0 := by
  refine ⟨?_, ?_, ?_, ?_, ?_, ?_, ?_, ?_, ?_⟩ <;> omega

/-- The fields of a word of one format. -/
theorem fields_23_16 {w c hi lo x0 : Nat} (h : c + x0 * 65536 = w) (k : c = (16 * hi + lo) * 16777216)
    (bh : hi < 16) (bl : lo < 16) (b0 : x0 < 256) :
    w < 4294967296 ∧
    w / 268435456 = hi ∧
    w / 16777216 % 16 = lo ∧
    w / 16777216 = 16 * hi + lo ∧
    w / 65536 % 256 = x0 ∧
    w % 65536 = 0 := by
  refine ⟨?_, ?_, ?_, ?_, ?_, ?_⟩ <;> omega

/-- The fields of a word of one format. -/
theorem fields_15_8_7_0 {w c hi lo x0 x1 : Nat} (h : c + x0 * 256 + x1 = w) (k : c = (16 * hi + lo) * 16777216)
    (bh : hi < 16) (bl : lo < 16) (b0 : x0 < 256) (b1 : x1 < 256) :
    w < 4294967296 ∧
    w / 268435456 = hi ∧
    w / 16777216 % 16 = lo ∧
    w / 16777216 = 16 * hi + lo ∧
    w / 256 % 256 = x0 ∧
    w % 256 = x1 ∧
    w / 65536 % 256 = 0 := by
  refine ⟨?_, ?_, ?_, ?_, ?_, ?_, ?_⟩ <;> omega

/-- The fields of a word of one format. -/
theorem fields_23_16_2_0 {w c hi lo x0 x1 : Nat} (h : c + x0 * 65536 + x1 = w) (k : c = (16 * hi + lo) * 16777216)
    (bh : hi < 16) (bl : lo < 16) (b0 : x0 < 256) (b1 : x1 < 8) :
    w < 4294967296 ∧
    w / 268435456 = hi ∧
    w / 16777216 % 16 = lo ∧
    w / 16777216 = 16 * hi + lo ∧
    w / 65536 % 256 = x0 ∧
    w % 8 = x1 ∧
    w / 8 % 8192 = 0 := by
  refine ⟨?_, ?_, ?_, ?_, ?_, ?_, ?_⟩ <;> omega

/-- The fields of a word of one format. -/
theorem fields_23_16_1_0 {w c hi lo x0 x1 : Nat} (h : c + x0 * 65536 + x1 = w) (k : c = (16 * hi + lo) * 16777216)
    (bh : hi < 16) (bl : lo < 16) (b0 : x0 < 256) (b1 : x1 < 4) :
    w < 4294967296 ∧
    w / 268435456 = hi ∧
    w / 16777216 % 16 = lo ∧
    w / 16777216 = 16 * hi + lo ∧
    w / 65536 % 256 = x0 ∧
    w % 4 = x1 ∧
    w / 4 % 16384 = 0 := by
  refine ⟨?_, ?_, ?_, ?_, ?_, ?_, ?_⟩ <;> omega

/-- The fields of a word of one format. -/
theorem fields_23_16_3_0 {w c hi lo x0 x1 : Nat} (h : c + x0 * 65536 + x1 = w) (k : c = (16 * hi + lo) * 16777216)
    (bh : hi < 16) (bl : lo < 16) (b0 : x0 < 256) (b1 : x1 < 16) :
    w < 4294967296 ∧
    w / 268435456 = hi ∧
    w / 16777216 % 16 = lo ∧
    w / 16777216 = 16 * hi + lo ∧
    w / 65536 % 256 = x0 ∧
    w % 16 = x1 ∧
    w / 16 % 4096 = 0 := by
  refine ⟨?_, ?_, ?_, ?_, ?_, ?_, ?_⟩ <;> omega

/-- The fields of a word of one format. -/
theorem fields_23_16_0_0 {w c hi lo x0 x1 : Nat} (h : c + x0 * 65536 + x1 = w) (k : c = (16 * hi + lo) * 16777216)
    (bh : hi < 16) (bl : lo < 16) (b0 : x0 < 256) (b1 : x1 < 2) :
    w < 4294967296 ∧
    w / 268435456 = hi ∧
    w / 16777216 % 16 = lo ∧
    w / 16777216 = 16 * hi + lo ∧
    w / 65536 % 256 = x0 ∧
    w % 2 = x1 ∧
    w / 2 % 32768 = 0 := by
  refine ⟨?_, ?_, ?_, ?_, ?_, ?_, ?_⟩ <;> omega

/-- The fields of a word of one format. -/
theorem fields_23_16_14_12_11_8_7_0 {w c hi lo x0 x1 x2 x3 : Nat} (h : c + x0 * 65536 + x1 * 4096 + x2 * 256 + x3 = w) (k : c = (16 * hi + lo) * 16777216)
    (bh : hi < 16) (bl : lo < 16) (b0 : x0 < 256) (b1 : x1 < 8) (b2 : x2 < 16) (b3 : x3 < 256) :
    w < 4294967296 ∧
    w / 268435456 = hi ∧
    w / 16777216 % 16 = lo ∧
    w / 16777216 = 16 * hi + lo ∧
    w / 65536 % 256 = x0 ∧
    w / 4096 % 8 = x1 ∧
    w / 256 % 16 = x2 ∧
    w % 256 = x3 ∧
    w / 32768 % 2 = 0 := by
  refine ⟨?_, ?_, ?_, ?_, ?_, ?_, ?_, ?_, ?_⟩ <;> omega

/-- The fields of a word of one format. -/
theorem fields_23_16_5_0 {w c hi lo x0 x1 : Nat} (h : c + x0 * 65536 + x1 = w) (k : c = (16 * hi + lo) * 16777216)
    (bh : hi < 16) (bl : lo < 16) (b0 : x0 < 256) (b1 : x1 < 64) :
    w < 4294967296 ∧
    w / 268435456 = hi ∧
    w / 16777216 % 16 = lo ∧
    w / 16777216 = 16 * hi + lo ∧
    w / 65536 % 256 = x0 ∧
    w % 64 = x1 ∧
    w / 64 % 1024 = 0 := by
  refine ⟨?_, ?_, ?_, ?_, ?_, ?_, ?_⟩ <;> omega

/-- The fields of a word of one format. -/
theorem fields_23_16_7_0 {w c hi lo x0 x1 : Nat} (h : c + x0 * 65536 + x1 = w) (k : c = (16 * hi + lo) * 16777216)
    (bh : hi < 16) (bl : lo < 16) (b0 : x0 < 256) (b1 : x1 < 256) :
    w < 4294967296 ∧
    w / 268435456 = hi ∧
    w / 16777216 % 16 = lo ∧
    w / 16777216 = 16 * hi + lo ∧
    w / 65536 % 256 = x0 ∧
    w % 256 = x1 ∧
    w / 256 % 256 = 0 := by
  refine ⟨?_, ?_, ?_, ?_, ?_, ?_, ?_⟩ <;> omega

/-- The fields of a word of one format. -/
theorem fields_23_19_18_16_11_8_3_0 {w c hi lo x0 x1 x2 x3 : Nat} (h : c + x0 * 524288 + x1 * 65536 + x2 * 256 + x3 = w) (k : c = (16 * hi + lo) * 16777216)
    (bh : hi < 16) (bl : lo < 16) (b0 : x0 < 32) (b1 : x1 < 8) (b2 : x2 < 16) (b3 : x3 < 16) :
    w < 4294967296 ∧
    w / 268435456 = hi ∧
    w / 16777216 % 16 = lo ∧
    w / 16777216 = 16 * hi + lo ∧
    w / 524288 % 32 = x0 ∧
    w / 65536 % 8 = x1 ∧
    w / 256 % 16 = x2 ∧
    w % 16 = x3 ∧
    w / 16 % 16 = 0 ∧
    w / 4096 % 16 = 0 := by
  refine ⟨?_, ?_, ?_, ?_, ?_, ?_, ?_, ?_, ?_, ?_⟩ <;> omega

/-- The fields of a word of one format. -/
theorem fields_23_19_18_16_11_8 {w c hi lo x0 x1 x2 : Nat} (h : c + x0 * 524288 + x1 * 65536 + x2 * 256 = w) (k : c = (16 * hi + lo) * 16777216)
    (bh : hi < 16) (bl : lo < 16) (b0 : x0 < 32) (b1 : x1 < 8) (b2 : x2 < 16) :
    w < 4294967296 ∧
    w / 268435456 = hi ∧
    w / 16777216 % 16 = lo ∧
    w / 16777216 = 16 * hi + lo ∧
    w / 524288 % 32 = x0 ∧
    w / 65536 % 8 = x1 ∧
    w / 256 % 16 = x2 ∧
    w % 256 = 0 ∧
    w / 4096 % 16 = 0 := by
  refine ⟨?_, ?_, ?_, ?_, ?_, ?_, ?_, ?_, ?_⟩ <;> omega

/-- The fields of a word of one format. -/
theorem fields_23_19 {w c hi lo x0 : Nat} (h : c + x0 * 524288 = w) (k : c = (16 * hi + lo) * 16777216)
    (bh : hi < 16) (bl : lo < 16) (b0 : x0 < 32) :
    w < 4294967296 ∧
    w / 268435456 = hi ∧
    w / 16777216 % 16 = lo ∧
    w / 16777216 = 16 * hi + lo ∧
    w / 524288 % 32 = x0 ∧
    w % 524288 = 0 := by
  refine ⟨?_, ?_, ?_, ?_, ?_, ?_⟩ <;> omega

/-- The fields of a word of one format. -/
theorem fields_23_19_11_8 {w c hi lo x0 x1 : Nat} (h : c + x0 * 524288 + x1 * 256 = w) (k : c = (16 * hi + lo) * 16777216)
    (bh : hi < 16) (bl : lo < 16) (b0 : x0 < 32) (b1 : x1 < 16) :
    w < 4294967296 ∧
    w / 268435456 = hi ∧
    w / 16777216 % 16 = lo ∧
    w / 16777216 = 16 * hi + lo ∧
    w / 524288 % 32 = x0 ∧
    w / 256 % 16 = x1 ∧
    w % 256 = 0 ∧
    w / 4096 % 128 = 0 := by
  refine ⟨?_, ?_, ?_, ?_, ?_, ?_, ?_, ?_⟩ <;> omega

/-- The fields of a word of one format. -/
theorem fields_23_19_18_16_3_0 {w c hi lo x0 x1 x2 : Nat} (h : c + x0 * 524288 + x1 * 65536 + x2 = w) (k : c = (16 * hi + lo) * 16777216)
    (bh : hi < 16) (bl : lo < 16) (b0 : x0 < 32) (b1 : x1 < 8) (b2 : x2 < 16) :
    w < 4294967296 ∧
    w / 268435456 = hi ∧
    w / 16777216 % 16 = lo ∧
    w / 16777216 = 16 * hi + lo ∧
    w / 524288 % 32 = x0 ∧
    w / 65536 % 8 = x1 ∧
    w % 16 = x2 ∧
    w / 16 % 4096 = 0 := by
  refine ⟨?_, ?_, ?_, ?_, ?_, ?_, ?_, ?_⟩ <;> omega

/-- The fields of a word of one format. -/
theorem fields_23_16_6_5_4_4_3_0 {w c hi lo x0 x1 x2 x3 : Nat} (h : c + x0 * 65536 + x1 * 32 + x2 * 16 + x3 = w) (k : c = (16 * hi + lo) * 16777216)
    (bh : hi < 16) (bl : lo < 16) (b0 : x0 < 256) (b1 : x1 < 4) (b2 : x2 < 2) (b3 : x3 < 16) :
    w < 4294967296 ∧
    w / 268435456 = hi ∧
    w / 16777216 % 16 = lo ∧
    w / 16777216 = 16 * hi + lo ∧
    w / 65536 % 256 = x0 ∧
    w / 32 % 4 = x1 ∧
    w / 16 % 2 = x2 ∧
    w % 16 = x3 ∧
    w / 128 % 512 = 0 := by
  refine ⟨?_, ?_, ?_, ?_, ?_, ?_, ?_, ?_, ?_⟩ <;> omega

/-- The fields of a word of one format. -/
theorem fields_11_8 {w c hi lo x0 : Nat} (h : c + x0 * 256 = w) (k : c = (16 * hi + lo) * 16777216)
    (bh : hi < 16) (bl : lo < 16) (b0 : x0 < 16) :
    w < 4294967296 ∧
    w / 268435456 = hi ∧
    w / 16777216 % 16 = lo ∧
    w / 16777216 = 16 * hi + lo ∧
    w / 256 % 16 = x0 ∧
    w % 256 = 0 ∧
    w / 4096 % 4096 = 0 := by
  refine ⟨?_, ?_, ?_, ?_, ?_, ?_, ?_⟩ <;> omega

/-- The fields of a word of one format. -/
theorem fields_7_4_3_0 {w c hi lo x0 x1 : Nat} (h : c + x0 * 16 + x1 = w) (k : c = (16 * hi + lo) * 16777216)
    (bh : hi < 16) (bl : lo < 16) (b0 : x0 < 16) (b1 : x1 < 16) :
    w < 4294967296 ∧
    w / 268435456 = hi ∧
    w / 16777216 % 16 = lo ∧
    w / 16777216 = 16 * hi + lo ∧
    w / 16 % 16 = x0 ∧
    w % 16 = x1 ∧
    w / 256 % 65536 = 0 := by
  refine ⟨?_, ?_, ?_, ?_, ?_, ?_, ?_⟩ <;> omega

/-- Words of opcodes 0x00 to 0x0f. -/
theorem team_0 {w lo : Nat} (wh : w / 268435456 = 0) (wo : w / 16777216 % 16 = lo) : decodeTeam w = decodeTeam0 lo w := by
  simp only [decodeTeam, wh, wo]

/-- Words of opcodes 0x10 to 0x1f. -/
theorem team_1 {w lo : Nat} (wh : w / 268435456 = 1) (wo : w / 16777216 % 16 = lo) : decodeTeam w = decodeTeam1 lo w := by
  simp only [decodeTeam, wh, wo]

/-- Words of opcodes 0x20 to 0x2f. -/
theorem team_2 {w lo : Nat} (wh : w / 268435456 = 2) (wo : w / 16777216 % 16 = lo) : decodeTeam w = decodeTeam2 lo w := by
  simp only [decodeTeam, wh, wo]

/-- Words of opcodes 0x30 to 0x3f. -/
theorem team_3 {w lo : Nat} (wh : w / 268435456 = 3) (wo : w / 16777216 % 16 = lo) : decodeTeam w = decodeTeam3 lo w := by
  simp only [decodeTeam, wh, wo]

/-- Words of opcodes 0x40 to 0x4f. -/
theorem team_4 {w lo : Nat} (wh : w / 268435456 = 4) (wo : w / 16777216 % 16 = lo) : decodeTeam w = decodeTeam4 lo w := by
  simp only [decodeTeam, wh, wo]

/-- Words of opcodes 0x50 to 0x5f. -/
theorem team_5 {w lo : Nat} (wh : w / 268435456 = 5) (wo : w / 16777216 % 16 = lo) : decodeTeam w = decodeTeam5 lo w := by
  simp only [decodeTeam, wh, wo]

/-- Words of opcodes 0x60 to 0x6f. -/
theorem team_6 {w lo : Nat} (wh : w / 268435456 = 6) (wo : w / 16777216 % 16 = lo) : decodeTeam w = decodeTeam6 lo w := by
  simp only [decodeTeam, wh, wo]

/-- Words of opcodes 0x70 to 0x7f. -/
theorem team_7 {w lo : Nat} (wh : w / 268435456 = 7) (wo : w / 16777216 % 16 = lo) : decodeTeam w = decodeTeam7 lo w := by
  simp only [decodeTeam, wh, wo]

/-- Words of opcodes 0x80 to 0x8f. -/
theorem team_8 {w lo : Nat} (wh : w / 268435456 = 8) (wo : w / 16777216 % 16 = lo) : decodeTeam w = decodeTeam8 lo w := by
  simp only [decodeTeam, wh, wo]

/-- Words of opcodes 0x90 to 0x9f. -/
theorem team_9 {w lo : Nat} (wh : w / 268435456 = 9) (wo : w / 16777216 % 16 = lo) : decodeTeam w = decodeTeam9 lo w := by
  simp only [decodeTeam, wh, wo]

/-- Words of opcodes 0xa0 to 0xaf. -/
theorem team_a {w lo : Nat} (wh : w / 268435456 = 10) (wo : w / 16777216 % 16 = lo) : decodeTeam w = decodeTeamA lo w := by
  simp only [decodeTeam, wh, wo]

/-- Words of opcodes 0xb0 to 0xbf. -/
theorem team_b {w lo : Nat} (wh : w / 268435456 = 11) (wo : w / 16777216 % 16 = lo) : decodeTeam w = decodeTeamB lo w := by
  simp only [decodeTeam, wh, wo]

/-- Words of opcodes 0xc0 to 0xcf. -/
theorem team_c {w lo : Nat} (wh : w / 268435456 = 12) (wo : w / 16777216 % 16 = lo) : decodeTeam w = decodeTeamC lo w := by
  simp only [decodeTeam, wh, wo]

/-- Words of opcodes 0xd0 to 0xdf. -/
theorem team_d {w lo : Nat} (wh : w / 268435456 = 13) (wo : w / 16777216 % 16 = lo) : decodeTeam w = decodeTeamD lo w := by
  simp only [decodeTeam, wh, wo]

/-- Words of opcodes 0xe0 to 0xef. -/
theorem team_e {w lo : Nat} (wh : w / 268435456 = 14) (wo : w / 16777216 % 16 = lo) : decodeTeam w = decodeTeamE lo w := by
  simp only [decodeTeam, wh, wo]

/-- Words of opcodes 0xf0 to 0xff. -/
theorem team_f {w lo : Nat} (wh : w / 268435456 = 15) (wo : w / 16777216 % 16 = lo) : decodeTeam w = decodeTeamF lo w := by
  simp only [decodeTeam, wh, wo]

theorem nop : Statement .nop := by
  intro hf w hw
  have hw := Option.some.inj hw
  subst hw
  exact ⟨by decide, rfl⟩

theorem mode (imm : Nat) : Statement (.mode imm) := by
  intro hf w hw
  have hw := Option.some.inj hw
  obtain ⟨wl, wh, wo, ws, f0, f1⟩ := fields_11_0 (hi := 0) (lo := 1) hw rfl (by decide) (by decide) (of_decide_eq_true hf)
  refine ⟨wl, (team_0 wh wo).trans ?_⟩
  dsimp only [decodeTeam0]
  simp only [f0, f1, whenZero, decide_true, if_true]

theorem modet (d : Opnd) (imm : Nat) : Statement (.modet d imm) := by
  intro hf w hw
  obtain ⟨hf, h1⟩ := and_both hf
  have hw := Option.some.inj hw
  obtain ⟨wl, wh, wo, ws, f0, f1, f2⟩ := fields_23_16_11_0 (hi := 0) (lo := 2) hw rfl (by decide) (by decide) (Opnd.toNat_lt d hf) (of_decide_eq_true h1)
  refine ⟨wl, (team_0 wh wo).trans ?_⟩
  dsimp only [decodeTeam0]
  simp only [f0, f1, f2, Opnd.ofNat_toNat d hf, whenZero, decide_true, if_true]

theorem modeg (d : Opnd) (imm : Nat) : Statement (.modeg d imm) := by
  intro hf w hw
  obtain ⟨hf, h1⟩ := and_both hf
  have hw := Option.some.inj hw
  obtain ⟨wl, wh, wo, ws, f0, f1, f2⟩ := fields_23_16_4_0 (hi := 0) (lo := 3) hw rfl (by decide) (by decide) (Opnd.toNat_lt d hf) (of_decide_eq_true h1)
  refine ⟨wl, (team_0 wh wo).trans ?_⟩
  dsimp only [decodeTeam0]
  simp only [f0, f1, f2, Opnd.ofNat_toNat d hf, whenZero, decide_true, if_true]

theorem bra (off : Nat) : Statement (.bra off) := by
  intro hf w hw
  have hw := Option.some.inj hw
  obtain ⟨wl, wh, wo, ws, f0⟩ := fields_23_0 (hi := 0) (lo := 4) hw rfl (by decide) (by decide) (of_decide_eq_true hf)
  refine ⟨wl, (team_0 wh wo).trans ?_⟩
  dsimp only [decodeTeam0]
  simp only [f0]

theorem brz (m : Nat) (inv : Bool) (off : Nat) : Statement (.brz m inv off) := by
  intro hf w hw
  obtain ⟨hf, h1⟩ := and_both hf
  have hw := Option.some.inj hw
  obtain ⟨wl, wh, wo, ws, f0, f1, f2⟩ := fields_23_21_20_20_19_0 (hi := 0) (lo := 5) hw rfl (by decide) (by decide) (of_decide_eq_true hf) (bitOf_lt inv) (of_decide_eq_true h1)
  refine ⟨wl, (team_0 wh wo).trans ?_⟩
  dsimp only [decodeTeam0]
  simp only [f0, f1, f2, decide_bitOf inv]

theorem brnz (m : Nat) (inv : Bool) (off : Nat) : Statement (.brnz m inv off) := by
  intro hf w hw
  obtain ⟨hf, h1⟩ := and_both hf
  have hw := Option.some.inj hw
  obtain ⟨wl, wh, wo, ws, f0, f1, f2⟩ := fields_23_21_20_20_19_0 (hi := 0) (lo := 6) hw rfl (by decide) (by decide) (of_decide_eq_true hf) (bitOf_lt inv) (of_decide_eq_true h1)
  refine ⟨wl, (team_0 wh wo).trans ?_⟩
  dsimp only [decodeTeam0]
  simp only [f0, f1, f2, decide_bitOf inv]

theorem brd (m : Nat) (inv : Bool) (off : Nat) : Statement (.brd m inv off) := by
  intro hf w hw
  obtain ⟨hf, h1⟩ := and_both hf
  have hw := Option.some.inj hw
  obtain ⟨wl, wh, wo, ws, f0, f1, f2⟩ := fields_23_21_20_20_19_0 (hi := 0) (lo := 7) hw rfl (by decide) (by decide) (of_decide_eq_true hf) (bitOf_lt inv) (of_decide_eq_true h1)
  refine ⟨wl, (team_0 wh wo).trans ?_⟩
  dsimp only [decodeTeam0]
  simp only [f0, f1, f2, decide_bitOf inv]

theorem joinset (off : Nat) : Statement (.joinset off) := by
  intro hf w hw
  have hw := Option.some.inj hw
  obtain ⟨wl, wh, wo, ws, f0⟩ := fields_23_0 (hi := 0) (lo := 8) hw rfl (by decide) (by decide) (of_decide_eq_true hf)
  refine ⟨wl, (team_0 wh wo).trans ?_⟩
  dsimp only [decodeTeam0]
  simp only [f0]

theorem join : Statement .join := by
  intro hf w hw
  have hw := Option.some.inj hw
  subst hw
  exact ⟨by decide, rfl⟩

theorem call (frame : Nat) (off : Nat) : Statement (.call frame off) := by
  intro hf w hw
  obtain ⟨hf, h1⟩ := and_both hf
  have hw := Option.some.inj hw
  obtain ⟨wl, wh, wo, ws, f0, f1⟩ := fields_23_20_19_0 (hi := 0) (lo := 10) hw rfl (by decide) (by decide) (of_decide_eq_true hf) (of_decide_eq_true h1)
  refine ⟨wl, (team_0 wh wo).trans ?_⟩
  dsimp only [decodeTeam0]
  simp only [f0, f1]

theorem calli (a : Opnd) (frame : Nat) : Statement (.calli a frame) := by
  intro hf w hw
  obtain ⟨hf, h1⟩ := and_both hf
  have hw := Option.some.inj hw
  obtain ⟨wl, wh, wo, ws, f0, f1, f2, f3⟩ := fields_15_8_3_0 (hi := 0) (lo := 11) hw rfl (by decide) (by decide) (Opnd.toNat_lt a hf) (of_decide_eq_true h1)
  refine ⟨wl, (team_0 wh wo).trans ?_⟩
  dsimp only [decodeTeam0]
  simp only [f0, f1, f2, f3, Opnd.ofNat_toNat a hf, whenZero, decide_true, Bool.and_true, if_true]

theorem ret : Statement .ret := by
  intro hf w hw
  have hw := Option.some.inj hw
  subst hw
  exact ⟨by decide, rfl⟩

theorem jmpi (a : Opnd) : Statement (.jmpi a) := by
  intro hf w hw
  have hw := Option.some.inj hw
  obtain ⟨wl, wh, wo, ws, f0, f1, f2⟩ := fields_15_8 (hi := 0) (lo := 13) hw rfl (by decide) (by decide) (Opnd.toNat_lt a hf)
  refine ⟨wl, (team_0 wh wo).trans ?_⟩
  dsimp only [decodeTeam0]
  simp only [f0, f1, f2, Opnd.ofNat_toNat a hf, whenZero, decide_true, Bool.and_true, if_true]

theorem exit : Statement .exit := by
  intro hf w hw
  have hw := Option.some.inj hw
  subst hw
  exact ⟨by decide, rfl⟩

theorem demote : Statement .demote := by
  intro hf w hw
  have hw := Option.some.inj hw
  subst hw
  exact ⟨by decide, rfl⟩

theorem trap (imm : Nat) : Statement (.trap imm) := by
  intro hf w hw
  have hw := Option.some.inj hw
  obtain ⟨wl, wh, wo, ws, f0, f1⟩ := fields_15_0 (hi := 1) (lo := 0) hw rfl (by decide) (by decide) (of_decide_eq_true hf)
  refine ⟨wl, (team_1 wh wo).trans ?_⟩
  dsimp only [decodeTeam1]
  simp only [f0, f1, whenZero, decide_true, if_true]

theorem rft : Statement .rft := by
  intro hf w hw
  have hw := Option.some.inj hw
  subst hw
  exact ⟨by decide, rfl⟩

theorem yield : Statement .yield := by
  intro hf w hw
  have hw := Option.some.inj hw
  subst hw
  exact ⟨by decide, rfl⟩

theorem refill (d : Opnd) (a : Opnd) (b : Opnd) : Statement (.refill d a b) := by
  intro hf w hw
  obtain ⟨hf, h2⟩ := and_both hf
  obtain ⟨hf, h1⟩ := and_both hf
  have hw := Option.some.inj hw
  obtain ⟨wl, wh, wo, ws, f0, f1, f2⟩ := fields_23_16_15_8_7_0 (hi := 1) (lo := 3) hw rfl (by decide) (by decide) (Opnd.toNat_lt d hf) (Opnd.toNat_lt a h1) (Opnd.toNat_lt b h2)
  refine ⟨wl, (team_1 wh wo).trans ?_⟩
  dsimp only [decodeTeam1]
  simp only [f0, f1, f2, Opnd.ofNat_toNat d hf, Opnd.ofNat_toNat a h1, Opnd.ofNat_toNat b h2]

theorem loop (d : Opnd) (imm : Nat) : Statement (.loop d imm) := by
  intro hf w hw
  obtain ⟨hf, h1⟩ := and_both hf
  have hw := Option.some.inj hw
  obtain ⟨wl, wh, wo, ws, f0, f1⟩ := fields_23_16_15_0 (hi := 1) (lo := 4) hw rfl (by decide) (by decide) (Opnd.toNat_lt d hf) (of_decide_eq_true h1)
  refine ⟨wl, (team_1 wh wo).trans ?_⟩
  dsimp only [decodeTeam1]
  simp only [f0, f1, Opnd.ofNat_toNat d hf]

theorem endl : Statement .endl := by
  intro hf w hw
  have hw := Option.some.inj hw
  subst hw
  exact ⟨by decide, rfl⟩

theorem mand (d : Nat) (a : Nat) (b : Nat) : Statement (.mand d a b) := by
  intro hf w hw
  obtain ⟨hf, h2⟩ := and_both hf
  obtain ⟨hf, h1⟩ := and_both hf
  have hw := Option.some.inj hw
  obtain ⟨wl, wh, wo, ws, f0, f1, f2, f3, f4, f5⟩ := fields_18_16_10_8_2_0 (hi := 1) (lo := 8) hw rfl (by decide) (by decide) (of_decide_eq_true hf) (of_decide_eq_true h1) (of_decide_eq_true h2)
  refine ⟨wl, (team_1 wh wo).trans ?_⟩
  dsimp only [decodeTeam1]
  simp only [f0, f1, f2, f3, f4, f5, whenZero, decide_true, Bool.and_true, if_true]

theorem mor (d : Nat) (a : Nat) (b : Nat) : Statement (.mor d a b) := by
  intro hf w hw
  obtain ⟨hf, h2⟩ := and_both hf
  obtain ⟨hf, h1⟩ := and_both hf
  have hw := Option.some.inj hw
  obtain ⟨wl, wh, wo, ws, f0, f1, f2, f3, f4, f5⟩ := fields_18_16_10_8_2_0 (hi := 1) (lo := 9) hw rfl (by decide) (by decide) (of_decide_eq_true hf) (of_decide_eq_true h1) (of_decide_eq_true h2)
  refine ⟨wl, (team_1 wh wo).trans ?_⟩
  dsimp only [decodeTeam1]
  simp only [f0, f1, f2, f3, f4, f5, whenZero, decide_true, Bool.and_true, if_true]

theorem mxor (d : Nat) (a : Nat) (b : Nat) : Statement (.mxor d a b) := by
  intro hf w hw
  obtain ⟨hf, h2⟩ := and_both hf
  obtain ⟨hf, h1⟩ := and_both hf
  have hw := Option.some.inj hw
  obtain ⟨wl, wh, wo, ws, f0, f1, f2, f3, f4, f5⟩ := fields_18_16_10_8_2_0 (hi := 1) (lo := 10) hw rfl (by decide) (by decide) (of_decide_eq_true hf) (of_decide_eq_true h1) (of_decide_eq_true h2)
  refine ⟨wl, (team_1 wh wo).trans ?_⟩
  dsimp only [decodeTeam1]
  simp only [f0, f1, f2, f3, f4, f5, whenZero, decide_true, Bool.and_true, if_true]

theorem mnot (d : Nat) (a : Nat) : Statement (.mnot d a) := by
  intro hf w hw
  obtain ⟨hf, h1⟩ := and_both hf
  have hw := Option.some.inj hw
  obtain ⟨wl, wh, wo, ws, f0, f1, f2, f3, f4⟩ := fields_18_16_10_8 (hi := 1) (lo := 11) hw rfl (by decide) (by decide) (of_decide_eq_true hf) (of_decide_eq_true h1)
  refine ⟨wl, (team_1 wh wo).trans ?_⟩
  dsimp only [decodeTeam1]
  simp only [f0, f1, f2, f3, f4, whenZero, decide_true, Bool.and_true, if_true]

theorem mcnt (d : Opnd) (a : Nat) : Statement (.mcnt d a) := by
  intro hf w hw
  obtain ⟨hf, h1⟩ := and_both hf
  have hw := Option.some.inj hw
  obtain ⟨wl, wh, wo, ws, f0, f1, f2, f3⟩ := fields_23_16_10_8 (hi := 1) (lo := 12) hw rfl (by decide) (by decide) (Opnd.toNat_lt d hf) (of_decide_eq_true h1)
  refine ⟨wl, (team_1 wh wo).trans ?_⟩
  dsimp only [decodeTeam1]
  simp only [f0, f1, f2, f3, Opnd.ofNat_toNat d hf, whenZero, decide_true, Bool.and_true, if_true]

theorem mfirst (d : Opnd) (a : Nat) : Statement (.mfirst d a) := by
  intro hf w hw
  obtain ⟨hf, h1⟩ := and_both hf
  have hw := Option.some.inj hw
  obtain ⟨wl, wh, wo, ws, f0, f1, f2, f3⟩ := fields_23_16_10_8 (hi := 1) (lo := 13) hw rfl (by decide) (by decide) (Opnd.toNat_lt d hf) (of_decide_eq_true h1)
  refine ⟨wl, (team_1 wh wo).trans ?_⟩
  dsimp only [decodeTeam1]
  simp only [f0, f1, f2, f3, Opnd.ofNat_toNat d hf, whenZero, decide_true, Bool.and_true, if_true]

theorem mset (d : Nat) (a : Opnd) : Statement (.mset d a) := by
  intro hf w hw
  obtain ⟨hf, h1⟩ := and_both hf
  have hw := Option.some.inj hw
  obtain ⟨wl, wh, wo, ws, f0, f1, f2, f3⟩ := fields_18_16_15_8 (hi := 1) (lo := 14) hw rfl (by decide) (by decide) (of_decide_eq_true hf) (Opnd.toNat_lt a h1)
  refine ⟨wl, (team_1 wh wo).trans ?_⟩
  dsimp only [decodeTeam1]
  simp only [f0, f1, f2, f3, Opnd.ofNat_toNat a h1, whenZero, decide_true, Bool.and_true, if_true]

theorem mmov (d : Nat) (a : Nat) : Statement (.mmov d a) := by
  intro hf w hw
  obtain ⟨hf, h1⟩ := and_both hf
  have hw := Option.some.inj hw
  obtain ⟨wl, wh, wo, ws, f0, f1, f2, f3, f4⟩ := fields_18_16_10_8 (hi := 1) (lo := 15) hw rfl (by decide) (by decide) (of_decide_eq_true hf) (of_decide_eq_true h1)
  refine ⟨wl, (team_1 wh wo).trans ?_⟩
  dsimp only [decodeTeam1]
  simp only [f0, f1, f2, f3, f4, whenZero, decide_true, Bool.and_true, if_true]

theorem add (d : Opnd) (a : Opnd) (b : Opnd) : Statement (.add d a b) := by
  intro hf w hw
  obtain ⟨hf, h2⟩ := and_both hf
  obtain ⟨hf, h1⟩ := and_both hf
  have hw := Option.some.inj hw
  obtain ⟨wl, wh, wo, ws, f0, f1, f2⟩ := fields_23_16_15_8_7_0 (hi := 2) (lo := 0) hw rfl (by decide) (by decide) (Opnd.toNat_lt d hf) (Opnd.toNat_lt a h1) (Opnd.toNat_lt b h2)
  refine ⟨wl, (team_2 wh wo).trans ?_⟩
  dsimp only [decodeTeam2]
  simp only [f0, f1, f2, Opnd.ofNat_toNat d hf, Opnd.ofNat_toNat a h1, Opnd.ofNat_toNat b h2]

theorem sub (d : Opnd) (a : Opnd) (b : Opnd) : Statement (.sub d a b) := by
  intro hf w hw
  obtain ⟨hf, h2⟩ := and_both hf
  obtain ⟨hf, h1⟩ := and_both hf
  have hw := Option.some.inj hw
  obtain ⟨wl, wh, wo, ws, f0, f1, f2⟩ := fields_23_16_15_8_7_0 (hi := 2) (lo := 1) hw rfl (by decide) (by decide) (Opnd.toNat_lt d hf) (Opnd.toNat_lt a h1) (Opnd.toNat_lt b h2)
  refine ⟨wl, (team_2 wh wo).trans ?_⟩
  dsimp only [decodeTeam2]
  simp only [f0, f1, f2, Opnd.ofNat_toNat d hf, Opnd.ofNat_toNat a h1, Opnd.ofNat_toNat b h2]

theorem addi (d : Opnd) (a : Opnd) (imm : Nat) : Statement (.addi d a imm) := by
  intro hf w hw
  obtain ⟨hf, h2⟩ := and_both hf
  obtain ⟨hf, h1⟩ := and_both hf
  have hw := Option.some.inj hw
  obtain ⟨wl, wh, wo, ws, f0, f1, f2⟩ := fields_23_16_15_8_7_0 (hi := 2) (lo := 2) hw rfl (by decide) (by decide) (Opnd.toNat_lt d hf) (Opnd.toNat_lt a h1) (of_decide_eq_true h2)
  refine ⟨wl, (team_2 wh wo).trans ?_⟩
  dsimp only [decodeTeam2]
  simp only [f0, f1, f2, Opnd.ofNat_toNat d hf, Opnd.ofNat_toNat a h1]

theorem mul (d : Opnd) (a : Opnd) (b : Opnd) : Statement (.mul d a b) := by
  intro hf w hw
  obtain ⟨hf, h2⟩ := and_both hf
  obtain ⟨hf, h1⟩ := and_both hf
  have hw := Option.some.inj hw
  obtain ⟨wl, wh, wo, ws, f0, f1, f2⟩ := fields_23_16_15_8_7_0 (hi := 2) (lo := 3) hw rfl (by decide) (by decide) (Opnd.toNat_lt d hf) (Opnd.toNat_lt a h1) (Opnd.toNat_lt b h2)
  refine ⟨wl, (team_2 wh wo).trans ?_⟩
  dsimp only [decodeTeam2]
  simp only [f0, f1, f2, Opnd.ofNat_toNat d hf, Opnd.ofNat_toNat a h1, Opnd.ofNat_toNat b h2]

theorem mulh (d : Opnd) (a : Opnd) (b : Opnd) : Statement (.mulh d a b) := by
  intro hf w hw
  obtain ⟨hf, h2⟩ := and_both hf
  obtain ⟨hf, h1⟩ := and_both hf
  have hw := Option.some.inj hw
  obtain ⟨wl, wh, wo, ws, f0, f1, f2⟩ := fields_23_16_15_8_7_0 (hi := 2) (lo := 4) hw rfl (by decide) (by decide) (Opnd.toNat_lt d hf) (Opnd.toNat_lt a h1) (Opnd.toNat_lt b h2)
  refine ⟨wl, (team_2 wh wo).trans ?_⟩
  dsimp only [decodeTeam2]
  simp only [f0, f1, f2, Opnd.ofNat_toNat d hf, Opnd.ofNat_toNat a h1, Opnd.ofNat_toNat b h2]

theorem mad (d : Opnd) (a : Opnd) (b : Opnd) : Statement (.mad d a b) := by
  intro hf w hw
  obtain ⟨hf, h2⟩ := and_both hf
  obtain ⟨hf, h1⟩ := and_both hf
  have hw := Option.some.inj hw
  obtain ⟨wl, wh, wo, ws, f0, f1, f2⟩ := fields_23_16_15_8_7_0 (hi := 2) (lo := 5) hw rfl (by decide) (by decide) (Opnd.toNat_lt d hf) (Opnd.toNat_lt a h1) (Opnd.toNat_lt b h2)
  refine ⟨wl, (team_2 wh wo).trans ?_⟩
  dsimp only [decodeTeam2]
  simp only [f0, f1, f2, Opnd.ofNat_toNat d hf, Opnd.ofNat_toNat a h1, Opnd.ofNat_toNat b h2]

theorem div (d : Opnd) (a : Opnd) (b : Opnd) : Statement (.div d a b) := by
  intro hf w hw
  obtain ⟨hf, h2⟩ := and_both hf
  obtain ⟨hf, h1⟩ := and_both hf
  have hw := Option.some.inj hw
  obtain ⟨wl, wh, wo, ws, f0, f1, f2⟩ := fields_23_16_15_8_7_0 (hi := 2) (lo := 6) hw rfl (by decide) (by decide) (Opnd.toNat_lt d hf) (Opnd.toNat_lt a h1) (Opnd.toNat_lt b h2)
  refine ⟨wl, (team_2 wh wo).trans ?_⟩
  dsimp only [decodeTeam2]
  simp only [f0, f1, f2, Opnd.ofNat_toNat d hf, Opnd.ofNat_toNat a h1, Opnd.ofNat_toNat b h2]

theorem rem (d : Opnd) (a : Opnd) (b : Opnd) : Statement (.rem d a b) := by
  intro hf w hw
  obtain ⟨hf, h2⟩ := and_both hf
  obtain ⟨hf, h1⟩ := and_both hf
  have hw := Option.some.inj hw
  obtain ⟨wl, wh, wo, ws, f0, f1, f2⟩ := fields_23_16_15_8_7_0 (hi := 2) (lo := 7) hw rfl (by decide) (by decide) (Opnd.toNat_lt d hf) (Opnd.toNat_lt a h1) (Opnd.toNat_lt b h2)
  refine ⟨wl, (team_2 wh wo).trans ?_⟩
  dsimp only [decodeTeam2]
  simp only [f0, f1, f2, Opnd.ofNat_toNat d hf, Opnd.ofNat_toNat a h1, Opnd.ofNat_toNat b h2]

theorem min (d : Opnd) (a : Opnd) (b : Opnd) : Statement (.min d a b) := by
  intro hf w hw
  obtain ⟨hf, h2⟩ := and_both hf
  obtain ⟨hf, h1⟩ := and_both hf
  have hw := Option.some.inj hw
  obtain ⟨wl, wh, wo, ws, f0, f1, f2⟩ := fields_23_16_15_8_7_0 (hi := 2) (lo := 8) hw rfl (by decide) (by decide) (Opnd.toNat_lt d hf) (Opnd.toNat_lt a h1) (Opnd.toNat_lt b h2)
  refine ⟨wl, (team_2 wh wo).trans ?_⟩
  dsimp only [decodeTeam2]
  simp only [f0, f1, f2, Opnd.ofNat_toNat d hf, Opnd.ofNat_toNat a h1, Opnd.ofNat_toNat b h2]

theorem max (d : Opnd) (a : Opnd) (b : Opnd) : Statement (.max d a b) := by
  intro hf w hw
  obtain ⟨hf, h2⟩ := and_both hf
  obtain ⟨hf, h1⟩ := and_both hf
  have hw := Option.some.inj hw
  obtain ⟨wl, wh, wo, ws, f0, f1, f2⟩ := fields_23_16_15_8_7_0 (hi := 2) (lo := 9) hw rfl (by decide) (by decide) (Opnd.toNat_lt d hf) (Opnd.toNat_lt a h1) (Opnd.toNat_lt b h2)
  refine ⟨wl, (team_2 wh wo).trans ?_⟩
  dsimp only [decodeTeam2]
  simp only [f0, f1, f2, Opnd.ofNat_toNat d hf, Opnd.ofNat_toNat a h1, Opnd.ofNat_toNat b h2]

theorem abs (d : Opnd) (a : Opnd) : Statement (.abs d a) := by
  intro hf w hw
  obtain ⟨hf, h1⟩ := and_both hf
  have hw := Option.some.inj hw
  obtain ⟨wl, wh, wo, ws, f0, f1, f2⟩ := fields_23_16_15_8 (hi := 2) (lo := 10) hw rfl (by decide) (by decide) (Opnd.toNat_lt d hf) (Opnd.toNat_lt a h1)
  refine ⟨wl, (team_2 wh wo).trans ?_⟩
  dsimp only [decodeTeam2]
  simp only [f0, f1, f2, Opnd.ofNat_toNat d hf, Opnd.ofNat_toNat a h1, whenZero, decide_true, if_true]

theorem neg (d : Opnd) (a : Opnd) : Statement (.neg d a) := by
  intro hf w hw
  obtain ⟨hf, h1⟩ := and_both hf
  have hw := Option.some.inj hw
  obtain ⟨wl, wh, wo, ws, f0, f1, f2⟩ := fields_23_16_15_8 (hi := 2) (lo := 11) hw rfl (by decide) (by decide) (Opnd.toNat_lt d hf) (Opnd.toNat_lt a h1)
  refine ⟨wl, (team_2 wh wo).trans ?_⟩
  dsimp only [decodeTeam2]
  simp only [f0, f1, f2, Opnd.ofNat_toNat d hf, Opnd.ofNat_toNat a h1, whenZero, decide_true, if_true]

theorem and (d : Opnd) (a : Opnd) (b : Opnd) : Statement (.and d a b) := by
  intro hf w hw
  obtain ⟨hf, h2⟩ := and_both hf
  obtain ⟨hf, h1⟩ := and_both hf
  have hw := Option.some.inj hw
  obtain ⟨wl, wh, wo, ws, f0, f1, f2⟩ := fields_23_16_15_8_7_0 (hi := 2) (lo := 12) hw rfl (by decide) (by decide) (Opnd.toNat_lt d hf) (Opnd.toNat_lt a h1) (Opnd.toNat_lt b h2)
  refine ⟨wl, (team_2 wh wo).trans ?_⟩
  dsimp only [decodeTeam2]
  simp only [f0, f1, f2, Opnd.ofNat_toNat d hf, Opnd.ofNat_toNat a h1, Opnd.ofNat_toNat b h2]

theorem or (d : Opnd) (a : Opnd) (b : Opnd) : Statement (.or d a b) := by
  intro hf w hw
  obtain ⟨hf, h2⟩ := and_both hf
  obtain ⟨hf, h1⟩ := and_both hf
  have hw := Option.some.inj hw
  obtain ⟨wl, wh, wo, ws, f0, f1, f2⟩ := fields_23_16_15_8_7_0 (hi := 2) (lo := 13) hw rfl (by decide) (by decide) (Opnd.toNat_lt d hf) (Opnd.toNat_lt a h1) (Opnd.toNat_lt b h2)
  refine ⟨wl, (team_2 wh wo).trans ?_⟩
  dsimp only [decodeTeam2]
  simp only [f0, f1, f2, Opnd.ofNat_toNat d hf, Opnd.ofNat_toNat a h1, Opnd.ofNat_toNat b h2]

theorem xor (d : Opnd) (a : Opnd) (b : Opnd) : Statement (.xor d a b) := by
  intro hf w hw
  obtain ⟨hf, h2⟩ := and_both hf
  obtain ⟨hf, h1⟩ := and_both hf
  have hw := Option.some.inj hw
  obtain ⟨wl, wh, wo, ws, f0, f1, f2⟩ := fields_23_16_15_8_7_0 (hi := 2) (lo := 14) hw rfl (by decide) (by decide) (Opnd.toNat_lt d hf) (Opnd.toNat_lt a h1) (Opnd.toNat_lt b h2)
  refine ⟨wl, (team_2 wh wo).trans ?_⟩
  dsimp only [decodeTeam2]
  simp only [f0, f1, f2, Opnd.ofNat_toNat d hf, Opnd.ofNat_toNat a h1, Opnd.ofNat_toNat b h2]

theorem not (d : Opnd) (a : Opnd) : Statement (.not d a) := by
  intro hf w hw
  obtain ⟨hf, h1⟩ := and_both hf
  have hw := Option.some.inj hw
  obtain ⟨wl, wh, wo, ws, f0, f1, f2⟩ := fields_23_16_15_8 (hi := 2) (lo := 15) hw rfl (by decide) (by decide) (Opnd.toNat_lt d hf) (Opnd.toNat_lt a h1)
  refine ⟨wl, (team_2 wh wo).trans ?_⟩
  dsimp only [decodeTeam2]
  simp only [f0, f1, f2, Opnd.ofNat_toNat d hf, Opnd.ofNat_toNat a h1, whenZero, decide_true, if_true]

theorem andi (d : Opnd) (a : Opnd) (imm : Nat) : Statement (.andi d a imm) := by
  intro hf w hw
  obtain ⟨hf, h2⟩ := and_both hf
  obtain ⟨hf, h1⟩ := and_both hf
  have hw := Option.some.inj hw
  obtain ⟨wl, wh, wo, ws, f0, f1, f2⟩ := fields_23_16_15_8_7_0 (hi := 3) (lo := 0) hw rfl (by decide) (by decide) (Opnd.toNat_lt d hf) (Opnd.toNat_lt a h1) (of_decide_eq_true h2)
  refine ⟨wl, (team_3 wh wo).trans ?_⟩
  dsimp only [decodeTeam3]
  simp only [f0, f1, f2, Opnd.ofNat_toNat d hf, Opnd.ofNat_toNat a h1]

theorem ori (d : Opnd) (a : Opnd) (imm : Nat) : Statement (.ori d a imm) := by
  intro hf w hw
  obtain ⟨hf, h2⟩ := and_both hf
  obtain ⟨hf, h1⟩ := and_both hf
  have hw := Option.some.inj hw
  obtain ⟨wl, wh, wo, ws, f0, f1, f2⟩ := fields_23_16_15_8_7_0 (hi := 3) (lo := 1) hw rfl (by decide) (by decide) (Opnd.toNat_lt d hf) (Opnd.toNat_lt a h1) (of_decide_eq_true h2)
  refine ⟨wl, (team_3 wh wo).trans ?_⟩
  dsimp only [decodeTeam3]
  simp only [f0, f1, f2, Opnd.ofNat_toNat d hf, Opnd.ofNat_toNat a h1]

theorem xori (d : Opnd) (a : Opnd) (imm : Nat) : Statement (.xori d a imm) := by
  intro hf w hw
  obtain ⟨hf, h2⟩ := and_both hf
  obtain ⟨hf, h1⟩ := and_both hf
  have hw := Option.some.inj hw
  obtain ⟨wl, wh, wo, ws, f0, f1, f2⟩ := fields_23_16_15_8_7_0 (hi := 3) (lo := 2) hw rfl (by decide) (by decide) (Opnd.toNat_lt d hf) (Opnd.toNat_lt a h1) (of_decide_eq_true h2)
  refine ⟨wl, (team_3 wh wo).trans ?_⟩
  dsimp only [decodeTeam3]
  simp only [f0, f1, f2, Opnd.ofNat_toNat d hf, Opnd.ofNat_toNat a h1]

theorem shl (d : Opnd) (a : Opnd) (b : Opnd) : Statement (.shl d a b) := by
  intro hf w hw
  obtain ⟨hf, h2⟩ := and_both hf
  obtain ⟨hf, h1⟩ := and_both hf
  have hw := Option.some.inj hw
  obtain ⟨wl, wh, wo, ws, f0, f1, f2⟩ := fields_23_16_15_8_7_0 (hi := 3) (lo := 3) hw rfl (by decide) (by decide) (Opnd.toNat_lt d hf) (Opnd.toNat_lt a h1) (Opnd.toNat_lt b h2)
  refine ⟨wl, (team_3 wh wo).trans ?_⟩
  dsimp only [decodeTeam3]
  simp only [f0, f1, f2, Opnd.ofNat_toNat d hf, Opnd.ofNat_toNat a h1, Opnd.ofNat_toNat b h2]

theorem shr (d : Opnd) (a : Opnd) (b : Opnd) : Statement (.shr d a b) := by
  intro hf w hw
  obtain ⟨hf, h2⟩ := and_both hf
  obtain ⟨hf, h1⟩ := and_both hf
  have hw := Option.some.inj hw
  obtain ⟨wl, wh, wo, ws, f0, f1, f2⟩ := fields_23_16_15_8_7_0 (hi := 3) (lo := 4) hw rfl (by decide) (by decide) (Opnd.toNat_lt d hf) (Opnd.toNat_lt a h1) (Opnd.toNat_lt b h2)
  refine ⟨wl, (team_3 wh wo).trans ?_⟩
  dsimp only [decodeTeam3]
  simp only [f0, f1, f2, Opnd.ofNat_toNat d hf, Opnd.ofNat_toNat a h1, Opnd.ofNat_toNat b h2]

theorem sha (d : Opnd) (a : Opnd) (b : Opnd) : Statement (.sha d a b) := by
  intro hf w hw
  obtain ⟨hf, h2⟩ := and_both hf
  obtain ⟨hf, h1⟩ := and_both hf
  have hw := Option.some.inj hw
  obtain ⟨wl, wh, wo, ws, f0, f1, f2⟩ := fields_23_16_15_8_7_0 (hi := 3) (lo := 5) hw rfl (by decide) (by decide) (Opnd.toNat_lt d hf) (Opnd.toNat_lt a h1) (Opnd.toNat_lt b h2)
  refine ⟨wl, (team_3 wh wo).trans ?_⟩
  dsimp only [decodeTeam3]
  simp only [f0, f1, f2, Opnd.ofNat_toNat d hf, Opnd.ofNat_toNat a h1, Opnd.ofNat_toNat b h2]

theorem shli (d : Opnd) (a : Opnd) (imm : Nat) : Statement (.shli d a imm) := by
  intro hf w hw
  obtain ⟨hf, h2⟩ := and_both hf
  obtain ⟨hf, h1⟩ := and_both hf
  have hw := Option.some.inj hw
  obtain ⟨wl, wh, wo, ws, f0, f1, f2⟩ := fields_23_16_15_8_7_0 (hi := 3) (lo := 6) hw rfl (by decide) (by decide) (Opnd.toNat_lt d hf) (Opnd.toNat_lt a h1) (of_decide_eq_true h2)
  refine ⟨wl, (team_3 wh wo).trans ?_⟩
  dsimp only [decodeTeam3]
  simp only [f0, f1, f2, Opnd.ofNat_toNat d hf, Opnd.ofNat_toNat a h1]

theorem shri (d : Opnd) (a : Opnd) (imm : Nat) : Statement (.shri d a imm) := by
  intro hf w hw
  obtain ⟨hf, h2⟩ := and_both hf
  obtain ⟨hf, h1⟩ := and_both hf
  have hw := Option.some.inj hw
  obtain ⟨wl, wh, wo, ws, f0, f1, f2⟩ := fields_23_16_15_8_7_0 (hi := 3) (lo := 7) hw rfl (by decide) (by decide) (Opnd.toNat_lt d hf) (Opnd.toNat_lt a h1) (of_decide_eq_true h2)
  refine ⟨wl, (team_3 wh wo).trans ?_⟩
  dsimp only [decodeTeam3]
  simp only [f0, f1, f2, Opnd.ofNat_toNat d hf, Opnd.ofNat_toNat a h1]

theorem shai (d : Opnd) (a : Opnd) (imm : Nat) : Statement (.shai d a imm) := by
  intro hf w hw
  obtain ⟨hf, h2⟩ := and_both hf
  obtain ⟨hf, h1⟩ := and_both hf
  have hw := Option.some.inj hw
  obtain ⟨wl, wh, wo, ws, f0, f1, f2⟩ := fields_23_16_15_8_7_0 (hi := 3) (lo := 8) hw rfl (by decide) (by decide) (Opnd.toNat_lt d hf) (Opnd.toNat_lt a h1) (of_decide_eq_true h2)
  refine ⟨wl, (team_3 wh wo).trans ?_⟩
  dsimp only [decodeTeam3]
  simp only [f0, f1, f2, Opnd.ofNat_toNat d hf, Opnd.ofNat_toNat a h1]

theorem rol (d : Opnd) (a : Opnd) (b : Opnd) : Statement (.rol d a b) := by
  intro hf w hw
  obtain ⟨hf, h2⟩ := and_both hf
  obtain ⟨hf, h1⟩ := and_both hf
  have hw := Option.some.inj hw
  obtain ⟨wl, wh, wo, ws, f0, f1, f2⟩ := fields_23_16_15_8_7_0 (hi := 3) (lo := 9) hw rfl (by decide) (by decide) (Opnd.toNat_lt d hf) (Opnd.toNat_lt a h1) (Opnd.toNat_lt b h2)
  refine ⟨wl, (team_3 wh wo).trans ?_⟩
  dsimp only [decodeTeam3]
  simp only [f0, f1, f2, Opnd.ofNat_toNat d hf, Opnd.ofNat_toNat a h1, Opnd.ofNat_toNat b h2]

theorem clz (d : Opnd) (a : Opnd) : Statement (.clz d a) := by
  intro hf w hw
  obtain ⟨hf, h1⟩ := and_both hf
  have hw := Option.some.inj hw
  obtain ⟨wl, wh, wo, ws, f0, f1, f2⟩ := fields_23_16_15_8 (hi := 3) (lo := 10) hw rfl (by decide) (by decide) (Opnd.toNat_lt d hf) (Opnd.toNat_lt a h1)
  refine ⟨wl, (team_3 wh wo).trans ?_⟩
  dsimp only [decodeTeam3]
  simp only [f0, f1, f2, Opnd.ofNat_toNat d hf, Opnd.ofNat_toNat a h1, whenZero, decide_true, if_true]

theorem popc (d : Opnd) (a : Opnd) : Statement (.popc d a) := by
  intro hf w hw
  obtain ⟨hf, h1⟩ := and_both hf
  have hw := Option.some.inj hw
  obtain ⟨wl, wh, wo, ws, f0, f1, f2⟩ := fields_23_16_15_8 (hi := 3) (lo := 11) hw rfl (by decide) (by decide) (Opnd.toNat_lt d hf) (Opnd.toNat_lt a h1)
  refine ⟨wl, (team_3 wh wo).trans ?_⟩
  dsimp only [decodeTeam3]
  simp only [f0, f1, f2, Opnd.ofNat_toNat d hf, Opnd.ofNat_toNat a h1, whenZero, decide_true, if_true]

theorem brev (d : Opnd) (a : Opnd) : Statement (.brev d a) := by
  intro hf w hw
  obtain ⟨hf, h1⟩ := and_both hf
  have hw := Option.some.inj hw
  obtain ⟨wl, wh, wo, ws, f0, f1, f2⟩ := fields_23_16_15_8 (hi := 3) (lo := 12) hw rfl (by decide) (by decide) (Opnd.toNat_lt d hf) (Opnd.toNat_lt a h1)
  refine ⟨wl, (team_3 wh wo).trans ?_⟩
  dsimp only [decodeTeam3]
  simp only [f0, f1, f2, Opnd.ofNat_toNat d hf, Opnd.ofNat_toNat a h1, whenZero, decide_true, if_true]

theorem bfx (d : Opnd) (a : Opnd) (b : Opnd) : Statement (.bfx d a b) := by
  intro hf w hw
  obtain ⟨hf, h2⟩ := and_both hf
  obtain ⟨hf, h1⟩ := and_both hf
  have hw := Option.some.inj hw
  obtain ⟨wl, wh, wo, ws, f0, f1, f2⟩ := fields_23_16_15_8_7_0 (hi := 3) (lo := 13) hw rfl (by decide) (by decide) (Opnd.toNat_lt d hf) (Opnd.toNat_lt a h1) (Opnd.toNat_lt b h2)
  refine ⟨wl, (team_3 wh wo).trans ?_⟩
  dsimp only [decodeTeam3]
  simp only [f0, f1, f2, Opnd.ofNat_toNat d hf, Opnd.ofNat_toNat a h1, Opnd.ofNat_toNat b h2]

theorem bfi (d : Opnd) (a : Opnd) (b : Opnd) : Statement (.bfi d a b) := by
  intro hf w hw
  obtain ⟨hf, h2⟩ := and_both hf
  obtain ⟨hf, h1⟩ := and_both hf
  have hw := Option.some.inj hw
  obtain ⟨wl, wh, wo, ws, f0, f1, f2⟩ := fields_23_16_15_8_7_0 (hi := 3) (lo := 14) hw rfl (by decide) (by decide) (Opnd.toNat_lt d hf) (Opnd.toNat_lt a h1) (Opnd.toNat_lt b h2)
  refine ⟨wl, (team_3 wh wo).trans ?_⟩
  dsimp only [decodeTeam3]
  simp only [f0, f1, f2, Opnd.ofNat_toNat d hf, Opnd.ofNat_toNat a h1, Opnd.ofNat_toNat b h2]

theorem sel (d : Opnd) (a : Opnd) (b : Opnd) : Statement (.sel d a b) := by
  intro hf w hw
  obtain ⟨hf, h2⟩ := and_both hf
  obtain ⟨hf, h1⟩ := and_both hf
  have hw := Option.some.inj hw
  obtain ⟨wl, wh, wo, ws, f0, f1, f2⟩ := fields_23_16_15_8_7_0 (hi := 3) (lo := 15) hw rfl (by decide) (by decide) (Opnd.toNat_lt d hf) (Opnd.toNat_lt a h1) (Opnd.toNat_lt b h2)
  refine ⟨wl, (team_3 wh wo).trans ?_⟩
  dsimp only [decodeTeam3]
  simp only [f0, f1, f2, Opnd.ofNat_toNat d hf, Opnd.ofNat_toNat a h1, Opnd.ofNat_toNat b h2]

theorem ceq (d : Nat) (a : Opnd) (b : Opnd) : Statement (.ceq d a b) := by
  intro hf w hw
  obtain ⟨hf, h2⟩ := and_both hf
  obtain ⟨hf, h1⟩ := and_both hf
  have hw := Option.some.inj hw
  obtain ⟨wl, wh, wo, ws, f0, f1, f2, f3⟩ := fields_18_16_15_8_7_0 (hi := 4) (lo := 0) hw rfl (by decide) (by decide) (of_decide_eq_true hf) (Opnd.toNat_lt a h1) (Opnd.toNat_lt b h2)
  refine ⟨wl, (team_4 wh wo).trans ?_⟩
  dsimp only [decodeTeam4]
  simp only [f0, f1, f2, f3, Opnd.ofNat_toNat a h1, Opnd.ofNat_toNat b h2, whenZero, decide_true, if_true]

theorem cne (d : Nat) (a : Opnd) (b : Opnd) : Statement (.cne d a b) := by
  intro hf w hw
  obtain ⟨hf, h2⟩ := and_both hf
  obtain ⟨hf, h1⟩ := and_both hf
  have hw := Option.some.inj hw
  obtain ⟨wl, wh, wo, ws, f0, f1, f2, f3⟩ := fields_18_16_15_8_7_0 (hi := 4) (lo := 1) hw rfl (by decide) (by decide) (of_decide_eq_true hf) (Opnd.toNat_lt a h1) (Opnd.toNat_lt b h2)
  refine ⟨wl, (team_4 wh wo).trans ?_⟩
  dsimp only [decodeTeam4]
  simp only [f0, f1, f2, f3, Opnd.ofNat_toNat a h1, Opnd.ofNat_toNat b h2, whenZero, decide_true, if_true]

theorem clt (d : Nat) (a : Opnd) (b : Opnd) : Statement (.clt d a b) := by
  intro hf w hw
  obtain ⟨hf, h2⟩ := and_both hf
  obtain ⟨hf, h1⟩ := and_both hf
  have hw := Option.some.inj hw
  obtain ⟨wl, wh, wo, ws, f0, f1, f2, f3⟩ := fields_18_16_15_8_7_0 (hi := 4) (lo := 2) hw rfl (by decide) (by decide) (of_decide_eq_true hf) (Opnd.toNat_lt a h1) (Opnd.toNat_lt b h2)
  refine ⟨wl, (team_4 wh wo).trans ?_⟩
  dsimp only [decodeTeam4]
  simp only [f0, f1, f2, f3, Opnd.ofNat_toNat a h1, Opnd.ofNat_toNat b h2, whenZero, decide_true, if_true]

theorem cle (d : Nat) (a : Opnd) (b : Opnd) : Statement (.cle d a b) := by
  intro hf w hw
  obtain ⟨hf, h2⟩ := and_both hf
  obtain ⟨hf, h1⟩ := and_both hf
  have hw := Option.some.inj hw
  obtain ⟨wl, wh, wo, ws, f0, f1, f2, f3⟩ := fields_18_16_15_8_7_0 (hi := 4) (lo := 3) hw rfl (by decide) (by decide) (of_decide_eq_true hf) (Opnd.toNat_lt a h1) (Opnd.toNat_lt b h2)
  refine ⟨wl, (team_4 wh wo).trans ?_⟩
  dsimp only [decodeTeam4]
  simp only [f0, f1, f2, f3, Opnd.ofNat_toNat a h1, Opnd.ofNat_toNat b h2, whenZero, decide_true, if_true]

theorem cgt (d : Nat) (a : Opnd) (b : Opnd) : Statement (.cgt d a b) := by
  intro hf w hw
  obtain ⟨hf, h2⟩ := and_both hf
  obtain ⟨hf, h1⟩ := and_both hf
  have hw := Option.some.inj hw
  obtain ⟨wl, wh, wo, ws, f0, f1, f2, f3⟩ := fields_18_16_15_8_7_0 (hi := 4) (lo := 4) hw rfl (by decide) (by decide) (of_decide_eq_true hf) (Opnd.toNat_lt a h1) (Opnd.toNat_lt b h2)
  refine ⟨wl, (team_4 wh wo).trans ?_⟩
  dsimp only [decodeTeam4]
  simp only [f0, f1, f2, f3, Opnd.ofNat_toNat a h1, Opnd.ofNat_toNat b h2, whenZero, decide_true, if_true]

theorem cge (d : Nat) (a : Opnd) (b : Opnd) : Statement (.cge d a b) := by
  intro hf w hw
  obtain ⟨hf, h2⟩ := and_both hf
  obtain ⟨hf, h1⟩ := and_both hf
  have hw := Option.some.inj hw
  obtain ⟨wl, wh, wo, ws, f0, f1, f2, f3⟩ := fields_18_16_15_8_7_0 (hi := 4) (lo := 5) hw rfl (by decide) (by decide) (of_decide_eq_true hf) (Opnd.toNat_lt a h1) (Opnd.toNat_lt b h2)
  refine ⟨wl, (team_4 wh wo).trans ?_⟩
  dsimp only [decodeTeam4]
  simp only [f0, f1, f2, f3, Opnd.ofNat_toNat a h1, Opnd.ofNat_toNat b h2, whenZero, decide_true, if_true]

theorem lim (d : Opnd) (imm : Nat) : Statement (.lim d imm) := by
  intro hf w hw
  obtain ⟨hf, h1⟩ := and_both hf
  have hw := Option.some.inj hw
  obtain ⟨wl, wh, wo, ws, f0, f1⟩ := fields_23_16_15_0 (hi := 4) (lo := 6) hw rfl (by decide) (by decide) (Opnd.toNat_lt d hf) (of_decide_eq_true h1)
  refine ⟨wl, (team_4 wh wo).trans ?_⟩
  dsimp only [decodeTeam4]
  simp only [f0, f1, Opnd.ofNat_toNat d hf]

theorem limh (d : Opnd) (imm : Nat) : Statement (.limh d imm) := by
  intro hf w hw
  obtain ⟨hf, h1⟩ := and_both hf
  have hw := Option.some.inj hw
  obtain ⟨wl, wh, wo, ws, f0, f1⟩ := fields_23_16_15_0 (hi := 4) (lo := 7) hw rfl (by decide) (by decide) (Opnd.toNat_lt d hf) (of_decide_eq_true h1)
  refine ⟨wl, (team_4 wh wo).trans ?_⟩
  dsimp only [decodeTeam4]
  simp only [f0, f1, Opnd.ofNat_toNat d hf]

theorem limx (d : Opnd) (imm : Nat) : Statement (.limx d imm) := by
  intro hf w hw
  obtain ⟨hf, h1⟩ := and_both hf
  have hw := Option.some.inj hw
  obtain ⟨wl, wh, wo, ws, f0, f1⟩ := fields_23_16_15_0 (hi := 4) (lo := 8) hw rfl (by decide) (by decide) (Opnd.toNat_lt d hf) (of_decide_eq_true h1)
  refine ⟨wl, (team_4 wh wo).trans ?_⟩
  dsimp only [decodeTeam4]
  simp only [f0, f1, Opnd.ofNat_toNat d hf]

theorem mov (d : Opnd) (a : Opnd) : Statement (.mov d a) := by
  intro hf w hw
  obtain ⟨hf, h1⟩ := and_both hf
  have hw := Option.some.inj hw
  obtain ⟨wl, wh, wo, ws, f0, f1, f2⟩ := fields_23_16_15_8 (hi := 4) (lo := 9) hw rfl (by decide) (by decide) (Opnd.toNat_lt d hf) (Opnd.toNat_lt a h1)
  refine ⟨wl, (team_4 wh wo).trans ?_⟩
  dsimp only [decodeTeam4]
  simp only [f0, f1, f2, Opnd.ofNat_toNat d hf, Opnd.ofNat_toNat a h1, whenZero, decide_true, if_true]

theorem wfld (d : Opnd) (h : Bool) (f : Nat) : Statement (.wfld d h f) := by
  intro hf w hw
  obtain ⟨hf, h1⟩ := and_both hf
  have hw := Option.some.inj hw
  obtain ⟨wl, wh, wo, ws, f0, f1, f2, f3⟩ := fields_23_16_3_3_2_0 (hi := 4) (lo := 11) hw rfl (by decide) (by decide) (Opnd.toNat_lt d hf) (bitOf_lt h) (of_decide_eq_true h1)
  refine ⟨wl, (team_4 wh wo).trans ?_⟩
  dsimp only [decodeTeam4]
  simp only [f0, f1, f2, f3, Opnd.ofNat_toNat d hf, decide_bitOf h, whenZero, decide_true, if_true]

theorem lea (d : Opnd) (a : Opnd) (b : Opnd) : Statement (.lea d a b) := by
  intro hf w hw
  obtain ⟨hf, h2⟩ := and_both hf
  obtain ⟨hf, h1⟩ := and_both hf
  have hw := Option.some.inj hw
  obtain ⟨wl, wh, wo, ws, f0, f1, f2⟩ := fields_23_16_15_8_7_0 (hi := 4) (lo := 12) hw rfl (by decide) (by decide) (Opnd.toNat_lt d hf) (Opnd.toNat_lt a h1) (Opnd.toNat_lt b h2)
  refine ⟨wl, (team_4 wh wo).trans ?_⟩
  dsimp only [decodeTeam4]
  simp only [f0, f1, f2, Opnd.ofNat_toNat d hf, Opnd.ofNat_toNat a h1, Opnd.ofNat_toNat b h2]

theorem addc (d : Opnd) (a : Opnd) (b : Opnd) : Statement (.addc d a b) := by
  intro hf w hw
  obtain ⟨hf, h2⟩ := and_both hf
  obtain ⟨hf, h1⟩ := and_both hf
  have hw := Option.some.inj hw
  obtain ⟨wl, wh, wo, ws, f0, f1, f2⟩ := fields_23_16_15_8_7_0 (hi := 4) (lo := 13) hw rfl (by decide) (by decide) (Opnd.toNat_lt d hf) (Opnd.toNat_lt a h1) (Opnd.toNat_lt b h2)
  refine ⟨wl, (team_4 wh wo).trans ?_⟩
  dsimp only [decodeTeam4]
  simp only [f0, f1, f2, Opnd.ofNat_toNat d hf, Opnd.ofNat_toNat a h1, Opnd.ofNat_toNat b h2]

theorem cvti (d : Opnd) (a : Opnd) (p : Nat) (dst : Nat) (src : Nat) : Statement (.cvti d a p dst src) := by
  intro hf w hw
  obtain ⟨hf, h4⟩ := and_both hf
  obtain ⟨hf, h3⟩ := and_both hf
  obtain ⟨hf, h2⟩ := and_both hf
  obtain ⟨hf, h1⟩ := and_both hf
  have hw := Option.some.inj hw
  obtain ⟨wl, wh, wo, ws, f0, f1, f2, f3, f4⟩ := fields_23_16_15_8_7_6_5_3_2_0 (hi := 4) (lo := 14) hw rfl (by decide) (by decide) (Opnd.toNat_lt d hf) (Opnd.toNat_lt a h1) (of_decide_eq_true h2) (of_decide_eq_true h3) (of_decide_eq_true h4)
  refine ⟨wl, (team_4 wh wo).trans ?_⟩
  dsimp only [decodeTeam4]
  simp only [f0, f1, f2, f3, f4, Opnd.ofNat_toNat d hf, Opnd.ofNat_toNat a h1]

theorem fadd (d : Opnd) (a : Opnd) (b : Opnd) : Statement (.fadd d a b) := by
  intro hf w hw
  obtain ⟨hf, h2⟩ := and_both hf
  obtain ⟨hf, h1⟩ := and_both hf
  have hw := Option.some.inj hw
  obtain ⟨wl, wh, wo, ws, f0, f1, f2⟩ := fields_23_16_15_8_7_0 (hi := 5) (lo := 0) hw rfl (by decide) (by decide) (Opnd.toNat_lt d hf) (Opnd.toNat_lt a h1) (Opnd.toNat_lt b h2)
  refine ⟨wl, (team_5 wh wo).trans ?_⟩
  dsimp only [decodeTeam5]
  simp only [f0, f1, f2, Opnd.ofNat_toNat d hf, Opnd.ofNat_toNat a h1, Opnd.ofNat_toNat b h2]

theorem fsub (d : Opnd) (a : Opnd) (b : Opnd) : Statement (.fsub d a b) := by
  intro hf w hw
  obtain ⟨hf, h2⟩ := and_both hf
  obtain ⟨hf, h1⟩ := and_both hf
  have hw := Option.some.inj hw
  obtain ⟨wl, wh, wo, ws, f0, f1, f2⟩ := fields_23_16_15_8_7_0 (hi := 5) (lo := 1) hw rfl (by decide) (by decide) (Opnd.toNat_lt d hf) (Opnd.toNat_lt a h1) (Opnd.toNat_lt b h2)
  refine ⟨wl, (team_5 wh wo).trans ?_⟩
  dsimp only [decodeTeam5]
  simp only [f0, f1, f2, Opnd.ofNat_toNat d hf, Opnd.ofNat_toNat a h1, Opnd.ofNat_toNat b h2]

theorem fmul (d : Opnd) (a : Opnd) (b : Opnd) : Statement (.fmul d a b) := by
  intro hf w hw
  obtain ⟨hf, h2⟩ := and_both hf
  obtain ⟨hf, h1⟩ := and_both hf
  have hw := Option.some.inj hw
  obtain ⟨wl, wh, wo, ws, f0, f1, f2⟩ := fields_23_16_15_8_7_0 (hi := 5) (lo := 2) hw rfl (by decide) (by decide) (Opnd.toNat_lt d hf) (Opnd.toNat_lt a h1) (Opnd.toNat_lt b h2)
  refine ⟨wl, (team_5 wh wo).trans ?_⟩
  dsimp only [decodeTeam5]
  simp only [f0, f1, f2, Opnd.ofNat_toNat d hf, Opnd.ofNat_toNat a h1, Opnd.ofNat_toNat b h2]

theorem fma (d : Opnd) (a : Opnd) (b : Opnd) : Statement (.fma d a b) := by
  intro hf w hw
  obtain ⟨hf, h2⟩ := and_both hf
  obtain ⟨hf, h1⟩ := and_both hf
  have hw := Option.some.inj hw
  obtain ⟨wl, wh, wo, ws, f0, f1, f2⟩ := fields_23_16_15_8_7_0 (hi := 5) (lo := 3) hw rfl (by decide) (by decide) (Opnd.toNat_lt d hf) (Opnd.toNat_lt a h1) (Opnd.toNat_lt b h2)
  refine ⟨wl, (team_5 wh wo).trans ?_⟩
  dsimp only [decodeTeam5]
  simp only [f0, f1, f2, Opnd.ofNat_toNat d hf, Opnd.ofNat_toNat a h1, Opnd.ofNat_toNat b h2]

theorem fms (d : Opnd) (a : Opnd) (b : Opnd) : Statement (.fms d a b) := by
  intro hf w hw
  obtain ⟨hf, h2⟩ := and_both hf
  obtain ⟨hf, h1⟩ := and_both hf
  have hw := Option.some.inj hw
  obtain ⟨wl, wh, wo, ws, f0, f1, f2⟩ := fields_23_16_15_8_7_0 (hi := 5) (lo := 4) hw rfl (by decide) (by decide) (Opnd.toNat_lt d hf) (Opnd.toNat_lt a h1) (Opnd.toNat_lt b h2)
  refine ⟨wl, (team_5 wh wo).trans ?_⟩
  dsimp only [decodeTeam5]
  simp only [f0, f1, f2, Opnd.ofNat_toNat d hf, Opnd.ofNat_toNat a h1, Opnd.ofNat_toNat b h2]

theorem fnma (d : Opnd) (a : Opnd) (b : Opnd) : Statement (.fnma d a b) := by
  intro hf w hw
  obtain ⟨hf, h2⟩ := and_both hf
  obtain ⟨hf, h1⟩ := and_both hf
  have hw := Option.some.inj hw
  obtain ⟨wl, wh, wo, ws, f0, f1, f2⟩ := fields_23_16_15_8_7_0 (hi := 5) (lo := 5) hw rfl (by decide) (by decide) (Opnd.toNat_lt d hf) (Opnd.toNat_lt a h1) (Opnd.toNat_lt b h2)
  refine ⟨wl, (team_5 wh wo).trans ?_⟩
  dsimp only [decodeTeam5]
  simp only [f0, f1, f2, Opnd.ofNat_toNat d hf, Opnd.ofNat_toNat a h1, Opnd.ofNat_toNat b h2]

theorem fmin (d : Opnd) (a : Opnd) (b : Opnd) : Statement (.fmin d a b) := by
  intro hf w hw
  obtain ⟨hf, h2⟩ := and_both hf
  obtain ⟨hf, h1⟩ := and_both hf
  have hw := Option.some.inj hw
  obtain ⟨wl, wh, wo, ws, f0, f1, f2⟩ := fields_23_16_15_8_7_0 (hi := 5) (lo := 6) hw rfl (by decide) (by decide) (Opnd.toNat_lt d hf) (Opnd.toNat_lt a h1) (Opnd.toNat_lt b h2)
  refine ⟨wl, (team_5 wh wo).trans ?_⟩
  dsimp only [decodeTeam5]
  simp only [f0, f1, f2, Opnd.ofNat_toNat d hf, Opnd.ofNat_toNat a h1, Opnd.ofNat_toNat b h2]

theorem fmax (d : Opnd) (a : Opnd) (b : Opnd) : Statement (.fmax d a b) := by
  intro hf w hw
  obtain ⟨hf, h2⟩ := and_both hf
  obtain ⟨hf, h1⟩ := and_both hf
  have hw := Option.some.inj hw
  obtain ⟨wl, wh, wo, ws, f0, f1, f2⟩ := fields_23_16_15_8_7_0 (hi := 5) (lo := 7) hw rfl (by decide) (by decide) (Opnd.toNat_lt d hf) (Opnd.toNat_lt a h1) (Opnd.toNat_lt b h2)
  refine ⟨wl, (team_5 wh wo).trans ?_⟩
  dsimp only [decodeTeam5]
  simp only [f0, f1, f2, Opnd.ofNat_toNat d hf, Opnd.ofNat_toNat a h1, Opnd.ofNat_toNat b h2]

theorem fabs (d : Opnd) (a : Opnd) : Statement (.fabs d a) := by
  intro hf w hw
  obtain ⟨hf, h1⟩ := and_both hf
  have hw := Option.some.inj hw
  obtain ⟨wl, wh, wo, ws, f0, f1, f2⟩ := fields_23_16_15_8 (hi := 5) (lo := 8) hw rfl (by decide) (by decide) (Opnd.toNat_lt d hf) (Opnd.toNat_lt a h1)
  refine ⟨wl, (team_5 wh wo).trans ?_⟩
  dsimp only [decodeTeam5]
  simp only [f0, f1, f2, Opnd.ofNat_toNat d hf, Opnd.ofNat_toNat a h1, whenZero, decide_true, if_true]

theorem fneg (d : Opnd) (a : Opnd) : Statement (.fneg d a) := by
  intro hf w hw
  obtain ⟨hf, h1⟩ := and_both hf
  have hw := Option.some.inj hw
  obtain ⟨wl, wh, wo, ws, f0, f1, f2⟩ := fields_23_16_15_8 (hi := 5) (lo := 9) hw rfl (by decide) (by decide) (Opnd.toNat_lt d hf) (Opnd.toNat_lt a h1)
  refine ⟨wl, (team_5 wh wo).trans ?_⟩
  dsimp only [decodeTeam5]
  simp only [f0, f1, f2, Opnd.ofNat_toNat d hf, Opnd.ofNat_toNat a h1, whenZero, decide_true, if_true]

theorem fceq (d : Nat) (a : Opnd) (b : Opnd) : Statement (.fceq d a b) := by
  intro hf w hw
  obtain ⟨hf, h2⟩ := and_both hf
  obtain ⟨hf, h1⟩ := and_both hf
  have hw := Option.some.inj hw
  obtain ⟨wl, wh, wo, ws, f0, f1, f2, f3⟩ := fields_18_16_15_8_7_0 (hi := 5) (lo := 10) hw rfl (by decide) (by decide) (of_decide_eq_true hf) (Opnd.toNat_lt a h1) (Opnd.toNat_lt b h2)
  refine ⟨wl, (team_5 wh wo).trans ?_⟩
  dsimp only [decodeTeam5]
  simp only [f0, f1, f2, f3, Opnd.ofNat_toNat a h1, Opnd.ofNat_toNat b h2, whenZero, decide_true, if_true]

theorem fclt (d : Nat) (a : Opnd) (b : Opnd) : Statement (.fclt d a b) := by
  intro hf w hw
  obtain ⟨hf, h2⟩ := and_both hf
  obtain ⟨hf, h1⟩ := and_both hf
  have hw := Option.some.inj hw
  obtain ⟨wl, wh, wo, ws, f0, f1, f2, f3⟩ := fields_18_16_15_8_7_0 (hi := 5) (lo := 11) hw rfl (by decide) (by decide) (of_decide_eq_true hf) (Opnd.toNat_lt a h1) (Opnd.toNat_lt b h2)
  refine ⟨wl, (team_5 wh wo).trans ?_⟩
  dsimp only [decodeTeam5]
  simp only [f0, f1, f2, f3, Opnd.ofNat_toNat a h1, Opnd.ofNat_toNat b h2, whenZero, decide_true, if_true]

theorem fcle (d : Nat) (a : Opnd) (b : Opnd) : Statement (.fcle d a b) := by
  intro hf w hw
  obtain ⟨hf, h2⟩ := and_both hf
  obtain ⟨hf, h1⟩ := and_both hf
  have hw := Option.some.inj hw
  obtain ⟨wl, wh, wo, ws, f0, f1, f2, f3⟩ := fields_18_16_15_8_7_0 (hi := 5) (lo := 12) hw rfl (by decide) (by decide) (of_decide_eq_true hf) (Opnd.toNat_lt a h1) (Opnd.toNat_lt b h2)
  refine ⟨wl, (team_5 wh wo).trans ?_⟩
  dsimp only [decodeTeam5]
  simp only [f0, f1, f2, f3, Opnd.ofNat_toNat a h1, Opnd.ofNat_toNat b h2, whenZero, decide_true, if_true]

theorem fcun (d : Nat) (a : Opnd) (b : Opnd) : Statement (.fcun d a b) := by
  intro hf w hw
  obtain ⟨hf, h2⟩ := and_both hf
  obtain ⟨hf, h1⟩ := and_both hf
  have hw := Option.some.inj hw
  obtain ⟨wl, wh, wo, ws, f0, f1, f2, f3⟩ := fields_18_16_15_8_7_0 (hi := 5) (lo := 13) hw rfl (by decide) (by decide) (of_decide_eq_true hf) (Opnd.toNat_lt a h1) (Opnd.toNat_lt b h2)
  refine ⟨wl, (team_5 wh wo).trans ?_⟩
  dsimp only [decodeTeam5]
  simp only [f0, f1, f2, f3, Opnd.ofNat_toNat a h1, Opnd.ofNat_toNat b h2, whenZero, decide_true, if_true]

theorem fclass (d : Opnd) (a : Opnd) : Statement (.fclass d a) := by
  intro hf w hw
  obtain ⟨hf, h1⟩ := and_both hf
  have hw := Option.some.inj hw
  obtain ⟨wl, wh, wo, ws, f0, f1, f2⟩ := fields_23_16_15_8 (hi := 5) (lo := 14) hw rfl (by decide) (by decide) (Opnd.toNat_lt d hf) (Opnd.toNat_lt a h1)
  refine ⟨wl, (team_5 wh wo).trans ?_⟩
  dsimp only [decodeTeam5]
  simp only [f0, f1, f2, Opnd.ofNat_toNat d hf, Opnd.ofNat_toNat a h1, whenZero, decide_true, if_true]

theorem frcp (d : Opnd) (a : Opnd) (la : Nat) : Statement (.frcp d a la) := by
  intro hf w hw
  obtain ⟨hf, h2⟩ := and_both hf
  obtain ⟨hf, h1⟩ := and_both hf
  have hw := Option.some.inj hw
  obtain ⟨wl, wh, wo, ws, f0, f1, f2, f3⟩ := fields_23_16_15_8_7_4 (hi := 5) (lo := 15) hw rfl (by decide) (by decide) (Opnd.toNat_lt d hf) (Opnd.toNat_lt a h1) (of_decide_eq_true h2)
  refine ⟨wl, (team_5 wh wo).trans ?_⟩
  dsimp only [decodeTeam5]
  simp only [f0, f1, f2, f3, Opnd.ofNat_toNat d hf, Opnd.ofNat_toNat a h1, whenZero, decide_true, if_true]

theorem frsq (d : Opnd) (a : Opnd) (la : Nat) : Statement (.frsq d a la) := by
  intro hf w hw
  obtain ⟨hf, h2⟩ := and_both hf
  obtain ⟨hf, h1⟩ := and_both hf
  have hw := Option.some.inj hw
  obtain ⟨wl, wh, wo, ws, f0, f1, f2, f3⟩ := fields_23_16_15_8_7_4 (hi := 6) (lo := 0) hw rfl (by decide) (by decide) (Opnd.toNat_lt d hf) (Opnd.toNat_lt a h1) (of_decide_eq_true h2)
  refine ⟨wl, (team_6 wh wo).trans ?_⟩
  dsimp only [decodeTeam6]
  simp only [f0, f1, f2, f3, Opnd.ofNat_toNat d hf, Opnd.ofNat_toNat a h1, whenZero, decide_true, if_true]

theorem fsqrt (d : Opnd) (a : Opnd) (la : Nat) : Statement (.fsqrt d a la) := by
  intro hf w hw
  obtain ⟨hf, h2⟩ := and_both hf
  obtain ⟨hf, h1⟩ := and_both hf
  have hw := Option.some.inj hw
  obtain ⟨wl, wh, wo, ws, f0, f1, f2, f3⟩ := fields_23_16_15_8_7_4 (hi := 6) (lo := 1) hw rfl (by decide) (by decide) (Opnd.toNat_lt d hf) (Opnd.toNat_lt a h1) (of_decide_eq_true h2)
  refine ⟨wl, (team_6 wh wo).trans ?_⟩
  dsimp only [decodeTeam6]
  simp only [f0, f1, f2, f3, Opnd.ofNat_toNat d hf, Opnd.ofNat_toNat a h1, whenZero, decide_true, if_true]

theorem fdiv (d : Opnd) (a : Opnd) (b : Opnd) : Statement (.fdiv d a b) := by
  intro hf w hw
  obtain ⟨hf, h2⟩ := and_both hf
  obtain ⟨hf, h1⟩ := and_both hf
  have hw := Option.some.inj hw
  obtain ⟨wl, wh, wo, ws, f0, f1, f2⟩ := fields_23_16_15_8_7_0 (hi := 6) (lo := 2) hw rfl (by decide) (by decide) (Opnd.toNat_lt d hf) (Opnd.toNat_lt a h1) (Opnd.toNat_lt b h2)
  refine ⟨wl, (team_6 wh wo).trans ?_⟩
  dsimp only [decodeTeam6]
  simp only [f0, f1, f2, Opnd.ofNat_toNat d hf, Opnd.ofNat_toNat a h1, Opnd.ofNat_toNat b h2]

theorem fexp2 (d : Opnd) (a : Opnd) (la : Nat) : Statement (.fexp2 d a la) := by
  intro hf w hw
  obtain ⟨hf, h2⟩ := and_both hf
  obtain ⟨hf, h1⟩ := and_both hf
  have hw := Option.some.inj hw
  obtain ⟨wl, wh, wo, ws, f0, f1, f2, f3⟩ := fields_23_16_15_8_7_4 (hi := 6) (lo := 3) hw rfl (by decide) (by decide) (Opnd.toNat_lt d hf) (Opnd.toNat_lt a h1) (of_decide_eq_true h2)
  refine ⟨wl, (team_6 wh wo).trans ?_⟩
  dsimp only [decodeTeam6]
  simp only [f0, f1, f2, f3, Opnd.ofNat_toNat d hf, Opnd.ofNat_toNat a h1, whenZero, decide_true, if_true]

theorem flog2 (d : Opnd) (a : Opnd) (la : Nat) : Statement (.flog2 d a la) := by
  intro hf w hw
  obtain ⟨hf, h2⟩ := and_both hf
  obtain ⟨hf, h1⟩ := and_both hf
  have hw := Option.some.inj hw
  obtain ⟨wl, wh, wo, ws, f0, f1, f2, f3⟩ := fields_23_16_15_8_7_4 (hi := 6) (lo := 4) hw rfl (by decide) (by decide) (Opnd.toNat_lt d hf) (Opnd.toNat_lt a h1) (of_decide_eq_true h2)
  refine ⟨wl, (team_6 wh wo).trans ?_⟩
  dsimp only [decodeTeam6]
  simp only [f0, f1, f2, f3, Opnd.ofNat_toNat d hf, Opnd.ofNat_toNat a h1, whenZero, decide_true, if_true]

theorem fsin (d : Opnd) (a : Opnd) (la : Nat) : Statement (.fsin d a la) := by
  intro hf w hw
  obtain ⟨hf, h2⟩ := and_both hf
  obtain ⟨hf, h1⟩ := and_both hf
  have hw := Option.some.inj hw
  obtain ⟨wl, wh, wo, ws, f0, f1, f2, f3⟩ := fields_23_16_15_8_7_4 (hi := 6) (lo := 5) hw rfl (by decide) (by decide) (Opnd.toNat_lt d hf) (Opnd.toNat_lt a h1) (of_decide_eq_true h2)
  refine ⟨wl, (team_6 wh wo).trans ?_⟩
  dsimp only [decodeTeam6]
  simp only [f0, f1, f2, f3, Opnd.ofNat_toNat d hf, Opnd.ofNat_toNat a h1, whenZero, decide_true, if_true]

theorem fcos (d : Opnd) (a : Opnd) (la : Nat) : Statement (.fcos d a la) := by
  intro hf w hw
  obtain ⟨hf, h2⟩ := and_both hf
  obtain ⟨hf, h1⟩ := and_both hf
  have hw := Option.some.inj hw
  obtain ⟨wl, wh, wo, ws, f0, f1, f2, f3⟩ := fields_23_16_15_8_7_4 (hi := 6) (lo := 6) hw rfl (by decide) (by decide) (Opnd.toNat_lt d hf) (Opnd.toNat_lt a h1) (of_decide_eq_true h2)
  refine ⟨wl, (team_6 wh wo).trans ?_⟩
  dsimp only [decodeTeam6]
  simp only [f0, f1, f2, f3, Opnd.ofNat_toNat d hf, Opnd.ofNat_toNat a h1, whenZero, decide_true, if_true]

theorem ftanh (d : Opnd) (a : Opnd) (la : Nat) : Statement (.ftanh d a la) := by
  intro hf w hw
  obtain ⟨hf, h2⟩ := and_both hf
  obtain ⟨hf, h1⟩ := and_both hf
  have hw := Option.some.inj hw
  obtain ⟨wl, wh, wo, ws, f0, f1, f2, f3⟩ := fields_23_16_15_8_7_4 (hi := 6) (lo := 7) hw rfl (by decide) (by decide) (Opnd.toNat_lt d hf) (Opnd.toNat_lt a h1) (of_decide_eq_true h2)
  refine ⟨wl, (team_6 wh wo).trans ?_⟩
  dsimp only [decodeTeam6]
  simp only [f0, f1, f2, f3, Opnd.ofNat_toNat d hf, Opnd.ofNat_toNat a h1, whenZero, decide_true, if_true]

theorem frnd (d : Opnd) (a : Opnd) (rc : Nat) : Statement (.frnd d a rc) := by
  intro hf w hw
  obtain ⟨hf, h2⟩ := and_both hf
  obtain ⟨hf, h1⟩ := and_both hf
  have hw := Option.some.inj hw
  obtain ⟨wl, wh, wo, ws, f0, f1, f2, f3⟩ := fields_23_16_15_8_2_0 (hi := 6) (lo := 8) hw rfl (by decide) (by decide) (Opnd.toNat_lt d hf) (Opnd.toNat_lt a h1) (of_decide_eq_true h2)
  refine ⟨wl, (team_6 wh wo).trans ?_⟩
  dsimp only [decodeTeam6]
  simp only [f0, f1, f2, f3, Opnd.ofNat_toNat d hf, Opnd.ofNat_toNat a h1, whenZero, decide_true, if_true]

theorem ftoi (d : Opnd) (a : Opnd) (u : Bool) : Statement (.ftoi d a u) := by
  intro hf w hw
  obtain ⟨hf, h1⟩ := and_both hf
  have hw := Option.some.inj hw
  obtain ⟨wl, wh, wo, ws, f0, f1, f2, f3⟩ := fields_23_16_15_8_0_0 (hi := 6) (lo := 9) hw rfl (by decide) (by decide) (Opnd.toNat_lt d hf) (Opnd.toNat_lt a h1) (bitOf_lt u)
  refine ⟨wl, (team_6 wh wo).trans ?_⟩
  dsimp only [decodeTeam6]
  simp only [f0, f1, f2, f3, Opnd.ofNat_toNat d hf, Opnd.ofNat_toNat a h1, decide_bitOf u, whenZero, decide_true, if_true]

theorem itof (d : Opnd) (a : Opnd) (u : Bool) : Statement (.itof d a u) := by
  intro hf w hw
  obtain ⟨hf, h1⟩ := and_both hf
  have hw := Option.some.inj hw
  obtain ⟨wl, wh, wo, ws, f0, f1, f2, f3⟩ := fields_23_16_15_8_0_0 (hi := 6) (lo := 10) hw rfl (by decide) (by decide) (Opnd.toNat_lt d hf) (Opnd.toNat_lt a h1) (bitOf_lt u)
  refine ⟨wl, (team_6 wh wo).trans ?_⟩
  dsimp only [decodeTeam6]
  simp only [f0, f1, f2, f3, Opnd.ofNat_toNat d hf, Opnd.ofNat_toNat a h1, decide_bitOf u, whenZero, decide_true, if_true]

theorem cvt (d : Opnd) (a : Opnd) (p : Nat) (fs : Nat) : Statement (.cvt d a p fs) := by
  intro hf w hw
  obtain ⟨hf, h3⟩ := and_both hf
  obtain ⟨hf, h2⟩ := and_both hf
  obtain ⟨hf, h1⟩ := and_both hf
  have hw := Option.some.inj hw
  obtain ⟨wl, wh, wo, ws, f0, f1, f2, f3, f4⟩ := fields_23_16_15_8_5_3_2_0 (hi := 6) (lo := 11) hw rfl (by decide) (by decide) (Opnd.toNat_lt d hf) (Opnd.toNat_lt a h1) (of_decide_eq_true h2) (of_decide_eq_true h3)
  refine ⟨wl, (team_6 wh wo).trans ?_⟩
  dsimp only [decodeTeam6]
  simp only [f0, f1, f2, f3, f4, Opnd.ofNat_toNat d hf, Opnd.ofNat_toNat a h1, whenZero, decide_true, if_true]

theorem cvtf (d : Opnd) (a : Opnd) (t : Nat) : Statement (.cvtf d a t) := by
  intro hf w hw
  obtain ⟨hf, h2⟩ := and_both hf
  obtain ⟨hf, h1⟩ := and_both hf
  have hw := Option.some.inj hw
  obtain ⟨wl, wh, wo, ws, f0, f1, f2, f3⟩ := fields_23_16_15_8_3_0 (hi := 6) (lo := 12) hw rfl (by decide) (by decide) (Opnd.toNat_lt d hf) (Opnd.toNat_lt a h1) (of_decide_eq_true h2)
  refine ⟨wl, (team_6 wh wo).trans ?_⟩
  dsimp only [decodeTeam6]
  simp only [f0, f1, f2, f3, Opnd.ofNat_toNat d hf, Opnd.ofNat_toNat a h1, whenZero, decide_true, if_true]

theorem pack (d : Opnd) (a : Opnd) (b : Opnd) : Statement (.pack d a b) := by
  intro hf w hw
  obtain ⟨hf, h2⟩ := and_both hf
  obtain ⟨hf, h1⟩ := and_both hf
  have hw := Option.some.inj hw
  obtain ⟨wl, wh, wo, ws, f0, f1, f2⟩ := fields_23_16_15_8_7_0 (hi := 6) (lo := 13) hw rfl (by decide) (by decide) (Opnd.toNat_lt d hf) (Opnd.toNat_lt a h1) (Opnd.toNat_lt b h2)
  refine ⟨wl, (team_6 wh wo).trans ?_⟩
  dsimp only [decodeTeam6]
  simp only [f0, f1, f2, Opnd.ofNat_toNat d hf, Opnd.ofNat_toNat a h1, Opnd.ofNat_toNat b h2]

theorem unpk (d : Opnd) (a : Opnd) (p : Nat) : Statement (.unpk d a p) := by
  intro hf w hw
  obtain ⟨hf, h2⟩ := and_both hf
  obtain ⟨hf, h1⟩ := and_both hf
  have hw := Option.some.inj hw
  obtain ⟨wl, wh, wo, ws, f0, f1, f2, f3⟩ := fields_23_16_15_8_2_0 (hi := 6) (lo := 14) hw rfl (by decide) (by decide) (Opnd.toNat_lt d hf) (Opnd.toNat_lt a h1) (of_decide_eq_true h2)
  refine ⟨wl, (team_6 wh wo).trans ?_⟩
  dsimp only [decodeTeam6]
  simp only [f0, f1, f2, f3, Opnd.ofNat_toNat d hf, Opnd.ofNat_toNat a h1, whenZero, decide_true, if_true]

theorem fscl (d : Opnd) (a : Opnd) (b : Opnd) : Statement (.fscl d a b) := by
  intro hf w hw
  obtain ⟨hf, h2⟩ := and_both hf
  obtain ⟨hf, h1⟩ := and_both hf
  have hw := Option.some.inj hw
  obtain ⟨wl, wh, wo, ws, f0, f1, f2⟩ := fields_23_16_15_8_7_0 (hi := 6) (lo := 15) hw rfl (by decide) (by decide) (Opnd.toNat_lt d hf) (Opnd.toNat_lt a h1) (Opnd.toNat_lt b h2)
  refine ⟨wl, (team_6 wh wo).trans ?_⟩
  dsimp only [decodeTeam6]
  simp only [f0, f1, f2, Opnd.ofNat_toNat d hf, Opnd.ofNat_toNat a h1, Opnd.ofNat_toNat b h2]

theorem cblk (d : Opnd) (a : Opnd) (fs : Nat) : Statement (.cblk d a fs) := by
  intro hf w hw
  obtain ⟨hf, h2⟩ := and_both hf
  obtain ⟨hf, h1⟩ := and_both hf
  have hw := Option.some.inj hw
  obtain ⟨wl, wh, wo, ws, f0, f1, f2, f3⟩ := fields_23_16_15_8_2_0 (hi := 7) (lo := 0) hw rfl (by decide) (by decide) (Opnd.toNat_lt d hf) (Opnd.toNat_lt a h1) (of_decide_eq_true h2)
  refine ⟨wl, (team_7 wh wo).trans ?_⟩
  dsimp only [decodeTeam7]
  simp only [f0, f1, f2, f3, Opnd.ofNat_toNat d hf, Opnd.ofNat_toNat a h1, whenZero, decide_true, if_true]

theorem qnt (d : Opnd) (a : Opnd) (p : Nat) (fs : Nat) : Statement (.qnt d a p fs) := by
  intro hf w hw
  obtain ⟨hf, h3⟩ := and_both hf
  obtain ⟨hf, h2⟩ := and_both hf
  obtain ⟨hf, h1⟩ := and_both hf
  have hw := Option.some.inj hw
  obtain ⟨wl, wh, wo, ws, f0, f1, f2, f3, f4⟩ := fields_23_16_15_8_5_3_2_0 (hi := 7) (lo := 1) hw rfl (by decide) (by decide) (Opnd.toNat_lt d hf) (Opnd.toNat_lt a h1) (of_decide_eq_true h2) (of_decide_eq_true h3)
  refine ⟨wl, (team_7 wh wo).trans ?_⟩
  dsimp only [decodeTeam7]
  simp only [f0, f1, f2, f3, f4, Opnd.ofNat_toNat d hf, Opnd.ofNat_toNat a h1, whenZero, decide_true, if_true]

theorem dqnt (d : Opnd) (a : Opnd) (p : Nat) (fs : Nat) : Statement (.dqnt d a p fs) := by
  intro hf w hw
  obtain ⟨hf, h3⟩ := and_both hf
  obtain ⟨hf, h2⟩ := and_both hf
  obtain ⟨hf, h1⟩ := and_both hf
  have hw := Option.some.inj hw
  obtain ⟨wl, wh, wo, ws, f0, f1, f2, f3, f4⟩ := fields_23_16_15_8_5_3_2_0 (hi := 7) (lo := 2) hw rfl (by decide) (by decide) (Opnd.toNat_lt d hf) (Opnd.toNat_lt a h1) (of_decide_eq_true h2) (of_decide_eq_true h3)
  refine ⟨wl, (team_7 wh wo).trans ?_⟩
  dsimp only [decodeTeam7]
  simp only [f0, f1, f2, f3, f4, Opnd.ofNat_toNat d hf, Opnd.ofNat_toNat a h1, whenZero, decide_true, if_true]

theorem cblu (d : Opnd) (a : Opnd) (h : Bool) (fs : Nat) : Statement (.cblu d a h fs) := by
  intro hf w hw
  obtain ⟨hf, h2⟩ := and_both hf
  obtain ⟨hf, h1⟩ := and_both hf
  have hw := Option.some.inj hw
  obtain ⟨wl, wh, wo, ws, f0, f1, f2, f3, f4⟩ := fields_23_16_15_8_3_3_2_0 (hi := 7) (lo := 3) hw rfl (by decide) (by decide) (Opnd.toNat_lt d hf) (Opnd.toNat_lt a h1) (bitOf_lt h) (of_decide_eq_true h2)
  refine ⟨wl, (team_7 wh wo).trans ?_⟩
  dsimp only [decodeTeam7]
  simp only [f0, f1, f2, f3, f4, Opnd.ofNat_toNat d hf, Opnd.ofNat_toNat a h1, decide_bitOf h, whenZero, decide_true, if_true]

theorem fdot2 (d : Opnd) (a : Opnd) (b : Opnd) : Statement (.fdot2 d a b) := by
  intro hf w hw
  obtain ⟨hf, h2⟩ := and_both hf
  obtain ⟨hf, h1⟩ := and_both hf
  have hw := Option.some.inj hw
  obtain ⟨wl, wh, wo, ws, f0, f1, f2⟩ := fields_23_16_15_8_7_0 (hi := 7) (lo := 4) hw rfl (by decide) (by decide) (Opnd.toNat_lt d hf) (Opnd.toNat_lt a h1) (Opnd.toNat_lt b h2)
  refine ⟨wl, (team_7 wh wo).trans ?_⟩
  dsimp only [decodeTeam7]
  simp only [f0, f1, f2, Opnd.ofNat_toNat d hf, Opnd.ofNat_toNat a h1, Opnd.ofNat_toNat b h2]

theorem fdot4 (d : Opnd) (a : Opnd) (b : Opnd) : Statement (.fdot4 d a b) := by
  intro hf w hw
  obtain ⟨hf, h2⟩ := and_both hf
  obtain ⟨hf, h1⟩ := and_both hf
  have hw := Option.some.inj hw
  obtain ⟨wl, wh, wo, ws, f0, f1, f2⟩ := fields_23_16_15_8_7_0 (hi := 7) (lo := 5) hw rfl (by decide) (by decide) (Opnd.toNat_lt d hf) (Opnd.toNat_lt a h1) (Opnd.toNat_lt b h2)
  refine ⟨wl, (team_7 wh wo).trans ?_⟩
  dsimp only [decodeTeam7]
  simp only [f0, f1, f2, Opnd.ofNat_toNat d hf, Opnd.ofNat_toNat a h1, Opnd.ofNat_toNat b h2]

theorem shfl (d : Opnd) (a : Opnd) (b : Opnd) : Statement (.shfl d a b) := by
  intro hf w hw
  obtain ⟨hf, h2⟩ := and_both hf
  obtain ⟨hf, h1⟩ := and_both hf
  have hw := Option.some.inj hw
  obtain ⟨wl, wh, wo, ws, f0, f1, f2⟩ := fields_23_16_15_8_7_0 (hi := 8) (lo := 0) hw rfl (by decide) (by decide) (Opnd.toNat_lt d hf) (Opnd.toNat_lt a h1) (Opnd.toNat_lt b h2)
  refine ⟨wl, (team_8 wh wo).trans ?_⟩
  dsimp only [decodeTeam8]
  simp only [f0, f1, f2, Opnd.ofNat_toNat d hf, Opnd.ofNat_toNat a h1, Opnd.ofNat_toNat b h2]

theorem shflx (d : Opnd) (a : Opnd) (imm : Nat) : Statement (.shflx d a imm) := by
  intro hf w hw
  obtain ⟨hf, h2⟩ := and_both hf
  obtain ⟨hf, h1⟩ := and_both hf
  have hw := Option.some.inj hw
  obtain ⟨wl, wh, wo, ws, f0, f1, f2⟩ := fields_23_16_15_8_7_0 (hi := 8) (lo := 1) hw rfl (by decide) (by decide) (Opnd.toNat_lt d hf) (Opnd.toNat_lt a h1) (of_decide_eq_true h2)
  refine ⟨wl, (team_8 wh wo).trans ?_⟩
  dsimp only [decodeTeam8]
  simp only [f0, f1, f2, Opnd.ofNat_toNat d hf, Opnd.ofNat_toNat a h1]

theorem shflu (d : Opnd) (a : Opnd) (imm : Nat) : Statement (.shflu d a imm) := by
  intro hf w hw
  obtain ⟨hf, h2⟩ := and_both hf
  obtain ⟨hf, h1⟩ := and_both hf
  have hw := Option.some.inj hw
  obtain ⟨wl, wh, wo, ws, f0, f1, f2⟩ := fields_23_16_15_8_7_0 (hi := 8) (lo := 2) hw rfl (by decide) (by decide) (Opnd.toNat_lt d hf) (Opnd.toNat_lt a h1) (of_decide_eq_true h2)
  refine ⟨wl, (team_8 wh wo).trans ?_⟩
  dsimp only [decodeTeam8]
  simp only [f0, f1, f2, Opnd.ofNat_toNat d hf, Opnd.ofNat_toNat a h1]

theorem shfld (d : Opnd) (a : Opnd) (imm : Nat) : Statement (.shfld d a imm) := by
  intro hf w hw
  obtain ⟨hf, h2⟩ := and_both hf
  obtain ⟨hf, h1⟩ := and_both hf
  have hw := Option.some.inj hw
  obtain ⟨wl, wh, wo, ws, f0, f1, f2⟩ := fields_23_16_15_8_7_0 (hi := 8) (lo := 3) hw rfl (by decide) (by decide) (Opnd.toNat_lt d hf) (Opnd.toNat_lt a h1) (of_decide_eq_true h2)
  refine ⟨wl, (team_8 wh wo).trans ?_⟩
  dsimp only [decodeTeam8]
  simp only [f0, f1, f2, Opnd.ofNat_toNat d hf, Opnd.ofNat_toNat a h1]

theorem bcst (d : Opnd) (a : Opnd) (b : Opnd) : Statement (.bcst d a b) := by
  intro hf w hw
  obtain ⟨hf, h2⟩ := and_both hf
  obtain ⟨hf, h1⟩ := and_both hf
  have hw := Option.some.inj hw
  obtain ⟨wl, wh, wo, ws, f0, f1, f2⟩ := fields_23_16_15_8_7_0 (hi := 8) (lo := 4) hw rfl (by decide) (by decide) (Opnd.toNat_lt d hf) (Opnd.toNat_lt a h1) (Opnd.toNat_lt b h2)
  refine ⟨wl, (team_8 wh wo).trans ?_⟩
  dsimp only [decodeTeam8]
  simp only [f0, f1, f2, Opnd.ofNat_toNat d hf, Opnd.ofNat_toNat a h1, Opnd.ofNat_toNat b h2]

theorem vany (d : Opnd) (a : Opnd) : Statement (.vany d a) := by
  intro hf w hw
  obtain ⟨hf, h1⟩ := and_both hf
  have hw := Option.some.inj hw
  obtain ⟨wl, wh, wo, ws, f0, f1, f2⟩ := fields_23_16_15_8 (hi := 8) (lo := 5) hw rfl (by decide) (by decide) (Opnd.toNat_lt d hf) (Opnd.toNat_lt a h1)
  refine ⟨wl, (team_8 wh wo).trans ?_⟩
  dsimp only [decodeTeam8]
  simp only [f0, f1, f2, Opnd.ofNat_toNat d hf, Opnd.ofNat_toNat a h1, whenZero, decide_true, if_true]

theorem vall (d : Opnd) (a : Opnd) : Statement (.vall d a) := by
  intro hf w hw
  obtain ⟨hf, h1⟩ := and_both hf
  have hw := Option.some.inj hw
  obtain ⟨wl, wh, wo, ws, f0, f1, f2⟩ := fields_23_16_15_8 (hi := 8) (lo := 6) hw rfl (by decide) (by decide) (Opnd.toNat_lt d hf) (Opnd.toNat_lt a h1)
  refine ⟨wl, (team_8 wh wo).trans ?_⟩
  dsimp only [decodeTeam8]
  simp only [f0, f1, f2, Opnd.ofNat_toNat d hf, Opnd.ofNat_toNat a h1, whenZero, decide_true, if_true]

theorem vbal (d : Opnd) (a : Opnd) : Statement (.vbal d a) := by
  intro hf w hw
  obtain ⟨hf, h1⟩ := and_both hf
  have hw := Option.some.inj hw
  obtain ⟨wl, wh, wo, ws, f0, f1, f2⟩ := fields_23_16_15_8 (hi := 8) (lo := 7) hw rfl (by decide) (by decide) (Opnd.toNat_lt d hf) (Opnd.toNat_lt a h1)
  refine ⟨wl, (team_8 wh wo).trans ?_⟩
  dsimp only [decodeTeam8]
  simp only [f0, f1, f2, Opnd.ofNat_toNat d hf, Opnd.ofNat_toNat a h1, whenZero, decide_true, if_true]

theorem red (d : Opnd) (a : Opnd) (op : Nat) : Statement (.red d a op) := by
  intro hf w hw
  obtain ⟨hf, h2⟩ := and_both hf
  obtain ⟨hf, h1⟩ := and_both hf
  have hw := Option.some.inj hw
  obtain ⟨wl, wh, wo, ws, f0, f1, f2, f3⟩ := fields_23_16_15_8_3_0 (hi := 8) (lo := 8) hw rfl (by decide) (by decide) (Opnd.toNat_lt d hf) (Opnd.toNat_lt a h1) (of_decide_eq_true h2)
  refine ⟨wl, (team_8 wh wo).trans ?_⟩
  dsimp only [decodeTeam8]
  simp only [f0, f1, f2, f3, Opnd.ofNat_toNat d hf, Opnd.ofNat_toNat a h1, whenZero, decide_true, if_true]

theorem scan (d : Opnd) (a : Opnd) (x : Bool) (op : Nat) : Statement (.scan d a x op) := by
  intro hf w hw
  obtain ⟨hf, h2⟩ := and_both hf
  obtain ⟨hf, h1⟩ := and_both hf
  have hw := Option.some.inj hw
  obtain ⟨wl, wh, wo, ws, f0, f1, f2, f3, f4⟩ := fields_23_16_15_8_4_4_3_0 (hi := 8) (lo := 9) hw rfl (by decide) (by decide) (Opnd.toNat_lt d hf) (Opnd.toNat_lt a h1) (bitOf_lt x) (of_decide_eq_true h2)
  refine ⟨wl, (team_8 wh wo).trans ?_⟩
  dsimp only [decodeTeam8]
  simp only [f0, f1, f2, f3, f4, Opnd.ofNat_toNat d hf, Opnd.ofNat_toNat a h1, decide_bitOf x, whenZero, decide_true, if_true]

theorem matchLanes (d : Opnd) (a : Opnd) : Statement (.matchLanes d a) := by
  intro hf w hw
  obtain ⟨hf, h1⟩ := and_both hf
  have hw := Option.some.inj hw
  obtain ⟨wl, wh, wo, ws, f0, f1, f2⟩ := fields_23_16_15_8 (hi := 8) (lo := 10) hw rfl (by decide) (by decide) (Opnd.toNat_lt d hf) (Opnd.toNat_lt a h1)
  refine ⟨wl, (team_8 wh wo).trans ?_⟩
  dsimp only [decodeTeam8]
  simp only [f0, f1, f2, Opnd.ofNat_toNat d hf, Opnd.ofNat_toNat a h1, whenZero, decide_true, if_true]

theorem rdln (d : Opnd) (a : Opnd) (b : Opnd) : Statement (.rdln d a b) := by
  intro hf w hw
  obtain ⟨hf, h2⟩ := and_both hf
  obtain ⟨hf, h1⟩ := and_both hf
  have hw := Option.some.inj hw
  obtain ⟨wl, wh, wo, ws, f0, f1, f2⟩ := fields_23_16_15_8_7_0 (hi := 8) (lo := 11) hw rfl (by decide) (by decide) (Opnd.toNat_lt d hf) (Opnd.toNat_lt a h1) (Opnd.toNat_lt b h2)
  refine ⟨wl, (team_8 wh wo).trans ?_⟩
  dsimp only [decodeTeam8]
  simp only [f0, f1, f2, Opnd.ofNat_toNat d hf, Opnd.ofNat_toNat a h1, Opnd.ofNat_toNat b h2]

theorem wrln (d : Opnd) (a : Opnd) (b : Opnd) : Statement (.wrln d a b) := by
  intro hf w hw
  obtain ⟨hf, h2⟩ := and_both hf
  obtain ⟨hf, h1⟩ := and_both hf
  have hw := Option.some.inj hw
  obtain ⟨wl, wh, wo, ws, f0, f1, f2⟩ := fields_23_16_15_8_7_0 (hi := 8) (lo := 12) hw rfl (by decide) (by decide) (Opnd.toNat_lt d hf) (Opnd.toNat_lt a h1) (Opnd.toNat_lt b h2)
  refine ⟨wl, (team_8 wh wo).trans ?_⟩
  dsimp only [decodeTeam8]
  simp only [f0, f1, f2, Opnd.ofNat_toNat d hf, Opnd.ofNat_toNat a h1, Opnd.ofNat_toNat b h2]

theorem ld (d : Opnd) (a : Opnd) (la : Nat) (sx : Bool) (sz : Nat) : Statement (.ld d a la sx sz) := by
  intro hf w hw
  obtain ⟨hf, h3⟩ := and_both hf
  obtain ⟨hf, h2⟩ := and_both hf
  obtain ⟨hf, h1⟩ := and_both hf
  have hw := Option.some.inj hw
  obtain ⟨wl, wh, wo, ws, f0, f1, f2, f3, f4, f5⟩ := fields_23_16_15_8_7_4_2_2_1_0 (hi := 9) (lo := 0) hw rfl (by decide) (by decide) (Opnd.toNat_lt d hf) (Opnd.toNat_lt a h1) (of_decide_eq_true h2) (bitOf_lt sx) (of_decide_eq_true h3)
  refine ⟨wl, (team_9 wh wo).trans ?_⟩
  dsimp only [decodeTeam9]
  simp only [f0, f1, f2, f3, f4, f5, Opnd.ofNat_toNat d hf, Opnd.ofNat_toNat a h1, decide_bitOf sx, whenZero, decide_true, if_true]

theorem st (sz : Nat) (a : Opnd) (b : Opnd) : Statement (.st sz a b) := by
  intro hf w hw
  obtain ⟨hf, h2⟩ := and_both hf
  obtain ⟨hf, h1⟩ := and_both hf
  have hw := Option.some.inj hw
  obtain ⟨wl, wh, wo, ws, f0, f1, f2, f3⟩ := fields_17_16_15_8_7_0 (hi := 9) (lo := 1) hw rfl (by decide) (by decide) (of_decide_eq_true hf) (Opnd.toNat_lt a h1) (Opnd.toNat_lt b h2)
  refine ⟨wl, (team_9 wh wo).trans ?_⟩
  dsimp only [decodeTeam9]
  simp only [f0, f1, f2, f3, Opnd.ofNat_toNat a h1, Opnd.ofNat_toNat b h2, whenZero, decide_true, if_true]

theorem lds (d : Opnd) (a : Opnd) (la : Nat) (sx : Bool) (sz : Nat) : Statement (.lds d a la sx sz) := by
  intro hf w hw
  obtain ⟨hf, h3⟩ := and_both hf
  obtain ⟨hf, h2⟩ := and_both hf
  obtain ⟨hf, h1⟩ := and_both hf
  have hw := Option.some.inj hw
  obtain ⟨wl, wh, wo, ws, f0, f1, f2, f3, f4, f5⟩ := fields_23_16_15_8_7_4_2_2_1_0 (hi := 9) (lo := 2) hw rfl (by decide) (by decide) (Opnd.toNat_lt d hf) (Opnd.toNat_lt a h1) (of_decide_eq_true h2) (bitOf_lt sx) (of_decide_eq_true h3)
  refine ⟨wl, (team_9 wh wo).trans ?_⟩
  dsimp only [decodeTeam9]
  simp only [f0, f1, f2, f3, f4, f5, Opnd.ofNat_toNat d hf, Opnd.ofNat_toNat a h1, decide_bitOf sx, whenZero, decide_true, if_true]

theorem sts (sz : Nat) (a : Opnd) (b : Opnd) : Statement (.sts sz a b) := by
  intro hf w hw
  obtain ⟨hf, h2⟩ := and_both hf
  obtain ⟨hf, h1⟩ := and_both hf
  have hw := Option.some.inj hw
  obtain ⟨wl, wh, wo, ws, f0, f1, f2, f3⟩ := fields_17_16_15_8_7_0 (hi := 9) (lo := 3) hw rfl (by decide) (by decide) (of_decide_eq_true hf) (Opnd.toNat_lt a h1) (Opnd.toNat_lt b h2)
  refine ⟨wl, (team_9 wh wo).trans ?_⟩
  dsimp only [decodeTeam9]
  simp only [f0, f1, f2, f3, Opnd.ofNat_toNat a h1, Opnd.ofNat_toNat b h2, whenZero, decide_true, if_true]

theorem lda (d : Opnd) (a : Opnd) (la : Nat) (rmk : Bool) (sc : Nat) : Statement (.lda d a la rmk sc) := by
  intro hf w hw
  obtain ⟨hf, h3⟩ := and_both hf
  obtain ⟨hf, h2⟩ := and_both hf
  obtain ⟨hf, h1⟩ := and_both hf
  have hw := Option.some.inj hw
  obtain ⟨wl, wh, wo, ws, f0, f1, f2, f3, f4⟩ := fields_23_16_15_8_7_4_3_3_2_0 (hi := 9) (lo := 4) hw rfl (by decide) (by decide) (Opnd.toNat_lt d hf) (Opnd.toNat_lt a h1) (of_decide_eq_true h2) (bitOf_lt rmk) (of_decide_eq_true h3)
  refine ⟨wl, (team_9 wh wo).trans ?_⟩
  dsimp only [decodeTeam9]
  simp only [f0, f1, f2, f3, f4, Opnd.ofNat_toNat d hf, Opnd.ofNat_toNat a h1, decide_bitOf rmk]

theorem stl (z : Bool) (sc : Nat) (a : Opnd) (b : Opnd) : Statement (.stl z sc a b) := by
  intro hf w hw
  obtain ⟨hf, h2⟩ := and_both hf
  obtain ⟨hf, h1⟩ := and_both hf
  have hw := Option.some.inj hw
  obtain ⟨wl, wh, wo, ws, f0, f1, f2, f3, f4⟩ := fields_19_19_18_16_15_8_7_0 (hi := 9) (lo := 5) hw rfl (by decide) (by decide) (bitOf_lt z) (of_decide_eq_true hf) (Opnd.toNat_lt a h1) (Opnd.toNat_lt b h2)
  refine ⟨wl, (team_9 wh wo).trans ?_⟩
  dsimp only [decodeTeam9]
  simp only [f0, f1, f2, f3, f4, decide_bitOf z, Opnd.ofNat_toNat a h1, Opnd.ofNat_toNat b h2, whenZero, decide_true, if_true]

theorem ldnc (d : Opnd) (a : Opnd) (la : Nat) (sx : Bool) (sz : Nat) : Statement (.ldnc d a la sx sz) := by
  intro hf w hw
  obtain ⟨hf, h3⟩ := and_both hf
  obtain ⟨hf, h2⟩ := and_both hf
  obtain ⟨hf, h1⟩ := and_both hf
  have hw := Option.some.inj hw
  obtain ⟨wl, wh, wo, ws, f0, f1, f2, f3, f4, f5⟩ := fields_23_16_15_8_7_4_2_2_1_0 (hi := 9) (lo := 6) hw rfl (by decide) (by decide) (Opnd.toNat_lt d hf) (Opnd.toNat_lt a h1) (of_decide_eq_true h2) (bitOf_lt sx) (of_decide_eq_true h3)
  refine ⟨wl, (team_9 wh wo).trans ?_⟩
  dsimp only [decodeTeam9]
  simp only [f0, f1, f2, f3, f4, f5, Opnd.ofNat_toNat d hf, Opnd.ofNat_toNat a h1, decide_bitOf sx, whenZero, decide_true, if_true]

theorem pref (lv : Nat) (a : Opnd) : Statement (.pref lv a) := by
  intro hf w hw
  obtain ⟨hf, h1⟩ := and_both hf
  have hw := Option.some.inj hw
  obtain ⟨wl, wh, wo, ws, f0, f1, f2, f3⟩ := fields_17_16_15_8 (hi := 9) (lo := 7) hw rfl (by decide) (by decide) (of_decide_eq_true hf) (Opnd.toNat_lt a h1)
  refine ⟨wl, (team_9 wh wo).trans ?_⟩
  dsimp only [decodeTeam9]
  simp only [f0, f1, f2, f3, Opnd.ofNat_toNat a h1, whenZero, decide_true, Bool.and_true, if_true]

theorem aadd (d : Opnd) (a : Opnd) (b : Opnd) : Statement (.aadd d a b) := by
  intro hf w hw
  obtain ⟨hf, h2⟩ := and_both hf
  obtain ⟨hf, h1⟩ := and_both hf
  have hw := Option.some.inj hw
  obtain ⟨wl, wh, wo, ws, f0, f1, f2⟩ := fields_23_16_15_8_7_0 (hi := 9) (lo := 8) hw rfl (by decide) (by decide) (Opnd.toNat_lt d hf) (Opnd.toNat_lt a h1) (Opnd.toNat_lt b h2)
  refine ⟨wl, (team_9 wh wo).trans ?_⟩
  dsimp only [decodeTeam9]
  simp only [f0, f1, f2, Opnd.ofNat_toNat d hf, Opnd.ofNat_toNat a h1, Opnd.ofNat_toNat b h2]

theorem amin (d : Opnd) (a : Opnd) (b : Opnd) : Statement (.amin d a b) := by
  intro hf w hw
  obtain ⟨hf, h2⟩ := and_both hf
  obtain ⟨hf, h1⟩ := and_both hf
  have hw := Option.some.inj hw
  obtain ⟨wl, wh, wo, ws, f0, f1, f2⟩ := fields_23_16_15_8_7_0 (hi := 9) (lo := 9) hw rfl (by decide) (by decide) (Opnd.toNat_lt d hf) (Opnd.toNat_lt a h1) (Opnd.toNat_lt b h2)
  refine ⟨wl, (team_9 wh wo).trans ?_⟩
  dsimp only [decodeTeam9]
  simp only [f0, f1, f2, Opnd.ofNat_toNat d hf, Opnd.ofNat_toNat a h1, Opnd.ofNat_toNat b h2]

theorem amax (d : Opnd) (a : Opnd) (b : Opnd) : Statement (.amax d a b) := by
  intro hf w hw
  obtain ⟨hf, h2⟩ := and_both hf
  obtain ⟨hf, h1⟩ := and_both hf
  have hw := Option.some.inj hw
  obtain ⟨wl, wh, wo, ws, f0, f1, f2⟩ := fields_23_16_15_8_7_0 (hi := 9) (lo := 10) hw rfl (by decide) (by decide) (Opnd.toNat_lt d hf) (Opnd.toNat_lt a h1) (Opnd.toNat_lt b h2)
  refine ⟨wl, (team_9 wh wo).trans ?_⟩
  dsimp only [decodeTeam9]
  simp only [f0, f1, f2, Opnd.ofNat_toNat d hf, Opnd.ofNat_toNat a h1, Opnd.ofNat_toNat b h2]

theorem aand (d : Opnd) (a : Opnd) (b : Opnd) : Statement (.aand d a b) := by
  intro hf w hw
  obtain ⟨hf, h2⟩ := and_both hf
  obtain ⟨hf, h1⟩ := and_both hf
  have hw := Option.some.inj hw
  obtain ⟨wl, wh, wo, ws, f0, f1, f2⟩ := fields_23_16_15_8_7_0 (hi := 9) (lo := 11) hw rfl (by decide) (by decide) (Opnd.toNat_lt d hf) (Opnd.toNat_lt a h1) (Opnd.toNat_lt b h2)
  refine ⟨wl, (team_9 wh wo).trans ?_⟩
  dsimp only [decodeTeam9]
  simp only [f0, f1, f2, Opnd.ofNat_toNat d hf, Opnd.ofNat_toNat a h1, Opnd.ofNat_toNat b h2]

theorem aor (d : Opnd) (a : Opnd) (b : Opnd) : Statement (.aor d a b) := by
  intro hf w hw
  obtain ⟨hf, h2⟩ := and_both hf
  obtain ⟨hf, h1⟩ := and_both hf
  have hw := Option.some.inj hw
  obtain ⟨wl, wh, wo, ws, f0, f1, f2⟩ := fields_23_16_15_8_7_0 (hi := 9) (lo := 12) hw rfl (by decide) (by decide) (Opnd.toNat_lt d hf) (Opnd.toNat_lt a h1) (Opnd.toNat_lt b h2)
  refine ⟨wl, (team_9 wh wo).trans ?_⟩
  dsimp only [decodeTeam9]
  simp only [f0, f1, f2, Opnd.ofNat_toNat d hf, Opnd.ofNat_toNat a h1, Opnd.ofNat_toNat b h2]

theorem axor (d : Opnd) (a : Opnd) (b : Opnd) : Statement (.axor d a b) := by
  intro hf w hw
  obtain ⟨hf, h2⟩ := and_both hf
  obtain ⟨hf, h1⟩ := and_both hf
  have hw := Option.some.inj hw
  obtain ⟨wl, wh, wo, ws, f0, f1, f2⟩ := fields_23_16_15_8_7_0 (hi := 9) (lo := 13) hw rfl (by decide) (by decide) (Opnd.toNat_lt d hf) (Opnd.toNat_lt a h1) (Opnd.toNat_lt b h2)
  refine ⟨wl, (team_9 wh wo).trans ?_⟩
  dsimp only [decodeTeam9]
  simp only [f0, f1, f2, Opnd.ofNat_toNat d hf, Opnd.ofNat_toNat a h1, Opnd.ofNat_toNat b h2]

theorem axch (d : Opnd) (a : Opnd) (b : Opnd) : Statement (.axch d a b) := by
  intro hf w hw
  obtain ⟨hf, h2⟩ := and_both hf
  obtain ⟨hf, h1⟩ := and_both hf
  have hw := Option.some.inj hw
  obtain ⟨wl, wh, wo, ws, f0, f1, f2⟩ := fields_23_16_15_8_7_0 (hi := 9) (lo := 14) hw rfl (by decide) (by decide) (Opnd.toNat_lt d hf) (Opnd.toNat_lt a h1) (Opnd.toNat_lt b h2)
  refine ⟨wl, (team_9 wh wo).trans ?_⟩
  dsimp only [decodeTeam9]
  simp only [f0, f1, f2, Opnd.ofNat_toNat d hf, Opnd.ofNat_toNat a h1, Opnd.ofNat_toNat b h2]

theorem acas (d : Opnd) (a : Opnd) (b : Opnd) : Statement (.acas d a b) := by
  intro hf w hw
  obtain ⟨hf, h2⟩ := and_both hf
  obtain ⟨hf, h1⟩ := and_both hf
  have hw := Option.some.inj hw
  obtain ⟨wl, wh, wo, ws, f0, f1, f2⟩ := fields_23_16_15_8_7_0 (hi := 9) (lo := 15) hw rfl (by decide) (by decide) (Opnd.toNat_lt d hf) (Opnd.toNat_lt a h1) (Opnd.toNat_lt b h2)
  refine ⟨wl, (team_9 wh wo).trans ?_⟩
  dsimp only [decodeTeam9]
  simp only [f0, f1, f2, Opnd.ofNat_toNat d hf, Opnd.ofNat_toNat a h1, Opnd.ofNat_toNat b h2]

theorem afadd (d : Opnd) (a : Opnd) (b : Opnd) : Statement (.afadd d a b) := by
  intro hf w hw
  obtain ⟨hf, h2⟩ := and_both hf
  obtain ⟨hf, h1⟩ := and_both hf
  have hw := Option.some.inj hw
  obtain ⟨wl, wh, wo, ws, f0, f1, f2⟩ := fields_23_16_15_8_7_0 (hi := 10) (lo := 0) hw rfl (by decide) (by decide) (Opnd.toNat_lt d hf) (Opnd.toNat_lt a h1) (Opnd.toNat_lt b h2)
  refine ⟨wl, (team_a wh wo).trans ?_⟩
  dsimp only [decodeTeamA]
  simp only [f0, f1, f2, Opnd.ofNat_toNat d hf, Opnd.ofNat_toNat a h1, Opnd.ofNat_toNat b h2]

theorem fence (sc : Nat) (o : Nat) : Statement (.fence sc o) := by
  intro hf w hw
  obtain ⟨hf, h1⟩ := and_both hf
  have hw := Option.some.inj hw
  obtain ⟨wl, wh, wo, ws, f0, f1, f2⟩ := fields_4_2_1_0 (hi := 10) (lo := 1) hw rfl (by decide) (by decide) (of_decide_eq_true hf) (of_decide_eq_true h1)
  refine ⟨wl, (team_a wh wo).trans ?_⟩
  dsimp only [decodeTeamA]
  simp only [f0, f1, f2, whenZero, decide_true, if_true]

theorem stmap (r : Nat) (a : Opnd) (b : Opnd) : Statement (.stmap r a b) := by
  intro hf w hw
  obtain ⟨hf, h2⟩ := and_both hf
  obtain ⟨hf, h1⟩ := and_both hf
  have hw := Option.some.inj hw
  obtain ⟨wl, wh, wo, ws, f0, f1, f2, f3⟩ := fields_18_16_15_8_7_0 (hi := 10) (lo := 2) hw rfl (by decide) (by decide) (of_decide_eq_true hf) (Opnd.toNat_lt a h1) (Opnd.toNat_lt b h2)
  refine ⟨wl, (team_a wh wo).trans ?_⟩
  dsimp only [decodeTeamA]
  simp only [f0, f1, f2, f3, Opnd.ofNat_toNat a h1, Opnd.ofNat_toNat b h2, whenZero, decide_true, if_true]

theorem stunmap (r : Nat) : Statement (.stunmap r) := by
  intro hf w hw
  have hw := Option.some.inj hw
  obtain ⟨wl, wh, wo, ws, f0, f1, f2⟩ := fields_18_16 (hi := 10) (lo := 3) hw rfl (by decide) (by decide) (of_decide_eq_true hf)
  refine ⟨wl, (team_a wh wo).trans ?_⟩
  dsimp only [decodeTeamA]
  simp only [f0, f1, f2, whenZero, decide_true, Bool.and_true, if_true]

theorem stflush (r : Nat) : Statement (.stflush r) := by
  intro hf w hw
  have hw := Option.some.inj hw
  obtain ⟨wl, wh, wo, ws, f0, f1, f2⟩ := fields_18_16 (hi := 10) (lo := 4) hw rfl (by decide) (by decide) (of_decide_eq_true hf)
  refine ⟨wl, (team_a wh wo).trans ?_⟩
  dsimp only [decodeTeamA]
  simp only [f0, f1, f2, whenZero, decide_true, Bool.and_true, if_true]

theorem ldk (d : Opnd) (a : Opnd) (la : Nat) (rmk : Bool) (sc : Nat) : Statement (.ldk d a la rmk sc) := by
  intro hf w hw
  obtain ⟨hf, h3⟩ := and_both hf
  obtain ⟨hf, h2⟩ := and_both hf
  obtain ⟨hf, h1⟩ := and_both hf
  have hw := Option.some.inj hw
  obtain ⟨wl, wh, wo, ws, f0, f1, f2, f3, f4⟩ := fields_23_16_15_8_7_4_3_3_2_0 (hi := 10) (lo := 5) hw rfl (by decide) (by decide) (Opnd.toNat_lt d hf) (Opnd.toNat_lt a h1) (of_decide_eq_true h2) (bitOf_lt rmk) (of_decide_eq_true h3)
  refine ⟨wl, (team_a wh wo).trans ?_⟩
  dsimp only [decodeTeamA]
  simp only [f0, f1, f2, f3, f4, Opnd.ofNat_toNat d hf, Opnd.ofNat_toNat a h1, decide_bitOf rmk]

theorem stk (sc : Nat) (a : Opnd) (b : Opnd) : Statement (.stk sc a b) := by
  intro hf w hw
  obtain ⟨hf, h2⟩ := and_both hf
  obtain ⟨hf, h1⟩ := and_both hf
  have hw := Option.some.inj hw
  obtain ⟨wl, wh, wo, ws, f0, f1, f2, f3⟩ := fields_18_16_15_8_7_0 (hi := 10) (lo := 6) hw rfl (by decide) (by decide) (of_decide_eq_true hf) (Opnd.toNat_lt a h1) (Opnd.toNat_lt b h2)
  refine ⟨wl, (team_a wh wo).trans ?_⟩
  dsimp only [decodeTeamA]
  simp only [f0, f1, f2, f3, Opnd.ofNat_toNat a h1, Opnd.ofNat_toNat b h2, whenZero, decide_true, if_true]

theorem aaddk (d : Opnd) (a : Opnd) (b : Opnd) : Statement (.aaddk d a b) := by
  intro hf w hw
  obtain ⟨hf, h2⟩ := and_both hf
  obtain ⟨hf, h1⟩ := and_both hf
  have hw := Option.some.inj hw
  obtain ⟨wl, wh, wo, ws, f0, f1, f2⟩ := fields_23_16_15_8_7_0 (hi := 10) (lo := 7) hw rfl (by decide) (by decide) (Opnd.toNat_lt d hf) (Opnd.toNat_lt a h1) (Opnd.toNat_lt b h2)
  refine ⟨wl, (team_a wh wo).trans ?_⟩
  dsimp only [decodeTeamA]
  simp only [f0, f1, f2, Opnd.ofNat_toNat d hf, Opnd.ofNat_toNat a h1, Opnd.ofNat_toNat b h2]

theorem ldcw (d : Opnd) (a : Opnd) (la : Nat) (sx : Bool) (sz : Nat) : Statement (.ldcw d a la sx sz) := by
  intro hf w hw
  obtain ⟨hf, h3⟩ := and_both hf
  obtain ⟨hf, h2⟩ := and_both hf
  obtain ⟨hf, h1⟩ := and_both hf
  have hw := Option.some.inj hw
  obtain ⟨wl, wh, wo, ws, f0, f1, f2, f3, f4, f5⟩ := fields_23_16_15_8_7_4_2_2_1_0 (hi := 10) (lo := 8) hw rfl (by decide) (by decide) (Opnd.toNat_lt d hf) (Opnd.toNat_lt a h1) (of_decide_eq_true h2) (bitOf_lt sx) (of_decide_eq_true h3)
  refine ⟨wl, (team_a wh wo).trans ?_⟩
  dsimp only [decodeTeamA]
  simp only [f0, f1, f2, f3, f4, f5, Opnd.ofNat_toNat d hf, Opnd.ofNat_toNat a h1, decide_bitOf sx, whenZero, decide_true, if_true]

theorem bar : Statement .bar := by
  intro hf w hw
  have hw := Option.some.inj hw
  subst hw
  exact ⟨by decide, rfl⟩

theorem nbara (a : Opnd) (n : Nat) : Statement (.nbara a n) := by
  intro hf w hw
  obtain ⟨hf, h1⟩ := and_both hf
  have hw := Option.some.inj hw
  obtain ⟨wl, wh, wo, ws, f0, f1, f2, f3⟩ := fields_15_8_3_0 (hi := 11) (lo := 1) hw rfl (by decide) (by decide) (Opnd.toNat_lt a hf) (of_decide_eq_true h1)
  refine ⟨wl, (team_b wh wo).trans ?_⟩
  dsimp only [decodeTeamB]
  simp only [f0, f1, f2, f3, Opnd.ofNat_toNat a hf, whenZero, decide_true, Bool.and_true, if_true]

theorem nbarw (n : Nat) : Statement (.nbarw n) := by
  intro hf w hw
  have hw := Option.some.inj hw
  obtain ⟨wl, wh, wo, ws, f0, f1⟩ := fields_3_0 (hi := 11) (lo := 2) hw rfl (by decide) (by decide) (of_decide_eq_true hf)
  refine ⟨wl, (team_b wh wo).trans ?_⟩
  dsimp only [decodeTeamB]
  simp only [f0, f1, whenZero, decide_true, if_true]

theorem nbaraw (a : Opnd) (n : Nat) : Statement (.nbaraw a n) := by
  intro hf w hw
  obtain ⟨hf, h1⟩ := and_both hf
  have hw := Option.some.inj hw
  obtain ⟨wl, wh, wo, ws, f0, f1, f2, f3⟩ := fields_15_8_3_0 (hi := 11) (lo := 3) hw rfl (by decide) (by decide) (Opnd.toNat_lt a hf) (of_decide_eq_true h1)
  refine ⟨wl, (team_b wh wo).trans ?_⟩
  dsimp only [decodeTeamB]
  simp only [f0, f1, f2, f3, Opnd.ofNat_toNat a hf, whenZero, decide_true, Bool.and_true, if_true]

theorem waitc (cmp : Nat) (sc : Nat) (a : Opnd) (b : Opnd) : Statement (.waitc cmp sc a b) := by
  intro hf w hw
  obtain ⟨hf, h3⟩ := and_both hf
  obtain ⟨hf, h2⟩ := and_both hf
  obtain ⟨hf, h1⟩ := and_both hf
  have hw := Option.some.inj hw
  obtain ⟨wl, wh, wo, ws, f0, f1, f2, f3, f4⟩ := fields_20_19_18_16_15_8_7_0 (hi := 11) (lo := 4) hw rfl (by decide) (by decide) (of_decide_eq_true hf) (of_decide_eq_true h1) (Opnd.toNat_lt a h2) (Opnd.toNat_lt b h3)
  refine ⟨wl, (team_b wh wo).trans ?_⟩
  dsimp only [decodeTeamB]
  simp only [f0, f1, f2, f3, f4, Opnd.ofNat_toNat a h2, Opnd.ofNat_toNat b h3, whenZero, decide_true, if_true]

theorem waitb (sc : Nat) (a : Opnd) (b : Opnd) : Statement (.waitb sc a b) := by
  intro hf w hw
  obtain ⟨hf, h2⟩ := and_both hf
  obtain ⟨hf, h1⟩ := and_both hf
  have hw := Option.some.inj hw
  obtain ⟨wl, wh, wo, ws, f0, f1, f2, f3⟩ := fields_18_16_15_8_7_0 (hi := 11) (lo := 5) hw rfl (by decide) (by decide) (of_decide_eq_true hf) (Opnd.toNat_lt a h1) (Opnd.toNat_lt b h2)
  refine ⟨wl, (team_b wh wo).trans ?_⟩
  dsimp only [decodeTeamB]
  simp only [f0, f1, f2, f3, Opnd.ofNat_toNat a h1, Opnd.ofNat_toNat b h2, whenZero, decide_true, if_true]

theorem signal (sc : Nat) (a : Opnd) (b : Opnd) : Statement (.signal sc a b) := by
  intro hf w hw
  obtain ⟨hf, h2⟩ := and_both hf
  obtain ⟨hf, h1⟩ := and_both hf
  have hw := Option.some.inj hw
  obtain ⟨wl, wh, wo, ws, f0, f1, f2, f3⟩ := fields_18_16_15_8_7_0 (hi := 11) (lo := 6) hw rfl (by decide) (by decide) (of_decide_eq_true hf) (Opnd.toNat_lt a h1) (Opnd.toNat_lt b h2)
  refine ⟨wl, (team_b wh wo).trans ?_⟩
  dsimp only [decodeTeamB]
  simp only [f0, f1, f2, f3, Opnd.ofNat_toNat a h1, Opnd.ofNat_toNat b h2, whenZero, decide_true, if_true]

theorem waita (sc : Nat) : Statement (.waita sc) := by
  intro hf w hw
  have hw := Option.some.inj hw
  obtain ⟨wl, wh, wo, ws, f0, f1, f2⟩ := fields_18_16 (hi := 11) (lo := 8) hw rfl (by decide) (by decide) (of_decide_eq_true hf)
  refine ⟨wl, (team_b wh wo).trans ?_⟩
  dsimp only [decodeTeamB]
  simp only [f0, f1, f2, whenZero, decide_true, Bool.and_true, if_true]

theorem copy (d : Opnd) (a : Opnd) (b : Opnd) : Statement (.copy d a b) := by
  intro hf w hw
  obtain ⟨hf, h2⟩ := and_both hf
  obtain ⟨hf, h1⟩ := and_both hf
  have hw := Option.some.inj hw
  obtain ⟨wl, wh, wo, ws, f0, f1, f2⟩ := fields_23_16_15_8_7_0 (hi := 12) (lo := 0) hw rfl (by decide) (by decide) (Opnd.toNat_lt d hf) (Opnd.toNat_lt a h1) (Opnd.toNat_lt b h2)
  refine ⟨wl, (team_c wh wo).trans ?_⟩
  dsimp only [decodeTeamC]
  simp only [f0, f1, f2, Opnd.ofNat_toNat d hf, Opnd.ofNat_toNat a h1, Opnd.ofNat_toNat b h2]

theorem copy2d (d : Opnd) (a : Opnd) (b : Opnd) : Statement (.copy2d d a b) := by
  intro hf w hw
  obtain ⟨hf, h2⟩ := and_both hf
  obtain ⟨hf, h1⟩ := and_both hf
  have hw := Option.some.inj hw
  obtain ⟨wl, wh, wo, ws, f0, f1, f2⟩ := fields_23_16_15_8_7_0 (hi := 12) (lo := 1) hw rfl (by decide) (by decide) (Opnd.toNat_lt d hf) (Opnd.toNat_lt a h1) (Opnd.toNat_lt b h2)
  refine ⟨wl, (team_c wh wo).trans ?_⟩
  dsimp only [decodeTeamC]
  simp only [f0, f1, f2, Opnd.ofNat_toNat d hf, Opnd.ofNat_toNat a h1, Opnd.ofNat_toNat b h2]

theorem gath (d : Opnd) (a : Opnd) (b : Opnd) : Statement (.gath d a b) := by
  intro hf w hw
  obtain ⟨hf, h2⟩ := and_both hf
  obtain ⟨hf, h1⟩ := and_both hf
  have hw := Option.some.inj hw
  obtain ⟨wl, wh, wo, ws, f0, f1, f2⟩ := fields_23_16_15_8_7_0 (hi := 12) (lo := 2) hw rfl (by decide) (by decide) (Opnd.toNat_lt d hf) (Opnd.toNat_lt a h1) (Opnd.toNat_lt b h2)
  refine ⟨wl, (team_c wh wo).trans ?_⟩
  dsimp only [decodeTeamC]
  simp only [f0, f1, f2, Opnd.ofNat_toNat d hf, Opnd.ofNat_toNat a h1, Opnd.ofNat_toNat b h2]

theorem scat (d : Opnd) (a : Opnd) (b : Opnd) : Statement (.scat d a b) := by
  intro hf w hw
  obtain ⟨hf, h2⟩ := and_both hf
  obtain ⟨hf, h1⟩ := and_both hf
  have hw := Option.some.inj hw
  obtain ⟨wl, wh, wo, ws, f0, f1, f2⟩ := fields_23_16_15_8_7_0 (hi := 12) (lo := 3) hw rfl (by decide) (by decide) (Opnd.toNat_lt d hf) (Opnd.toNat_lt a h1) (Opnd.toNat_lt b h2)
  refine ⟨wl, (team_c wh wo).trans ?_⟩
  dsimp only [decodeTeamC]
  simp only [f0, f1, f2, Opnd.ofNat_toNat d hf, Opnd.ofNat_toNat a h1, Opnd.ofNat_toNat b h2]

theorem fill (d : Opnd) (a : Opnd) (b : Opnd) : Statement (.fill d a b) := by
  intro hf w hw
  obtain ⟨hf, h2⟩ := and_both hf
  obtain ⟨hf, h1⟩ := and_both hf
  have hw := Option.some.inj hw
  obtain ⟨wl, wh, wo, ws, f0, f1, f2⟩ := fields_23_16_15_8_7_0 (hi := 12) (lo := 4) hw rfl (by decide) (by decide) (Opnd.toNat_lt d hf) (Opnd.toNat_lt a h1) (Opnd.toNat_lt b h2)
  refine ⟨wl, (team_c wh wo).trans ?_⟩
  dsimp only [decodeTeamC]
  simp only [f0, f1, f2, Opnd.ofNat_toNat d hf, Opnd.ofNat_toNat a h1, Opnd.ofNat_toNat b h2]

theorem rcopy (d : Opnd) (a : Opnd) (b : Opnd) : Statement (.rcopy d a b) := by
  intro hf w hw
  obtain ⟨hf, h2⟩ := and_both hf
  obtain ⟨hf, h1⟩ := and_both hf
  have hw := Option.some.inj hw
  obtain ⟨wl, wh, wo, ws, f0, f1, f2⟩ := fields_23_16_15_8_7_0 (hi := 12) (lo := 5) hw rfl (by decide) (by decide) (Opnd.toNat_lt d hf) (Opnd.toNat_lt a h1) (Opnd.toNat_lt b h2)
  refine ⟨wl, (team_c wh wo).trans ?_⟩
  dsimp only [decodeTeamC]
  simp only [f0, f1, f2, Opnd.ofNat_toNat d hf, Opnd.ofNat_toNat a h1, Opnd.ofNat_toNat b h2]

theorem depn (d : Opnd) (a : Opnd) (b : Opnd) : Statement (.depn d a b) := by
  intro hf w hw
  obtain ⟨hf, h2⟩ := and_both hf
  obtain ⟨hf, h1⟩ := and_both hf
  have hw := Option.some.inj hw
  obtain ⟨wl, wh, wo, ws, f0, f1, f2⟩ := fields_23_16_15_8_7_0 (hi := 12) (lo := 6) hw rfl (by decide) (by decide) (Opnd.toNat_lt d hf) (Opnd.toNat_lt a h1) (Opnd.toNat_lt b h2)
  refine ⟨wl, (team_c wh wo).trans ?_⟩
  dsimp only [decodeTeamC]
  simp only [f0, f1, f2, Opnd.ofNat_toNat d hf, Opnd.ofNat_toNat a h1, Opnd.ofNat_toNat b h2]

theorem mstr (a : Opnd) : Statement (.mstr a) := by
  intro hf w hw
  have hw := Option.some.inj hw
  obtain ⟨wl, wh, wo, ws, f0, f1, f2⟩ := fields_15_8 (hi := 12) (lo := 7) hw rfl (by decide) (by decide) (Opnd.toNat_lt a hf)
  refine ⟨wl, (team_c wh wo).trans ?_⟩
  dsimp only [decodeTeamC]
  simp only [f0, f1, f2, Opnd.ofNat_toNat a hf, whenZero, decide_true, Bool.and_true, if_true]

theorem rput (d : Opnd) (a : Opnd) (b : Opnd) : Statement (.rput d a b) := by
  intro hf w hw
  obtain ⟨hf, h2⟩ := and_both hf
  obtain ⟨hf, h1⟩ := and_both hf
  have hw := Option.some.inj hw
  obtain ⟨wl, wh, wo, ws, f0, f1, f2⟩ := fields_23_16_15_8_7_0 (hi := 12) (lo := 8) hw rfl (by decide) (by decide) (Opnd.toNat_lt d hf) (Opnd.toNat_lt a h1) (Opnd.toNat_lt b h2)
  refine ⟨wl, (team_c wh wo).trans ?_⟩
  dsimp only [decodeTeamC]
  simp only [f0, f1, f2, Opnd.ofNat_toNat d hf, Opnd.ofNat_toNat a h1, Opnd.ofNat_toNat b h2]

theorem rget (d : Opnd) (a : Opnd) (b : Opnd) : Statement (.rget d a b) := by
  intro hf w hw
  obtain ⟨hf, h2⟩ := and_both hf
  obtain ⟨hf, h1⟩ := and_both hf
  have hw := Option.some.inj hw
  obtain ⟨wl, wh, wo, ws, f0, f1, f2⟩ := fields_23_16_15_8_7_0 (hi := 12) (lo := 9) hw rfl (by decide) (by decide) (Opnd.toNat_lt d hf) (Opnd.toNat_lt a h1) (Opnd.toNat_lt b h2)
  refine ⟨wl, (team_c wh wo).trans ?_⟩
  dsimp only [decodeTeamC]
  simp only [f0, f1, f2, Opnd.ofNat_toNat d hf, Opnd.ofNat_toNat a h1, Opnd.ofNat_toNat b h2]

theorem tspawn (d : Opnd) (a : Opnd) : Statement (.tspawn d a) := by
  intro hf w hw
  obtain ⟨hf, h1⟩ := and_both hf
  have hw := Option.some.inj hw
  obtain ⟨wl, wh, wo, ws, f0, f1, f2⟩ := fields_23_16_15_8 (hi := 13) (lo := 0) hw rfl (by decide) (by decide) (Opnd.toNat_lt d hf) (Opnd.toNat_lt a h1)
  refine ⟨wl, (team_d wh wo).trans ?_⟩
  dsimp only [decodeTeamD]
  simp only [f0, f1, f2, Opnd.ofNat_toNat d hf, Opnd.ofNat_toNat a h1, whenZero, decide_true, if_true]

theorem tnext : Statement .tnext := by
  intro hf w hw
  have hw := Option.some.inj hw
  subst hw
  exact ⟨by decide, rfl⟩

theorem tdone : Statement .tdone := by
  intro hf w hw
  have hw := Option.some.inj hw
  subst hw
  exact ⟨by decide, rfl⟩

theorem launch (a : Opnd) : Statement (.launch a) := by
  intro hf w hw
  have hw := Option.some.inj hw
  obtain ⟨wl, wh, wo, ws, f0, f1, f2⟩ := fields_15_8 (hi := 13) (lo := 3) hw rfl (by decide) (by decide) (Opnd.toNat_lt a hf)
  refine ⟨wl, (team_d wh wo).trans ?_⟩
  dsimp only [decodeTeamD]
  simp only [f0, f1, f2, Opnd.ofNat_toNat a hf, whenZero, decide_true, Bool.and_true, if_true]

theorem joinc (cmp : Nat) (sc : Nat) (a : Opnd) (b : Opnd) : Statement (.joinc cmp sc a b) := by
  intro hf w hw
  obtain ⟨hf, h3⟩ := and_both hf
  obtain ⟨hf, h2⟩ := and_both hf
  obtain ⟨hf, h1⟩ := and_both hf
  have hw := Option.some.inj hw
  obtain ⟨wl, wh, wo, ws, f0, f1, f2, f3, f4⟩ := fields_20_19_18_16_15_8_7_0 (hi := 13) (lo := 4) hw rfl (by decide) (by decide) (of_decide_eq_true hf) (of_decide_eq_true h1) (Opnd.toNat_lt a h2) (Opnd.toNat_lt b h3)
  refine ⟨wl, (team_d wh wo).trans ?_⟩
  dsimp only [decodeTeamD]
  simp only [f0, f1, f2, f3, f4, Opnd.ofNat_toNat a h2, Opnd.ofNat_toNat b h3, whenZero, decide_true, if_true]

theorem trig (d : Opnd) (a : Opnd) : Statement (.trig d a) := by
  intro hf w hw
  obtain ⟨hf, h1⟩ := and_both hf
  have hw := Option.some.inj hw
  obtain ⟨wl, wh, wo, ws, f0, f1, f2⟩ := fields_23_16_15_8 (hi := 13) (lo := 5) hw rfl (by decide) (by decide) (Opnd.toNat_lt d hf) (Opnd.toNat_lt a h1)
  refine ⟨wl, (team_d wh wo).trans ?_⟩
  dsimp only [decodeTeamD]
  simp only [f0, f1, f2, Opnd.ofNat_toNat d hf, Opnd.ofNat_toNat a h1, whenZero, decide_true, if_true]

theorem tdisarm (d : Opnd) (a : Opnd) : Statement (.tdisarm d a) := by
  intro hf w hw
  obtain ⟨hf, h1⟩ := and_both hf
  have hw := Option.some.inj hw
  obtain ⟨wl, wh, wo, ws, f0, f1, f2⟩ := fields_23_16_15_8 (hi := 13) (lo := 6) hw rfl (by decide) (by decide) (Opnd.toNat_lt d hf) (Opnd.toNat_lt a h1)
  refine ⟨wl, (team_d wh wo).trans ?_⟩
  dsimp only [decodeTeamD]
  simp only [f0, f1, f2, Opnd.ofNat_toNat d hf, Opnd.ofNat_toNat a h1, whenZero, decide_true, if_true]

theorem seqnew (d : Opnd) : Statement (.seqnew d) := by
  intro hf w hw
  have hw := Option.some.inj hw
  obtain ⟨wl, wh, wo, ws, f0, f1⟩ := fields_23_16 (hi := 13) (lo := 7) hw rfl (by decide) (by decide) (Opnd.toNat_lt d hf)
  refine ⟨wl, (team_d wh wo).trans ?_⟩
  dsimp only [decodeTeamD]
  simp only [f0, f1, Opnd.ofNat_toNat d hf, whenZero, decide_true, if_true]

theorem seqend (a : Opnd) (b : Opnd) : Statement (.seqend a b) := by
  intro hf w hw
  obtain ⟨hf, h1⟩ := and_both hf
  have hw := Option.some.inj hw
  obtain ⟨wl, wh, wo, ws, f0, f1, f2⟩ := fields_15_8_7_0 (hi := 13) (lo := 8) hw rfl (by decide) (by decide) (Opnd.toNat_lt a hf) (Opnd.toNat_lt b h1)
  refine ⟨wl, (team_d wh wo).trans ?_⟩
  dsimp only [decodeTeamD]
  simp only [f0, f1, f2, Opnd.ofNat_toNat a hf, Opnd.ofNat_toNat b h1, whenZero, decide_true, if_true]

theorem erd (d : Opnd) (f : Nat) : Statement (.erd d f) := by
  intro hf w hw
  obtain ⟨hf, h1⟩ := and_both hf
  have hw := Option.some.inj hw
  obtain ⟨wl, wh, wo, ws, f0, f1, f2⟩ := fields_23_16_2_0 (hi := 14) (lo := 0) hw rfl (by decide) (by decide) (Opnd.toNat_lt d hf) (of_decide_eq_true h1)
  refine ⟨wl, (team_e wh wo).trans ?_⟩
  dsimp only [decodeTeamE]
  simp only [f0, f1, f2, Opnd.ofNat_toNat d hf, whenZero, decide_true, if_true]

theorem ebkt (d : Opnd) (f : Nat) : Statement (.ebkt d f) := by
  intro hf w hw
  obtain ⟨hf, h1⟩ := and_both hf
  have hw := Option.some.inj hw
  obtain ⟨wl, wh, wo, ws, f0, f1, f2⟩ := fields_23_16_1_0 (hi := 14) (lo := 1) hw rfl (by decide) (by decide) (Opnd.toNat_lt d hf) (of_decide_eq_true h1)
  refine ⟨wl, (team_e wh wo).trans ?_⟩
  dsimp only [decodeTeamE]
  simp only [f0, f1, f2, Opnd.ofNat_toNat d hf, whenZero, decide_true, if_true]

theorem eop (d : Opnd) (p : Nat) : Statement (.eop d p) := by
  intro hf w hw
  obtain ⟨hf, h1⟩ := and_both hf
  have hw := Option.some.inj hw
  obtain ⟨wl, wh, wo, ws, f0, f1, f2⟩ := fields_23_16_3_0 (hi := 14) (lo := 2) hw rfl (by decide) (by decide) (Opnd.toNat_lt d hf) (of_decide_eq_true h1)
  refine ⟨wl, (team_e wh wo).trans ?_⟩
  dsimp only [decodeTeamE]
  simp only [f0, f1, f2, Opnd.ofNat_toNat d hf, whenZero, decide_true, if_true]

theorem eoprd (d : Opnd) : Statement (.eoprd d) := by
  intro hf w hw
  have hw := Option.some.inj hw
  obtain ⟨wl, wh, wo, ws, f0, f1⟩ := fields_23_16 (hi := 14) (lo := 3) hw rfl (by decide) (by decide) (Opnd.toNat_lt d hf)
  refine ⟨wl, (team_e wh wo).trans ?_⟩
  dsimp only [decodeTeamE]
  simp only [f0, f1, Opnd.ofNat_toNat d hf, whenZero, decide_true, if_true]

theorem emark (d : Opnd) (f : Bool) : Statement (.emark d f) := by
  intro hf w hw
  have hw := Option.some.inj hw
  obtain ⟨wl, wh, wo, ws, f0, f1, f2⟩ := fields_23_16_0_0 (hi := 14) (lo := 4) hw rfl (by decide) (by decide) (Opnd.toNat_lt d hf) (bitOf_lt f)
  refine ⟨wl, (team_e wh wo).trans ?_⟩
  dsimp only [decodeTeamE]
  simp only [f0, f1, f2, Opnd.ofNat_toNat d hf, decide_bitOf f, whenZero, decide_true, if_true]

theorem erdh (d : Opnd) (t : Nat) (p : Nat) (c : Nat) : Statement (.erdh d t p c) := by
  intro hf w hw
  obtain ⟨hf, h3⟩ := and_both hf
  obtain ⟨hf, h2⟩ := and_both hf
  obtain ⟨hf, h1⟩ := and_both hf
  have hw := Option.some.inj hw
  obtain ⟨wl, wh, wo, ws, f0, f1, f2, f3, f4⟩ := fields_23_16_14_12_11_8_7_0 (hi := 14) (lo := 5) hw rfl (by decide) (by decide) (Opnd.toNat_lt d hf) (of_decide_eq_true h1) (of_decide_eq_true h2) (of_decide_eq_true h3)
  refine ⟨wl, (team_e wh wo).trans ?_⟩
  dsimp only [decodeTeamE]
  simp only [f0, f1, f2, f3, f4, Opnd.ofNat_toNat d hf, whenZero, decide_true, if_true]

theorem sysrd (d : Opnd) (n : Nat) : Statement (.sysrd d n) := by
  intro hf w hw
  obtain ⟨hf, h1⟩ := and_both hf
  have hw := Option.some.inj hw
  obtain ⟨wl, wh, wo, ws, f0, f1⟩ := fields_23_16_15_0 (hi := 15) (lo := 0) hw rfl (by decide) (by decide) (Opnd.toNat_lt d hf) (of_decide_eq_true h1)
  refine ⟨wl, (team_f wh wo).trans ?_⟩
  dsimp only [decodeTeamF]
  simp only [f0, f1, Opnd.ofNat_toNat d hf]

theorem syswr (d : Opnd) (n : Nat) : Statement (.syswr d n) := by
  intro hf w hw
  obtain ⟨hf, h1⟩ := and_both hf
  have hw := Option.some.inj hw
  obtain ⟨wl, wh, wo, ws, f0, f1⟩ := fields_23_16_15_0 (hi := 15) (lo := 1) hw rfl (by decide) (by decide) (Opnd.toNat_lt d hf) (of_decide_eq_true h1)
  refine ⟨wl, (team_f wh wo).trans ?_⟩
  dsimp only [decodeTeamF]
  simp only [f0, f1, Opnd.ofNat_toNat d hf]

theorem wlatch (d : Opnd) (u : Bool) : Statement (.wlatch d u) := by
  intro hf w hw
  have hw := Option.some.inj hw
  obtain ⟨wl, wh, wo, ws, f0, f1, f2⟩ := fields_23_16_0_0 (hi := 15) (lo := 2) hw rfl (by decide) (by decide) (Opnd.toNat_lt d hf) (bitOf_lt u)
  refine ⟨wl, (team_f wh wo).trans ?_⟩
  dsimp only [decodeTeamF]
  simp only [f0, f1, f2, Opnd.ofNat_toNat d hf, decide_bitOf u, whenZero, decide_true, if_true]

theorem keygen (d : Opnd) (n : Nat) : Statement (.keygen d n) := by
  intro hf w hw
  obtain ⟨hf, h1⟩ := and_both hf
  have hw := Option.some.inj hw
  obtain ⟨wl, wh, wo, ws, f0, f1, f2⟩ := fields_23_16_5_0 (hi := 15) (lo := 3) hw rfl (by decide) (by decide) (Opnd.toNat_lt d hf) (of_decide_eq_true h1)
  refine ⟨wl, (team_f wh wo).trans ?_⟩
  dsimp only [decodeTeamF]
  simp only [f0, f1, f2, Opnd.ofNat_toNat d hf, whenZero, decide_true, if_true]

theorem keydel (d : Opnd) : Statement (.keydel d) := by
  intro hf w hw
  have hw := Option.some.inj hw
  obtain ⟨wl, wh, wo, ws, f0, f1⟩ := fields_23_16 (hi := 15) (lo := 4) hw rfl (by decide) (by decide) (Opnd.toNat_lt d hf)
  refine ⟨wl, (team_f wh wo).trans ?_⟩
  dsimp only [decodeTeamF]
  simp only [f0, f1, Opnd.ofNat_toNat d hf, whenZero, decide_true, if_true]

theorem tinv (d : Opnd) (k : Nat) : Statement (.tinv d k) := by
  intro hf w hw
  obtain ⟨hf, h1⟩ := and_both hf
  have hw := Option.some.inj hw
  obtain ⟨wl, wh, wo, ws, f0, f1, f2⟩ := fields_23_16_1_0 (hi := 15) (lo := 5) hw rfl (by decide) (by decide) (Opnd.toNat_lt d hf) (of_decide_eq_true h1)
  refine ⟨wl, (team_f wh wo).trans ?_⟩
  dsimp only [decodeTeamF]
  simp only [f0, f1, f2, Opnd.ofNat_toNat d hf, whenZero, decide_true, if_true]

theorem meter (d : Opnd) : Statement (.meter d) := by
  intro hf w hw
  have hw := Option.some.inj hw
  obtain ⟨wl, wh, wo, ws, f0, f1⟩ := fields_23_16 (hi := 15) (lo := 6) hw rfl (by decide) (by decide) (Opnd.toNat_lt d hf)
  refine ⟨wl, (team_f wh wo).trans ?_⟩
  dsimp only [decodeTeamF]
  simp only [f0, f1, Opnd.ofNat_toNat d hf, whenZero, decide_true, if_true]

theorem save (d : Opnd) (m : Bool) : Statement (.save d m) := by
  intro hf w hw
  have hw := Option.some.inj hw
  obtain ⟨wl, wh, wo, ws, f0, f1, f2⟩ := fields_23_16_0_0 (hi := 15) (lo := 7) hw rfl (by decide) (by decide) (Opnd.toNat_lt d hf) (bitOf_lt m)
  refine ⟨wl, (team_f wh wo).trans ?_⟩
  dsimp only [decodeTeamF]
  simp only [f0, f1, f2, Opnd.ofNat_toNat d hf, decide_bitOf m, whenZero, decide_true, if_true]

theorem rest (d : Opnd) : Statement (.rest d) := by
  intro hf w hw
  have hw := Option.some.inj hw
  obtain ⟨wl, wh, wo, ws, f0, f1⟩ := fields_23_16 (hi := 15) (lo := 8) hw rfl (by decide) (by decide) (Opnd.toNat_lt d hf)
  refine ⟨wl, (team_f wh wo).trans ?_⟩
  dsimp only [decodeTeamF]
  simp only [f0, f1, Opnd.ofNat_toNat d hf, whenZero, decide_true, if_true]

theorem halt (d : Opnd) (b : Bool) : Statement (.halt d b) := by
  intro hf w hw
  have hw := Option.some.inj hw
  obtain ⟨wl, wh, wo, ws, f0, f1, f2⟩ := fields_23_16_0_0 (hi := 15) (lo := 9) hw rfl (by decide) (by decide) (Opnd.toNat_lt d hf) (bitOf_lt b)
  refine ⟨wl, (team_f wh wo).trans ?_⟩
  dsimp only [decodeTeamF]
  simp only [f0, f1, f2, Opnd.ofNat_toNat d hf, decide_bitOf b, whenZero, decide_true, if_true]

theorem clear (d : Opnd) (m : Nat) : Statement (.clear d m) := by
  intro hf w hw
  obtain ⟨hf, h1⟩ := and_both hf
  have hw := Option.some.inj hw
  obtain ⟨wl, wh, wo, ws, f0, f1, f2⟩ := fields_23_16_3_0 (hi := 15) (lo := 10) hw rfl (by decide) (by decide) (Opnd.toNat_lt d hf) (of_decide_eq_true h1)
  refine ⟨wl, (team_f wh wo).trans ?_⟩
  dsimp only [decodeTeamF]
  simp only [f0, f1, f2, Opnd.ofNat_toNat d hf, whenZero, decide_true, if_true]

theorem waiti (d : Opnd) (m : Nat) : Statement (.waiti d m) := by
  intro hf w hw
  obtain ⟨hf, h1⟩ := and_both hf
  have hw := Option.some.inj hw
  obtain ⟨wl, wh, wo, ws, f0, f1, f2⟩ := fields_23_16_7_0 (hi := 15) (lo := 11) hw rfl (by decide) (by decide) (Opnd.toNat_lt d hf) (of_decide_eq_true h1)
  refine ⟨wl, (team_f wh wo).trans ?_⟩
  dsimp only [decodeTeamF]
  simp only [f0, f1, f2, Opnd.ofNat_toNat d hf, whenZero, decide_true, if_true]

theorem mnop : Statement .mnop := by
  intro hf w hw
  have hw := Option.some.inj hw
  subst hw
  exact ⟨by decide, rfl⟩

theorem mma (acc : Nat) (fs : Nat) (ra : Nat) (rb : Nat) : Statement (.mma acc fs ra rb) := by
  intro hf w hw
  obtain ⟨hf, h3⟩ := and_both hf
  obtain ⟨hf, h2⟩ := and_both hf
  obtain ⟨hf, h1⟩ := and_both hf
  have hw := Option.some.inj hw
  obtain ⟨wl, wh, wo, ws, f0, f1, f2, f3, f4, f5⟩ := fields_23_19_18_16_11_8_3_0 (hi := 0) (lo := 1) hw rfl (by decide) (by decide) (of_decide_eq_true hf) (of_decide_eq_true h1) (of_decide_eq_true h2) (of_decide_eq_true h3)
  refine ⟨wl, show decodeStream w = _ from ?_⟩
  rw [decodeStream, ws]
  simp only [f0, f1, f2, f3, f4, f5, whenZero, decide_true, Bool.and_true, if_true]

theorem mmas (acc : Nat) (fs : Nat) (ra : Nat) (rb : Nat) : Statement (.mmas acc fs ra rb) := by
  intro hf w hw
  obtain ⟨hf, h3⟩ := and_both hf
  obtain ⟨hf, h2⟩ := and_both hf
  obtain ⟨hf, h1⟩ := and_both hf
  have hw := Option.some.inj hw
  obtain ⟨wl, wh, wo, ws, f0, f1, f2, f3, f4, f5⟩ := fields_23_19_18_16_11_8_3_0 (hi := 0) (lo := 2) hw rfl (by decide) (by decide) (of_decide_eq_true hf) (of_decide_eq_true h1) (of_decide_eq_true h2) (of_decide_eq_true h3)
  refine ⟨wl, show decodeStream w = _ from ?_⟩
  rw [decodeStream, ws]
  simp only [f0, f1, f2, f3, f4, f5, whenZero, decide_true, Bool.and_true, if_true]

theorem mmav (acc : Nat) (fs : Nat) (ra : Nat) (rb : Nat) : Statement (.mmav acc fs ra rb) := by
  intro hf w hw
  obtain ⟨hf, h3⟩ := and_both hf
  obtain ⟨hf, h2⟩ := and_both hf
  obtain ⟨hf, h1⟩ := and_both hf
  have hw := Option.some.inj hw
  obtain ⟨wl, wh, wo, ws, f0, f1, f2, f3, f4, f5⟩ := fields_23_19_18_16_11_8_3_0 (hi := 0) (lo := 3) hw rfl (by decide) (by decide) (of_decide_eq_true hf) (of_decide_eq_true h1) (of_decide_eq_true h2) (of_decide_eq_true h3)
  refine ⟨wl, show decodeStream w = _ from ?_⟩
  rw [decodeStream, ws]
  simp only [f0, f1, f2, f3, f4, f5, whenZero, decide_true, Bool.and_true, if_true]

theorem mtrn (acc : Nat) (fs : Nat) (ra : Nat) : Statement (.mtrn acc fs ra) := by
  intro hf w hw
  obtain ⟨hf, h2⟩ := and_both hf
  obtain ⟨hf, h1⟩ := and_both hf
  have hw := Option.some.inj hw
  obtain ⟨wl, wh, wo, ws, f0, f1, f2, f3, f4⟩ := fields_23_19_18_16_11_8 (hi := 0) (lo := 4) hw rfl (by decide) (by decide) (of_decide_eq_true hf) (of_decide_eq_true h1) (of_decide_eq_true h2)
  refine ⟨wl, show decodeStream w = _ from ?_⟩
  rw [decodeStream, ws]
  simp only [f0, f1, f2, f3, f4, whenZero, decide_true, Bool.and_true, if_true]

theorem mperm (acc : Nat) (fs : Nat) (ra : Nat) (rb : Nat) : Statement (.mperm acc fs ra rb) := by
  intro hf w hw
  obtain ⟨hf, h3⟩ := and_both hf
  obtain ⟨hf, h2⟩ := and_both hf
  obtain ⟨hf, h1⟩ := and_both hf
  have hw := Option.some.inj hw
  obtain ⟨wl, wh, wo, ws, f0, f1, f2, f3, f4, f5⟩ := fields_23_19_18_16_11_8_3_0 (hi := 0) (lo := 5) hw rfl (by decide) (by decide) (of_decide_eq_true hf) (of_decide_eq_true h1) (of_decide_eq_true h2) (of_decide_eq_true h3)
  refine ⟨wl, show decodeStream w = _ from ?_⟩
  rw [decodeStream, ws]
  simp only [f0, f1, f2, f3, f4, f5, whenZero, decide_true, Bool.and_true, if_true]

theorem mred (acc : Nat) (fs : Nat) (ra : Nat) : Statement (.mred acc fs ra) := by
  intro hf w hw
  obtain ⟨hf, h2⟩ := and_both hf
  obtain ⟨hf, h1⟩ := and_both hf
  have hw := Option.some.inj hw
  obtain ⟨wl, wh, wo, ws, f0, f1, f2, f3, f4⟩ := fields_23_19_18_16_11_8 (hi := 0) (lo := 6) hw rfl (by decide) (by decide) (of_decide_eq_true hf) (of_decide_eq_true h1) (of_decide_eq_true h2)
  refine ⟨wl, show decodeStream w = _ from ?_⟩
  rw [decodeStream, ws]
  simp only [f0, f1, f2, f3, f4, whenZero, decide_true, Bool.and_true, if_true]

theorem accz (acc : Nat) : Statement (.accz acc) := by
  intro hf w hw
  have hw := Option.some.inj hw
  obtain ⟨wl, wh, wo, ws, f0, f1⟩ := fields_23_19 (hi := 0) (lo := 7) hw rfl (by decide) (by decide) (of_decide_eq_true hf)
  refine ⟨wl, show decodeStream w = _ from ?_⟩
  rw [decodeStream, ws]
  simp only [f0, f1, whenZero, decide_true, if_true]

theorem accld (acc : Nat) (ra : Nat) : Statement (.accld acc ra) := by
  intro hf w hw
  obtain ⟨hf, h1⟩ := and_both hf
  have hw := Option.some.inj hw
  obtain ⟨wl, wh, wo, ws, f0, f1, f2, f3⟩ := fields_23_19_11_8 (hi := 0) (lo := 8) hw rfl (by decide) (by decide) (of_decide_eq_true hf) (of_decide_eq_true h1)
  refine ⟨wl, show decodeStream w = _ from ?_⟩
  rw [decodeStream, ws]
  simp only [f0, f1, f2, f3, whenZero, decide_true, Bool.and_true, if_true]

theorem accst (acc : Nat) (fs : Nat) (rb : Nat) : Statement (.accst acc fs rb) := by
  intro hf w hw
  obtain ⟨hf, h2⟩ := and_both hf
  obtain ⟨hf, h1⟩ := and_both hf
  have hw := Option.some.inj hw
  obtain ⟨wl, wh, wo, ws, f0, f1, f2, f3⟩ := fields_23_19_18_16_3_0 (hi := 0) (lo := 9) hw rfl (by decide) (by decide) (of_decide_eq_true hf) (of_decide_eq_true h1) (of_decide_eq_true h2)
  refine ⟨wl, show decodeStream w = _ from ?_⟩
  rw [decodeStream, ws]
  simp only [f0, f1, f2, f3, whenZero, decide_true, if_true]

theorem ringd (d : Opnd) (sp : Nat) (dir : Bool) (n : Nat) : Statement (.ringd d sp dir n) := by
  intro hf w hw
  obtain ⟨hf, h2⟩ := and_both hf
  obtain ⟨hf, h1⟩ := and_both hf
  have hw := Option.some.inj hw
  obtain ⟨wl, wh, wo, ws, f0, f1, f2, f3, f4⟩ := fields_23_16_6_5_4_4_3_0 (hi := 0) (lo := 10) hw rfl (by decide) (by decide) (Opnd.toNat_lt d hf) (of_decide_eq_true h1) (bitOf_lt dir) (of_decide_eq_true h2)
  refine ⟨wl, show decodeStream w = _ from ?_⟩
  rw [decodeStream, ws]
  simp only [f0, f1, f2, f3, f4, Opnd.ofNat_toNat d hf, decide_bitOf dir, whenZero, decide_true, if_true]

theorem rwait (n : Nat) : Statement (.rwait n) := by
  intro hf w hw
  have hw := Option.some.inj hw
  obtain ⟨wl, wh, wo, ws, f0, f1, f2⟩ := fields_11_8 (hi := 0) (lo := 11) hw rfl (by decide) (by decide) (of_decide_eq_true hf)
  refine ⟨wl, show decodeStream w = _ from ?_⟩
  rw [decodeStream, ws]
  simp only [f0, f1, f2, whenZero, decide_true, Bool.and_true, if_true]

theorem rfree (n : Nat) : Statement (.rfree n) := by
  intro hf w hw
  have hw := Option.some.inj hw
  obtain ⟨wl, wh, wo, ws, f0, f1, f2⟩ := fields_11_8 (hi := 0) (lo := 12) hw rfl (by decide) (by decide) (of_decide_eq_true hf)
  refine ⟨wl, show decodeStream w = _ from ?_⟩
  rw [decodeStream, ws]
  simp only [f0, f1, f2, whenZero, decide_true, Bool.and_true, if_true]

theorem mbara (c : Nat) (n : Nat) : Statement (.mbara c n) := by
  intro hf w hw
  obtain ⟨hf, h1⟩ := and_both hf
  have hw := Option.some.inj hw
  obtain ⟨wl, wh, wo, ws, f0, f1, f2⟩ := fields_7_4_3_0 (hi := 0) (lo := 13) hw rfl (by decide) (by decide) (of_decide_eq_true hf) (of_decide_eq_true h1)
  refine ⟨wl, show decodeStream w = _ from ?_⟩
  rw [decodeStream, ws]
  simp only [f0, f1, f2, whenZero, decide_true, if_true]

theorem mbarw (n : Nat) : Statement (.mbarw n) := by
  intro hf w hw
  have hw := Option.some.inj hw
  obtain ⟨wl, wh, wo, ws, f0, f1⟩ := fields_3_0 (hi := 0) (lo := 14) hw rfl (by decide) (by decide) (of_decide_eq_true hf)
  refine ⟨wl, show decodeStream w = _ from ?_⟩
  rw [decodeStream, ws]
  simp only [f0, f1, whenZero, decide_true, if_true]

theorem convset (d : Opnd) (wo : Nat) : Statement (.convset d wo) := by
  intro hf w hw
  obtain ⟨hf, h1⟩ := and_both hf
  have hw := Option.some.inj hw
  obtain ⟨wl, wh, wo, ws, f0, f1, f2⟩ := fields_23_16_11_0 (hi := 0) (lo := 15) hw rfl (by decide) (by decide) (Opnd.toNat_lt d hf) (of_decide_eq_true h1)
  refine ⟨wl, show decodeStream w = _ from ?_⟩
  rw [decodeStream, ws]
  simp only [f0, f1, f2, Opnd.ofNat_toNat d hf, whenZero, decide_true, if_true]

theorem mloop (d : Nat) (imm : Nat) : Statement (.mloop d imm) := by
  intro hf w hw
  obtain ⟨hf, h1⟩ := and_both hf
  have hw := Option.some.inj hw
  obtain ⟨wl, wh, wo, ws, f0, f1⟩ := fields_23_16_15_0 (hi := 1) (lo := 0) hw rfl (by decide) (by decide) (of_decide_eq_true hf) (of_decide_eq_true h1)
  refine ⟨wl, show decodeStream w = _ from ?_⟩
  rw [decodeStream, ws]
  simp only [f0, f1]

theorem mendl : Statement .mendl := by
  intro hf w hw
  have hw := Option.some.inj hw
  subst hw
  exact ⟨by decide, rfl⟩

theorem mend : Statement .mend := by
  intro hf w hw
  have hw := Option.some.inj hw
  subst hw
  exact ⟨by decide, rfl⟩

theorem mflag : Statement .mflag := by
  intro hf w hw
  have hw := Option.some.inj hw
  subst hw
  exact ⟨by decide, rfl⟩

theorem tileGrant (cluster : Nat) : Statement (.tileGrant cluster) := fun _ _ h => absurd h nofun

theorem ringWaitWake (bid : Nat) : Statement (.ringWaitWake bid) := fun _ _ h => absurd h nofun

theorem tickBoundary : Statement .tickBoundary := fun _ _ h => absurd h nofun

theorem tickUpdate (samples : List DomainSample) : Statement (.tickUpdate samples) := fun _ _ h => absurd h nofun

theorem spendLimitReached (core : Nat) (ctx : Nat) : Statement (.spendLimitReached core ctx) := fun _ _ h => absurd h nofun

theorem drainOverrun (bid : Nat) : Statement (.drainOverrun bid) := fun _ _ h => absurd h nofun

theorem opSlewComplete (quad : Nat) : Statement (.opSlewComplete quad) := fun _ _ h => absurd h nofun

theorem counterUpdate (world : Nat) (ia : Nat) (delta : Int) : Statement (.counterUpdate world ia delta) := fun _ _ h => absurd h nofun

theorem watchNotify (tid : Nat) (arm : Nat) : Statement (.watchNotify tid arm) := fun _ _ h => absurd h nofun

theorem waitPoll (tid : Nat) (arm : Nat) : Statement (.waitPoll tid arm) := fun _ _ h => absurd h nofun

theorem pendingLaunchTake (part : Nat) : Statement (.pendingLaunchTake part) := fun _ _ h => absurd h nofun

theorem launchAccept (part : Nat) : Statement (.launchAccept part) := fun _ _ h => absurd h nofun

theorem specialiseEvaluate (launch : Nat) : Statement (.specialiseEvaluate launch) := fun _ _ h => absurd h nofun

theorem specialiseTimeout (launch : Nat) : Statement (.specialiseTimeout launch) := fun _ _ h => absurd h nofun

theorem dispatchRound (part : Nat) : Statement (.dispatchRound part) := fun _ _ h => absurd h nofun

theorem coreRelatch (bid : Nat) : Statement (.coreRelatch bid) := fun _ _ h => absurd h nofun

theorem blockRestore (bid : Nat) (core : Nat) : Statement (.blockRestore bid core) := fun _ _ h => absurd h nofun

theorem blockSave (bid : Nat) : Statement (.blockSave bid) := fun _ _ h => absurd h nofun

theorem blockFlush (bid : Nat) : Statement (.blockFlush bid) := fun _ _ h => absurd h nofun

theorem joinPatienceExpired (tid : Nat) (arm : Nat) : Statement (.joinPatienceExpired tid arm) := fun _ _ h => absurd h nofun

theorem launchComplete (launch : Nat) : Statement (.launchComplete launch) := fun _ _ h => absurd h nofun

theorem resumableFault (bid : Nat) : Statement (.resumableFault bid) := fun _ _ h => absurd h nofun

theorem faultCounterGrant (part : Nat) : Statement (.faultCounterGrant part) := fun _ _ h => absurd h nofun

theorem faultResolution (fault : Nat) (ok : Bool) : Statement (.faultResolution fault ok) := fun _ _ h => absurd h nofun

theorem stealRequest (thief : Nat) (victim : Nat) : Statement (.stealRequest thief victim) := fun _ _ h => absurd h nofun

theorem stealAnswer (thief : Nat) : Statement (.stealAnswer thief) := fun _ _ h => absurd h nofun

theorem gangReserveRequest (launch : Nat) (part : Nat) : Statement (.gangReserveRequest launch part) := fun _ _ h => absurd h nofun

theorem gangReserveTimeout (launch : Nat) : Statement (.gangReserveTimeout launch) := fun _ _ h => absurd h nofun

theorem gangRollbackDone (launch : Nat) : Statement (.gangRollbackDone launch) := fun _ _ h => absurd h nofun

theorem gangStartTick (launch : Nat) : Statement (.gangStartTick launch) := fun _ _ h => absurd h nofun

theorem engineOpStart (cluster : Nat) (op : Nat) : Statement (.engineOpStart cluster op) := fun _ _ h => absurd h nofun

theorem engineOpComplete (cluster : Nat) (op : Nat) : Statement (.engineOpComplete cluster op) := fun _ _ h => absurd h nofun

theorem engineOpFault (cluster : Nat) (op : Nat) : Statement (.engineOpFault cluster op) := fun _ _ h => absurd h nofun

theorem depnNodeStart (cluster : Nat) (op : Nat) : Statement (.depnNodeStart cluster op) := fun _ _ h => absurd h nofun

theorem seqendComplete (slot : Nat) : Statement (.seqendComplete slot) := fun _ _ h => absurd h nofun

theorem keyInstallComplete (slot : Nat) : Statement (.keyInstallComplete slot) := fun _ _ h => absurd h nofun

theorem sliceAccess (req : SliceReq) : Statement (.sliceAccess req) := fun _ _ h => absurd h nofun

theorem requestRetry (tid : Nat) (arm : Nat) : Statement (.requestRetry tid arm) := fun _ _ h => absurd h nofun

theorem directoryRecall (ma : Nat) : Statement (.directoryRecall ma) := fun _ _ h => absurd h nofun

theorem releaseHint (core : Nat) (world : Nat) (line : Nat) : Statement (.releaseHint core world line) := fun _ _ h => absurd h nofun

theorem promotionRequest (core : Nat) (world : Nat) (line : Nat) : Statement (.promotionRequest core world line) := fun _ _ h => absurd h nofun

theorem releaseEntryTimeout (core : Nat) : Statement (.releaseEntryTimeout core) := fun _ _ h => absurd h nofun

theorem freeDeclaration (ma : Nat) : Statement (.freeDeclaration ma) := fun _ _ h => absurd h nofun

theorem sliceBlockMove (src : Nat) (dst : Nat) : Statement (.sliceBlockMove src dst) := fun _ _ h => absurd h nofun

theorem refresh (slice : Nat) (bank : Nat) : Statement (.refresh slice bank) := fun _ _ h => absurd h nofun

theorem hotPageInterval : Statement .hotPageInterval := fun _ _ h => absurd h nofun

theorem patrolRead (ma : Nat) : Statement (.patrolRead ma) := fun _ _ h => absurd h nofun

theorem pageRetire (world : Nat) (gpa : Nat) : Statement (.pageRetire world gpa) := fun _ _ h => absurd h nofun

theorem keySlotRecovery (slice : Nat) (slot : Nat) : Statement (.keySlotRecovery slice slot) := fun _ _ h => absurd h nofun

theorem contextEnd (ctx : Nat) : Statement (.contextEnd ctx) := fun _ _ h => absurd h nofun

theorem errorRecordTake (die : Nat) : Statement (.errorRecordTake die) := fun _ _ h => absurd h nofun

theorem cxlMemRead (fn : Nat) (off : Nat) (len : Nat) : Statement (.cxlMemRead fn off len) := fun _ _ h => absurd h nofun

theorem cxlMemWrite (fn : Nat) (off : Nat) (bytes : List (BitVec 8)) : Statement (.cxlMemWrite fn off bytes) := fun _ _ h => absurd h nofun

theorem hostMailboxRequest (fn : Nat) (req : MailReq) : Statement (.hostMailboxRequest fn req) := fun _ _ h => absurd h nofun

theorem rensarWrite (port : Nat) (hdr : RensarHdr) (bytes : List (BitVec 8)) : Statement (.rensarWrite port hdr bytes) := fun _ _ h => absurd h nofun

theorem rensarReadRequest (port : Nat) (hdr : RensarHdr) : Statement (.rensarReadRequest port hdr) := fun _ _ h => absurd h nofun

theorem rensarReadResponse (port : Nat) (hdr : RensarHdr) (bytes : List (BitVec 8)) : Statement (.rensarReadResponse port hdr bytes) := fun _ _ h => absurd h nofun

theorem rensarWriteAck (port : Nat) (hdr : RensarHdr) : Statement (.rensarWriteAck port hdr) := fun _ _ h => absurd h nofun

theorem rensarErrorCompletion (port : Nat) (hdr : RensarHdr) (reason : Nat) : Statement (.rensarErrorCompletion port hdr reason) := fun _ _ h => absurd h nofun

theorem rensarTimeout (port : Nat) (txid : Nat) : Statement (.rensarTimeout port txid) := fun _ _ h => absurd h nofun

theorem firmwareMessage (die : Nat) (msg : Nat) : Statement (.firmwareMessage die msg) := fun _ _ h => absurd h nofun

theorem crarasDemandReport : Statement .crarasDemandReport := fun _ _ h => absurd h nofun

theorem crarasDemand (frm : Nat × RensarHdr) (floor : Nat) (demand : Nat) (power : Nat) : Statement (.crarasDemand frm floor demand power) := fun _ _ h => absurd h nofun

theorem crarasGrant (frm : Nat × RensarHdr) (seq : Nat) (mw : Nat) : Statement (.crarasGrant frm seq mw) := fun _ _ h => absurd h nofun

theorem crarasGrantTimeout : Statement .crarasGrantTimeout := fun _ _ h => absurd h nofun

theorem lockInterfaceRequest (fn : Nat) (session : Nat) : Statement (.lockInterfaceRequest fn session) := fun _ _ h => absurd h nofun

theorem startInterfaceRequest (fn : Nat) (session : Nat) : Statement (.startInterfaceRequest fn session) := fun _ _ h => absurd h nofun

theorem stopInterfaceRequest (fn : Nat) (session : Nat) : Statement (.stopInterfaceRequest fn session) := fun _ _ h => absurd h nofun

theorem getDeviceInterfaceState (fn : Nat) (session : Nat) : Statement (.getDeviceInterfaceState fn session) := fun _ _ h => absurd h nofun

theorem spdmSessionEnd (session : Nat) : Statement (.spdmSessionEnd session) := fun _ _ h => absurd h nofun

theorem tdispConfigChange (fn : Nat) : Statement (.tdispConfigChange fn) := fun _ _ h => absurd h nofun

theorem nocCipherFailure (src : Nat) (dst : Nat) (ctxs : List Nat) : Statement (.nocCipherFailure src dst ctxs) := fun _ _ h => absurd h nofun

theorem cipherFlowResume (src : Nat) (dst : Nat) : Statement (.cipherFlowResume src dst) := fun _ _ h => absurd h nofun

theorem cxlIdeFailure : Statement .cxlIdeFailure := fun _ _ h => absurd h nofun

theorem cxlLinkDown : Statement .cxlLinkDown := fun _ _ h => absurd h nofun

theorem rensarLaneFailure (port : Nat) (lanes : Nat) : Statement (.rensarLaneFailure port lanes) := fun _ _ h => absurd h nofun

theorem deviceReset (img : BootImage) : Statement (.deviceReset img) := fun _ _ h => absurd h nofun

theorem hostResetRequest : Statement .hostResetRequest := fun _ _ h => absurd h nofun

theorem checkpoint (ports : List Nat) : Statement (.checkpoint ports) := fun _ _ h => absurd h nofun

theorem timingReplay (core : Nat) (cls : Nat) : Statement (.timingReplay core cls) := fun _ _ h => absurd h nofun

theorem droop (domain : Nat) : Statement (.droop domain) := fun _ _ h => absurd h nofun

theorem droopTimeout (domain : Nat) : Statement (.droopTimeout domain) := fun _ _ h => absurd h nofun

theorem thermalCeilingStep (quad : Nat) (temp : Nat) : Statement (.thermalCeilingStep quad temp) := fun _ _ h => absurd h nofun

theorem thermalTrip (quad : Nat) (temp : Nat) : Statement (.thermalTrip quad temp) := fun _ _ h => absurd h nofun

theorem thermalTripClear (quad : Nat) (temp : Nat) : Statement (.thermalTripClear quad temp) := fun _ _ h => absurd h nofun

theorem thermalSensorFail (quad : Nat) (sensor : Nat) : Statement (.thermalSensorFail quad sensor) := fun _ _ h => absurd h nofun

theorem thermalEmergency : Statement .thermalEmergency := fun _ _ h => absurd h nofun

theorem unitGate (quad : Nat) (unit : Nat) : Statement (.unitGate quad unit) := fun _ _ h => absurd h nofun

theorem wakeRequest (quad : Nat) (unit : Nat) : Statement (.wakeRequest quad unit) := fun _ _ h => absurd h nofun

theorem wakeComplete (quad : Nat) (unit : Nat) (good : Bool) : Statement (.wakeComplete quad unit good) := fun _ _ h => absurd h nofun

theorem firmwareTimer (die : Nat) : Statement (.firmwareTimer die) := fun _ _ h => absurd h nofun

theorem queueResetQueue (fn : Nat) (part : Nat) (world : Nat) : Statement (.queueResetQueue fn part world) := fun _ _ h => absurd h nofun

theorem queueResetWhole (fn : Nat) (world : Nat) : Statement (.queueResetWhole fn world) := fun _ _ h => absurd h nofun

theorem drainToken (fn : Nat) (unit : Nat) : Statement (.drainToken fn unit) := fun _ _ h => absurd h nofun

theorem capRequestPackage (watts : Nat) (override : Bool) : Statement (.capRequestPackage watts override) := fun _ _ h => absurd h nofun

theorem capRequestPartition (target : Nat) (watts : Nat) (override : Bool) : Statement (.capRequestPartition target watts override) := fun _ _ h => absurd h nofun

theorem injectLlcSingle (block : Nat) (sector : Nat) (check : Bool) : Statement (.injectLlcSingle block sector check) := fun _ _ h => absurd h nofun

theorem injectLlcDouble (block : Nat) (sector : Nat) (check : Bool) : Statement (.injectLlcDouble block sector check) := fun _ _ h => absurd h nofun

theorem injectHbmDouble (block : Nat) (sector : Nat) (check : Bool) : Statement (.injectHbmDouble block sector check) := fun _ _ h => absurd h nofun

theorem creditWrite (place : Nat × Nat) (value : Int) : Statement (.creditWrite place value) := fun _ _ h => absurd h nofun

theorem rangeRegisterWrite (fn : Nat) (ctx : Nat) (rr : Nat) (word : Nat) (value : Nat) : Statement (.rangeRegisterWrite fn ctx rr word value) := fun _ _ h => absurd h nofun

theorem scopePolicyWrite (world : Nat) (value : Nat) : Statement (.scopePolicyWrite world value) := fun _ _ h => absurd h nofun

theorem registerWrite (place : Nat × MmioReg) (value : Nat) : Statement (.registerWrite place value) := fun _ _ h => absurd h nofun

theorem keyInstallTimeout (slot : Nat) : Statement (.keyInstallTimeout slot) := fun _ _ h => absurd h nofun

theorem txidHoldExpired (port : Nat) (txid : Nat) : Statement (.txidHoldExpired port txid) := fun _ _ h => absurd h nofun

theorem droopEnd (domain : Nat) : Statement (.droopEnd domain) := fun _ _ h => absurd h nofun

theorem stackTemperatureLimit (stack : Nat) (temp : Nat) : Statement (.stackTemperatureLimit stack temp) := fun _ _ h => absurd h nofun

theorem rensarLinkUp (port : Nat) (worlds : List Nat) : Statement (.rensarLinkUp port worlds) := fun _ _ h => absurd h nofun

theorem cxlBackInvalidateResponse (ma : Nat) (bytes : List (Nat × BitVec 8)) : Statement (.cxlBackInvalidateResponse ma bytes) := fun _ _ h => absurd h nofun

theorem tileOperationComplete (cluster : Nat) : Statement (.tileOperationComplete cluster) := fun _ _ h => absurd h nofun

theorem invalidationComplete (tag : Nat) : Statement (.invalidationComplete tag) := fun _ _ h => absurd h nofun

end Sys2Proof.Laws.Encoding
end

