-- ==== Sys2Proof/Laws/Perform.lean ====
section
/-! SUPPORT. How an instruction of a team comes to its end: the state in which it has completed. -/
namespace Sys2Proof.Machine
open Sys2Proof

theorem armOf_unmarked {t u : Team} (h : t.unmarked = u.unmarked) (a : Nat) : armOf t a = armOf u a := by
  have h0 : t.a0 = u.a0 := congrArg (fun x => x.a0) (show ({ t with mark := 0 } : Team) = { u with mark := 0 } from h)
  have h1 : t.a1 = u.a1 := congrArg (fun x => x.a1) (show ({ t with mark := 0 } : Team) = { u with mark := 0 } from h)
  simp only [armOf, h0, h1]

theorem withArm_unmarked {t u : Team} (h : t.unmarked = u.unmarked) (a : Nat) (x : Option Arm) :
    (withArm t a x).unmarked = (withArm u a x).unmarked := by
  obtain ⟨⟩ := t
  obtain ⟨⟩ := u
  simp only [Team.unmarked, Team.mk.injEq] at h
  simp only [withArm]
  split <;> simp only [Team.unmarked, Team.mk.injEq] <;> simp [h]

/-- Changing an arm leaves the arm that was changed. -/
theorem armOf_withArm (t : Team) (a : Nat) (x : Option Arm) : armOf (withArm t a x) a = x := by
  simp only [armOf, withArm]
  split <;> simp_all

theorem withArm_withArm (t : Team) (a : Nat) (x y : Option Arm) : withArm (withArm t a x) a y = withArm t a y := by
  simp only [withArm]
  split <;> simp_all

/-- The change of one arm of a team. -/
def adjustArm (t : Team) (a : Nat) (f : Arm → Arm) : Team :=
  match armOf t a with
  | some x => withArm t a (some (f x))
  | none => t

theorem outcome_modArm (tid a : Nat) (f : Arm → Arm) (s : State) :
    outcome (modArm tid a f) s = (.ok ⟨⟩, { s with teams := adjust s.teams tid fun t => adjustArm t a f }) :=
  outcome_modTeam tid _ s

theorem adjustArm_adjustArm (t : Team) (a : Nat) (f h : Arm → Arm) :
    adjustArm (adjustArm t a f) a h = adjustArm t a fun x => h (f x) := by
  unfold adjustArm
  cases e : armOf t a with
  | none => simp [e]
  | some x => simp [armOf_withArm, withArm_withArm]

theorem adjustArm_unmarked {t u : Team} (h : t.unmarked = u.unmarked) (a : Nat) (f : Arm → Arm) :
    (adjustArm t a f).unmarked = (adjustArm u a f).unmarked := by
  unfold adjustArm
  rw [armOf_unmarked h]
  split
  · exact withArm_unmarked h _ _
  · exact h

theorem adjust_adjust {α : Type} (t : Tbl α) (k : Nat) (f h : α → α) (j : Nat) :
    find? (adjust (adjust t k f) k h) j = find? (adjust t k fun x => h (f x)) j := by
  simp only [find?_adjust]
  split
  · simp only [if_true]; rw [Option.map_map]; rfl
  · rfl

/-- Where an arm stands after an instruction: the two changes of `finish` at once. -/
theorem arrived_eq (c : Cx) (g : Sig) (n : Next) (x : Arm) :
    arrived c g n x = (match n with
      | .on => { x with windows := nextWindows c g n.taken, redo := none, wait := .none, joined := false, pc := (nextPlace c.a.pc c.a.slot).1, slot := (nextPlace c.a.pc c.a.slot).2, came := pcOf c.a.pc c.a.slot }
      | .to t => { x with windows := nextWindows c g n.taken, redo := none, wait := .none, joined := false, pc := t, slot := 1, came := pcOf c.a.pc c.a.slot }
      | .back b k => { x with windows := nextWindows c g n.taken, redo := none, wait := .none, joined := false, pc := b, slot := k, came := pcOf c.a.pc c.a.slot }
      | .gone => { x with windows := nextWindows c g n.taken, redo := none, wait := .none, joined := false }) := by
  cases n <;> rfl

/-- The two arm changes of `finish` bring the arm to where `arrived` says. -/
theorem outcome_arrive (c : Cx) (g : Sig) (n : Next) (s : State) :
    ∃ t, outcome (do
        modArm c.tid c.arm fun x => { x with windows := nextWindows c g n.taken, redo := none, wait := .none, joined := false }
        advance c n) s = (.ok (), { s with teams := t }) ∧
      ∀ k, find? t k = find? (adjust s.teams c.tid fun u => adjustArm u c.arm (arrived c g n)) k := by
  rw [outcome_bind_ok (outcome_modArm _ _ _ _)]
  cases n
  · refine ⟨_, by simp only [advance, placeArm]; rw [outcome_modArm], fun k => ?_⟩
    rw [adjust_adjust]
    simp only [adjustArm_adjustArm]
    rfl
  · refine ⟨_, by simp only [advance, placeArm]; rw [outcome_modArm], fun k => ?_⟩
    rw [adjust_adjust]
    simp only [adjustArm_adjustArm]
    rfl
  · refine ⟨_, by simp only [advance, placeArm]; rw [outcome_modArm], fun k => ?_⟩
    rw [adjust_adjust]
    simp only [adjustArm_adjustArm]
    rfl
  · exact ⟨_, rfl, fun k => rfl⟩

/-- An instruction that performed leaves its team with its arm moved on, and charges. -/
theorem finish_ok (c : Cx) (g : Sig) (n : Next) (s : State) (u : Team) (hu : find? s.teams c.tid = some u) :
    ChargedOnly (movedOn s c g u n) (runAct (finish c g n) s) := by
  obtain ⟨s1, h1, g1⟩ := chargesOnly_chargeFor c g s
  obtain ⟨t, h2, g2⟩ := outcome_arrive c g n s1
  have e : runAct (finish c g n) s = { s1 with teams := t } := by
    unfold finish
    rw [runAct_bind_ok h1, runAct_eq, h2]
  rw [e]
  obtain ⟨v, hv, gv⟩ : ∃ y, find? s1.teams c.tid = some y ∧ y.unmarked = u.unmarked := by
    have := g1.teams c.tid
    rw [hu] at this
    simpa using this
  have m : movedOn s c g u n = { s with teams := put s.teams c.tid (adjustArm u c.arm (arrived c g n)) } := rfl
  rw [m]
  constructor
  · rw [g1.rest]
  · intro k
    simp only [g2, find?_adjust, find?_put]
    split
    · next e =>
      rw [hv]
      simp only [Option.map_some]
      rw [adjustArm_unmarked gv]
    · exact g1.teams k
  · exact g1.blocks
  · exact g1.cores
  · exact g1.quads

/-- An action that is done to each of a list, when it does nothing to any of them. -/
theorem outcome_each_skip {α : Type} (f : α → Act Unit) (s : State) (l : List α)
    (h : ∀ a ∈ l, outcome (f a) s = (.ok (), s)) : outcome (each l f) s = (.ok (), s) := by
  induction l with
  | nil => rfl
  | cons a l ih =>
    unfold each
    rw [outcome_bind_ok (h a (by simp))]
    exact ih fun b hb => h b (by simp [hb])

/-- The parts of a context that hold in the state. -/
theorem cxOf_some {s : State} {tid arm : Nat} {bt : Bt} {c : Cx} (h : cxOf s tid arm bt = some c) :
    c.tid = tid ∧ c.arm = arm ∧ c.bt = bt ∧ find? s.teams tid = some c.t ∧ armOf c.t arm = some c.a ∧
      find? s.blocks c.t.bid = some c.b ∧ c.l = launchOf s c.b.launch ∧ c.gm = governing c.t c.a := by
  unfold cxOf at h
  split at h
  · contradiction
  · next t ht =>
    split at h
    · next a b ha hb =>
      simp only [Option.some.injEq] at h
      subst h
      exact ⟨rfl, rfl, rfl, ht, ha, hb, rfl, rfl⟩
    · contradiction

/-- Nothing is spilled for registers that are resident (07 R198). -/
theorem outcome_residency {g : Sig} {s : State} {c : Cx} (hc : cxOf s c.tid c.arm c.bt = some c)
    (h : ∀ x ∈ touched c g, x < c.t.lo + c.t.frame) : outcome (residency c g) s = (.ok (), s) := by
  unfold residency
  split
  · refine outcome_each_skip _ _ _ fun x hx => ?_
    have ht := (cxOf_some hc).2.2.2.1
    unfold makeResident
    rw [outcome_bind_ok (outcome_get s)]
    simp only [ht, h x hx, if_true]
    rfl
  · rfl

/-- Taking no lane away from a mask. -/
theorem and_not_zero (m : Mask) : m &&& ~~~(0 : Mask) = m := by
  apply BitVec.eq_of_getLsbD_eq
  intro i hi
  have z : (0 : Mask).getLsbD i = false := BitVec.getLsbD_zero
  rw [BitVec.getLsbD_and, BitVec.getLsbD_not, z]
  simp [hi]

/-- What a slice does not refuse is as it is without a second try. -/
theorem outcome_steady {α : Type} {m : Act α} {s t : State} {a : α} (h : outcome m s = (.ok a, t)) :
    outcome (steady m) s = (.ok a, t) := by
  have e : outcome (steady m) s = (match outcome m s with
      | (.error (.wait .refused), t) => (.error (.wait .refused), keepingTraffic s t)
      | (r, t) => (r, t)) := rfl
  rw [e, h]

/-- The lanes of an instruction of which nothing has been performed, when none reads poison: all of them. -/
theorem performLanes_ok {g : Sig} {s s1 : State} {c : Cx} {n : Next} {body : Cx → Act Next} (hf : c.a.redo = none)
    (hp : poisonedLanes c g = 0) (hb : outcome (body c) s = (.ok n, s1)) :
    runAct (performLanes c g body) s = runAct (finish c g n) s1 := by
  have hg : ({ c with gm := c.gm &&& ~~~(0 : Mask) } : Cx) = c := by rw [and_not_zero]
  have hl : redoLanes c = c.gm := by simp [redoLanes, hf]
  have hn : ∀ d, priorTrap c 0 d = none := fun d => by simp [priorTrap, hf]
  unfold performLanes
  simp only [hl]
  rw [show poisonedLanes ({ c with gm := c.gm } : Cx) g = 0 from hp, hg, hn]
  simp only [Option.filter_none]
  rw [runAct_bind_ok (outcome_attempt _ _), outcome_steady hb]
  simp only [settle, hn]

/-- An instruction that is ready and whose effect completes: it finishes from the state that its effect leaves. -/
theorem perform_ok {g : Cx → Sig} {s s1 : State} {c : Cx} {n : Next} {body : Cx → Act Next} (h : Prepared g s c)
    (hb : outcome (body c) s = (.ok n, s1)) : teamStep g body s = .next (runAct (finish c (g c) n) s1) := by
  have hr : outcome (do (g c).early; residency c (g c)) s = (.ok (), s) := by
    rw [outcome_bind_ok h.early]
    exact outcome_residency h.here h.resident
  have hl : lostSpill c = none := by simp [lostSpill, h.fresh]
  unfold teamStep
  rw [h.focus]
  simp only [h.here]
  congr 1
  unfold perform
  rw [runAct_bind_ok (outcome_get s)]
  simp only [h.legal, Option.map_none, hl]
  rw [runAct_bind_ok (outcome_attempt _ _), outcome_steady hr]
  simp only
  rw [runAct_bind_ok (outcome_get s)]
  simp only [h.here]
  exact performLanes_ok h.fresh h.clean hb

/-- An instruction that is ready and whose effect completes has completed. -/
theorem teamStep_completes {g : Cx → Sig} {s s1 : State} {c : Cx} {n : Next} {u : Team} {body : Cx → Act Next}
    (h : Prepared g s c) (hb : outcome (body c) s = (.ok n, s1)) (hu : find? s1.teams c.tid = some u) :
    Completes (teamStep g body s) s1 c (g c) u n :=
  ⟨_, perform_ok h hb, finish_ok c (g c) n s1 u hu⟩

/-- movedOn sets the team whatever stood in its place. -/
theorem chargedOnly_movedOn {s s1 t : State} {c : Cx} {g : Sig} {u : Team} {n : Next}
    (hs : s1 = { s with teams := s1.teams }) (hk : ∀ k, k ≠ c.tid → find? s1.teams k = find? s.teams k)
    (h : ChargedOnly (movedOn s1 c g u n) t) : ChargedOnly (movedOn s c g u n) t where
  rest := by rw [h.rest, hs]; rfl
  teams k := by
    rw [h.teams k]
    simp only [movedOn, withTeam_teams, find?_put]
    split
    · rfl
    · next e => rw [hk k e]
  blocks k := by rw [h.blocks k, hs]; rfl
  cores k := by rw [h.cores k, hs]; rfl
  quads k := by rw [h.quads k, hs]; rfl

/-- An instruction whose effect is a change of its team. -/
theorem teamStep_team {g : Cx → Sig} {s : State} {c : Cx} {n : Next} {body : Cx → Act Next} {f : Team → Team}
    (h : Prepared g s c)
    (hb : outcome (body c) s = (.ok n, { s with teams := adjust s.teams c.tid f })) :
    Completes (teamStep g body s) s c (g c) (f c.t) n := by
  have ht := (cxOf_some h.here).2.2.2.1
  obtain ⟨t, ho, k⟩ := teamStep_completes (u := f c.t) h hb (by simp [find?_adjust, ht])
  exact ⟨t, ho, chargedOnly_movedOn rfl (fun k hk => by simp [find?_adjust, hk]) k⟩

/-- An instruction whose effect is a pure change of its team. -/
theorem teamStep_pure {g : Cx → Sig} {s : State} {c : Cx} {f : Cx → Team → Team} (h : Prepared g s c) :
    Completes (teamStep g (pureBody f) s) s c (g c) (f c c.t) .on :=
  teamStep_team h (by unfold pureBody; rw [outcome_bind_ok (outcome_modTeam _ _ _)]; rfl)

/-- An instruction that only moves its arm. -/
theorem teamStep_moves {g : Cx → Sig} {s : State} {c : Cx} {n : Next} {body : Cx → Act Next} (h : Prepared g s c)
    (hb : outcome (body c) s = (.ok n, s)) : Completes (teamStep g body s) s c (g c) c.t n :=
  teamStep_completes h hb (cxOf_some h.here).2.2.2.1

end Sys2Proof.Machine
end

