-- ==== Sys2Proof/Laws/Traffic.lean ====
section
/-! SUPPORT. What messages and base-domain charges do: they complete, and change the counters of flows and the base-domain
charges alone. -/
namespace Sys2Proof.Machine
open Sys2Proof

/-- The second state differs from the first at most in what messages change. -/
def TrafficOnly (s t : State) : Prop :=
  t = { s with flows := t.flows, baseCharges := t.baseCharges, baseHost := t.baseHost, blockBase := t.blockBase }

theorem TrafficOnly.refl (s : State) : TrafficOnly s s := rfl

theorem TrafficOnly.trans {s t u : State} (h : TrafficOnly s t) (k : TrafficOnly t u) : TrafficOnly s u := by
  unfold TrafficOnly at *
  rw [k, h]

/-- Teams, blocks and keys stand as they were. -/
theorem TrafficOnly.keeps {s t : State} (h : TrafficOnly s t) :
    t.teams = s.teams ∧ t.blocks = s.blocks ∧ t.keys = s.keys ∧ t.mem = s.mem ∧ t.llc = s.llc := by
  unfold TrafficOnly at h
  exact ⟨by rw [h], by rw [h], by rw [h], by rw [h], by rw [h]⟩

/-- An action that completes, and whose effect is traffic. -/
def Traffic (m : Act Unit) : Prop := ∀ s, ∃ t, outcome m s = (.ok (), t) ∧ TrafficOnly s t

theorem traffic_pure : Traffic (pure ()) := fun s => ⟨s, rfl, rfl⟩

theorem traffic_seq {m : Act Unit} {n : Unit → Act Unit} (h : Traffic m) (k : ∀ x, Traffic (n x)) : Traffic (m >>= n) := by
  intro s
  obtain ⟨t, ht, et⟩ := h s
  obtain ⟨u, hu, eu⟩ := k () t
  exact ⟨u, by rw [outcome_bind_ok ht, hu], et.trans eu⟩

theorem traffic_each {α : Type} {f : α → Act Unit} (h : ∀ x, Traffic (f x)) : ∀ l, Traffic (each l f)
  | [] => traffic_pure
  | x :: l => traffic_seq (h x) fun _ => traffic_each h l

theorem traffic_modify {f : State → State} (h : ∀ s, TrafficOnly s (f s)) : Traffic (modify f) :=
  fun s => ⟨f s, rfl, h s⟩

/-- A base-domain charge (03 R71). -/
theorem chargeBase_traffic (quad : Nat) (ctx : Option Nat) (cls n : Nat) : Traffic (chargeBase quad ctx cls n) := by
  cases ctx with
  | none => exact traffic_modify fun _ => rfl
  | some x =>
    refine traffic_modify fun s => ?_
    unfold spendBase
    split <;> rfl

/-- A message (01 R19). -/
theorem sendMessage_traffic (ctx : Option Nat) (world : Nat) (src dst : Nat × Nat) (ch : Channel) (n : Nat) :
    Traffic (sendMessage ctx world src dst ch n) :=
  traffic_seq (traffic_each (fun _ => chargeBase_traffic _ _ _ _) _) fun _ => traffic_modify fun _ => rfl

/-- A command and its answer (01 R19). -/
theorem command_traffic (ctx : Option Nat) (world : Nat) (src dst : Nat × Nat) (n : Nat) :
    Traffic (command ctx world src dst n) :=
  traffic_seq (sendMessage_traffic _ _ _ _ _ _) fun _ => sendMessage_traffic _ _ _ _ _ _

/-- The commands of a new key (04 R117). -/
theorem secretCommand_traffic (ctx : Option Nat) (world : Nat) (src : Nat × Nat) : Traffic (secretCommand ctx world src) :=
  traffic_seq (command_traffic _ _ _ _ _) fun _ =>
    traffic_seq (traffic_each (fun _ => command_traffic _ _ _ _ _) _) fun _ => traffic_each (fun _ => chargeBase_traffic _ _ _ _) _

/-- The commands of a key operation (04 R120). -/
theorem keyCommand_traffic (ctx : Option Nat) (world : Nat) (src : Nat × Nat) : Traffic (keyCommand ctx world src) :=
  traffic_each (fun _ => traffic_seq (command_traffic _ _ _ _ _) fun _ => chargeBase_traffic _ _ _ _) _

/-! ### Actions that never stop -/

/-- An action that completes from every state. -/
def Finishes (m : Act Unit) : Prop := ∀ s, ∃ t, outcome m s = (.ok (), t)

theorem Traffic.finishes {m : Act Unit} (h : Traffic m) : Finishes m := fun s => (h s).imp fun _ k => k.1

theorem finishes_modify (f : State → State) : Finishes (modify f) := fun s => ⟨f s, rfl⟩

theorem finishes_seq {m : Act Unit} {n : Unit → Act Unit} (h : Finishes m) (k : ∀ x, Finishes (n x)) : Finishes (m >>= n) := by
  intro s
  obtain ⟨t, ht⟩ := h s
  obtain ⟨u, hu⟩ := k () t
  exact ⟨u, by rw [outcome_bind_ok ht, hu]⟩

theorem finishes_get {f : State → Act Unit} (h : ∀ s, Finishes (f s)) : Finishes (get >>= f) := fun s => h s s

theorem finishes_each {α : Type} {f : α → Act Unit} (h : ∀ x, Finishes (f x)) : ∀ l, Finishes (each l f)
  | [] => fun s => ⟨s, rfl⟩
  | x :: l => finishes_seq (h x) fun _ => finishes_each h l

theorem raiseGen_finishes (slot : Nat) : Finishes (raiseGen slot) := by
  refine finishes_get fun s => ?_
  dsimp only
  split
  · exact finishes_modify _
  · exact finishes_modify _

theorem discardLines_finishes (p : L1Line → Bool) (core : Nat) : Finishes (discardLines p core) :=
  finishes_get fun _ => finishes_modify _

theorem discardChunks_finishes (p : Chunk → Bool) (bid : Nat) : Finishes (discardChunks p bid) := by
  refine finishes_get fun s => ?_
  split
  · exact traffic_pure.finishes
  · exact finishes_seq (finishes_modify _) fun _ => finishes_modify _

/-- The end of a slot (04 R120). -/
theorem destroySlot_finishes (ctx : Option Nat) (world : Nat) (src : Nat × Nat) (slot : Nat) :
    Finishes (destroySlot ctx world src slot) := by
  refine finishes_get fun s => finishes_seq (keyCommand_traffic _ _ _).finishes fun _ =>
    finishes_seq (raiseGen_finishes slot) fun _ => finishes_seq (finishes_modify _) fun _ =>
      finishes_get fun t => finishes_each (fun c => ?_) _
  exact finishes_seq (command_traffic _ _ _ _ _).finishes fun _ =>
    finishes_seq (discardLines_finishes _ _) fun _ => finishes_get fun u => finishes_each (fun b => discardChunks_finishes _ b) _

end Sys2Proof.Machine
end

