-- ==== Sys2Proof/Tests/Slice0.lean ====
section
/-! SUPPORT. Tests: an ill-formed term for each check of WellFormed, words of every family written out from the
manual's encodings, results worked out by hand from the manual, and states that meet the premises of the statements. -/
namespace Sys2Proof.Tests
open Sys2Proof Sys2Proof.Machine

set_option Elab.async false

/-! ### Small states

One block of one team of 32 lanes on program core 1, as `State.withFetchWord` places it, with its arm in focus. -/

/-- The context of the arm in focus. -/
def cxAt (s : State) : Cx :=
  let blank : Cx := ⟨0, 0, .d, newTeam 0 0 Launch.blank 0 0, newArm 0 0, newBlock s 0 0 0, Launch.blank, 0⟩
  match s.focus with
  | .team tid arm bt => (cxOf s tid arm bt).getD blank
  | _ => blank

/-- Whether there is an arm in focus. -/
def hasCx (s : State) : Bool :=
  match s.focus with
  | .team tid arm bt => (cxOf s tid arm bt).isSome
  | _ => false

theorem cx_focus {s : State} (h : hasCx s = true) : s.focus = .team (cxAt s).tid (cxAt s).arm (cxAt s).bt := by
  unfold hasCx at h
  unfold cxAt
  split at h
  · next tid arm bt hf =>
    obtain ⟨c, hc⟩ := Option.isSome_iff_exists.mp h
    simp only [hc, Option.getD_some]
    rw [hf, (cxOf_some hc).1, (cxOf_some hc).2.1, (cxOf_some hc).2.2.1]
  · contradiction

theorem cx_here {s : State} (h : hasCx s = true) : cxOf s (cxAt s).tid (cxAt s).arm (cxAt s).bt = some (cxAt s) := by
  unfold hasCx at h
  unfold cxAt
  split at h
  · obtain ⟨c, hc⟩ := Option.isSome_iff_exists.mp h
    simp only [hc, Option.getD_some]
    rw [(cxOf_some hc).1, (cxOf_some hc).2.1, (cxOf_some hc).2.2.1]
    exact hc
  · contradiction

/-- Whether checks pass, and change nothing. -/
def passes (m : Act Unit) (s : State) : Bool :=
  match m.run.run s with
  | (.ok _, t) => decide (t = s)
  | _ => false

/-- Whether the arm in focus is ready for a declaration, but for its early checks. -/
def nearlyIn (g : Cx → Sig) (s : State) : Bool :=
  hasCx s && (precheck s (cxAt s) (g (cxAt s))).isNone && (cxAt s).a.redo.isNone &&
    (poisonedLanes (cxAt s) (g (cxAt s)) == 0) &&
    (touched (cxAt s) (g (cxAt s))).all fun x => decide (x < (cxAt s).t.lo + (cxAt s).t.frame)

/-- Whether the arm in focus is ready for a declaration. -/
def readyIn (g : Cx → Sig) (s : State) : Bool := nearlyIn g s && passes (g (cxAt s)).early s

theorem prepFrom {g : Cx → Sig} {s : State} (h : nearlyIn g s = true)
    (e : outcome (g (cxAt s)).early s = (.ok (), s)) : Prepared g s (cxAt s) := by
  unfold nearlyIn at h
  simp only [Bool.and_eq_true, beq_iff_eq, Option.isNone_iff_eq_none, List.all_eq_true, decide_eq_true_eq] at h
  obtain ⟨⟨⟨⟨h1, h2⟩, h3⟩, h4⟩, h6⟩ := h
  exact ⟨cx_focus h1, cx_here h1, h2, e, h6, h3, h4⟩

theorem prep {g : Cx → Sig} {s : State} (h : readyIn g s = true) : Prepared g s (cxAt s) := by
  unfold readyIn at h
  rw [Bool.and_eq_true] at h
  refine prepFrom h.1 ?_
  have h5 := h.2
  unfold passes at h5
  split at h5
  · next t ht => exact ht.trans (by rw [of_decide_eq_true h5])
  · contradiction

/-- The arm in focus is ready for every declaration of a list. -/
theorem preps {gs : List (Cx → Sig)} {s : State} (h : (gs.all fun g => readyIn g s) = true) :
    ∀ g ∈ gs, Prepared g s (cxAt s) := fun g k => prep (List.all_eq_true.mp h g k)

/-- Whether an action answers a value. -/
def gives {α : Type} [DecidableEq α] (m : Act α) (s : State) (a : α) : Bool :=
  match (m.run.run s).1 with
  | .ok x => decide (x = a)
  | .error _ => false

theorem ans {α : Type} [DecidableEq α] {m : Act α} {s : State} {a : α} (h : gives m s a = true) :
    Answers m s a (runAct m s) := by
  unfold gives at h
  unfold Answers runAct
  split at h
  · next x hx => exact Prod.ext (by rw [hx, of_decide_eq_true h]) rfl
  · contradiction

/-- Whether an action stops in a way. -/
def stopsBy {α : Type} (m : Act α) (s : State) (e : Stop) : Bool :=
  match (m.run.run s).1 with
  | .ok _ => false
  | .error x => decide (x = e)

theorem stp {α : Type} {m : Act α} {s : State} {e : Stop} (h : stopsBy m s e = true) : Stops m s e (runAct m s) := by
  unfold stopsBy at h
  unfold Stops runAct
  split at h
  · contradiction
  · next x hx => exact Prod.ext (by rw [hx, of_decide_eq_true h]) rfl

/-- The answer of an action that completes. -/
def answer {α : Type} (m : Act α) (s : State) (d : α) : α :=
  match (m.run.run s).1 with
  | .ok x => x
  | .error _ => d

def held : State := State.reset.withFetchWord 32 0

/-- The team changed and its arm in focus. -/
def inTeam (bt : Bt) (f : Team → Team) : State :=
  { held with agenda := [], focus := .team 8 0 bt, teams := held.teams.map fun e => (e.1, f e.2) }

/-- A firmware team on core 0. -/
def inFirmware (f : Team → Team) : State :=
  let s := State.reset.withFetchWord 32 0xf2000000
  { s with agenda := [], focus := .team 8 0 .t, teams := s.teams.map fun e => (e.1, f e.2) }

/-- Every lane's pair v_i, v_i+1. -/
def setV (i n : Nat) (t : Team) : Team := putLanes true (.v i) (fullMask 32) (fun _ => n) t
def setS (i n : Nat) (t : Team) : Team := putScalar (.s i) n t
def setArm (f : Arm → Arm) (t : Team) : Team := { t with a0 := t.a0.map f }
/-- The mode's element type. -/
def typed (e : Nat) (t : Team) : Team := setArm (fun a => { a with mode := BitVec.ofNat 16 (8 * e) }) t
def setBlock (f : Block → Block) (s : State) : State := { s with blocks := s.blocks.map fun e => (e.1, f e.2) }
def setLaunch (f : Launch → Launch) (s : State) : State := { s with launches := s.launches.map fun e => (e.1, f e.2) }

/-- Whether a map decodes a word to an instruction. -/
def decodesTo (r : Except DecodeError Instr) (i : Instr) : Bool :=
  match r with
  | .ok j => decide (j = i)
  | .error _ => false

theorem word {r : Except DecodeError Instr} {i : Instr} (h : decodesTo r i = true) : r = .ok i := by
  unfold decodesTo at h
  split at h
  · rw [of_decide_eq_true h]
  · contradiction

/-- Whether the machine goes on. -/
def goesOn (o : Host.Outcome State Fault Refusal) : Bool :=
  match o with
  | .next _ => true
  | _ => false

theorem goes {o : Host.Outcome State Fault Refusal} (h : goesOn o = true) : ∃ t, o = .next t := by
  unfold goesOn at h
  split at h
  · exact ⟨_, rfl⟩
  · contradiction
def setWord (i n : Nat) (s : State) : State :=
  setLaunch (fun l => { l with words := l.words.set i (BitVec.ofNat 64 n) }) s

/-- The lane with number 0 alone. -/
def oneLane (t : Team) : Team := setArm (fun a => { a with exec := 1 }) t
/-- A launch with a trap handler. -/
def handled (s : State) : State := setWord 2 0x10020 s

/-- Whether a trap can be taken here. -/
def canTrap (c : Cx) : Bool :=
  launchHandler c.l != 0 && !c.b.residual && (List.range 3).all (fun k => (stackOf c.t k).spilled == 0) &&
    (List.range 3).all (fun k => !hwHolds (stackOf c.t k) .trap) &&
    decide (stackDepth (stackOf c.t (stackIx c.t c.arm)) < 256) && decide (hwHeld c.t < 16)

theorem traps {c : Cx} (h : canTrap c = true) : TakesTraps c := by
  unfold canTrap at h
  simp only [Bool.and_eq_true, bne_iff_ne, ne_eq, Bool.not_eq_true', List.all_eq_true, List.mem_range, beq_iff_eq,
    decide_eq_true_eq] at h
  obtain ⟨⟨⟨⟨⟨h1, h2⟩, h3⟩, h4⟩, h5⟩, h6⟩ := h
  exact ⟨h1, h2, fun k hk => h3 k hk, fun k hk => h4 k hk, h5, h6⟩

/-- A team split at lane 0, with the rejoin where its arms stand. -/
def splitTeam (w : Wait) (t : Team) : Team :=
  { t with
    split := true
    stack := ⟨[⟨.split, true, 0, 0, 0, placedAt, 0, fullMask 32, 1⟩], 0⟩
    a0 := t.a0.map fun a => { a with exec := fullMask 32 &&& ~~~1#1024, jt := some placedAt }
    a1 := t.a0.map fun a => { a with exec := 1, wait := w } }

def callEntry (c : Cx) : StackEntry :=
  ⟨.call, false, (nextPlace c.a.pc c.a.slot).2, c.a.mode, 0, (nextPlace c.a.pc c.a.slot).1, c.t.w, c.a.exec, 0⟩

/-- As `gives`, for an answer of three parts whose last is none. -/
def says3 {α β γ : Type} [DecidableEq α] [DecidableEq β] (m : Act (α × β × Option γ)) (s : State) (a : α) (b : β) : Bool :=
  match (m.run.run s).1 with
  | .ok (x, y, none) => decide (x = a) && decide (y = b)
  | _ => false

theorem ans3 {α β γ : Type} [DecidableEq α] [DecidableEq β] {m : Act (α × β × Option γ)} {s : State} {a : α} {b : β}
    (h : says3 m s a b = true) : Answers m s (a, b, none) (runAct m s) := by
  unfold says3 at h
  unfold Answers runAct
  split at h
  · next x y hx =>
    simp only [Bool.and_eq_true, decide_eq_true_eq] at h
    exact Prod.ext (by rw [hx, h.1, h.2]) rfl
  · contradiction

/-- The team of the small states. -/
def mate (s : State) : Team := (find? s.teams 8).getD (newTeam 0 0 Launch.blank 0 0)
/-- The block of the small states. -/
def theBlock (s : State) : Block := (find? s.blocks 1).getD (newBlock s 0 0 0)

/-- As `gives`, for an answer and a stop that may follow it. -/
def says2 {α β : Type} [DecidableEq α] (m : Act (α × Option β)) (s : State) (a : α) : Bool :=
  match (m.run.run s).1 with
  | .ok (x, none) => decide (x = a)
  | _ => false

theorem ans2 {α β : Type} [DecidableEq α] {m : Act (α × Option β)} {s : State} {a : α} (h : says2 m s a = true) :
    Answers m s (a, none) (runAct m s) := by
  unfold says2 at h
  unfold Answers runAct
  split at h
  · next x hx => exact Prod.ext (by rw [hx, of_decide_eq_true h]) rfl
  · contradiction

/-- Whether an action answers with nothing. -/
def saysNone {α : Type} (m : Act (Option α)) (s : State) : Bool :=
  match (m.run.run s).1 with
  | .ok none => true
  | _ => false

theorem ansNone {α : Type} {m : Act (Option α)} {s : State} (h : saysNone m s = true) : Answers m s none (runAct m s) := by
  unfold saysNone at h
  unfold Answers runAct
  split at h
  · next hx => exact Prod.ext (by rw [hx]) rfl
  · contradiction

/-- An action that answers and changes nothing. -/
theorem ansSame {α : Type} [DecidableEq α] {m : Act α} {s : State} {a : α} (h : gives m s a = true) (k : runAct m s = s) :
    Answers m s a s := by
  have e := ans h
  rwa [k] at e

theorem sides_same {c : Cx} {l : List (Nat × Nat × Bool)} {s : State}
    (h : (l.all fun x => engAddrOk x.1) = true)
    (k : (l.find? fun x => !stashRangeOk c.b.stashSize x.1 x.2.1) = none) : Answers (checkSides c l) s () s := by
  unfold checkSides Answers
  rw [h, k]
  rfl

/-- A partition of quadrant 0 that world 1 owns. -/
def aPartition : Partition :=
  { quads := [0], world := some 1, fn := 0, mw := 0, lo := 0, hi := 0, floorMw := 0, floorNow := 0, triggers := [], queue := []
    held := [], tenants := [], faultFree := 2, faultWait := [], spec := [], gang := none, tasks := [], nextCore := 0, reserved := []
    resizing := none, capStatus := 0, asked := 0, newMw := none, energies := [], dynamics := [], bases := [] }
def withPart (p : Partition) (s : State) : State := { s with partitions := [(0, p)] }
def memAt (ma : Nat) (bs : List (BitVec 8)) (s : State) : State := { s with mem := writeMem s.mem ma bs }

/-! A block whose stream is bound, with the stream in focus. -/

def sxIn (s : State) : Sx := ⟨1, theBlock s, launchOf s 1⟩

def inStream (f : Stream → Stream) : State :=
  { setBlock (fun b => { b with
      stashSize := 65536
      stream := f { Stream.idle with bound := true, pc := placedAt, binder := 8 } }) held with
    agenda := [], focus := .stream 1 .t }

theorem sx_here {s : State} (h : find? s.blocks 1 = some (theBlock s))
    (k : ((theBlock s).stream.bound && (theBlock s).launch == 1) = true) : sxOf s (sxIn s).bid = some (sxIn s) := by
  simp only [Bool.and_eq_true, beq_iff_eq] at k
  simp only [sxOf, sxIn, h, k.1, k.2, if_true]

/-- Whether an action completes. -/
def completes {α : Type} (m : Act α) (s : State) : Bool :=
  match (m.run.run s).1 with
  | .ok _ => true
  | .error _ => false

theorem ansIts {α : Type} {m : Act α} {s : State} {d : α} (h : completes m s = true) : Answers m s (answer m s d) (runAct m s) := by
  unfold completes at h
  unfold Answers answer runAct
  split at h
  · next x hx => exact Prod.ext (by rw [hx]) rfl
  · contradiction

theorem blockHere {s : State} (h : (find? s.blocks 1).isSome = true) : find? s.blocks 1 = some (theBlock s) := by
  obtain ⟨b, hb⟩ := Option.isSome_iff_exists.mp h
  simp only [theBlock, hb, Option.getD_some]

/-- The first arm of a team. -/
def theArm (t : Team) : Arm := t.a0.getD (newArm 0 0)

theorem armHere {t : Team} (h : t.a0.isSome = true) : armOf t 0 = some (theArm t) := by
  obtain ⟨a, ha⟩ := Option.isSome_iff_exists.mp h
  simp only [armOf, theArm, ha, if_true, Option.getD_some]

/-- A machine in which the page of the small states is in every slice's translation cache. -/
def paged (s : State) : State :=
  { s with tlb := (List.range 64).foldl (fun t i => put t (tlbKey 0x10000 1 i) ⟨1, 1, 1, 1, 1, true, true, true, 1, 1, false⟩) s.tlb }


/-! ### Ill-formed terms: one for each check -/

theorem test_ill_formed_operands :
    (Instr.add (.v 192) (.v 0) (.v 0)).wf = false ∧ (Instr.add (.v 0) (.s 48) (.v 0)).wf = false ∧
    (Instr.add (.v 0) (.v 0) (.k 16)).wf = false ∧ (Instr.abs (.v 0) (.v 200)).wf = false ∧ (Instr.jmpi (.s 48)).wf = false ∧
    (Instr.seqnew (.k 16)).wf = false ∧ (Instr.add (.v 191) (.s 47) (.k 15)).wf = true := by decide

theorem test_ill_formed_fields :
    (Instr.mode 4096).wf = false ∧ (Instr.modeg (.s 0) 32).wf = false ∧ (Instr.bra 16777216).wf = false ∧
    (Instr.brz 8 false 0).wf = false ∧ (Instr.brz 0 false 1048576).wf = false ∧ (Instr.call 16 0).wf = false ∧
    (Instr.trap 65536).wf = false ∧ (Instr.addi (.v 0) (.v 0) 256).wf = false ∧ (Instr.mand 0 8 0).wf = false ∧
    (Instr.cvti (.v 0) (.v 0) 4 0 0).wf = false ∧ (Instr.cvti (.v 0) (.v 0) 0 8 0).wf = false ∧ (Instr.frcp (.v 0) (.v 0) 16).wf = false ∧
    (Instr.frnd (.v 0) (.v 0) 8).wf = false ∧ (Instr.red (.v 0) (.v 0) 16).wf = false ∧ (Instr.ld (.v 0) (.v 0) 0 false 4).wf = false ∧
    (Instr.fence 8 1).wf = false ∧ (Instr.stmap 8 (.s 0) (.s 0)).wf = false ∧ (Instr.nbarw 16).wf = false ∧ (Instr.ebkt (.s 0) 4).wf = false ∧
    (Instr.erdh (.s 0) 0 16 0).wf = false ∧ (Instr.keygen (.s 0) 64).wf = false ∧ (Instr.clear (.s 0) 16).wf = false ∧
    (Instr.accz 32).wf = false ∧ (Instr.convset (.k 0) 4096).wf = false ∧ (Instr.mloop 256 0).wf = false := by decide

theorem test_ill_formed_values :
    (Instr.ld (.v 0) (.v 0) 0 true 0).wf = false ∧ (Instr.lda (.v 0) (.v 0) 0 false 7).wf = false ∧
    (Instr.lda (.v 0) (.v 0) 0 true 4).wf = false ∧ (Instr.stl false 7 (.v 0) (.v 0)).wf = false ∧ (Instr.pref 3 (.v 0)).wf = false ∧
    (Instr.fence 0 0).wf = false ∧ (Instr.waitc 3 0 (.s 0) (.s 0)).wf = false ∧ (Instr.joinc 0 7 (.s 0) (.s 0)).wf = false ∧
    (Instr.lda (.v 0) (.v 0) 0 true 5).wf = true := by decide

theorem test_ill_formed_events :
    (Instr.tileGrant 192).wf = false ∧ (Instr.spendLimitReached 768 0).wf = false ∧ (Instr.spendLimitReached 0 1024).wf = false ∧
    (Instr.opSlewComplete 16).wf = false ∧ (Instr.counterUpdate 64 0 0).wf = false ∧ (Instr.waitPoll 0 2).wf = false ∧
    (Instr.dispatchRound 16).wf = false ∧ (Instr.firmwareTimer 4).wf = false ∧ (Instr.rensarTimeout 16 0).wf = false ∧
    (Instr.rensarTimeout 0 4096).wf = false ∧ (Instr.refresh 64 0).wf = false ∧ (Instr.keyInstallComplete 4096).wf = false ∧
    (Instr.drainToken 64 0).wf = false ∧ (Instr.injectHbmDouble 0 8 false).wf = false ∧ (Instr.droop 32).wf = false ∧
    (Instr.stackTemperatureLimit 16 0).wf = false ∧ (Instr.unitGate 0 13).wf = false ∧ (Instr.rangeRegisterWrite 0 0 8 0 0).wf = false ∧
    (Instr.rangeRegisterWrite 0 0 0 3 0).wf = false := by decide

/-! ### Words that are no instruction (07 R190, 18 R426) -/

def refusedAs (r : Except DecodeError Instr) (e : DecodeError) : Bool :=
  match r with
  | .ok _ => false
  | .error x => decide (x = e)

theorem test_refused_words :
    refusedAs (decodeTeam 0x16000000) .reservedOpcode = true ∧ refusedAs (decodeTeam 0xff000000) .reservedOpcode = true ∧
    refusedAs (decodeStream 0x14000000) .reservedOpcode = true ∧ refusedAs (decodeTeam 0x00000001) .reservedField = true ∧
    refusedAs (decodeTeam 0x18080000) .reservedField = true ∧ refusedAs (decodeStream 0x01001000) .reservedField = true := by
  decide +kernel

/-! ### Results worked out by hand from the manual -/

/-- The state after an instruction, with the same arm in focus. -/
def after (i : Instr) (s : State) : State :=
  match exec i s with
  | .next t => { t with focus := s.focus }
  | _ => s
/-- Lane 0 of v4 and the whole of s4 after an instruction. -/
def lane4 (i : Instr) (s : State) : Nat := laneVal (cxAt (after i s)) false 0 (.v 4)
def scalar4 (i : Instr) (s : State) : Nat := (opScalar (cxAt (after i s)) (.s 4)).toNat
/-- v4, v5 and v6, in element type e, with lane 0 alone running; s5 and s6. -/
def lanes (e x y z : Nat) : State := inTeam .d fun t => oneLane <| typed e (setV 6 z (setV 5 y (setV 4 x t)))
def scalars (e x y : Nat) : State := inTeam .t fun t => typed e (setS 6 y (setS 5 x t))

-- 08 R213, R236: modulo 2^32, and each byte by itself
theorem test_add_wraps : lane4 (.add (.v 4) (.v 5) (.v 6)) (lanes 5 0 0xffffffff 2) = 1 := by decide +kernel
theorem test_add_bytes : lane4 (.add (.v 4) (.v 5) (.v 6)) (lanes 1 0 0xff01ff01 0x01010101) = 0x00020002 := by decide +kernel
-- 08 R236: the high half of (-2^31)^2 = 2^62
theorem test_mulh : lane4 (.mulh (.v 4) (.v 5) (.v 6)) (lanes 4 0 0x80000000 0x80000000) = 0x40000000 := by decide +kernel
-- 08 R237: a division by zero gives all ones, and -2^31 / -1 wraps
theorem test_div_zero : scalar4 (.div (.s 4) (.s 5) (.s 6)) (scalars 6 9 0) = 0xffffffffffffffff := by decide +kernel
theorem test_div_wraps : lane4 (.div (.v 4) (.v 5) (.v 6)) (lanes 4 0 0x80000000 0xffffffff) = 0x80000000 := by decide +kernel
-- 08 R237: the remainder has the sign of the dividend: -7 = 2 * -3 + -1
theorem test_rem_sign : lane4 (.rem (.v 4) (.v 5) (.v 6)) (lanes 4 0 0xfffffff9 2) = 0xffffffff := by decide +kernel
-- 08 R239: the bits of each byte in reverse order
theorem test_brev_bytes : lane4 (.brev (.v 4) (.v 5)) (lanes 1 0 0x01020304 0) = 0x8040c020 := by decide +kernel
theorem test_popc : scalar4 (.popc (.s 4) (.s 5)) (scalars 7 0xf0f0 0) = 8 := by decide +kernel
-- 09 R251: 1.5 + 2.25 = 3.75; 2 * 3 + 1 = 7; 1 / 3 rounded to nearest
theorem test_fadd : lane4 (.fadd (.v 4) (.v 5) (.v 6)) (lanes 10 0 0x3fc00000 0x40100000) = 0x40700000 := by decide +kernel
theorem test_fma : lane4 (.fma (.v 4) (.v 5) (.v 6)) (lanes 10 0x3f800000 0x40000000 0x40400000) = 0x40e00000 := by decide +kernel
theorem test_fdiv : lane4 (.fdiv (.v 4) (.v 5) (.v 6)) (lanes 10 0 0x3f800000 0x40400000) = 0x3eaaaaab := by decide +kernel
-- the square root of 2 to the nearest
theorem test_fsqrt : lane4 (.fsqrt (.v 4) (.v 5) 0) (lanes 10 0 0x40000000 0) = 0x3fb504f3 := by decide +kernel
-- 09 R258: 1.0 of f32 as f64, in a pair
theorem test_cvtf : laneVal (cxAt (after (.cvtf (.v 4) (.v 6) 11) (lanes 10 0 0 0x3f800000))) true 0 (.v 4) = 0x3ff0000000000000 := by
  decide +kernel
-- 08 R240: -1 < 0 in lane 0, the only one that runs
theorem test_clt : (putScalar (.s 4) 0 (mate (after (.clt 1 (.v 5) (.v 6)) (lanes 4 0 0xffffffff 0)))).mreg.map (·.2.toNat) = [1] := by
  decide +kernel
-- 08 R217: two bundles of 32 bytes forward of the branch's own bundle
theorem test_bra : (cxAt (after (.bra 2) (scalars 0 0 0))).a.pc = placedAt + 64 := by decide +kernel
-- 08 R229: the handler runs in slot 1 with the entry of the trap on the stack
theorem test_trap : ((cxAt (after (.trap 5) (handled (scalars 0 0 0)))).a.pc, (cxAt (after (.trap 5) (handled (scalars 0 0 0)))).a.slot) =
    (0x10020, 1) := by decide +kernel
-- 09 R273, 00 R2: a store to the stash is little-endian
theorem test_sts : lineBytes (theBlock (after (.sts 0 (.v 5) (.v 6)) (lanes 4 0 16 0x01020304))).stash 16 4 =
    [4#8, 3#8, 2#8, 1#8] := by decide +kernel

/-! ### A word of every instruction, written out from the field places of the opcode table (07 R189, R202-R204) -/

theorem test_words_team0 :
    decodesTo (decodeTeam 0x00000000) .nop = true ∧
    decodesTo (decodeTeam 0x01000803) (.mode 2051) = true ∧
    decodesTo (decodeTeam 0x02050803) (.modet (.v 5) 2051) = true ∧
    decodesTo (decodeTeam 0x03050005) (.modeg (.v 5) 5) = true ∧
    decodesTo (decodeTeam 0x04800003) (.bra 8388611) = true ∧
    decodesTo (decodeTeam 0x05b80003) (.brz 5 true 524291) = true ∧
    decodesTo (decodeTeam 0x06b80003) (.brnz 5 true 524291) = true ∧
    decodesTo (decodeTeam 0x07b80003) (.brd 5 true 524291) = true ∧
    decodesTo (decodeTeam 0x08800003) (.joinset 8388611) = true ∧
    decodesTo (decodeTeam 0x09000000) .join = true ∧
    decodesTo (decodeTeam 0x0a580003) (.call 5 524291) = true ∧
    decodesTo (decodeTeam 0x0b000505) (.calli (.v 5) 5) = true ∧
    decodesTo (decodeTeam 0x0c000000) .ret = true ∧
    decodesTo (decodeTeam 0x0d000500) (.jmpi (.v 5)) = true ∧
    decodesTo (decodeTeam 0x0e000000) .exit = true ∧
    decodesTo (decodeTeam 0x0f000000) .demote = true := by
  decide +kernel

theorem test_words_team1 :
    decodesTo (decodeTeam 0x10008003) (.trap 32771) = true ∧
    decodesTo (decodeTeam 0x11000000) .rft = true ∧
    decodesTo (decodeTeam 0x12000000) .yield = true ∧
    decodesTo (decodeTeam 0x1305c6f7) (.refill (.v 5) (.s 6) (.k 7)) = true ∧
    decodesTo (decodeTeam 0x14058003) (.loop (.v 5) 32771) = true ∧
    decodesTo (decodeTeam 0x15000000) .endl = true ∧
    decodesTo (decodeTeam 0x18050603) (.mand 5 6 3) = true ∧
    decodesTo (decodeTeam 0x19050603) (.mor 5 6 3) = true ∧
    decodesTo (decodeTeam 0x1a050603) (.mxor 5 6 3) = true ∧
    decodesTo (decodeTeam 0x1b050600) (.mnot 5 6) = true ∧
    decodesTo (decodeTeam 0x1c050500) (.mcnt (.v 5) 5) = true ∧
    decodesTo (decodeTeam 0x1d050500) (.mfirst (.v 5) 5) = true ∧
    decodesTo (decodeTeam 0x1e050500) (.mset 5 (.v 5)) = true ∧
    decodesTo (decodeTeam 0x1f050600) (.mmov 5 6) = true := by
  decide +kernel

theorem test_words_team2 :
    decodesTo (decodeTeam 0x2005c6f7) (.add (.v 5) (.s 6) (.k 7)) = true ∧
    decodesTo (decodeTeam 0x2105c6f7) (.sub (.v 5) (.s 6) (.k 7)) = true ∧
    decodesTo (decodeTeam 0x2205c605) (.addi (.v 5) (.s 6) 5) = true ∧
    decodesTo (decodeTeam 0x2305c6f7) (.mul (.v 5) (.s 6) (.k 7)) = true ∧
    decodesTo (decodeTeam 0x2405c6f7) (.mulh (.v 5) (.s 6) (.k 7)) = true ∧
    decodesTo (decodeTeam 0x2505c6f7) (.mad (.v 5) (.s 6) (.k 7)) = true ∧
    decodesTo (decodeTeam 0x2605c6f7) (.div (.v 5) (.s 6) (.k 7)) = true ∧
    decodesTo (decodeTeam 0x2705c6f7) (.rem (.v 5) (.s 6) (.k 7)) = true ∧
    decodesTo (decodeTeam 0x2805c6f7) (.min (.v 5) (.s 6) (.k 7)) = true ∧
    decodesTo (decodeTeam 0x2905c6f7) (.max (.v 5) (.s 6) (.k 7)) = true ∧
    decodesTo (decodeTeam 0x2a05c600) (.abs (.v 5) (.s 6)) = true ∧
    decodesTo (decodeTeam 0x2b05c600) (.neg (.v 5) (.s 6)) = true ∧
    decodesTo (decodeTeam 0x2c05c6f7) (.and (.v 5) (.s 6) (.k 7)) = true ∧
    decodesTo (decodeTeam 0x2d05c6f7) (.or (.v 5) (.s 6) (.k 7)) = true ∧
    decodesTo (decodeTeam 0x2e05c6f7) (.xor (.v 5) (.s 6) (.k 7)) = true ∧
    decodesTo (decodeTeam 0x2f05c600) (.not (.v 5) (.s 6)) = true := by
  decide +kernel

theorem test_words_team3 :
    decodesTo (decodeTeam 0x3005c605) (.andi (.v 5) (.s 6) 5) = true ∧
    decodesTo (decodeTeam 0x3105c605) (.ori (.v 5) (.s 6) 5) = true ∧
    decodesTo (decodeTeam 0x3205c605) (.xori (.v 5) (.s 6) 5) = true ∧
    decodesTo (decodeTeam 0x3305c6f7) (.shl (.v 5) (.s 6) (.k 7)) = true ∧
    decodesTo (decodeTeam 0x3405c6f7) (.shr (.v 5) (.s 6) (.k 7)) = true ∧
    decodesTo (decodeTeam 0x3505c6f7) (.sha (.v 5) (.s 6) (.k 7)) = true ∧
    decodesTo (decodeTeam 0x3605c605) (.shli (.v 5) (.s 6) 5) = true ∧
    decodesTo (decodeTeam 0x3705c605) (.shri (.v 5) (.s 6) 5) = true ∧
    decodesTo (decodeTeam 0x3805c605) (.shai (.v 5) (.s 6) 5) = true ∧
    decodesTo (decodeTeam 0x3905c6f7) (.rol (.v 5) (.s 6) (.k 7)) = true ∧
    decodesTo (decodeTeam 0x3a05c600) (.clz (.v 5) (.s 6)) = true ∧
    decodesTo (decodeTeam 0x3b05c600) (.popc (.v 5) (.s 6)) = true ∧
    decodesTo (decodeTeam 0x3c05c600) (.brev (.v 5) (.s 6)) = true ∧
    decodesTo (decodeTeam 0x3d05c6f7) (.bfx (.v 5) (.s 6) (.k 7)) = true ∧
    decodesTo (decodeTeam 0x3e05c6f7) (.bfi (.v 5) (.s 6) (.k 7)) = true ∧
    decodesTo (decodeTeam 0x3f05c6f7) (.sel (.v 5) (.s 6) (.k 7)) = true := by
  decide +kernel

theorem test_words_team4 :
    decodesTo (decodeTeam 0x400505c6) (.ceq 5 (.v 5) (.s 6)) = true ∧
    decodesTo (decodeTeam 0x410505c6) (.cne 5 (.v 5) (.s 6)) = true ∧
    decodesTo (decodeTeam 0x420505c6) (.clt 5 (.v 5) (.s 6)) = true ∧
    decodesTo (decodeTeam 0x430505c6) (.cle 5 (.v 5) (.s 6)) = true ∧
    decodesTo (decodeTeam 0x440505c6) (.cgt 5 (.v 5) (.s 6)) = true ∧
    decodesTo (decodeTeam 0x450505c6) (.cge 5 (.v 5) (.s 6)) = true ∧
    decodesTo (decodeTeam 0x46058003) (.lim (.v 5) 32771) = true ∧
    decodesTo (decodeTeam 0x47058003) (.limh (.v 5) 32771) = true ∧
    decodesTo (decodeTeam 0x48058003) (.limx (.v 5) 32771) = true ∧
    decodesTo (decodeTeam 0x4905c600) (.mov (.v 5) (.s 6)) = true ∧
    decodesTo (decodeTeam 0x4b05000d) (.wfld (.v 5) true 5) = true ∧
    decodesTo (decodeTeam 0x4c05c6f7) (.lea (.v 5) (.s 6) (.k 7)) = true ∧
    decodesTo (decodeTeam 0x4d05c6f7) (.addc (.v 5) (.s 6) (.k 7)) = true ∧
    decodesTo (decodeTeam 0x4e05c673) (.cvti (.v 5) (.s 6) 1 6 3) = true := by
  decide +kernel

theorem test_words_team5 :
    decodesTo (decodeTeam 0x5005c6f7) (.fadd (.v 5) (.s 6) (.k 7)) = true ∧
    decodesTo (decodeTeam 0x5105c6f7) (.fsub (.v 5) (.s 6) (.k 7)) = true ∧
    decodesTo (decodeTeam 0x5205c6f7) (.fmul (.v 5) (.s 6) (.k 7)) = true ∧
    decodesTo (decodeTeam 0x5305c6f7) (.fma (.v 5) (.s 6) (.k 7)) = true ∧
    decodesTo (decodeTeam 0x5405c6f7) (.fms (.v 5) (.s 6) (.k 7)) = true ∧
    decodesTo (decodeTeam 0x5505c6f7) (.fnma (.v 5) (.s 6) (.k 7)) = true ∧
    decodesTo (decodeTeam 0x5605c6f7) (.fmin (.v 5) (.s 6) (.k 7)) = true ∧
    decodesTo (decodeTeam 0x5705c6f7) (.fmax (.v 5) (.s 6) (.k 7)) = true ∧
    decodesTo (decodeTeam 0x5805c600) (.fabs (.v 5) (.s 6)) = true ∧
    decodesTo (decodeTeam 0x5905c600) (.fneg (.v 5) (.s 6)) = true ∧
    decodesTo (decodeTeam 0x5a0505c6) (.fceq 5 (.v 5) (.s 6)) = true ∧
    decodesTo (decodeTeam 0x5b0505c6) (.fclt 5 (.v 5) (.s 6)) = true ∧
    decodesTo (decodeTeam 0x5c0505c6) (.fcle 5 (.v 5) (.s 6)) = true ∧
    decodesTo (decodeTeam 0x5d0505c6) (.fcun 5 (.v 5) (.s 6)) = true ∧
    decodesTo (decodeTeam 0x5e05c600) (.fclass (.v 5) (.s 6)) = true ∧
    decodesTo (decodeTeam 0x5f05c650) (.frcp (.v 5) (.s 6) 5) = true := by
  decide +kernel

theorem test_words_team6 :
    decodesTo (decodeTeam 0x6005c650) (.frsq (.v 5) (.s 6) 5) = true ∧
    decodesTo (decodeTeam 0x6105c650) (.fsqrt (.v 5) (.s 6) 5) = true ∧
    decodesTo (decodeTeam 0x6205c6f7) (.fdiv (.v 5) (.s 6) (.k 7)) = true ∧
    decodesTo (decodeTeam 0x6305c650) (.fexp2 (.v 5) (.s 6) 5) = true ∧
    decodesTo (decodeTeam 0x6405c650) (.flog2 (.v 5) (.s 6) 5) = true ∧
    decodesTo (decodeTeam 0x6505c650) (.fsin (.v 5) (.s 6) 5) = true ∧
    decodesTo (decodeTeam 0x6605c650) (.fcos (.v 5) (.s 6) 5) = true ∧
    decodesTo (decodeTeam 0x6705c650) (.ftanh (.v 5) (.s 6) 5) = true ∧
    decodesTo (decodeTeam 0x6805c605) (.frnd (.v 5) (.s 6) 5) = true ∧
    decodesTo (decodeTeam 0x6905c601) (.ftoi (.v 5) (.s 6) true) = true ∧
    decodesTo (decodeTeam 0x6a05c601) (.itof (.v 5) (.s 6) true) = true ∧
    decodesTo (decodeTeam 0x6b05c62e) (.cvt (.v 5) (.s 6) 5 6) = true ∧
    decodesTo (decodeTeam 0x6c05c605) (.cvtf (.v 5) (.s 6) 5) = true ∧
    decodesTo (decodeTeam 0x6d05c6f7) (.pack (.v 5) (.s 6) (.k 7)) = true ∧
    decodesTo (decodeTeam 0x6e05c605) (.unpk (.v 5) (.s 6) 5) = true ∧
    decodesTo (decodeTeam 0x6f05c6f7) (.fscl (.v 5) (.s 6) (.k 7)) = true := by
  decide +kernel

theorem test_words_team7 :
    decodesTo (decodeTeam 0x7005c605) (.cblk (.v 5) (.s 6) 5) = true ∧
    decodesTo (decodeTeam 0x7105c62e) (.qnt (.v 5) (.s 6) 5 6) = true ∧
    decodesTo (decodeTeam 0x7205c62e) (.dqnt (.v 5) (.s 6) 5 6) = true ∧
    decodesTo (decodeTeam 0x7305c60d) (.cblu (.v 5) (.s 6) true 5) = true ∧
    decodesTo (decodeTeam 0x7405c6f7) (.fdot2 (.v 5) (.s 6) (.k 7)) = true ∧
    decodesTo (decodeTeam 0x7505c6f7) (.fdot4 (.v 5) (.s 6) (.k 7)) = true := by
  decide +kernel

theorem test_words_team8 :
    decodesTo (decodeTeam 0x8005c6f7) (.shfl (.v 5) (.s 6) (.k 7)) = true ∧
    decodesTo (decodeTeam 0x8105c605) (.shflx (.v 5) (.s 6) 5) = true ∧
    decodesTo (decodeTeam 0x8205c605) (.shflu (.v 5) (.s 6) 5) = true ∧
    decodesTo (decodeTeam 0x8305c605) (.shfld (.v 5) (.s 6) 5) = true ∧
    decodesTo (decodeTeam 0x8405c6f7) (.bcst (.v 5) (.s 6) (.k 7)) = true ∧
    decodesTo (decodeTeam 0x8505c600) (.vany (.v 5) (.s 6)) = true ∧
    decodesTo (decodeTeam 0x8605c600) (.vall (.v 5) (.s 6)) = true ∧
    decodesTo (decodeTeam 0x8705c600) (.vbal (.v 5) (.s 6)) = true ∧
    decodesTo (decodeTeam 0x8805c605) (.red (.v 5) (.s 6) 5) = true ∧
    decodesTo (decodeTeam 0x8905c615) (.scan (.v 5) (.s 6) true 5) = true ∧
    decodesTo (decodeTeam 0x8a05c600) (.matchLanes (.v 5) (.s 6)) = true ∧
    decodesTo (decodeTeam 0x8b05c6f7) (.rdln (.v 5) (.s 6) (.k 7)) = true ∧
    decodesTo (decodeTeam 0x8c05c6f7) (.wrln (.v 5) (.s 6) (.k 7)) = true := by
  decide +kernel

theorem test_words_team9 :
    decodesTo (decodeTeam 0x9005c656) (.ld (.v 5) (.s 6) 5 true 2) = true ∧
    decodesTo (decodeTeam 0x910105c6) (.st 1 (.v 5) (.s 6)) = true ∧
    decodesTo (decodeTeam 0x9205c656) (.lds (.v 5) (.s 6) 5 true 2) = true ∧
    decodesTo (decodeTeam 0x930105c6) (.sts 1 (.v 5) (.s 6)) = true ∧
    decodesTo (decodeTeam 0x9405c65e) (.lda (.v 5) (.s 6) 5 true 6) = true ∧
    decodesTo (decodeTeam 0x950d05c6) (.stl true 5 (.v 5) (.s 6)) = true ∧
    decodesTo (decodeTeam 0x9605c656) (.ldnc (.v 5) (.s 6) 5 true 2) = true ∧
    decodesTo (decodeTeam 0x97010500) (.pref 1 (.v 5)) = true ∧
    decodesTo (decodeTeam 0x9805c6f7) (.aadd (.v 5) (.s 6) (.k 7)) = true ∧
    decodesTo (decodeTeam 0x9905c6f7) (.amin (.v 5) (.s 6) (.k 7)) = true ∧
    decodesTo (decodeTeam 0x9a05c6f7) (.amax (.v 5) (.s 6) (.k 7)) = true ∧
    decodesTo (decodeTeam 0x9b05c6f7) (.aand (.v 5) (.s 6) (.k 7)) = true ∧
    decodesTo (decodeTeam 0x9c05c6f7) (.aor (.v 5) (.s 6) (.k 7)) = true ∧
    decodesTo (decodeTeam 0x9d05c6f7) (.axor (.v 5) (.s 6) (.k 7)) = true ∧
    decodesTo (decodeTeam 0x9e05c6f7) (.axch (.v 5) (.s 6) (.k 7)) = true ∧
    decodesTo (decodeTeam 0x9f05c6f7) (.acas (.v 5) (.s 6) (.k 7)) = true := by
  decide +kernel

theorem test_words_teama :
    decodesTo (decodeTeam 0xa005c6f7) (.afadd (.v 5) (.s 6) (.k 7)) = true ∧
    decodesTo (decodeTeam 0xa1000016) (.fence 5 2) = true ∧
    decodesTo (decodeTeam 0xa20505c6) (.stmap 5 (.v 5) (.s 6)) = true ∧
    decodesTo (decodeTeam 0xa3050000) (.stunmap 5) = true ∧
    decodesTo (decodeTeam 0xa4050000) (.stflush 5) = true ∧
    decodesTo (decodeTeam 0xa505c65e) (.ldk (.v 5) (.s 6) 5 true 6) = true ∧
    decodesTo (decodeTeam 0xa60505c6) (.stk 5 (.v 5) (.s 6)) = true ∧
    decodesTo (decodeTeam 0xa705c6f7) (.aaddk (.v 5) (.s 6) (.k 7)) = true ∧
    decodesTo (decodeTeam 0xa805c656) (.ldcw (.v 5) (.s 6) 5 true 2) = true := by
  decide +kernel

theorem test_words_teamb :
    decodesTo (decodeTeam 0xb0000000) .bar = true ∧
    decodesTo (decodeTeam 0xb1000505) (.nbara (.v 5) 5) = true ∧
    decodesTo (decodeTeam 0xb2000005) (.nbarw 5) = true ∧
    decodesTo (decodeTeam 0xb3000505) (.nbaraw (.v 5) 5) = true ∧
    decodesTo (decodeTeam 0xb40e05c6) (.waitc 1 6 (.v 5) (.s 6)) = true ∧
    decodesTo (decodeTeam 0xb50505c6) (.waitb 5 (.v 5) (.s 6)) = true ∧
    decodesTo (decodeTeam 0xb60505c6) (.signal 5 (.v 5) (.s 6)) = true ∧
    decodesTo (decodeTeam 0xb8050000) (.waita 5) = true := by
  decide +kernel

theorem test_words_teamc :
    decodesTo (decodeTeam 0xc005c6f7) (.copy (.v 5) (.s 6) (.k 7)) = true ∧
    decodesTo (decodeTeam 0xc105c6f7) (.copy2d (.v 5) (.s 6) (.k 7)) = true ∧
    decodesTo (decodeTeam 0xc205c6f7) (.gath (.v 5) (.s 6) (.k 7)) = true ∧
    decodesTo (decodeTeam 0xc305c6f7) (.scat (.v 5) (.s 6) (.k 7)) = true ∧
    decodesTo (decodeTeam 0xc405c6f7) (.fill (.v 5) (.s 6) (.k 7)) = true ∧
    decodesTo (decodeTeam 0xc505c6f7) (.rcopy (.v 5) (.s 6) (.k 7)) = true ∧
    decodesTo (decodeTeam 0xc605c6f7) (.depn (.v 5) (.s 6) (.k 7)) = true ∧
    decodesTo (decodeTeam 0xc7000500) (.mstr (.v 5)) = true ∧
    decodesTo (decodeTeam 0xc805c6f7) (.rput (.v 5) (.s 6) (.k 7)) = true ∧
    decodesTo (decodeTeam 0xc905c6f7) (.rget (.v 5) (.s 6) (.k 7)) = true := by
  decide +kernel

theorem test_words_teamd :
    decodesTo (decodeTeam 0xd005c600) (.tspawn (.v 5) (.s 6)) = true ∧
    decodesTo (decodeTeam 0xd1000000) .tnext = true ∧
    decodesTo (decodeTeam 0xd2000000) .tdone = true ∧
    decodesTo (decodeTeam 0xd3000500) (.launch (.v 5)) = true ∧
    decodesTo (decodeTeam 0xd40e05c6) (.joinc 1 6 (.v 5) (.s 6)) = true ∧
    decodesTo (decodeTeam 0xd505c600) (.trig (.v 5) (.s 6)) = true ∧
    decodesTo (decodeTeam 0xd605c600) (.tdisarm (.v 5) (.s 6)) = true ∧
    decodesTo (decodeTeam 0xd7050000) (.seqnew (.v 5)) = true ∧
    decodesTo (decodeTeam 0xd80005c6) (.seqend (.v 5) (.s 6)) = true := by
  decide +kernel

theorem test_words_teame :
    decodesTo (decodeTeam 0xe0050005) (.erd (.v 5) 5) = true ∧
    decodesTo (decodeTeam 0xe1050001) (.ebkt (.v 5) 1) = true ∧
    decodesTo (decodeTeam 0xe2050005) (.eop (.v 5) 5) = true ∧
    decodesTo (decodeTeam 0xe3050000) (.eoprd (.v 5)) = true ∧
    decodesTo (decodeTeam 0xe4050001) (.emark (.v 5) true) = true ∧
    decodesTo (decodeTeam 0xe5055603) (.erdh (.v 5) 5 6 3) = true := by
  decide +kernel

theorem test_words_teamf :
    decodesTo (decodeTeam 0xf0058003) (.sysrd (.v 5) 32771) = true ∧
    decodesTo (decodeTeam 0xf1058003) (.syswr (.v 5) 32771) = true ∧
    decodesTo (decodeTeam 0xf2050001) (.wlatch (.v 5) true) = true ∧
    decodesTo (decodeTeam 0xf3050005) (.keygen (.v 5) 5) = true ∧
    decodesTo (decodeTeam 0xf4050000) (.keydel (.v 5)) = true ∧
    decodesTo (decodeTeam 0xf5050001) (.tinv (.v 5) 1) = true ∧
    decodesTo (decodeTeam 0xf6050000) (.meter (.v 5)) = true ∧
    decodesTo (decodeTeam 0xf7050001) (.save (.v 5) true) = true ∧
    decodesTo (decodeTeam 0xf8050000) (.rest (.v 5)) = true ∧
    decodesTo (decodeTeam 0xf9050001) (.halt (.v 5) true) = true ∧
    decodesTo (decodeTeam 0xfa050005) (.clear (.v 5) 5) = true ∧
    decodesTo (decodeTeam 0xfb050005) (.waiti (.v 5) 5) = true := by
  decide +kernel

theorem test_words_stream :
    decodesTo (decodeStream 0x00000000) .mnop = true ∧
    decodesTo (decodeStream 0x012e0302) (.mma 5 6 3 2) = true ∧
    decodesTo (decodeStream 0x022e0302) (.mmas 5 6 3 2) = true ∧
    decodesTo (decodeStream 0x032e0302) (.mmav 5 6 3 2) = true ∧
    decodesTo (decodeStream 0x042e0300) (.mtrn 5 6 3) = true ∧
    decodesTo (decodeStream 0x052e0302) (.mperm 5 6 3 2) = true ∧
    decodesTo (decodeStream 0x062e0300) (.mred 5 6 3) = true ∧
    decodesTo (decodeStream 0x07280000) (.accz 5) = true ∧
    decodesTo (decodeStream 0x08280600) (.accld 5 6) = true ∧
    decodesTo (decodeStream 0x092e0003) (.accst 5 6 3) = true ∧
    decodesTo (decodeStream 0x0a050036) (.ringd (.v 5) 1 true 6) = true ∧
    decodesTo (decodeStream 0x0b000500) (.rwait 5) = true ∧
    decodesTo (decodeStream 0x0c000500) (.rfree 5) = true ∧
    decodesTo (decodeStream 0x0d000056) (.mbara 5 6) = true ∧
    decodesTo (decodeStream 0x0e000005) (.mbarw 5) = true ∧
    decodesTo (decodeStream 0x0f050803) (.convset (.v 5) 2051) = true ∧
    decodesTo (decodeStream 0x10058003) (.mloop 5 32771) = true ∧
    decodesTo (decodeStream 0x11000000) .mendl = true ∧
    decodesTo (decodeStream 0x12000000) .mend = true ∧
    decodesTo (decodeStream 0x13000000) .mflag = true := by
  decide +kernel

/-! ### Premises that some state meets, statement by statement -/

theorem meets_DecodeEncode : (Instr.ld (.v 4) (.v 6) 3 false 1).fits = true ∧
    encode (.ld (.v 4) (.v 6) 3 false 1) = some 0x90040631 ∧
    (Instr.mma 1 2 2 3).fits = true ∧ encode (.mma 1 2 2 3) = some 0x010a0203 := by decide +kernel

theorem meets_EncodeDecode : decodeTeam 0x90040631 = .ok (.ld (.v 4) (.v 6) 3 false 1) ∧
    decodeStream 0x010a0203 = .ok (.mma 1 2 2 3) := ⟨word (by decide +kernel), word (by decide +kernel)⟩

theorem meets_StepKeepsMemory : MemInv held ∧ ∃ t, step held = .next t :=
  ⟨(by decide +kernel : storeWf (n := 8) held.mem = true), goes (by decide +kernel)⟩

/-- Slot and generation at the tops of their ranges. -/
theorem meets_SequenceHandles : ∃ s : State, (4095 : Nat) < 4096 ∧ (keyOf s 4095).gen < 2 ^ 20 ∧ handleOf s 4095 = 0xffffffff :=
  ⟨{ State.reset with keys := [(4095, ⟨.empty, 0, 2 ^ 20 - 1, false, []⟩)] }, by decide +kernel, by decide +kernel, by decide +kernel⟩

theorem meets_HomeSlices : (0x1ff % 512 + 0 < 512 ∧ 0xff % 256 + 0 < 256) ∧ sliceOf 0x7fff = 63 := by decide +kernel

theorem meets_ChargeWeights : 21 < 22 ∧ 22 ≤ 22 ∧ 14 ≤ 14 := by decide

theorem meets_IntegerArithmetic_lanes : ∃ (i : Instr) (d a : Opnd) (y : IntArg) (r : Role) (f : IntRule) (s : State),
    intRule i = some (d, a, y, r, f) ∧ Prepared (intSig i.opcode r d a y) s (cxAt s) ∧ (cxAt s).bt = .d :=
  ⟨.mad (.v 2) (.v 4) (.v 62), _, _, _, _, _, inTeam .d (typed 7), rfl, prep (by decide +kernel), by decide +kernel⟩

theorem meets_IntegerArithmetic_scalar : ∃ (i : Instr) (d a : Opnd) (y : IntArg) (r : Role) (f : IntRule) (s : State),
    intRule i = some (d, a, y, r, f) ∧ Prepared (intSig i.opcode r d a y) s (cxAt s) ∧ (cxAt s).bt ≠ .d :=
  ⟨.div (.s 1) (.s 2) (.s 47), _, _, _, _, _, inTeam .t id, rfl, prep (by decide +kernel), by decide +kernel⟩

theorem meets_BitInstructions_lanes : ∃ (i : Instr) (d a : Opnd) (y : IntArg) (f : BitRule) (s : State),
    bitRule i = some (d, a, y, f) ∧ Prepared (intSig i.opcode .dst d a y) s (cxAt s) ∧ (cxAt s).bt = .d ∧ i.fits = true :=
  ⟨.shli (.v 1) (.v 2) 255, _, _, _, _, inTeam .d id, rfl, prep (by decide +kernel), by decide +kernel, by decide +kernel⟩

theorem meets_BitInstructions_scalar : ∃ (i : Instr) (d a : Opnd) (y : IntArg) (f : BitRule) (s : State),
    bitRule i = some (d, a, y, f) ∧ Prepared (intSig i.opcode .dst d a y) s (cxAt s) ∧ (cxAt s).bt ≠ .d ∧ i.fits = true :=
  ⟨.brev (.s 1) (.k 0), _, _, _, _, inTeam .s id, rfl, prep (by decide +kernel), by decide +kernel, by decide +kernel⟩

theorem meets_Compares : ∃ (i : Instr) (d : Nat) (a b : Opnd) (f : Int → Int → Bool) (s : State),
    cmpRule i = some (d, a, b, f) ∧ Prepared (cmpSig i.opcode d a b) s (cxAt s) :=
  ⟨.clt 7 (.v 2) (.v 3), _, _, _, _, inTeam .d id, rfl, prep (by decide +kernel)⟩

theorem meets_LanesReadBack : ∃ (t : Team) (i l j : Nat),
    sorted t.v = true ∧ l < t.lanes ∧ t.lanes ≤ 1024 ∧ i + 1 < t.frame ∧ j < t.frame :=
  ⟨(cxAt (inTeam .d id)).t, 62, 31, 63, by decide +kernel⟩

theorem meets_Select : ∃ s : State, Prepared (selSig (.v 1) (.v 2) (.v 3)) s (cxAt s) :=
  ⟨inTeam .d id, prep (by decide +kernel)⟩

theorem meets_MovesAndFields : ∃ (s : State) (c : Cx), c = cxAt s ∧ 65535 < 65536 ∧
    ∀ g ∈ [fun _ => plain 0x46 [⟨.v 1, .dst, false⟩] (.passes clsInteger),
      fun _ => plain 0x47 [⟨.v 1, .both, false⟩] (.passes clsInteger),
      fun _ => plain 0x48 [⟨.v 1, .both, false⟩] (.passes clsInteger), movSig 0x49 (.v 2) (.v 4),
      intSig 0x3d .dst (.v 1) (.v 2) (.reg (.v 3)), intSig 0x3e .both (.v 1) (.v 2) (.reg (.v 3)), wfldSig (.v 1) true 3,
      fun _ => plain 0x4c [⟨.v 2, .dst, true⟩, ⟨.v 4, .src, true⟩, ⟨.v 6, .src, false⟩] (.passes clsInteger),
      cvtiSig (.v 1) (.v 2) 0 4 0], Prepared g s c :=
  ⟨inTeam .d id, _, rfl, by decide, preps (by decide +kernel)⟩

theorem meets_BitFields : 0 < 64 ∧ 2 ^ 64 - 1 < 2 ^ 64 ∧ 0 < 2 ^ 64 := by decide

theorem meets_MaskInstructions : ∃ (s : State) (c : Cx), c = cxAt s ∧
    ∀ g ∈ [fun _ => maskSig 0x18 1 [], fun _ => maskSig 0x19 7 [], fun _ => maskSig 0x1a 1 [], fun _ => maskSig 0x1b 1 [],
      fun _ => maskSig 0x1f 1 [], fun _ => plain 0x1c [⟨.s 1, .uniform, false⟩] (.passes clsInteger),
      fun _ => plain 0x1d [⟨.s 1, .uniform, false⟩] (.passes clsInteger),
      fun c => maskSig 0x1e 1 [⟨.v 2, .src, wholePair (modeEtype c.a.mode)⟩]], Prepared g s c :=
  ⟨inTeam .d id, _, rfl, preps (by decide +kernel)⟩

theorem meets_MaskRegisters : ∃ (t : Team) (n k l : Nat), sorted t.mreg = true ∧ l < 1024 ∧ n ≠ 0 ∧ k ≠ n :=
  ⟨(cxAt (inTeam .d (fun t => putMask t 7 (fullMask 32) 1))).t, 7, 0, 1023, by decide +kernel⟩

theorem meets_FloatForms : ∃ (i : Instr) (g : Cx → Sig) (f : Cx → Team → Team) (s : State),
    floatForm i = some (g, f) ∧ Prepared g s (cxAt s) :=
  ⟨.fma (.v 1) (.v 2) (.v 3), _, _, inTeam .d id, rfl, prep (by decide +kernel)⟩

/-- A NaN, a number, and the types at the ends of their range. -/
theorem meets_FloatSignsAndNans : ∃ r : Rounding, r.fsub = false ∧ (8 ≤ 8 ∧ 8 ≤ 11) ∧ (8 ≤ 11 ∧ 11 ≤ 11) ∧
    0x7e00 < 2 ^ fmtWidth 8 ∧ 0x7ff8000000000000 < 2 ^ fmtWidth 11 ∧
    (readF 8 false 0x7e00).isNan = true ∧ (readF 8 false 0x7e00).isSig = false ∧
    (readF 8 false 0x3c00).isNan = false ∧ (readF 11 false 0x7ff8000000000000).isNan = true :=
  ⟨⟨0, false, false, none⟩, by decide +kernel⟩

/-- Format slot 0 from f32 to bf16, and a codebook at VA 0x10040 in slot 1. -/
def slots : State := setWord 42 ((0x10040 / 32) * 2 ^ 16 + 0xf0f) (setWord 40 0x90a (inTeam .d id))

theorem meets_SlotConversions_cvt : ∃ (s : State) (c : Cx) (x : Nat), c = cxAt s ∧ x = slotBits c.l 0 ∧
    Prepared (cvtSig (.v 1) (.v 2) 0) s c ∧ slotClean x = true ∧ cvtType (slotA x) = true ∧ cvtType (slotOut x) = true ∧
    slotScaleA x = false ∧ slotScaleB x = false ∧ 1 < cvtParts (fmtWidth (slotA x)) (fmtWidth (slotOut x)) ∧ c.bt = .d :=
  ⟨slots, _, _, rfl, rfl, prep (by decide +kernel), by decide +kernel⟩

theorem meets_SlotConversions_book : ∃ (s s1 : State) (c : Cx) (x : Nat) (book : List Nat) (u : Team), c = cxAt s ∧
    x = slotBits c.l 1 ∧ (∀ g ∈ [cblkSig (.v 1) (.v 2), qntSig (.v 1) (.v 2) 1, quantSig 0x72 .dst (.v 1) (.v 2) 1 true,
      cbluSig (.v 2) (.v 4)], Prepared g s c) ∧
    (slotClean x = true ∧ 12 ≤ slotOut x ∧ 12 ≤ slotA x ∧ 7 < 32 / storeWidth (slotOut x) ∧ 7 < 32 / storeWidth (slotA x) ∧
      slotOut x = 15 ∧ slotA x = 15) ∧ Answers (readBook c (slotBookA x)) s book s1 ∧ find? s1.teams c.tid = some u :=
  ⟨slots, runAct (readBook (cxAt slots) 0x10040) slots, _, _, List.replicate 16 0, (cxAt slots).t, rfl, rfl,
    preps (by decide +kernel), by decide +kernel, ans (by decide +kernel), by decide +kernel⟩

theorem meets_Shuffles : ∃ (i : Instr) (g : Cx → Sig) (d a : Opnd) (src : Cx → Nat → Int) (s : State),
    shuffleForm i = some (g, d, a, src) ∧ Prepared g s (cxAt s) ∧ membersHold (cxAt s) :=
  ⟨.shflx (.v 1) (.v 2) 1, _, _, _, _, inTeam .d id, rfl, prep (by decide +kernel),
    (by decide +kernel : (cxAt (inTeam .d id)).a.exec &&& ~~~members (cxAt (inTeam .d id)) = 0)⟩

theorem meets_LaneReadsAndVotes : ∃ (s : State) (c : Cx), c = cxAt s ∧ membersHold c ∧
    ∀ g ∈ [fun c => crossSig 0x8b 0 [⟨.s 1, .uniform, false⟩, ⟨.v 2, .src, movesPair c⟩, ⟨.s 3, .scalar, false⟩] c,
      fun c => crossSig 0x8c 0 [⟨.v 1, .dst, movesPair c⟩, ⟨.s 2, .scalar, false⟩, ⟨.s 3, .scalar, false⟩] c,
      voteSig 0x85 1 .uniform (.s 1) (.v 2), voteSig 0x86 1 .uniform (.s 1) (.v 2),
      voteSig 0x87 0 .dst (.v 1) (.v 2), voteSig 0x8a 1 .dst (.v 1) (.v 2)], Prepared g s c :=
  ⟨inTeam .d id, _, rfl, (by decide +kernel : (cxAt (inTeam .d id)).a.exec &&& ~~~members (cxAt (inTeam .d id)) = 0),
    preps (by decide +kernel)⟩

theorem meets_Reductions : ∃ (s : State) (c : Cx), c = cxAt s ∧ membersHold c ∧
    Prepared (reduceSig 0x88 .uniform (.s 1) (.v 2) 8) s c ∧ Prepared (reduceSig 0x89 .dst (.v 1) (.v 2) 6) s c ∧
    7 < 8 ∧ (∀ x ∈ [2 ^ intWidth 7 - 1], x < 2 ^ intWidth 7) :=
  ⟨inTeam .d id, _, rfl, (by decide +kernel : (cxAt (inTeam .d id)).a.exec &&& ~~~members (cxAt (inTeam .d id)) = 0),
    prep (by decide +kernel), prep (by decide +kernel), by decide, by decide +kernel⟩

theorem meets_JoinTarget : ∃ s : State, Prepared (bare 0x08) s (cxAt s) := ⟨inTeam .t id, prep (by decide +kernel)⟩

theorem meets_ModesAndBranches : ∃ (s : State) (c : Cx), c = cxAt s ∧
    (s.focus = .team c.tid c.arm c.bt ∧ cxOf s c.tid c.arm c.bt = some c ∧ c.bt ≠ .illegal) ∧
    (∀ g ∈ [bare 0x01, fun _ => plain 0x02 [⟨.s 1, .scalar, false⟩] .none, fun _ => plain 0x03 [⟨.s 1, .dst, false⟩] .none,
      bare 0x04, bare 0x05, bare 0x06, fun _ => plain 0x0d [⟨.s 1, .scalar, false⟩] .none, bare 0x12], Prepared g s c) ∧
    (opScalar c (.s 1)).toNat % 32 = 0 :=
  ⟨inTeam .t (setS 1 0xffffffffffffffe0), _, rfl, ⟨cx_focus (by decide +kernel), cx_here (by decide +kernel), by decide +kernel⟩,
    preps (by decide +kernel), by decide +kernel⟩

theorem meets_ModesAndBranches_demote : ∃ (s s1 : State) (c : Cx) (u : Team) (a0 : Arm), c = cxAt s ∧
    Prepared (fun _ => plain 0x0f [] (.passes clsInteger)) s c ∧
    Answers (recountTeam c.tid)
      (s.withTeam c.tid (modLanes c.t c.gm fun x => { x with st := if x.st = .live then .helper else x.st })) () s1 ∧
    find? s1.teams c.tid = some u ∧ c.t.a0 = some a0 ∧ a0.arrived = [] ∧ c.t.a1 = none :=
  let s := inTeam .d oneLane
  let u := modLanes (cxAt s).t (cxAt s).gm fun x => { x with st := if x.st = .live then .helper else x.st }
  ⟨s, _, _, u, theArm (cxAt s).t, rfl, prep (by decide +kernel), ans (by decide +kernel), by decide +kernel⟩

theorem meets_Divergence_none : ∃ s : State, Prepared (fun _ => plain 0x07 [] (.execPasses clsInteger 0)) s (cxAt s) ∧
    branchLanes (cxAt s) 1 false = 0 := ⟨inTeam .d id, prep (by decide +kernel), by decide +kernel⟩

theorem meets_Divergence_all : ∃ s : State, Prepared (fun _ => plain 0x07 [] (.execPasses clsInteger 0)) s (cxAt s) ∧
    branchLanes (cxAt s) 0 false ≠ 0 ∧ (cxAt s).a.exec &&& ~~~(branchLanes (cxAt s) 0 false) = 0 :=
  ⟨inTeam .d id, prep (by decide +kernel), by decide +kernel, by decide +kernel⟩

/-- Lane 31 alone branches. -/
def branching : State := inTeam .d fun t =>
  setArm (fun a => { a with jt := some 0x10040 }) (putMask t 1 (fullMask 32) (2 ^ 31))

theorem meets_Divergence_split : ∃ (s s1 : State) (c : Cx) (u : Team), c = cxAt s ∧
    Prepared (fun _ => plain 0x07 [] (.execPasses clsInteger 0)) s c ∧ branchLanes c 1 false ≠ 0 ∧
    c.a.exec &&& ~~~(branchLanes c 1 false) ≠ 0 ∧ c.a.jt = some 0x10040 ∧ c.t.split = false ∧
    Answers (push c ⟨.split, true, 0, c.a.mode, 0, 0x10040, 0, c.a.exec, 0⟩) s () s1 ∧ find? s1.teams c.tid = some u ∧
    c.arm = 0 :=
  ⟨branching, _, _, pushed (cxAt branching).t 0 ⟨.split, true, 0, (cxAt branching).a.mode, 0, 0x10040, 0, (cxAt branching).a.exec, 0⟩,
    rfl, prep (by decide +kernel), by decide +kernel, by decide +kernel, by decide +kernel, by decide +kernel,
    ans (by decide +kernel), by decide +kernel, by decide +kernel⟩

def nested : State := inTeam .d fun t => splitTeam .none (putMask t 1 (fullMask 32) (2 ^ 31))

theorem meets_Divergence_nested : ∃ (s s1 : State) (c : Cx) (u : Team), c = cxAt s ∧
    Prepared (fun _ => plain 0x07 [] (.execPasses clsInteger 0)) s c ∧ branchLanes c 1 false ≠ 0 ∧
    c.a.exec &&& ~~~(branchLanes c 1 false) ≠ 0 ∧ c.a.jt = some placedAt ∧ c.t.split = true ∧
    Answers (push c ⟨.split, false, 0, c.a.mode, 0, placedAt, branchTarget c 20 2, branchLanes c 1 false, 0⟩) s () s1 ∧
    find? s1.teams c.tid = some u :=
  ⟨nested, _, _, pushed (cxAt nested).t 1
      ⟨.split, false, 0, (cxAt nested).a.mode, 0, placedAt, branchTarget (cxAt nested) 20 2, branchLanes (cxAt nested) 1 false, 0⟩,
    rfl, prep (by decide +kernel), by decide +kernel, by decide +kernel, by decide +kernel, by decide +kernel,
    ans (by decide +kernel), by decide +kernel⟩

theorem meets_Divergence_unsplitJoin : ∃ s : State, Prepared (fun _ => plain 0x09 [] (.execPasses clsInteger 0)) s (cxAt s) ∧
    (cxAt s).t.split = false := ⟨inTeam .d id, prep (by decide +kernel), by decide +kernel⟩

theorem meets_Divergence_otherJoin : ∃ (s : State) (c : Cx) (e : StackEntry) (r : List StackEntry), c = cxAt s ∧
    Prepared (fun _ => plain 0x09 [] (.execPasses clsInteger 0)) s c ∧ c.t.split = true ∧ c.t.stack.hw = e :: r ∧
    atDual c.t c.a = false :=
  ⟨inTeam .d fun t => setArm (fun a => { a with pc := 0x10040 }) (splitTeam .none t), _,
    ⟨.split, true, 0, 0, 0, placedAt, 0, fullMask 32, 1⟩, [], rfl, prep (by decide +kernel), by decide +kernel⟩

theorem meets_Divergence_waits : ∃ (s : State) (c : Cx) (e : StackEntry) (r : List StackEntry), c = cxAt s ∧
    Prepared (fun _ => plain 0x09 [] (.execPasses clsInteger 0)) s c ∧ c.t.split = true ∧ c.t.stack.hw = e :: r ∧
    stackDepth c.a.stack = 0 ∧ e.kind = .split ∧ e.dual = true ∧ e.rejoin = c.a.pc ∧
    (∃ x, armOf c.t (1 - c.arm) = some x ∧ x.wait ≠ .join) ∧ c.arm < 2 :=
  ⟨inTeam .d (splitTeam .none), _, ⟨.split, true, 0, 0, 0, placedAt, 0, fullMask 32, 1⟩, [], rfl, prep (by decide +kernel),
    by decide +kernel, by decide +kernel, by decide +kernel, rfl, rfl, by decide +kernel,
    ⟨{ newArm placedAt 32 with exec := 1 }, by decide +kernel, by decide +kernel⟩, by decide +kernel⟩

theorem meets_Divergence_joins : ∃ (s : State) (c : Cx) (e : StackEntry) (r : List StackEntry) (x : Arm), c = cxAt s ∧
    Prepared (fun _ => plain 0x09 [] (.execPasses clsInteger 0)) s c ∧ c.t.split = true ∧ c.t.stack.hw = e :: r ∧
    stackDepth c.a.stack = 0 ∧ e.kind = .split ∧ e.dual = true ∧ e.rejoin = c.a.pc ∧ c.arm < 2 ∧
    armOf c.t (1 - c.arm) = some x ∧ x.wait = .join :=
  ⟨inTeam .d (splitTeam .join), _, ⟨.split, true, 0, 0, 0, placedAt, 0, fullMask 32, 1⟩, [],
    { newArm placedAt 32 with exec := 1, wait := .join }, rfl, prep (by decide +kernel), by decide +kernel⟩

theorem meets_CallsAndReturns_push : ∃ s : State, cxOf s (cxAt s).tid (cxAt s).arm (cxAt s).bt = some (cxAt s) ∧
    hasRoom (cxAt s).t (stackIx (cxAt s).t (cxAt s).arm) :=
  ⟨inTeam .t id, cx_here (by decide +kernel), (by decide +kernel : stackDepth (stackOf (cxAt (inTeam .t id)).t 0) < 256 ∧
    hwHeld (cxAt (inTeam .t id)).t < 16)⟩

theorem meets_CallsAndReturns_full : ∃ s : State, cxOf s (cxAt s).tid (cxAt s).arm (cxAt s).bt = some (cxAt s) ∧
    256 ≤ stackDepth (stackOf (cxAt s).t (stackIx (cxAt s).t (cxAt s).arm)) :=
  ⟨inTeam .t fun t => { t with stack := ⟨[], 256⟩ }, cx_here (by decide +kernel), by decide +kernel⟩

theorem meets_CallsAndReturns_call : ∃ (s s1 : State) (c : Cx) (u : Team), c = cxAt s ∧ c.t.w + 8 * 511 ≤ 4088 ∧
    Prepared (bare 0x0a) s c ∧ Prepared (fun _ => plain 0x0b [⟨.s 1, .scalar, false⟩] .none) s c ∧
    (opScalar c (.s 1)).toNat % 32 = 0 ∧ Answers (push c (callEntry c)) s () s1 ∧ find? s1.teams c.tid = some u :=
  ⟨inTeam .t id, _, _, pushed (cxAt (inTeam .t id)).t 0 (callEntry (cxAt (inTeam .t id))), rfl, by decide +kernel,
    prep (by decide +kernel), prep (by decide +kernel), by decide +kernel, ans (by decide +kernel), by decide +kernel⟩

/-- A team with one entry on its stack. -/
def stacked (e : StackEntry) : State := inTeam .t fun t => { t with stack := ⟨[e], 0⟩ }
def someCall : StackEntry := ⟨.call, false, 2, modeStart, 0, 0x10020, 0, fullMask 32, 1⟩

theorem meets_CallsAndReturns_ret : ∃ (s s1 s2 : State) (c : Cx) (u v : Team) (e : StackEntry), c = cxAt s ∧
    Prepared (bare 0x0c) s c ∧ Answers (topKind c .call) s e s1 ∧ find? s1.teams c.tid = some u ∧
    Answers (restoreResident c 512) (s1.withTeam c.tid { armSet c u fun x => { x with mode := e.mode } with w := e.pending }) () s2 ∧
    find? s2.teams c.tid = some v :=
  ⟨stacked someCall, _, _, _, (cxAt (stacked someCall)).t, (cxAt (stacked someCall)).t, someCall, rfl, prep (by decide +kernel),
    ans (by decide +kernel), by decide +kernel, ans (by decide +kernel), by decide +kernel⟩

def loopSig (d : Opnd) (imm : Nat) (c : Cx) : Sig :=
  { plain 0x14 [⟨d, .scalar, false⟩] .none with operandOk := imm != 0 && decide ((opScalar c d).toNat < 2 ^ 32) }

theorem meets_CountedLoops_zero : ∃ s : State, Prepared (loopSig (.s 1) 65535) s (cxAt s) ∧ opScalar (cxAt s) (.s 1) = 0 :=
  ⟨inTeam .t id, prep (by decide +kernel), by decide +kernel⟩

theorem meets_CountedLoops_some : ∃ (s s1 : State) (c : Cx) (u : Team), c = cxAt s ∧ Prepared (loopSig (.s 1) 1) s c ∧
    opScalar c (.s 1) ≠ 0 ∧ Answers (push c ⟨.loop, false, 0, 0, (opScalar c (.s 1)).setWidth 32,
      wrapTo 56 ((c.a.pc : Int) + 32 * 1), wrapTo 56 ((c.a.pc : Int) + 32), c.a.exec, 0⟩) s () s1 ∧
    find? s1.teams c.tid = some u :=
  let s := inTeam .t (setS 1 0xffffffff)
  ⟨s, _, _, pushed (cxAt s).t 0 ⟨.loop, false, 0, 0, 0xffffffff, 0x10020, 0x10020, fullMask 32, 0⟩, rfl, prep (by decide +kernel),
    by decide +kernel, ans (by decide +kernel), by decide +kernel⟩

def someLoop (n : BitVec 32) : StackEntry := ⟨.loop, false, 0, 0, n, 0x10040, 0x10020, fullMask 32, 1⟩

theorem meets_CountedLoops_end : ∃ (s s1 : State) (c : Cx) (u : Team) (e : StackEntry), c = cxAt s ∧
    Prepared (bare 0x15) s c ∧ Answers (topKind c .loop) s e s1 ∧ find? s1.teams c.tid = some u ∧ e.count = 1 :=
  ⟨stacked (someLoop 1), _, _, (cxAt (stacked (someLoop 1))).t, someLoop 1, rfl, prep (by decide +kernel), ans (by decide +kernel),
    by decide +kernel, rfl⟩

theorem meets_SoftwareTraps_trap : ∃ s : State, Prepared (bare 0x10) s (cxAt s) ∧ TakesTraps (cxAt s) :=
  ⟨handled (inTeam .t id), prep (by decide +kernel), traps (by decide +kernel)⟩

def someTrap : StackEntry := ⟨.trap, false, 2, modeStart, 0, placedAt, 0x10020, fullMask 32, 1⟩

theorem meets_SoftwareTraps_rft : ∃ (s s1 : State) (c : Cx) (u : Team) (e : StackEntry), c = cxAt s ∧
    Prepared (bare 0x11) s c ∧ Answers (topKind c .trap) s e s1 ∧ find? s1.teams c.tid = some u :=
  ⟨stacked someTrap, _, _, (cxAt (stacked someTrap)).t, someTrap, rfl, prep (by decide +kernel), ans (by decide +kernel),
    by decide +kernel⟩

/-- m0 is no destination of a compare. -/
theorem meets_ChecksTrap : ∃ (i : Instr) (g : Cx → Sig) (s : State) (c : Cx), c = cxAt s ∧
    (∃ d a b f, cmpRule i = some (d, a, b, f) ∧ g = cmpSig i.opcode d a b) ∧
    s.focus = .team c.tid c.arm c.bt ∧ cxOf s c.tid c.arm c.bt = some c ∧ TakesTraps c ∧
    precheck s c (g c) = some .illegalOperand :=
  ⟨.ceq 0 (.v 1) (.v 2), _, handled (inTeam .d id), _, rfl, ⟨_, _, _, _, rfl, rfl⟩, cx_focus (by decide +kernel),
    cx_here (by decide +kernel), traps (by decide +kernel), by decide +kernel⟩

/-- Lane 0 has exited, and the descriptor holds one item. -/
def refilling : State :=
  setBlock (fun b => { b with stash := [(4, 1), (8, 0x20), (12, 4), (0x20, 7)] })
    (inTeam .d fun t => setArm (fun a => { a with exec := 2 }) { t with lane := t.lane.set 0 { Lane.start with st := .exited } })

theorem meets_Refill : ∃ (s s1 s2 s3 : State) (c : Cx) (g : Cx → Sig) (ds : List (BitVec 8)) (head : Nat) (got : List (Nat × Word))
    (u : Team), c = cxAt s ∧
    g = (fun c => { plain 0x13 [⟨.v 1, .dst, false⟩, ⟨.s 1, .scalar, false⟩, ⟨.s 2, .uniform, false⟩] .none with
      faulted := some (refillLanes c)
      early := refillCheck c }) ∧ Prepared g s c ∧ (opScalar c (.s 1)).toNat % 16 = 0 ∧
    (opScalar c (.s 1)).toNat + 16 ≤ c.b.stashSize ∧
    Answers (stashRead c.req c.t.bid (opScalar c (.s 1)).toNat 16) s ds s1 ∧
    Answers (takeItems c (numLE ((ds.drop 4).take 4)) (numLE ((ds.drop 8).take 4)) (numLE (ds.drop 12))
      (lanesOf c.t.lanes (refillLanes c)) (numLE (ds.take 4))) s1 (head, got, none) s2 ∧ got ≠ [] ∧
    Answers (do
      stashWrite c.req c.t.bid (opScalar c (.s 1)).toNat c.b.ctx (bytesLE 4 head)
      noteStash c (opScalar c (.s 1)).toNat
      releaseFenced c) s2 () s3 ∧
    find? s3.teams c.tid = some u :=
  ⟨refilling, _, _, _, _, _, [0, 0, 0, 0, 1, 0, 0, 0, 0x20, 0, 0, 0, 4, 0, 0, 0], 1, [(0, 7)], (cxAt refilling).t, rfl, rfl,
    prep (by decide +kernel), by decide +kernel, by decide +kernel, ans (by decide +kernel), ans3 (by decide +kernel),
    by decide +kernel, ans (by decide +kernel), by decide +kernel⟩

/-- Lane 0 reads and writes at VA 0x10040. -/
def loading (bt : Bt) : State := inTeam bt fun t => oneLane (typed 4 (setS 1 0x10040 (setV 2 0x10040 t)))

theorem meets_Loads_lanes : ∃ (i : Instr) (f : ReadForm) (s s0 s1 s2 : State) (c : Cx) (xs : List (Nat × List (BitVec 8))) (u : Team),
    c = cxAt s ∧ readForm i = some f ∧ Prepared f.sig s c ∧ c.bt = .d ∧ Answers (f.before c) s () s0 ∧
    (∀ l ∈ f.lanes c, addrOf c f.addr l % f.align c = 0) ∧
    LanesAnswer (f.lane c) (fun l bs t => runAct (putLoaded c f.dst f.sx l bs) t) xs s0 s1 ∧ xs.map (·.1) = f.lanes c ∧
    Answers (f.after c) s1 () s2 ∧ find? s2.teams c.tid = some u :=
  ⟨.ld (.v 4) (.v 2) 0 false 1, _, loading .d, _, _, _, _, [(0, List.replicate 8 0)], (cxAt (loading .d)).t, rfl, rfl,
    prep (by decide +kernel), by decide +kernel, ans (by decide +kernel), by decide +kernel,
    .cons _ _ _ _ _ _ (ans (by decide +kernel)) (.nil _), by decide +kernel, ans (by decide +kernel), by decide +kernel⟩

theorem meets_Loads_scalar : ∃ (i : Instr) (f : ReadForm) (s s0 s1 s2 : State) (c : Cx) (bs : List (BitVec 8)) (u : Team),
    c = cxAt s ∧ readForm i = some f ∧ Prepared f.sig s c ∧ c.bt ≠ .d ∧ (f.writes = true → suppressed c = false) ∧
    Answers (f.before c) s () s0 ∧ addrOf c f.addr 0 % f.align c = 0 ∧ Answers (f.one c) s0 bs s1 ∧
    Answers (f.after c) s1 () s2 ∧ find? s2.teams c.tid = some u :=
  ⟨.aadd (.s 2) (.s 1) (.s 3), _, loading .t, _, _, _, _, List.replicate 4 0, (cxAt (loading .t)).t, rfl, rfl,
    prep (by decide +kernel), by decide +kernel, fun _ => by decide +kernel, ans (by decide +kernel), by decide +kernel,
    ans (by decide +kernel), ans (by decide +kernel), by decide +kernel⟩

theorem meets_Loads_value : ∃ (c : Cx) (s : State) (bs : List (BitVec 8)) (t : Team), c = cxAt s ∧ c.bt = .d ∧
    find? s.teams c.tid = some t ∧ bs.length ≤ 8 ∧ 0 < bs.length :=
  ⟨_, loading .d, [0x80], (cxAt (loading .d)).t, rfl, by decide +kernel⟩

theorem meets_Stores_lanes : ∃ (i : Instr) (f : StoreForm) (s s0 s1 s2 : State) (c : Cx) (xs : List (Nat × Unit)) (u : Team),
    c = cxAt s ∧ storeForm i = some f ∧ Prepared f.sig s c ∧ Answers (f.rel c) s () s0 ∧ Answers (f.rel c) s1 () s2 ∧
    (find? s2.teams c.tid = some u ∧ c.bt = .d ∧ ∀ l ∈ storeLanes c, addrOf c f.addr l % f.align c = 0) ∧
    LanesAnswer (f.lane c) (fun _ _ t => t) xs s0 s1 ∧ xs.map (·.1) = storeLanes c :=
  ⟨.st 2 (.v 2) (.v 4), _, loading .d, _, _, _, _, [(0, ())], (cxAt (loading .d)).t, rfl, rfl, prep (by decide +kernel),
    ans (by decide +kernel), ans (by decide +kernel), by decide +kernel, .cons _ _ _ _ _ _ (ans (by decide +kernel)) (.nil _),
    by decide +kernel⟩

theorem meets_Stores_scalar : ∃ (i : Instr) (f : StoreForm) (s s0 s1 s2 : State) (c : Cx) (u : Team),
    c = cxAt s ∧ storeForm i = some f ∧ Prepared f.sig s c ∧ Answers (f.rel c) s () s0 ∧ Answers (f.rel c) s1 () s2 ∧
    (find? s2.teams c.tid = some u ∧ c.bt ≠ .d ∧ suppressed c = false ∧ addrOf c f.addr 0 % f.align c = 0) ∧
    Answers (f.lane c 0) s0 () s1 :=
  ⟨.stl true 0 (.s 1) (.s 2), _, loading .t, _, _, _, _, (cxAt (loading .t)).t, rfl, rfl, prep (by decide +kernel),
    ans (by decide +kernel), ans (by decide +kernel), by decide +kernel, ans (by decide +kernel)⟩

def aLine : L1Line := ⟨1, 0x401, 0x10040, 1, 1, true, true, [], 0, 0⟩
/-- Lane 0 stores at VA 0x10040, whose line the core holds with write permission. -/
def lined (bt : Bt) : State :=
  let s := loading bt
  { s with cores := put s.cores 1 { coreOf s 1 with
      l1 := [(0x10040 + 1, aLine)] } }

theorem meets_Stores_complete : ∃ (s : State) (c : Cx), c = cxAt s ∧ c.a.fence = none ∧ (c.bt ≠ .d → suppressed c = false) ∧
    Prepared (fun _ => storeSig 0x91 clsL1 true 2 (.v 2) (.v 4)) s c ∧
    (∀ l ∈ namedLanes c, addrOf c (.v 2) l % sizeBytes 2 = 0 ∧ LineTakes s c (addrOf c (.v 2) l) 0x10040) ∧ namedLanes c = [0] :=
  ⟨lined .d, _, rfl, by decide +kernel, by decide +kernel, prep (by decide +kernel), by
    intro l hl
    have hn : namedLanes (cxAt (lined .d)) = [0] := by decide +kernel
    rw [hn] at hl
    rw [List.mem_singleton.mp hl]
    exact ⟨by decide +kernel, by decide +kernel, ⟨0, by decide +kernel, by decide⟩, by decide +kernel,
      ⟨aLine, by decide +kernel⟩⟩,
    by decide +kernel⟩

theorem meets_Stores_release : ∃ (s : State) (c : Cx), c = cxAt s ∧ c.a.fence = none ∧ (c.bt ≠ .d → suppressed c = false) ∧
    (∀ sc, sc = 0 ∨ sc = 2 → Prepared (fun _ => { plain 0x95 [⟨.s 1, .src, true⟩, ⟨.s 4, .src, false⟩] (.passes clsL1) with
        values := Machine.scopeOk sc false
        scope := some (sc, false) }) s c) ∧
    (∀ l ∈ namedLanes c, addrOf c (.s 1) l % 4 = 0 ∧ LineTakes s c (addrOf c (.s 1) l) 0x10040) ∧ namedLanes c = [0] ∧
    (coreOf s c.b.core).release.length + (namedLanes c).length ≤ 32 ∧ s.stopped = [] ∧ s.hostOwned = [] ∧
    ∀ i, sliceBusy s i = false :=
  ⟨lined .t, _, rfl, by decide +kernel, by decide +kernel,
    fun sc h => h.elim (fun e => e ▸ prep (by decide +kernel)) (fun e => e ▸ prep (by decide +kernel)), by
    intro l hl
    have hn : namedLanes (cxAt (lined .t)) = [0] := by decide +kernel
    rw [hn] at hl
    rw [List.mem_singleton.mp hl]
    exact ⟨by decide +kernel, by decide +kernel, ⟨0, by decide +kernel, by decide⟩, by decide +kernel,
      ⟨aLine, by decide +kernel⟩⟩,
    by decide +kernel, by decide +kernel, rfl, rfl, fun _ => rfl⟩

theorem meets_Stores_stash : ∃ (s : State) (c : Cx), c = cxAt s ∧ c.a.fence = none ∧
    Prepared (fun _ => storeSig 0x93 clsStash false 1 (.v 2) (.v 4)) s c ∧ namedLanes c = [0] ∧
    (∀ l ∈ namedLanes c, regionAt c.b (offsetOf c (.v 2) l) = none ∧ offsetOf c (.v 2) l + sizeBytes 1 ≤ c.b.stashSize) :=
  ⟨inTeam .d fun t => oneLane (setV 2 4088 t), _, rfl, by decide +kernel, prep (by decide +kernel), by decide +kernel,
    by decide +kernel⟩

theorem meets_AlignmentTraps : ∃ (s : State) (c : Cx), c = cxAt s ∧ c.bt = .d ∧ TakesTraps c ∧ 3 < 4 ∧ sizeBytes 3 ≠ 1 ∧
    Prepared (fun _ => loadSig 0x90 clsL1 true (.v 4) (.v 2) 0 false 3) s c ∧
    Prepared (fun _ => storeSig 0x91 clsL1 true 3 (.v 2) (.v 4)) s c ∧
    ((lanesOf c.t.lanes c.gm).filter fun l => addrOf c (.v 2) l % sizeBytes 3 != 0) ≠ [] ∧
    ((storeLanes c).filter fun l => addrOf c (.v 2) l % sizeBytes 3 != 0) ≠ [] :=
  ⟨handled (inTeam .d fun t => oneLane (setV 2 0x10047 t)), _, rfl, by decide +kernel, traps (by decide +kernel), by decide,
    by decide, prep (by decide +kernel), prep (by decide +kernel), by decide +kernel, by decide +kernel⟩

theorem meets_StorageAccesses_memory : MemInv held ∧ (5 < 6 ∨ 6 + 1 ≤ 5) :=
  ⟨(by decide +kernel : storeWf (n := 8) held.mem = true), by decide⟩

/-- A core whose L1 holds the line at IA 0x10040. -/
def cached : State := { held with cores := put held.cores 1 { coreOf held 1 with
  l1 := [(l1Key 0x10040 1, aLine)] } }

theorem meets_StorageAccesses_l1 : ∃ (r : Req) (s : State) (l : L1Line),
    find? (coreOf s 1).l1 (l1Key 0x10040 r.world) = some l ∧ l.rdOk = true ∧ l.wrOk = true ∧ hostOwns s l.ma = false :=
  ⟨(cxAt (inTeam .t id)).req, cached, aLine, by decide +kernel⟩

/-- The line, with neither permission confirmed, of a page that every slice knows. -/
def unconfirmed : State := paged { held with cores := put held.cores 1 { coreOf held 1 with
  l1 := [(l1Key 0x10040 1, { aLine with rdOk := false, wrOk := false })] } }

theorem meets_StorageAccesses_confirm : ∃ (r : Req) (s s1 s2 : State) (l : L1Line),
    (find? (coreOf s 1).l1 (l1Key 0x10040 r.world) = some l ∧ l.rdOk = false ∧ l.wrOk = false) ∧
    Answers (confirm r 0x10040 l.ma .read) s () s1 ∧ Answers (confirm r 0x10040 l.ma .write) s () s2 :=
  ⟨(cxAt (inTeam .t id)).req, unconfirmed, _, _, { aLine with rdOk := false, wrOk := false }, by decide +kernel,
    ans (by decide +kernel), ans (by decide +kernel)⟩

theorem meets_StorageAccesses_stash : ∃ (s : State) (b : Block), find? s.blocks 1 = some b ∧ regionAt b 4095 = none ∧
    sorted b.stash = true ∧ stashBad b 4095 1 = false :=
  ⟨held, (cxAt (inTeam .t id)).b, by decide +kernel⟩

theorem meets_UniformAccesses_pref : ∃ (s : State) (c : Cx) (u : Team), c = cxAt s ∧
    Prepared (fun _ => { plain 0x97 [⟨.v 2, .src, true⟩] (.passes clsL1) with values := 2 != 3 }) s c ∧
    find? (runAct (prefLanes 2 (.v 2) c) s).teams c.tid = some u :=
  ⟨inTeam .d oneLane, _, mate (inTeam .d oneLane), rfl, prep (by decide +kernel), by decide +kernel⟩

/-- s1 holds a VA of the mapped page, in a T slot. -/
def uniform : State := inTeam .t (setS 1 0x10040)

theorem meets_UniformAccesses_ldk : ∃ (s s0 s1 : State) (c : Cx) (bs : List (BitVec 8)) (u : Team), c = cxAt s ∧
    Prepared (fun _ => { plain 0xa5 [⟨.s 2, .dst, false⟩, ⟨.s 1, .scalar, false⟩] .none with
        values := Machine.scopeOk 5 true
        scope := some (5, true)
        la := some (7, .s 2, false) }) s c ∧
    (opScalar c (.s 1)).toNat % 8 = 0 ∧ Answers (acquireAt c 5) s () s0 ∧
    Answers (homeRead c (.s 2) 8 true (firstOf c) (opScalar c (.s 1)).toNat) s0 bs s1 ∧ find? s1.teams c.tid = some u :=
  let s := setBlock id { uniform with worlds := [(1, { World.fresh with maxscope := 6, remote := true })] }
  ⟨s, _, _, _, List.replicate 8 0, mate s, rfl, prep (by decide +kernel), by decide +kernel, ans (by decide +kernel),
    ans (by decide +kernel), by decide +kernel⟩

/-- A constant window of 64 bytes at VA 0x10040. -/
def windowed : State := setWord 23 64 (setWord 22 0x10040 (inTeam .t (setS 1 56)))

theorem meets_UniformAccesses_ldcw : ∃ (s s1 : State) (c : Cx) (bs : List (BitVec 8)) (u : Team), c = cxAt s ∧
    Prepared (fun _ => { plain 0xa8 [⟨.s 2, .dst, false⟩, ⟨.s 1, .scalar, false⟩] .none with
        values := !(true && decide (2 < 2))
        la := some (0, .s 2, false) }) s c ∧
    (opScalar c (.s 1)).toNat + sizeBytes 1 ≤ launchWindowSize c.l ∧ (opScalar c (.s 1)).toNat % sizeBytes 1 = 0 ∧
    Answers (readVa c.req c.b c.t.bid (launchWindowAddr c.l + (opScalar c (.s 1)).toNat) (sizeBytes 1) true) s bs s1 ∧
    find? s1.teams c.tid = some u :=
  ⟨windowed, _, _, List.replicate 8 0, mate windowed, rfl, prep (by decide +kernel), by decide +kernel, by decide +kernel,
    ans (by decide +kernel), by decide +kernel⟩

theorem meets_UniformAccesses_stk : ∃ (s s0 s1 s2 : State) (c : Cx) (ia : Nat) (u : Team), c = cxAt s ∧
    Prepared (fun _ => { plain 0xa6 [⟨.s 1, .scalar, false⟩, ⟨.s 2, .scalar, false⟩] .none with
        values := Machine.scopeOk 0 false
        scope := some (0, false) }) s c ∧ suppressed c = false ∧ (opScalar c (.s 1)).toNat % 8 = 0 ∧
    Answers (do releaseAt c 0; releaseFenced c) s () s0 ∧
    Answers (homeWrite c (opScalar c (.s 1)).toNat (opScalar c (.s 2)).toNat) s0 ia s1 ∧ peerOf s1 ia = none ∧
    Answers (noteReleaseHere c ia) s1 () s2 ∧ find? s2.teams c.tid = some u :=
  ⟨uniform, _, _, _, _, 0x10040, mate uniform, rfl, prep (by decide +kernel), by decide +kernel, by decide +kernel,
    ans (by decide +kernel), ans (by decide +kernel), by decide +kernel, ans (by decide +kernel), by decide +kernel⟩

theorem meets_UniformAccesses_aaddk : ∃ (s s0 s1 s2 : State) (c : Cx) (ia old : Nat) (u : Team), c = cxAt s ∧
    Prepared (fun _ => plain 0xa7 [⟨.s 2, .dst, false⟩, ⟨.s 1, .scalar, false⟩, ⟨.s 3, .scalar, false⟩] .none) s c ∧
    suppressed c = false ∧ (opScalar c (.s 1)).toNat % 8 = 0 ∧
    (∃ s3, Answers (releaseFenced c) s () s3 ∧ Answers (plainIa c (opScalar c (.s 1)).toNat .rmw) s3 ia s0) ∧
    peerOf s0 ia = none ∧ Answers (flushOwn c.req c.b c.t.bid (opScalar c (.s 1)).toNat ia) s0 () s1 ∧
    Answers (counterSignal c false ia (opScalar c (.s 3)).toInt) s1 old s2 ∧ find? s2.teams c.tid = some u ∧
    old < 2 ^ 64 :=
  ⟨uniform, _, _, _, _, 0x10040, 0, mate uniform, rfl, prep (by decide +kernel), by decide +kernel, by decide +kernel,
    ⟨_, ans (by decide +kernel), ans (by decide +kernel)⟩, by decide +kernel, ans (by decide +kernel), ans (by decide +kernel),
    by decide +kernel⟩

/-- Release and acquire at scope 4. -/
theorem meets_FencesAndMaps_fence : ∃ (s s0 s1 s2 s3 : State) (c : Cx) (u : Team), c = cxAt s ∧
    Prepared (fun _ => { plain 0xa1 [] .none with values := 3 != 0 && Machine.scopeOk 4 false, scope := some (4, false) }) s c ∧
    (4 = 6 → owedPosts c = []) ∧ Answers (releaseAt c 4) s () s0 ∧
    s1 = runAct (modArm c.tid c.arm fun x => { x with fence := widerFence x.fence (some 4) }) s0 ∧
    Answers (acquireAt c 4) s1 () s2 ∧ Answers (deliverAsync c 4) s2 () s3 ∧ find? s3.teams c.tid = some u :=
  ⟨inTeam .t id, _, _, _, _, _, mate (inTeam .t (setArm fun a => { a with fence := some 4 })), rfl, prep (by decide +kernel),
    by decide, ans (by decide +kernel), rfl, ans (by decide +kernel), ans (by decide +kernel), by decide +kernel⟩

theorem meets_FencesAndMaps_waita : ∃ (s s3 : State) (c : Cx) (u : Team), c = cxAt s ∧
    Prepared (fun _ => { plain 0xb8 [] .none with values := Machine.scopeOk 4 false, scope := some (4, false) }) s c ∧
    owedPosts c = [] ∧ Answers (deliverAsync c 4) s () s3 ∧ find? s3.teams c.tid = some u :=
  ⟨inTeam .t id, _, _, mate (inTeam .t id), rfl, prep (by decide +kernel), by decide +kernel, ans (by decide +kernel),
    by decide +kernel⟩

/-- The stash's one page, at the page of VA 0x10000. -/
def mapping : State := inTeam .t fun t => setS 1 0x10000 (setS 2 (4096 * 2 ^ 32) t)

theorem meets_FencesAndMaps_stmap : ∃ (s : State) (c : Cx) (rg : Region), c = cxAt s ∧
    Prepared (fun _ => plain 0xa2 [⟨.s 1, .scalar, false⟩, ⟨.s 2, .scalar, false⟩] .none) s c ∧ suppressed c = false ∧
    rg = ⟨(opScalar c (.s 1)).toNat, bitsOf (opScalar c (.s 2)).toNat 0 32, bitsOf (opScalar c (.s 2)).toNat 32 32⟩ ∧
    find? c.b.regions 7 = none ∧
    (∀ e ∈ c.b.regions, overlaps rg.off rg.size e.2.off e.2.size = false ∧ overlaps rg.va rg.size e.2.va e.2.size = false) ∧
    rg.off % 4096 = 0 ∧ rg.size % 4096 = 0 ∧ rg.va % 4096 = 0 ∧ rg.size ≠ 0 ∧ rg.off + rg.size ≤ c.b.stashSize ∧
    mapRangeOk s c.b.ctx rg.va rg.size = true :=
  ⟨mapping, _, _, rfl, prep (by decide +kernel), by decide +kernel, rfl, by decide +kernel⟩

/-- That page mapped as region 0, with nothing in it. -/
def mapped : State := setBlock (fun b => { b with regions := [(0, ⟨0x10000, 0, 4096⟩)] }) mapping

theorem meets_FencesAndMaps_unmap : ∃ (s s1 s2 : State) (c : Cx) (rg : Region) (x : Block) (u : Team), c = cxAt s ∧
    Prepared (fun _ => plain 0xa3 [] .none) s c ∧ Prepared (fun _ => plain 0xa4 [] .none) s c ∧ find? c.b.regions 0 = some rg ∧
    Answers (each (chunksOf c.b rg) fun i => do promoteChunk c.t.bid i; recallChunk c.t.bid i) s () s1 ∧
    Answers (each (chunksOf c.b rg) fun i => do promoteChunk c.t.bid i; backChunk c.t.bid i) s () s2 ∧
    find? s1.blocks c.t.bid = some x ∧ find? s1.teams c.tid = some u ∧ find? s2.teams c.tid = some u :=
  ⟨mapped, _, _, _, ⟨0x10000, 0, 4096⟩, theBlock mapped, mate mapped, rfl, prep (by decide +kernel), prep (by decide +kernel),
    by decide +kernel, ans (by decide +kernel), ans (by decide +kernel), by decide +kernel⟩

theorem meets_Barriers_suppressed : ∃ (s : State) (c : Cx), c = cxAt s ∧ suppressed c = true ∧
    ∀ g ∈ [fun _ => plain 0xb0 [] .none, nbarSig 0xb1 (.s 1), fun _ => plain 0xb2 [] .none, nbarSig 0xb3 (.s 1)],
      Prepared g s c :=
  ⟨inTeam .t fun t => setS 1 1 (modLanes t (fullMask 32) fun x => { x with st := .helper }), _, rfl, by decide +kernel, preps (by decide +kernel)⟩

/-- The last team to arrive, and one of two. -/
theorem meets_Barriers_block : ∃ (s s' s1 : State) (c c' : Cx) (u u' w : Team), c = cxAt s ∧ c' = cxAt s' ∧
    Prepared (fun _ => plain 0xb0 [] .none) s c ∧ Prepared (fun _ => plain 0xb0 [] .none) s' c' ∧
    (suppressed c = false ∧ c.t.sfault = false ∧ bitSet c.b.barrived c.t.idx = false ∧
      suppressed c' = false ∧ c'.t.sfault = false ∧ bitSet c'.b.barrived c'.t.idx = false) ∧ u = armSet c c.t (fun x => { x with arrived := put x.arrived 16 c.b.bgen }) ∧
    allMarked u 16 c.b.bgen = true ∧ (c.b.barrived ||| 2 ^ c.t.idx) &&& liveTeams c.b = liveTeams c.b ∧
    s1 = runAct (wakeBarriers c.t.bid)
      ((s.withTeam c.tid u).withBlock c.t.bid { c.b with bgen := c.b.bgen + 1, barrived := 0 }) ∧
    find? s1.teams c.tid = some w ∧
    u' = armSet c' c'.t (fun x => { x with arrived := put x.arrived 16 c'.b.bgen }) ∧ allMarked u' 16 c'.b.bgen = true ∧
    (c'.b.barrived ||| 2 ^ c'.t.idx) &&& liveTeams c'.b ≠ liveTeams c'.b :=
  ⟨inTeam .t id, setBlock (fun b => { b with nteams := 2 }) (inTeam .t id), _, _, _, _, _,
    mate (inTeam .t (setArm fun a => { a with arrived := [(16, 0)] })), rfl, rfl, prep (by decide +kernel),
    prep (by decide +kernel), by decide +kernel, rfl, by decide +kernel, by decide +kernel, rfl,
    by decide +kernel, rfl, by decide +kernel⟩

/-- s1 is 1: an arrival completes the generation; and a team that has waited for more of them than there are. -/
theorem meets_Barriers_numbered : ∃ (s s1 s2 : State) (c : Cx) (x : NBar) (u w v v2 : Team), c = cxAt s ∧
    (suppressed c = false ∧ c.t.sfault = false) ∧
    x = nbarOf c.b 15 ∧ (opScalar c (.s 1)).toNat = 1 ∧
    u = armSet c (armSet c c.t fun y => { y with arrived := put y.arrived 15 x.completed })
      (fun y => { y with arrived := put y.arrived (48 + 15) (BitVec.ofNat 32 1) }) ∧
    Prepared (nbarSig 0xb1 (.s 1)) s c ∧ Prepared (nbarSig 0xb3 (.s 1)) s c ∧ teamArrived c.b 15 c.t.idx = false ∧
    (x.arrivals = 0 ∨ x.expected = 1) ∧ allMarked u 15 x.completed = true ∧ s1 = arrivedAt s c 15 1 u ∧
    find? s1.teams c.tid = some w ∧ x.arrivals + 1 = 1 ∧
    v = armSet c w (fun y => { y with arrived := put y.arrived (32 + 15) x.completed }) ∧
    allMarked v (32 + 15) x.completed = true ∧ 0 < (x.completed + 1 - waitCount v 15).toInt ∧
    s2 = runAct (wakeBarriers c.t.bid) (s1.withTeam c.tid { v with nbWait := wr v.nbWait 15 (x.completed + 1) }) ∧
    find? s2.teams c.tid = some v2 :=
  let s := inTeam .t (setS 1 1)
  let u := setArm (fun a => { a with arrived := [(15, 0), (63, 1)] }) (mate s)
  let v := setArm (fun a => { a with arrived := [(15, 0), (47, 0), (63, 1)] }) (mate s)
  ⟨s, _, _, _, _, _, u, _, { v with nbWait := [(15, 1)] }, rfl, by decide +kernel, rfl, by decide +kernel, rfl,
    prep (by decide +kernel), prep (by decide +kernel), by decide +kernel, by decide +kernel, by decide +kernel, rfl,
    by decide +kernel, by decide +kernel, rfl, by decide +kernel, by decide +kernel, rfl, by decide +kernel⟩

theorem meets_Barriers_early : ∃ (s s1 : State) (c : Cx) (x : NBar) (u w v : Team), c = cxAt s ∧
    (suppressed c = false ∧ c.t.sfault = false) ∧
    x = nbarOf c.b 15 ∧ (opScalar c (.s 1)).toNat = 1 ∧
    u = armSet c (armSet c c.t fun y => { y with arrived := put y.arrived 15 x.completed })
      (fun y => { y with arrived := put y.arrived (48 + 15) (BitVec.ofNat 32 1) }) ∧ s1 = arrivedAt s c 15 1 u ∧
    find? s1.teams c.tid = some w ∧ v = armSet c w (fun y => { y with arrived := put y.arrived (32 + 15) x.completed }) ∧
    ¬ (allMarked v (32 + 15) x.completed = true ∧ 0 < (x.completed + 1 - waitCount v 15).toInt) :=
  let s := inTeam .t fun t => { setS 1 1 t with nbWait := [(15, 1)] }
  ⟨s, _, _, _, _, setArm (fun a => { a with arrived := [(15, 0), (63, 1)] }) (mate s), _, rfl, by decide +kernel, rfl,
    by decide +kernel, rfl, rfl, by decide +kernel, rfl, by decide +kernel⟩

/-- One arrival of 3 open, and this one of another count. -/
theorem meets_Barriers_misuse : ∃ (s : State) (c : Cx) (x : NBar), c = cxAt s ∧ x = nbarOf c.b 0 ∧
    (suppressed c = false ∧ c.t.sfault = false) ∧
    Prepared (nbarSig 0xb1 (.s 1)) s c ∧ Prepared (nbarSig 0xb3 (.s 1)) s c ∧ teamArrived c.b 0 c.t.idx = false ∧
    x.arrivals ≠ 0 ∧ x.expected ≠ (opScalar c (.s 1)).toNat ∧ TakesTraps c :=
  ⟨handled (setBlock (fun b => { b with nteams := 2, nbar := [(0, ⟨0, 3, 1, 2, false⟩)] }) (inTeam .t (setS 1 9))), _, _, rfl, rfl,
    by decide +kernel, prep (by decide +kernel), prep (by decide +kernel), by decide +kernel, by decide +kernel,
    by decide +kernel, traps (by decide +kernel)⟩

/-- The second arrival of 3 does not complete the generation. -/
theorem meets_Barriers_holds : ∃ (s s1 : State) (c : Cx) (x : NBar) (u w : Team), c = cxAt s ∧ x = nbarOf c.b 0 ∧
    (suppressed c = false ∧ c.t.sfault = false) ∧ (opScalar c (.s 1)).toNat = 3 ∧
    u = armSet c (armSet c c.t fun y => { y with arrived := put y.arrived 0 x.completed })
      (fun y => { y with arrived := put y.arrived (48 + 0) (BitVec.ofNat 32 3) }) ∧
    Prepared (nbarSig 0xb3 (.s 1)) s c ∧ teamArrived c.b 0 c.t.idx = false ∧ x.expected = 3 ∧
    allMarked u 0 x.completed = true ∧ s1 = arrivedAt s c 0 3 u ∧ find? s1.teams c.tid = some w ∧ x.arrivals + 1 ≠ 3 :=
  let s := handled (setBlock (fun b => { b with nteams := 2, nbar := [(0, ⟨0, 3, 1, 2, false⟩)] }) (inTeam .t (setS 1 3)))
  ⟨s, _, _, _, _, setArm (fun a => { a with arrived := [(0, 0), (48, 3)] }) (mate s), rfl, rfl, by decide +kernel,
    by decide +kernel, rfl, prep (by decide +kernel), by decide +kernel, by decide +kernel, by decide +kernel, rfl,
    by decide +kernel, by decide +kernel⟩

/-- A completed generation that the team has not waited for, and none. -/
theorem meets_Barriers_wait : ∃ (s s' s1 : State) (c c' : Cx) (v w : Team), c = cxAt s ∧ c' = cxAt s' ∧
    Prepared (fun _ => plain 0xb2 [] .none) s c ∧ Prepared (fun _ => plain 0xb2 [] .none) s' c' ∧
    (suppressed c = false ∧ suppressed c' = false ∧ c.t.sfault = false ∧ c'.t.sfault = false ∧
      find? c.a.arrived (32 + 0) ≠ some (waitCount c.t 0) ∧ find? c'.a.arrived (32 + 0) ≠ some (waitCount c'.t 0)) ∧ 0 < ((nbarOf c.b 0).completed - waitCount c.t 0).toInt ∧
    v = armSet c c.t (fun y => { y with arrived := put y.arrived (32 + 0) (waitCount c.t 0) }) ∧
    allMarked v (32 + 0) (waitCount c.t 0) = true ∧
    s1 = runAct (wakeBarriers c.t.bid) (s.withTeam c.tid { v with nbWait := wr v.nbWait 0 (waitCount c.t 0 + 1) }) ∧
    find? s1.teams c.tid = some w ∧ ((nbarOf c'.b 0).completed - waitCount c'.t 0).toInt ≤ 0 :=
  let s := setBlock (fun b => { b with nbar := [(0, ⟨1, 1, 0, 0, false⟩)] }) (inTeam .t id)
  ⟨s, inTeam .t id, _, _, _, _, { setArm (fun a => { a with arrived := [(32, 0)] }) (mate s) with nbWait := [(0, 1)] }, rfl, rfl,
    prep (by decide +kernel), prep (by decide +kernel), by decide +kernel, by decide +kernel, rfl, by decide +kernel, rfl,
    by decide +kernel⟩

/-- A counter of 0 is equal to s2 and not above it. -/
theorem meets_CounterWaits : ∃ (s s1 s2 : State) (c : Cx) (u : Team), c = cxAt s ∧
    Prepared (fun _ => waitSig 0xb4 4 (decide (0 < 3)) (.s 1) (.s 2)) s c ∧
    Prepared (fun _ => waitSig 0xb5 4 true (.s 1) (.s 2)) s c ∧ c.t.sfault = false ∧ (opScalar c (.s 1)).toNat % 8 = 0 ∧
    c.a.joined = false ∧ Answers (observe c (opScalar c (.s 1)).toNat 8) s 0 s1 ∧
    watchHolds 0 0 (opScalar c (.s 2)).toNat = true ∧ watchHolds 3 0 (opScalar c (.s 2)).toNat = false ∧
    Answers (do acquireAt c 4; mergeFlags c (opScalar c (.s 1)).toNat; deliverAsync c 4) s1 () s2 ∧
    find? s2.teams c.tid = some u :=
  ⟨uniform, _, _, _, mate uniform, rfl, prep (by decide +kernel), prep (by decide +kernel), by decide +kernel,
    by decide +kernel, by decide +kernel, ans (by decide +kernel), by decide +kernel, by decide +kernel,
    ans (by decide +kernel), by decide +kernel⟩

theorem meets_CounterWaits_waits : ∃ (s s1 s2 : State) (c : Cx) (ia : Nat) (u : Team), c = cxAt s ∧
    Prepared (fun _ => waitSig 0xb5 4 true (.s 1) (.s 2)) s c ∧
    (c.t.sfault = false ∧ (opScalar c (.s 1)).toNat % 8 = 0 ∧ c.a.joined = false) ∧
    Answers (observe c ((opScalar c (.s 1)).toNat + (opScalar c (.s 2)).toNat / 8) 1) s 0 s1 ∧
    watchHolds 3 0 ((opScalar c (.s 2)).toNat % 8) = false ∧
    Answers (plainIa c ((opScalar c (.s 1)).toNat + (opScalar c (.s 2)).toNat / 8) .read) s1 ia s2 ∧
    find? s2.teams c.tid = some u ∧ watchesOn s2 c.b.core < 64 ∧ peerOf s2 ia = none :=
  ⟨uniform, _, _, _, 0x10040, mate uniform, rfl, prep (by decide +kernel), by decide +kernel, ans (by decide +kernel), by decide +kernel,
    ans (by decide +kernel), by decide +kernel⟩

theorem meets_CounterWaits_signal : ∃ (s s1 s2 s3 : State) (c : Cx) (ia old : Nat) (u : Team), c = cxAt s ∧
    Prepared (fun _ => waitSig 0xb6 0 true (.s 1) (.s 2)) s c ∧ suppressed c = false ∧ (opScalar c (.s 1)).toNat % 8 = 0 ∧
    Answers (plainIa c (opScalar c (.s 1)).toNat .rmw) s ia s1 ∧ peerOf s1 ia = none ∧
    Answers (do releaseAt c 0; releaseFenced c; flushOwn c.req c.b c.t.bid (opScalar c (.s 1)).toNat ia) s1 () s2 ∧
    Answers (counterSignal c (decide (0 < 2)) ia (opScalar c (.s 2)).toInt) s2 old s3 ∧ find? s3.teams c.tid = some u :=
  ⟨uniform, _, _, _, _, 0x10040, 0, mate uniform, rfl, prep (by decide +kernel), by decide +kernel, by decide +kernel,
    ans (by decide +kernel), by decide +kernel, ans (by decide +kernel), ans (by decide +kernel), by decide +kernel⟩

/-- Lane 0 goes and the rest stay; and every lane goes, with another team alive. -/
theorem meets_LaneExit : ∃ (s s' : State) (c c' : Cx), c = cxAt s ∧ c' = cxAt s' ∧ Prepared (fun _ => plain 0x0e [] .none) s c ∧
    Prepared (fun _ => plain 0x0e [] .none) s' c' ∧ c.a.exec &&& ~~~c.gm ≠ 0 ∧ c'.a.exec &&& ~~~c'.gm = 0 ∧
    c'.t.split = false ∧ c'.t.task = none ∧ c'.t.aerr.pending = false ∧ c'.b.barrived = 0 ∧
    liveTeams { c'.b with retired := c'.b.retired ||| 2 ^ c'.t.idx } ≠ 0 :=
  ⟨inTeam .d fun t => setArm (fun a => { a with mode := 0x51 }) (putMask t 1 (fullMask 32) 1),
    setBlock (fun b => { b with nteams := 2 }) (inTeam .d id), _, _, rfl, rfl, prep (by decide +kernel), prep (by decide +kernel),
    by decide +kernel⟩

/-- s1 the record's VA, s2 the control word, and from s4 a FILL of 16 bytes at VA 0x10080. -/
def filling : State := inTeam .t fun t => setS 1 0x10040 (setS 4 0x10080 (setS 6 16 t))

theorem meets_EngineCommands : ∃ (s s1 s2 : State) (c : Cx) (run : List Nat) (u : Team), c = cxAt s ∧ suppressed c = false ∧
    cmdForm (.fill (.s 1) (.s 4) (.s 2)) = some (.fill, 0xc4, .s 1, .s 4, .s 2) ∧
    Prepared (fun _ => cmdSig 0xc4 (runRegs .fill) (.s 1) (.s 4) (.s 2)) s c ∧
    run = (List.range (runRegs .fill)).map (fun j => (runAt c (.s 4) j).toNat) ∧
    cmdOk .fill (opScalar c (.s 1)).toNat (opScalar c (.s 2)).toNat run = true ∧
    Answers (checkSides c (sidesOf .fill (2 ^ bitsOf (opScalar c (.s 2)).toNat 32 2) run)) s () s ∧
    Answers (checkRecord c (opScalar c (.s 1)).toNat) s () s1 ∧
    (s1.ops.filter fun e => e.2.cluster = clusterOfCore c.b.core && e.2.phase = .queued).length < 64 ∧
    Answers (releaseWide c.b.core c.t.bid) s1 () s2 ∧ find? s2.teams c.tid = some u :=
  ⟨filling, _, _, _, _, mate filling, rfl, by decide +kernel, rfl, prep (by decide +kernel), rfl, by decide +kernel,
    sides_same (by decide +kernel) (by decide +kernel), ans (by decide +kernel), by decide +kernel, ans (by decide +kernel),
    by decide +kernel⟩

/-- A record that is not aligned. -/
theorem meets_EngineCommands_trap : ∃ (s : State) (c : Cx), c = cxAt s ∧
    Prepared (fun _ => cmdSig 0xc4 (runRegs .fill) (.s 1) (.s 4) (.s 2)) s c ∧
    cmdOk .fill (opScalar c (.s 1)).toNat (opScalar c (.s 2)).toNat ((List.range (runRegs .fill)).map fun j => (runAt c (.s 4) j).toNat)
      = false ∧ TakesTraps c :=
  ⟨handled (inTeam .t (setS 1 0x10048)), _, rfl, prep (by decide +kernel), by decide +kernel, traps (by decide +kernel)⟩

/-- An operation of the small block's core. -/
def someOp (k : OpKind) (phase : OpPhase) (run : List Nat) : EngineOp :=
  ⟨clusterOfCore 1, 1, 8, 0, 1, k, run, 0, 1, 1, false, 0, phase, false, 0, [], false, 0, [], 1, 0, none, [], 0, 0⟩
def withOps (ops : Tbl EngineOp) (s : State) : State := { s with ops := ops }

theorem meets_EngineCommands_full : ∃ s : State,
    64 ≤ (s.ops.filter fun e => e.2.cluster = clusterOfCore 1 && e.2.phase = .queued).length :=
  ⟨withOps ((List.range 64).map fun i => (i, someOp .fill .queued [0, 0, 0])) filling, by decide +kernel⟩

/-- A node of a FILL at VA 0x10080, in the record at VA 0x10040. -/
def noded : State := { inTeam .t (fun t => setS 1 0x100c0 (setS 4 0x10040 t)) with
  mem := writeMem held.mem 0x10040 (bytesLE 8 1 ++ bytesLE 8 0x10080 ++ bytesLE 8 0 ++ bytesLE 8 16) }

theorem meets_EngineCommands_depn : ∃ (s s0 s1 s2 : State) (c : Cx) (bs : List (BitVec 8)) (o : EngineOp) (u : Team), c = cxAt s ∧
    Prepared (fun _ => cmdSig 0xc6 1 (.s 1) (.s 4) (.s 2)) s c ∧ (suppressed c = false ∧ (opScalar c (.s 1)).toNat % 16 = 0 ∧
      (runAt c (.s 4) 0).toNat % 64 = 0 ∧ bitsOf (opScalar c (.s 2)).toNat 35 29 = 0 ∧ bitsOf (opScalar c (.s 2)).toNat 32 2 = 0) ∧
    Answers (scalarAccess c (runAt c (.s 4) 0).toNat .read (readOwn c (runAt c (.s 4) 0).toNat 8)) s bs s0 ∧
    nodeOk (wordsOf 8 bs) = true ∧ o = { nodeOp c (opScalar c (.s 1)).toNat (opScalar c (.s 2)).toNat (wordsOf 8 bs) with
      nodeVa := (runAt c (.s 4) 0).toNat } ∧
    o.kind = .fill ∧ Answers (checkSides c (sidesOf o.kind 1 o.run)) s0 () s0 ∧
    Answers (checkRecord c (opScalar c (.s 1)).toNat) s0 () s1 ∧
    (s1.ops.filter fun e => e.2.cluster = clusterOfCore c.b.core && e.2.node).length < 64 ∧
    Answers (releaseWide c.b.core c.t.bid) s1 () s2 ∧ find? s2.teams c.tid = some u :=
  ⟨noded, _, _, _, _, bytesLE 8 1 ++ bytesLE 8 0x10080 ++ bytesLE 8 0 ++ bytesLE 8 16 ++ List.replicate 32 0, _, mate noded, rfl,
    prep (by decide +kernel), by decide +kernel, ans (by decide +kernel),
    by decide +kernel, rfl, by decide +kernel, sides_same (by decide +kernel) (by decide +kernel), ans (by decide +kernel),
    by decide +kernel, ans (by decide +kernel), by decide +kernel⟩

/-- A queued FILL of 8 bytes at VA 0x10080. -/
def queuedFill : EngineOp := someOp .fill .queued [0x10080, 5, 8]

theorem meets_EngineEvents_start : ∃ (s : State) (o : EngineOp), find? s.ops 5 = some o ∧ o.phase = .queued ∧
    nextInQueue s 5 o = true ∧ activeOps s o.cluster < 8 :=
  ⟨withOps [(5, queuedFill)] held, queuedFill, by decide +kernel⟩

/-- A FILL that is done, a gather that is, a FILL of 8 bytes in the stash and a gather of one word there, all at work. -/
theorem meets_EngineEvents_unit : ∃ (s s1 s2 : State) (o p q r : EngineOp) (n k : Nat), (find? s.ops 5 = some o ∧
      find? s.ops 6 = some p ∧ find? s.ops 7 = some q ∧ find? s.ops 8 = some r ∧ o.phase = .active ∧ p.phase = .active ∧
      q.phase = .active ∧ r.phase = .active ∧ o.kind = .fill ∧ unitAt o o.done = none ∧ p.kind = .gath ∧ opTotal p ≤ p.done ∧
      q.kind = .gath ∧ q.done < opTotal q) ∧ Answers (doElement q q.done) s none s1 ∧ r.kind = .fill ∧
    unitAt r r.done = some (2 ^ 63 + 64, none, n) ∧ Answers (doUnit r (2 ^ 63 + 64) none n) s (k, none) s2 :=
  let g := fun n => someOp .gath .active [2 ^ 63, 2 ^ 63, 2 ^ 63, n]
  let f := fun d => { someOp .fill .active [2 ^ 63 + 64, 5, 8] with done := d }
  let s := withOps [(5, f 8), (6, g 0), (7, g 1), (8, f 0)] held
  ⟨s, _, _, f 8, g 0, g 1, f 0, 8, 8, by decide +kernel, ansNone (by decide +kernel), rfl, by decide +kernel,
    ans2 (by decide +kernel)⟩

/-- An armed FILL node whose wait counter at VA 0x10040 reads 0, and one of no wait counter. -/
def armedFill : EngineOp := { someOp .fill .armed [0x10080, 5, 8] with node := true, waitVa := 0x10040 }

theorem meets_EngineEvents_node : ∃ (s s1 s2 s3 t t1 : State) (o : EngineOp) (b : Block) (bs cs : List (BitVec 8)), find? s.ops 5 = some o ∧
    find? t.ops 5 = some o ∧ o.phase = .armed ∧ activeOps s o.cluster < 8 ∧ o.waitVa ≠ 0 ∧
    Answers (iaFor o.ctx o.waitVa .read) s (0x10040, 0) s ∧ Answers (sliceRead (opReq o) 0x10040 8 .read) s bs s1 ∧ numLE bs = 0 ∧
    Answers (promoteOwner (some o.ctx) o.world 0x10040 none) s1 () s3 ∧ find? s3.blocks o.bid = some b ∧ b.st = .resident ∧
    Answers (acquireWide b.core) s3 () s2 ∧ Answers (iaFor o.ctx o.waitVa .read) t (0x10040, 0) t ∧
    Answers (sliceRead (opReq o) 0x10040 8 .read) t cs t1 ∧ numLE cs ≠ 0 :=
  ⟨withOps [(5, armedFill)] held, _, _, _, memAt 0x10040 [0, 1] (withOps [(5, armedFill)] held), _, armedFill, theBlock held,
    List.replicate 8 0, [0, 1, 0, 0, 0, 0, 0, 0], by decide +kernel, by decide +kernel, rfl, by decide +kernel, by decide,
    ansSame (by decide +kernel) (by decide +kernel), ans (by decide +kernel), by decide +kernel, ans (by decide +kernel),
    by decide +kernel, by decide +kernel, ans (by decide +kernel), ansSame (by decide +kernel) (by decide +kernel), ans (by decide +kernel), by decide +kernel⟩

theorem meets_EngineEvents_free : ∃ (s : State) (o : EngineOp), find? s.ops 5 = some o ∧ o.phase = .armed ∧
    activeOps s o.cluster < 8 ∧ o.waitVa = 0 :=
  ⟨withOps [(5, { armedFill with waitVa := 0 })] held, { armedFill with waitVa := 0 }, by decide +kernel⟩

theorem meets_EngineEvents_end : ∃ (s : State) (o p q : EngineOp), find? s.ops 5 = some o ∧ o.phase = .ended 2 7 ∧ o.recVa ≠ 0 ∧
    find? s.ops 6 = some p ∧ p.phase = .ended 1 0 ∧ p.recVa = 0 ∧ p.succs = [] ∧ find? s.ops 7 = some q ∧ q.phase = .faulting 2 :=
  ⟨withOps [(5, { someOp .fill (.ended 2 7) [0x10080, 5, 8] with recVa := 0x10040 }), (6, someOp .fill (.ended 1 0) [0x10080, 5, 0]),
      (7, someOp .fill (.faulting 2) [0x10080, 5, 8])] held,
    { someOp .fill (.ended 2 7) [0x10080, 5, 8] with recVa := 0x10040 }, someOp .fill (.ended 1 0) [0x10080, 5, 0],
    someOp .fill (.faulting 2) [0x10080, 5, 8], by decide +kernel⟩

/-- The last 8 bytes of the small block's stash. -/
theorem meets_EngineEvents_stash : ∃ (s : State) (o : EngineOp) (b : Block), find? s.ops 5 = some o ∧ o.phase = .queued ∧
    nextInQueue s 5 o = true ∧ activeOps s o.cluster < 8 ∧ (∀ e ∈ s.ops, e.2.cluster = o.cluster → e.2.phase ≠ .active) ∧
    hasChargeSet (coreOf s o.core) o.ctx = true ∧ (∀ e ∈ s.cores, ∀ x ∈ e.2.charges, x.2.granted = false) ∧
    o.kind = .fill ∧ o.run = [2 ^ 63 + 4088, 0x0102, 8] ∧ o.done = 0 ∧ (0 < 8 ∧ 4088 % 512 + 8 ≤ 512) ∧
    find? s.blocks o.bid = some b ∧ b.st = .resident ∧ 4088 + 8 ≤ b.stashSize ∧
    (∀ j, j < 8 → regionAt b (4088 + j) = none) ∧ sorted b.stash = true :=
  let o := someOp .fill .queued [2 ^ 63 + 4088, 0x0102, 8]
  ⟨withOps [(5, o)] { held with cores := put held.cores 1 { coreOf held 1 with charges := [(0, ChargeSet.zero)] } }, o,
    theBlock held, by decide +kernel⟩

/-- The commands of a key operation complete and leave the teams as they are. -/
theorem commanded {m : Act Unit} (h : Traffic m) {s : State} {k : Nat} {u : Team} (hu : find? s.teams k = some u) :
    ∃ s1, Answers m s () s1 ∧ find? s1.teams k = some u := by
  obtain ⟨t, ht, e⟩ := h s
  exact ⟨t, ht, by rw [e.keeps.1, hu]⟩

theorem meets_KeyTable_new : ∃ (s : State) (c : Cx) (u : Team), c = cxAt s ∧
    Prepared (fun _ => plain 0xd7 [⟨.s 1, .dst, false⟩] .none) s c ∧ suppressed c = false ∧ c.a.joined = false ∧
    freeSlot s = some 64 ∧ ∃ s1,
    Answers (secretCommand (keyPayer c) (if (keyPayer c).isNone then 64 else c.b.world) c.req.src) s () s1 ∧ find? s1.teams c.tid = some u :=
  ⟨inTeam .t id, _, mate (inTeam .t id), rfl, prep (by decide +kernel), by decide +kernel, by decide +kernel,
    by decide +kernel, commanded (secretCommand_traffic _ _ _) (by decide +kernel)⟩

theorem meets_KeyTable_joined : ∃ (s : State) (c : Cx), c = cxAt s ∧
    Prepared (fun _ => plain 0xd7 [⟨.s 1, .dst, false⟩] .none) s c ∧ suppressed c = false ∧ c.a.joined = true :=
  ⟨inTeam .t (setArm fun a => { a with joined := true }), _, rfl, prep (by decide +kernel), by decide +kernel⟩

theorem meets_KeyTable_gen : ∃ (s : State) (c : Cx) (u : Team), c = cxAt s ∧
    Prepared (fun _ => { plain 0xf3 [⟨.s 1, .dst, false⟩] .none with firmware := true }) s c ∧ c.a.joined = false ∧
    (keyOf s 63).st = .empty ∧ (keyOf s 1).st ≠ .empty ∧ ∃ s1, Answers (secretCommand none 64 c.req.src) s () s1 ∧ find? s1.teams c.tid = some u :=
  ⟨inFirmware id, _, mate (inFirmware id), rfl, prep (by decide +kernel), by decide +kernel, by decide +kernel,
    by decide +kernel, commanded (secretCommand_traffic _ _ _) (by decide +kernel)⟩

theorem meets_KeyTable_end : ∃ (s : State) (c : Cx), c = cxAt s ∧
    Prepared (fun c => { plain 0xd8 [⟨.s 1, .scalar, false⟩, ⟨.s 2, .scalar, false⟩] .none with
      operandOk := decide ((opScalar c (.s 1)).toNat < 2 ^ 32) }) s c ∧ suppressed c = false ∧ (opScalar c (.s 2)).toNat % 16 = 0 :=
  ⟨inTeam .t (setS 1 0xffffffff), _, rfl, prep (by decide +kernel), by decide +kernel⟩

theorem meets_KeyTable_del : ∃ (s s1 : State) (c : Cx) (u : Team), c = cxAt s ∧
    Prepared (fun _ => { plain 0xf4 [⟨.s 1, .scalarBoth, false⟩] .none with firmware := true }) s c ∧
    Answers (destroyWorld c.req.src ((opScalar c (.s 1)).toNat % 64)) s () s1 ∧ find? s1.teams c.tid = some u :=
  ⟨inFirmware (setS 1 63), _, _, mate (inFirmware (setS 1 63)), rfl, prep (by decide +kernel), ans (by decide +kernel),
    by decide +kernel⟩

/-- Slot 70 being installed for s1 of the small team, slots 80 and 82 being ended, 82 with a record; slot 90 with a bad
replica at slice 3, and 91 with no good one. -/
def keyed : State := { held with
  keyJobs := [(2, .install 70 8 0 257), (3, .seqend 80 9 0 8 0 1 1 (some 0)), (4, .seqend 81 9 0 8 0 1 1 (some 0)),
    (5, .seqend 82 9 0x10040 8 0 1 1 none), (6, .seqend 83 9 0x10040 8 0 1 1 none)]
  keys := [(1, ⟨.world, 1, 1, false, []⟩), (70, ⟨.sequence, 1, 5, true, []⟩), (80, ⟨.sequence, 1, 9, false, []⟩),
    (81, ⟨.sequence, 1, 10, false, []⟩), (82, ⟨.sequence, 1, 9, false, []⟩), (83, ⟨.sequence, 1, 10, false, []⟩),
    (90, ⟨.sequence, 1, 5, false, [3]⟩), (91, ⟨.sequence, 1, 5, false, List.range 64⟩)] }

theorem meets_KeyTable_installed : ∃ (s : State) (u : Team) (x : Arm),
    firstJob s (installsSlot 70) = some (2, .install 70 8 0 (256 + 1)) ∧ find? s.teams 8 = some u ∧ armOf u 0 = some x ∧
    (keyOf s 70).gen + 1 < 2 ^ 20 :=
  ⟨keyed, mate keyed, newArm placedAt 32, by decide +kernel⟩

theorem meets_KeyTable_ended : ∃ s : State,
    (firstJob s (endsSlot 80) = some (3, .seqend 80 9 0 8 0 1 1 (some 0)) ∧ (keyOf s 80).st = .sequence ∧ (keyOf s 80).owner = 1 ∧
      (keyOf s 80).gen = 9 ∧ (keyOf s 80).installing = false) ∧
    firstJob s (endsSlot 81) = some (4, .seqend 81 9 0 8 0 1 1 (some 0)) ∧ (keyOf s 81).gen ≠ 9 ∧
    (firstJob s (endsSlot 82) = some (5, .seqend 82 9 0x10040 8 0 1 1 none) ∧ (keyOf s 82).st = .sequence ∧
      (keyOf s 82).owner = 1 ∧ (keyOf s 82).gen = 9 ∧ (keyOf s 82).installing = false) ∧
    firstJob s (endsSlot 83) = some (6, .seqend 83 9 0x10040 8 0 1 1 none) ∧ (keyOf s 83).gen ≠ 9 ∧
    ∃ s1, Answers (destroySlot (some 0) 1 (coreRouter 1) 80) s () s1 :=
  ⟨keyed, by decide +kernel, by decide +kernel, by decide +kernel, by decide +kernel, (by decide +kernel), by decide +kernel,
    destroySlot_finishes _ _ _ _ _⟩

/-- SEQNEW takes slot 64 and KEYGEN slot 63; SEQEND ends the current handle of slot 4095. -/
theorem meets_KeyTable_complete : ∃ (s t v : State) (c e f : Cx), c = cxAt s ∧ e = cxAt t ∧ f = cxAt v ∧ freeSlot s = some 64 ∧
    Prepared (fun _ => plain 0xd7 [⟨.s 1, .dst, false⟩] .none) s c ∧ (suppressed c = false ∧ c.a.joined = false ∧
      (∀ j ∈ s.keyJobs, installsSlot 64 j.2 = false) ∧ sorted c.t.sreg = true) ∧
    Prepared (fun _ => { plain 0xf3 [⟨.s 1, .dst, false⟩] .none with firmware := true }) t e ∧ (e.a.joined = false ∧
      (keyOf t 63).st = .empty ∧ (∀ j ∈ t.keyJobs, installsSlot 63 j.2 = false) ∧ sorted e.t.sreg = true) ∧
    Prepared (fun c => { plain 0xd8 [⟨.s 1, .scalar, false⟩, ⟨.s 2, .scalar, false⟩] .none with
      operandOk := decide ((opScalar c (.s 1)).toNat < 2 ^ 32) }) v f ∧ suppressed f = false ∧ opScalar f (.s 2) = 0 ∧
    opScalar f (.s 1) = BitVec.ofNat 64 (4095 + (keyOf v 4095).gen * 4096) ∧ (keyOf v 4095).gen < 2 ^ 20 ∧
    (keyOf v 4095).st = .sequence ∧ (keyOf v 4095).owner = f.b.world ∧ (keyOf v 4095).installing = false ∧
    (∀ j ∈ v.keyJobs, endsSlot 4095 j.2 = false) :=
  ⟨inTeam .t id, inFirmware id, { inTeam .t (setS 1 (4095 + 5 * 4096)) with keys := [(4095, ⟨.sequence, 1, 5, false, []⟩)] }, _, _, _,
    rfl, rfl, rfl, by decide +kernel, prep (by decide +kernel), by decide +kernel, prep (by decide +kernel), by decide +kernel,
    prep (by decide +kernel), by decide +kernel⟩

theorem meets_KeyTable_recovery : ∃ s s1 s2 : State, (keyOf s 90).badReplicas.contains 3 = true ∧ (keyOf s 90).badReplicas.length < 64 ∧
    Answers (sliceRecord 3 { ErrRec.blank with type := 6, cls := 4 })
      (s.withKey 90 { keyOf s 90 with badReplicas := dropAll (keyOf s 90).badReplicas 3 }) () s1 ∧
    (keyOf s 91).badReplicas.contains 3 = true ∧ 64 ≤ (keyOf s 91).badReplicas.length ∧
    Answers (destroySlot none 64 (routerOfSlice 3) 91) s () s2 :=
  ⟨keyed, _, _, by decide +kernel, by decide +kernel, ans (by decide +kernel), by decide +kernel, by decide +kernel,
    ans (by decide +kernel)⟩

/-- A task record whose work starts at VA 0x10000; it lies at VA 0x10040 too, and s1 names it. -/
def aTask : List DWord := 0x10000 :: List.replicate 7 0
def spawning : State := withPart aPartition (memAt 0x10040 (bytesLE 8 0x10000) (inTeam .t (setS 1 0x10040)))

theorem meets_TaskInstructions_spawn : ∃ (s s0 s1 s2 s3 : State) (c : Cx) (bs : List (BitVec 8)) (w : List DWord) (p : Partition)
    (u : Team), c = cxAt s ∧ Prepared (fun _ => plain 0xd0 [⟨.s 2, .dst, false⟩, ⟨.s 1, .scalar, false⟩] .none) s c ∧
    suppressed c = false ∧ (opScalar c (.s 1)).toNat % 64 = 0 ∧
    Answers (scalarAccess c (opScalar c (.s 1)).toNat .read (readOwn c (opScalar c (.s 1)).toNat 8)) s bs s0 ∧ w = wordsOf 8 bs ∧
    taskOk s0 c.b.world w = true ∧ Answers (releaseWide c.b.core c.t.bid) s0 () s1 ∧ find? s1.partitions c.b.part = some p ∧
    Answers (taskFate p c.b.world (some c.b.core) w) s1 (.core 1) s2 ∧ Answers (addTask 1 w) s2 () s3 ∧
    find? s3.teams c.tid = some u :=
  ⟨spawning, _, _, _, _, _, bytesLE 8 0x10000 ++ List.replicate 56 0, _, aPartition, mate spawning, rfl, prep (by decide +kernel),
    by decide +kernel, by decide +kernel, ans (by decide +kernel), rfl, by decide +kernel, ans (by decide +kernel),
    by decide +kernel, ans (by decide +kernel), ans (by decide +kernel), by decide +kernel⟩

/-- A full queue; and a record that asks for a cluster without a core of its world. -/
theorem meets_TaskInstructions_full : ∃ s s1 t t1 : State,
    Answers (taskFate aPartition 1 (some 1) aTask) s .full s1 ∧
    Answers (taskFate aPartition 2 (some 1) (aTask.set 5 0x20000)) t .held t1 :=
  ⟨{ held with cores := [(1, { coreOf held 1 with tasks := List.replicate 256 aTask })] }, _, held, _, ans (by decide +kernel),
    ans (by decide +kernel)⟩

def queueing (w : List DWord) : State :=
  { setBlock (fun b => { b with nteams := 2 }) (inTeam .t id) with cores := [(1, { coreOf held 1 with tasks := [w] })] }

theorem meets_TaskInstructions_next : ∃ (s s0 s1 : State) (c : Cx) (w : List DWord) (u : Team) (x : Arm), c = cxAt s ∧
    Prepared (fun _ => plain 0xd1 [] .none) s c ∧ (c.t.split = false ∧ stackDepth c.t.stack = 0 ∧ c.t.task = none ∧ c.arm = 0 ∧
      pickTask (coreOf s c.b.core).tasks c.t.lanes c.t.weight = some w ∧ taskEntry w ≠ 0 ∧
      hasChargeSet (coreOf s c.b.core) (taskContext w) = true) ∧ Answers (acquireWide c.b.core) s () s0 ∧
    Answers (placeHeldTasks c.b.part)
      (s0.withCore c.b.core { coreOf s0 c.b.core with tasks := (coreOf s0 c.b.core).tasks.erase w }) () s1 ∧
    find? s1.teams c.tid = some u ∧ u.a0 = some x :=
  ⟨queueing aTask, _, _, _, aTask, mate (queueing aTask), newArm placedAt 32, rfl, prep (by decide +kernel), by decide +kernel,
    ans (by decide +kernel), ans (by decide +kernel), by decide +kernel⟩

/-- A stop record, and no record. -/
theorem meets_TaskInstructions_stop : ∃ (s s0 s1 : State) (c : Cx) (w : List DWord), c = cxAt s ∧
    Prepared (fun _ => plain 0xd1 [] .none) s c ∧ (c.t.split = false ∧ stackDepth c.t.stack = 0 ∧ c.t.task = none ∧ c.arm = 0 ∧
      pickTask (coreOf s c.b.core).tasks c.t.lanes c.t.weight = some w ∧ taskEntry w = 0 ∧ c.t.aerr.pending = false) ∧
    Answers (acquireWide c.b.core) s () s0 ∧
    Answers (placeHeldTasks c.b.part)
      (s0.withCore c.b.core { coreOf s0 c.b.core with tasks := (coreOf s0 c.b.core).tasks.erase w }) () s1 ∧
    s1.teams = s.teams ∧ s1.blocks = s.blocks ∧ c.b.barrived = 0 ∧
    liveTeams { c.b with retired := c.b.retired ||| 2 ^ c.t.idx } ≠ 0 ∧
    pickTask (coreOf (inTeam .t id) 1).tasks c.t.lanes c.t.weight = none :=
  ⟨queueing (List.replicate 8 0), _, _, _, List.replicate 8 0, rfl, prep (by decide +kernel), by decide +kernel,
    ans (by decide +kernel), ans (by decide +kernel), by decide +kernel⟩

/-- Tasks without a successor, and with one at VA 0x10040 by a release. -/
def working : State := inTeam .t fun t => { t with task := some ((aTask.set 3 0x10040).set 4 0x100000001) }

theorem meets_TaskInstructions_done : ∃ (s s0 s1 s2 s3 : State) (c : Cx) (w : List DWord) (ia old : Nat) (u : Team), c = cxAt s ∧
    Prepared (fun _ => plain 0xd2 [] .none) s c ∧ (c.t.split = false ∧ c.t.task = some w ∧ suppressed c = false ∧
      taskSuccessor w ≠ 0 ∧ taskSuccessor w % 8 = 0) ∧ Answers (plainIa c (taskSuccessor w) .rmw) s ia s0 ∧ taskRelease w = true ∧
    Answers (releaseWide c.b.core c.t.bid) s0 () s1 ∧
    Answers (do releaseFenced c; flushOwn c.req c.b c.t.bid (taskSuccessor w) ia) s1 () s2 ∧
    Answers (counterSignal c false ia (-(taskDecrement w : Int))) s2 old s3 ∧ find? s3.teams c.tid = some u ∧
    taskSuccessor aTask = 0 :=
  ⟨working, _, _, _, _, _, (aTask.set 3 0x10040).set 4 0x100000001, 0x10040, 0, mate working, rfl, prep (by decide +kernel),
    by decide +kernel, ans (by decide +kernel),
    by decide +kernel, ans (by decide +kernel), ans (by decide +kernel), ans (by decide +kernel), by decide +kernel⟩

/-- A task of an arm with no live lane. -/
theorem meets_TaskInstructions_suppressed : ∃ (s : State) (c : Cx), c = cxAt s ∧ Prepared (fun _ => plain 0xd2 [] .none) s c ∧
    c.t.split = false ∧ c.t.task = some aTask ∧ suppressed c = true :=
  ⟨inTeam .t fun t => { modLanes t (fullMask 32) fun x => { x with st := .helper } with task := some aTask }, _, rfl,
    prep (by decide +kernel), by decide +kernel⟩

theorem meets_TaskInstructions_launch : ∃ (s s0 s1 s2 : State) (c : Cx) (bs : List (BitVec 8)) (u : Team), c = cxAt s ∧
    Prepared (fun _ => plain 0xd3 [⟨.s 1, .scalar, false⟩] .none) s c ∧ suppressed c = false ∧ (opScalar c (.s 1)).toNat % 64 = 0 ∧
    Answers (scalarAccess c (opScalar c (.s 1)).toNat .read (readOwn c (opScalar c (.s 1)).toNat 64)) s bs s0 ∧
    Answers (scalarAccess c (opScalar c (.s 1)).toNat .read (plainIa c (opScalar c (.s 1)).toNat .read)) s0 0x10000 s1 ∧
    c.t.pendingLaunch.length < 4 ∧ Answers (releaseWide c.b.core c.t.bid) s1 () s2 ∧ find? s2.teams c.tid = some u :=
  let s := inTeam .t (setS 1 0x10000)
  ⟨s, _, _, _, _, answer (scalarAccess (cxAt s) 0x10000 .read (readOwn (cxAt s) 0x10000 64)) s [], mate s, rfl, prep (by decide +kernel), by decide +kernel, by decide +kernel,
    ans (by decide +kernel), ans (by decide +kernel), by decide +kernel, ans (by decide +kernel), by decide +kernel⟩

/-- An entry that adds 1 to the counter at VA 0x10080 when the one at 0x10040 is at least 5, in s4 to s8. -/
def arming : State := withPart aPartition (inTeam .t fun t =>
  setS 4 0x10040 (setS 5 5 (setS 6 0x10080 (setS 7 1 (setS 8 9 t)))))

theorem meets_TaskInstructions_trig : ∃ (s s2 : State) (c : Cx) (ia op : Nat) (u : Team), c = cxAt s ∧
    Prepared (fun _ => { plain 0xd5 [⟨.s 2, .dst, false⟩, ⟨.s 4, .scalar, false⟩] .none with operandOk := runOk (.s 4) 5 }) s c ∧
    suppressed c = false ∧ trigOk (runAt c (.s 4) 0).toNat (runAt c (.s 4) 2).toNat (runAt c (.s 4) 4).toNat = true ∧
    rangePlace (contextOf s c.b.ctx) (runAt c (.s 4) 0).toNat = some ia ∧ peerOf s ia = none ∧
    rangePlace (contextOf s c.b.ctx) (runAt c (.s 4) 2).toNat = some op ∧
    Answers (armTrigger c.b.part (trigEntry c ia op (runAt c (.s 4) 1) (runAt c (.s 4) 3) (runAt c (.s 4) 4).toNat)) s (some 0) s2 ∧
    find? s2.teams c.tid = some u :=
  ⟨arming, _, _, 0x10040, 0x10080, mate arming, rfl, prep (by decide +kernel), by decide +kernel, by decide +kernel,
    by decide +kernel, by decide +kernel, by decide +kernel, ans (by decide +kernel), by decide +kernel⟩

def anEntry : Trigger := ⟨0x10040, 0, 2, false, 5, 0x10080, 0, 1, 0, 0, 1, 0, false, none⟩

/-- Entry 255 is of this context, entry 254 is the one that ends a parked block, and there is no entry 7. -/
theorem meets_TaskInstructions_disarm : ∃ (s s' : State) (c c' : Cx) (p : Partition) (e e' : Trigger), c = cxAt s ∧ c' = cxAt s' ∧
    Prepared (fun c => { plain 0xd6 [⟨.s 2, .dst, false⟩, ⟨.s 1, .scalar, false⟩] .none with
      operandOk := decide ((opScalar c (.s 1)).toNat ≤ 255) }) s c ∧ find? s.partitions c.b.part = some p ∧
    find? p.triggers (opScalar c (.s 1)).toNat = some e ∧ e.ctx = c.b.ctx ∧ e.parked = none ∧
    find? s'.partitions c'.b.part = some p ∧ find? p.triggers (opScalar c' (.s 1)).toNat = some e' ∧ e'.ctx = c'.b.ctx ∧
    e'.parked = some (3, 4, 0) ∧ (∀ e, find? p.triggers 7 = some e → e.ctx ≠ c.b.ctx) :=
  let p := { aPartition with triggers := [(254, { anEntry with parked := some (3, 4, 0) }), (255, anEntry)] }
  ⟨withPart p (inTeam .t (setS 1 255)), withPart p (inTeam .t (setS 1 254)), _, _, p, anEntry, { anEntry with parked := some (3, 4, 0) },
    rfl, rfl, prep (by decide +kernel), by decide +kernel, by decide +kernel, by decide +kernel, rfl, by decide +kernel,
    by decide +kernel, by decide +kernel, rfl, fun e h => absurd h (by simp [p, find?])⟩

/-- The pair of the page at IA 0x10000 and the line of 0x10040, at their slices. -/
def aPair : TlbEntry := ⟨1, 1, 1, 1, 1, true, true, true, 1, 1, false⟩
def aSector : LlcLine := ⟨1, 0x10040 / 512, 1, 0xff, 0, [], 0x3ff, false, 0, 0⟩
def cachedLine (s : State) : State := { paged s with llc := [(llcKey 0x10040 1, aSector)] }

/-- Whether the home slice of IA 0x10040 serves a requester with a pair and a line. -/
def servesNow (s : State) (r : Req) (e : TlbEntry) (l : LlcLine) : Prop :=
  flowStopped s r.src (routerOfSlice (sliceOf 0x10040)) = false ∧
    ((sliceState s (sliceOf 0x10040)).refuse = false ∧ (sliceState s (sliceOf 0x10040)).full = false) ∧
    find? s.tlb (tlbKey 0x10040 r.world (sliceOf 0x10040)) = some e ∧ (e.rd = true ∧ e.wr = true ∧ e.erased = false) ∧
    (keyOf s e.slot).badReplicas.contains (sliceOf 0x10040) = false ∧ keyCurrent s e.slot e.gen = true ∧
    hostLost s (maOf e 0x10040) = false ∧ find? s.llc (llcKey (maOf e 0x10040) e.slot) = some l ∧
    (l.valid = 0xff ∧ l.poison = false ∧ l.single = 0 ∧ l.double = 0) ∧
    (chunkOwner s (maOf e 0x10040) = none ∧ find? s.hostOwned (maOf e 0x10040 / 64) = none)

theorem serves_line {s : State} {r : Req} {e : TlbEntry} {l : LlcLine} (h : servesNow s r e l) : Serves s r 0x10040 e l :=
  ⟨h.1, h.2.1, h.2.2.1, h.2.2.2.1, h.2.2.2.2.1, h.2.2.2.2.2.1, h.2.2.2.2.2.2.1, h.2.2.2.2.2.2.2.1, h.2.2.2.2.2.2.2.2.1,
    h.2.2.2.2.2.2.2.2.2⟩

theorem meets_WorkEvents_counter : ∃ (s s1 t t1 : State) (old : Nat) (r : Req) (e : TlbEntry) (l : LlcLine), 0x10040 % 8 = 0 ∧ 0x10040 < 2 ^ 52 ∧
    1 < 64 ∧ r = ⟨routerOfSlice (sliceOf 0x10040), none, none, none, 1⟩ ∧ Serves s r 0x10040 e l ∧
    (∀ q ∈ s.partitions, ∀ x ∈ q.2.triggers, x.2.counter ≠ 0x10040 ∨ x.2.world ≠ 1) ∧
    Answers (counterAdd r 0x10040 1) s old s1 ∧ Stops (counterAdd r 0x10040 1) t (.wait .refused) t1 :=
  ⟨cachedLine held, _, { held with slices := [(sliceOf 0x10040, { Slice.fresh with full := true })] }, _, 0, _, aPair, aSector,
    by decide, by decide, by decide, rfl, serves_line (by unfold servesNow; decide +kernel), by decide +kernel,
    ans (by decide +kernel), stp (by decide +kernel)⟩

/-- An arm that watches the counter at VA 0x10040, and one that polls it. -/
def waitingAs (w : Wait) : State := inTeam .t (setArm fun a => { a with wait := w })

theorem meets_WorkEvents_served : ∃ (s : State) (c : Cx) (e : TlbEntry) (l : LlcLine), cxOf s 8 0 .t = some c ∧
    peerOf s 0x10040 = none ∧ Serves s c.req 0x10040 e l ∧ 0x10040 % (if 0 = 3 then 1 else 8) = 0 ∧
    watchHolds 0 (numLE (lineBytes l.bytes (0x10040 % 512) 8)) (0 : DWord).toNat = true ∧ c.a.wait = .watch 1 0x10040 0 0 :=
  let s := cachedLine (waitingAs (.watch 1 0x10040 0 0))
  ⟨s, _, aPair, aSector, cx_here (s := s) (by decide +kernel), by decide +kernel,
    serves_line (by unfold servesNow; decide +kernel), by decide +kernel, by decide +kernel, by decide +kernel⟩

theorem meets_WorkEvents_notify : ∃ (s s1 t : State) (c : Cx) (bs : List (BitVec 8)) (u : Team), cxOf s 8 0 .t = some c ∧
    peerOf s 0x10040 = none ∧ Answers (sliceRead c.req 0x10040 (if 0 = 3 then 1 else 8) .read) s bs s1 ∧ find? s1.teams 8 = some u ∧
    c.a.wait = .watch 1 0x10040 0 0 ∧ armOf u 0 = some c.a ∧ watchHolds 0 (numLE bs) (0 : DWord).toNat = true ∧
    (cxAt t).a.wait = .poll 1 0x10040 0 0 :=
  ⟨waitingAs (.watch 1 0x10040 0 0), _, waitingAs (.poll 1 0x10040 0 0), _, List.replicate 8 0, mate (waitingAs (.watch 1 0x10040 0 0)),
    cx_here (s := waitingAs (.watch 1 0x10040 0 0)) (by decide +kernel), by decide +kernel, ans (by decide +kernel), by decide +kernel,
    by decide +kernel, by decide +kernel, by decide +kernel, by decide +kernel⟩

def stealing : State := withPart aPartition { held with cores := [(1, { coreOf held 1 with tasks := [aTask, aTask] }),
  (2, { Core.fresh with latch := some 1 })] }

theorem meets_WorkEvents_steal : (coreOf stealing 2).tasks = [] ∧ (coreOf stealing 2).stealing = none ∧ holdsTask stealing 2 = false ∧
    2 ≠ 1 ∧ partitionOfQuad stealing (quadOfCore 2) = partitionOfQuad stealing (quadOfCore 1) ∧ isFirmwareCore 1 = false ∧
    isFirmwareCore 2 = false ∧ (coreOf stealing 2).latch = (coreOf stealing 1).latch ∧ (coreOf stealing 2).latch ≠ none ∧
    stealable (coreOf stealing 1).tasks = [aTask] := by decide +kernel

theorem meets_WorkEvents_stolen : ∃ (s : State) (p : Partition), (coreOf s 2).stealing = some [aTask] ∧
    find? s.partitions (partOfCore s 2) = some p :=
  ⟨withPart aPartition { held with cores := [(2, { Core.fresh with latch := some 1, stealing := some [aTask] })] }, aPartition,
    by decide +kernel⟩

theorem meets_WorkEvents_retry : ∃ (s : State) (c : Cx), cxOf s 8 0 .t = some c ∧ s.late = [] ∧ c.a.wait = .refused :=
  ⟨waitingAs .refused, _, cx_here (s := waitingAs .refused) (by decide +kernel), by decide +kernel, by decide +kernel⟩

theorem meets_WorkEvents_join : ∃ (s s1 s2 s3 : State) (c : Cx) (u : Team), c = cxAt s ∧
    Prepared (fun _ => waitSig 0xd4 4 (decide (0 < 3)) (.s 1) (.s 2)) s c ∧ c.t.sfault = false ∧ (opScalar c (.s 1)).toNat % 8 = 0 ∧
    c.a.joined = false ∧ Answers (observe c (opScalar c (.s 1)).toNat 8) s 0 s1 ∧
    watchHolds 0 0 (opScalar c (.s 2)).toNat = true ∧ watchHolds 1 0 (opScalar c (.s 3)).toNat = false ∧
    Answers (do acquireAt c 4; mergeFlags c (opScalar c (.s 1)).toNat; deliverAsync c 4) s1 () s2 ∧ find? s2.teams c.tid = some u ∧
    (contextOf s1 c.b.ctx).jpat ≠ 0 ∧ hasLeft s1 c.t.bid = false ∧ Answers (plainIa c (opScalar c (.s 1)).toNat .read) s1 0x10040 s3 :=
  let s := inTeam .t fun t => setS 1 0x10040 (setS 3 5 t)
  ⟨s, _, _, _, _, mate s, rfl, prep (by decide +kernel), by decide +kernel, by decide +kernel, by decide +kernel, ans (by decide +kernel),
    by decide +kernel, by decide +kernel, ans (by decide +kernel), by decide +kernel, by decide +kernel, by decide +kernel,
    ans (by decide +kernel)⟩

/-- A join that has waited for the whole of its patience, with a frame for its block at VA 0x10800. -/
def joining : State := { withPart aPartition (setBlock (fun b => { b with frameVa := 0x18000 })
  (waitingAs (.joinc 1 0x10040 0 5 true 2000))) with time := 2000 }

theorem meets_WorkEvents_patience : ∃ (s t : State) (c e : Cx) (p : Partition), cxOf s 8 0 .t = some c ∧
    (c.a.wait = .joinc 1 0x10040 0 5 true 2000 ∧ 2000 ≤ s.time ∧ c.b.st = .resident ∧
      saveReady s c.t.bid c.b = true ∧ find? s.partitions c.b.part = some p ∧ freeTrigger p ≠ none ∧ peerOf s 0x10040 = none) ∧
    cxOf t 8 0 .t = some e ∧ e.a.wait = .joinc 1 0x10040 0 5 true 2000 ∧ t.time < 2000 :=
  let t := waitingAs (.joinc 1 0x10040 0 5 true 2000)
  ⟨joining, t, _, _, aPartition, cx_here (s := joining) (by decide +kernel), by decide +kernel,
    cx_here (s := t) (by decide +kernel), by decide +kernel, by decide +kernel⟩

/-- The same with a frame of no team and no stash. -/
def joinsSmall : State := setBlock (fun b => { b with nteams := 0, stashSize := 0 }) (setWord 11 0 (paged joining))

/-- After its counter was read. -/
def joinsRead : State := runAct (sliceRead (frontReq 0 (some 0) 1) 0x10040 8 .read) joinsSmall
def joinsSave : Act Bool := saveBlock (cxAt joinsSmall).t.bid (cxAt joinsSmall).b.frameVa .parked false
/-- Its block parked. -/
def joinsSaved : State := runAct joinsSave joinsRead
/-- The entry armed for it. -/
def joinsArm : Act (Option Nat) :=
  armTrigger (cxAt joinsSmall).b.part (parkEntry (cxAt joinsSmall).b 0x10040 0 5 (cxAt joinsSmall).t.bid (cxAt joinsSmall).t.idx 0)

theorem parks_run : (gives joinsSave joinsRead true && (gives joinsArm joinsSaved (some 0) &&
    decide ((find? (runAct joinsArm joinsSaved).blocks (cxAt joinsSmall).t.bid).map (·.st) = some .parked))) = true := by
  decide +kernel

theorem meets_WorkEvents_parks : ∃ (s s0 s1 s2 : State) (c : Cx) (p : Partition) (bs : List (BitVec 8)) (x : Block) (i : Option Nat),
    cxOf s 8 0 .t = some c ∧
    (c.a.wait = .joinc 1 0x10040 0 5 true 2000 ∧ 2000 ≤ s.time ∧ c.b.st = .resident ∧
      saveReady s c.t.bid c.b = true ∧ find? s.partitions c.b.part = some p ∧ freeTrigger p ≠ none ∧ peerOf s 0x10040 = none) ∧
    Answers (sliceRead (frontReq c.b.part (some c.b.ctx) c.b.world) 0x10040 8 .read) s bs s0 ∧
    Answers (saveBlock c.t.bid c.b.frameVa .parked false) s0 true s1 ∧
    Answers (armTrigger c.b.part (parkEntry c.b 0x10040 0 5 c.t.bid c.t.idx 0)) s1 i s2 ∧
    find? s2.blocks c.t.bid = some x ∧ x.st = .parked :=
  have h := (and_both parks_run).2
  have ⟨x, found, parked⟩ := Option.map_eq_some_iff.mp (of_decide_eq_true (and_both h).2)
  ⟨joinsSmall, joinsRead, joinsSaved, _, _, aPartition, List.replicate 8 0, x, some 0, cx_here (s := joinsSmall) (by decide +kernel),
    by decide +kernel, ans (by decide +kernel), ans (and_both parks_run).1, ans (and_both h).1, found, parked⟩

/-- The fault of an engine operation, met, then posted. -/
def faulting (n : Nat) (state : Nat) : State :=
  { withPart { aPartition with faultFree := n } (setBlock (fun b => { b with faults := [7] }) held) with
    faults := [(7, ⟨1, 1, 0x20000, 1, some 5, 0, state⟩)], ops := [(5, queuedFill)] }

theorem meets_WorkEvents_fault : ∃ (s t : State) (x : Block) (f : FaultRec) (p q : Partition),
    (find? s.blocks 1 = some x ∧ x.faults = [7] ∧ find? s.faults 7 = some f ∧ f.state = 0 ∧ f.op ≠ none ∧
      find? s.partitions x.part = some p ∧ x.trigger = none ∧ 0 < p.faultFree ∧ p.faultWait = []) ∧
    find? t.partitions x.part = some q ∧ q.faultFree = 0 :=
  ⟨faulting 1 0, faulting 0 0, theBlock (faulting 1 0), ⟨1, 1, 0x20000, 1, some 5, 0, 0⟩, { aPartition with faultFree := 1 },
    { aPartition with faultFree := 0 }, by decide +kernel⟩

theorem meets_WorkEvents_resolve : ∃ (s : State) (x : Block) (f : FaultRec) (p : Partition) (o : EngineOp),
    find? s.faults 7 = some f ∧ f.state = 2 ∧ find? s.blocks f.bid = some x ∧ find? s.partitions x.part = some p ∧
    f.op = some 5 ∧ find? s.ops 5 = some o :=
  ⟨faulting 1 2, theBlock (faulting 1 2), ⟨1, 1, 0x20000, 1, some 5, 0, 2⟩, { aPartition with faultFree := 1 }, queuedFill,
    by decide +kernel⟩

/-- A fault of a block that is gone waits for a counter. -/
theorem meets_WorkEvents_grant : ∃ (s : State) (f : FaultRec) (p : Partition), find? s.partitions 0 = some p ∧ p.faultWait = [7] ∧
    0 < p.faultFree ∧ find? s.faults 7 = some f ∧ find? s.blocks f.bid = none :=
  ⟨{ withPart { aPartition with faultWait := [7] } held with faults := [(7, ⟨1, 1, 0x20000, 99, none, 0, 1⟩)] },
    ⟨1, 1, 0x20000, 99, none, 0, 1⟩, { aPartition with faultWait := [7] }, by decide +kernel⟩

/-- A block about to be saved, flushed, and drained past its limit. -/
def leavingAs (p : Preempt) : State := setBlock (fun b => { b with preempt := p, spent := 6, frameVa := 0x18000 }) held

theorem meets_WorkEvents_preempt : ∃ (s t v w : State) (x y z o : Block), find? s.blocks 1 = some x ∧ x.preempt = .save ∧
    x.st = .resident ∧ saveReady s 1 x = true ∧ armedFor s x = false ∧ find? t.blocks 1 = some y ∧ y.preempt = .flush ∧
    y.st = .resident ∧ find? v.blocks 1 = some z ∧ z.preempt = .drain 5 ∧ 5 < spentOf v 1 z ∧
    find? w.blocks 1 = some o ∧ o.preempt = .save ∧ o.st = .resident ∧ saveReady w 1 o = true ∧ armedFor w o = true :=
  let w : State := { setBlock (fun b => { b with faults := [7] }) (leavingAs .save) with
    faults := [(7, ⟨1, 1, 0x20000, 1, none, 0, 2⟩)] }
  ⟨leavingAs .save, leavingAs .flush, leavingAs (.drain 5), w, theBlock (leavingAs .save), theBlock (leavingAs .flush),
    theBlock (leavingAs (.drain 5)), theBlock w, by decide +kernel⟩

/-- Saving a small block without stash, its team gone, at a frame of memory. -/
theorem meets_WorkEvents_save : ∃ s1 : State, Answers (saveBlock 1 0x14000 .saved true) (setBlock (fun b => { b with nteams := 0, stashSize := 0 }) (setWord 11 0 (paged (leavingAs .save)))) true s1 :=
  ⟨_, ans (by decide +kernel)⟩

/-- An MSTR on a launch whose stream starts at VA 0x10000, with its record at VA 0x10040 in s1. -/
def binding : State := inTeam .t (setS 1 0x10040)

theorem meets_Streams_bind : ∃ (s s1 : State) (c : Cx) (u : Team) (b : Block), c = cxAt s ∧
    Prepared (fun _ => plain 0xc7 [⟨.s 1, .scalar, false⟩] .none) s c ∧ suppressed c = false ∧ (opScalar c (.s 1)).toNat % 16 = 0 ∧
    launchStream c.l ≠ 0 ∧ c.b.stream.bound = false ∧ Answers (checkRecord c (opScalar c (.s 1)).toNat) s () s1 ∧
    find? s1.blocks c.t.bid = some b ∧ find? s1.teams c.tid = some u :=
  ⟨binding, _, _, mate binding, theBlock binding, rfl, prep (by decide +kernel), by decide +kernel, by decide +kernel,
    by decide +kernel, by decide +kernel, ans (by decide +kernel), by decide +kernel, by decide +kernel⟩

/-- The stream is bound with that record; and a launch has none. -/
theorem meets_Streams_bound : ∃ (s t : State) (c e : Cx), c = cxAt s ∧ e = cxAt t ∧
    Prepared (fun _ => plain 0xc7 [⟨.s 1, .scalar, false⟩] .none) s c ∧ launchStream c.l ≠ 0 ∧ c.b.stream.bound = true ∧
    c.b.stream.recVa = (opScalar c (.s 1)).toNat ∧ Prepared (fun _ => plain 0xc7 [⟨.s 1, .scalar, false⟩] .none) t e ∧
    launchStream e.l = 0 ∧ TakesTraps e :=
  ⟨setBlock (fun b => { b with stream := { b.stream with bound := true, recVa := 0x10040 } }) binding,
    handled (setWord 1 0 binding), _, _, rfl, rfl, prep (by decide +kernel), by decide +kernel, by decide +kernel,
    by decide +kernel, prep (by decide +kernel), by decide +kernel, traps (by decide +kernel)⟩

/-- A ring of one slot of 16,384 bytes at stash offset 0, its header behind it. -/
def aRing (dir held : Bool) : Ring := ⟨dir, 0, 0, 16384, 1, 32768, 0, held⟩

theorem no_ring {t : List (Nat × Ring)} {n : Nat} (h : (find? t n).isNone = true) : ∀ o, find? t n = some o → o.held = false := by
  intro o e
  rw [e] at h
  contradiction

theorem meets_Streams_ringd : ∃ (s s1 : State) (x : Sx) (b : Block) (r : Ring) (h : BitVec 32 × BitVec 32), x = sxIn s ∧
    s.focus = .stream x.bid .t ∧ sxOf s x.bid = some x ∧ r = ringOfWord (launchConst x.l 0).toNat 0 false ∧
    ringOk x.b.stashSize r = true ∧ (∀ o, find? x.st.rings 15 = some o → o.held = false) ∧ Answers (ringHeader x r.hdr) s h s1 ∧
    find? s1.blocks x.bid = some b :=
  let s := setWord 24 (64 * 2 ^ 20 + 2 ^ 36 + 2048 * 2 ^ 44) (inStream id)
  ⟨s, _, _, theBlock s, _, (0, 0), rfl, by decide +kernel, sx_here (by decide +kernel) (by decide +kernel), rfl, by decide +kernel,
    no_ring (by decide +kernel), ans (by decide +kernel), by decide +kernel⟩

/-- An in ring is not ready at its start and an out ring is. -/
def ringed (held : Bool) : State := inStream fun st => { st with rings := [(0, aRing false held), (1, aRing true held)] }

theorem meets_Streams_rwait : ∃ (s s1 : State) (x : Sx) (b : Block), x = sxIn s ∧ sxOf s x.bid = some x ∧
    find? x.st.rings 0 = some (aRing false false) ∧ find? x.st.rings 1 = some (aRing true false) ∧
    Answers (ringHeader x 32768) s (0, 0) s1 ∧ find? s1.blocks x.bid = some b ∧ ringReady (aRing true false) (0, 0) = true ∧
    ringReady (aRing false false) (0, 0) = false ∧ liveTeams b ≠ 0 :=
  ⟨ringed false, _, _, theBlock (ringed false), rfl, sx_here (by decide +kernel) (by decide +kernel), by decide +kernel,
    by decide +kernel, ans (by decide +kernel), by decide +kernel, by decide +kernel, by decide +kernel, by decide +kernel⟩

theorem meets_Streams_rfree : ∃ (s s1 : State) (x : Sx) (b : Block), x = sxIn s ∧ sxOf s x.bid = some x ∧
    find? x.st.rings 0 = some (aRing false true) ∧ Answers (streamWrite x (32768 + 4) (bytesLE 4 1)) s () s1 ∧
    find? s1.blocks x.bid = some b :=
  let s1 := runAct (streamWrite (sxIn (ringed true)) (32768 + 4) (bytesLE 4 1)) (ringed true)
  ⟨ringed true, s1, _, theBlock s1, rfl, sx_here (by decide +kernel) (by decide +kernel), by decide +kernel,
    ans (by decide +kernel), by decide +kernel⟩

theorem meets_Streams_barriers : ∃ (s : State) (x : Sx) (b : Block), x = sxIn s ∧ sxOf s x.bid = some x ∧ (1 ≤ 9 ∧ 9 ≤ 9) ∧
    (nbarOf x.b 0).stream = false ∧ (nbarOf x.b 0).arrivals = 0 ∧ (nbarOf x.b 0).arrivals + 1 ≠ 9 ∧ (nbarOf x.b 0).arrivals + 1 = 1 ∧
    find? (runAct (wakeBarriers x.bid) (s.withBlock x.bid { x.b with
      nbar := put x.b.nbar 0 ⟨(nbarOf x.b 0).completed + 1, 1, 0, 0, false⟩ })).blocks x.bid = some b ∧
    0 < ((nbarOf x.b 3).completed - rd x.st.waits 3).toInt ∧ ((nbarOf x.b 0).completed - rd x.st.waits 0).toInt ≤ 0 ∧
    liveTeams x.b ≠ 0 :=
  let s := setBlock (fun b => { b with nbar := [(3, ⟨1, 1, 0, 0, false⟩)] }) (inStream id)
  ⟨s, _, theBlock (runAct (wakeBarriers 1) (s.withBlock 1 { theBlock s with
      nbar := put (theBlock s).nbar 0 ⟨(nbarOf (theBlock s) 0).completed + 1, 1, 0, 0, false⟩ })), rfl,
    sx_here (by decide +kernel) (by decide +kernel), by decide, by decide +kernel⟩

theorem meets_Streams_loops : ∃ (s : State) (x : Sx), x = sxIn s ∧ sxOf s x.bid = some x ∧ Answers (loopCount x 7) s 7 s ∧
    Answers (loopCount x 0) s 0 s ∧ 3 ≠ 0 ∧ x.st.loops.length < 4 ∧ x.st.loops = ⟨2, 0x10020, 0x10060⟩ :: [] ∧
    x.st.inFlight = false ∧ x.st.recVa = 0 ∧ liveTeams x.b ≠ 0 ∧ convOk (launchConst x.l 0).toNat 1 = true :=
  let s := setWord 24 (1 + 2 ^ 3 + 2 ^ 20 + 2 ^ 32 + 2 ^ 44) (inStream fun st => { st with loops := [⟨2, 0x10020, 0x10060⟩] })
  ⟨s, _, rfl, sx_here (by decide +kernel) (by decide +kernel), rfl, rfl, by decide, by decide +kernel⟩

/-- A tile operation under way, and a stream with a record to write at its end. -/
theorem meets_Streams_end : ∃ (s t t1 : State) (x y : Sx) (b : Block), x = sxIn s ∧ y = sxIn t ∧ sxOf s x.bid = some x ∧
    x.st.inFlight = true ∧ sxOf t y.bid = some y ∧ y.st.inFlight = false ∧ y.st.recVa ≠ 0 ∧
    Answers (do
      chargeStream y (streamWeight t y clsFront 1) false
      modStream y.bid fun st => { st with bound := false, rings := dropHeld st.rings, wait := .none }
      freeEngine y.bid
      streamRecord y.bid y.b 1 0) t () t1 ∧ find? t1.blocks y.bid = some b ∧ liveTeams b ≠ 0 :=
  let t := inStream fun st => { st with recVa := 0x10040 }
  let t1 := runAct (do
      chargeStream (sxIn t) (streamWeight t (sxIn t) clsFront 1) false
      modStream 1 fun st => { st with bound := false, rings := dropHeld st.rings, wait := .none }
      freeEngine 1
      streamRecord 1 (sxIn t).b 1 0) t
  ⟨inStream fun st => { st with inFlight := true }, t, t1, _, _, theBlock t1, rfl, rfl, sx_here (by decide +kernel) (by decide +kernel),
    by decide +kernel, sx_here (by decide +kernel) (by decide +kernel), by decide +kernel, by decide +kernel,
    ans (by decide +kernel), blockHere (by decide +kernel), by decide +kernel⟩

theorem meets_Streams_flag : ∃ (s s1 : State) (x : Sx) (b : Block), x = sxIn s ∧ sxOf s x.bid = some x ∧ x.st.recVa ≠ 0 ∧
    Answers (writeFlag x) s () s1 ∧ find? s1.blocks x.bid = some b :=
  let s := inStream fun st => { st with recVa := 0x10040 }
  ⟨s, _, _, theBlock s, rfl, sx_here (by decide +kernel) (by decide +kernel), by decide +kernel, ans (by decide +kernel),
    by decide +kernel⟩

/-- A granted operation, one without, an entry that waits for the free engine, and one that holds it. -/
def engined (e : Engine) (w : SWait) : State :=
  { inStream (fun st => { st with wait := w }) with engines := [(clusterOfCore 1, e)] }

theorem meets_TileOperations_grant : ∃ (s t s1 : State) (x : Sx) (b : Block) (mq : Nat), x = sxIn s ∧ sxOf s x.bid = some x ∧
    tileForm (.mtrn 0 0 0) = some (moveBody 0 0 0 none fun _ => .transpose) ∧ s.focus = .stream x.bid .t ∧
    (engineOf s x.cluster).granted = some x.bid ∧ Answers (acczBody 0 x) s mq s1 ∧ find? s1.blocks x.bid = some b ∧
    (engineOf t (sxIn t).cluster).granted ≠ some 1 :=
  let s := engined { Engine.fresh with granted := some 1 } .none
  let t := engined Engine.fresh .none
  ⟨s, t, runAct (acczBody 0 (sxIn s)) s, _, theBlock (runAct (acczBody 0 (sxIn s)) s), answer (acczBody 0 (sxIn s)) s 0, rfl,
    sx_here (by decide +kernel) (by decide +kernel), rfl, by decide +kernel, by decide +kernel, ansIts (by decide +kernel),
    blockHere (by decide +kernel), by decide +kernel⟩

theorem meets_TileOperations_free : ∃ (s t : State) (r : Ready) (b e : Block), (engineOf s (clusterOfCore 1)).granted = none ∧
    (engineOf s (clusterOfCore 1)).busy = none ∧ bestReady (readyEntries s (clusterOfCore 1)) = some r ∧
    find? s.blocks r.bid = some b ∧ (engineOf t (clusterOfCore 1)).busy = some 1 ∧ find? t.blocks 1 = some e ∧ e.stream.wait = .ring 0 :=
  ⟨engined Engine.fresh .engine, engined { Engine.fresh with busy := some 1 } (.ring 0), ⟨1, 0, 0, 0⟩,
    theBlock (engined Engine.fresh .engine), theBlock (engined { Engine.fresh with busy := some 1 } (.ring 0)), by decide +kernel⟩

/-- Rings held for a pass of f16 elements, and for a store of f32. -/
def passing (dir : Bool) : State := setWord 40 0xa88 (inStream fun st => { st with
  rings := [(0, ⟨false, 0, 0, 16384, 1, 32768, 0, true⟩), (1, ⟨dir, 0, 16384, 16384, 1, 32784, 0, true⟩)] })

/-- Whether the chunks of a range lie in no mapped region. -/
def unmappedFor (b : Block) (off n : Nat) : Bool := (chunkPieces (n / 256 + 2) off n).all fun p => (regionAt b p.1).isNone

theorem no_chunks {r : Req} {bid : Nat} {b : Block} {k : AccKind} {s : State} :
    ∀ l : List (Nat × Nat), (l.all fun p => (regionAt b p.1).isNone) = true → outcome (chunksFor r bid b k l) s = (.ok (), s)
  | [], _ => rfl
  | p :: t, h => by
    simp only [List.all_cons, Bool.and_eq_true, Option.isNone_iff_eq_none] at h
    have e := no_chunks (r := r) (bid := bid) (k := k) (s := s) t h.2
    simp only [chunksFor] at e
    simp only [chunksFor, each, outcome_bind, h.1, outcome_pure]
    exact e

/-- A read of a plain part of the stash changes nothing. -/
theorem stash_plain {x : Sx} {b : Block} {s : State} (hb : find? s.blocks x.bid = some b) :
    ∀ l : List (Nat × Nat), (l.all fun p => unmappedFor b p.1 p.2 && !stashBad b p.1 p.2) = true →
      outcome (collect l fun p => stashRead x.req x.bid p.1 p.2) s = (.ok (l.map fun p => lineBytes b.stash p.1 p.2), s)
  | [], _ => rfl
  | p :: t, h => by
    simp only [List.all_cons, Bool.and_eq_true, Bool.not_eq_true'] at h
    have e : outcome (stashRead x.req x.bid p.1 p.2) s = (.ok (lineBytes b.stash p.1 p.2), s) := by
      simp only [stashRead, outcome_bind, outcome_get, hb, no_chunks _ h.1.1, h.1.2, Bool.false_eq_true, if_false]
      rfl
    simp only [collect, outcome_bind, e, stash_plain hb t (by simpa using h.2), outcome_pure, List.map_cons]

theorem reads_plain {x : Sx} {b : Block} {s : State} {off n : Nat} (hb : find? s.blocks x.bid = some b)
    (h : ((chunkPieces (n / 256 + 2) off n).all fun p => unmappedFor b p.1 p.2 && !stashBad b p.1 p.2) = true) :
    Answers (streamRead x off n) s ((chunkPieces (n / 256 + 2) off n).map fun p => lineBytes b.stash p.1 p.2).flatten s := by
  have e := stash_plain (x := x) hb _ h
  simp only [Answers, streamRead, outcome_bind] at e ⊢
  rw [e]
  rfl

theorem meets_TileOperations_pass : ∃ (s s1 s2 : State) (x : Sx) (r q : Ring) (da db : List (BitVec 8)) (b : Block) (v : Nat),
    x = sxIn s ∧ sxOf s x.bid = some x ∧ sorted x.b.tile = true ∧ 0 < launchTiles x.l ∧ v = slotBits x.l 0 ∧
    find? x.st.rings 0 = some r ∧ r.held = true ∧ r.dir = false ∧ find? x.st.rings 1 = some q ∧ q.held = true ∧ q.dir = false ∧
    q.sp = 0 ∧ passSlotOk false v = true ∧ slotA v ≠ 15 ∧ slotB v ≠ 15 ∧ passK (slotA v) (slotB v) = some 32 ∧
    (∀ k ∈ x.b.tilePoison, k / 4096 ≠ 0) ∧ bytesOfA x v false 32 ≤ r.size ∧ bytesOfB v 32 32 false ≤ q.size ∧
    Answers (streamRead x (slotOffset r) (bytesOfA x v false 32)) s da s1 ∧
    Answers (streamRead x (slotOffset q) (bytesOfB v 32 32 false)) s1 db s2 ∧ find? s2.blocks x.bid = some b ∧ b.tile = x.b.tile :=
  ⟨passing false, _, _, _, ⟨false, 0, 0, 16384, 1, 32768, 0, true⟩, ⟨false, 0, 16384, 16384, 1, 32784, 0, true⟩,
    _, _, theBlock (passing false), _, rfl, sx_here (by decide +kernel) (by decide +kernel),
    by decide +kernel, by decide +kernel, rfl, by decide +kernel, rfl, rfl, by decide +kernel, rfl, rfl, rfl, by decide +kernel,
    by decide +kernel, by decide +kernel, by decide +kernel, (by decide +kernel), by decide +kernel, by decide +kernel,
    reads_plain (blockHere (by decide +kernel)) (by decide +kernel), reads_plain (blockHere (by decide +kernel)) (by decide +kernel),
    blockHere (by decide +kernel), rfl⟩

theorem meets_TileOperations_load : ∃ (s s1 : State) (x : Sx) (r : Ring) (da : List (BitVec 8)) (b : Block),
    x = sxIn s ∧ sxOf s x.bid = some x ∧ find? x.st.rings 0 = some r ∧ r.held = true ∧ r.dir = false ∧ 16384 ≤ r.size ∧
    Answers (streamRead x (slotOffset r) 16384) s da s1 ∧ find? s1.blocks x.bid = some b ∧ b.tile = x.b.tile :=
  ⟨passing false, _, _, ⟨false, 0, 0, 16384, 1, 32768, 0, true⟩, _, theBlock (passing false), rfl,
    sx_here (by decide +kernel) (by decide +kernel), by decide +kernel, rfl, rfl, by decide,
    reads_plain (blockHere (by decide +kernel)) (by decide +kernel), blockHere (by decide +kernel), rfl⟩

theorem meets_TileOperations_store : ∃ (s s1 : State) (x : Sx) (q : Ring) (b : Block) (v : Nat), x = sxIn s ∧ sxOf s x.bid = some x ∧
    v = slotBits x.l 0 ∧ find? x.st.rings 1 = some q ∧ q.held = true ∧ q.dir = true ∧ slotClean v = true ∧ outType (slotOut v) = true ∧
    512 * fmtWidth (slotOut v) ≤ q.size ∧ (∀ k ∈ x.b.tilePoison, k / 4096 ≠ 0) ∧
    Answers (streamWrite x (slotOffset q) (elemBytes (fmtWidth (slotOut v)) (tileElems x.b 0 (slotOut v) (slotSat v)))) s () s1 ∧
    find? s1.blocks x.bid = some b :=
  ⟨passing true, _, _, ⟨true, 0, 16384, 16384, 1, 32784, 0, true⟩, _, _, rfl, sx_here (by decide +kernel) (by decide +kernel), rfl,
    by decide +kernel, rfl, rfl, by decide +kernel, by decide +kernel, by decide +kernel, by decide +kernel, ans (by decide +kernel),
    blockHere (by decide +kernel)⟩

/-- The engine granted, and rings 0 and 1 held; sp and the direction of ring 1, the sizes of their slots. -/
def granting (sp : Nat) (dir : Bool) (size slots word : Nat) : State :=
  { setWord 40 word (inStream fun st => { st with
      rings := [(0, ⟨false, 0, 0, size, 1, 65520, 0, true⟩), (1, ⟨dir, sp, slots, 32768, 1, 65528, 0, true⟩)]
      conv := some ⟨1 + 2 ^ 3 + 2 ^ 20 + 2 ^ 32 + 2 ^ 44, 1, 0, 0⟩ }) with
    engines := [(clusterOfCore 1, { Engine.fresh with granted := some 1 })] }

theorem tile_ready {s : State} {acc : Nat} (f : s.focus = .stream 1 .t)
    (h : ((theBlock s).stream.bound && (theBlock s).launch == 1) = true) (b : (find? s.blocks 1).isSome = true)
    (g : (engineOf s (sxIn s).cluster).granted = some 1) (t : acc < launchTiles (sxIn s).l)
    (c : ((theBlock s).tilePoison.all fun k => k / 4096 != acc) = true) (o : sorted (theBlock s).tile = true) :
    TileReady s (sxIn s) .t acc :=
  ⟨f, sx_here (blockHere b) h, g, t, fun k hk => by simpa using List.all_eq_true.mp c k hk, o⟩

theorem slot_held {x : Sx} {n k : Nat} {out : Bool} {r : Ring} (h : find? x.st.rings n = some r)
    (a : r.held = true ∧ r.dir = out) (b : k ≤ r.size) (c : x.b.regions = []) (d : x.b.stashPoison = []) : SlotHeld x n out k r :=
  ⟨h, a, b, fun j _ => by simp [regionAt, c], by simp [stashBad, d]⟩

theorem meets_TileOperations_complete : ∃ (s t : State) (x y : Sx) (r q p : Ring), x = sxIn s ∧ y = sxIn t ∧ TileReady s x .t 0 ∧
    TileReady t y .t 0 ∧ SlotHeld x 0 false 16384 r ∧ slotClean (slotBits x.l 0) = true ∧ outType (slotOut (slotBits x.l 0)) = true ∧
    SlotHeld y 1 true (512 * fmtWidth (slotOut (slotBits y.l 0))) p ∧ sorted y.b.stash = true ∧
    moveSlotOk (slotBits x.l 0) = true ∧ SlotHeld x 0 false (512 * elemBits (slotA (slotBits x.l 0))) r ∧ SlotHeld x 1 false 64 q :=
  let s := granting 0 false 16384 16384 0xa88
  let t := granting 0 true 16384 16384 0xa88
  ⟨s, t, _, _, ⟨false, 0, 0, 16384, 1, 65520, 0, true⟩, ⟨false, 0, 16384, 32768, 1, 65528, 0, true⟩,
    ⟨true, 0, 16384, 32768, 1, 65528, 0, true⟩, rfl, rfl, tile_ready rfl (by decide +kernel) (by decide +kernel) (by decide +kernel)
      (by decide +kernel) (by decide +kernel) (by decide +kernel),
    tile_ready rfl (by decide +kernel) (by decide +kernel) (by decide +kernel) (by decide +kernel) (by decide +kernel) (by decide +kernel),
    slot_held (by decide +kernel) (by decide +kernel) (by decide +kernel) rfl rfl, by decide +kernel, by decide +kernel,
    slot_held (by decide +kernel) (by decide +kernel) (by decide +kernel) rfl rfl, by decide +kernel, by decide +kernel,
    slot_held (by decide +kernel) (by decide +kernel) (by decide +kernel) rfl rfl,
    slot_held (by decide +kernel) (by decide +kernel) (by decide +kernel) rfl rfl⟩

/-- A dense pass, a sparse one of the first kind, and one of a convolution, of f16 elements. -/
theorem meets_TileOperations_product : ∃ (s t : State) (x y : Sx) (r q p : Ring) (v : Nat), x = sxIn s ∧ y = sxIn t ∧ TileReady s x .t 0 ∧
    TileReady t y .t 0 ∧ v = slotBits x.l 0 ∧ v = slotBits y.l 0 ∧ x.st.conv ≠ none ∧ passSlotOk false v = true ∧
    passSlotOk true v = true ∧ passK (slotA v) (slotB v) = some 32 ∧ slotA v ≠ 15 ∧ slotB v ≠ 15 ∧ ¬ (q.sp ≠ 0) ∧ p.sp ≠ 0 ∧
    SlotHeld x 0 false (bytesOfA x v false 32) r ∧ SlotHeld x 1 false (bytesOfB v 32 32 false) q ∧
    SlotHeld x 0 false (bytesOfA x v true 32) r ∧ SlotHeld y 0 false (bytesOfA y v false (3 * 32)) r ∧
    SlotHeld y 1 false (bytesOfB v (3 * 32 * sparseN p.sp / 12) (3 * 32) true) p :=
  let s := granting 0 false 16384 16384 0xa88
  let t := granting 1 false 16384 16384 0xa88
  ⟨s, t, _, _, ⟨false, 0, 0, 16384, 1, 65520, 0, true⟩, ⟨false, 0, 16384, 32768, 1, 65528, 0, true⟩,
    ⟨false, 1, 16384, 32768, 1, 65528, 0, true⟩, _, rfl, rfl, tile_ready rfl (by decide +kernel) (by decide +kernel) (by decide +kernel)
      (by decide +kernel) (by decide +kernel) (by decide +kernel),
    tile_ready rfl (by decide +kernel) (by decide +kernel) (by decide +kernel) (by decide +kernel) (by decide +kernel) (by decide +kernel),
    rfl, by decide +kernel, by decide +kernel, by decide +kernel, by decide +kernel, (by decide +kernel), by decide +kernel,
    by decide +kernel, by decide +kernel, by decide +kernel,
    slot_held (by decide +kernel) (by decide +kernel) (by decide +kernel) rfl rfl,
    slot_held (by decide +kernel) (by decide +kernel) (by decide +kernel) rfl rfl,
    slot_held (by decide +kernel) (by decide +kernel) (by decide +kernel) rfl rfl,
    slot_held (by decide +kernel) (by decide +kernel) (by decide +kernel) rfl rfl,
    slot_held (by decide +kernel) (by decide +kernel) (by decide +kernel) rfl rfl⟩

def placedAdd : State := State.reset.withFetchWord 32 0x20010203
def turned : State := begun { placedAdd with agenda := [] }

theorem meets_StepRunsDecoded_team : ∃ (s s0 s1 s2 s3 : State) (core tid a : Nat) (t : Team) (c : Cx) (bs : List (BitVec 8)) (i : Instr)
     (ctl : Control),
     s.agenda = .turn core :: [] ∧ s.power = true ∧ s0 = begun { s with agenda := [] } ∧ (coreOf s0 core).gated = false ∧
     s1 = { s0 with cores := put s0.cores core { coreOf s0 core with cycle := (coreOf s0 core).cycle + 1 } } ∧
     slotOwner s0 core ((coreOf s0 core).cycle % 8) = some tid ∧ find? s0.teams tid = some t ∧
     teamReady s0 t = true ∧ turnArm s0 t = some a ∧ t.split = false ∧
     s2 = { s1 with teams := put s1.teams tid { t with last := a } } ∧
     cxOf s2 tid a .t = some c ∧ c.a.held = none ∧ c.b.residual = false ∧
     Answers (fetchBundle c.req c.b.ctx false c.a.pc) s2 bs s3 ∧
     ctl = ⟨numLE (bs.take 4)⟩ ∧ bundleOk ctl 0 false (some 0) = true ∧
     ctl.bt c.a.slot ≠ .illegal ∧ classBtOk ctl (ctl.bt c.a.slot) = true ∧
     decodeTeam (numLE ((bs.drop (4 * c.a.slot)).take 4)) = .ok i ∧ i ≠ .nop := by
  let s1 : State := { turned with cores := put turned.cores 1 { coreOf turned 1 with cycle := (coreOf turned 1).cycle + 1 } }
  let s2 : State := { s1 with teams := put s1.teams 8 { mate turned with last := 0 } }
  let c : Cx := cxAt { s2 with focus := .team 8 0 .t }
  let bs := answer (fetchBundle c.req c.b.ctx false c.a.pc) s2 []
  exact ⟨placedAdd, turned, s1, s2, _, 1, 8, 0, mate turned, c, bs, .add (.v 1) (.v 2) (.v 3), ⟨numLE (bs.take 4)⟩, rfl, rfl, rfl,
    by decide +kernel, rfl, by decide +kernel, by decide +kernel, by decide +kernel, by decide +kernel, by decide +kernel, rfl,
    cx_here (s := { s2 with focus := .team 8 0 .t }) (by decide +kernel), by decide +kernel, by decide +kernel,
    ansIts (by decide +kernel), rfl, by decide +kernel, by decide +kernel, by decide +kernel, word (by decide +kernel), by decide⟩

def placedLoop : State := State.reset.withFetchWord 32 0x10010005
def turnedStream : State := begun { placedLoop with agenda := [] }

theorem meets_StepRunsDecoded_stream : ∃ (s s0 s1 : State) (bid : Nat) (x : Sx) (bs : List (BitVec 8)) (i : Instr) (ctl : Control),
     s.agenda = .streamTurn bid :: [] ∧ s.power = true ∧ s0 = begun { s with agenda := [] } ∧
     sxOf s0 bid = some x ∧ x.st.wait = .none ∧ x.st.bound = true ∧ x.b.st = .resident ∧
     entryLive s0 x.b = true ∧ x.b.residual = false ∧ Answers (fetchBundle x.req x.b.ctx false x.st.pc) s0 bs s1 ∧
     ctl = ⟨numLE (bs.take 4)⟩ ∧ bundleOk ctl 1 false (some 1) = true ∧ classBtOk ctl (ctl.bt x.st.slot) = true ∧
     streamBtAllowed (numLE ((bs.drop (4 * x.st.slot)).take 4) / 2 ^ 24) (ctl.bt x.st.slot) = true ∧
     decodeStream (numLE ((bs.drop (4 * x.st.slot)).take 4)) = .ok i ∧ i ≠ .mnop := by
  let x : Sx := sxIn turnedStream
  let bs := answer (fetchBundle x.req x.b.ctx false x.st.pc) turnedStream []
  exact ⟨placedLoop, turnedStream, _, 1, x, bs, .mloop 1 5, ⟨numLE (bs.take 4)⟩, by decide +kernel, rfl, rfl,
    sx_here (by decide +kernel) (by decide +kernel), by decide +kernel, by decide +kernel, by decide +kernel,
    by decide +kernel, by decide +kernel, ansIts (by decide +kernel), rfl, by decide +kernel, by decide +kernel,
    by decide +kernel, word (by decide +kernel), by decide⟩

theorem meets_EnergyInstructions_reads : ∃ (s : State) (c : Cx), c = cxAt s ∧
    Prepared (fun _ => energySig 0xe0 (.s 4) true) s c ∧ Prepared (fun _ => energySig 0xe1 (.s 4) true) s c ∧
    Prepared (fun _ => energySig 0xe3 (.s 4) true) s c ∧ Prepared (fun _ => energySig 0xe4 (.s 4) true) s c ∧ c.t.retired = false ∧
    c.bt ≠ .d ∧ Prepared (fun _ => energySig 0xe5 (.s 4) (decide (31 < 32))) s c :=
  ⟨inTeam .t id, _, rfl, prep (by decide +kernel), prep (by decide +kernel), prep (by decide +kernel), prep (by decide +kernel),
    by decide +kernel, by decide +kernel, prep (by decide +kernel)⟩

/-- A partition with a cap and no energy. -/
def cappedIn (p : Partition) (m : Nat) : Partition := { p with mw := m, dynamics := [], bases := [] }

theorem fits_alone (l k j : Nat) : decide (0 * 62500000 * j + (l * 62500000 * 1 + 0 * 62500000) * k
    ≤ (l * 62500000 / 2 ^ 40 / 1 + 1) * 2 ^ 40 * 1 * k) = true := by
  have h : l * 62500000 ≤ (l * 62500000 / 2 ^ 40 + 1) * 2 ^ 40 := by omega
  simpa using Nat.mul_le_mul_right k h

theorem quad_leak {s : State} {x : Partition} {q : Nat} (op : Nat) : quadLeakage (withPart x s) q op = quadLeakage s q op := by
  have h : quadOf (withPart x s) q = quadOf s q := rfl
  unfold quadLeakage bandIn
  rw [h]

theorem tick_leak (s : State) (x p : Partition) (m op : Nat) : leakageTick (withPart x s) (cappedIn p m) op = leakageTick s p op := by
  have hp : (cappedIn p m).quads = p.quads := rfl
  unfold leakageTick
  rw [hp, funext fun a => funext fun q => congrArg (fun n : Nat => a + n) (quad_leak (s := s) (x := x) (q := q) op)]

theorem capped_fits (s : State) (x p : Partition) (m now op : Nat) (hm : m = partLeakage s p op + 1) :
    withinAllowance (withPart x s) (cappedIn p m) now op = true := by
  unfold withinAllowance
  simp only [tick_leak, hm, partLeakage, milliwatts, spentOver, allowed]
  exact fits_alone _ _ _

/-- Its cap is the leakage model's figure, rounded up. -/
def capped : Partition := cappedIn { aPartition with hi := 15 } (partLeakage (inTeam .t id) { aPartition with hi := 15 } 3 + 1)
def joules : State := withPart capped (inTeam .t id)

theorem capped_own : ownPartition joules 1 1 = some (0, capped) := rfl

theorem capped_eop : eopStatus joules (cxAt joules) 3 = 0 := by
  have h1 : (cxAt joules).b.core = 1 := by decide +kernel
  have h2 : (cxAt joules).b.world = 1 := by decide +kernel
  have h3 : (cxAt joules).t.firmware = false := by decide +kernel
  have h4 : (decide (3 < capped.lo) || decide (capped.hi < 3)) = false := by decide +kernel
  have h5 : withinAllowance joules capped (quadOf joules (quadOfCore 1)).op 3 = true := capped_fits _ _ _ _ _ _ rfl
  simp only [eopStatus, h1, h2, capped_own, h3, h4, h5, if_true, Bool.false_eq_true, if_false]

theorem meets_EnergyInstructions_point : ∃ (s t s1 : State) (c e : Cx) (u : Team) (part : Nat) (x : Partition), c = cxAt s ∧ e = cxAt t ∧
    Prepared (fun _ => energySig 0xe2 (.s 4) true) s c ∧ suppressed c = false ∧ eopStatus s c 3 = 0 ∧
    ownPartition s c.b.core c.b.world = some (part, x) ∧ Answers (acceptPoint x 3) s () s1 ∧ find? s1.teams c.tid = some u ∧
    Prepared (fun _ => energySig 0xe2 (.s 4) true) t e ∧ suppressed e = false ∧ eopStatus t e 3 ≠ 0 :=
  ⟨joules, inTeam .t id, _, _, _, mate joules, 0, capped, rfl, rfl, prepFrom (by decide +kernel) rfl, by decide +kernel, capped_eop,
    (by decide +kernel : (cxAt joules).b.core = 1) ▸ (by decide +kernel : (cxAt joules).b.world = 1) ▸ capped_own,
    ans (by decide +kernel), by decide +kernel, prep (by decide +kernel), by decide +kernel, by decide +kernel⟩

theorem meets_Privilege : ∃ (i : Instr) (g : Cx → Sig) (s : State) (c : Cx), firmwareForm i = some g ∧ (g c).firmware = true ∧
    s.focus = .team c.tid c.arm c.bt ∧ cxOf s c.tid c.arm c.bt = some c ∧ TakesTraps c ∧ c.t.firmware = false ∧
    encodingOk c (g c) = true :=
  ⟨.waiti (.s 4) 1, _, handled (inTeam .t id), cxAt (handled (inTeam .t id)), rfl, rfl, cx_focus (by decide +kernel),
    cx_here (by decide +kernel), traps (by decide +kernel), by decide +kernel, by decide +kernel⟩

/-- A firmware team with a run of four scalar registers in s4. -/
def fwRun (a b : Nat) : State := inFirmware fun t => setS 4 a (setS 5 b t)
def joinedFw (s : State) : State := { s with teams := s.teams.map fun e => (e.1, setArm (fun a => { a with joined := true }) e.2) }

theorem meets_SystemInstructions_registers : ∃ (s : State) (c : Cx), c = cxAt s ∧
    (∃ g, firmwareForm (.sysrd (.s 4) 0) = some g ∧ Prepared g s c) ∧
    (∃ g, firmwareForm (.syswr (.s 4) 5) = some g ∧ Prepared g s c) :=
  ⟨inTeam .t (setS 4 7), _, rfl, ⟨_, rfl, prep (by decide +kernel)⟩, ⟨_, rfl, prep (by decide +kernel)⟩⟩

/-- A block on a core, its stream's tile operation under way. -/
def busyAt (core : Nat) (s : State) : State :=
  { s with blocks := put s.blocks 2 { theBlock s with core := core, stream := { Stream.idle with inFlight := true } } }

theorem meets_SystemInstructions_wlatch : ∃ (s t s1 t1 : State) (c e : Cx) (u v : Team), c = cxAt s ∧ e = cxAt t ∧
    (∃ g, firmwareForm (.wlatch (.s 4) false) = some g ∧ Prepared g s c ∧ Prepared g t e) ∧
    Answers (relatchCore ((opScalar c (.s 4)).toNat % 1024) (some ((opScalar c (.s 4)).toNat / 1024 % 64))) s true s1 ∧
    find? s1.teams c.tid = some u ∧
    Answers (relatchCore ((opScalar e (.s 4)).toNat % 1024) (some ((opScalar e (.s 4)).toNat / 1024 % 64))) t false t1 ∧
    find? t1.teams e.tid = some v :=
  let s := fwRun (2 * 1024 + 5) 0
  ⟨s, busyAt 5 s, _, _, _, _, mate s, mate s, rfl, rfl, ⟨_, rfl, prep (by decide +kernel), prep (by decide +kernel)⟩,
    ans (by decide +kernel), by decide +kernel, ans (by decide +kernel), by decide +kernel⟩

theorem meets_SystemInstructions_halt : ∃ (s t v s1 t1 v1 : State) (c e f : Cx) (u w x : Team), c = cxAt s ∧ e = cxAt t ∧ f = cxAt v ∧
    (∃ g, firmwareForm (.halt (.s 4) false) = some g ∧ Prepared g s c ∧ Prepared g t e) ∧
    (∃ g, firmwareForm (.halt (.s 4) true) = some g ∧ Prepared g v f) ∧
    Answers (removeCore ((opScalar c (.s 4)).toNat % 1024)) s true s1 ∧ find? s1.teams c.tid = some u ∧
    Answers (removeCore ((opScalar e (.s 4)).toNat % 1024)) t false t1 ∧ find? t1.teams e.tid = some w ∧
    Answers (wakeUnit (quadOfCore ((opScalar f (.s 4)).toNat % 1024)) (clusterOfCore ((opScalar f (.s 4)).toNat % 1024) % 12))
      (v.withCore ((opScalar f (.s 4)).toNat % 1024) { coreOf v ((opScalar f (.s 4)).toNat % 1024) with gated := false }) () v1 ∧
    find? v1.teams f.tid = some x :=
  let s := fwRun 5 0
  ⟨s, busyAt 5 s, s, _, _, _, _, _, _, mate s, mate s, mate s, rfl, rfl, rfl, ⟨_, rfl, prep (by decide +kernel), prep (by decide +kernel)⟩,
    ⟨_, rfl, prep (by decide +kernel)⟩, ans (by decide +kernel), by decide +kernel, ans (by decide +kernel), by decide +kernel,
    ans (by decide +kernel), by decide +kernel⟩

theorem meets_SystemInstructions_clear : ∃ (s t s1 : State) (c e : Cx) (u : Team), c = cxAt s ∧ e = cxAt t ∧
    (∃ g, firmwareForm (.clear (.s 4) 4) = some g ∧ Prepared g s c ∧ Prepared g t e) ∧
    blocksOn s ((opScalar c (.s 4)).toNat % 1024) = [] ∧ Answers (clearParts ((opScalar c (.s 4)).toNat % 1024) 4) s () s1 ∧ find? s1.teams c.tid = some u ∧
    blocksOn t ((opScalar e (.s 4)).toNat % 1024) ≠ [] ∧ TakesTraps e :=
  let s := fwRun 5 0
  ⟨s, busyAt 5 (handled s), _, _, _, mate s, rfl, rfl, ⟨_, rfl, prep (by decide +kernel), prep (by decide +kernel)⟩, by decide +kernel,
    ans (by decide +kernel), by decide +kernel, by decide +kernel, traps (by decide +kernel)⟩

theorem meets_SystemInstructions_save : ∃ (s t v s1 t1 v1 : State) (c e f : Cx) (u w x : Team), c = cxAt s ∧ e = cxAt t ∧ f = cxAt v ∧
    (∃ g, firmwareForm (.save (.s 4) true) = some g ∧ Prepared g s c) ∧ (∃ g, firmwareForm (.save (.s 4) false) = some g ∧ Prepared g t e) ∧
    (∃ g, firmwareForm (.rest (.s 4)) = some g ∧ Prepared g v f) ∧
    Answers (saveNamed true ((opScalar c (.s 4)).toNat % 1024) ((opScalar c (.s 4)).toNat / 1024 % 8) (runAt c (.s 4) 1).toNat) s true s1 ∧
    find? s1.teams c.tid = some u ∧
    Answers (saveNamed false ((opScalar e (.s 4)).toNat % 1024) ((opScalar e (.s 4)).toNat / 1024 % 8) (runAt e (.s 4) 1).toNat) t false t1 ∧
    find? t1.teams e.tid = some w ∧ Answers (restNamed ((opScalar f (.s 4)).toNat % 1024) (runAt f (.s 4) 1).toNat) v true v1 ∧
    find? v1.teams f.tid = some x :=
  let s := busyAt 5 (fwRun 5 0x14000)
  ⟨s, s, s, _, _, _, _, _, _, mate s, mate s, mate s, rfl, rfl, rfl, ⟨_, rfl, prep (by decide +kernel)⟩, ⟨_, rfl, prep (by decide +kernel)⟩,
    ⟨_, rfl, prep (by decide +kernel)⟩, ans (by decide +kernel), by decide +kernel, ans (by decide +kernel), by decide +kernel,
    ans (by decide +kernel), by decide +kernel⟩

theorem meets_SystemInstructions_waits : ∃ (s t v : State) (c e f : Cx), c = cxAt s ∧ e = cxAt t ∧ f = cxAt v ∧
    (∃ g, firmwareForm (.tinv (.s 4) 1) = some g ∧ Prepared g s c ∧ Prepared g t e) ∧ c.a.joined = true ∧ e.a.joined = false ∧
    (∃ g, firmwareForm (.waiti (.s 4) 64) = some g ∧ Prepared g t e ∧ Prepared g v f) ∧
    pendingSources t (dieOfCore e.b.core) &&& 64 = 0 ∧ pendingSources v (dieOfCore f.b.core) &&& 64 ≠ 0 :=
  let s := fwRun 0x10000 1
  ⟨joinedFw s, s, { s with fw := put s.fw 0 { firmwareOf s 0 with timer := true } }, _, _, _, rfl, rfl, rfl,
    ⟨_, rfl, prep (by decide +kernel), prep (by decide +kernel)⟩, by decide +kernel, by decide +kernel,
    ⟨_, rfl, prep (by decide +kernel), prep (by decide +kernel)⟩, by decide +kernel, by decide +kernel⟩

def metered : State := { fwRun 1 0x10000 with tlb := (paged (fwRun 1 0x10000)).tlb }

theorem meets_SystemInstructions_meter : ∃ (s t s1 t1 : State) (c e : Cx) (u v : Team) (bs : List (BitVec 8)), c = cxAt s ∧ e = cxAt t ∧
    (∃ g, firmwareForm (.meter (.s 4)) = some g ∧ Prepared g s c ∧ Prepared g t e) ∧
    (s.meterJobs.find? (jobOfArm c.tid c.arm)).bind (·.bytes) = none ∧
    (worldOf s ((opScalar c (.s 4)).toNat % 64)).unmetered = false ∧ (runAt c (.s 4) 1).toNat % 64 = 0 ∧
    Answers (meterRange c (runAt c (.s 4) 1).toNat) s () s1 ∧ find? s1.teams c.tid = some u ∧
    (t.meterJobs.find? (jobOfArm e.tid e.arm)).bind (·.bytes) = some bs ∧
    Answers (writeRecord e.req e.b.ctx (runAt e (.s 4) 1).toNat bs) t () t1 ∧ find? t1.teams e.tid = some v :=
  let t := { metered with meterJobs := [⟨8, 0, 1, 0, some [1, 2, 3, 4, 5, 6, 7, 8]⟩] }
  ⟨metered, t, _, _, _, _, mate metered, mate t, [1, 2, 3, 4, 5, 6, 7, 8], rfl, rfl,
    ⟨_, rfl, prep (by decide +kernel), prep (by decide +kernel)⟩, by decide +kernel, by decide +kernel, by decide +kernel,
    ans (by decide +kernel), by decide +kernel, by decide +kernel, ans (by decide +kernel), by decide +kernel⟩

theorem meets_SystemInstructions_events : ∃ (s s1 : State) (tag : Nat) (x : Inval) (u : Team) (a : Arm), find? s.invals tag = some x ∧
    Answers (invalidate (firmwareRouter 0) x.world x.k x.addr) s () s1 ∧ find? s1.teams x.tid = some u ∧ armOf u x.arm = some a :=
  let s := { fwRun 0x10000 1 with invals := [(3, ⟨1, 1, 0x10000, 8, 0⟩)] }
  ⟨s, _, 3, ⟨1, 1, 0x10000, 8, 0⟩, mate s, theArm (mate s), by decide +kernel, ans (by decide +kernel), by decide +kernel, armHere (by decide +kernel)⟩

theorem meets_Suppression : ∃ (i : Instr) (g : Cx → Sig) (s : State) (c : Cx), suppressedForm i = some g ∧ Prepared g s c ∧
    c.bt ≠ .d ∧ suppressed c = true :=
  ⟨.launch (.s 4), _, inTeam .t (setArm fun a => { a with exec := 0 }), _, rfl, prep (by decide +kernel), by decide +kernel, by decide +kernel⟩

def aLaunch (f : Launch → Launch) : Launch := f { Launch.blank with words := ((placedWords.set 4 5).set 5 32), world := 1, open_ := 1 }
/-- A context with energy. -/
def fuelled (s : State) : State :=
  { s with contexts := s.contexts.map fun e => (e.1, { e.2 with level := 2 ^ 40 }) }
/-- The small machine with a partition and a launch 7 of it. -/
def launching (p : Partition) (f : Launch → Launch) : State :=
  fuelled { withPart p held with launches := put held.launches 7 (aLaunch f) }

def aPost (w : List DWord) (tid : Option Nat) : Posted := ⟨w, 0x20000, 0, 1, tid, false⟩

theorem meets_LaunchesAndDispatch_take : ∃ (s s' s0 s1 : State) (part core tid : Nat) (p : Partition) (t : Team) (q : List Posted),
    find? s.partitions part = some p ∧ p.held = [] ∧ p.queue.length < 64 ∧ (coreRing p).find? (corePosts s) = some core ∧
    (coreOf s core).gone = [] ∧ postingTeams s core = [tid] ∧ find? s.teams tid = some t ∧ find? s'.partitions part = some p ∧
    (coreRing p).find? (corePosts s') = some core ∧ (coreOf s' core).gone = q :: [] ∧
    Answers (announceLaunch part core t.pendingLaunch) s () s0 ∧ Answers (announceLaunch part core q) s' () s1 :=
  let q := [aPost (aLaunch id).words (some 8)]
  let s := withPart aPartition (inTeam .t fun t => { t with pendingLaunch := q })
  let s' := withPart aPartition { held with cores := put held.cores 1 { coreOf held 1 with gone := [q] } }
  ⟨s, s', _, _, 0, 1, 8, aPartition, mate s, q, by decide +kernel, rfl, by decide, by decide +kernel, by decide +kernel,
    by decide +kernel, by decide +kernel, (by decide +kernel), by decide +kernel, by decide +kernel, ans (by decide +kernel),
    ans (by decide +kernel)⟩

theorem meets_LaunchesAndDispatch_accept : ∃ (s t : State) (p q : Partition) (x y : Posted) (l m : Launch),
    find? s.partitions 0 = some p ∧ p.queue = x :: [] ∧ find? s.endings x.ctx = none ∧ x.unreadable = false ∧
    find? s.endings (launchContext { Launch.blank with words := x.words }) = none ∧
    l = { Launch.blank with words := x.words } ∧ recordOk s p x.world l = true ∧
    p.world = some x.world ∧ find? t.partitions 0 = some q ∧ q.queue = y :: [] ∧ find? t.endings y.ctx = none ∧ y.unreadable = false ∧
    find? t.endings (launchContext { Launch.blank with words := y.words }) = none ∧
    m = { Launch.blank with words := y.words } ∧ recordOk t q y.world m = false ∧ launchCounter m = 0 ∧ y.tid = none :=
  let good := { aPartition with queue := [aPost (aLaunch id).words none] }
  let bad := { aPartition with queue := [aPost ((aLaunch id).words.set 0 1) none] }
  ⟨withPart good held, withPart bad held, good, bad, aPost (aLaunch id).words none, aPost ((aLaunch id).words.set 0 1) none,
    { Launch.blank with words := (aLaunch id).words }, { Launch.blank with words := (aLaunch id).words.set 0 1 }, by decide +kernel⟩

theorem meets_LaunchesAndDispatch_complete : ∃ (s t t1 : State) (l m : Launch), find? s.launches 7 = some l ∧ l.ended = false ∧ l.open_ = 0 ∧
    launchBusy s 7 = false ∧ find? s.endings l.ctx = none ∧ launchCounter l = 0 ∧ find? t.launches 7 = some m ∧ m.ended = false ∧
    m.open_ = 0 ∧ launchBusy t 7 = false ∧ find? t.endings m.ctx = none ∧ launchCounter m ≠ 0 ∧
    Answers (bumpCounter m.part m.ctx m.world (launchCounter m)) t () t1 :=
  let count := fun l : Launch => { l with open_ := 0, words := l.words.set 16 0x10040 }
  ⟨launching aPartition fun l => { l with open_ := 0 }, launching aPartition count, _, aLaunch fun l => { l with open_ := 0 }, aLaunch count, by decide +kernel,
    by decide +kernel, rfl, by decide +kernel, by decide +kernel, by decide +kernel, by decide +kernel, by decide +kernel, rfl,
    by decide +kernel, by decide +kernel, by decide +kernel, ans (by decide +kernel)⟩

/-- A partition whose tenant is world 1. -/
def served : Partition := { aPartition with tenants := [(1, Tenant.fresh)] }
/-- A machine without its block; launch 1's own block has been placed. -/
def vacant (s : State) : State := { s with blocks := [], teams := [], launches := s.launches.map fun e => if e.1 = 1 then (1, { e.2 with ended := true }) else e }

theorem meets_LaunchesAndDispatch_round : ∃ (s t : State) (p : Partition) (x : Tenant) (k : Cand), find? s.partitions 0 = some p ∧
    find? t.partitions 0 = some p ∧ dispatchStopped s = false ∧ dispatchStopped t = false ∧ heldByPressing s 0 = false ∧
    heldByPressing t 0 = false ∧ tenantWorlds s p 0 = [1] ∧ tenantWorlds t p 0 = [1] ∧ find? p.tenants 1 = some x ∧
    headReady s 0 1 x = none ∧ headReady t 0 1 x = some k :=
  let t := vacant (launching served id)
  ⟨vacant (withPart served held), t, served, Tenant.fresh, (headReady t 0 1 Tenant.fresh).getD (.fresh 0 0), by decide +kernel⟩

/-- A shared partition of quadrant 1, whose cores are latched to none; and one whose cores stand idle under world 2. -/
theorem meets_LaunchesAndDispatch_relatch : ∃ (s s' : State) (l : Launch) (part core core' : Nat) (p : Partition) (cs : List Nat),
    queuedItem s 7 = some (l, [part]) ∧ find? s.partitions part = some p ∧ p.world = none ∧ contextReady s l.ctx = true ∧
    cs = ((openCores p).filter fun c => !(coreOf s c).gated && !(coreOf s c).closed) ∧ findsRoom s 7 part l cs = false ∧
    cs.find? (fun c => (coreOf s c).latch.isNone) = some core ∧ queuedItem s' 7 = some (l, [part]) ∧
    find? s'.partitions part = some p ∧ contextReady s' l.ctx = true ∧
    cs = ((openCores p).filter fun c => !(coreOf s' c).gated && !(coreOf s' c).closed) ∧ findsRoom s' 7 part l cs = false ∧
    cs.find? (fun c => (coreOf s' c).latch.isNone) = none ∧ longestIdle s' cs l.world = some core' :=
  let p := { aPartition with quads := [1], world := none }
  let s := launching p id
  let s' := { s with time := 100000, cores := (openCores p).map fun c => (c, { coreOf s c with latch := some 2 }) }
  ⟨s, s', aLaunch id, 0, 48, (longestIdle s' (openCores p) 1).getD 0, p, _, by decide +kernel, by decide +kernel, rfl,
    by decide +kernel, rfl, by decide +kernel⟩

/-- A saved block of the tenant, first to go, its image at VA 0x14000: a frame of no team, all zero but for its header. -/
@[irreducible] def waitingBack : State :=
  let s := setBlock (fun b => { b with nteams := 0, stashSize := 0, frameVa := 0x14000, st := .saved }) (setWord 11 0 (paged held))
  let head := bytesLE 4 0x15346 ++ bytesLE 4 (frameBytes (launchOf s 1) / 4096)
  fuelled (withPart { aPartition with tenants := [(1, { Tenant.fresh with requeued := [1] })] } (memAt 0x14000 head
    { s with teams := [], blocksMeta := put s.blocksMeta 160 ⟨15, some (1, 1), false, 0⟩ }))

def backPart : Partition := { aPartition with tenants := [(1, { Tenant.fresh with requeued := [1] })] }
def backTenant : Tenant := { Tenant.fresh with requeued := [1] }

theorem back_block : (find? waitingBack.blocks 1).isSome = true := by decide +kernel
theorem back_places : (theBlock waitingBack).part = 0 ∧ (theBlock waitingBack).world = 1 ∧ (theBlock waitingBack).st = .saved := by
  decide +kernel
theorem back_part : find? waitingBack.partitions 0 = some backPart := by decide +kernel
theorem back_free : dispatchStopped waitingBack = false ∧ heldByPressing waitingBack 0 = false := by decide +kernel
theorem back_first : headReady waitingBack 0 1 backTenant = some (.again 1) := by decide +kernel
theorem back_room : roomAgain waitingBack 1 (launchOf waitingBack (theBlock waitingBack).launch) 1 = true := by decide +kernel
theorem back_alone : tenantWorlds waitingBack backPart 0 = [1] := by decide +kernel
/-- Its tenant credited for the round. -/
def backPaid : Tenant := { backTenant with deficit := min (backTenant.deficit + backTenant.quantum) (4 * backTenant.quantum) }
def backAsked : State := waitingBack.withPartition 0 { backPart with tenants := put backPart.tenants 1 backPaid }
theorem back_still : headReady backAsked 0 1 backPaid = some (.again 1) := by decide +kernel
theorem back_goes : gives (placeAgain 1 ((openCores backPart).filter (· = 1))) backAsked true = true := by decide +kernel

theorem meets_LaunchesAndDispatch_restore : ∃ (s s0 s1 : State) (bid core : Nat) (x : Block) (p : Partition) (t u : Tenant),
    find? s.blocks bid = some x ∧ find? s.partitions x.part = some p ∧ dispatchStopped s = false ∧
    heldByPressing s x.part = false ∧ x.st = .saved ∧ find? p.tenants x.world = some t ∧
    headReady s x.part x.world t = some (.again bid) ∧ (openCores p).contains core = true ∧
    roomAgain s bid (launchOf s x.launch) core = true ∧ tenantWorlds s p x.part = [x.world] ∧
    u = { t with deficit := min (t.deficit + t.quantum) (4 * t.quantum) } ∧
    s0 = s.withPartition x.part { p with tenants := put p.tenants x.world u } ∧
    headReady s0 x.part x.world u = some (.again bid) ∧ Answers (placeAgain bid ((openCores p).filter (· = core))) s0 true s1 :=
  ⟨waitingBack, backAsked, _, 1, 1, theBlock waitingBack, backPart, backTenant, backPaid, blockHere back_block,
    back_places.1 ▸ back_part, back_free.1, back_places.1 ▸ back_free.2, back_places.2.2, back_places.2.1 ▸ (by decide +kernel),
    back_places.1 ▸ back_places.2.1 ▸ back_first, by decide +kernel, back_room, by rw [back_places.1, back_places.2.1, back_alone], rfl,
    by rw [back_places.1, back_places.2.1, backAsked], by rw [back_places.1, back_places.2.1, back_still], ans back_goes⟩

/-- A gang whose parts are of the mask m. -/
def gang (m : Nat) (g : GangState) (granted : List Nat) (l : Launch) : Launch :=
  { l with gang := g, granted := granted, words := l.words.set 12 (BitVec.ofNat 64 (m * 2 ^ 16)) }

theorem meets_LaunchesAndDispatch_reserve : ∃ (s t u v : State) (l k : Launch) (p q r : Partition) (cs ds : List Reserve),
    find? s.launches 7 = some l ∧ l.gang = .reserving ∧ nextAsked l = some 0 ∧ find? s.partitions 0 = some p ∧ p.gang ≠ none ∧
    find? t.launches 7 = some l ∧ find? t.partitions 0 = some q ∧ q.gang = none ∧ q.resizing ≠ none ∧
    find? u.launches 7 = some l ∧ find? u.partitions 0 = some r ∧ r.gang = none ∧ r.resizing = none ∧
    gangOwned u ((guestOf u l.world).getD ((find? u.partitions l.part).map (·.fn) |>.getD 0)) l = true ∧
    reservable u 7 0 l r = some cs ∧ nextAsked { l with granted := l.granted ++ [0] } = none ∧
    find? v.launches 7 = some k ∧ k.gang = .reserving ∧ nextAsked k = some 0 ∧ find? v.partitions 0 = some r ∧
    gangOwned v ((guestOf v k.world).getD ((find? v.partitions k.part).map (·.fn) |>.getD 0)) k = true ∧
    reservable v 7 0 k r = some ds ∧ nextAsked { k with granted := k.granted ++ [0] } ≠ none :=
  let l := gang 1 .reserving []
  let k := gang 3 .reserving []
  let q := { aPartition with resizing := some [] }
  let p := { aPartition with gang := some 5 }
  let v := { launching aPartition k with partitions := [(0, aPartition), (1, aPartition)] }
  let cs := (reservable (launching aPartition l) 7 0 (aLaunch l) aPartition).getD []
  let ds := (reservable v 7 0 (aLaunch k) aPartition).getD []
  ⟨launching p l, launching q l, launching aPartition l, v, aLaunch l, aLaunch k, p, q, aPartition, cs, ds, by decide +kernel,
    rfl, by decide +kernel, by decide +kernel, by decide, by decide +kernel, by decide +kernel, rfl, by decide, by decide +kernel,
    by decide +kernel, rfl, rfl, by decide +kernel, by decide +kernel, by decide +kernel, by decide +kernel, rfl,
    by decide +kernel, by decide +kernel, by decide +kernel, by decide +kernel, by decide +kernel⟩

theorem meets_LaunchesAndDispatch_gang : ∃ (s t u : State) (l m k : Launch) (p q : Partition) (x : Tenant), find? s.launches 7 = some l ∧
    l.gang = .reserving ∧ l.rollbacks < 16 ∧ find? t.launches 7 = some m ∧ m.gang = .rollback ∧ t.partitions = [(m.part, p)] ∧
    p.gang = some 7 ∧ find? p.tenants m.world = some x ∧ find? u.launches 7 = some k ∧ k.gang = .committed ∧ k.gangTime ≤ u.time ∧
    dispatchStopped u = false ∧ k.granted = [0] ∧ find? u.partitions 0 = some q :=
  let l := gang 1 .reserving []
  let m := gang 1 .rollback [0]
  let k := gang 1 .committed [0]
  let p := { served with gang := some 7 }
  let q := { served with reserved := [⟨1, 7, 1⟩] }
  ⟨launching served l, launching p m, launching q k, aLaunch l, aLaunch m, aLaunch k, p, q, Tenant.fresh, by decide +kernel, rfl,
    by decide, by decide +kernel, rfl, by decide +kernel, rfl, rfl, by decide +kernel, rfl, by decide +kernel, by decide +kernel, rfl,
    by decide +kernel⟩

/-- An entry of the index is found. -/
theorem looks {s : State} {p : Partition} {part ctx base world : Nat} {key : BitVec 128} {e : SpecEntry}
    (h : find? s.partitions part = some p) (hp : p.spec = [e]) (hk : e.key = key) (hw : e.world = world) (hi : e.indexed = true) :
    Answers (lookup part ctx base world key) s (some (some e)) s := by
  show outcome (lookup part ctx base world key) s = _
  unfold lookup
  rw [outcome_bind_ok (outcome_get s), h]
  simp only [hp, hk, hw, hi, List.find?_cons, decide_true, Bool.and_self, outcome_pure]

/-- A launch whose code cannot be read, that waits for its specialisation; and the entry of its key. -/
def specialised (k : Option (BitVec 128)) (l : Launch) : Launch :=
  { l with waiting := true, spec := k, words := l.words.set 0 0x50000 }
def bare : Launch := aLaunch (specialised none)
def evaluated : Launch := aLaunch (specialised (some (launchKey bare)))
def entryOf (st : Nat) (by_ : Option Nat) : SpecEntry := ⟨launchKey bare, 1, 262144, 1, 32768, none, st, 100, 0, true, by_⟩
theorem sameKey : launchKey evaluated = launchKey bare := by
  have h : keyBytes evaluated = keyBytes bare := rfl
  unfold launchKey
  rw [h]
/-- Launch 7 waits, and so does launch 6, whose evaluation the entry may be. -/
def backed (st : Nat) (by_ : Option Nat) (k : Option (BitVec 128)) : State :=
  let s := launching { aPartition with spec := [entryOf st by_] } (specialised k)
  { s with
    worlds := put s.worlds 1 { worldOf s 1 with backing := some 0x10000 }
    launches := put s.launches 6 evaluated }

theorem meets_SpecialiserEvents_plain : ∃ (s : State) (l : Launch), find? s.launches 7 = some l ∧ l.waiting = true ∧
    (worldOf s l.world).backing = none :=
  ⟨launching aPartition (specialised none), bare, rfl, rfl, by decide +kernel⟩

theorem meets_SpecialiserEvents_ready : ∃ (s s1 s2 : State) (l : Launch) (e : SpecEntry) (base : Nat), find? s.launches 7 = some l ∧
    l.waiting = true ∧ (worldOf s l.world).backing = some base ∧ Answers (sweepEntries l.part l.ctx base l.world) s () s1 ∧
    Answers (lookup l.part l.ctx base l.world (launchKey l)) s1 (some (some e)) s2 ∧ e.st = 1 :=
  let s := backed 1 none none
  ⟨s, s, s, bare, entryOf 1 none, 0x10000, rfl, rfl, by decide +kernel, rfl,
    looks (p := { aPartition with spec := [entryOf 1 none] }) rfl rfl rfl rfl rfl, rfl⟩

/-! An evaluation whose code cannot be read is given up, and that stops at nothing. -/

theorem modCore_finishes (i : Nat) (f : Core → Core) : Finishes (modCore i f) := finishes_get fun _ => finishes_modify _

theorem modLaunch_finishes (i : Nat) (f : Launch → Launch) : Finishes (modLaunch i f) := by
  refine finishes_get fun s => ?_
  split
  · exact finishes_modify _
  · exact traffic_pure.finishes

theorem chargeSlots_finishes (part ctx n : Nat) : Finishes (chargeSlots part ctx n) := by
  refine finishes_get fun s => ?_
  split
  · exact traffic_pure.finishes
  · split
    · exact traffic_pure.finishes
    · split
      · exact traffic_pure.finishes
      · exact modCore_finishes _ _

theorem tried_finishes {α : Type} (m : Act α) : Finishes (do let _ ← attempt m; pure ()) := fun s =>
  ⟨(m.run.run s).2, by rw [outcome_bind_ok (m := attempt m) (a := (m.run.run s).1) (t := (m.run.run s).2) rfl]; rfl⟩

theorem abandon_finishes (part ctx base : Nat) (e : SpecEntry) : Finishes (abandon part ctx base e false) :=
  finishes_seq (finishes_seq (finishes_modify _) fun _ => tried_finishes _) fun _ =>
    finishes_get fun _ => finishes_each (fun _ => modLaunch_finishes _ _) _

theorem gives_up {id part base n : Nat} {l : Launch} {e : SpecEntry} {s s1 : State} {o : Option Plan}
    (h : Answers (planLaunch id l) s (.free n, o) s1) : ∃ t, Answers (finishEvaluation id part base l e) s () t := by
  obtain ⟨t, k⟩ := finishes_seq (chargeSlots_finishes part l.ctx n) (fun _ => abandon_finishes part l.ctx base e) s1
  refine ⟨t, ?_⟩
  show outcome _ s = _
  unfold finishEvaluation
  rw [outcome_bind_ok h]
  exact k

/-- The evaluator's number, or none, of a plan given up. -/
def freed : Evaluated × Option Plan → Option Nat
  | (.free n, none) => some n
  | _ => none

theorem plan_free {id n : Nat} {l : Launch} {s : State} (h : (match (planLaunch id l).run.run s with
    | (.ok x, _) => freed x == some n
    | _ => false) = true) : ∃ s1, Answers (planLaunch id l) s (.free n, none) s1 := by
  split at h
  · next x s1 e =>
    refine ⟨s1, e.trans ?_⟩
    match x, h with
    | (.free m, none), h => simp_all [freed]
  · contradiction

theorem meets_SpecialiserEvents_own : ∃ (s s1 s2 t : State) (l : Launch) (e : SpecEntry) (base : Nat), find? s.launches 7 = some l ∧
    l.waiting = true ∧ (worldOf s l.world).backing = some base ∧ Answers (sweepEntries l.part l.ctx base l.world) s () s1 ∧
    Answers (lookup l.part l.ctx base l.world (launchKey l)) s1 (some (some e)) s2 ∧ e.st = 2 ∧ e.evaluator = some 7 ∧
    Answers (finishEvaluation 7 l.part base l e) s2 () t :=
  let s := backed 2 (some 7) (some (launchKey bare))
  let ⟨_, h⟩ := plan_free (id := 7) (n := 0) (l := evaluated) (s := s) (by decide +kernel)
  let ⟨t, k⟩ := gives_up h
  ⟨s, s, s, t, evaluated, entryOf 2 (some 7), 0x10000, rfl, rfl, by decide +kernel, rfl,
    looks (p := { aPartition with spec := [entryOf 2 (some 7)] }) rfl rfl sameKey.symm rfl rfl, rfl, rfl, k⟩

theorem evaluates (s : State) (h : find? s.launches 6 = some evaluated) : evaluating s (entryOf 2 (some 6)) = true := by
  have a : (entryOf 2 (some 6)).evaluator = some 6 := rfl
  have b : evaluated.waiting = true ∧ evaluated.ended = false ∧ evaluated.spec = some (launchKey bare) := ⟨rfl, rfl, rfl⟩
  have c : (entryOf 2 (some 6)).key = launchKey bare := rfl
  simp only [evaluating, a, Option.bind_some, h, b, c, decide_true, Bool.not_false, Bool.and_self]

theorem meets_SpecialiserEvents_other : ∃ (s s1 s2 : State) (l : Launch) (e : SpecEntry) (base : Nat), find? s.launches 7 = some l ∧
    l.waiting = true ∧ (worldOf s l.world).backing = some base ∧ Answers (sweepEntries l.part l.ctx base l.world) s () s1 ∧
    Answers (lookup l.part l.ctx base l.world (launchKey l)) s1 (some (some e)) s2 ∧ e.st = 2 ∧ e.evaluator ≠ some 7 ∧
    evaluating s e = true ∧ s2.launches = s.launches :=
  let s := backed 2 (some 6) none
  ⟨s, s, s, bare, entryOf 2 (some 6), 0x10000, rfl, rfl, by decide +kernel, rfl,
    looks (p := { aPartition with spec := [entryOf 2 (some 6)] }) rfl rfl rfl rfl rfl, rfl, by decide, evaluates _ rfl, rfl⟩

theorem meets_SpecialiserEvents_declined : ∃ (s s1 s2 : State) (l : Launch) (e : SpecEntry) (base : Nat), find? s.launches 7 = some l ∧
    l.waiting = true ∧ (worldOf s l.world).backing = some base ∧ Answers (sweepEntries l.part l.ctx base l.world) s () s1 ∧
    Answers (lookup l.part l.ctx base l.world (launchKey l)) s1 (some (some e)) s2 ∧ e.st = 3 ∧ s.time < e.until_ ∧
    s2.launches = s.launches :=
  let s := backed 3 none none
  ⟨s, s, s, bare, entryOf 3 none, 0x10000, rfl, rfl, by decide +kernel, rfl,
    looks (p := { aPartition with spec := [entryOf 3 none] }) rfl rfl rfl rfl rfl, rfl, by decide +kernel, rfl⟩

/-- An evaluation under way for a launch whose partition is gone. -/
def timedOut : State :=
  let s := launching { aPartition with spec := [⟨5, 1, 262144, 1, 32768, none, 2, 100, 0, true, some 7⟩] } fun l =>
    { l with waiting := true, spec := some 5, part := 3 }
  { s with worlds := put s.worlds 1 { worldOf s 1 with backing := some 0x10000 } }

theorem meets_SpecialiserEvents_timeout : ∃ (s s1 : State) (l : Launch) (e : SpecEntry) (base : Nat), find? s.launches 7 = some l ∧
    l.waiting = true ∧ (worldOf s l.world).backing = some base ∧
    (specEntries s l.world).find? (fun e => e.st = 2 && e.evaluator = some 7) = some e ∧
    Answers (do
      chargeSlots l.part l.ctx (Config.freeChoice s.draws % (4 * 16384 * 7))
      abandon l.part l.ctx base e true) { s with draws := s.draws + 1 } () s1 :=
  ⟨timedOut, _, aLaunch fun l => { l with waiting := true, spec := some 5, part := 3 },
    ⟨5, 1, 262144, 1, 32768, none, 2, 100, 0, true, some 7⟩, 0x10000, rfl, rfl, by decide +kernel, by decide +kernel,
    ans (by decide +kernel)⟩

/-- The small machine after a host read of VA 0x10000's line: the line is in its slice. -/
def sliced : State := runAct (readRange (hostReq 1) 0x10000 8 .read) held
def lineAt : Nat := (linesAt sliced 1 0x10000).headD 0
def noLine : LlcLine := ⟨0, 0, 0, 0, 0, [], 0, false, 0, 0⟩

theorem meets_SliceEvents_access : ∃ (s s1 s2 t t1 v v1 : State) (bs : List (BitVec 8)),
    Answers (readRange (hostReq 1) 0x10000 8 .read) s bs s1 ∧ Answers (writeRange (hostReq 1) 0x10000 [1, 2]) s () s2 ∧
    Answers (each (linesAt t 1 0x10000) evictLine) t () t1 ∧ linesAt t 1 0x10000 ≠ [] ∧
    Stops (writeRange (hostReq 1) 0x10000 [1, 2]) v (.wait .refused) v1 :=
  let v := held.withSlice (sliceOf 0x10000) { sliceState held (sliceOf 0x10000) with full := true }
  ⟨held, sliced, _, sliced, _, v, _, _, ansIts (d := []) (by decide +kernel), ans (by decide +kernel), ans (by decide +kernel),
    by decide +kernel, stp (by decide +kernel)⟩

/-- A line with its release entry, hint and owner. -/
def releasing (owner : List (Nat × Nat)) : State :=
  { held with hints := [⟨1, 1, 1024, 0⟩], relOwner := owner, cores := [(1, { coreOf held 1 with release := [⟨1, 1024, 0, 0⟩] })] }

theorem meets_SliceEvents_release : ∃ (s t s1 t1 : State) (core world line : Nat) (h : Hint) (e : RelEntry) (rest : List RelEntry),
    nextHint s core world line = some h ∧ world < 64 ∧ flowStopped s (coreRouter core) (routerOfSlice (sliceOf (64 * line))) = false ∧
    sliceBusy s (sliceOf (64 * line)) = false ∧ (∀ c, find? s.relOwner (line * 64 + world) = some c → c = core) ∧
    ((ownersOfSet s line).filter fun e => e.1 != line * 64 + world).length < 8 ∧
    nextHint held core world line = none ∧ Answers (promote core world line) s () s1 ∧ find? s1.relOwner (line * 64 + world) ≠ some core ∧
    Answers (promote core world line) t () t1 ∧ find? t1.relOwner (line * 64 + world) = some core ∧
    (coreOf s core).release = e :: rest :=
  ⟨releasing [], releasing [(1024 * 64 + 1, 1)], _, _, 1, 1, 1024, ⟨1, 1, 1024, 0⟩, ⟨1, 1024, 0, 0⟩, [], by decide +kernel, by decide,
    by decide +kernel, by decide +kernel, fun _ h => (by contradiction), by decide +kernel, by decide +kernel, ans (by decide +kernel), by decide +kernel,
    ans (by decide +kernel), by decide +kernel, by decide +kernel⟩

theorem meets_SliceEvents_moves : ∃ (s s1 t u : State), Answers (moveBlock 0x10000 0x20000) s () s1 ∧ chunkOwner s 0x10000 = none ∧
    0x10000 % 65536 / 512 = 0x20000 % 65536 / 512 ∧ 0x10000 / 512 ≠ 0x20000 / 512 ∧ nameable s 0x20000 = true ∧
    linesOf s 0x30000 = [] ∧ (blockMetaOf s 0x30000).st = 14 ∧
    linesOf t 0x10000 = [] ∧ (blockMetaOf t 0x10000).st ≠ 14 ∧ (blockMetaOf t 0x10000).poison = false ∧
    (tagBad (blockMetaOf t 0x10000) = true ∨ meetsBad (blockMetaOf t 0x10000) = true) ∧
    linesOf u 0x10000 = [] ∧ (blockMetaOf u 0x10000).st ≠ 14 ∧ (blockMetaOf u 0x10000).poison = false ∧
    tagBad (blockMetaOf u 0x10000) = false ∧ meetsBad (blockMetaOf u 0x10000) = false :=
  ⟨held, _, { held with blocksMeta := [(0x10000 / 512, ⟨15, some (1, 1), false, 1⟩)] },
    { held with blocksMeta := [(0x10000 / 512, ⟨15, some (1, 1), false, 0⟩)] }, ans (by decide +kernel), by decide +kernel, by decide,
    by decide, by decide +kernel⟩

/-- A block of slice 0 that is not free, whose row is the next to be refreshed. -/
def refreshing : State :=
  { State.reset.withSlice 0 { sliceState State.reset 0 with
      refreshRow := [(Config.bankOf (0x10000 / 512), Config.rowOf (0x10000 / 512) % 8192)] } with
    blocksMeta := [(0x10000 / 512, ⟨15, some (1, 1), false, 0⟩)] }

theorem meets_SliceEvents_refresh : ∃ (s t : State) (bank n m : Nat), n = (find? (sliceState s 0).refreshRow bank).getD 0 ∧
    rowInUse s 0 bank n = true ∧
    (∀ x, find? (sliceState s 0).refreshedAt bank = some x → x + refreshInterval (sliceState s 0).temp ≤ s.time) ∧
    m = (find? (sliceState t 0).refreshRow bank).getD 0 ∧ rowInUse t 0 bank m = false :=
  ⟨refreshing, State.reset, Config.bankOf (0x10000 / 512), Config.rowOf (0x10000 / 512) % 8192, 0, by
    show _ = (find? [(Config.bankOf (0x10000 / 512), Config.rowOf (0x10000 / 512) % 8192)] _).getD 0
    simp [find?], by simp [rowInUse, refreshing, sliceOf, isHostMa], fun _ h => (by contradiction), rfl, rfl⟩

/-- World 1 with second-stage tables, sealed for the firmware, that map one page of 64 KiB, which is to be retired. -/
def retirable : State :=
  let s := memAt 0x100000 (bytesLE 8 0x108003) (memAt 0x108000 (bytesLE 8 0x110003) (memAt 0x110008 (bytesLE 8 0x10071) held))
  { s with
    worlds := put s.worlds 1 { worldOf s 1 with s2root := 0x100000, s2pool := [5] }, retiring := [0x10040]
    blocksMeta := [(0x100000 / 512, ⟨15, some (hyperSlot, 0), false, 0⟩), (0x108000 / 512, ⟨15, some (hyperSlot, 0), false, 0⟩),
      (0x110000 / 512, ⟨15, some (hyperSlot, 0), false, 0⟩)] }

theorem meets_SliceEvents_retire : ∃ (s s1 s2 : State) (at_ v page block new i : Nat) (tl : List Nat) (p q r t : Bool) (u : Nat),
    Answers (leafPlace 0x10000 1 (worldOf s 1).s2root 3) s (some (at_, v, .leaf page 1 p q r t u)) s1 ∧ page % 65536 = 0 ∧
    s1.retiring.find? (fun x => x / 65536 = page / 65536) = some block ∧ s1.retiredPages.length < 4096 ∧
    (worldOf s1 1).s2pool = new :: tl ∧ Answers (migrate (sliceOf block / 16) 1 0x10000 (new * 65536)) s1 (some (page, i)) s2 :=
  ⟨retirable, _, _, 0x110008, 0x10071, 0x10000, 0x10040, 5, 1, [], true, true, true, false, 0, ans (by decide +kernel), rfl,
    by decide +kernel, by decide +kernel, by decide +kernel, ans (by decide +kernel)⟩

theorem meets_SliceEvents_inject : ∃ (s t : State) (k : Nat) (l : LlcLine) (tl : List Nat), linesOf s (512 * 384) = [] ∧
    linesOf t (512 * 128) = k :: tl ∧ find? t.llc k = some l :=
  ⟨sliced, sliced, lineAt, (find? sliced.llc lineAt).getD noLine, [], by decide +kernel, by decide +kernel, by
    obtain ⟨l, h⟩ := Option.isSome_iff_exists.mp (by decide +kernel : (find? sliced.llc lineAt).isSome = true)
    rw [h, Option.getD_some]⟩

def dueState : State := { held with tickDue := true }
def overdue : State := { held with time := held.tickTime + 16000, tickDue := false }

theorem meets_MeterEvents_tick : ∃ (s t u : State) (x : ChargeSet), (s.tickDue = true ∨ s.time < s.tickTime + 16000) ∧ t.tickDue = false ∧
    t.tickTime + 16000 ≤ t.time ∧ (∀ e ∈ t.cores, e.2.leaving = false ∧ e.2.coming = none) ∧ (∀ e ∈ t.partitions, e.2.resizing = none) ∧
    s.tickDue = true ∧ s.meterAsked = [] ∧ s.resetAsked = none ∧ find? (coreOf u 1).charges 0 = some x ∧ x.granted = true :=
  let u := { held with cores := [(1, { coreOf held 1 with charges := [(0, ⟨0, 5, 5, true, false⟩)] })] }
  ⟨dueState, overdue, u, ⟨0, 5, 5, true, false⟩, by decide +kernel, by decide +kernel, by decide +kernel, by decide +kernel,
    (by decide +kernel), by decide +kernel, by decide +kernel, by decide +kernel, by decide +kernel, rfl⟩

/-- A request of 10 W below the floors of a partition of 20 W. -/
theorem meets_MeterEvents_caps : ∃ (s t : State) (watts c : Nat) (p q : Partition), c = 1000 * (watts % 65536) ∧ c < floorSum s ∧
    find? s.partitions 1 = none ∧ find? s.partitions 0 = some p ∧ p.world ≠ none ∧ find? t.partitions 0 = some q ∧ q.world = none :=
  ⟨withPart { aPartition with floorMw := 20000, floorNow := 20000 } held, withPart { aPartition with world := none } held, 10, 10000,
    { aPartition with floorMw := 20000, floorNow := 20000 }, { aPartition with world := none }, by decide +kernel, by decide +kernel,
    by decide +kernel, by decide +kernel, by decide, by decide +kernel, rfl⟩

/-- The floors allow it; it is below the idle power or it is not. -/
theorem meets_MeterEvents_allowed : ∃ (s : State) (c : Nat) (p : Partition), c = 1000 * (30 % 65536) ∧ floorSum s ≤ c ∧
    (c < packageIdle s ∨ packageIdle s ≤ c) ∧ find? s.partitions 0 = some p ∧ p.world ≠ none ∧ p.floorMw ≤ c ∧ partLeakage s p p.lo ≤ c :=
  ⟨withPart { aPartition with quads := [] } held, 30000, { aPartition with quads := [] }, rfl, by decide +kernel, Nat.lt_or_ge _ _,
    by decide +kernel, by decide, by decide, by decide +kernel⟩

/-- The message counters of a port are fresh: a header with counter 1 passes. -/
def rackHdr (type src : Nat) : RensarHdr := ⟨type, 1, 0, src, 0, 0, 0, 0, 0, 1, 0, true⟩
theorem rack_taken (type src : Nat) : Taken State.reset 3 64 type (rackHdr type src) := ⟨rfl, by decide, rfl, rfl⟩

/-- This package's own report alone makes it the coordinator. -/
theorem meets_MeterEvents_own : ∃ s s0 : State,
    s0 = { s with demands := put s.demands Config.packageId (s.time, floorSum s, askedSum s) } ∧ coordinates s0 = true :=
  ⟨State.reset, _, rfl, by
    show coordinates { State.reset with demands := [(Config.packageId, (0, _, _))] } = true
    simp [coordinates, freshDemands, State.reset]⟩

/-- Package 0 has reported too; this package is another one. -/
def ranked : State := { State.reset with demands := [(0, (0, 5, 6))] }
def rankedReport : State := { ranked with demands := put ranked.demands Config.packageId (0, floorSum ranked, askedSum ranked) }

theorem ranked_demands (h : Config.packageId ≠ 0) : freshDemands rankedReport =
    [(0, 5, 6), (Config.packageId, floorSum ranked, askedSum ranked)] := by
  have k : put [(0, (0, 5, 6))] Config.packageId (0, floorSum ranked, askedSum ranked) =
      [(0, (0, 5, 6)), (Config.packageId, (0, floorSum ranked, askedSum ranked))] := by simp [put, h]
  show (List.filter _ (put [(0, (0, 5, 6))] Config.packageId (0, floorSum ranked, askedSum ranked))).map _ = _
  rw [k]
  rfl

theorem meets_MeterEvents_report (h : Config.packageId ≠ 0) : ∃ s t s0 t0 : State,
    s0 = { s with demands := put s.demands Config.packageId (s.time, floorSum s, askedSum s) } ∧ coordinates s0 = false ∧
    gateOf s (portFor (coordinator s0)) 12 = .on ∧
    t0 = { t with demands := put t.demands Config.packageId (t.time, floorSum t, askedSum t) } ∧ coordinates t0 = false ∧
    gateOf t (portFor (coordinator t0)) 12 = .waking := by
  have c : coordinates rankedReport = false := by simp [coordinates, ranked_demands h, h]
  have d : coordinator rankedReport = 0 := by simp [coordinator, ranked_demands h]
  refine ⟨ranked, { ranked with gates := [(12, .waking)] }, rankedReport, { rankedReport with gates := [(12, .waking)] }, rfl, c, ?_,
    rfl, c, ?_⟩
  · rw [d]; rfl
  · show gateOf _ (portFor (coordinator rankedReport)) 12 = _
    rw [d]; rfl

/-- A report comes to a package that has not reported itself, and to one that has. -/
theorem meets_MeterEvents_demand : ∃ (s s0 s1 t t0 t1 : State) (h k : RensarHdr), Taken s 3 64 5 h ∧
    s0 = runAct (setAccepted 3 64 h.ctr) s ∧ s1 = { s0 with demands := put s.demands h.src (s.time, 5, 6) } ∧ coordinates s1 = false ∧
    Taken t 3 64 5 k ∧ t0 = runAct (setAccepted 3 64 k.ctr) t ∧ t1 = { t0 with demands := put t.demands k.src (t.time, 5, 6) } ∧
    coordinates t1 = true ∧ k.src ≠ Config.packageId ∧ gateOf t (portFor k.src) 12 = .on := by
  have p : put [(Config.packageId, (0, 1, 2))] (Config.packageId + 1) (0, 5, 6) =
      [(Config.packageId, (0, 1, 2)), (Config.packageId + 1, (0, 5, 6))] := by simp [put]
  refine ⟨State.reset, _, _, { State.reset with demands := [(Config.packageId, (0, 1, 2))] }, _, _, rackHdr 5 (Config.packageId + 1),
    rackHdr 5 (Config.packageId + 1), rack_taken _ _, rfl, rfl, ?_, ⟨rfl, by decide, rfl, rfl⟩, rfl, rfl, ?_, Nat.succ_ne_self _, rfl⟩
  · show coordinates { State.reset with demands := [(Config.packageId + 1, (0, 5, 6))] } = false
    simp [coordinates, freshDemands]
  · show coordinates { State.reset with demands := put [(Config.packageId, (0, 1, 2))] (Config.packageId + 1) (0, 5, 6) } = true
    rw [p]
    simp [coordinates, freshDemands, State.reset]

/-- A grant comes; a header fails its check; and a coordinator's earlier grant, or a newer one. -/
theorem meets_MeterEvents_grant : ∃ (s t : State) (h k : RensarHdr) (n : Nat), Taken s 3 64 6 h ∧
    headerOk (portOf s 3) 64 k = false ∧ gateOf s 3 12 = .on ∧ s.bootStatus ≠ 2 ∧ find? t.grantSeqs 7 = some n ∧ 2 ≤ n ∧
    ∀ m, find? t.grantSeqs 7 = some m → m < 4 :=
  ⟨State.reset, { State.reset with grantSeqs := [(7, 3)] }, rackHdr 6 7, { rackHdr 6 7 with good := false }, 3, rack_taken 6 7,
    by decide +kernel, by decide +kernel, by decide, by decide, by decide, fun m h => by cases h; decide⟩

/-- The writer's function reaches the context, or not. -/
theorem meets_MeterEvents_credit : ∃ (s : State) (fn ctx other : Nat), reaches s fn ctx = true ∧ reaches s other ctx = false :=
  ⟨held, 0, 0, 3, by decide +kernel, by decide +kernel⟩

def endingState : State := { held with endings := [(0, ⟨1, 1, 0, 1, 0, DumpInfo.none, Source.core⟩)] }

/-- What the end of context 0 removes. -/
def removal0 : Act Unit := do
  barContext 0
  dropWork (fun c => c = 0) (fun _ => true) 14

/-- A write of the context is on its way to a peer, or none. -/
theorem meets_EndingsAndReset_end : ∃ (s t : State) (e f : Ending), find? s.endings 0 = some e ∧ find? held.endings 0 = none ∧
    writesInFlight (runAct removal0 s) 0 = false ∧ find? t.endings 0 = some f ∧ writesInFlight (runAct removal0 t) 0 = true :=
  let t := endingState.withPort 3 { Port.fresh with jobs := [(4, .posted 8 0x10000 0 0 1 1)], askers := [(4, ⟨some 0, 1, 1, 1, true⟩)] }
  ⟨endingState, t, ⟨1, 1, 0, 1, 0, DumpInfo.none, Source.core⟩, ⟨1, 1, 0, 1, 0, DumpInfo.none, Source.core⟩, by decide +kernel,
    by decide +kernel, by decide +kernel, by decide +kernel, by decide +kernel⟩

theorem meets_EndingsAndReset_take : ∃ (s : State) (r : ErrRec) (rest : List ErrRec), (firmwareOf s 0).queue = r :: rest ∧
    policyDump (worldOf s r.world) = false :=
  ⟨{ held with fw := [(0, { firmwareOf held 0 with queue := [{ ErrRec.blank with world := 1 }] })] }, _, [], rfl, by decide +kernel⟩

theorem meets_EndingsAndReset_queue : ∃ (s t t1 t2 : State), (fnOf s 0).resetStatus ≠ 1 ∧ ownsPart s 0 3 = false ∧
    (fnOf t 0).resetStatus ≠ 1 ∧ ownsPart t 0 0 = true ∧ Answers (beginReset 0 false 0 (resetWorldOf t 0 1)) t () t1 ∧
    Answers (beginReset 0 true (fnOf t 0).resetPart (resetWorldOf t 0 1)) t () t2 ∧
    (fnOf (t.withFn 3 { Fn.fresh with resetStatus := 1 }) 3).resetStatus = 1 :=
  ⟨withPart aPartition held, withPart aPartition State.reset, _, _, by decide +kernel, by decide +kernel, by decide +kernel,
    by decide +kernel, ans (by decide +kernel), ans (by decide +kernel), by decide +kernel⟩

theorem meets_EndingsAndReset_token : ∃ (s : State) (f : Fn) (unit : Nat), f = fnOf s 1 ∧ f.resetStatus = 1 ∧ f.going = none ∧
    f.awaiting.contains unit = true ∧ drained s f unit = true :=
  ⟨held.withFn 1 { Fn.fresh with resetStatus := 1, awaiting := [3] }, { Fn.fresh with resetStatus := 1, awaiting := [3] }, 3,
    by decide +kernel, rfl, rfl, by decide, by decide +kernel⟩

/-- Memory at reset is in its form, and one boot image brings the device up and another does not. -/
theorem meets_EndingsAndReset_memory : ∃ (s : State) (a b : Nat) (x y : BootImage), Memory.wf s.mem ∧ a < 0x200000000000 ∧
    0x200000000000 ≤ b ∧ x.epochGood = true ∧ bootGood s x = true ∧ bootGood s y = false :=
  let x : BootImage := ⟨5, 0x10000, 0, 1, 0, true, true⟩
  ⟨State.reset, 0, 0x200000000000, x, { x with signatureGood := false }, by decide, by decide, by decide, by decide, by decide,
    by decide⟩

theorem meets_PlatformEvents_checkpoint : ∃ (s : State) (ports : List Nat), ports.length = 8 ∧ ports.eraseDups.length = 8 ∧
    (∀ p ∈ ports, p < 16) ∧ (∀ e ∈ s.blocks, holdsProgram e.2 = false) ∧ (∀ p ∈ ports, gateOf s p 12 = .on) :=
  ⟨State.reset, List.range 8, by decide, by decide, by decide, by decide +kernel, by decide +kernel⟩

theorem meets_PlatformEvents_replay : ∃ (s : State) (core cls tid : Nat), (cls < 10 ∨ 20 ≤ cls) ∧
    (coreOf s core).lastPass = some (tid, cls) ∧ (coreOf s core).row < 4 :=
  ⟨held.withCore 1 { coreOf held 1 with lastPass := some (8, 2) }, 1, 2, 8, by decide, by decide +kernel, by decide +kernel⟩

theorem meets_PlatformEvents_droop : ∃ s : State, droopLasts held 0 = false ∧ droopLasts s 0 = true :=
  ⟨{ held.withQuad 0 { quadOf held 0 with drooping := true, since := 0 } with time := 100000 }, by decide +kernel, by decide +kernel⟩

/-- A quadrant under its ceiling, for a second. -/
def warm (s : State) : State := { s.withQuad 0 { quadOf s 0 with ceiling := 5, thermal := 1 } with time := 2000000, tickTime := 1990000 }

theorem meets_PlatformEvents_ceiling : ∃ (s : State) (q : Quad) (a b c : Nat), q = quadOf s 0 ∧ q.thermal < 2 ∧ 95 ≤ a ∧ q.risen < s.tickTime ∧
    90 ≤ b ∧ b < 95 ∧ c < 90 ∧ q.ceiling < 15 ∧ q.risen + 1000000 ≤ s.time ∧ q.ceiling + 1 < q.target :=
  ⟨warm (held.withQuad 0 { quadOf held 0 with target := 15 }), _, 99, 92, 70, rfl, by decide +kernel, by decide, by decide +kernel,
    by decide, by decide, by decide, by decide +kernel, by decide +kernel, by decide +kernel⟩

theorem meets_PlatformEvents_trip : ∃ (s t : State) (q r : Quad), q = quadOf s 15 ∧ q.thermal < 2 ∧ r = quadOf t 0 ∧ r.thermal = 2 :=
  ⟨held, held.withQuad 0 { quadOf held 0 with thermal := 2 }, _, _, rfl, by decide +kernel, rfl, by decide +kernel⟩

def gatedAs (g : GateState) : State := { held with gates := [(5 * 13 + 12, g)], gateQueue := [(5, [12])], time := 30000 }

theorem meets_PlatformEvents_gate : unitIdle held 5 12 = true ∧ gateOf held 5 12 = .on ∧ unitIdle (gatedAs .hold) 5 12 = true ∧
    gateOf (gatedAs .hold) 5 12 = .hold ∧ (find? (gatedAs .hold).gateTimes (5 * 13 + 12)).getD 0 + 20000 ≤ (gatedAs .hold).time ∧
    (quadOf (gatedAs .hold) 5).thermal ≠ 2 ∧ gateOf (gatedAs .gated) 5 12 = .gated ∧
    (((find? (gatedAs .queued).gateQueue 5).getD []).take 2 |>.contains 12) = true := by
  decide +kernel

/-- Function 2 bound to world 1, whose translation-cache entries name that world's addresses themselves. -/
def bound (f : Fn → Fn) : State := held.withFn 2 (f { Fn.fresh with world := some 1, hdmBase := 0x10000 })

theorem meets_HostInterface_ranges : ∃ (s t u : State), reaches s 0 0 = true ∧ (contextOf s 0).enable = false ∧ reaches t 0 0 = true ∧
    (contextOf t 0).enable = true ∧ reaches u 3 0 = false ∧ u.bootStatus ≠ 1 ∧ (contextOf u 0).world = some 1 ∧
    (fnOf s 2).tdisp = .unlocked ∧ (fnOf s 2).world = some 1 :=
  ⟨(bound id).withContext 0 { contextOf held 0 with enable := false }, held, held, by decide +kernel⟩

theorem meets_HostInterface_bind : ∃ s : State, (fnOf s 2).resetStatus ≠ 1 ∧ (fnOf s 2).tdisp = .unlocked ∧ s.bootStatus ≠ 2 ∧
    (∀ y ∈ s.contexts, y.2.world ≠ some 5 ∧ (y.2.world = none → y.2.newWorld ≠ some 5)) ∧ (fnOf s 2).world = some 1 ∧
    (fnOf (s.withFn 3 { Fn.fresh with resetStatus := 1 }) 3).resetStatus = 1 :=
  ⟨bound id, by decide +kernel⟩

theorem meets_HostInterface_cxl : ∃ (s s1 s2 : State) (r : Req) (bs : List (BitVec 8)), cxlTarget s 2 = some 1 ∧
    r = cxlReq s 2 1 ∧ Answers (readRange r ((fnOf s 2).hdmBase + 0) 8 .read) s bs s1 ∧
    Answers (hostWrite r ((fnOf s 2).hdmBase + 0) [1, 2]) s () s2 ∧ cxlTarget held 2 = none :=
  ⟨bound id, _, _, _, _, by decide +kernel, rfl, ansIts (d := []) (by decide +kernel), ans (by decide +kernel), by decide +kernel⟩

/-- An address that world 1 does not map. -/
theorem meets_HostInterface_fail : ∃ (s s1 s2 : State) (r : Req) (e f : Stop), cxlTarget s 2 = some 1 ∧
    r = cxlReq s 2 1 ∧ Stops (readRange r ((fnOf s 2).hdmBase + 0x800000) 8 .read) s e s1 ∧ cxlClass e = some 1 ∧
    Stops (hostWrite r ((fnOf s 2).hdmBase + 0x800000) [1]) s f s2 ∧ cxlClass f = some 1 :=
  ⟨bound id, _, _, _, .absent 2 1 0, .absent 2 1 0, by decide +kernel, rfl, stp (by decide +kernel), rfl, stp (by decide +kernel), rfl⟩

theorem meets_HostInterface_served : ∃ (s : State) (r : Req) (x : TlbEntry) (l : LlcLine), cxlTarget s 2 = some 1 ∧ r = cxlReq s 2 1 ∧
    0x10040 = (fnOf s 2).hdmBase + 64 ∧ Serves s r 0x10040 x l ∧ 0x10040 % 64 + [1#8, 2#8].length ≤ 64 ∧
    countersIn s 1 0x10040 [1#8, 2#8].length = [] :=
  ⟨cachedLine (bound id), _, aPair, aSector, by decide +kernel, rfl, by decide +kernel,
    serves_line (by unfold servesNow; decide +kernel), by decide, by decide +kernel⟩

theorem meets_HostInterface_line : ∃ s : State, s.snoops.contains (0x10000 / 64) = true ∧
    find? s.hostOwned (0x10000 / 64) = some (1, 1024) ∧ countersIn s 1 (64 * 1024) 64 = [] :=
  ⟨{ held with snoops := [1024], hostOwned := [(1024, (1, 1024))] }, by decide +kernel⟩

/-- An interface that may be locked, one that is, and one of a function without a world. -/
def lockedIf : State := bound fun f => { f with tdisp := .locked, session := some 9 }
def looseIf : State := { State.reset with fns := [(2, { Fn.fresh with tdisp := .locked, session := some 9 })] }

theorem meets_HostInterface_interfaces : ∃ (s t t1 : State), (fnOf s 2).tdisp = .unlocked ∧ (fnOf s 2).going = none ∧
    s.ideUp = true ∧ s.bootStatus ≠ 2 ∧ (fnOf t 2).tdisp = .locked ∧ (fnOf t 2).going = none ∧ (fnOf t 2).session = some 9 ∧
    Answers (do
      leaveTo 2 .unlocked
      tdispAnswer 2 9 0) t () t1 :=
  ⟨bound id, lockedIf, _, by decide +kernel, by decide +kernel, by decide +kernel, by decide, by decide +kernel, by decide +kernel,
    by decide +kernel, ans (by decide +kernel)⟩

theorem meets_HostInterface_leaving : ∃ (s t : State) (f : Fn), s.fns = [(2, f)] ∧ f.tdisp = .locked ∧ f.session = some 9 ∧
    f.world = none ∧ Answers (leaveTo 2 .error) s () t :=
  ⟨looseIf, _, { Fn.fresh with tdisp := .locked, session := some 9 }, rfl, rfl, rfl, rfl, ans (by decide +kernel)⟩

theorem meets_HostInterface_links : ∃ (s t u : State), s.cxlUp = true ∧
    Answers (failInterfaces fun _ _ => true) { s with ideUp := false } () t ∧
    Answers (failInterfaces fun _ _ => true) { s with cxlUp := false, snoops := [], hostOwned := [] } () u ∧
    ({ s with cxlUp := false }).cxlUp = false ∧ ({ s with stopped := [(16, 17), (17, 16)] }).stopped.contains (16, 17) = true :=
  ⟨looseIf, _, _, by decide +kernel, ans (by decide +kernel), ans (by decide +kernel), rfl, by decide⟩

/-- World 1 is served at port 3, with tag 5 counting at 0x10040. -/
def peered : State :=
  { (bound id).withPort 3 { Port.fresh with linkKeys := [1] } with tags := [(5, ⟨0x10040, 1⟩)] }
def aHdr (type tag ia : Nat) : RensarHdr := ⟨type, 1, 0, 7, 1, tag, ia, 4, 0, 1, 0, true⟩
def accepted (s : State) : State := runAct (setAccepted 3 1 1) s

theorem taken {s : State} {type : Nat} {h : RensarHdr}
    (k : gateOf s 3 12 = .on ∧ s.bootStatus ≠ 2 ∧ h.type = type ∧ headerOk (portOf s 3) 1 h = true) : Taken s 3 1 type h :=
  ⟨k.1, k.2.1, k.2.2.1, k.2.2.2⟩

theorem meets_PeerEvents_header : gateOf peered 3 12 = .on ∧ peered.bootStatus ≠ 2 ∧
    headerOk (portOf peered 3) 1 { aHdr 0 0 0x10000 with good := false } = false ∧ (aHdr 9 0 0x10000).type ≠ 0 := by
  decide +kernel

theorem meets_PeerEvents_refused : ∃ (e f : Stop) (s1 s2 : State), worldServed held 3 1 = false ∧
    Taken held 3 1 0 (aHdr 0 0 0x10000) ∧ Taken held 3 1 1 (aHdr 1 0 0x10000) ∧
    Taken peered 3 1 0 (aHdr 0 0 0x810000) ∧ Taken peered 3 1 1 (aHdr 1 0 0x810000) ∧ worldServed peered 3 1 = true ∧
    tagCounter peered 1 6 = none ∧ tagCounter peered 1 5 ≠ none ∧
    Stops (hostStoreBytes (inboundReq 3 1) 0x810000 [1]) (accepted peered) e s1 ∧ (∀ w, e ≠ .wait w) ∧
    Stops (readRange (inboundReq 3 1) 0x810000 (requestBytes 1) .read) (accepted peered) f s2 ∧ (∀ w, f ≠ .wait w) :=
  ⟨.absent 2 1 0, .absent 2 1 0, _, _, by decide +kernel, taken (by decide +kernel), taken (by decide +kernel), taken (by decide +kernel),
    taken (by decide +kernel), by decide +kernel, by decide +kernel, by decide +kernel, stp (by decide +kernel), by simp,
    stp (by decide +kernel), by simp⟩

/-- The slice of the address is full. -/
theorem meets_PeerEvents_full : ∃ (s s1 : State), Taken s 3 1 0 (aHdr 0 0 0x10000) ∧ worldServed s 3 1 = true ∧
    tagCounter s 1 0 = some none ∧ Stops (hostStoreBytes (inboundReq 3 1) 0x10000 [1]) (accepted s) (.wait .refused) s1 :=
  ⟨peered.withSlice (sliceOf 0x10000) { sliceState peered (sliceOf 0x10000) with full := true }, _, taken (by decide +kernel),
    by decide +kernel, by decide +kernel, stp (by decide +kernel)⟩

theorem meets_PeerEvents_served : ∃ (s1 r1 : State) (bs : List (BitVec 8)), tagCounter peered 1 0 = some none ∧
    tagCounter peered 1 5 = some (some 0x10040) ∧ Taken peered 3 1 0 (aHdr 0 5 0x10000) ∧ Taken peered 3 1 1 (aHdr 1 0 0x10000) ∧
    Answers (hostStoreBytes (inboundReq 3 1) (hdrIa (aHdr 0 5 0x10000)) [1]) (accepted peered) () s1 ∧
    Answers (readRange (inboundReq 3 1) 0x10000 (requestBytes 1) .read) (accepted peered) bs r1 :=
  ⟨_, _, _, by decide +kernel, by decide +kernel, taken (by decide +kernel), taken (by decide +kernel), ans (by decide +kernel),
    ansIts (d := []) (by decide +kernel)⟩

theorem meets_PeerEvents_line : ∃ (s : State) (x : TlbEntry) (l : LlcLine), Taken s 3 1 0 (aHdr 0 0 0x10040) ∧
    Taken s 3 1 1 (aHdr 1 0 0x10040) ∧ worldServed s 3 1 = true ∧ tagCounter s 1 0 = some none ∧
    Serves s (inboundReq 3 1) (hdrIa (aHdr 0 0 0x10040)) x l ∧ 0x10040 % 64 = 0 ∧ requestBytes 1 = 64 :=
  ⟨cachedLine peered, aPair, aSector, taken (by decide +kernel), taken (by decide +kernel), by decide +kernel, by decide +kernel,
    serves_line (by unfold servesNow; decide +kernel), by decide, by decide⟩

/-- Port 3 with one request outstanding. -/
def asked (j : PeerJob) : State := held.withPort 3 { Port.fresh with jobs := [(4, j)] }

theorem meets_PeerEvents_answers : ∃ (s t : State) (p q : Port), Taken s 3 1 2 (aHdr 2 0 7) ∧ Taken s 3 1 4 (aHdr 4 0 7) ∧
    p = portOf (accepted s) 3 ∧ p.heldTx.contains 4 = false ∧ find? p.jobs 4 = some (.load 8 0 0 1 8 0x10000 false) ∧
    Taken t 3 1 3 (aHdr 3 0 7) ∧ q = portOf (accepted t) 3 ∧ q.heldTx.contains 4 = false ∧
    find? q.jobs 4 = some (.posted 8 0x10000 0 0 1 1) :=
  ⟨asked (.load 8 0 0 1 8 0x10000 false), asked (.posted 8 0x10000 0 0 1 1), _, _, taken (by decide +kernel), taken (by decide +kernel),
    rfl, by decide +kernel, by decide +kernel, taken (by decide +kernel), rfl, by decide +kernel, by decide +kernel⟩

theorem meets_PeerEvents_acknowledged : ∃ (s : State) (p : Port) (o : EngineOp), Taken s 3 1 3 (aHdr 3 0 0) ∧
    p = portOf (accepted s) 3 ∧ p.heldTx.contains 4 = false ∧ find? p.jobs 4 = some (.engine 6 0 8) ∧ find? s.ops 6 = some o :=
  let o : EngineOp := ⟨0, 1, 8, 0, 1, .rput, [], 0, 0, 1, false, 0, .peer, false, 0, [], true, 0, [(3 * 4096 + 4, 0)], 1, 8, none, [], 0, 0⟩
  ⟨{ asked (.engine 6 0 8) with ops := [(6, o)] }, _, o, taken (by decide +kernel), rfl, by decide +kernel, by decide +kernel, rfl⟩

/-- No request has the number; an answer comes all the same. -/
theorem meets_PeerEvents_late : Taken peered 3 1 2 (aHdr 2 0 7) ∧ Taken peered 3 1 3 (aHdr 3 0 7) ∧
    find? (portOf peered 3).jobs 4 = none :=
  ⟨taken (by decide +kernel), taken (by decide +kernel), by decide +kernel⟩

/-- The time of a request, and of a held number, is over, or not. -/
theorem meets_PeerEvents_timeout : ∃ (s t : State) (p : Port), txDue s 3 4 = true ∧ p = portOf s 3 ∧ p.heldTx.contains 4 = false ∧
    find? p.jobs 4 = some (.load 8 0 0 1 8 0x10000 false) ∧ txDue held 3 4 = false ∧ (portOf t 3).heldTx.contains 4 = true ∧
    txDue t 3 4 = true :=
  ⟨{ asked (.load 8 0 0 1 8 0x10000 false) with time := answerTime },
    { held.withPort 3 { Port.fresh with heldTx := [4] } with time := answerTime }, _, by decide +kernel, rfl, by decide +kernel,
    by decide +kernel, by decide +kernel, by decide +kernel, by decide +kernel⟩

theorem meets_PeerEvents_lanes : lanesKept 5 < (portOf held 3).lanes := by decide +kernel

end Sys2Proof.Tests
end

section
/-! SUPPORT. Requests from outside (01 R22): what one does that completes. -/
namespace Sys2Proof.Machine
open Sys2Proof

/-- What a slice does not refuse has its whole effect. -/
theorem outcome_undone {α : Type} {m : Act α} {s t : State} {a : α} (h : outcome m s = (.ok a, t)) :
    outcome (undone m) s = (.ok a, t) := by
  show undone m s = _
  unfold undone
  rw [show m.run.run s = _ from h]

/-- A request that completes is made once. -/
theorem outcome_tried {m : Act Unit} {s t : State} (h : outcome m s = (.ok (), t)) : outcome (tried m) s = (.ok (), t) := by
  show tried m s = _
  unfold tried
  rw [show (undone m).run.run s = _ from outcome_undone h]

/-- An event that completes leaves its state. -/
theorem eventStep_ok {m : Act Unit} {s t : State} (h : outcome m s = (.ok (), t)) : eventStep m s = .next t := by
  rw [eventStep, runAct_eq, h]

theorem eventStep_tried {m : Act Unit} {s t : State} (h : outcome m s = (.ok (), t)) : eventStep (tried m) s = .next t :=
  eventStep_ok (outcome_tried h)

/-- A request whose first part leaves it where another action, which completes, begins. -/
theorem eventStep_tried_from {m k : Act Unit} {s s1 : State} (h : outcome m s = outcome k s1) (hk : Finishes k) :
    eventStep (tried m) s = .next (runAct k s1) := by
  obtain ⟨t, ht⟩ := hk s1
  rw [runAct_eq, ht]
  exact eventStep_tried (h.trans ht)

/-- A request that the firmware serves, outside recovery (13 R383). -/
theorem eventStep_serves {m : Act Unit} {s t : State} (hb : s.bootStatus ≠ 2) (h : outcome m s = (.ok (), t)) :
    eventStep (serves m) s = .next t := by
  refine eventStep_ok ?_
  unfold serves
  rw [outcome_bind_ok (outcome_get s), if_pos (by simpa [offered] using hb)]
  exact outcome_tried h

/-- The one entry of a list is all that is done. -/
theorem outcome_each_one {α : Type} (a : α) (f : α → Act Unit) (s : State) : outcome (each [a] f) s = outcome (f a) s := by
  rw [each, outcome_bind]
  rcases outcome (f a) s with ⟨_ | _, _⟩ <;> rfl

@[simp] theorem fnOf_withFn (s : State) (fn : Nat) (f : Fn) : fnOf (s.withFn fn f) fn = f := by
  simp [fnOf, State.withFn, find?_put_self]

theorem put_put {α : Type} (t : Tbl α) (k : Nat) (a b : α) : put (put t k a) k b = put t k b := by
  induction t with
  | nil => simp [put]
  | cons e t ih =>
    obtain ⟨j, c⟩ := e
    rcases Nat.lt_trichotomy k j with h | h | h
    · simp only [put, if_neg (Nat.ne_of_lt h), if_pos h, if_true]
    · simp only [put, if_pos h]
    · simp only [put, if_neg (Nat.ne_of_gt h), if_neg (Nat.lt_asymm h), ih]

@[simp] theorem withFn_withFn (s : State) (fn : Nat) (f g : Fn) : (s.withFn fn f).withFn fn g = s.withFn fn g := by
  simp [State.withFn, put_put]

/-- Records are kept or counted; an emission never stops (17 R413). -/
theorem emitRecord_finishes (die : Nat) (r : ErrRec) : Finishes (emitRecord die r) := by
  refine finishes_get fun s => ?_
  dsimp only
  split
  · exact finishes_modify _
  · exact finishes_modify _

end Sys2Proof.Machine
end

section
/-! SUPPORT. Writes of registers through a function's window (00 R4; 03 R65, R66; 04 R91; 05 R130; 19 R466). -/
namespace Sys2Proof.Machine
open Sys2Proof

/-- A range register with one of its words written. -/
def rangeWritten (r : RangeReg) (word : Nat) (x : BitVec 64) : RangeReg :=
  match word with
  | 0 => { r with w0 := x }
  | 1 => { r with w1 := x }
  | _ => { r with w2 := x }

theorem outcome_writeRangeRegister_outside {fn ctx : Nat} {s : State} (n word value : Nat) (h : reaches s fn ctx = false) :
    outcome (writeRangeRegister fn ctx n word value) s = (.ok (), s) := by
  rw [writeRangeRegister, outcome_bind_ok (outcome_get s), if_pos (by simp [h])]
  rfl

theorem outcome_writeRangeRegister_enabled {fn ctx : Nat} {s : State} (n word value : Nat) (h : reaches s fn ctx = true)
    (he : (contextOf s ctx).enable = true) : outcome (writeRangeRegister fn ctx n word value) s =
      (.ok (), s.withFn fn { fnOf s fn with refused := true }) := by
  rw [writeRangeRegister, outcome_bind_ok (outcome_get s), if_neg (by simp [h]), if_pos he]
  exact outcome_modFn _ _ _

theorem outcome_writeRangeRegister_disabled {fn ctx : Nat} {s : State} (n word value : Nat) (h : reaches s fn ctx = true)
    (he : (contextOf s ctx).enable = false) : outcome (writeRangeRegister fn ctx n word value) s =
      (.ok (), s.withContext ctx { contextOf s ctx with
        rr := put (contextOf s ctx).rr n
          (rangeWritten (rrOf (contextOf s ctx) n) word (BitVec.ofNat 64 (value &&& rangeMask word))) }) := by
  rw [writeRangeRegister, outcome_bind_ok (outcome_get s), if_neg (by simp [h]), if_neg (by simp [he])]
  exact outcome_modContext _ _ _

theorem outcome_writeScopePolicy (world value : Nat) (s : State) : outcome (writeScopePolicy world value) s =
    (.ok (), s.withWorld world { worldOf s world with
      maxscope := if value % 8 = 4 ∨ value % 8 = 5 ∨ value % 8 = 6 then value % 8 else 4, remote := value / 8 % 2 = 1 }) := by
  simp [writeScopePolicy, bitSet, or_assoc]

/-- A register that the function's window does not hold. -/
theorem outcome_writeRegister_outside {fn : Nat} {reg : MmioReg} {s : State} (value : Nat) (h : inWindow s fn reg = false) :
    outcome (writeRegister fn reg value) s = (.ok (), s) := by
  rw [writeRegister, outcome_bind_ok (outcome_get s), if_pos (by simp [h])]
  rfl

theorem outcome_writeRegister_refill {fn ctx : Nat} {s : State} (value : Nat) (h : reaches s fn ctx = true) :
    outcome (writeRegister fn (.refill ctx) value) s =
      (.ok (), s.withContext ctx { contextOf s ctx with newRefill := some (value % 2 ^ 48) }) := by
  rw [writeRegister, outcome_bind_ok (outcome_get s), if_neg (by simp [inWindow, h])]
  exact outcome_modContext _ _ _

theorem outcome_writeRegister_brim {fn ctx : Nat} {s : State} (value : Nat) (h : reaches s fn ctx = true) :
    outcome (writeRegister fn (.brim ctx) value) s =
      (.ok (), s.withContext ctx { contextOf s ctx with newBrim := some (value % 2 ^ 63) }) := by
  rw [writeRegister, outcome_bind_ok (outcome_get s), if_neg (by simp [inWindow, h])]
  exact outcome_modContext _ _ _

/-- Before the boot no context is enabled (13 R383). -/
theorem outcome_writeRegister_control {fn ctx world : Nat} {s : State} (value : Nat) (h : reaches s fn ctx = true)
    (hb : s.bootStatus ≠ 1) (hw : (contextOf s ctx).world = some world) :
    outcome (writeRegister fn (.control ctx) value) s =
      (.ok (), s.withContext ctx { contextOf s ctx with newEnable := some false }) := by
  have hm : mayEnable s (some world) = false := by simp [mayEnable, hb]
  rw [writeRegister, outcome_bind_ok (outcome_get s), if_neg (by simp [inWindow, h])]
  simp [hw, hm]

/-- A register that is only read (00 R4). -/
theorem outcome_writeRegister_account (fn ctx value : Nat) (s : State) :
    outcome (writeRegister fn (.account ctx) value) s = (.ok (), s) := by
  rw [writeRegister, outcome_bind_ok (outcome_get s)]
  split <;> rfl

theorem outcome_writeRegister_level (fn ctx value : Nat) (s : State) :
    outcome (writeRegister fn (.level ctx) value) s = (.ok (), s) := by
  rw [writeRegister, outcome_bind_ok (outcome_get s)]
  split <;> rfl

theorem outcome_writeRegister_queueReset (fn value : Nat) (s : State) :
    outcome (writeRegister fn .queueReset value) s = outcome (writeReset fn value) s := by
  rw [writeRegister, outcome_bind_ok (outcome_get s), if_neg (by simp [inWindow])]

theorem outcome_writeReset_running {fn : Nat} {s : State} (value : Nat) (h : (fnOf s fn).resetStatus = 1) :
    outcome (writeReset fn value) s = (.ok (), s) := by
  rw [writeReset, outcome_bind_ok (outcome_get s)]
  simp only [h, if_true]
  rfl

/-- Without go the fields are stored and no reset begins (19 R466). -/
theorem outcome_writeReset_fields {fn value : Nat} {s : State} (hv : value % 2 = 0) (h : (fnOf s fn).resetStatus ≠ 1) :
    outcome (writeReset fn value) s = (.ok (), s.withFn fn { fnOf s fn with
      resetWhole := bitSet value 1, resetPart := bitsOf value 2 4, resetWorld := resetWorldOf s fn (bitsOf value 6 6) }) := by
  rw [writeReset, outcome_bind_ok (outcome_get s)]
  simp only [h, if_false]
  rw [outcome_bind_ok (outcome_modFn _ _ _), if_pos (by simp [bitSet, hv])]
  rfl

/-- 04 R91: a range register of a context whose window the function has, by the context's enable bit. -/
theorem exec_rangeRegisterWrite_disabled (fn ctx rr value : Nat) (s : State) (r : RangeReg) (hr : r = rrOf (contextOf s ctx) rr)
    (h : reaches s fn ctx = true) (he : (contextOf s ctx).enable = false) (word : Nat) :
    exec (.rangeRegisterWrite fn ctx rr word value) s = .next (s.withContext ctx { contextOf s ctx with
      rr := put (contextOf s ctx).rr rr (rangeWritten r word (BitVec.ofNat 64 (value &&& rangeMask word))) }) := by
  subst hr
  exact eventStep_ok (outcome_writeRangeRegister_disabled rr word value h he)

end Sys2Proof.Machine
end

section
/-! SUPPORT. The mailbox of the host (12 R360; 13 R376). -/
namespace Sys2Proof.Machine
open Sys2Proof

/-- A request of a virtual function. -/
theorem exec_hostMailboxRequest_guest {fn : Nat} {req : MailReq} {s t : State} (hf : fn ≠ 0) (hb : s.bootStatus ≠ 2)
    (h : outcome (guestRequest fn req) (runAct (noteRequest 0 2) s) = (.ok (), t)) :
    exec (.hostMailboxRequest fn req) s = .next t := by
  refine eventStep_serves hb ?_
  rw [outcome_bind_ok (show outcome (noteRequest 0 2) s = (.ok (), runAct (noteRequest 0 2) s) from rfl),
    outcome_bind_ok h, if_neg hf]
  rfl

/-- A request of the hypervisor's that no guest may make. -/
theorem exec_hostMailboxRequest_hypervisor {req : MailReq} {s t : State} (hb : s.bootStatus ≠ 2)
    (hg : outcome (guestRequest 0 req) (runAct (noteRequest 0 2) s) = (.ok (), runAct (noteRequest 0 2) s))
    (h : outcome (hypervisorRequest req) (runAct (noteRequest 0 2) s) = (.ok (), t)) :
    exec (.hostMailboxRequest 0 req) s = .next t := by
  refine eventStep_serves hb ?_
  rw [outcome_bind_ok (show outcome (noteRequest 0 2) s = (.ok (), runAct (noteRequest 0 2) s) from rfl), outcome_bind_ok hg,
    if_pos rfl, h]

/-- A function's own world may name its frame pool (12 R357). -/
theorem outcome_guestRequest_framePool {fn world : Nat} {s : State} (va n : Nat) (h : (fnOf s fn).world = some world) :
    outcome (guestRequest fn (.framePool world va n)) s =
      (.ok (), s.withWorld world { worldOf s world with pool := some (va, n) }) := by
  rw [guestRequest, outcome_bind_ok (outcome_get s)]
  simp [h]

/-- The tag table takes an entry (13 R381). -/
theorem outcome_hypervisorRequest_tagEntry {tag : Nat} (world ia : Nat) (s : State) (h0 : 0 < tag) (h1 : tag < 1024) :
    outcome (hypervisorRequest (.tagEntry tag world ia true)) s = (.ok (), { s with tags := put s.tags tag ⟨ia, world⟩ }) := by
  rw [hypervisorRequest, outcome_bind_ok (outcome_get s)]
  simp [h0, h1]

/-- A virtual function is bound to a world of no context (13 R375). -/
theorem outcome_bindFunction {fn world : Nat} (base : Nat) {s : State} (h0 : 0 < fn) (h1 : fn < 64)
    (hu : (fnOf s fn).tdisp = .unlocked)
    (hc : ∀ y ∈ s.contexts, y.2.world ≠ some world ∧ (y.2.world = none → y.2.newWorld ≠ some world)) :
    outcome (bindFunction fn world base) s =
      (.ok (), s.withFn fn { fnOf s fn with world := some world, hdmBase := base, hostCtx := none }) := by
  have none_left : s.contexts.filter (fun e => e.2.world = some world || (e.2.world.isNone && e.2.newWorld = some world)) = [] := by
    refine List.filter_eq_nil_iff.mpr fun y hy => ?_
    obtain ⟨h, k⟩ := hc y hy
    simpa [h] using k
  rw [bindFunction, outcome_bind_ok (outcome_get s), if_pos (by simp [h0, h1, hu]), outcome_bind_ok (outcome_modFn _ _ _),
    outcome_bind_ok (outcome_get _), show (s.withFn fn _).contexts = s.contexts from rfl, none_left]
  rfl

end Sys2Proof.Machine
end

section
/-! SUPPORT. The TDISP interfaces (13 R377; 20 R490, R494, R495), and the links they stand on. -/
namespace Sys2Proof.Machine
open Sys2Proof

/-- The answer to a TDISP request tells the state of the interface. -/
theorem outcome_tdispAnswer (fn session status : Nat) (s : State) : outcome (tdispAnswer fn session status) s =
    (.ok (), { runAct (noteRequest 0 3) s with hostBox := s.hostBox ++ [.tdisp fn session status (fnOf s fn).tdisp] }) := rfl

/-- A function that enters a state, and the answer that tells it. -/
theorem outcome_setFn_tdispAnswer (fn session status : Nat) (f : Fn) (s : State) : outcome (do
      setFn fn f
      tdispAnswer fn session status) s = (.ok (), { (runAct (noteRequest 0 3) s).withFn fn f with
        hostBox := s.hostBox ++ [.tdisp fn session status f.tdisp] }) := by
  rw [outcome_bind_ok (outcome_setFn _ _ _), outcome_tdispAnswer, fnOf_withFn]
  rfl

theorem outcome_lockRequest_unlocked {fn : Nat} (session : Nat) {s : State} (h0 : fn ≠ 0) (hu : (fnOf s fn).tdisp = .unlocked)
    (hg : (fnOf s fn).going = none) (hi : s.ideUp = true) : outcome (lockRequest fn session) s = (.ok (),
      { (runAct (noteRequest 0 3) s).withFn fn { fnOf s fn with tdisp := .locked, session := some session } with
        hostBox := s.hostBox ++ [.tdisp fn session 0 .locked] }) := by
  rw [lockRequest, outcome_bind_ok (outcome_get s)]
  simp only [h0, if_false, hu, hg, hi, Option.isNone_none, decide_true, Bool.and_self, if_true]
  exact outcome_setFn_tdispAnswer _ _ _ _ _

theorem outcome_lockRequest_refused {fn : Nat} (session : Nat) {s : State} (h0 : fn ≠ 0) (hu : (fnOf s fn).tdisp ≠ .unlocked) :
    outcome (lockRequest fn session) s = (.ok (), { runAct (noteRequest 0 3) s with
      hostBox := s.hostBox ++ [.tdisp fn session 1 (fnOf s fn).tdisp] }) := by
  rw [lockRequest, outcome_bind_ok (outcome_get s)]
  simp only [h0, if_false, hu, decide_false, Bool.false_and, Bool.false_eq_true]
  exact outcome_tdispAnswer _ _ _ _

theorem outcome_startRequest_own {fn session : Nat} {s : State} (h0 : fn ≠ 0) (hl : (fnOf s fn).tdisp = .locked)
    (hg : (fnOf s fn).going = none) (hs : (fnOf s fn).session = some session) : outcome (startRequest fn session) s = (.ok (),
      { (runAct (noteRequest 0 3) s).withFn fn { fnOf s fn with tdisp := .run } with
        hostBox := s.hostBox ++ [.tdisp fn session 0 .run] }) := by
  rw [startRequest, outcome_bind_ok (outcome_get s)]
  simp only [h0, if_false, hl, hg, hs, Option.isSome_none, ne_eq, not_true, decide_false, Bool.or_self, Bool.false_eq_true, if_true]
  exact outcome_setFn_tdispAnswer _ _ _ _ _

theorem outcome_startRequest_other {fn session : Nat} {s : State} (h0 : fn ≠ 0) (hl : (fnOf s fn).tdisp = .locked)
    (hg : (fnOf s fn).going = none) (hs : (fnOf s fn).session ≠ some session) : outcome (startRequest fn session) s = (.ok (),
      { runAct (noteRequest 0 3) s with hostBox := s.hostBox ++ [.tdisp fn session 2 .locked] }) := by
  rw [startRequest, outcome_bind_ok (outcome_get s)]
  simp only [h0, if_false, hl, hg, hs, Option.isSome_none, ne_eq, not_true, decide_false, Bool.or_self, Bool.false_eq_true]
  rw [outcome_tdispAnswer, hl]

theorem outcome_stopRequest_own {fn session : Nat} {s : State} (h0 : fn ≠ 0) (hu : (fnOf s fn).tdisp ≠ .unlocked)
    (hg : (fnOf s fn).going = none) (hs : (fnOf s fn).session = some session) : outcome (stopRequest fn session) s = outcome (do
      leaveTo fn .unlocked
      tdispAnswer fn session 0) s := by
  rw [stopRequest, outcome_bind_ok (outcome_get s)]
  simp only [h0, if_false, hu, hg, hs, Option.isSome_none, decide_false, Bool.or_self, Bool.false_eq_true, if_true]

theorem outcome_stopRequest_other {fn session : Nat} {s : State} (h0 : fn ≠ 0) (hu : (fnOf s fn).tdisp ≠ .unlocked)
    (hg : (fnOf s fn).going = none) (hs : (fnOf s fn).session ≠ some session) : outcome (stopRequest fn session) s = (.ok (),
      { runAct (noteRequest 0 3) s with hostBox := s.hostBox ++ [.tdisp fn session 2 (fnOf s fn).tdisp] }) := by
  rw [stopRequest, outcome_bind_ok (outcome_get s)]
  simp only [h0, if_false, hu, hg, hs, Option.isSome_none, decide_false, Bool.or_self, Bool.false_eq_true]
  exact outcome_tdispAnswer _ _ _ _

/-- The one interface that a failure selects goes to ERROR. -/
theorem outcome_failInterfaces_one {fn : Nat} {f : Fn} {s : State} {p : Nat → Fn → Bool} (hs : s.fns = [(fn, f)]) (h0 : fn ≠ 0)
    (ht : f.tdisp = .locked ∨ f.tdisp = .run) (hp : p fn f = true) :
    outcome (failInterfaces p) s = outcome (leaveTo fn .error) s := by
  have he : s.fns.filter (fun e => e.1 != 0 && (e.2.tdisp = .locked || e.2.tdisp = .run) && p e.1 e.2) = [(fn, f)] := by
    rcases ht with ht | ht <;> simp [hs, h0, ht, hp]
  rw [failInterfaces, outcome_bind_ok (outcome_get s), he, outcome_each_one]

/-- An interface of no world arrives in ERROR, and keeps its session. -/
theorem outcome_interfaceArrives_error {fn : Nat} {s : State} (hg : (fnOf s fn).going = some .error)
    (hw : (fnOf s fn).world = none) : outcome (interfaceArrives fn) s =
      (.ok (), s.withFn fn { fnOf s fn with tdisp := .error, going := none }) := by
  rw [interfaceArrives, outcome_bind_ok (outcome_get s)]
  simp only [hg]
  rw [outcome_bind_ok (outcome_setFn _ _ _)]
  simp only [hw]
  rfl

/-- Without a world there is nothing to reset: the interface arrives at once (13 R377). -/
theorem outcome_leaveTo_error {fn : Nat} {s : State} (hw : (fnOf s fn).world = none) : outcome (leaveTo fn .error) s =
    (.ok (), s.withFn fn { fnOf s fn with tdisp := .error, going := none }) := by
  rw [leaveTo, outcome_bind_ok (outcome_get s), outcome_bind_ok (outcome_modFn _ _ _)]
  simp only [hw]
  rw [outcome_interfaceArrives_error (by rw [fnOf_withFn]) (by rw [fnOf_withFn]), fnOf_withFn, withFn_withFn]

theorem outcome_cipherFailure_nobody (src dst : Nat) (s : State) : outcome (cipherFailure src dst []) s = (.ok (), { s with
    stopped := (s.stopped.filter fun p => p != (src, dst) && p != (dst, src)) ++ [(src, dst), (dst, src)] }) := rfl

end Sys2Proof.Machine
end

section
/-! SUPPORT. An access that its home slice serves (04 R92-R107): the line is read, or changed, in place. -/
namespace Sys2Proof.Machine
open Sys2Proof

/-- The second state differs from the first at most in what an access to a line in place leaves behind it: charges and
counters of messages, the slices' own records, the blocks' metadata, the arms that watch, and the host's lines. -/
def AccessOnly (s t : State) : Prop :=
  t = { s with
    flows := t.flows, baseCharges := t.baseCharges, baseHost := t.baseHost, blockBase := t.blockBase
    slices := t.slices, draws := t.draws, blocksMeta := t.blocksMeta, teams := t.teams, hostOwned := t.hostOwned }

theorem AccessOnly.refl (s : State) : AccessOnly s s := rfl

theorem AccessOnly.trans {s t u : State} (h : AccessOnly s t) (k : AccessOnly t u) : AccessOnly s u := by
  unfold AccessOnly at *
  rw [k, h]

theorem TrafficOnly.access {s t : State} (h : TrafficOnly s t) : AccessOnly s t := by
  unfold TrafficOnly at h
  rw [h]
  rfl

/-- Memory, the lines of the LLC and the host's box stand as they were. -/
theorem AccessOnly.keeps {s t : State} (h : AccessOnly s t) : t.mem = s.mem ∧ t.llc = s.llc ∧ t.hostBox = s.hostBox := by
  unfold AccessOnly at h
  exact ⟨by rw [h], by rw [h], by rw [h]⟩

/-- An action that completes, and leaves no more behind than an access does. -/
def Accesses {α : Type} (m : Act α) : Prop := ∀ s, ∃ a t, outcome m s = (.ok a, t) ∧ AccessOnly s t

theorem Traffic.accesses {m : Act Unit} (h : Traffic m) : Accesses m := fun s =>
  ⟨(), (h s).imp fun _ k => ⟨k.1, k.2.access⟩⟩

theorem accesses_pure {α : Type} (a : α) : Accesses (pure a : Act α) := fun s => ⟨a, s, rfl, .refl s⟩

theorem accesses_modify {f : State → State} (h : ∀ s, AccessOnly s (f s)) : Accesses (modify f : Act Unit) :=
  fun s => ⟨(), f s, rfl, h s⟩

theorem accesses_get {α : Type} {f : State → Act α} (h : ∀ s, Accesses (f s)) : Accesses (get >>= f) := fun s => h s s

theorem accesses_bind {α β : Type} {m : Act α} {n : α → Act β} (h : Accesses m) (k : ∀ a, Accesses (n a)) :
    Accesses (m >>= n) := by
  intro s
  obtain ⟨a, t, ht, et⟩ := h s
  obtain ⟨b, u, hu, eu⟩ := k a t
  exact ⟨b, u, by rw [outcome_bind_ok ht, hu], et.trans eu⟩

theorem accesses_each {α : Type} {f : α → Act Unit} (h : ∀ x, Accesses (f x)) : ∀ l, Accesses (each l f)
  | [] => accesses_pure ()
  | x :: l => accesses_bind (h x) fun _ => accesses_each h l

theorem modSlice_accesses (i : Nat) (f : Slice → Slice) : Accesses (modSlice i f) := fun s =>
  ⟨_, _, outcome_modSlice i f s, rfl⟩

/-! ### The slice's own records of an access -/

theorem chargeBursts_traffic (ctx : Option Nat) (ma n : Nat) : Traffic (chargeBursts ctx ma n) := by
  unfold chargeBursts
  split
  · exact chargeBase_traffic _ _ _ _
  · exact chargeBase_traffic _ _ _ _

theorem chargeLlc_accesses (ctx : Option Nat) (ma : Nat) : Accesses (chargeLlc ctx ma) := by
  refine accesses_bind (chargeBase_traffic _ _ _ _).accesses fun _ => ?_
  split
  · exact modSlice_accesses _ _
  · exact accesses_pure ()

theorem chargeCxl_traffic (r : Req) (n : Nat) : Traffic (chargeCxl r n) := chargeBase_traffic _ _ _ _

/-- The choice of what leaves a full set draws at most once. -/
theorem victimOf_accesses {α : Type} (l : List α) : Accesses (victimOf l) := by
  unfold victimOf
  split
  · exact accesses_pure none
  · exact fun _ => ⟨_, _, rfl, rfl⟩

/-- A tag line makes room for another (04 R110). -/
theorem roomForTags_accesses (ctx : Option Nat) (ma line : Nat) : Accesses (roomForTags ctx ma line) := by
  refine accesses_get fun s => ?_
  dsimp only
  split
  · exact accesses_pure ()
  refine accesses_bind (victimOf_accesses _) fun v => ?_
  cases v with
  | none => exact accesses_pure ()
  | some e =>
    dsimp only
    split
    · refine accesses_bind (Traffic.accesses ?_) fun _ => modSlice_accesses _ _
      split
      · exact chargeBase_traffic _ _ _ _
      · exact chargeBase_traffic _ _ _ _
    · exact modSlice_accesses _ _

theorem touchTags_accesses (ctx : Option Nat) (ma : Nat) (dirty : Bool) : Accesses (touchTags ctx ma dirty) := by
  refine accesses_get fun s => ?_
  dsimp only
  split
  · split
    · exact modSlice_accesses _ _
    · exact accesses_pure ()
  · exact accesses_bind (roomForTags_accesses _ _ _) fun _ =>
      accesses_bind (chargeBursts_traffic _ _ _).accesses fun _ => modSlice_accesses _ _

theorem claimFree_accesses (ctx : Option Nat) (ma slot gen : Nat) : Accesses (claimFree ctx ma slot gen) := by
  refine accesses_get fun s => ?_
  split
  · exact accesses_bind (touchTags_accesses _ _ _) fun _ => accesses_modify fun _ => rfl
  · exact accesses_pure ()

theorem notifyWatch_accesses (world ia : Nat) (bytes : Tbl (BitVec 8)) : Accesses (notifyWatch world ia bytes) :=
  accesses_modify fun _ => rfl

/-- The host owns the lines that it has reached (13 R376). -/
theorem ownLines_accesses (r : Req) (ia n : Nat) : Accesses (ownLines r ia n) := by
  refine accesses_each (fun p => accesses_get fun s => ?_) _
  split
  · exact accesses_modify fun _ => rfl
  · exact accesses_pure ()

/-! ### At the home slice -/

/-- A home slice that serves serves still when messages have passed. -/
theorem Serves.afterTraffic {s t : State} {r : Req} {ia : Nat} {x : TlbEntry} {l : LlcLine} (h : Serves s r ia x l)
    (k : TrafficOnly s t) : Serves t r ia x l := by
  unfold TrafficOnly at k
  rw [k]
  exact ⟨h.flows, h.takes, h.pair, h.permitted, h.replicas, h.key, h.reached, h.line, h.whole, h.alone⟩

section
variable {s : State} {r : Req} {ia : Nat} {x : TlbEntry} {l : LlcLine}

/-- The cached pair answers for reads and writes. -/
theorem Serves.translate (h : Serves s r ia x l) {k : AccKind} (hk : k = .read ∨ k = .write) :
    outcome (translate r ia k) s = (.ok x, s) := by
  obtain ⟨hrd, hwr, her⟩ := h.permitted
  have hp : permits x.rd x.wr x.ex k = true := by rcases hk with rfl | rfl <;> simp [permits, hrd, hwr]
  unfold Machine.translate
  rw [outcome_bind_ok (outcome_get s)]
  simp only [h.pair, hp, if_true]
  rw [outcome_bind_ok (outcome_pure x s), outcome_bind_ok (outcome_get s)]
  simp only [h.replicas, h.key, her]
  rfl

theorem Serves.reachHost (h : Serves s r ia x l) : outcome (reachHost (maOf x ia)) s = (.ok (), s) := by
  unfold Machine.reachHost
  rw [outcome_bind_ok (outcome_get s)]
  simp only [h.reached]
  rfl

/-- No chunk is to be recalled. -/
theorem Serves.recallFor (h : Serves s r ia x l) : outcome (recallFor r (maOf x ia)) s = (.ok (), s) := by
  unfold Machine.recallFor chainFuel recallDeep
  rw [outcome_bind_ok (outcome_get s)]
  simp only [h.alone.1]
  rfl

/-- No host is to be asked for the line. -/
theorem Serves.snoopFirst (h : Serves s r ia x l) : outcome (snoopFirst r (maOf x ia)) s = (.ok (), s) := by
  unfold Machine.snoopFirst
  split
  · rfl
  · have hs : outcome (snoopHost (maOf x ia)) s = (.ok false, s) := by
      unfold snoopHost
      rw [outcome_bind_ok (outcome_get s)]
      simp only [h.alone.2]
      rfl
    rw [outcome_bind_ok hs]
    rfl

end

/-- A line that is whole and sound is read as it stands. -/
theorem outcome_lineWith {s : State} {l : LlcLine} {ma slot : Nat} (ctx : Option Nat) (world ia gen : Nat)
    (h : find? s.llc (llcKey ma slot) = some l) (hl : l.valid = 0xff ∧ l.poison = false ∧ l.single = 0 ∧ l.double = 0) :
    outcome (lineWith ctx world ia ma slot gen) s = (.ok l, s) := by
  obtain ⟨hv, -, hs, hd⟩ := hl
  have hc : outcome (checkLine (llcKey ma slot) ma) s = (.ok (), s) := by
    unfold checkLine
    rw [outcome_bind_ok (outcome_get s)]
    simp [h, hs, hd]
  unfold lineWith
  rw [outcome_bind_ok hc, outcome_bind_ok (outcome_get s)]
  simp [h, hv]

theorem outcome_llcRead {s : State} {l : LlcLine} {ma slot : Nat} (ctx : Option Nat) (world ia gen n : Nat)
    (h : find? s.llc (llcKey ma slot) = some l) (hl : l.valid = 0xff ∧ l.poison = false ∧ l.single = 0 ∧ l.double = 0) :
    outcome (llcRead ctx world ia ma slot gen n) s = (.ok (lineBytes l.bytes (ma % 512) n), s) := by
  unfold llcRead
  rw [outcome_bind_ok (outcome_lineWith ctx world ia gen h hl)]
  simp [hl.2.1]

/-- A line that has taken bytes of one sector: dirty there, and its owner's (04 R106; 20 R473). -/
def LlcLine.written (l : LlcLine) (ma owner : Nat) (bs : List (BitVec 8)) : LlcLine :=
  { l with bytes := putBytes l.bytes (ma % 512) bs, dirty := l.dirty ||| BitVec.twoPow 8 (ma / 64 % 8), owner := owner }

/-- The state with one line of the LLC in place of what stood there. -/
def State.withLine (s : State) (k : Nat) (l : LlcLine) : State := { s with llc := put s.llc k l }

theorem AccessOnly.withLine {s t : State} (h : AccessOnly s t) (k : Nat) (l : LlcLine) :
    AccessOnly (s.withLine k l) (t.withLine k l) := by
  unfold AccessOnly at *
  rw [h]
  rfl

theorem outcome_llcWrite {s : State} {l : LlcLine} {ma slot : Nat} (ctx : Option Nat) (world ia gen : Nat)
    (bs : List (BitVec 8)) (h : find? s.llc (llcKey ma slot) = some l)
    (hl : l.valid = 0xff ∧ l.poison = false ∧ l.single = 0 ∧ l.double = 0) :
    ∃ t, outcome (llcWrite ctx world ia ma slot gen bs) s = (.ok (), t) ∧
      AccessOnly (s.withLine (llcKey ma slot) (l.written ma (ctx.getD 0x3ff) bs)) t := by
  obtain ⟨_, t1, h1, k1⟩ := claimFree_accesses ctx ma slot gen s
  obtain ⟨_, t2, h2, k2⟩ := notifyWatch_accesses world ia (putBytes l.bytes (ma % 512) bs) t1
  unfold llcWrite llcChange
  rw [outcome_bind_ok (outcome_lineWith ctx world ia gen h hl), if_neg (by simp [hl.2.1]), outcome_bind_ok h1, outcome_bind_ok h2]
  exact ⟨_, rfl, (k1.trans k2).withLine _ _⟩

theorem outcome_withEncodingRecord {α : Type} {m : Act α} {s t : State} {a : α} (r : Req) (ia : Nat)
    (h : outcome m s = (.ok a, t)) : outcome (withEncodingRecord r ia m) s = (.ok a, t) := by
  unfold withEncodingRecord
  rw [outcome_bind_ok (outcome_attempt _ _), h]
  rfl

/-- A slice that takes requests does what is asked of it between its two messages (01 R19). `f` is what that changes. -/
theorem Serves.atHome {s : State} {r : Req} {ia : Nat} {x : TlbEntry} {l : LlcLine} {α : Type} {m : Act α} {a : α}
    {f : State → State} (h : Serves s r ia x l) (n back : Nat) (hf : ∀ s1, TrafficOnly s s1 → AccessOnly (f s) (f s1))
    (hm : ∀ s1, Serves s1 r ia x l → ∃ t, outcome m s1 = (.ok a, t) ∧ AccessOnly (f s1) t) :
    ∃ t, outcome (atHome r ia n back m) s = (.ok a, t) ∧ AccessOnly (f s) t := by
  obtain ⟨s1, h1, k1⟩ := sendMessage_traffic r.ctx r.world r.src (routerOfSlice (sliceOf ia)) .request n s
  obtain ⟨t, ht, kt⟩ := hm s1 (h.afterTraffic k1)
  obtain ⟨u, hu, ku⟩ := sendMessage_traffic r.ctx r.world (routerOfSlice (sliceOf ia)) r.src (if back = 0 then .ack else .data) back t
  have takes : sliceBusy s1 (sliceOf ia) = false := by
    obtain ⟨hr, hq⟩ := (h.afterTraffic k1).takes
    simp [sliceBusy, hr, hq]
  refine ⟨u, ?_, ((hf s1 k1).trans kt).trans ku.access⟩
  unfold Machine.atHome
  rw [outcome_bind_ok (outcome_get s), if_neg (by simp [h.flows]), outcome_bind_ok h1, outcome_bind_ok (outcome_get s1),
    if_neg (by simp [takes]), outcome_bind_ok (outcome_attempt m s1), ht]
  dsimp only
  rw [outcome_bind_ok hu, outcome_pure]

/-- A read of bytes of one sector at a slice that serves it: the line's bytes. -/
theorem Serves.sliceRead {s : State} {r : Req} {ia : Nat} {x : TlbEntry} {l : LlcLine} (h : Serves s r ia x l) (n : Nat) :
    ∃ t, outcome (sliceRead r ia n .read) s = (.ok (lineBytes l.bytes (maOf x ia % 512) n), t) ∧ AccessOnly s t := by
  obtain ⟨t, ht, kt⟩ := h.atHome (m := serveRead r ia n .read) (a := (x, lineBytes l.bytes (maOf x ia % 512) n)) (f := id) 0 n
    (fun _ k => k.access) fun s1 h1 => by
      obtain ⟨_, s2, h2, k2⟩ := chargeLlc_accesses r.ctx (maOf x ia) s1
      have line : find? s2.llc (llcKey (maOf x ia) x.slot) = some l := by rw [k2.keeps.2.1, h1.line]
      refine ⟨s2, ?_, k2⟩
      unfold serveRead
      rw [outcome_bind_ok (h1.translate (.inl rfl)), outcome_bind_ok h1.reachHost, outcome_bind_ok h1.recallFor,
        outcome_bind_ok h2, outcome_bind_ok (outcome_withEncodingRecord r ia (outcome_llcRead r.ctx r.world ia x.gen n line h1.whole)),
        outcome_pure]
  exact ⟨t, by rw [Machine.sliceRead, outcome_bind_ok ht, outcome_pure], kt⟩

/-- A write of bytes of one sector at a slice that serves it: the line takes them. -/
theorem Serves.sliceWrite {s : State} {r : Req} {ia : Nat} {x : TlbEntry} {l : LlcLine} (h : Serves s r ia x l)
    (bs : List (BitVec 8)) : ∃ t, outcome (sliceWrite r ia bs .write) s = (.ok (), t) ∧
      AccessOnly (s.withLine (llcKey (maOf x ia) x.slot) (l.written (maOf x ia) (r.ctx.getD 0x3ff) bs)) t := by
  unfold Machine.sliceWrite
  refine h.atHome (f := fun s => s.withLine (llcKey (maOf x ia) x.slot) (l.written (maOf x ia) (r.ctx.getD 0x3ff) bs)) bs.length 0
    (fun _ k => k.access.withLine _ _) fun s1 h1 => ?_
  obtain ⟨_, s2, h2, k2⟩ := chargeLlc_accesses r.ctx (maOf x ia) s1
  obtain ⟨t, ht, kt⟩ := outcome_llcWrite (s := s2) r.ctx r.world ia x.gen bs (by rw [k2.keeps.2.1, h1.line]) h1.whole
  refine ⟨t, ?_, (k2.withLine _ _).trans kt⟩
  rw [outcome_bind_ok (h1.translate (.inr rfl)), outcome_bind_ok h1.reachHost, outcome_bind_ok h1.snoopFirst,
    outcome_bind_ok h1.recallFor, outcome_bind_ok h2, outcome_withEncodingRecord r ia ht]

/-- A range inside one sector is one access. -/
theorem sectorsOf_one {ia n : Nat} (f : Nat) (h0 : 0 < n) (h : ia % 64 + n ≤ 64) : sectorsOf (f + 1) ia n = [(ia, n)] := by
  rw [sectorsOf, if_neg (by omega), if_pos (by omega)]

theorem Serves.readRange {s : State} {r : Req} {ia n : Nat} {x : TlbEntry} {l : LlcLine} (h : Serves s r ia x l) (h0 : 0 < n)
    (hn : ia % 64 + n ≤ 64) :
    ∃ t, outcome (readRange r ia n .read) s = (.ok (lineBytes l.bytes (maOf x ia % 512) n), t) ∧ AccessOnly s t := by
  obtain ⟨t, ht, kt⟩ := h.sliceRead n
  refine ⟨t, ?_, kt⟩
  have hc : outcome (collect [(ia, n)] fun p => Machine.sliceRead r p.1 p.2 .read) s =
      (.ok [lineBytes l.bytes (maOf x ia % 512) n], t) := by
    rw [collect, outcome_bind_ok ht]
    rfl
  rw [Machine.readRange, sectorsOf_one _ h0 hn, outcome_bind_ok hc, outcome_pure, List.flatten_singleton]

theorem Serves.writeRange {s : State} {r : Req} {ia : Nat} {x : TlbEntry} {l : LlcLine} {bs : List (BitVec 8)}
    (h : Serves s r ia x l) (h0 : 0 < bs.length) (hn : ia % 64 + bs.length ≤ 64) :
    ∃ t, outcome (writeRange r ia bs) s = (.ok (), t) ∧
      AccessOnly (s.withLine (llcKey (maOf x ia) x.slot) (l.written (maOf x ia) (r.ctx.getD 0x3ff) bs)) t := by
  obtain ⟨t, ht, kt⟩ := h.sliceWrite bs
  refine ⟨t, ?_, kt⟩
  rw [Machine.writeRange, sectorsOf_one _ h0 hn, writePieces, List.take_length, outcome_bind_ok ht]
  rfl

/-- Where an address lies in its block does not depend on the translation. -/
theorem maOf_mod_block (x : TlbEntry) (ia : Nat) : maOf x ia % 512 = ia % 512 := by
  unfold maOf
  omega

theorem maOf_sector (x : TlbEntry) (ia : Nat) : maOf x ia / 64 % 8 = ia / 64 % 8 := by
  unfold maOf
  omega

end Sys2Proof.Machine
end

section
/-! SUPPORT. The host's accesses over CXL.mem (13 R376; 20 R486; 22 R518). -/
namespace Sys2Proof.Machine
open Sys2Proof

/-- A write of bytes that no trigger entry watches. -/
theorem outcome_asUpdate {r : Req} {ia n : Nat} {m : Act Unit} {s t : State} (hc : countersIn s r.world ia n = [])
    (h : outcome m s = (.ok (), t)) : outcome (asUpdate r ia n m) s = (.ok (), t) := by
  rw [asUpdate, outcome_bind_ok (outcome_get s), hc, outcome_bind_ok (show outcome (collect [] _) s = (.ok [], s) from rfl),
    outcome_bind_ok h]
  rfl

/-- The host's bytes inside one sector are no whole block. -/
theorem hostStoreBytes_sector {r : Req} {ia : Nat} {bs : List (BitVec 8)} (h : ia % 64 + bs.length ≤ 64) :
    hostStoreBytes r ia bs = writeRange r ia bs := by
  rw [hostStoreBytes, if_neg (by simp; omega)]

/-- Work that a fault leaves without effect, when none comes. -/
theorem outcome_allOrError_ok {α : Type} {m : Act α} {s t : State} {a : α} (h : outcome m s = (.ok a, t)) :
    outcome (allOrError m) s = (.ok (.ok a), t) := by
  show allOrError m s = _
  unfold allOrError
  rw [show m.run.run s = _ from h]

theorem outcome_allOrError_error {α : Type} {m : Act α} {s t : State} {e : Stop} (h : outcome m s = (.error e, t)) :
    outcome (allOrError m) s = (.ok (.error e), keepingTraffic s t) := by
  show allOrError m s = _
  unfold allOrError
  rw [show m.run.run s = _ from h]

theorem finishes_after {α : Type} {m : Act α} {n : α → Act Unit} (h : Accesses m) (k : ∀ a, Finishes (n a)) :
    Finishes (m >>= n) := by
  intro s
  obtain ⟨a, t, ht, -⟩ := h s
  obtain ⟨u, hu⟩ := k a t
  exact ⟨u, by rw [outcome_bind_ok ht, hu]⟩

theorem poisonedBytes_accesses (n : Nat) : Accesses (poisonedBytes n) := fun _ => ⟨_, _, rfl, rfl⟩

theorem cxlRecord_finishes (r : Req) (ia cls type : Nat) : Finishes (cxlRecord r ia cls type) := emitRecord_finishes _ _

section
variable {fn off world : Nat} {s : State}

/-- No function's memory is reached: nothing happens (13 R376). -/
theorem exec_cxlMemRead_unbound (n : Nat) (ht : cxlTarget s fn = none) : exec (.cxlMemRead fn off n) s = .next s := by
  refine eventStep_tried (m := cxlRead fn off n) ?_
  rw [cxlRead, outcome_bind_ok (outcome_get s), ht]
  rfl

theorem exec_cxlMemWrite_unbound (bs : List (BitVec 8)) (ht : cxlTarget s fn = none) :
    exec (.cxlMemWrite fn off bs) s = .next s := by
  refine eventStep_tried (m := cxlWrite fn off bs) ?_
  rw [cxlWrite, outcome_bind_ok (outcome_get s), ht]
  rfl

/-- A read that its slices answer: what is left is to own the lines, to send the data, and the charge. -/
theorem exec_cxlMemRead_answers {n : Nat} {s1 : State} {bs : List (BitVec 8)} (ht : cxlTarget s fn = some world)
    (h : outcome (readRange (cxlReq s fn world) ((fnOf s fn).hdmBase + off) n .read) s = (.ok bs, s1)) :
    exec (.cxlMemRead fn off n) s = .next (runAct (do
      ownLines (cxlReq s fn world) ((fnOf s fn).hdmBase + off) n
      modify fun t => { t with hostBox := t.hostBox ++ [.data fn off bs false] }
      chargeCxl (cxlReq s fn world) n) s1) := by
  refine eventStep_tried_from (m := cxlRead fn off n) ?_ (finishes_after (ownLines_accesses _ _ _) fun _ =>
    finishes_seq (finishes_modify _) fun _ => (chargeCxl_traffic _ _).finishes)
  rw [cxlRead, outcome_bind_ok (outcome_get s), ht]
  dsimp only
  rw [outcome_bind_ok (outcome_attempt _ _), h]

/-- A read that fails: its record, and free bytes with the poison indication (20 R486). -/
theorem exec_cxlMemRead_stops {n cls : Nat} {s1 : State} {e : Stop} (ht : cxlTarget s fn = some world)
    (h : outcome (readRange (cxlReq s fn world) ((fnOf s fn).hdmBase + off) n .read) s = (.error e, s1))
    (he : cxlClass e = some cls) :
    exec (.cxlMemRead fn off n) s = .next (runAct (do
      cxlRecord (cxlReq s fn world) ((fnOf s fn).hdmBase + off) cls 15
      let bs ← poisonedBytes n
      modify fun t => { t with hostBox := t.hostBox ++ [.data fn off bs true] }
      chargeCxl (cxlReq s fn world) n) s1) := by
  refine eventStep_tried_from (m := cxlRead fn off n) ?_ (finishes_seq (cxlRecord_finishes _ _ _ _) fun _ =>
    finishes_after (poisonedBytes_accesses n) fun _ =>
      finishes_seq (finishes_modify _) fun _ => (chargeCxl_traffic _ _).finishes)
  rw [cxlRead, outcome_bind_ok (outcome_get s), ht]
  dsimp only
  rw [outcome_bind_ok (outcome_attempt _ _), h]
  dsimp only
  split
  · contradiction
  · next w hw => cases hw; simp [cxlClass] at he
  · next hw => cases hw; rw [he]

/-- A write that its slices take. -/
theorem exec_cxlMemWrite_answers {bs : List (BitVec 8)} {s1 : State} (ht : cxlTarget s fn = some world)
    (h : outcome (hostWrite (cxlReq s fn world) ((fnOf s fn).hdmBase + off) bs) s = (.ok (), s1)) :
    exec (.cxlMemWrite fn off bs) s = .next (runAct (do
      ownLines (cxlReq s fn world) ((fnOf s fn).hdmBase + off) bs.length
      chargeCxl (cxlReq s fn world) bs.length) s1) := by
  refine eventStep_tried_from (m := cxlWrite fn off bs) ?_ (finishes_after (ownLines_accesses _ _ _) fun _ =>
    (chargeCxl_traffic _ _).finishes)
  rw [cxlWrite, outcome_bind_ok (outcome_get s), ht]
  dsimp only
  rw [outcome_bind_ok (outcome_allOrError_ok h)]

/-- A write that fails is discarded whole, with its record (20 R486). -/
theorem exec_cxlMemWrite_stops {bs : List (BitVec 8)} {cls : Nat} {s1 : State} {e : Stop} (ht : cxlTarget s fn = some world)
    (h : outcome (hostWrite (cxlReq s fn world) ((fnOf s fn).hdmBase + off) bs) s = (.error e, s1))
    (he : cxlClass e = some cls) :
    exec (.cxlMemWrite fn off bs) s = .next (runAct (do
      cxlRecord (cxlReq s fn world) ((fnOf s fn).hdmBase + off) cls 15
      chargeCxl (cxlReq s fn world) bs.length) (keepingTraffic s s1)) := by
  refine eventStep_tried_from (m := cxlWrite fn off bs) ?_ (finishes_seq (cxlRecord_finishes _ _ _ _) fun _ =>
    (chargeCxl_traffic _ _).finishes)
  rw [cxlWrite, outcome_bind_ok (outcome_get s), ht]
  dsimp only
  rw [outcome_bind_ok (outcome_allOrError_error h)]
  split
  · contradiction
  · next w hw => cases hw; simp [cxlClass] at he
  · next c hw => cases hw; simp [cxlClass] at he
  · next hw => cases hw; rw [he]

/-- 13 R376: a read at a home slice that serves it. -/
theorem exec_cxlMemRead_serves {n ia : Nat} {x : TlbEntry} {l : LlcLine} (ht : cxlTarget s fn = some world)
    (hia : ia = (fnOf s fn).hdmBase + off) (h : Serves s (cxlReq s fn world) ia x l) (h0 : 0 < n) (hn : ia % 64 + n ≤ 64) :
    ∃ t, exec (.cxlMemRead fn off n) s = .next t ∧ t.mem = s.mem ∧ t.llc = s.llc ∧
      t.hostBox = s.hostBox ++ [.data fn off (lineBytes l.bytes (ia % 512) n) false] := by
  obtain ⟨s1, h1, k1⟩ := h.readRange h0 hn
  obtain ⟨_, s2, h2, k2⟩ := ownLines_accesses (cxlReq s fn world) ia n s1
  obtain ⟨t, h3, k3⟩ := chargeCxl_traffic (cxlReq s fn world) n
    { s2 with hostBox := s2.hostBox ++ [.data fn off (lineBytes l.bytes (ia % 512) n) false] }
  obtain ⟨hmem, hllc, hbox⟩ := (k1.trans k2).keeps
  obtain ⟨hmem', hllc', hbox'⟩ := k3.access.keeps
  rw [maOf_mod_block] at h1
  subst hia
  refine ⟨t, ?_, hmem'.trans hmem, hllc'.trans hllc, hbox'.trans (by rw [hbox])⟩
  rw [exec_cxlMemRead_answers ht h1, runAct_bind_ok h2, runAct_bind_ok (outcome_modify _ _), runAct_eq, h3]

/-- 13 R376: a write of bytes that no trigger watches, at a home slice that serves it. -/
theorem exec_cxlMemWrite_serves {bs : List (BitVec 8)} {ia : Nat} {x : TlbEntry} {l : LlcLine} (ht : cxlTarget s fn = some world)
    (hia : ia = (fnOf s fn).hdmBase + off) (h : Serves s (cxlReq s fn world) ia x l) (h0 : 0 < bs.length)
    (hn : ia % 64 + bs.length ≤ 64) (hc : countersIn s world ia bs.length = []) :
    ∃ t, exec (.cxlMemWrite fn off bs) s = .next t ∧ t.mem = s.mem ∧ t.hostBox = s.hostBox ∧
      t.llc = put s.llc (llcKey (maOf x ia) x.slot) { l with
        bytes := putBytes l.bytes (ia % 512) bs, dirty := l.dirty ||| BitVec.twoPow 8 (ia / 64 % 8)
        owner := (cxlReq s fn world).ctx.getD 0x3ff } := by
  obtain ⟨s1, h1, k1⟩ := h.writeRange h0 hn
  obtain ⟨_, s2, h2, k2⟩ := ownLines_accesses (cxlReq s fn world) ia bs.length s1
  obtain ⟨t, h3, k3⟩ := chargeCxl_traffic (cxlReq s fn world) bs.length s2
  obtain ⟨hmem, hllc, hbox⟩ := ((k1.trans k2).trans k3.access).keeps
  have written : outcome (hostWrite (cxlReq s fn world) ia bs) s = (.ok (), s1) := by
    rw [hostWrite, hostStoreBytes_sector hn]
    exact outcome_asUpdate hc h1
  subst hia
  refine ⟨t, ?_, hmem, hbox, ?_⟩
  · rw [exec_cxlMemWrite_answers ht written, runAct_bind_ok h2, runAct_eq, h3]
  · rw [hllc, ← maOf_mod_block x, ← maOf_sector x]
    rfl

end

/-- 13 R376; 05 R150: the host gives up, unchanged, a line that no trigger watches. -/
theorem exec_cxlBackInvalidateResponse_unchanged {ma w line : Nat} {s : State} (hs : s.snoops.contains (ma / 64) = true)
    (ho : find? s.hostOwned (ma / 64) = some (w, line)) (hc : countersIn s w (64 * line) 64 = []) :
    exec (.cxlBackInvalidateResponse ma []) s = .next { s with
      snoops := dropAll s.snoops (ma / 64), hostOwned := del s.hostOwned (ma / 64) } := by
  refine eventStep_tried (m := snoopAnswer ma []) ?_
  rw [snoopAnswer, outcome_bind_ok (outcome_get s), if_neg (by rw [hs]; decide), outcome_bind_ok (outcome_set _ _), ho]
  dsimp only
  rw [outcome_bind_ok (outcome_attempt _ _), outcome_asUpdate hc (show outcome (each [] _) _ = (.ok (), _) from rfl)]
  rfl

/-! ### Failures of the link and its IDE -/

/-- 20 R490: after the interfaces have left their states comes the record. -/
theorem exec_cxlIdeFailure {s t : State} (h : outcome (failInterfaces fun _ _ => true) { s with ideUp := false } = (.ok (), t)) :
    exec .cxlIdeFailure s = .next (runAct (emitRecord 0 { ErrRec.blank with type := 13, cls := 20, unit := 6 }) t) := by
  refine eventStep_tried_from ?_ (emitRecord_finishes _ _)
  rw [outcome_bind_ok (outcome_modify _ _), outcome_bind_ok h]

/-- 21 R514: the loss of a link that was up. -/
theorem exec_cxlLinkDown_up {s t : State} (hu : s.cxlUp = true)
    (h : outcome (failInterfaces fun _ _ => true) { s with cxlUp := false, snoops := [], hostOwned := [] } = (.ok (), t)) :
    exec .cxlLinkDown s = .next (runAct (platformRecord 0 { ErrRec.blank with unit := 6 }) t) := by
  refine eventStep_tried_from ?_ (emitRecord_finishes _ _)
  rw [outcome_bind_ok (outcome_get s), if_pos hu, outcome_bind_ok (outcome_modify _ _), outcome_bind_ok h]

theorem exec_cxlLinkDown_down {s : State} (hu : s.cxlUp = false) : exec .cxlLinkDown s = .next s := by
  refine eventStep_tried ?_
  rw [outcome_bind_ok (outcome_get s), if_neg (by simp [hu])]
  rfl

/-! ### The ciphers of the NoC (20 R489) -/

theorem exec_nocCipherFailure_nobody (src dst : Nat) (s : State) : exec (.nocCipherFailure src dst []) s = .next { s with
    stopped := (s.stopped.filter fun p => p != (src, dst) && p != (dst, src)) ++ [(src, dst), (dst, src)] } :=
  eventStep_ok (outcome_cipherFailure_nobody src dst s)

/-- The flows of a stopped pair go on from raised counters. -/
theorem exec_cipherFlowResume_stopped {src dst : Nat} {s : State} (h : s.stopped.contains (src, dst) = true) :
    exec (.cipherFlowResume src dst) s = .next { s with
      stopped := s.stopped.filter fun p => p != (src, dst) && p != (dst, src)
      flows := s.flows.map fun e =>
        if flowPorts e.1 = (src, dst) ∨ flowPorts e.1 = (dst, src) then
          (e.1, ⟨Nat.max e.2.sent e.2.accepted + 2 ^ 32, Nat.max e.2.sent e.2.accepted + 2 ^ 32⟩)
        else e } := by
  refine eventStep_ok ((outcome_modify _ _).trans ?_)
  rw [if_pos h]
  simp only [Bool.or_eq_true, decide_eq_true_eq, raiseFlow]

end Sys2Proof.Machine
end

section
/-! The host interface (O59). -/
namespace Sys2Proof.Machine
open Sys2Proof

/-- Settles O59: the registers and the mailbox by their write actions, the CXL.mem accesses by what the home slice
serves, and the interfaces by what leaving a state does. -/
theorem hostInterface : Obligations.HostInterface := by
  refine ⟨?registers, ?accesses, ?interfaces⟩
  case registers =>
    intro fn ctx rr word value world base s1root s2root va n tag ia mw pages s s0 r
    have window {reg : MmioReg} (h : inWindow s fn reg = false) : exec (.registerWrite (fn, reg) value) s = .next s :=
      eventStep_tried (outcome_writeRegister_outside value h)
    refine ⟨fun h he hr => ⟨?_, ?_, ?_⟩, fun h he => ?_, fun h => ?_, ?_, fun h => ⟨?_, ?_, fun hb hw => ?_⟩, ?_, ?_,
      fun h => ⟨window h, window h, window h⟩, fun hv hr => ?_, fun hr => ?_, fun hb hs0 => ?mailbox⟩
    · rintro rfl; exact exec_rangeRegisterWrite_disabled fn ctx rr value s r hr h he 0
    · rintro rfl; exact exec_rangeRegisterWrite_disabled fn ctx rr value s r hr h he 1
    · rintro rfl; exact exec_rangeRegisterWrite_disabled fn ctx rr value s r hr h he 2
    · exact eventStep_ok (outcome_writeRangeRegister_enabled rr word value h he)
    · exact eventStep_ok (outcome_writeRangeRegister_outside rr word value h)
    · exact eventStep_ok (outcome_writeScopePolicy world value s)
    · exact eventStep_tried (outcome_writeRegister_refill value h)
    · exact eventStep_tried (outcome_writeRegister_brim value h)
    · exact eventStep_tried (outcome_writeRegister_control value h hb hw)
    · exact eventStep_tried (outcome_writeRegister_account fn ctx value s)
    · exact eventStep_tried (outcome_writeRegister_level fn ctx value s)
    · exact eventStep_tried ((outcome_writeRegister_queueReset fn value s).trans (outcome_writeReset_fields hv hr))
    · exact eventStep_tried ((outcome_writeRegister_queueReset fn value s).trans (outcome_writeReset_running value hr))
    case mailbox =>
      subst hs0
      refine ⟨?_, ?_, fun hu h0 h1 hc => ?_, fun hf hw => ?_, fun h0 h1 => ?_, ?_⟩
      · exact exec_hostMailboxRequest_hypervisor hb rfl rfl
      · exact exec_hostMailboxRequest_hypervisor hb rfl rfl
      · exact exec_hostMailboxRequest_hypervisor hb rfl (outcome_bindFunction base h0 h1 hu hc)
      · exact exec_hostMailboxRequest_guest hf hb (outcome_guestRequest_framePool va n hw)
      · exact exec_hostMailboxRequest_hypervisor hb rfl (outcome_hypervisorRequest_tagEntry world ia _ h0 h1)
      · exact exec_hostMailboxRequest_hypervisor hb rfl rfl
  case accesses =>
    intro fn off n world ia ma cls bs s s1 r e x l
    refine ⟨fun ht hr hia => ?bound, fun ht => ⟨exec_cxlMemRead_unbound n ht, exec_cxlMemWrite_unbound bs ht⟩,
      fun hs w line ho hc => exec_cxlBackInvalidateResponse_unchanged hs ho hc⟩
    case bound =>
      subst hr
      refine ⟨exec_cxlMemRead_serves ht hia, exec_cxlMemWrite_serves ht hia, ?_⟩
      subst hia
      exact ⟨exec_cxlMemRead_answers ht, exec_cxlMemRead_stops ht, exec_cxlMemWrite_answers ht, exec_cxlMemWrite_stops ht⟩
  case interfaces =>
    intro fn session src dst ctxs s s0 t f
    have failing {p : Nat → Fn → Bool} {u : State} (hs : s.fns = [(fn, f)]) (h0 : fn ≠ 0) (ht : f.tdisp = .locked ∨ f.tdisp = .run)
        (hp : p fn f = true) (h : outcome (leaveTo fn .error) s = (.ok (), u)) : eventStep (tried (failInterfaces p)) s = .next u :=
      eventStep_tried ((outcome_failInterfaces_one hs h0 ht hp).trans h)
    refine ⟨fun hb h0 hf hs0 => ?requests, fun hs h0 ht h => ⟨fun hf => ?_, ?_⟩, fun hs h0 ht hw => ?_, exec_cxlIdeFailure,
      exec_cxlLinkDown_up, exec_cxlLinkDown_down, ?_, exec_cipherFlowResume_stopped⟩
    case requests =>
      subst hf hs0
      refine ⟨fun hu hg hi => ?_, fun hu => ?_, fun hl hg => ⟨fun hs => ?_, fun hs => ?_⟩,
        fun hu hg => ⟨fun hs h => ?_, fun hs => ?_⟩, ?_⟩
      · exact eventStep_serves hb (outcome_lockRequest_unlocked session h0 hu hg hi)
      · exact eventStep_serves hb (outcome_lockRequest_refused session h0 hu)
      · exact eventStep_serves hb (outcome_startRequest_own h0 hl hg hs)
      · exact eventStep_serves hb (outcome_startRequest_other h0 hl hg hs)
      · exact eventStep_serves hb ((outcome_stopRequest_own h0 hu hg hs).trans h)
      · exact eventStep_serves hb (outcome_stopRequest_other h0 hu hg hs)
      · exact eventStep_serves hb (by rw [if_neg h0]; exact outcome_tdispAnswer _ _ _ _)
    · exact failing hs h0 ht (by simp [hf]) h
    · exact failing hs h0 ht (by simp) h
    · have hf : fnOf s fn = f := by simp [fnOf, hs, find?]
      subst hf
      exact failing hs h0 ht (by simp) (outcome_leaveTo_error hw)
    · rintro rfl; exact exec_nocCipherFailure_nobody src dst s

end Sys2Proof.Machine
end

section
/-! SUPPORT. A report of another package (03 R85; 13 R378, R379): how it is taken, and the answer that leaves. -/
namespace Sys2Proof.Machine
open Sys2Proof

/-- A unit that has its power is not woken. -/
theorem outcome_wakeUnit_on {q u : Nat} {s : State} (h : gateOf s q u = .on) : outcome (wakeUnit q u) s = (.ok (), s) := by
  rw [wakeUnit, outcome_bind_ok (outcome_get s)]
  split
  · rfl
  · rw [h]; rfl

/-- A message that leaves by a port is the last of what goes out. -/
theorem outcome_sendRensar (port key : Nat) (h : RensarHdr) (bytes : List (BitVec 8)) (s : State) :
    ∃ t hdr, outcome (sendRensar port key h bytes) s = (.ok (), t) ∧ t.hostBox = s.hostBox ++ [.rensar port hdr bytes] :=
  ⟨_, _, rfl, rfl⟩

/-- What messages within the package leave of what goes to the host and the peers. -/
theorem TrafficOnly.hostBox {s t : State} (h : TrafficOnly s t) : t.hostBox = s.hostBox := by
  unfold TrafficOnly at h
  rw [h]

/-- A powered port sends one flit with its data. -/
theorem outcome_sendCraras_on {pkg : Nat} {s : State} (type : Nat) (xs : List Nat) (h : gateOf s (portFor pkg) 12 = .on) :
    ∃ t hdr, outcome (sendCraras pkg type xs) s = (.ok true, t) ∧
      t.hostBox = s.hostBox ++ [.rensar (portFor pkg) hdr (crarasBytes xs)] := by
  obtain ⟨s1, h1, k1⟩ := sendMessage_traffic none 64 (firmwareRouter 0) (routerOfPort (portFor pkg)) .manage 64 s
  obtain ⟨s2, hdr, h2, box⟩ := outcome_sendRensar (portFor pkg) 64 ⟨type, 1, pkg, Config.packageId, 0, 0, 0, 0, 0, 0, 0, true⟩
    (crarasBytes xs) s1
  obtain ⟨t, ht, kt⟩ := chargeBase_traffic (portFor pkg) none clsRensar 2 s2
  refine ⟨t, hdr, ?_, by rw [kt.hostBox, box, k1.hostBox]⟩
  rw [sendCraras, outcome_bind_ok (outcome_wakeUnit_on h), outcome_bind_ok (outcome_get s), if_neg (by simp [unitOn, h]),
    outcome_bind_ok h1, outcome_bind_ok h2, outcome_bind_ok ht]
  rfl

/-- The answer to another package is a flit. -/
theorem outcome_answerDemand_other {pkg : Nat} {s : State} (floor demand : Nat) (hp : pkg ≠ Config.packageId)
    (hg : gateOf s (portFor pkg) 12 = .on) : ∃ t hdr bs, outcome (answerDemand pkg floor demand) s = (.ok true, t) ∧
      t.hostBox = s.hostBox ++ [.rensar (portFor pkg) hdr bs] := by
  obtain ⟨t, hdr, ht, box⟩ := outcome_sendCraras_on 6
    [Config.packageId, s.sentSeq + 1, rackShare s.rackCap (freshDemands s) floor demand] hg
  refine ⟨{ t with sentSeq := s.sentSeq + 1 }, hdr, _, ?_, box⟩
  rw [answerDemand, outcome_bind_ok (outcome_get s), if_neg hp, outcome_bind_ok ht]
  rfl

/-- What goes on to the firmware goes to no peer. -/
theorem outcome_toFirmware (port : Nat) (s : State) : ∃ t, outcome (toFirmware port) s = (.ok (), t) ∧ t.hostBox = s.hostBox := by
  obtain ⟨t, ht, kt⟩ := sendMessage_traffic none 64 (routerOfPort port) (firmwareRouter 0) .manage 64 s
  exact ⟨_, (outcome_bind_ok ht).trans rfl, kt.hostBox⟩

/-- A message that is taken, and whose work is done at once. -/
theorem outcome_arrival_taken {port key type : Nat} {h : RensarHdr} {s t : State} {m : Act Bool} (hk : Taken s port key type h)
    (hm : outcome m (runAct (setAccepted port key h.ctr) s) = (.ok true, t)) : outcome (arrival port key type h m) s = (.ok (), t) := by
  obtain ⟨on, booted, kind, fresh⟩ := hk
  have accepted : outcome (setAccepted port key h.ctr) s = (.ok (), runAct (setAccepted port key h.ctr) s) := rfl
  rw [arrival, outcome_bind_ok (outcome_wakeUnit_on on), outcome_bind_ok (outcome_get s), if_neg booted,
    if_neg (by simp [unitOn, on]), if_neg (by simp [kind, fresh]), outcome_bind_ok accepted, outcome_bind_ok hm]
  rfl

/-- A report of another package is answered whether or not this package is the coordinator: in CRARAS_DEMAND the operand
`(← answerDemand …)` of `||` is bound, and so performed, before the disjunction is looked at. -/
theorem exec_crarasDemand_answers {port floor demand power : Nat} {h : RensarHdr} {s : State} (hk : Taken s port 64 5 h)
    (hp : h.src ≠ Config.packageId) (hg : gateOf s (portFor h.src) 12 = .on) :
    ∃ t hdr bs, exec (.crarasDemand (port, h) floor demand power) s = .next t ∧
      t.hostBox = s.hostBox ++ [.rensar (portFor h.src) hdr bs] := by
  let noted := runAct (noteDemand h.src floor demand) (runAct (setAccepted port 64 h.ctr) s)
  obtain ⟨u, hdr, bs, hu, box⟩ := outcome_answerDemand_other (s := noted) floor demand hp hg
  obtain ⟨t, ht, kept⟩ := outcome_toFirmware port u
  refine ⟨t, hdr, bs, eventStep_ok (outcome_arrival_taken hk ?_), kept.trans box⟩
  have note : outcome (noteDemand h.src floor demand) (runAct (setAccepted port 64 h.ctr) s) = (.ok (), noted) := rfl
  rw [outcome_bind_ok note, outcome_bind_ok (outcome_get _), outcome_bind_ok hu, if_pos (by simp), outcome_bind_ok ht]
  rfl

end Sys2Proof.Machine
end

section
/-! Ticks, the meter and the rack (O56). -/
namespace Sys2Proof.Machine
open Sys2Proof

/-- The first report of the package with the next identifier. Until this package reports too, that one alone has, and this
package does not coordinate. -/
def laterReport : RensarHdr := ⟨5, 1, 0, Config.packageId + 1, 0, 0, 0, 0, 0, 1, 0, true⟩

theorem laterReport_taken : Taken State.reset 3 64 5 laterReport := ⟨rfl, by decide, rfl, rfl⟩

/-- The state after reset with that report noted: this package has not reported, and does not coordinate. -/
def laterNoted : State :=
  { runAct (setAccepted 3 64 laterReport.ctr) State.reset with
    demands := put State.reset.demands laterReport.src (State.reset.time, 5, 6) }

theorem laterNoted_coordinates : coordinates laterNoted = false := by
  show coordinates { State.reset with demands := [(Config.packageId + 1, (0, 5, 6))] } = false
  simp [coordinates, freshDemands]

/-- Refutes O56: after reset, the first report of another package comes to this one, which has not reported itself and so
does not coordinate. The statement has the report noted and handed to the firmware, and nothing sent; the model's
CRARAS_DEMAND answers it with a grant all the same, as `exec_crarasDemand_answers` says. -/
theorem not_meterEvents : ¬ Obligations.MeterEvents := by
  unfold Obligations.MeterEvents
  rintro ⟨-, rack⟩
  obtain ⟨-, -, -, demand, -⟩ := rack State.reset (runAct (setAccepted 3 64 laterReport.ctr) State.reset) laterNoted
    0 0 0 0 5 6 0 3 0 0 false (newPartition [0] none 0 0 0 0 0) laterReport
  have claimed := (demand laterReport_taken rfl rfl).1 laterNoted_coordinates
  obtain ⟨t, hdr, bs, answered, sent⟩ := exec_crarasDemand_answers (floor := 5) (demand := 6) (power := 0) laterReport_taken
    (Nat.succ_ne_self Config.packageId) rfl
  obtain ⟨u, hu, silent⟩ := outcome_toFirmware 3 laterNoted
  rw [runAct_eq, hu, answered] at claimed
  have same : t = u := by injection claimed
  have sent_nothing : t.hostBox = [] := same ▸ silent
  rw [sent] at sent_nothing
  simp at sent_nothing

end Sys2Proof.Machine
end

section
/-! SUPPORT. An instruction whose effect ends in a change of its team, and one that leaves its arm waiting. -/
namespace Sys2Proof.Machine
open Sys2Proof

/-- The team of an instruction is there. -/
theorem cxOf_team {s : State} {tid arm : Nat} {bt : Bt} {c : Cx} (h : cxOf s tid arm bt = some c) :
    find? s.teams tid = some c.t := (cxOf_some h).2.2.2.1

/-- The block of an instruction is there. -/
theorem cxOf_block {s : State} {tid arm : Nat} {bt : Bt} {c : Cx} (h : cxOf s tid arm bt = some c) :
    find? s.blocks c.t.bid = some c.b := (cxOf_some h).2.2.2.2.2.1

@[simp] theorem find?_withTeam_self (s : State) (i : Nat) (x : Team) : find? (s.withTeam i x).teams i = some x :=
  find?_put_self ..

@[simp] theorem withTeam_withTeam (s : State) (i : Nat) (x y : Team) : (s.withTeam i x).withTeam i y = s.withTeam i y := by
  simp [State.withTeam, put_put]

theorem movedOn_withTeam (s : State) (c : Cx) (g : Sig) (x u : Team) (n : Next) :
    movedOn (s.withTeam c.tid x) c g u n = movedOn s c g u n := withTeam_withTeam ..

/-- The change of a team that is there. -/
theorem outcome_modTeam_at {i : Nat} {f : Team → Team} {s : State} {t : Team} (h : find? s.teams i = some t) :
    outcome (modTeam i f) s = (.ok (), s.withTeam i (f t)) := by
  rw [outcome_modTeam, adjust, h]
  rfl

/-- The change of an arm that is there. -/
theorem outcome_modArm_at {i a : Nat} {f : Arm → Arm} {s : State} {t : Team} {x : Arm} (h : find? s.teams i = some t)
    (hx : armOf t a = some x) : outcome (modArm i a f) s = (.ok (), s.withTeam i (withArm t a (some (f x)))) := by
  rw [modArm, outcome_modTeam_at h, hx]

/-- The arm of an instruction changed in its team as it stands. -/
theorem outcome_modArm_set {c : Cx} {f : Arm → Arm} {s : State} {t : Team} (h : find? s.teams c.tid = some t) :
    outcome (modArm c.tid c.arm f) s = (.ok (), s.withTeam c.tid (armSet c t f)) :=
  outcome_modTeam_at h

/-- An instruction whose effect ends in a change of its team completes from the state before that change. -/
theorem teamStep_changes {g : Cx → Sig} {s s1 : State} {c : Cx} {n : Next} {u : Team} {body : Cx → Act Next}
    (h : Prepared g s c) (hb : outcome (body c) s = (.ok n, s1.withTeam c.tid u)) :
    Completes (teamStep g body s) s1 c (g c) u n := by
  obtain ⟨t, ht, charged⟩ := teamStep_completes h hb (find?_withTeam_self ..)
  exact ⟨t, ht, movedOn_withTeam .. ▸ charged⟩

/-- An instruction that is ready to perform comes to what its effect, tried once, comes to. -/
theorem teamStep_settles {g : Cx → Sig} {s s1 : State} {c : Cx} {r : Except Stop Next} {body : Cx → Act Next} (h : Prepared g s c)
    (hb : outcome (steady (body c)) s = (r, s1)) : teamStep g body s = .next (runAct (settle c (g c) 0 r) s1) := by
  have ready : outcome (do (g c).early; residency c (g c)) s = (.ok (), s) := by
    rw [outcome_bind_ok h.early]
    exact outcome_residency h.here h.resident
  have whole : ({ c with gm := c.gm &&& ~~~(0 : Mask) } : Cx) = c := by rw [and_not_zero]
  have left : redoLanes c = c.gm := by simp [redoLanes, h.fresh]
  have prior : ∀ d, priorTrap c 0 d = none := fun d => by simp [priorTrap, h.fresh]
  have unspilled : lostSpill c = none := by simp [lostSpill, h.fresh]
  rw [teamStep, h.focus]
  simp only [h.here]
  congr 1
  rw [perform, runAct_bind_ok (outcome_get s)]
  simp only [h.legal, Option.map_none, unspilled]
  rw [runAct_bind_ok (outcome_attempt _ _), outcome_steady ready]
  dsimp only
  rw [runAct_bind_ok (outcome_get s)]
  simp only [h.here]
  rw [performLanes]
  simp only [left]
  rw [show poisonedLanes ({ c with gm := c.gm } : Cx) (g c) = 0 from h.clean, whole, prior]
  simp only [Option.filter_none]
  rw [runAct_bind_ok (outcome_attempt _ _), hb]

/-- A wait for something else than room at a slice leaves what was done before it. -/
theorem outcome_steady_wait {α : Type} {m : Act α} {s t : State} {w : Wait} (h : outcome m s = (.error (.wait w), t))
    (hw : w ≠ .refused) : outcome (steady m) s = (.error (.wait w), t) := by
  show steady m s = _
  unfold steady
  rw [show m.run.run s = _ from h]
  cases w with
  | refused => exact absurd rfl hw
  | _ => rfl

/-- An instruction that is to wait for something else than room at a slice: its arm waits from the state that its effect
leaves (02 R34). -/
theorem teamStep_holds {g : Cx → Sig} {s s1 : State} {c : Cx} {w : Wait} {body : Cx → Act Next} (h : Prepared g s c)
    (hb : outcome (body c) s = (.error (.wait w), s1)) (hw : w ≠ .refused) :
    teamStep g body s = .next (runAct (modArm c.tid c.arm fun x => { x with wait := w }) s1) :=
  teamStep_settles h (outcome_steady_wait hb hw)

theorem outcome_raise {α : Type} (x : Cause) (s : State) : outcome (raise x : Act α) s = (.error (.trap (wholeTrap x)), s) := rfl

theorem outcome_require_true {p : Prop} [Decidable p] (x : Cause) (s : State) (h : p) :
    outcome (require (decide p) x) s = (.ok (), s) := by
  rw [require, if_pos (by simpa using h)]
  rfl

theorem outcome_require_false {p : Prop} [Decidable p] (x : Cause) (s : State) (h : ¬ p) :
    outcome (require (decide p) x) s = (.error (.trap (wholeTrap x)), s) := by
  rw [require, if_neg (by simpa using h)]
  rfl

end Sys2Proof.Machine
end

section
/-! SUPPORT. The stack of an arm (02 R45, 18 R434), and calls (08 R222-R224). -/
namespace Sys2Proof.Machine
open Sys2Proof

theorem outcome_pushOn_room {c : Cx} {k : Nat} {e : StackEntry} {s : State} {t : Team} (ht : find? s.teams c.tid = some t)
    (hr : hasRoom t k) : outcome (pushOn c k e) s = (.ok (), s.withTeam c.tid (pushed t k e)) := by
  have room : outcome (roomForEntry c) s = (.ok (), s) := by
    rw [roomForEntry, outcome_bind_ok (outcome_get s), ht]
    dsimp only
    rw [if_neg (Nat.not_le.mpr hr.2)]
    rfl
  rw [pushOn, outcome_bind_ok (outcome_get s), ht]
  dsimp only
  rw [outcome_bind_ok (outcome_require_true _ s hr.1), outcome_bind_ok room, outcome_modTeam_at ht]
  rfl

theorem outcome_pushOn_full {c : Cx} {k : Nat} {s : State} {t : Team} (e : StackEntry) (ht : find? s.teams c.tid = some t)
    (hf : 256 ≤ stackDepth (stackOf t k)) : outcome (pushOn c k e) s = (.error (.trap (wholeTrap .stackOverflow)), s) := by
  rw [pushOn, outcome_bind_ok (outcome_get s), ht]
  exact outcome_bind_error (outcome_require_false _ s (Nat.not_lt.mpr hf))

/-- A push goes onto the stack that the arm uses. -/
theorem outcome_push_at {c : Cx} {s : State} {t : Team} (e : StackEntry) (ht : find? s.teams c.tid = some t) :
    outcome (push c e) s = outcome (pushOn c (stackIx t c.arm) e) s := by
  rw [push, outcome_bind_ok (outcome_get s), ht]

/-- The CALL entry of a call: the resume place, the mode, the window base and the mask (08 R223). -/
def callEntry (c : Cx) : StackEntry :=
  ⟨.call, false, (nextPlace c.a.pc c.a.slot).2, c.a.mode, 0, (nextPlace c.a.pc c.a.slot).1, c.t.w, c.a.exec, 0⟩

theorem outcome_callBody {c : Cx} {s s1 : State} {u : Team} {target frame : Nat} (hw : c.t.w + 8 * frame ≤ 4088)
    (hp : outcome (push c (callEntry c)) s = (.ok (), s1)) (hu : find? s1.teams c.tid = some u) :
    outcome (callBody target frame c) s = (.ok (.to target), s1.withTeam c.tid { u with w := c.t.w + 8 * frame }) := by
  rw [callBody, outcome_bind_ok (outcome_require_true _ s hw)]
  exact (outcome_bind_ok hp).trans (outcome_bind_ok (outcome_modTeam_at hu))

theorem outcome_alignedTarget {c : Cx} {a : Opnd} (s : State) (h : (opScalar c a).toNat % 32 = 0) :
    outcome (alignedTarget c a) s = (.ok (opScalar c a).toNat, s) := by
  rw [alignedTarget, outcome_bind_ok (outcome_require_true _ s h)]
  rfl

/-- The pop of the top entry of the stack that the arm uses. -/
theorem outcome_pop_at {c : Cx} {s : State} {v : Team} (hv : find? s.teams c.tid = some v) :
    outcome (pop c) s = (.ok (), s.withTeam c.tid (popped v (stackIx v c.arm))) := by
  rw [pop, outcome_bind_ok (outcome_get s), hv]
  exact outcome_modTeam_at hv

theorem outcome_retBody {c : Cx} {s s1 s2 : State} {u v : Team} {e : StackEntry}
    (hk : outcome (topKind c .call) s = (.ok e, s1)) (hu : find? s1.teams c.tid = some u)
    (hr : outcome (restoreResident c 512)
      (s1.withTeam c.tid { armSet c u fun x => { x with mode := e.mode } with w := e.pending }) = (.ok (), s2))
    (hv : find? s2.teams c.tid = some v) :
    outcome (retBody c) s = (.ok (.back e.rejoin e.slot), s2.withTeam c.tid (popped v (stackIx v c.arm))) := by
  rw [retBody, outcome_bind_ok hk, outcome_bind_ok (outcome_modArm_set hu),
    outcome_bind_ok (outcome_modTeam_at (find?_withTeam_self ..)), withTeam_withTeam, outcome_bind_ok hr,
    outcome_bind_ok (outcome_pop_at hv)]
  rfl

/-- Settles O28: a push by the room on its stack, the calls by what their push leaves, and RET by the entry that it takes
back. -/
theorem callsAndReturns : Obligations.CallsAndReturns := by
  refine ⟨fun s c e hc => ?stack, fun a frame off s s1 s2 c u v e hw => ⟨?call, ?calli, ?ret⟩⟩
  case stack =>
    have ht := cxOf_team hc
    exact ⟨fun room => (outcome_push_at e ht).trans (outcome_pushOn_room ht room),
      fun full => (outcome_push_at e ht).trans (outcome_pushOn_full e ht full)⟩
  case call =>
    intro h hp hu
    exact teamStep_changes h (outcome_callBody hw hp hu)
  case calli =>
    intro h aligned hp hu
    refine teamStep_changes h ?_
    rw [outcome_bind_ok (outcome_alignedTarget s aligned)]
    exact outcome_callBody hw hp hu
  case ret =>
    intro h hk hu hr hv
    exact teamStep_changes h (outcome_retBody hk hu hr hv)

end Sys2Proof.Machine
end

section
/-! SUPPORT. BRD and JOIN (02 R40-R43, R196; 08 R220, R221). -/
namespace Sys2Proof.Machine
open Sys2Proof

/-- A team with its mark counter at another count. -/
def Team.marked (t : Team) (m : BitVec 48) : Team := { t with mark := m }

/-- A team after charges: itself, but for its mark counter. -/
theorem ChargedOnly.team {s t : State} {k : Nat} {u : Team} (h : ChargedOnly s t) (hu : find? s.teams k = some u) :
    ∃ m, find? t.teams k = some (u.marked m) := by
  have e := h.teams k
  rw [hu] at e
  obtain ⟨w, hw, unmarked⟩ := Option.map_eq_some_iff.mp e
  have same : w.unmarked.marked w.mark = u.unmarked.marked w.mark := congrArg (·.marked w.mark) unmarked
  exact ⟨w.mark, hw.trans (congrArg some same)⟩

theorem armOf_cases {a : Nat} (h : a < 2) : a = 0 ∨ a = 1 := by omega

/-- The two arms of a team that a BRD has split: both with the mode, the join target and the rest of the arm that split. -/
def splitArm (c : Cx) (pc slot : Nat) (m : Mask) : Arm :=
  ⟨pc, slot, m, c.a.mode, c.a.jt, Stack.empty, [], .none, [], false, none, pcOf c.a.pc c.a.slot, none, c.a.fence, 0,
    c.a.bundle, c.a.owed, c.a.given⟩

def splitInto (c : Cx) (u : Team) (taken fall : Mask) (target : Nat) : Team :=
  { u with
    split := true
    a0 := some (splitArm c (nextPlace c.a.pc c.a.slot).1 (nextPlace c.a.pc c.a.slot).2 fall)
    a1 := some (splitArm c target 1 taken) }

theorem outcome_splitTeam {c : Cx} {s s1 : State} {u : Team} {taken fall : Mask} {target rejoin : Nat}
    (hp : outcome (push c ⟨.split, true, 0, c.a.mode, 0, rejoin, 0, c.a.exec, 0⟩) s = (.ok (), s1))
    (hu : find? s1.teams c.tid = some u) :
    outcome (splitTeam c taken fall target rejoin) s = (.ok (), s1.withTeam c.tid (splitInto c u taken fall target)) :=
  (outcome_bind_ok hp).trans (outcome_modTeam_at hu)

section
variable {c : Cx} {s : State} {m off : Nat} {inv : Bool}

theorem outcome_brdBody_none (h : branchLanes c m inv = 0) : outcome (brdBody m inv off c) s = (.ok .on, s) := by
  rw [brdBody]
  rw [if_pos h]
  rfl

theorem outcome_brdBody_all (h : branchLanes c m inv ≠ 0) (hf : c.a.exec &&& ~~~(branchLanes c m inv) = 0) :
    outcome (brdBody m inv off c) s = (.ok (.to (branchTarget c 20 off)), s) := by
  rw [brdBody]
  rw [if_neg h, if_pos hf]
  rfl

variable {s1 : State} {u : Team} {rejoin : Nat}

theorem outcome_brdBody_split (h : branchLanes c m inv ≠ 0) (hf : c.a.exec &&& ~~~(branchLanes c m inv) ≠ 0)
    (hj : c.a.jt = some rejoin) (hs : c.t.split = false)
    (hp : outcome (push c ⟨.split, true, 0, c.a.mode, 0, rejoin, 0, c.a.exec, 0⟩) s = (.ok (), s1))
    (hu : find? s1.teams c.tid = some u) :
    outcome (brdBody m inv off c) s = (.ok .gone, s1.withTeam c.tid
      (splitInto c u (branchLanes c m inv) (c.a.exec &&& ~~~(branchLanes c m inv)) (branchTarget c 20 off))) := by
  rw [brdBody]
  rw [if_neg h, if_neg hf, hj]
  dsimp only
  rw [if_pos (by simp [hs]), outcome_bind_ok (outcome_splitTeam hp hu)]
  rfl

theorem outcome_brdBody_nested (h : branchLanes c m inv ≠ 0) (hf : c.a.exec &&& ~~~(branchLanes c m inv) ≠ 0)
    (hj : c.a.jt = some rejoin) (hs : c.t.split = true)
    (hp : outcome (push c ⟨.split, false, 0, c.a.mode, 0, rejoin, branchTarget c 20 off, branchLanes c m inv, 0⟩) s = (.ok (), s1))
    (hu : find? s1.teams c.tid = some u) :
    outcome (brdBody m inv off c) s = (.ok .on, s1.withTeam c.tid
      (armSet c u fun x => { x with exec := c.a.exec &&& ~~~(branchLanes c m inv) })) := by
  rw [brdBody]
  rw [if_neg h, if_neg hf, hj]
  dsimp only
  rw [if_neg (by simp [hs])]
  exact (outcome_bind_ok hp).trans (outcome_bind_ok (outcome_modArm_set hu))

end

/-- A team that has completed an instruction stands with its arm moved on, but for its mark counter. -/
theorem Completes.team {o : Host.Outcome State Fault Refusal} {s : State} {c : Cx} {g : Sig} {u : Team} {n : Next} {x : Arm}
    (h : Completes o s c g u n) (hx : armOf u c.arm = some x) :
    ∃ t k, o = .next t ∧
      find? t.teams c.tid = some ((withArm u c.arm (some (arrived c g n x))).marked k) := by
  obtain ⟨t, ho, charged⟩ := h
  have moved : find? (movedOn s c g u n).teams c.tid = some (withArm u c.arm (some (arrived c g n x))) := by
    rw [movedOn, hx]
    exact find?_withTeam_self ..
  obtain ⟨k, hk⟩ := charged.team moved
  exact ⟨t, k, ho, hk⟩

section
variable {c : Cx} {s : State}

theorem outcome_dualTop_unsplit (h : c.t.split = false) : outcome (dualTop c) s = (.ok (), s) := by
  rw [dualTop, if_neg (by simp [h])]
  rfl

/-- The dual SPLIT entry is not spilled. -/
theorem outcome_dualTop_held {e : StackEntry} {r : List StackEntry} (ht : find? s.teams c.tid = some c.t) (h : c.t.split = true)
    (hw : c.t.stack.hw = e :: r) : outcome (dualTop c) s = (.ok (), s) := by
  have top : outcome (topOf c 0) s = (.ok (some e), s) := by
    rw [topOf, outcome_bind_ok (outcome_get s), ht]
    simp only [stackOf, if_true, hw]
    rfl
  rw [dualTop, if_pos h, outcome_bind_ok top]
  rfl

/-- A JOIN that is not the one of the dual SPLIT entry. -/
theorem outcome_joinBody_elsewhere (hc : cxOf s c.tid c.arm c.bt = some c) (hd : outcome (dualTop c) s = (.ok (), s))
    (ha : atDual c.t c.a = false) : outcome (joinBody c) s = (.ok .on, s) := by
  obtain ⟨-, -, -, ht, hx, -⟩ := cxOf_some hc
  rw [joinBody, outcome_bind_ok hd, outcome_bind_ok (outcome_get s), ht]
  dsimp only
  rw [hx]
  dsimp only
  rw [if_pos (by simp [ha])]
  rfl

/-- The arm at its JOIN, and its team. -/
def joiningArm (c : Cx) : Arm := { c.a with wait := .join, windows := [] }
def atJoin (c : Cx) : Team := withArm c.t c.arm (some (joiningArm c))

theorem atJoin_stack (h : c.arm < 2) (m : BitVec 48) : ((atJoin c).marked m).stack = c.t.stack := by
  rcases armOf_cases h with e | e <;> simp [Team.marked, atJoin, withArm, e]

theorem presentLanes_atJoin (h : c.arm < 2) (m : BitVec 48) : presentLanes ((atJoin c).marked m) = presentLanes c.t := by
  rcases armOf_cases h with e | e <;> simp [presentLanes, lanesIn, Team.marked, atJoin, withArm, e]

/-- At the JOIN of the dual SPLIT entry the arm begins to wait and is charged, and the last of the arms makes them one. -/
theorem outcome_joinBody_dual (hc : cxOf s c.tid c.arm c.bt = some c) (hd : outcome (dualTop c) s = (.ok (), s))
    (ha : atDual c.t c.a = true) :
    ∃ t m, find? t.teams c.tid = some ((atJoin c).marked m) ∧
      outcome (joinBody c) s = outcome (if allJoined (atJoin c) then do
        rejoinTeam c.tid
        throw (.wait .none) else throw (.wait .join)) t := by
  obtain ⟨-, -, -, ht, hx, -⟩ := cxOf_some hc
  obtain ⟨t, charge, charged⟩ := chargesOnly_chargeFor c joinSig (s.withTeam c.tid (atJoin c))
  obtain ⟨m, hm⟩ := charged.team (find?_withTeam_self ..)
  refine ⟨t, m, hm, ?_⟩
  rw [joinBody, outcome_bind_ok hd, outcome_bind_ok (outcome_get s), ht]
  dsimp only
  rw [hx]
  dsimp only
  rw [if_neg (by simp [ha]), outcome_bind_ok (outcome_modArm_at ht hx)]
  refine (outcome_bind_ok charge).trans ?_
  rw [outcome_bind_ok (outcome_get t), hm]
  rfl

theorem atDual_held {e : StackEntry} {r : List StackEntry} (hs : c.t.split = true) (hw : c.t.stack.hw = e :: r)
    (hd : stackDepth c.a.stack = 0) (hk : e.kind = .split) (he : e.dual = true) (hj : e.rejoin = c.a.pc) :
    atDual c.t c.a = true := by
  simp [atDual, hs, hw, hd, hk, he, hj]

/-- An arm waits for the other at the JOIN of the dual entry. -/
theorem exec_join_waits {x : Arm} (h : Prepared (fun _ => joinSig) s c) (hd : outcome (dualTop c) s = (.ok (), s))
    (ha : atDual c.t c.a = true) (hx : armOf c.t (1 - c.arm) = some x) (hw : x.wait ≠ .join) (hc : c.arm < 2) :
    ∃ v m, exec .join s = .next v ∧ find? v.teams c.tid = some ((atJoin c).marked m) := by
  obtain ⟨t, m, ht, body⟩ := outcome_joinBody_dual h.here hd ha
  have alone : allJoined (atJoin c) = false := by
    rcases armOf_cases hc with e | e <;> simp_all [allJoined, atJoin, armOf, withArm]
  have waits : outcome (joinBody c) s = (.error (.wait .join), t) := by
    rw [body, if_neg (by simp [alone])]
    rfl
  have stands : armOf ((atJoin c).marked m) c.arm = some (joiningArm c) := armOf_withArm c.t ..
  have still : withArm ((atJoin c).marked m) c.arm (some (joiningArm c)) = (atJoin c).marked m := by
    rcases armOf_cases hc with e | e <;> simp [atJoin, withArm, e, Team.marked]
  refine ⟨_, m, teamStep_holds h waits (by decide), ?_⟩
  rw [runAct_eq, outcome_modArm_at ht stands, find?_withTeam_self]
  exact congrArg some still

/-- The arm that two arms become: the fall-through arm with the lanes of both that have not exited, after its JOIN. -/
def joinedArm (t : Team) (a b : Arm) : Arm :=
  { a with
    pc := (nextPlace a.pc a.slot).1, slot := (nextPlace a.pc a.slot).2, exec := (a.exec ||| b.exec) &&& presentLanes t
    stack := Stack.empty, windows := [], wait := .none, arrived := [], came := pcOf a.pc a.slot
    fence := widerFence a.fence b.fence, calls := 0, bundle := none }

def rejoined (t : Team) (a b : Arm) : Team :=
  { t with
    split := false, stack := ⟨t.stack.hw.tail, t.stack.spilled⟩, a0 := some (joinedArm t a b), a1 := none, last := 0
    posted := t.posted.map fun p => (p.1, 2) }

theorem outcome_rejoinTeam {tid : Nat} {t : Team} {a b : Arm} (ht : find? s.teams tid = some t) (h0 : t.a0 = some a)
    (h1 : t.a1 = some b) : outcome (rejoinTeam tid) s = (.ok (), s.withTeam tid (rejoined t a b)) := by
  rw [rejoinTeam, outcome_modTeam_at ht]
  simp only [h0, h1, rejoined, joinedArm]

/-- The team that two arms at their JOIN become, whichever of them has come last. -/
theorem exec_join_rejoins {a b : Arm} (h : Prepared (fun _ => joinSig) s c) (hd : outcome (dualTop c) s = (.ok (), s))
    (hat : atDual c.t c.a = true) (h0 : (atJoin c).a0 = some a) (h1 : (atJoin c).a1 = some b) (ha : a.wait = .join)
    (hb : b.wait = .join) : ∃ v m, exec .join s = .next v ∧ find? v.teams c.tid = some (rejoined ((atJoin c).marked m) a b) := by
  obtain ⟨t, m, ht, body⟩ := outcome_joinBody_dual h.here hd hat
  have waits : outcome (joinBody c) s = (.error (.wait .none), t.withTeam c.tid (rejoined ((atJoin c).marked m) a b)) := by
    rw [body, if_pos (by simp [allJoined, h0, h1, ha, hb]), outcome_bind_ok (outcome_rejoinTeam ht h0 h1)]
    rfl
  refine ⟨_, m, teamStep_holds h waits (by decide), ?_⟩
  rw [runAct_eq, outcome_modArm_set (find?_withTeam_self ..), find?_withTeam_self]
  by_cases e : c.arm = 0 <;> simp [armSet, armOf, withArm, rejoined, joinedArm, e]

end

/-- Settles O27: BRD by which lanes it takes and whether the team is split, and JOIN by the dual SPLIT entry and what the
other arm does. -/
theorem divergence : Obligations.Divergence := by
  refine ⟨?brd, ?join⟩
  case brd =>
    rintro m off rejoin inv s s1 c u g rfl h
    refine ⟨fun hn => ?_, fun hn hf => ?_, fun hn hf hj hs hp hu ha => ?split, fun hn hf hj hs hp hu => ?_⟩
    · exact teamStep_moves h (outcome_brdBody_none hn)
    · exact teamStep_moves h (outcome_brdBody_all hn hf)
    · have done := teamStep_changes h (outcome_brdBody_split (off := off) hn hf hj hs hp hu)
      obtain ⟨v, k, ho, hv⟩ := done.team (show armOf (splitInto ..) c.arm = some _ by rw [ha]; rfl)
      rw [ha] at hv
      exact ⟨v, ho, _, _, _, hv, rfl, rfl, rfl, rfl, rfl, rfl, rfl, rfl, rfl, rfl, rfl, rfl⟩
    · exact teamStep_changes h (outcome_brdBody_nested hn hf hj hs hp hu)
  case join =>
    rintro s c g e r rfl h
    have ht := cxOf_team h.here
    refine ⟨fun hs => ?_, fun hs hw ha => ?_, fun hs hw hd hk he hj hx hc => ?_, fun hs hw hd hk he hj hc x hx hwx => ?_⟩
    · have elsewhere : atDual c.t c.a = false := by simp [atDual, hs]
      exact teamStep_moves h (outcome_joinBody_elsewhere h.here (outcome_dualTop_unsplit hs) elsewhere)
    · exact teamStep_moves h (outcome_joinBody_elsewhere h.here (outcome_dualTop_held ht hs hw) ha)
    · obtain ⟨x, hx, hwx⟩ := hx
      obtain ⟨v, m, ho, hv⟩ := exec_join_waits h (outcome_dualTop_held ht hs hw) (atDual_held hs hw hd hk he hj) hx hwx hc
      refine ⟨v, ho, _, _, hv, ?_, armOf_withArm c.t .., rfl, rfl, ?_⟩
      · rcases armOf_cases hc with e | e <;> simp [Team.marked, atJoin, withArm, e, hs]
      · rcases armOf_cases hc with e | e <;> simp [Team.marked, atJoin, withArm, armOf, e]
    · have present (m) := presentLanes_atJoin hc m
      have stack (m) := atJoin_stack hc m
      have rejoins {a b : Arm} := @exec_join_rejoins c s a b h (outcome_dualTop_held ht hs hw) (atDual_held hs hw hd hk he hj)
      rcases armOf_cases hc with e | e
      · obtain ⟨v, m, ho, hv⟩ := rejoins (a := joiningArm c) (b := x) (by simp [atJoin, withArm, e])
          (by simpa [atJoin, withArm, e, armOf] using hx) rfl hwx
        exact ⟨v, ho, _, _, hv, rfl, rfl, rfl, by simp [rejoined, stack, hw], by simp [joinedArm, joiningArm, present],
          fun _ => ⟨rfl, rfl⟩⟩
      · obtain ⟨v, m, ho, hv⟩ := rejoins (a := x) (b := joiningArm c) (by simpa [atJoin, withArm, e, armOf] using hx)
          (by simp [atJoin, withArm, e]) hwx rfl
        exact ⟨v, ho, _, _, hv, rfl, rfl, rfl, by simp [rejoined, stack, hw],
          by simp [joinedArm, joiningArm, present, BitVec.or_comm],
          fun z => absurd z (by omega)⟩

end Sys2Proof.Machine
end

section
/-! SUPPORT. Suppression (02 R48): bodies that do nothing outside a D slot in an arm without a live lane. -/
namespace Sys2Proof.Machine
open Sys2Proof

/-- The body only moves the arm on when it is performed outside a D slot by an arm without a live lane. -/
def Idles (body : Cx → Act Next) : Prop :=
  ∀ (c : Cx) (s : State), c.bt ≠ .d → suppressed c = true → outcome (body c) s = (.ok .on, s)

/-- The instruction is performed with the declaration g and such a body. -/
def Suppresses (i : Instr) (g : Cx → Sig) : Prop := ∃ body, exec i = teamStep g body ∧ Idles body

theorem storeBody_idles (align n : Nat) (place : Cx → Nat → Nat) (acc : Cx → Nat → List (BitVec 8) → Act Unit)
    (rel : Cx → Act Unit) (a b : Opnd) : Idles (storeBody align n place acc rel a b) := fun c s hd hs => by
  rw [storeBody, if_neg hd, if_pos hs]
  rfl

theorem atomicBody_idles (fn : AtomicFn) (d a b : Opnd) : Idles (atomicBody fn d a b) := fun c s hd hs => by
  rw [atomicBody, if_neg hd, if_pos (by simp [hs])]
  rfl

theorem cmdBody_idles (k : OpKind) (d a b : Opnd) : Idles (cmdBody k d a b) := fun c s _ hs => by
  rw [cmdBody, if_pos hs]
  rfl

theorem depnBody_idles (d a b : Opnd) : Idles (depnBody d a b) := fun c s _ hs => by
  rw [depnBody, if_pos hs]
  rfl

theorem mstrBody_idles (a : Opnd) : Idles (mstrBody a) := fun c s _ hs => by
  rw [mstrBody, if_pos hs]
  rfl

theorem signalBody_idles (sc : Nat) (a b : Opnd) : Idles (signalBody sc a b) := fun c s _ hs => by
  rw [signalBody, if_pos hs]
  rfl

theorem stmapBody_idles (r : Nat) (a b : Opnd) : Idles (stmapBody r a b) := fun c s _ hs => by
  rw [stmapBody, if_pos hs]
  rfl

theorem aaddkBody_idles (d a b : Opnd) : Idles (aaddkBody d a b) := fun c s _ hs => by
  rw [aaddkBody, if_pos (by simp [hs])]
  rfl

theorem stkBody_idles (sc : Nat) (a b : Opnd) : Idles (stkBody sc a b) := fun c s _ hs => by
  rw [stkBody, if_pos hs]
  rfl

theorem tspawnBody_idles (d a : Opnd) : Idles (tspawnBody d a) := fun c s _ hs => by
  rw [tspawnBody, if_pos hs]
  rfl

theorem launchBody_idles (a : Opnd) : Idles (launchBody a) := fun c s _ hs => by
  rw [launchBody, if_pos hs]
  rfl

theorem trigBody_idles (d a : Opnd) : Idles (trigBody d a) := fun c s _ hs => by
  rw [trigBody, if_pos hs]
  rfl

theorem seqnewBody_idles (d : Opnd) : Idles (seqnewBody d) := fun c s _ hs => by
  rw [seqnewBody, if_pos (by simp [hs])]
  rfl

theorem seqendBody_idles (a b : Opnd) : Idles (seqendBody a b) := fun c s _ hs => by
  rw [seqendBody, if_pos hs]
  rfl

theorem eopBody_idles (d : Opnd) (p : Nat) : Idles (eopBody d p) := fun c s _ hs => by
  rw [eopBody, if_pos hs]
  rfl

/-- An engine command is its body under its declaration. -/
theorem exec_of_cmdForm {i : Instr} {k : OpKind} {op : Nat} {d a b : Opnd} (h : cmdForm i = some (k, op, d, a, b)) :
    exec i = teamStep (fun _ => cmdSig op (runRegs k) d a b) (cmdBody k d a b) := by
  unfold cmdForm at h
  split at h <;> cases h <;> rfl

/-- A read that also writes is an atomic (09 R276). -/
theorem exec_of_readForm {i : Instr} {f : ReadForm} (h : readForm i = some f) (hw : f.writes = true) :
    ∃ fn d a b, exec i = teamStep f.sig (atomicBody fn d a b) := by
  unfold readForm at h
  split at h <;> cases h
  case h_1 | h_2 | h_3 | h_4 => cases hw
  all_goals exact ⟨_, _, _, _, rfl⟩

theorem suppresses_of_storeForm {i : Instr} {f : StoreForm} (h : storeForm i = some f) : Suppresses i f.sig := by
  unfold storeForm at h
  split at h <;> cases h
  · exact ⟨_, rfl, storeBody_idles _ _ _ _ _ _ _⟩
  · exact ⟨_, rfl, storeBody_idles _ _ _ _ _ _ _⟩
  · exact ⟨_, rfl, storeBody_idles _ _ _ _ _ _ _⟩

/-- Every form of 02 R48 is suppressed: by its family, and one by one for the instructions that are alone in theirs. -/
theorem suppresses_of_form {i : Instr} {g : Cx → Sig} (h : suppressedForm i = some g) : Suppresses i g := by
  unfold suppressedForm at h
  split at h
  case h_1 k op d a b hk =>
    cases h
    exact ⟨_, exec_of_cmdForm hk, cmdBody_idles k d a b⟩
  case h_2 =>
    split at h
    case h_1 | h_2 | h_3 =>
      obtain ⟨f, hf, rfl⟩ := Option.map_eq_some_iff.mp h
      exact suppresses_of_storeForm hf
    case h_4 => cases h; exact ⟨_, rfl, depnBody_idles _ _ _⟩
    case h_5 => cases h; exact ⟨_, rfl, mstrBody_idles _⟩
    case h_6 => cases h; exact ⟨_, rfl, signalBody_idles _ _ _⟩
    case h_7 => cases h; exact ⟨_, rfl, stmapBody_idles _ _ _⟩
    case h_8 => cases h; exact ⟨_, rfl, aaddkBody_idles _ _ _⟩
    case h_9 => cases h; exact ⟨_, rfl, stkBody_idles _ _ _⟩
    case h_10 => cases h; exact ⟨_, rfl, tspawnBody_idles _ _⟩
    case h_11 => cases h; exact ⟨_, rfl, launchBody_idles _⟩
    case h_12 => cases h; exact ⟨_, rfl, trigBody_idles _ _⟩
    case h_13 => cases h; exact ⟨_, rfl, seqnewBody_idles _⟩
    case h_14 => cases h; exact ⟨_, rfl, seqendBody_idles _ _⟩
    case h_15 => cases h; exact ⟨_, rfl, eopBody_idles _ _⟩
    case h_16 =>
      obtain ⟨f, hf, hg⟩ := Option.bind_eq_some_iff.mp h
      split at hg <;> cases hg
      obtain ⟨fn, d, a, b, he⟩ := exec_of_readForm hf ‹_›
      exact ⟨_, he, atomicBody_idles fn d a b⟩

/-- Settles O52: each form's body looks for a live lane before anything else, so that the arm only moves on. -/
theorem suppression : Obligations.Suppression := by
  intro i g s c hi h hd hs
  obtain ⟨body, he, idles⟩ := suppresses_of_form hi
  rw [he]
  exact teamStep_moves h (idles c s hd hs)

end Sys2Proof.Machine
end

section
/-! SUPPORT. The turn of a core: whose it is, and the fetch that finds an instruction (02 R33, R41; 07 R184-R188; 18 R425). -/
namespace Sys2Proof.Machine
open Sys2Proof

/-- What follows either branch of a choice follows the branch that is taken. -/
theorem outcome_ite_bind_ok {α β : Type} {p : Prop} [Decidable p] {m n : Act α} {k : α → Act β} {s t : State} {a : α}
    (h : outcome (if p then m else n) s = (.ok a, t)) : outcome (if p then m >>= k else n >>= k) s = outcome (k a) t := by
  split at h
  · next hp => rw [if_pos hp, outcome_bind_ok h]
  · next hp => rw [if_neg hp, outcome_bind_ok h]

theorem outcome_attempt_ok {α : Type} {m : Act α} {s t : State} {a : α} (h : outcome m s = (.ok a, t)) :
    outcome (attempt m) s = (.ok (.ok a), t) := by
  rw [outcome_attempt, h]

theorem outcome_attempt_error {α : Type} {m : Act α} {s t : State} {e : Stop} (h : outcome m s = (.error e, t)) :
    outcome (attempt m) s = (.ok (.error e), t) := by
  rw [outcome_attempt, h]

theorem modTeam_finishes (i : Nat) (f : Team → Team) : Finishes (modTeam i f) := fun s => ⟨_, outcome_modTeam i f s⟩

theorem modArm_finishes (i a : Nat) (f : Arm → Arm) : Finishes (modArm i a f) := modTeam_finishes i _

/-- What never stops leaves the state in which it runs. -/
theorem Finishes.runs {m : Act Unit} (h : Finishes m) (s : State) : outcome m s = (.ok (), runAct m s) := by
  obtain ⟨t, ht⟩ := h s
  rw [runAct_eq, ht]

/-- The registers that residual code owes and a kept slot reads are written; original code runs with every one written. -/
theorem payForSlot_finishes (c : Cx) (res : Bool) (i : Instr) (w : Nat) :
    Finishes (if res then payNamed c i w else leaveResidual c) := by
  split
  · exact finishes_seq (modTeam_finishes _ _) fun _ => modArm_finishes _ _ _
  · unfold leaveResidual
    split
    · exact traffic_pure.finishes
    · exact modTeam_finishes _ _

/-- What is done before a slot's instruction is performed. -/
def slotEntered (c : Cx) (res : Bool) (i : Instr) (w : Nat) : Act Unit := do
  if res then payNamed c i w else leaveResidual c
  modArm c.tid c.arm fetchDone

section
variable {c : Cx} {res : Bool} {bs : List (BitVec 8)} {mb : Option Nat} {i : Instr} {ctl : Control} {w : Nat}

/-- A slot that passes its checks and decodes to an instruction. -/
theorem outcome_checkSlot (s : State) (hctl : ctl = ⟨numLE (bs.take 4)⟩) (hb : c.a.slot = 1 → bundleOk ctl 0 res mb = true)
    (ht : ctl.bt c.a.slot ≠ .illegal) (hc : classBtOk ctl (ctl.bt c.a.slot) = true)
    (hd : decodeTeam (numLE ((bs.drop (4 * c.a.slot)).take 4)) = .ok i) (hi : i ≠ .nop) :
    outcome (checkSlot c res bs mb) s = (.ok (.instr i (ctl.bt c.a.slot)),
      runAct (slotEntered c res i (numLE ((bs.drop (4 * c.a.slot)).take 4))) s) := by
  subst hctl
  rw [checkSlot]
  dsimp only
  rw [if_neg (by simpa using hb), if_neg (by simp [ht, hc]), hd]
  split
  · contradiction
  · next h => injection h with h; exact absurd h hi
  · next j h =>
    injection h with h
    subst h
    have paid := (payForSlot_finishes c res i (numLE ((bs.drop (4 * c.a.slot)).take 4))).runs s
    have entered := (outcome_ite_bind_ok (k := fun _ => modArm c.tid c.arm fetchDone) paid).trans (outcome_modArm ..)
    rw [runAct_eq, slotEntered, entered]
    exact (outcome_ite_bind_ok paid).trans (outcome_bind_ok (outcome_modArm ..))

/-- A slot whose bundle and map are read. -/
theorem outcome_fetchSlot {s s4 s5 : State} (hr : res = (c.b.residual && inResidual s c.b.world c.a.pc))
    (hbs : outcome (armBundle c res) s = (.ok bs, s4))
    (hmb : outcome (if (res && decide (c.a.slot = 1)) = true then mapOfBundle c else pure (some 0)) s4 = (.ok mb, s5)) :
    outcome (fetchSlot c) s = outcome (checkSlot c res bs mb) s5 := by
  subst hr
  rw [fetchSlot, outcome_bind_ok (outcome_get s)]
  refine outcome_bind_ok (a := Except.ok (bs, mb)) (outcome_attempt_ok ?_)
  exact (outcome_bind_ok hbs).trans (outcome_ite_bind_ok (k := fun mb => pure (bs, mb)) hmb)

/-- An arm that goes on to a slot that holds an instruction (02 R41). -/
theorem outcome_fetchArm {tid arm n : Nat} {s s3 s6 : State} {bt : Bt} (hon : outcome (reachOn tid arm) s = (.ok true, s3))
    (hc : cxOf s3 tid arm .t = some c) (hh : c.a.held = none) (hf : outcome (fetchSlot c) s3 = (.ok (.instr i bt), s6)) :
    outcome (fetchArm tid arm (n + 1)) s = (.ok (some i), { s6 with focus := .team tid arm bt }) := by
  rw [fetchArm, outcome_bind_ok hon, outcome_bind_ok (outcome_get s3), hc]
  dsimp only [Option.filter]
  rw [if_pos rfl]
  dsimp only
  rw [hh]
  dsimp only
  rw [outcome_bind_ok hf]
  rfl

end

/-- A core's barrel cycle is counted (02 R33). -/
def cycled (s : State) (core : Nat) : State := s.withCore core { coreOf s core with cycle := (coreOf s core).cycle + 1 }

/-- The state in which the team of a core's slot fetches: the cycle is counted, and the arm has its turn (02 R33, R41). -/
def turnTaken (s : State) (core tid a : Nat) (t : Team) : State :=
  workForTeam t ((cycled s core).withTeam tid { t with last := a })

/-- The turn of a core on which a team is ready, and whose fetch finds an instruction. -/
theorem outcome_coreTurn {core tid a : Nat} {s s6 : State} {t : Team} {i : Instr} (hg : (coreOf s core).gated = false)
    (ho : slotOwner s core ((coreOf s core).cycle % 8) = some tid) (ht : find? s.teams tid = some t) (hr : teamReady s t = true)
    (ha : turnArm s t = some a) (hf : outcome (fetchArm tid a 64) (turnTaken s core tid a t) = (.ok (some i), s6)) :
    outcome (coreTurn core) s = (.ok (some i), s6) := by
  rw [coreTurn, outcome_bind_ok (outcome_get s)]
  dsimp only
  rw [outcome_bind_ok (outcome_setCore _ _ _), if_neg (by simp [hg]), ho]
  dsimp only
  rw [ht]
  dsimp only
  rw [if_neg (by simp [hr]), ha]
  dsimp only
  refine (outcome_bind_ok (outcome_modTeam_at (s := cycled s core) ht)).trans ?_
  rw [outcome_bind_ok (outcome_modify _ _)]
  exact (outcome_bind_ok (outcome_attempt_ok hf)).trans rfl

/-- A step performs the head of the agenda, when the device has power. -/
theorem step_choice {s : State} {ch : Choice} {rest : List Choice} (h : s.agenda = ch :: rest) (hp : s.power = true) :
    step s = choose (begun { s with agenda := rest }) ch := by
  rw [step, h]
  dsimp only
  rw [if_pos hp]

/-- What a turn puts in focus is performed, within the grants (03 R77). -/
theorem issue_instr {r : Except Stop (Option Instr) × State} {i : Instr} {s : State} (h : r = (.ok (some i), s)) :
    issue r = match exec i s with
      | .next u => .next (keepGrants s u)
      | o => o := by
  rw [h]
  rfl

end Sys2Proof.Machine
end

section
/-! SUPPORT. The turn of a stream (10 R285, R290, R291; 07 R204), and steps (10 R288; 21 R512). -/
namespace Sys2Proof.Machine
open Sys2Proof

/-- The parts of a stream's context that hold in the state. -/
theorem sxOf_some {s : State} {bid : Nat} {x : Sx} (h : sxOf s bid = some x) : x.bid = bid ∧ find? s.blocks bid = some x.b := by
  unfold sxOf at h
  split at h
  · next b hb =>
    split at h
    · injection h with h
      subst h
      exact ⟨rfl, hb⟩
    · contradiction
  · contradiction

/-- The stream with its bundle held for the slots that follow (07 R186). -/
def bundleHeld (x : Sx) (bs : List (BitVec 8)) : Act Unit := modStream x.bid fun st => { st with bundle := some (x.st.pc, bs) }

section
variable {x : Sx} {res : Bool} {bs : List (BitVec 8)} {mb : Option Nat} {i : Instr} {ctl : Control} {s s1 : State}

theorem outcome_fetchForStream (h : outcome (streamCode x res) s = (.ok (bs, mb), s1)) :
    outcome (fetchForStream x res) s = (.ok (some (bs, mb)), runAct (bundleHeld x bs) s1) := by
  rw [fetchForStream]
  refine (outcome_bind_ok (outcome_attempt_ok h)).trans ?_
  refine (outcome_bind_ok (outcome_modBlock ..)).trans ?_
  rw [runAct_eq, bundleHeld, modStream, outcome_modBlock]
  rfl

/-- The slot at a stream's place, when it passes its checks and decodes to an instruction that is no MNOP. -/
theorem outcome_fetchStream {bid n : Nat} (hx : sxOf s bid = some x) (hr : res = (x.b.residual && inResidual s x.b.world x.st.pc))
    (h : outcome (streamCode x res) s = (.ok (bs, mb), s1)) (hctl : ctl = ⟨numLE (bs.take 4)⟩)
    (hb : x.st.slot = 1 → bundleOk ctl 1 res mb = true) (hc : classBtOk ctl (ctl.bt x.st.slot) = true)
    (ha : streamBtAllowed (numLE ((bs.drop (4 * x.st.slot)).take 4) / 2 ^ 24) (ctl.bt x.st.slot) = true)
    (hd : decodeStream (numLE ((bs.drop (4 * x.st.slot)).take 4)) = .ok i) (hi : i ≠ .mnop) :
    outcome (fetchStream bid (n + 1)) s =
      (.ok (some i), { runAct (bundleHeld x bs) s1 with focus := .stream bid (ctl.bt x.st.slot) }) := by
  subst hr hctl
  rw [fetchStream, outcome_bind_ok (outcome_get s), hx]
  dsimp only
  rw [outcome_bind_ok (outcome_get s)]
  refine (outcome_bind_ok (outcome_fetchForStream h)).trans ?_
  dsimp only
  rw [if_neg (by simpa using hb), if_neg (by simpa [hc] using ha), hd]
  split
  · contradiction
  · next h => injection h with h; exact absurd h hi
  · next h =>
    injection h with h
    subst h
    rfl

/-- The turn of a stream that is ready. -/
theorem outcome_streamTurn {bid : Nat} {r : Except Stop (Option Instr) × State}
    (hx : sxOf { s with working := some (bid, x.b.ctx) } bid = some x)
    (hw : x.st.wait = .none) (hbound : x.st.bound = true) (hres : x.b.st = .resident)
    (hg : (engineOf s (clusterOfCore x.b.core)).granted = some bid ∨ entryLive s x.b = true)
    (hf : outcome (fetchStream bid 64) { s with working := some (bid, x.b.ctx) } = r) : outcome (streamTurn bid) s = r := by
  have hb : find? s.blocks bid = some x.b := (sxOf_some hx).2
  have ready : (x.b.stream.wait = .none && x.b.stream.bound && x.b.st = .resident
      && ((engineOf s (clusterOfCore x.b.core)).granted = some bid || entryLive s x.b)) = true := by
    simpa [hres, show x.b.stream.wait = .none from hw, show x.b.stream.bound = true from hbound] using hg
  rw [streamTurn, outcome_bind_ok (outcome_get s), hb]
  dsimp only
  rw [if_pos ready, outcome_bind_ok (outcome_modify _ _), hf]

end

/-- Settles O4: a turn by the fetch that finds its instruction, an event by what it does, and a device without power by the
one event that it takes. -/
theorem stepRunsDecoded : Obligations.StepRunsDecoded := by
  refine ⟨?turn, ?stream, ?event, ?dark, ?idle⟩
  case turn =>
    intro s s0 s1 s2 s3 s4 s5 s6 core tid a rest t c res bs mb i ctl ha hp h0 hg h1 ho ht hready harm h2 hon hc hheld hr hbs hmb
      hctl hb hbt hcls hd hi h6
    subst h0 h1 h2 h6
    obtain ⟨rfl, rfl, -⟩ := cxOf_some hc
    have slot := (outcome_fetchSlot hr hbs hmb).trans (outcome_checkSlot s5 hctl hb hbt hcls hd hi)
    rw [step_choice ha hp]
    exact issue_instr (outcome_coreTurn hg ho ht hready harm (outcome_fetchArm hon hc hheld slot))
  case stream =>
    intro s s0 s1 s2 bid rest x res bs mb i ctl ha hp h0 hx hw hbound hres hg hr h hctl hb hc hal hd hi h2
    subst h0 h2
    obtain ⟨rfl, -⟩ := sxOf_some hx
    rw [step_choice ha hp]
    exact issue_instr (outcome_streamTurn hx hw hbound hres hg (outcome_fetchStream hx hr h hctl hb hc hal hd hi))
  case event =>
    intro s i rest ha hp
    rw [step_choice ha hp]
    rfl
  case dark =>
    intro s ch rest ha hp hn
    rw [step, ha]
    dsimp only
    rw [if_neg (by simp [hp])]
    unfold dark
    split
    · next img => exact absurd rfl (hn img)
    · rfl
  case idle =>
    intro s ha hp
    rw [step, ha]
    dsimp only
    rw [if_neg (by simp [hp])]

end Sys2Proof.Machine
end

section
/-! SUPPORT. A partition's launch queue (02 R59; 12 R355, R356; 15 R394; 19 R457-R459). -/
namespace Sys2Proof.Machine
open Sys2Proof

@[simp] theorem find?_withPartition_self (s : State) (i : Nat) (x : Partition) : find? (s.withPartition i x).partitions i = some x :=
  find?_put_self ..

@[simp] theorem withPartition_withPartition (s : State) (i : Nat) (x y : Partition) :
    (s.withPartition i x).withPartition i y = s.withPartition i y := by
  simp [State.withPartition, put_put]

/-- The change of a partition that is there. -/
theorem outcome_modPartition_at {i : Nat} {f : Partition → Partition} {s : State} {p : Partition} (h : find? s.partitions i = some p) :
    outcome (modPartition i f) s = (.ok (), s.withPartition i (f p)) := by
  rw [outcome_modPartition, adjust, h]
  rfl

/-- The change of a launch that is there. -/
theorem outcome_modLaunch_at {i : Nat} {f : Launch → Launch} {s : State} {l : Launch} (h : find? s.launches i = some l) :
    outcome (modLaunch i f) s = (.ok (), s.withLaunch i (f l)) := by
  rw [outcome_modLaunch, adjust, h]
  rfl

theorem launchOf_some {s : State} {i : Nat} {l : Launch} (h : find? s.launches i = some l) : launchOf s i = l := by
  rw [launchOf, h]
  rfl

section
variable {part core : Nat} {s s0 : State} {p : Partition}

/-- With nothing held, the next entry is a pending launch's. -/
theorem outcome_takeEntry_pending (hp : find? s.partitions part = some p) (hh : p.held = []) :
    outcome (takeEntry part) s = outcome (takePending part) s := by
  have nothing : outcome (takeHeld part (heldHeads p.held)) s = (.ok false, s) := by
    rw [hh]
    rfl
  rw [takeEntry, outcome_bind_ok (outcome_get s), hp]
  dsimp only
  rw [outcome_bind_ok nothing, if_neg (by decide), if_neg (by simp [hh])]

/-- The oldest entry of the one team that posts on the core in turn goes to the queue. -/
theorem outcome_takePending_team {tid : Nat} {t : Team} (hp : find? s.partitions part = some p) (hq : p.queue.length < 64)
    (hc : (coreRing p).find? (corePosts s) = some core) (hg : (coreOf s core).gone = []) (hts : postingTeams s core = [tid])
    (ht : find? s.teams tid = some t) (ha : outcome (announceLaunch part core t.pendingLaunch) s = (.ok (), s0)) :
    outcome (takePending part) s = (.ok (), runAct wakeRoom ((s0.withPartition part
      { p with queue := p.queue ++ t.pendingLaunch.take 1, nextCore := core + 1 }).withTeam tid
        { t with pendingLaunch := t.pendingLaunch.drop 1 })) := by
  rw [takePending, outcome_bind_ok (outcome_get s), hp]
  dsimp only
  rw [if_neg (by omega), hc]
  dsimp only
  rw [hg, hts]
  dsimp only
  rw [if_pos (by rfl), outcome_bind_ok (outcome_pure 0 s), outcome_bind_ok (outcome_get s),
    show find? s.teams ([tid].getD 0 0) = some t from ht]
  dsimp only
  rw [outcome_bind_ok ha]
  rfl

/-- The oldest entry of the first team that has left the core in turn goes to the queue. -/
theorem outcome_takePending_gone {q : List Posted} {more : List (List Posted)} (hp : find? s.partitions part = some p)
    (hq : p.queue.length < 64) (hc : (coreRing p).find? (corePosts s) = some core) (hg : (coreOf s core).gone = q :: more)
    (ha : outcome (announceLaunch part core q) s = (.ok (), s0)) :
    outcome (takePending part) s = (.ok (), (s0.withPartition part
      { p with queue := p.queue ++ q.take 1, nextCore := core + 1 }).withCore core
        { coreOf s0 core with gone := nextOf q ++ more }) := by
  rw [takePending, outcome_bind_ok (outcome_get s), hp]
  dsimp only
  rw [if_neg (by omega), hc]
  dsimp only
  rw [hg]
  dsimp only
  rw [outcome_bind_ok ha]
  rfl

end

section
variable {part : Nat} {s : State} {p : Partition} {x : Posted} {rest : List Posted}

/-- A record that begins a launch, of which no block is placed. -/
def acceptedLaunch (s : State) (part : Nat) (x : Posted) (l : Launch) : Launch :=
  { l with
    recIa := x.recIa, ctx := launchContext l, world := x.world, part := homePart part l
    open_ := partCount l * partBlocks l, eh := firstEh l, gang := if launchGang l = 0 then .notGang else .queued
    waiting := launchSpecialise l && (worldOf s x.world).backing.isSome }

theorem outcome_acceptRecord (part : Nat) (x : Posted) (l : Launch) (s : State) : outcome (acceptRecord part x l) s =
    (.ok (), { s with nextId := s.nextId + 1 }.withLaunch s.nextId (acceptedLaunch s part x l)) := rfl

/-- The record at the head of the queue, when its context goes on: it is accepted, or refused once its counter is counted. -/
theorem outcome_acceptHead (hp : find? s.partitions part = some p) (hq : p.queue = x :: rest) (he : find? s.endings x.ctx = none)
    (hl : find? s.endings (launchContext { Launch.blank with words := x.words }) = none) :
    outcome (acceptHead part) s = outcome
      (if !x.unreadable && recordOk s p x.world { Launch.blank with words := x.words } && (p.world = none || p.world = some x.world) then do
        modPartition part fun p => { p with queue := p.queue.drop 1 }
        acceptRecord part x { Launch.blank with words := x.words }
      else do
        if ← refusedCounted part x { Launch.blank with words := x.words } then do
          modPartition part fun p => { p with queue := p.queue.drop 1 }
          refuseRecord part x { Launch.blank with words := x.words }
        else pure ()) s := by
  rw [acceptHead, outcome_bind_ok (outcome_get s), hp]
  dsimp only
  rw [hq]
  dsimp only
  rw [outcome_bind_ok (outcome_get s), if_neg (by simp [he, hl])]

theorem outcome_leaveQueue (hp : find? s.partitions part = some p) (hq : p.queue = x :: rest) :
    outcome (modPartition part fun p => { p with queue := p.queue.drop 1 }) s =
      (.ok (), s.withPartition part { p with queue := rest }) := by
  rw [outcome_modPartition_at hp, hq]
  rfl

theorem frontRecord_finishes (part : Nat) (r : ErrRec) : Finishes (frontRecord part r) := emitRecord_finishes _ _

/-- A record without a counter is refused at once. -/
theorem outcome_refusedCounted {l : Launch} (hl : launchCounter l = 0) (s : State) :
    outcome (refusedCounted part x l) s = (.ok true, s) := by
  rw [refusedCounted, outcome_bind_ok (outcome_get s), if_pos (by simp [hl])]
  rfl

/-- A readable record of no team's is refused with its record alone. -/
theorem outcome_refuseRecord {l : Launch} (hu : x.unreadable = false) (ht : x.tid = none) (s : State) :
    outcome (refuseRecord part x l) s = (.ok (), runAct (frontRecord part
      { ErrRec.blank with
        type := 10, cls := 19, ctx := launchContext l, world := x.world
        info := { DumpInfo.none with object := x.recIa, ia := x.recIa } }) s) := by
  rw [refuseRecord, hu, ht]
  exact outcome_bind_ok ((frontRecord_finishes _ _).runs s)

end

/-- A launch that is over: its blocks are no more, and it has ended. -/
def launchOver (s : State) (id : Nat) (l : Launch) : State :=
  { s with blocks := s.blocks.filter fun e => e.2.launch != id }.withLaunch id
    { l with ended := true, gang := if l.gang = GangState.notGang then GangState.notGang else GangState.done }

/-- A launch whose blocks have all retired ends, with its counter, if it has one, counted. -/
theorem outcome_completeLaunch {id : Nat} {s s1 : State} {l : Launch} (hl : find? s.launches id = some l) (he : l.ended = false)
    (ho : l.open_ = 0) (hb : launchBusy s id = false) (hn : find? s.endings l.ctx = none)
    (hc : if launchCounter l = 0 then s1 = s else Answers (bumpCounter l.part l.ctx l.world (launchCounter l)) s () s1) :
    outcome (completeLaunch id) s = (.ok (), launchOver s1 id l) := by
  rw [completeLaunch, outcome_bind_ok (outcome_get s), hl]
  dsimp only
  rw [if_neg (by simp [he, ho, hb])]
  split at hc
  · next h =>
    subst hc
    rw [if_pos (by simp [h])]
    rfl
  · next h =>
    rw [if_neg (by simp [h, hn])]
    exact (outcome_bind_ok (outcome_attempt_ok hc)).trans rfl

end Sys2Proof.Machine
end

section
/-! SUPPORT. Rounds of dispatch, relatching and restoring (03 R80; 12 R361, R364, R365). -/
namespace Sys2Proof.Machine
open Sys2Proof

/-- What an action answers does not matter to the state that it leaves. -/
theorem runAct_answer_dropped {α : Type} (m : Act α) (s : State) : runAct (do let _ ← m; pure ()) s = runAct m s := by
  rw [runAct_eq, outcome_bind, runAct_eq]
  rcases outcome m s with ⟨_ | _, _⟩ <;> rfl

theorem outcome_modTenant_at {part w : Nat} {f : Tenant → Tenant} {s : State} {p : Partition} {t : Tenant}
    (hp : find? s.partitions part = some p) (ht : find? p.tenants w = some t) :
    outcome (modTenant part w f) s = (.ok (), s.withPartition part { p with tenants := put p.tenants w (f t) }) := by
  rw [modTenant, outcome_modPartition_at hp, ht]
  rfl

/-- A tenant with the credit of a round in which it has work (03 R80). -/
def credited (t : Tenant) : Tenant := { t with deficit := min (t.deficit + t.quantum) (4 * t.quantum) }

/-- A partition with one of its tenants changed. -/
def withTenant (p : Partition) (w : Nat) (t : Tenant) : Partition := { p with tenants := put p.tenants w t }

section
variable {part w : Nat} {s : State} {p : Partition} {t : Tenant} {chosen : Option (Cand × Nat)}

/-- A round of one tenant without work takes its credit. -/
theorem outcome_roundWith_idle (hp : find? s.partitions part = some p) (hd : dispatchStopped s = false)
    (hg : heldByPressing s part = false) (hw : tenantWorlds s p part = [w]) (ht : find? p.tenants w = some t)
    (hr : headReady s part w t = none) : outcome (roundWith part chosen) s =
      (.ok (), s.withPartition part (withTenant p w { t with deficit := min t.deficit 0 })) := by
  rw [roundWith, outcome_bind_ok (outcome_get s), hp]
  dsimp only
  rw [if_neg (by simp [hd, hg]), hw, outcome_each_one, outcome_bind_ok (outcome_get s), hp]
  dsimp only
  rw [ht, if_pos (by simp [hr]), outcome_modTenant_at hp ht]
  rfl

/-- A round of one tenant with work credits it and is its turn. -/
theorem outcome_roundWith_turn {k : Cand} (hp : find? s.partitions part = some p) (hd : dispatchStopped s = false)
    (hg : heldByPressing s part = false) (hw : tenantWorlds s p part = [w]) (ht : find? p.tenants w = some t)
    (hr : headReady s part w t = some k) : outcome (roundWith part chosen) s =
      outcome (tenantTurn part w chosen (turnBound s t) true) (s.withPartition part (withTenant p w (credited t))) := by
  rw [roundWith, outcome_bind_ok (outcome_get s), hp]
  dsimp only
  rw [if_neg (by simp [hd, hg]), hw, outcome_each_one, outcome_bind_ok (outcome_get s), hp]
  dsimp only
  rw [ht, if_neg (by simp [hr]), outcome_bind_ok (outcome_modTenant_at hp ht)]
  rfl

/-- While dispatch stands still, a round does nothing. -/
theorem outcome_roundWith_stopped (hd : dispatchStopped s = true) : outcome (roundWith part chosen) s = (.ok (), s) := by
  rw [roundWith, outcome_bind_ok (outcome_get s)]
  cases find? s.partitions part with
  | none => rfl
  | some p =>
    dsimp only
    rw [if_pos (by simp [hd])]
    rfl

end

/-! ### Relatching (12 R364) -/

/-- A block that finds no room has a core relatched to its world: an unlatched one, or else the one longest idle. -/
theorem runAct_relatchFor {id part core : Nat} {s : State} {p : Partition} {l : Launch} {cs : List Nat}
    (hq : queuedItem s id = some (l, [part])) (hp : find? s.partitions part = some p) (hw : p.world = none)
    (hr : contextReady s l.ctx = true) (hcs : cs = (openCores p).filter fun c => !(coreOf s c).gated && !(coreOf s c).closed)
    (hf : findsRoom s id part l cs = false)
    (hk : cs.find? (fun c => (coreOf s c).latch.isNone) = some core ∨
      cs.find? (fun c => (coreOf s c).latch.isNone) = none ∧ longestIdle s cs l.world = some core) :
    runAct (relatchFor id) s = runAct (relatchCore core (some l.world)) s := by
  rw [runAct_eq, relatchFor, outcome_bind_ok (outcome_get s), hq]
  dsimp only
  rw [if_pos hr, outcome_each_one, relatchIn, outcome_bind_ok (outcome_get s), hp]
  simp only [Option.filter, hw, Option.isNone_none, if_true, ← hcs]
  rw [if_neg (by simp [hf])]
  rcases hk with unlatched | ⟨latched, idle⟩
  · rw [unlatched]
    exact runAct_answer_dropped _ s
  · rw [latched, idle]
    exact runAct_answer_dropped _ s

/-! ### Restoring (12 R365) -/

section
variable {bid core : Nat} {s : State} {p : Partition} {t : Tenant} {x : Block}

/-- A saved block that is first to go is restored in a round of its partition. -/
theorem outcome_restoreOn (hb : find? s.blocks bid = some x) (hp : find? s.partitions x.part = some p) (hs : x.st = .saved)
    (ht : find? p.tenants x.world = some t) (hr : headReady s x.part x.world t = some (.again bid))
    (ho : (openCores p).contains core = true) (hm : roomAgain s bid (launchOf s x.launch) core = true) :
    outcome (restoreOn bid core) s = outcome (roundWith x.part (some (.again bid, core))) s := by
  rw [restoreOn, outcome_bind_ok (outcome_get s), hb]
  dsimp only
  rw [hp]
  dsimp only
  rw [if_pos]
  rw [ht]
  simpa [hs, hr, hm] using ho

theorem sentTo_chosen (p : Partition) (k : Cand) (core : Nat) :
    sentTo p (some (k, core)) k = (openCores p).filter (· = core) := if_pos rfl

/-- The first of a turn goes whatever the deficit, and the turn goes on when it is placed. -/
theorem outcome_tenantTurn_placed {part w n : Nat} {s1 : State} {chosen : Option (Cand × Nat)} {k : Cand}
    (hp : find? s.partitions part = some p) (ht : find? p.tenants w = some t) (hr : headReady s part w t = some k)
    (hg : heldByPressing s part = false) (hk : outcome (placeCand part (sentTo p chosen k) k) s = (.ok true, s1)) :
    outcome (tenantTurn part w chosen (n + 1) true) s = outcome (do
      modTenant part w fun t => { t with deficit := t.deficit - candEstimate s k }
      tenantTurn part w chosen n false) s1 := by
  rw [tenantTurn, outcome_bind_ok (outcome_get s), hp]
  dsimp only
  rw [ht]
  simp only [Option.getD_some, hr, Option.filter, hg, Bool.not_false, if_true]
  rw [if_pos (by simp), outcome_bind_ok hk]
  rfl

end

end Sys2Proof.Machine
end

section
/-! SUPPORT. Gangs: reserving, rolling back and starting (02 R61, R62; 19 R451-R453). -/
namespace Sys2Proof.Machine
open Sys2Proof

theorem setGate_finishes (q u : Nat) (g : GateState) : Finishes (setGate q u g) := finishes_modify _

theorem queueWake_finishes (q u : Nat) : Finishes (queueWake q u) :=
  finishes_get fun _ => finishes_seq (finishes_modify fun _ => _) fun _ => finishes_get fun _ =>
    finishes_seq (finishes_each (fun _ => setGate_finishes _ _ _) _) fun _ => finishes_each (fun _ => setGate_finishes _ _ _) _

theorem wakeUnit_finishes (q u : Nat) : Finishes (wakeUnit q u) := by
  refine finishes_get fun s => ?_
  split
  · exact traffic_pure.finishes
  · split
    · exact setGate_finishes _ _ _
    · exact queueWake_finishes _ _
    · exact traffic_pure.finishes

section
variable {id part : Nat} {s : State} {p : Partition} {l : Launch} {t : Tenant}

/-- The wakes of what a partition has reserved (19 R451). -/
theorem wakeReserved_finishes (rs : List Reserve) : Finishes (each rs fun r => do
    wakeUnit (quadOfCore r.core) (clusterOfCore r.core % 12)
    wakeUnit (quadOfCore r.core) 12) :=
  finishes_each (fun _ => finishes_seq (wakeUnit_finishes _ _) fun _ => wakeUnit_finishes _ _) rs

theorem outcome_rollBack (hl : find? s.launches id = some l) :
    outcome (rollBack id) s = (.ok (), s.withLaunch id { l with gang := .rollback }) :=
  outcome_modLaunch_at hl

/-- A partition that already keeps room for another gang holds the request. -/
theorem outcome_reserveAt_held (hl : find? s.launches id = some l) (hg : l.gang = .reserving) (hn : nextAsked l = some part)
    (hp : find? s.partitions part = some p) (hh : p.gang ≠ none) : outcome (reserveAt id part) s = (.ok (), s) := by
  rw [reserveAt, outcome_bind_ok (outcome_get s), launchOf_some hl, if_neg (by simp [hg, hn]), hp]
  dsimp only
  rw [if_pos (by simpa [Option.isSome_iff_ne_none] using hh)]
  rfl

/-- A partition that is being resized refuses. -/
theorem outcome_reserveAt_resizing (hl : find? s.launches id = some l) (hg : l.gang = .reserving) (hn : nextAsked l = some part)
    (hp : find? s.partitions part = some p) (hf : p.gang = none) (hr : p.resizing ≠ none) :
    outcome (reserveAt id part) s = (.ok (), s.withLaunch id { l with gang := .rollback }) := by
  rw [reserveAt, outcome_bind_ok (outcome_get s), launchOf_some hl, if_neg (by simp [hg, hn]), hp]
  dsimp only
  rw [if_neg (by simp [hf]), if_pos (by simp [Option.isSome_iff_ne_none.2 hr]), outcome_rollBack hl]

/-- A partition with room reserves it, and the gang asks the next one or commits. -/
theorem outcome_reserveAt_granted {rs : List Reserve} {s1 : State} (hl : find? s.launches id = some l) (hg : l.gang = .reserving)
    (hn : nextAsked l = some part) (hp : find? s.partitions part = some p) (hf : p.gang = none) (hr : p.resizing = none)
    (ho : gangOwned s ((guestOf s l.world).getD ((find? s.partitions l.part).map (·.fn) |>.getD 0)) l = true)
    (hrs : reservable s id part l p = some rs)
    (h1 : s1 = runAct (each rs fun r => do
        wakeUnit (quadOfCore r.core) (clusterOfCore r.core % 12)
        wakeUnit (quadOfCore r.core) 12)
      (s.withPartition part { p with gang := some id, reserved := p.reserved ++ rs })) :
    outcome (reserveAt id part) s = outcome
      (if (nextAsked { l with granted := l.granted ++ [part] }).isSome then setLaunch id { l with granted := l.granted ++ [part] }
      else do
        setLaunch id { l with granted := l.granted ++ [part], gang := .committed, gangTime := s.time + 20000, rollbacks := 0 }
        modify fun s => { s with partitions := s.partitions.map fun e =>
          if e.2.gang = (some id) then (e.1, { e.2 with gang := none }) else e }) s1 := by
  rw [reserveAt, outcome_bind_ok (outcome_get s), launchOf_some hl, if_neg (by simp [hg, hn]), hp]
  dsimp only
  rw [if_neg (by simp [hf]), if_neg (by simp [hr, ho]), hrs]
  dsimp only
  rw [outcome_bind_ok (outcome_setPartition ..), h1]
  exact outcome_bind_ok ((wakeReserved_finishes rs).runs _)

/-- A gang that has rolled back is at the head of its tenant's queue again. -/
theorem outcome_rollbackDone (hl : find? s.launches id = some l) (hg : l.gang = .rollback) (hp : s.partitions = [(l.part, p)])
    (hk : p.gang = some id) (ht : find? p.tenants l.world = some t) : outcome (rollbackDone id) s =
      (.ok (), (s.withPartition l.part { p with
        gang := none
        reserved := p.reserved.filter fun r => r.launch != id
        tenants := put p.tenants l.world { t with requeued := dropAll t.requeued id ++ [id] } }).withLaunch id
          { l with gang := .queued, granted := [], rollbacks := l.rollbacks + 1 }) := by
  rw [rollbackDone, outcome_bind_ok (outcome_get s), launchOf_some hl, if_neg (by simp [hg]), releaseReserves,
    outcome_bind_ok (outcome_modify ..), outcome_bind_ok (outcome_setLaunch ..), hp, List.map_singleton]
  refine (outcome_modTenant_at (p := letGo id p) (by simp [find?]) ht).trans ?_
  simp [State.withPartition, State.withLaunch, hp, put, letGo, hk]

/-- A committed gang of one partition starts there, on the cores kept for it. -/
theorem outcome_startGang (hl : find? s.launches id = some l) (hg : l.gang = .committed) (ht : l.gangTime ≤ s.time)
    (hd : dispatchStopped s = false) (hn : l.granted = [part]) (hp : find? s.partitions part = some p) :
    outcome (startGang id) s = outcome (startPart id part ((p.reserved.filter fun r => r.launch = id).map (·.core)) 65536)
      ((s.withLaunch id { l with gang := .running }).withPartition part (letGo id p)) := by
  rw [startGang, outcome_bind_ok (outcome_get s), launchOf_some hl, if_neg (by simp [hg, hd, ht]),
    outcome_bind_ok (outcome_setLaunch ..), hn, outcome_each_one, outcome_bind_ok (outcome_get _)]
  rw [show find? (s.withLaunch id _).partitions part = some p from hp]
  dsimp only
  rw [outcome_bind_ok (outcome_setPartition ..)]

end

end Sys2Proof.Machine
end

section
/-! PROOF. Launches and dispatch (02 R59, R61, R62; 03 R80; 12 R355, R356, R361, R364, R365; 15 R394; 19 R451-R459). -/
namespace Sys2Proof.Machine
open Sys2Proof

/-- An event that does what another action does leaves what that action leaves. -/
theorem eventStep_same {m k : Act Unit} {s s1 : State} (h : outcome m s = outcome k s1) : eventStep m s = .next (runAct k s1) := by
  rw [eventStep, runAct_eq, h, runAct_eq]

section
variable {part : Nat} {s : State} {p : Partition} {x : Posted} {rest : List Posted}

/-- A record in order is accepted. -/
theorem launchAccept_accepted (hp : find? s.partitions part = some p) (hq : p.queue = x :: rest) (he : find? s.endings x.ctx = none)
    (hu : x.unreadable = false) (hl : find? s.endings (launchContext { Launch.blank with words := x.words }) = none)
    (hr : recordOk s p x.world { Launch.blank with words := x.words } = true) (hw : p.world = none ∨ p.world = some x.world) :
    exec (.launchAccept part) s =
      .next ({ s.withPartition part { p with queue := rest } with nextId := s.nextId + 1 }.withLaunch s.nextId
        (acceptedLaunch s part x { Launch.blank with words := x.words })) := by
  refine eventStep_ok ?_
  rw [outcome_acceptHead hp hq he hl, if_pos (by simpa [hu, hr] using hw), outcome_bind_ok (outcome_leaveQueue hp hq)]
  rfl

/-- A record out of order, without a counter, is refused. -/
theorem launchAccept_refused (hp : find? s.partitions part = some p) (hq : p.queue = x :: rest) (he : find? s.endings x.ctx = none)
    (hu : x.unreadable = false) (hl : find? s.endings (launchContext { Launch.blank with words := x.words }) = none)
    (hr : recordOk s p x.world { Launch.blank with words := x.words } = false)
    (hc : launchCounter { Launch.blank with words := x.words } = 0) (ht : x.tid = none) :
    exec (.launchAccept part) s = .next (runAct (frontRecord part
      { ErrRec.blank with
        type := 10, cls := 19, ctx := launchContext { Launch.blank with words := x.words }, world := x.world
        info := { DumpInfo.none with object := x.recIa, ia := x.recIa } }) (s.withPartition part { p with queue := rest })) := by
  refine eventStep_ok ?_
  rw [outcome_acceptHead hp hq he hl, if_neg (by simp [hr]), outcome_bind_ok (outcome_refusedCounted hc s), if_pos rfl,
    outcome_bind_ok (outcome_leaveQueue hp hq), outcome_refuseRecord hu ht]

end

/-- A reserving gang that does not press rolls back once its time is over (02 R61; 19 R452). -/
theorem gangReserveTimeout_over {id : Nat} {s : State} {l : Launch} (hl : find? s.launches id = some l) (hg : l.gang = .reserving)
    (hr : l.rollbacks < 16) : exec (.gangReserveTimeout id) s =
      .next (if l.gangTime + 50000 ≤ s.time then s.withLaunch id { l with gang := .rollback } else s) := by
  refine eventStep_ok ?_
  rw [outcome_bind_ok (outcome_get s), launchOf_some hl]
  split
  · next late =>
    rw [if_pos (by simp [hg, hr, late]), outcome_rollBack hl]
  · next early =>
    rw [if_neg (by simp [hg, hr, early])]
    rfl

/-- Settles O53: a launch's record from its team to its end, then the rounds of dispatch, relatching, restoring and gangs. -/
theorem launchesAndDispatch : Obligations.LaunchesAndDispatch := by
  refine ⟨fun part id tid core s s0 s1 p t x rest l info => ⟨?_, ?_, ?_⟩,
    fun part id bid core w s s0 s1 p t u k l x cs rs => ⟨?_, ?_, ?_, ?_, ?_, ?_, ?_, ?_⟩⟩
  · intro hp hh hq hc
    exact ⟨fun hg hts ht ha => eventStep_ok ((outcome_takeEntry_pending hp hh).trans (outcome_takePending_team hp hq hc hg hts ht ha)),
      fun q more hg ha => eventStep_ok ((outcome_takeEntry_pending hp hh).trans (outcome_takePending_gone hp hq hc hg ha))⟩
  · rintro hp hq he hu hl rfl rfl
    exact ⟨fun hr hw => launchAccept_accepted hp hq he hu hl hr hw,
      fun hr hc ht hi => hi ▸ launchAccept_refused hp hq he hu hl hr hc ht⟩
  · intro hl he ho hb hn hc
    exact eventStep_ok (outcome_completeLaunch hl he ho hb hn hc)
  · intro hp hd hg hw ht
    exact ⟨fun hr => eventStep_ok (outcome_roundWith_idle hp hd hg hw ht hr),
      fun hr => eventStep_same (outcome_roundWith_turn hp hd hg hw ht hr)⟩
  · exact fun hd => eventStep_ok (outcome_roundWith_stopped hd)
  · intro hq hp hw hr hcs hf
    exact ⟨fun hk => congrArg _ (runAct_relatchFor hq hp hw hr hcs hf (.inl hk)),
      fun hk hi => congrArg _ (runAct_relatchFor hq hp hw hr hcs hf (.inr ⟨hk, hi⟩))⟩
  · rintro hb hp hd hg hs ht hr ho hm hw rfl rfl
    have turn := (outcome_restoreOn hb hp hs ht hr ho hm).trans (outcome_roundWith_turn hp hd hg hw ht hr)
    refine ⟨eventStep_same turn, fun hr1 hk => eventStep_same (turn.trans ?_)⟩
    exact outcome_tenantTurn_placed (find?_withPartition_self ..) (find?_put_self ..) hr1 hg (by rw [sentTo_chosen]; exact hk)
  · intro hl hg hn hp
    refine ⟨fun hh => eventStep_ok (outcome_reserveAt_held hl hg hn hp hh),
      fun hf hr => eventStep_ok (outcome_reserveAt_resizing hl hg hn hp hf hr), fun hf hr ho hrs h1 => ⟨fun hm => ?_, fun hm => ?_⟩⟩
    · refine eventStep_ok ((outcome_reserveAt_granted hl hg hn hp hf hr ho hrs h1).trans ?_)
      rw [if_pos (Option.isSome_iff_ne_none.2 hm)]
      rfl
    · refine eventStep_ok ((outcome_reserveAt_granted hl hg hn hp hf hr ho hrs h1).trans ?_)
      rw [if_neg (by simp [hm])]
      rfl
  · exact fun hl hg hr => gangReserveTimeout_over hl hg hr
  · exact fun hl hg hp hk ht => eventStep_ok (outcome_rollbackDone hl hg hp hk ht)
  · exact fun hl hg ht hd hn hp => eventStep_same (outcome_startGang hl hg ht hd hn hp)
end Sys2Proof.Machine
end

section
/-! SUPPORT. Counter updates and looks at what is waited for, at a home slice that serves them (02 R53; 04 R107; 09 R282). -/
namespace Sys2Proof.Machine
open Sys2Proof

theorem outcome_collect_one {α β : Type} {a : α} {f : α → Act β} {s t : State} {b : β} (h : outcome (f a) s = (.ok b, t)) :
    outcome (collect [a] f) s = (.ok [b], t) := by
  rw [collect, outcome_bind_ok h]
  rfl

/-- A request that waits leaves its traffic, and is to be made again. -/
theorem outcome_tried_wait {m : Act Unit} {s t : State} {w : Wait} (h : outcome m s = (.error (.wait w), t)) :
    outcome (tried m) s = (.ok (), { keepingTraffic s t with turnedAway := true }) := by
  have kept : outcome (undone m) s = (.error (.wait w), keepingTraffic s t) := by
    show undone m s = _
    unfold undone
    rw [show m.run.run s = _ from h]
  show tried m s = _
  unfold tried
  rw [show (undone m).run.run s = _ from kept]

/-! ### The atomic unit of a slice that serves (04 R107) -/

section
variable {s : State} {r : Req} {ia : Nat} {x : TlbEntry} {l : LlcLine}

/-- The cached pair answers for reads, writes and updates. -/
theorem Serves.translate_rmw (h : Serves s r ia x l) : outcome (Machine.translate r ia .rmw) s = (.ok x, s) := by
  obtain ⟨hrd, hwr, her⟩ := h.permitted
  unfold Machine.translate
  rw [outcome_bind_ok (outcome_get s)]
  simp only [h.pair, permits, hrd, hwr, Bool.and_self, if_true]
  rw [outcome_bind_ok (outcome_pure x s), outcome_bind_ok (outcome_get s)]
  simp only [h.replicas, h.key, her]
  rfl

/-- An update of a word at a slice that serves it: the word before, and the line with the new one. -/
theorem Serves.sliceRmw (h : Serves s r ia x l) (n : Nat) (f : Nat → Nat) :
    ∃ t, outcome (Machine.sliceRmw r ia n .rmw f) s = (.ok (numLE (lineBytes l.bytes (maOf x ia % 512) n)), t) ∧
      AccessOnly (s.withLine (llcKey (maOf x ia) x.slot) (l.written (maOf x ia) (r.ctx.getD 0x3ff)
        (bytesLE n (f (numLE (lineBytes l.bytes (maOf x ia % 512) n)))))) t := by
  unfold Machine.sliceRmw
  refine h.atHome (f := fun s => s.withLine (llcKey (maOf x ia) x.slot) (l.written (maOf x ia) (r.ctx.getD 0x3ff)
    (bytesLE n (f (numLE (lineBytes l.bytes (maOf x ia % 512) n)))))) n n (fun _ k => k.access.withLine _ _) fun s1 h1 => ?_
  obtain ⟨_, s2, h2, k2⟩ := chargeLlc_accesses r.ctx (maOf x ia) s1
  obtain ⟨s3, h3, k3⟩ := chargeBase_traffic (quadOfSlice (sliceOf ia)) r.ctx clsAtomic 1 s2
  have line : find? s3.llc (llcKey (maOf x ia) x.slot) = some l := by rw [(k2.trans k3.access).keeps.2.1, h1.line]
  obtain ⟨t, ht, kt⟩ := outcome_llcWrite (s := s3) r.ctx r.world ia x.gen
    (bytesLE n (f (numLE (lineBytes l.bytes (maOf x ia % 512) n)))) line h1.whole
  refine ⟨t, ?_, ((k2.trans k3.access).withLine _ _).trans kt⟩
  rw [outcome_bind_ok h1.translate_rmw, outcome_bind_ok h1.reachHost, outcome_bind_ok h1.snoopFirst, outcome_bind_ok h1.recallFor,
    outcome_bind_ok h2, outcome_bind_ok h3]
  refine outcome_withEncodingRecord r ia ?_
  rw [outcome_bind_ok (outcome_llcRead r.ctx r.world ia x.gen n line h1.whole), outcome_bind_ok ht]
  rfl

end

/-! ### Updates without triggers (02 R55) -/

theorem outcome_settleUpdates_nil : ∀ (n : Nat) (s : State), outcome (settleUpdates n []) s = (.ok (), s)
  | 0, _ => rfl
  | n + 1, s => outcome_settleUpdates_nil n s

/-- No entry is armed on a counter. -/
def Unarmed (s : State) (world ia : Nat) : Prop :=
  ∀ q ∈ s.partitions, ∀ x ∈ q.2.triggers, x.2.counter ≠ ia ∨ x.2.world ≠ world

/-- An update of a counter on which no entry is armed sets nothing off. -/
theorem outcome_evaluateOne_unarmed {n : Nat} {u : Update} {s : State} (h : Unarmed s u.world u.ia) :
    outcome (evaluateOne n u) s = (.ok [], s) := by
  have due : (s.partitions.flatMap fun p => (p.2.triggers.filter fun e =>
      e.2.counter = u.ia && e.2.world = u.world && (e.2.owed || !cmpHolds e.2.cmp u.old e.2.target.toNat)).map
        fun e => (p.1, e.1)) = [] := by
    rw [List.flatMap_eq_nil_iff]
    intro q hq
    rw [List.map_eq_nil_iff, List.filter_eq_nil_iff]
    intro e he
    rcases h q hq e he with counter | world <;> simp [*]
  rw [evaluateOne, outcome_bind_ok (outcome_get s)]
  dsimp only
  rw [due]
  rfl

theorem outcome_evaluate_unarmed {world ia old new : Nat} {s : State} (h : Unarmed s world ia) :
    outcome (evaluate world ia old new) s = (.ok (), s) := by
  rw [evaluate, settleUpdates, outcome_bind_ok (outcome_collect_one (outcome_evaluateOne_unarmed h))]
  exact outcome_settleUpdates_nil 16 s

theorem AccessOnly.partitions {s t : State} (h : AccessOnly s t) : t.partitions = s.partitions := by
  unfold AccessOnly at h
  rw [h]

/-- A counter that no entry is armed on is updated in its line. -/
theorem Serves.counterAdd {s : State} {r : Req} {ia : Nat} {x : TlbEntry} {l : LlcLine} (h : Serves s r ia x l) (delta : Int)
    (hu : Unarmed s r.world ia) :
    ∃ t, outcome (Machine.counterAdd r ia delta) s = (.ok (numLE (lineBytes l.bytes (ia % 512) 8)), t) ∧
      AccessOnly (s.withLine (llcKey (maOf x ia) x.slot) (l.written (maOf x ia) (r.ctx.getD 0x3ff)
        (bytesLE 8 (wrapTo 64 ((numLE (lineBytes l.bytes (ia % 512) 8) : Nat) + delta))))) t := by
  obtain ⟨t, ht, kt⟩ := h.sliceRmw 8 fun x => wrapTo 64 ((x : Int) + delta)
  rw [maOf_mod_block] at ht kt
  have still : Unarmed t r.world ia := by
    unfold Unarmed
    rw [kt.partitions]
    exact hu
  refine ⟨t, ?_, kt⟩
  rw [Machine.counterAdd, counterUpdate, outcome_bind_ok ht, outcome_bind_ok (outcome_pure () t),
    outcome_bind_ok (outcome_evaluate_unarmed still)]
  rfl

/-! ### COUNTER_UPDATE (02 R53) -/

section
variable {world ia : Nat} {delta : Int} {s : State} {r : Req}

/-- What a feeder's update of a counter does. -/
theorem outcome_feeder (ha : ia % 8 = 0) (hi : ia < 2 ^ 52) (hw : world < 64)
    (hr : r = ⟨routerOfSlice (sliceOf ia), none, none, none, world⟩) : outcome (do
      if ia % 8 = 0 && decide (ia < 2 ^ 52) && decide (world < 64) then
        let _ ← counterAdd ⟨routerOfSlice (sliceOf ia), none, none, none, world⟩ ia delta
        pure ()
      else pure ()) s = outcome (do
        let _ ← counterAdd r ia delta
        pure ()) s := by
  rw [if_pos (by simpa [ha, hw] using hi), hr]

theorem counterUpdate_answers {old : Nat} {t : State} (ha : ia % 8 = 0) (hi : ia < 2 ^ 52) (hw : world < 64)
    (hr : r = ⟨routerOfSlice (sliceOf ia), none, none, none, world⟩) (h : Answers (counterAdd r ia delta) s old t) :
    exec (.counterUpdate world ia delta) s = .next t :=
  eventStep_tried ((outcome_feeder ha hi hw hr).trans (outcome_bind_ok h))

theorem counterUpdate_waits {w : Wait} {t : State} (ha : ia % 8 = 0) (hi : ia < 2 ^ 52) (hw : world < 64)
    (hr : r = ⟨routerOfSlice (sliceOf ia), none, none, none, world⟩) (h : Stops (counterAdd r ia delta) s (.wait w) t) :
    exec (.counterUpdate world ia delta) s = .next { keepingTraffic s t with turnedAway := true } :=
  eventStep_ok (outcome_tried_wait ((outcome_feeder ha hi hw hr).trans (outcome_bind_error h)))

/-- A feeder's update at a slice that serves it, of a counter that no entry is armed on. -/
theorem counterUpdate_served {x : TlbEntry} {l : LlcLine} (ha : ia % 8 = 0) (hi : ia < 2 ^ 52) (hw : world < 64)
    (hr : r = ⟨routerOfSlice (sliceOf ia), none, none, none, world⟩) (h : Serves s r ia x l) (hu : Unarmed s world ia) :
    ∃ t, exec (.counterUpdate world ia delta) s = .next t ∧ t.mem = s.mem ∧
      t.llc = put s.llc (llcKey (maOf x ia) x.slot) { l with
        bytes := putBytes l.bytes (ia % 512)
          (bytesLE 8 (wrapTo 64 ((numLE (lineBytes l.bytes (ia % 512) 8) : Nat) + delta)))
        dirty := l.dirty ||| BitVec.twoPow 8 (ia / 64 % 8), owner := 0x3ff } := by
  obtain ⟨t, ht, kt⟩ := h.counterAdd delta (hr ▸ hu)
  refine ⟨t, counterUpdate_answers ha hi hw hr ht, kt.keeps.1, kt.keeps.2.1.trans ?_⟩
  rw [← maOf_mod_block x ia, ← maOf_sector x ia, hr]
  rfl

end

end Sys2Proof.Machine
end

section
/-! SUPPORT. Notifications and polls of waits (09 R282). -/
namespace Sys2Proof.Machine
open Sys2Proof

/-- The teams and the lines of the LLC stand as they were. -/
def Untouched (s t : State) : Prop := t.teams = s.teams ∧ t.llc = s.llc

theorem Untouched.trans {s t u : State} (h : Untouched s t) (k : Untouched t u) : Untouched s u :=
  ⟨k.1.trans h.1, k.2.trans h.2⟩

theorem TrafficOnly.untouched {s t : State} (h : TrafficOnly s t) : Untouched s t := ⟨h.keeps.1, h.keeps.2.2.2.2⟩

theorem chargeLlc_untouched (ctx : Option Nat) (ma : Nat) (s : State) :
    ∃ t, outcome (chargeLlc ctx ma) s = (.ok (), t) ∧ Untouched s t := by
  obtain ⟨t, ht, kt⟩ := chargeBase_traffic (quadOfSlice (sliceOf ma)) ctx clsLlc 1 s
  rw [chargeLlc, outcome_bind_ok ht]
  split
  · exact ⟨_, outcome_modSlice _ _ t, kt.untouched.trans ⟨rfl, rfl⟩⟩
  · exact ⟨t, rfl, kt.untouched⟩

/-- What a slice that serves does between its two messages holds after them when messages do not change it. -/
theorem Serves.atHome_keeping {s : State} {r : Req} {ia : Nat} {x : TlbEntry} {l : LlcLine} {α : Type} {m : Act α} {a : α}
    (h : Serves s r ia x l) (n back : Nat)
    (hm : ∀ s1, Serves s1 r ia x l → ∃ t, outcome m s1 = (.ok a, t) ∧ Untouched s1 t) :
    ∃ t, outcome (Machine.atHome r ia n back m) s = (.ok a, t) ∧ Untouched s t := by
  obtain ⟨s1, h1, k1⟩ := sendMessage_traffic r.ctx r.world r.src (routerOfSlice (sliceOf ia)) .request n s
  have there := h.afterTraffic k1
  obtain ⟨t, ht, kt⟩ := hm s1 there
  obtain ⟨u, hu, ku⟩ := sendMessage_traffic r.ctx r.world (routerOfSlice (sliceOf ia)) r.src (if back = 0 then .ack else .data) back t
  refine ⟨u, ?_, (k1.untouched.trans kt).trans ku.untouched⟩
  unfold Machine.atHome
  rw [outcome_bind_ok (outcome_get s), if_neg (by simp [h.flows]), outcome_bind_ok h1,
    outcome_bind_ok (outcome_get s1), if_neg (by simp [sliceBusy, there.takes]), outcome_bind_ok (outcome_attempt_ok ht)]
  dsimp only
  rw [outcome_bind_ok hu, outcome_pure]

/-- A read changes neither teams nor lines of the LLC. -/
theorem Serves.sliceRead_untouched {s : State} {r : Req} {ia : Nat} {x : TlbEntry} {l : LlcLine} (h : Serves s r ia x l)
    (n : Nat) : ∃ t, outcome (Machine.sliceRead r ia n .read) s = (.ok (lineBytes l.bytes (ia % 512) n), t) ∧ Untouched s t := by
  obtain ⟨t, ht, kt⟩ := h.atHome_keeping (m := serveRead r ia n .read) (a := (x, lineBytes l.bytes (maOf x ia % 512) n)) 0 n
    fun s1 h1 => by
      obtain ⟨s2, h2, k2⟩ := chargeLlc_untouched r.ctx (maOf x ia) s1
      have line : find? s2.llc (llcKey (maOf x ia) x.slot) = some l := by rw [k2.2, h1.line]
      refine ⟨s2, ?_, k2⟩
      rw [serveRead, outcome_bind_ok (h1.translate (.inl rfl)), outcome_bind_ok h1.reachHost, outcome_bind_ok h1.recallFor,
        outcome_bind_ok h2, outcome_bind_ok (outcome_withEncodingRecord r ia (outcome_llcRead r.ctx r.world ia x.gen n line h1.whole)),
        outcome_pure]
  rw [maOf_mod_block] at ht
  exact ⟨t, by rw [Machine.sliceRead, outcome_bind_ok ht, outcome_pure], kt⟩

/-! ### Looking again -/

/-- An arm that goes on because its wait is satisfied. -/
def satisfiedArm (y : Arm) : Arm := { y with wait := .retry, joined := true }

section
variable {tid arm world ia cmp : Nat} {target : DWord} {s s1 : State} {c : Cx} {bs : List (BitVec 8)}

/-- One look at what an arm waits for: it goes on when it is satisfied. -/
def look (c : Cx) (tid a ia cmp : Nat) (target : DWord) : Act Unit := do
  if (peerOf (← get) ia).isSome then modArm tid a fun x => { x with wait := .retry }
  else
    match ← attempt (sliceRead c.req ia (if cmp = 3 then 1 else 8) .read) with
    | .ok bs => if watchHolds cmp (numLE bs) target.toNat then modArm tid a satisfiedArm else pure ()
    | .error (.wait _) => pure ()
    | .error _ => modArm tid a fun x => { x with wait := .retry }

theorem outcome_observeWait_watch (hc : cxOf s tid arm .t = some c) (hw : c.a.wait = .watch world ia cmp target) :
    outcome (observeWait tid arm true) s = outcome (look c tid arm ia cmp target) s := by
  rw [observeWait, outcome_bind_ok (outcome_get s), hc]
  dsimp only
  rw [hw]
  rfl

theorem outcome_observeWait_poll (hc : cxOf s tid arm .t = some c) (hw : c.a.wait = .poll world ia cmp target) :
    outcome (observeWait tid arm false) s = outcome (look c tid arm ia cmp target) s := by
  rw [observeWait, outcome_bind_ok (outcome_get s), hc]
  dsimp only
  rw [hw]
  rfl

/-- A look whose read is answered. -/
theorem outcome_look_answered (hp : peerOf s ia = none)
    (h : outcome (sliceRead c.req ia (if cmp = 3 then 1 else 8) .read) s = (.ok bs, s1)) :
    outcome (look c tid arm ia cmp target) s =
      outcome (if watchHolds cmp (numLE bs) target.toNat then modArm tid arm satisfiedArm else pure ()) s1 := by
  rw [look, outcome_bind_ok (outcome_get s), if_neg (by simp [hp]), outcome_bind_ok (outcome_attempt_ok h)]

/-- A look at a slice that serves it and satisfies the wait: the arm goes on, and nothing else is changed. -/
theorem outcome_look_served {x : TlbEntry} {l : LlcLine} {n v : Nat} (hc : cxOf s tid arm .t = some c) (hp : peerOf s ia = none)
    (h : Serves s c.req ia x l) (hn : n = (if cmp = 3 then 1 else 8)) (hv : v = numLE (lineBytes l.bytes (ia % 512) n))
    (hw : watchHolds cmp v target.toNat = true) : ∃ t, outcome (look c tid arm ia cmp target) s = (.ok (), t) ∧
      t.teams = put s.teams tid (armSet c c.t satisfiedArm) ∧ t.llc = s.llc := by
  subst hn hv
  obtain ⟨ht, ha, -, hteam, -⟩ := cxOf_some hc
  obtain ⟨s1, h1, teams, llc⟩ := h.sliceRead_untouched (if cmp = 3 then 1 else 8)
  have here : find? s1.teams c.tid = some c.t := by rw [teams, ht, hteam]
  refine ⟨s1.withTeam c.tid (armSet c c.t satisfiedArm), ?_, ?_, llc⟩
  · rw [outcome_look_answered hp h1, if_pos hw, ← ht, ← ha, outcome_modArm_set here]
  · rw [State.withTeam, teams, ht]

/-- What an arm has come to after a look that is answered. -/
theorem outcome_look {u : Team} (hc : cxOf s tid arm .t = some c) (hp : peerOf s ia = none)
    (h : outcome (sliceRead c.req ia (if cmp = 3 then 1 else 8) .read) s = (.ok bs, s1)) (hu : find? s1.teams tid = some u) :
    outcome (look c tid arm ia cmp target) s = (.ok (), if watchHolds cmp (numLE bs) target.toNat then
      s1.withTeam tid (armSet c u satisfiedArm) else s1) := by
  obtain ⟨ht, ha, -⟩ := cxOf_some hc
  rw [outcome_look_answered hp h]
  split
  · rw [← ht, ← ha, outcome_modArm_set (ht ▸ hu)]
  · rfl

end

end Sys2Proof.Machine
end

section
/-! SUPPORT. Stealing and requests made again (01 R22; 02 R52; 19 R454, R455). -/
namespace Sys2Proof.Machine
open Sys2Proof

section
variable {thief victim tid arm : Nat} {s : State} {c : Cx} {ws : List (List DWord)} {p : Partition}

/-- A victim of the same partition and latch gives what can be stolen from it. -/
theorem outcome_askSteal (ht : (coreOf s thief).tasks = []) (hs : (coreOf s thief).stealing = none)
    (hh : holdsTask s thief = false) (hv : thief ≠ victim)
    (hp : partitionOfQuad s (quadOfCore thief) = partitionOfQuad s (quadOfCore victim)) (hf : isFirmwareCore victim = false)
    (hg : isFirmwareCore thief = false) (hl : (coreOf s thief).latch = (coreOf s victim).latch)
    (hn : (coreOf s thief).latch ≠ none) (hw : ws = stealable (coreOf s victim).tasks) :
    outcome (askSteal thief victim) s = outcome (placeHeldTasks (partOfCore s victim))
      ((s.withCore victim { coreOf s victim with
        tasks := (dropUnpinned ws.length (coreOf s victim).tasks.reverse).reverse }).withCore thief
          { coreOf s thief with stealing := some ws }) := by
  have given : (if (coreOf s thief).latch = (coreOf s victim).latch && (coreOf s thief).latch.isSome
      then stealable (coreOf s victim).tasks else []) = ws := by
    rw [if_pos (by simpa [hl] using Option.isSome_iff_ne_none.2 (hl ▸ hn)), hw]
  rw [askSteal, outcome_bind_ok (outcome_get s)]
  dsimp only
  rw [if_neg (by simp [ht, hs, hh, hv, hp, hf, hg]), given, outcome_bind_ok (outcome_setCore ..),
    outcome_bind_ok (outcome_modCore ..), coreOf_withCore, if_neg hv]

/-- Records whose context is of the thief's latch. -/
def ownRecords (s : State) (core : Nat) (ws : List (List DWord)) : List (List DWord) :=
  ws.filter fun w => (coreOf s core).latch.isSome && (contextOf s (taskContext w)).world = (coreOf s core).latch

/-- Records of other worlds. -/
def otherRecords (s : State) (core : Nat) (ws : List (List DWord)) : List (List DWord) :=
  ws.filter fun w => !((coreOf s core).latch.isSome && (contextOf s (taskContext w)).world = (coreOf s core).latch)

theorem wakeRoom_finishes : Finishes wakeRoom := finishes_modify _

/-- Stolen records go to the thief's queue as far as it has room, and to the queue engine. -/
theorem outcome_takeSteal (hs : (coreOf s thief).stealing = some ws) (hp : find? s.partitions (partOfCore s thief) = some p) :
    outcome (takeSteal thief) s = outcome (placeHeldTasks (partOfCore s thief)) ((runAct wakeRoom
      (s.withCore thief { coreOf s thief with
        stealing := none
        tasks := (coreOf s thief).tasks ++ (ownRecords s thief ws).take (256 - (coreOf s thief).tasks.length) })).withPartition
          (partOfCore s thief) { p with
            tasks := p.tasks ++ otherRecords s thief ws ++ (ownRecords s thief ws).drop
              ((ownRecords s thief ws).take (256 - (coreOf s thief).tasks.length)).length }) := by
  rw [takeSteal, outcome_bind_ok (outcome_get s)]
  dsimp only
  rw [hs]
  dsimp only
  rw [outcome_bind_ok (outcome_setCore ..), outcome_bind_ok (wakeRoom_finishes.runs _)]
  exact outcome_bind_ok (outcome_modPartition_at hp)

/-- With no write owed, none is made again. -/
theorem outcome_retryLate_nothing (h : s.late = []) : outcome retryLate s = (.ok (), s) := by
  have same : { s with late := [] } = s := by rw [← h]
  rw [retryLate, outcome_bind_ok (outcome_get s), h, outcome_bind_ok (outcome_modify ..), same]
  rfl

/-- An arm put back as it stands changes nothing. -/
theorem withArm_same {t : Team} {a : Nat} {x : Arm} (h : armOf t a = some x) : withArm t a (some x) = t := by
  unfold armOf at h
  unfold withArm
  split
  · next first => rw [← h, if_pos first]
  · next second => rw [← h, if_neg second]

/-- A refused request is made again; no write is owed. -/
theorem requestRetry_steps (hc : cxOf s tid arm .t = some c) (hl : s.late = []) :
    exec (.requestRetry tid arm) s = .next (if c.a.wait = .refused then
      s.withTeam tid (armSet c c.t fun y => { y with wait := .retry }) else s.withTeam tid c.t) := by
  obtain ⟨-, ha, -, ht, hx, -⟩ := cxOf_some hc
  refine eventStep_ok ?_
  refine (outcome_bind_ok (outcome_modArm_at ht hx)).trans ((outcome_retryLate_nothing (s := s.withTeam _ _) hl).trans ?_)
  split
  · rw [armSet, ha, hx]
  · exact congrArg (fun t => (Except.ok (), s.withTeam tid t)) (withArm_same hx)

end

end Sys2Proof.Machine
end

section
/-! SUPPORT. JOINC and its patience (02 R60; 11 R329, R330; 19 R461). -/
namespace Sys2Proof.Machine
open Sys2Proof

section
variable {cmp sc v ia : Nat} {a b : Opnd} {s s1 s2 : State} {c : Cx} {u : Team}

theorem outcome_takeStreamFault_none (ht : find? s.teams c.tid = some c.t) (hf : c.t.sfault = false) :
    outcome (takeStreamFault c) s = (.ok (), s) := by
  rw [takeStreamFault, outcome_bind_ok (outcome_get s), ht]
  dsimp only
  rw [if_neg (by simp [hf])]
  rfl

theorem outcome_alignScalar_ok {va n : Nat} {k : AccKind} (h : va % n = 0) (s : State) :
    outcome (alignScalar c va k n) s = (.ok (), s) := by
  rw [alignScalar, if_pos h]
  rfl

/-- Without a notification, the location is observed. -/
theorem outcome_satisfied_observed {va n target : Nat} (hj : c.a.joined = false) (hv : outcome (observe c va n) s = (.ok v, s1)) :
    outcome (satisfied c va n cmp target) s = (.ok (watchHolds cmp v target), s1) := by
  rw [satisfied, if_neg (by simp [hj]), outcome_bind_ok hv]
  rfl

/-- What a JOINC that has no stream fault and names an aligned location comes to, once the location is observed. -/
theorem outcome_joincBody_observed (h : Prepared (fun _ => waitSig 0xd4 sc (decide (cmp < 3)) a b) s c) (hf : c.t.sfault = false)
    (hva : (opScalar c a).toNat % 8 = 0) (hj : c.a.joined = false)
    (hv : outcome (observe c (opScalar c a).toNat 8) s = (.ok v, s1)) :
    outcome (joincBody cmp sc a b c) s = outcome
      (if watchHolds cmp v (opScalar c b).toNat then do
        acquireAt c sc
        mergeFlags c (opScalar c a).toNat
        deliverAsync c sc
        pure .on
      else do
        let s ← get
        let patience := (contextOf s c.b.ctx).jpat
        if patience = 0 then do
          let ia ← plainIa c (opScalar c a).toNat .read
          modArm c.tid c.arm fun x => { x with redo := none }
          parkBlock c.t.bid c.t.idx c.arm ia cmp (BitVec.ofNat 64 (opScalar c b).toNat)
        else pure ()
        if hasLeft (← get) c.t.bid then throw (.wait .retry)
        else startWait c (opScalar c a).toNat cmp (opScalar c b).toNat (some (s.time + patience)) : Act Next) s1 := by
  rw [joincBody, outcome_bind_ok (outcome_takeStreamFault_none (cxOf_team h.here) hf)]
  exact (outcome_bind_ok (outcome_alignScalar_ok hva s)).trans (outcome_bind_ok (outcome_satisfied_observed hj hv))

/-- A JOINC whose location satisfies it goes on. -/
theorem outcome_joincBody_goes (h : Prepared (fun _ => waitSig 0xd4 sc (decide (cmp < 3)) a b) s c) (hf : c.t.sfault = false)
    (hva : (opScalar c a).toNat % 8 = 0) (hj : c.a.joined = false)
    (hv : outcome (observe c (opScalar c a).toNat 8) s = (.ok v, s1)) (hw : watchHolds cmp v (opScalar c b).toNat = true)
    (hd : outcome (do acquireAt c sc; mergeFlags c (opScalar c a).toNat; deliverAsync c sc) s1 = (.ok (), s2)) :
    outcome (joincBody cmp sc a b c) s = (.ok .on, s2) := by
  rw [outcome_joincBody_observed h hf hva hj hv, if_pos hw]
  have whole := outcome_bind_ok (f := fun _ => (pure .on : Act Next)) hd
  simp only [bind_assoc] at whole
  exact whole

/-- A JOINC whose location does not satisfy it waits, with a patience. -/
theorem outcome_joincBody_waits (h : Prepared (fun _ => waitSig 0xd4 sc (decide (cmp < 3)) a b) s c) (hf : c.t.sfault = false)
    (hva : (opScalar c a).toNat % 8 = 0) (hj : c.a.joined = false)
    (hv : outcome (observe c (opScalar c a).toNat 8) s = (.ok v, s1)) (hw : watchHolds cmp v (opScalar c b).toNat = false)
    (hp : (contextOf s1 c.b.ctx).jpat ≠ 0) (hl : hasLeft s1 c.t.bid = false)
    (hi : outcome (plainIa c (opScalar c a).toNat .read) s1 = (.ok ia, s2)) :
    outcome (joincBody cmp sc a b c) s = (.error (.wait (.joinc c.b.world ia cmp (opScalar c b)
      (decide (watchesOn s2 c.b.core < 64) && (peerOf s2 ia).isNone) (s1.time + (contextOf s1 c.b.ctx).jpat))), s2) := by
  rw [outcome_joincBody_observed h hf hva hj hv, if_neg (by simp [hw]), outcome_bind_ok (outcome_get s1)]
  dsimp only
  rw [if_neg hp, outcome_bind_ok (outcome_get s1), if_neg (by simp [hl]), startWait,
    outcome_bind_ok hi, outcome_bind_ok (outcome_get s2)]
  dsimp only
  rw [BitVec.ofNat_toNat, BitVec.setWidth_eq]
  rfl

/-- A wait of an arm from the state that its instruction leaves. -/
theorem waits_holds {g : Cx → Sig} {w : Wait} {body : Cx → Act Next} (h : Prepared g s c)
    (hb : outcome (body c) s = (.error (.wait w), s1)) (hw : w ≠ .refused) (hu : find? s1.teams c.tid = some u) :
    Waits (teamStep g body s) s1 c u w := by
  refine ⟨s1.withTeam c.tid (armSet c u fun x => { x with wait := w }), ?_, rfl, rfl⟩
  rw [teamStep_holds h hb hw, runAct_eq, outcome_modArm_set hu]

end

/-! ### The end of a patience (02 R60) -/

section
variable {tid arm world ia cmp since : Nat} {target : DWord} {ok : Bool} {s s0 s1 s2 : State} {c : Cx} {p : Partition}

theorem outcome_patienceOver (hc : cxOf s tid arm .t = some c) (hw : c.a.wait = .joinc world ia cmp target ok since) :
    outcome (patienceOver tid arm) s =
      outcome (if since ≤ s.time then parkBlock c.t.bid c.t.idx arm ia cmp target else pure ()) s := by
  rw [patienceOver, outcome_bind_ok (outcome_get s), hc]
  dsimp only
  rw [hw]

/-- A block that owes nothing is parked for a join whose counter answers. -/
theorem outcome_parkBlock {bid idx : Nat} {b x : Block} {bs : List (BitVec 8)} {i : Option Nat} (hb : find? s.blocks bid = some b)
    (hr : b.st = .resident) (hs : saveReady s bid b = true) (hp : find? s.partitions b.part = some p) (hf : freeTrigger p ≠ none)
    (hn : peerOf s ia = none) (h0 : outcome (sliceRead (frontReq b.part (some b.ctx) b.world) ia 8 .read) s = (.ok bs, s0))
    (h1 : outcome (saveBlock bid b.frameVa .parked false) s0 = (.ok true, s1))
    (h2 : outcome (armTrigger b.part (parkEntry b ia cmp target bid idx arm)) s1 = (.ok i, s2))
    (hx : find? s2.blocks bid = some x) (hk : x.st = .parked) :
    outcome (parkBlock bid idx arm ia cmp target) s = (.ok (), s2.withBlock bid { x with trigger := i }) := by
  rw [parkBlock, outcome_bind_ok (outcome_get s), hb]
  dsimp only
  rw [hp]
  dsimp only
  rw [if_pos (by simp [hr, hs, hn, Option.isSome_iff_ne_none.2 hf])]
  refine (outcome_bind_ok (outcome_attempt_ok h0)).trans ?_
  dsimp only
  rw [outcome_bind_ok h1, if_pos rfl, outcome_bind_ok (outcome_attempt_ok h2)]
  dsimp only
  rw [outcome_modBlock, adjust, hx]
  dsimp only
  rw [if_pos hk]
  rfl

end

end Sys2Proof.Machine
end

section
/-! SUPPORT. Resumable faults, saves and flushes as events (03 R78; 04 R100; 05 R151; 12 R365; 19 R442). -/
namespace Sys2Proof.Machine
open Sys2Proof

section
variable {bid id part : Nat} {s : State} {x : Block} {p : Partition} {f : FaultRec}

/-- The state with a fault's record changed. -/
def State.withFault (s : State) (id : Nat) (f : FaultRec) : State := { s with faults := put s.faults id f }

/-- A fault that has taken a counter and is posted to its resolver (04 R100). -/
def postedFault (s : State) (part id : Nat) (p : Partition) (f : FaultRec) : State :=
  { (s.withPartition part { p with faultFree := p.faultFree - 1, faultWait := [] }).withFault id { f with state := 2 } with
    hostBox := s.hostBox ++ [.fault id (if f.stage = 1 then guestOf s f.world else none) f.stage f.world f.addr] }

theorem outcome_postFault (hf : find? s.faults id = some f) (hp : find? s.partitions part = some p)
    (hw : dropAll p.faultWait id = []) : outcome (postFault part id) s = (.ok (), postedFault s part id p f) := by
  rw [postFault, outcome_bind_ok (outcome_get s), hf]
  dsimp only
  rw [outcome_bind_ok (outcome_modPartition_at hp), hw]
  rfl

/-- A counter that is free and that none waits for is taken. -/
theorem outcome_takeUpFault_free (hf : find? s.faults id = some f) (hp : find? s.partitions part = some p)
    (h0 : 0 < p.faultFree) (hw : p.faultWait = []) :
    outcome (takeUpFault part id) s = (.ok (), postedFault s part id p f) := by
  rw [takeUpFault, outcome_bind_ok (outcome_get s), hp, hf]
  dsimp only
  rw [if_pos (by simp [h0, hw]), outcome_postFault hf hp (by rw [hw]; rfl)]

/-- Without a free counter the fault takes its place in the queue. -/
theorem outcome_takeUpFault_full (hf : find? s.faults id = some f) (hp : find? s.partitions part = some p)
    (h0 : p.faultFree = 0) : outcome (takeUpFault part id) s = (.ok (), (s.withPartition part
      { p with faultWait := p.faultWait ++ [id] }).withFault id { f with state := 1 }) := by
  rw [takeUpFault, outcome_bind_ok (outcome_get s), hp, hf]
  dsimp only
  rw [if_neg (by simp [h0])]
  rfl

/-- A block without a posted fault of a core's access stays. -/
theorem outcome_parkForFault_stays (hb : find? s.blocks bid = some x) (hn : postedFor s x = false) :
    outcome (parkForFault bid) s = (.ok (), s) := by
  rw [parkForFault, outcome_bind_ok (outcome_get s), hb]
  dsimp only
  rw [if_neg (by simp [hn])]
  rfl

theorem outcome_parkForFault_gone (hb : find? s.blocks bid = none) : outcome (parkForFault bid) s = (.ok (), s) := by
  rw [parkForFault, outcome_bind_ok (outcome_get s), hb]
  rfl

/-- An operation's fault does not park its block. -/
theorem postedFor_operation {g : FaultRec} (hx : x.faults = [id]) (hf : find? s.faults id = some g) (ho : g.op ≠ none) :
    postedFor s x = false := by
  simp [postedFor, hx, hf, Option.isNone_iff_eq_none, ho]

/-- The one new fault of a block, an operation's, is taken up. -/
theorem outcome_takeUpFaults {t : State} {g : FaultRec} (hb : find? s.blocks bid = some x) (hx : x.faults = [id])
    (hf : find? s.faults id = some f) (h0 : f.state = 0) (ht : outcome (takeUpFault x.part id) s = (.ok (), t))
    (hbt : t.blocks = s.blocks) (hft : find? t.faults id = some g) (ho : g.op ≠ none) :
    outcome (takeUpFaults bid) s = (.ok (), t) := by
  rw [takeUpFaults, outcome_bind_ok (outcome_get s), hb]
  dsimp only
  rw [hx, List.filter_cons_of_pos (by simp [hf, h0]), List.filter_nil, outcome_bind_ok ((outcome_each_one ..).trans ht)]
  exact outcome_parkForFault_stays (hbt ▸ hb) (postedFor_operation hx hft ho)

/-- The oldest fault that waits takes a counter that has come free. -/
theorem outcome_grantCounter (hp : find? s.partitions part = some p) (hw : p.faultWait = [id]) (h0 : 0 < p.faultFree)
    (hf : find? s.faults id = some f) (hb : find? s.blocks f.bid = none) :
    outcome (grantCounter part) s = (.ok (), postedFault s part id p f) := by
  rw [grantCounter, outcome_bind_ok (outcome_get s), hp]
  dsimp only
  rw [hw]
  dsimp only
  rw [if_neg (by omega), outcome_bind_ok (outcome_postFault hf hp (by simp [dropAll, hw])), hf]
  exact outcome_parkForFault_gone hb

/-- The change of an operation that is there. -/
theorem outcome_modOp_at {n : Nat} {g : EngineOp → EngineOp} {o : EngineOp} (h : find? s.ops n = some o) :
    outcome (modOp n g) s = (.ok (), s.withOp n (g o)) := by
  rw [outcome_modOp, adjust, h]
  rfl

/-- The resolver's word on an operation's fault: the counter returns, and the operation goes on or has failed. -/
theorem outcome_resolveFault {ok : Bool} {n : Nat} {o : EngineOp} (hf : find? s.faults id = some f) (h2 : f.state = 2)
    (hb : find? s.blocks f.bid = some x) (hp : find? s.partitions x.part = some p) (hn : f.op = some n)
    (ho : find? s.ops n = some o) : outcome (resolveFault id ok) s =
      (.ok (), ((({ s with faults := del s.faults id }.withPartition x.part { p with faultFree := p.faultFree + 1 }).withBlock
        f.bid { x with faults := dropAll x.faults id }).withOp n (resolveOp ok o))) := by
  rw [resolveFault, outcome_bind_ok (outcome_get s), hf]
  dsimp only
  rw [if_neg (by simp [h2]), outcome_bind_ok (outcome_modify ..), hb]
  dsimp only
  refine (outcome_bind_ok (outcome_modPartition_at (s := { s with faults := del s.faults id }) hp)).trans ?_
  rw [hn]
  refine (outcome_bind_ok (outcome_setBlock ..)).trans ?_
  exact outcome_modOp_at ho

end

/-! ### Saves and flushes (03 R78; 05 R151; 12 R365) -/

section
variable {bid : Nat} {s : State} {x : Block}

/-- A block to be saved, to which nothing is owed, is saved: to wait for its trigger when one is armed, else in its queue. -/
theorem runAct_saveHome (hb : find? s.blocks bid = some x) (hr : x.st = .resident) (hs : saveReady s bid x = true) :
    runAct (saveHome bid) s =
      runAct (saveBlock bid x.frameVa (if armedFor s x then .parked else .saved) (!armedFor s x)) s := by
  rw [runAct_eq, saveHome, outcome_bind_ok (outcome_get s), hb]
  dsimp only
  rw [if_pos (by simp [hr, hs])]
  exact runAct_answer_dropped _ s

theorem blockSave_saves (hb : find? s.blocks bid = some x) (hp : x.preempt = .save) :
    exec (.blockSave bid) s = .next (runAct (saveHome bid) s) := by
  refine eventStep_same ?_
  rw [outcome_bind_ok (outcome_get s), hb]
  dsimp only
  rw [if_pos hp]

theorem blockFlush_flushes (hb : find? s.blocks bid = some x) (hp : x.preempt = .flush) (hr : x.st = .resident) :
    exec (.blockFlush bid) s = .next (runAct (flushBlock bid true) s) := by
  refine eventStep_same ?_
  rw [outcome_bind_ok (outcome_get s), hb]
  dsimp only
  rw [if_pos (by simp [hp, hr])]

theorem modLaunch_finishes (i : Nat) (f : Launch → Launch) : Finishes (modLaunch i f) := fun s => ⟨_, outcome_modLaunch i f s⟩

theorem modPartition_finishes (i : Nat) (f : Partition → Partition) : Finishes (modPartition i f) := fun s =>
  ⟨_, outcome_modPartition i f s⟩

theorem requeueGang_finishes (id : Nat) : Finishes (requeueGang id) := by
  refine finishes_get fun s => ?_
  dsimp only
  split
  · exact modLaunch_finishes _ _
  · split
    · exact finishes_seq (modLaunch_finishes _ _) fun _ => finishes_seq (finishes_modify _) fun _ =>
        modPartition_finishes _ _
    · exact traffic_pure.finishes

theorem preemptGangs_finishes (ids : List Nat) : Finishes (preemptGangs ids) :=
  finishes_get fun _ => finishes_seq (finishes_modify _) fun _ => finishes_each requeueGang_finishes _

/-- A draining block that has spent too much is saved, and its gang with it (03 R78). -/
theorem drainOverrun_judges {limit : Nat} (hb : find? s.blocks bid = some x) (hp : x.preempt = .drain limit) :
    exec (.drainOverrun bid) s = .next (if limit < spentOf s bid x then
      runAct (preemptGangs [x.launch]) (s.withBlock bid { x with preempt := .save }) else s) := by
  refine eventStep_ok ?_
  rw [outcome_bind_ok (outcome_get s), hb]
  dsimp only
  rw [hp]
  dsimp only
  rw [outcome_bind_ok (outcome_get s)]
  split
  · rw [outcome_bind_ok (outcome_setBlock ..), (preemptGangs_finishes _).runs]
  · rfl

end

end Sys2Proof.Machine
end

section
/-! PROOF. The events of work (02 R52, R53, R60; 03 R78; 04 R100; 05 R151; 09 R282; 11 R329; 12 R365; 19 R442, R454, R455, R461). -/
namespace Sys2Proof.Machine
open Sys2Proof

/-- Settles O46, event by event: counter updates, looks at waits, stealing, retries, JOINC and its patience, faults, and the
saves and flushes of blocks. -/
theorem workEvents : Obligations.WorkEvents := by
  refine fun tid arm ia cmp sc thief victim bid part id va v since world delta target ok a b s s1 s2 c u bs ws x p f i =>
    ⟨?counters, ?waits, ?request, ?answer, ?retry, ?join, ?patience, ?faults, ?grant, ?resolved, ?blocks⟩
  case counters =>
    exact fun ha hi hw r hr => ⟨fun _ _ h => counterUpdate_answers ha hi hw hr h, fun _ _ h => counterUpdate_waits ha hi hw hr h,
      fun _ _ h hu => counterUpdate_served ha hi hw hr h hu⟩
  case waits =>
    refine fun hc hp => ⟨fun e l n v h hn _ hv hw => ?_, fun h hu h2 => ?_⟩
    · obtain ⟨t, ht, kt⟩ := outcome_look_served hc hp h hn hv hw
      exact ⟨fun hwait => ⟨t, eventStep_ok ((outcome_observeWait_watch hc hwait).trans ht), kt⟩,
        fun hwait => ⟨t, eventStep_ok ((outcome_observeWait_poll hc hwait).trans ht), kt⟩⟩
    · have looked := outcome_look (cmp := cmp) (target := target) hc hp h hu
      exact ⟨fun hwait _ => h2 ▸ eventStep_ok ((outcome_observeWait_watch hc hwait).trans looked),
        fun hwait _ => h2 ▸ eventStep_ok ((outcome_observeWait_poll hc hwait).trans looked)⟩
  case request =>
    exact fun ht hs hh hv hp hf hg hl hn hw => eventStep_same (outcome_askSteal ht hs hh hv hp hf hg hl hn hw)
  case answer =>
    rintro hs hp own rest rfl rfl
    exact eventStep_same (outcome_takeSteal hs hp)
  case retry => exact fun hc hl => requestRetry_steps hc hl
  case join =>
    rintro h hf rfl hva hj hv
    exact ⟨fun hw hd hu => teamStep_completes h (outcome_joincBody_goes h hf hva hj hv hw hd) hu,
      fun hw hp hl hi hu => waits_holds h (outcome_joincBody_waits h hf hva hj hv hw hp hl hi) (by simp) hu⟩
  case patience =>
    intro hc hw
    have ended := outcome_patienceOver hc hw
    refine ⟨fun hs => eventStep_ok (ended.trans (by rw [if_neg (by omega)]; rfl)),
      fun hs => eventStep_same (ended.trans (by rw [if_pos hs])), fun hs hr hsv hp hf hn s0 h0 h1 h2 hx hk => ?_⟩
    refine eventStep_ok (ended.trans ?_)
    rw [if_pos hs]
    exact outcome_parkBlock (cxOf_block hc) hr hsv hp hf hn h0 h1 h2 hx hk
  case faults =>
    intro hb hx hf h0 ho hp _
    exact ⟨fun hfree hw => eventStep_ok (outcome_takeUpFaults hb hx hf h0 (outcome_takeUpFault_free hf hp hfree hw) rfl
        (find?_put_self ..) ho),
      fun hfull => eventStep_ok (outcome_takeUpFaults hb hx hf h0 (outcome_takeUpFault_full hf hp hfull) rfl
        (find?_put_self ..) ho)⟩
  case grant => exact fun hp hw h0 hf hb => eventStep_ok (outcome_grantCounter hp hw h0 hf hb)
  case resolved => exact fun hf h2 hb hp n o hn ho => eventStep_ok (outcome_resolveFault hf h2 hb hp hn ho)
  case blocks =>
    intro hb
    refine ⟨fun hp hr hs ha => (blockSave_saves hb hp).trans (congrArg _ ?_),
      fun hp hr hs ha => (blockSave_saves hb hp).trans (congrArg _ ?_), fun hp hr => blockFlush_flushes hb hp hr,
      fun limit hp => drainOverrun_judges hb hp⟩
    · rw [runAct_saveHome hb hr hs, ha]
      rfl
    · rw [runAct_saveHome hb hr hs, ha]
      rfl

end Sys2Proof.Machine
end
